-- ==== Sys2Proof/Word.lean ====
section
/-! DEFINITION. The word types of the VS440: bytes of the two serial lines, 32-bit counts (ticks, lug counts, clock, bundle
numbers), and the numbers of bins, banks, channels and spindles. -/

namespace Sys2Proof

/-- One byte of a frame of either serial line (Table 65). -/
abbrev Byte := BitVec 8

/-- A 32-bit count that wraps: a belt position in ticks, a lug count, the line clock, a bundle number (Table 2). -/
abbrev Word := BitVec 32

/-- A bin; the manual's bins 1 to 8 (Table 3) are 0 to 7 here. -/
abbrev Bin := Fin 8

/-- A recipe bank, 0 or 1 (Table 3). -/
abbrev BankId := Fin 2

/-- An analog channel, AIN0 to AIN15 (Table 3). -/
abbrev Channel := Fin 16

/-- A moulder spindle: TOP, BOTTOM, TONGUE, GROOVE are 0 to 3 (R66). -/
abbrev Spindle := Fin 4

end Sys2Proof
end

