-- ==== Sys2Proof/Syntax.lean ====
section
/-! DEFINITION. The commands of the VS440: one constructor for each row of spec/opcode_table.json, with what the event brings
from outside as its operands. The rows that name a host request have no operand of their own: the request's kind, tag and body
come in with REQUEST_RECEIVED and wait in the request queue until the request is taken (R205). -/

namespace Sys2Proof

/-- The vision unit's lines as the Scan Unit samples them at a pass: DEFECT GATE and SEV0 to SEV2 (R39). -/
structure GateSample where
  active : Bool
  severity : BitVec 3
  deriving DecidableEq, Repr

/-- The commands. A row's summary stands in spec/opcode_table.json; each docstring names the rule the table gives. -/
inductive Instr where
  /-- R214: release of RESET or application of power; the levels of E-STOP and of BIN EMPTY1 (bit 0) to 8 (bit 7) at that moment. -/
  | powerOn (estop : Bool) (binEmpty : BitVec 8)
  /-- R9: the RESET LINE at the head of the request queue is taken. -/
  | resetLine
  /-- R8. -/
  | eStopActive
  /-- R8. -/
  | eStopInactive
  /-- R2: one forward quadrature step; the gate lines as a pass taken at this step samples them. -/
  | encForwardStep (gate : GateSample)
  /-- R24: one reverse quadrature step. -/
  | encReverseStep
  /-- R15: the gate lines matter only to a pass that is taken at its registration (R2). -/
  | ieLeadingEdge (gate : GateSample)
  /-- R16. -/
  | ieTrailingEdge
  /-- R20. -/
  | seLeadingEdge
  /-- R4. -/
  | seTrailingEdge
  /-- R32: the converter finishes a pass; the voltage that each entry of the scan list met, in list order, in units of 5 V / 4095
  (assumption logs 7, 9); places beyond the list count are not read. -/
  | conversionComplete (volts : Vector Int 16)
  /-- R74: the completion event of the processing in flight. -/
  | processingComplete
  /-- R110: the run on the resumption path ends. -/
  | resumptionRunEnd
  /-- R138: one LUG pulse; the levels of PRESENT and LENGTH FAULT at the tenoner. -/
  | lugPulse (present : Bool) (lengthFault : Bool)
  /-- R142: a leading edge of LANDINGb. -/
  | landingEdge (bin : Bin)
  /-- R155: BIN EMPTYb changes to active. -/
  | binEmptyActive (bin : Bin)
  /-- R94. -/
  | sawPulseEnd
  /-- R134. -/
  | transferPulseEnd
  /-- R181. -/
  | dumpPulseEnd (bin : Bin)
  /-- R179: a READY frame with its ready field. -/
  | ready (field : Byte)
  /-- R179: the last byte of the PRINT being sent goes out. -/
  | printSent
  /-- R180: an ACCEPT frame with its sequence. -/
  | accept (sequence : Word)
  /-- R183: an APPLIED frame with its sequence. -/
  | applied (sequence : Word)
  /-- R184: a FAULT frame with its sequence and labeller code. -/
  | fault (sequence : Word) (code : Byte)
  /-- R184. -/
  | acceptTimerExpiry
  /-- R184. -/
  | appliedTimerExpiry
  /-- R185: bytes on LABEL RXD that end in a frame the Label Unit discards. -/
  | labelFrameError (bytes : List Byte)
  /-- R185: bytes on LABEL RXD followed by a gap of 5 ms. -/
  | labelFrameGap (bytes : List Byte)
  /-- R204: bytes on LINK RXD followed by a gap of more than 5 ms. -/
  | linkFrameGap (bytes : List Byte)
  /-- R204: bytes on LINK RXD that end in a frame the port discards. -/
  | linkFrameError (bytes : List Byte)
  /-- R205: a checked request frame. -/
  | requestReceived (kind : Byte) (tag : Byte) (body : List Byte)
  /-- R207: the last byte of the frame being sent goes out on LINK TXD. -/
  | frameSent
  /-- R213. -/
  | clockSecond
  /-- R206. -/
  | unknownRequest
  /-- R212. -/
  | identify
  /-- R212. -/
  | status
  /-- R209. -/
  | configure
  /-- R210. -/
  | readConfig
  /-- R6. -/
  | start
  /-- R7. -/
  | drain
  /-- R11. -/
  | infeedHold
  /-- R208. -/
  | noticeMask
  /-- R213. -/
  | setClock
  /-- R188. -/
  | setLot
  /-- R194. -/
  | recipeBegin
  /-- R195. -/
  | recipePut
  /-- R196. -/
  | recipeCommit
  /-- R199. -/
  | recipeSwitch
  /-- R200. -/
  | recipeRead
  /-- R122. -/
  | answer
  /-- R18. -/
  | readStrip
  /-- R133. -/
  | readCutting
  /-- R172. -/
  | readBin
  /-- R168. -/
  | binHold
  /-- R165. -/
  | closeBundle
  /-- R186. -/
  | labelRetry
  /-- R187. -/
  | labelVoid
  /-- R189. -/
  | readLabels
  /-- R58. -/
  | profileResume
  /-- R66. -/
  | toolSet
  /-- R68. -/
  | readTools
  /-- R211. -/
  | readFault
  /-- R211. -/
  | clearFault
  /-- R147. -/
  | readReturns
  /-- R155: BIN EMPTYb changes to inactive. -/
  | binEmptyInactive (bin : Bin)
  /-- R214: the RESET pin is asserted. -/
  | resetPinAsserted
  deriving DecidableEq, Repr

end Sys2Proof
end

