-- ==== Sys2Proof/Decode.lean ====
section
/-! DEFINITION. The command a word spells by the table's bits. No row of spec/opcode_table.json gives bits: a command reaches the block as a
pin event or inside a frame, whose form Machine/Operands.lean holds. -/

namespace Sys2Proof

/-- The command of a table word: none, since no row gives bits. -/
def decodeTableWord (_nbits _w : Nat) : Option Instr := none

end Sys2Proof
end

