-- ==== Sys2Proof/Config.lean ====
section
/-! DEFINITION. What the part fixes (capacities, identity codes) and the free values: constants without a body, so that nothing
can be proved of a value the manual leaves open. -/

namespace Sys2Proof.Config

/-- Strip records of the strip table (R13). -/
def stripCapacity : Nat := 16
/-- Cutting records of the Cutting Table (R129). -/
def cuttingCapacity : Nat := 128
/-- Entries of the saw fire list, and lines of one plan (R79, R90). -/
def lineCapacity : Nat := 48
/-- Cuttings of one plan (R87). -/
def planCuttings : Nat := 16
/-- Cuttings on the transfer deck (R136). -/
def deckCapacity : Nat := 12
/-- Pass slots of a sample store (R36). -/
def storePasses : Nat := 2048
/-- Zones of one strip (R43). -/
def zoneCapacity : Nat := 16
/-- Values of the drift ring (R59). -/
def driftCapacity : Nat := 16
/-- Outstanding referral slots (R116). -/
def slotCapacity : Nat := 4
/-- Places of the referral waiting list (R116). -/
def waitingCapacity : Nat := 4
/-- Labels of the label queue (R177). -/
def labelCapacity : Nat := 8
/-- Requests of the request queue (R205). -/
def requestCapacity : Nat := 4
/-- Notices of the notice queue (R207). -/
def noticeCapacity : Nat := 32
/-- Free cutting records below which RECORDS holds the infeed (R132). -/
def recordsFloor : Nat := 16
/-- The largest strip number (Table 3). -/
def lastStripNumber : Nat := 16777215

/-- The vendor code of IDENTIFY (R212). -/
def vendorCode : Nat := 0x0A37
/-- The part code of IDENTIFY (R212). -/
def partCode : Nat := 440
/-- The silicon revision of IDENTIFY (R212). -/
def siliconRevision : Nat := 1
/-- The link version of IDENTIFY (R212). -/
def linkVersion : Nat := 1

/-- FREE VALUE, DESIGN CHOICE, safe (assumption log 4): which of several position events registered at one position is taken next; the spec gives
no order (R39 allows either). Its argument is the number of free values drawn before. -/
opaque pickEvent : Nat → Nat

/-- FREE VALUE, DESIGN CHOICE, unsafe (assumption log 6): how much of the work of R72 a processing does when it begins, counted as
allocations and planning runs; the rest it does by its completion. The spec gives no moments within a processing (R73). Its argument
is the number of free values drawn before. -/
opaque workDone : Nat → Nat

/-- FREE VALUE, DESIGN CHOICE, safe (assumption log 7): whether the converter rounds a voltage that lies between two codes up. The
spec gives the conversion as linear and states no rounding (R27). Its arguments are the range code and the voltage. -/
opaque adcRoundsUp : Nat → Int → Bool

/-- FREE VALUE, DESIGN CHOICE, safe (assumption log 14): the time left on a running label timer in ms, before its limit is applied; time is
not in the model (R189). Its argument is the number of free values drawn before. -/
opaque timeLeftMs : Nat → Nat

end Sys2Proof.Config
end

