-- ==== Sys2Proof/Machine/State.lean ====
section
/-! DEFINITION. The state of the VS440 as plain data: one structure for each block of Table 1 (00_scope.md) with the state
the block owns, the messages the part sends, the queue of waiting commands, and the machine right after power-on. -/

namespace Sys2Proof.Machine

/-! ### Identifiers and small enumerations -/

/-- A cutting id: strip number with cutting index (Table 3). -/
structure CuttingId where
  strip : Nat
  index : Nat
  deriving DecidableEq, Repr

/-- The line states (R5). -/
inductive LineState where
  | standby | ready | run | drain | estop
  deriving DecidableEq, Repr

/-- The hold-cause set (R10, Table 7): each cause is in the set or not. -/
structure HoldSet where
  notRun : Bool
  drain : Bool
  host : Bool
  deck : Bool
  profile : Bool
  flush : Bool
  trackFull : Bool
  records : Bool
  deriving DecidableEq, Repr

/-- Strip states (Table 9). -/
inductive StripState where
  | entering | clearedIe | scanning | waitingPlan | planned | cutting | unplanned | lost
  deriving DecidableEq, Repr

/-- The reason field of a strip record (Table 8). -/
inductive StripReason where
  | unscanned | latePlan | fireListFull | missingEdge | ambiguous | jam
  deriving DecidableEq, Repr

/-- The reasons of a FLUSH notice (R26). -/
inductive FlushReason where
  | ambiguous | jam | reset | estop
  deriving DecidableEq, Repr

/-- The two sample stores (R36). -/
inductive StoreId where
  | a | b
  deriving DecidableEq, Repr

/-- Where a zone comes from (Table 16); GATE gives kind DEFECT, a channel gives kind GAUGE. -/
inductive ZoneSource where
  | gate
  | channel (c : Channel)
  deriving DecidableEq, Repr

/-- Profile classes and the profile status of a strip (R53, R55). -/
inductive ProfileStatus where
  | ok | warn | limit
  deriving DecidableEq, Repr

/-- Kinds of cut line (R79). -/
inductive LineKind where
  | trimLead | zoneStart | zoneEnd | separation | trimTrail
  deriving DecidableEq, Repr

/-- Status of a cut line (R79). -/
inductive LineStatus where
  | pending | fired | dropped
  deriving DecidableEq, Repr

/-- Channel roles (Table 14, Table 15). -/
inductive Role where
  | thick1 | thick2 | thick3 | thick4 | width | tongueT | tongueL | grooveW | grooveD | moist | none
  deriving DecidableEq, Repr

/-- Window comparator modes (Table 14). -/
inductive CompMode where
  | off | below | above | outside | inside
  deriving DecidableEq, Repr

/-- Comparator actions (Table 14). -/
inductive CompAction where
  | mark | cut
  deriving DecidableEq, Repr

/-- Spindle states (Table 23). -/
inductive SpindleState where
  | unset | live | expired
  deriving DecidableEq, Repr

/-- Cutting states (Table 46). -/
inductive CuttingState where
  | planned | cut | onDeck | onLug | checked | mismatch | dropping
  deriving DecidableEq, Repr

/-- Grading status (Table 36). -/
inductive GradeStatus where
  | ungraded | referred | resuming | graded
  deriving DecidableEq, Repr

/-- The grade of a cutting (Table 36). -/
inductive Grade where
  | reject
  | index (g : Nat)
  deriving DecidableEq, Repr

/-- Reject reasons (Table 36). -/
inductive RejectReason where
  | noGrade | referralOverflow | referralExpired
  deriving DecidableEq, Repr

/-- The destination of a cutting (Table 45). -/
inductive Dest where
  | bin (b : Bin)
  | toReturn
  deriving DecidableEq, Repr

/-- Return reasons (Table 47). -/
inductive ReturnReason where
  | unscanned | latePlan | fireListFull | missingEdge | ambiguous | jam | deckFull
  | noGrade | referralOverflow | referralExpired | noBin | mismatch | missing | dropMiss
  deriving DecidableEq, Repr

/-- A position with its kind (R146, R147). -/
inductive Place where
  | tick (t : Word)
  | lug (t : Word)
  deriving DecidableEq, Repr

/-- What a return record names (R147). -/
inductive ReturnObject where
  | strip (n : Nat)
  | cutting (id : CuttingId)
  deriving DecidableEq, Repr

/-- Bank states (Table 59). -/
inductive BankState where
  | empty | loading | valid | active | retiring
  deriving DecidableEq, Repr

/-- The state under a hold (R153). -/
inductive Underlying where
  | opened | filled
  deriving DecidableEq, Repr

/-- Bin states (Table 52); HELD keeps its underlying state (R153). -/
inductive BinState where
  | idle | opened | filled | closing | labelling | clearing
  | held (u : Underlying)
  deriving DecidableEq, Repr

/-- Causes of a FAULTED head (R184). -/
inductive LabelCause where
  | acceptTimeout | appliedTimeout | labeller
  deriving DecidableEq, Repr

/-- The state of the head of the label queue (R175); the accept timer runs exactly in `sent`, the applied timer exactly in
`accepted` (R179, R180, R184). -/
inductive HeadState where
  | waitReady
  | sent
  | accepted
  | faulted (cause : LabelCause) (code : Byte)
  deriving DecidableEq, Repr

/-- Outcomes of a dispatch (R183, R187). -/
inductive Outcome where
  | applied | voided
  deriving DecidableEq, Repr

/-- The standing of a referral, in the tag memory (R116) and at its end (R127). -/
inductive Standing where
  | outstanding | waiting | none
  deriving DecidableEq, Repr

/-- Reasons of a REFERRAL END notice (R127). -/
inductive ReferralEndReason where
  | expired | withdrawn | overflow
  deriving DecidableEq, Repr

/-- The four fault records (R211). -/
inductive FaultBook where
  | belt | chain | label | link
  deriving DecidableEq, Repr

/-- The object of a fault (Tables 11, 48, 57, 70). -/
inductive FaultObject where
  | none
  | strip (n : Nat)
  | cutting (id : CuttingId)
  | bundle (n : Word)
  deriving DecidableEq, Repr

/-! ### Motion Unit and Line Controller -/

/-- What a registered position event does when it is taken (R2). -/
inductive EventKind where
  | seOpen (strip : Nat)
  | seEnd (strip : Nat)
  | removal (strip : Nat)
  | flushClear
  | scanOpen (strip : Nat)
  | pass (strip : Nat)
  | fire (strip : Nat) (line : Nat)
  | transfer (id : CuttingId)
  deriving DecidableEq, Repr

/-- A registered position event (R2). -/
structure PosEvent where
  pos : Word
  what : EventKind
  deriving DecidableEq, Repr

/-- The Motion Unit (R1 to R4). -/
structure Motion where
  travel : Word
  mark : Word
  lug : Word
  events : List PosEvent
  deriving DecidableEq, Repr

/-- The Line Controller (R5, R10) with the level of the E-STOP input (R8, R212). -/
structure LineCtl where
  state : LineState
  holds : HoldSet
  estopLevel : Bool
  deriving DecidableEq, Repr

/-! ### Belt Tracker -/

/-- A zone record (Table 16); `stop` is the end pass, exclusive. -/
structure Zone where
  source : ZoneSource
  start : Nat
  stop : Nat
  severity : Nat
  deriving DecidableEq, Repr

/-- A line of a cut plan (R79); `pos` in mm, `offset` in ticks. -/
structure PlanLine where
  pos : Nat
  kind : LineKind
  offset : Nat
  starts : Option Nat
  ends : Option Nat
  status : LineStatus
  deriving DecidableEq, Repr

/-- Status flags of a strip (Table 8). -/
structure StripFlags where
  overlength : Bool
  tailCut : Bool
  zoneSat : Bool
  starved : Bool
  sparse : Bool
  unscanned : Bool
  deriving DecidableEq, Repr

/-- A strip record (Table 8), with whether its SE window is open (R19) and whether its removal position was taken while it
held cuttings (R17). -/
structure Strip where
  number : Nat
  bank : BankId
  lead : Word
  trail : Option Word
  length : Option Nat
  shift : Option Int
  store : Option StoreId
  zones : List Zone
  profile : Option ProfileStatus
  tool : Bool
  lines : List PlanLine
  cuttings : List CuttingId
  yield : Option Nat
  flags : StripFlags
  reason : Option StripReason
  state : StripState
  windowOpen : Bool
  removalTaken : Bool
  deriving DecidableEq, Repr

/-- The Belt Tracker (R13): the records in use, in order of creation, and the next strip number. -/
structure Belt where
  strips : List Strip
  nextNumber : Nat
  deriving DecidableEq, Repr

/-! ### Scan Unit -/

/-- A sample of a pass (R32). -/
structure Sample where
  channel : Channel
  code : Nat
  value : Int
  saturated : Bool
  deriving DecidableEq, Repr

/-- A pass slot (R36). -/
structure PassSlot where
  samples : List Sample
  held : Bool
  deriving DecidableEq, Repr

/-- An open DEFECT run (R40). -/
structure DefectRun where
  start : Nat
  severity : Nat
  deriving DecidableEq, Repr

/-- A scan in progress (R31 to R42): `next` is the pass to take next, `owed` the number of body passes below 2048 taken so far
(each is owed a slot), `cut` tells that the tail was cut, and the open runs follow. -/
structure ScanProgress where
  next : Nat
  owed : Nat
  cut : Bool
  defect : Option DefectRun
  gauge : Vector (Option Nat) 16
  deriving DecidableEq, Repr

/-- A sample store (R36): its pass count is the number of its slots. -/
structure Store where
  holder : Option Nat
  slots : List PassSlot
  scan : Option ScanProgress
  deriving DecidableEq, Repr

/-- A conversion in flight (R32): the strip and the pass it converts. -/
structure Conversion where
  strip : Nat
  pass : Nat
  deriving DecidableEq, Repr

/-- The Scan Unit's stores and converter (R32, R36); the channel setup and the scan list stand in the configuration. -/
structure ScanUnit where
  storeA : Store
  storeB : Store
  converter : Option Conversion
  deriving DecidableEq, Repr

/-! ### Profile Watch -/

/-- A spindle record (Table 23). -/
structure SpindleRecord where
  state : SpindleState
  remaining : Nat
  setValue : Nat
  warnLevel : Nat
  accumulator : Nat
  deriving DecidableEq, Repr

/-- Profile Watch (R56, R59, R60, R62); the ring's oldest value stands first. -/
structure ProfileWatch where
  limitCount : Nat
  ring : List Nat
  drift : Option Int
  armed : Bool
  spindles : Vector SpindleRecord 4
  deriving DecidableEq, Repr

/-! ### Cut Planner and Saw Scheduler -/

/-- The Cut Planner (R70); `placed` and `graded` count the cuttings that the processing in flight has allocated (R72, step 3) and has had
run through the planning path (R72, step 5). -/
structure Planner where
  queue : List Nat
  inFlight : Option Nat
  placed : Nat
  graded : Nat
  deriving DecidableEq, Repr

/-- A fire list entry (R90); `line` is the place of its line in its strip's plan. -/
structure FireEntry where
  tick : Word
  strip : Nat
  kind : LineKind
  starts : Option Nat
  ends : Option Nat
  line : Nat
  deriving DecidableEq, Repr

/-- The Saw Scheduler (R90, R94). -/
structure Saw where
  entries : List FireEntry
  lastFire : Option Word
  high : Bool
  deriving DecidableEq, Repr

/-! ### Grade Engine, Referral Unit, Cutting Table -/

/-- The kept context of an evaluation (R107). -/
structure EvalContext where
  grade : Nat
  test : Nat
  p : Bool
  q : Bool
  deriving DecidableEq, Repr

/-- A resumption: a cutting with its kept context and the answer's result (R109). From the taking of the answer on the context of a RESUMING
cutting stands here, with the Grade Engine, as R109 and R117 say against R105 (the model's reading: log 46). -/
structure Resumption where
  id : CuttingId
  context : EvalContext
  result : Bool
  deriving DecidableEq, Repr

/-- The Grade Engine's resumption path (R109). -/
structure GradeEngine where
  run : Option Resumption
  queue : List Resumption
  deriving DecidableEq, Repr

/-- A referral (R117); `tag` is absent while it waits. -/
structure Referral where
  id : CuttingId
  context : EvalContext
  feature : Nat
  spanStart : Nat
  spanEnd : Nat
  nominal : Nat
  stripLength : Nat
  tag : Option Nat
  arose : Word
  deriving DecidableEq, Repr

/-- A tag memory entry that is not empty (R116); `ended` tells its standing. -/
structure TagEntry where
  id : CuttingId
  ended : Bool
  deriving DecidableEq, Repr

/-- The Referral Unit (R116); the memory's place k belongs to tag k + 1. -/
structure ReferralUnit where
  outstanding : List Referral
  waiting : List Referral
  lastTag : Option Nat
  memory : Vector (Option TagEntry) 255
  deriving DecidableEq, Repr

/-- A cutting record (Table 45, Table 36), with its place in the table and the bin whose reservation was released at the
tenoner (R146). -/
structure Cutting where
  slot : Nat
  id : CuttingId
  nominal : Nat
  cls : Nat
  spanStart : Nat
  bank : BankId
  features : Vector (Option Int) 14
  gradeStatus : GradeStatus
  grade : Option Grade
  gradeCode : Option Nat
  rejectReason : Option RejectReason
  referralCount : Nat
  state : CuttingState
  loadLug : Option Word
  dest : Option Dest
  returnReason : Option ReturnReason
  releasedBin : Option Bin
  deriving DecidableEq, Repr

/-! ### Chain Tracker -/

/-- A return record (R147). -/
structure ReturnRecord where
  object : ReturnObject
  reason : ReturnReason
  place : Place
  clock : Word
  deriving DecidableEq, Repr

/-- The Chain Tracker (R134, R136, R141, R147). -/
structure Chain where
  deck : List CuttingId
  windows : Vector (Option CuttingId) 8
  transferHigh : Bool
  lastReturn : Option ReturnRecord
  preFlush : Option ReturnRecord
  deriving DecidableEq, Repr

/-! ### Recipe Store -/

/-- The CUT section as stored (Table 61). -/
structure CutSection where
  tl : Nat
  tt : Nat
  k : Nat
  g : Nat
  ae : Nat
  tc : Nat
  nominalWidth : Nat
  deriving DecidableEq, Repr

/-- A grade as stored (R97). -/
structure GradeEntry where
  code : Nat
  first : Nat
  count : Nat
  verdict : Nat
  deriving DecidableEq, Repr

/-- A test entry as stored (Table 34); coded fields keep the byte they were given (R195). -/
structure TestEntry where
  feature : Nat
  op : Nat
  a : Int
  b : Int
  dest : Nat
  combine : Nat
  negate : Nat
  absent : Nat
  deriving DecidableEq, Repr

/-- A bin plan entry as stored (Table 50); grade code 8 stands for NONE (assumption log 12). -/
structure BinPlan where
  grade : Nat
  classLow : Nat
  classHigh : Nat
  ct : Nat
  tolLo : Nat
  tolHi : Nat
  s : Nat
  pmax : Nat
  nmax : Nat
  deriving DecidableEq, Repr

/-- The windows of one profile role (R53). -/
structure ProfileWindow where
  w1 : Int
  w2 : Int
  m1 : Int
  m2 : Int
  deriving DecidableEq, Repr

/-- The PROFILE section as stored (Table 61); windows of TONGUE_T, TONGUE_L, GROOVE_W, GROOVE_D in that order. -/
structure ProfileSection where
  windows : Vector ProfileWindow 4
  tongueNominal : Nat
  driftLimit : Nat
  stopCount : Nat
  deriving DecidableEq, Repr

/-- A bank record (Table 59); an absent section is unloaded. -/
structure Bank where
  state : BankState
  generation : Option Nat
  cut : Option CutSection
  lengths : Option (List Nat)
  grades : Option (List GradeEntry)
  tests : Vector (Option TestEntry) 64
  bins : Option (Vector BinPlan 8)
  profile : Option ProfileSection
  cover : Option Nat
  strips : Nat
  cuttings : Nat
  bundles : Nat
  deriving DecidableEq, Repr

/-- The Recipe Store (R191). -/
structure RecipeStore where
  banks : Vector Bank 2
  counter : Nat
  deriving DecidableEq, Repr

/-! ### Bundle Table -/

/-- What the Label Unit keeps of a bundle from its closure (R176): the lot code, and the nominal length and count of each class
whose count is not 0. -/
structure ClosureCopy where
  lot : Nat
  pairs : List (Nat × Nat)
  deriving DecidableEq, Repr

/-- A bundle record (Table 51); `spec` is the plan entry copied at opening. -/
structure Bundle where
  number : Word
  bin : Bin
  bank : BankId
  generation : Nat
  gradeCode : Nat
  spec : BinPlan
  w : Nat
  count : Nat
  coverage : Nat
  shortCoverage : Nat
  classCounts : Vector Nat 12
  landedCount : Nat
  landedCoverage : Nat
  short : Bool
  stray : Bool
  closeSeq : Option Nat
  closeTime : Option Word
  closure : Option ClosureCopy
  deriving DecidableEq, Repr

/-- A bin (R151, R152) with the level of its BIN EMPTY input (R155). -/
structure BinRecord where
  state : BinState
  bundle : Option Bundle
  emptyLevel : Bool
  deriving DecidableEq, Repr

/-- The Bundle Table (R151, R162). -/
structure BundleTable where
  bins : Vector BinRecord 8
  nextClose : Nat
  deriving DecidableEq, Repr

/-! ### Label Unit -/

/-- A label record (Table 56). -/
structure LabelRecord where
  number : Word
  bin : Bin
  gradeCode : Nat
  generation : Nat
  lot : Nat
  pieces : Nat
  coverage : Nat
  labelUnits : Nat
  short : Bool
  stray : Bool
  pairs : List (Nat × Nat)
  closeTime : Word
  deriving DecidableEq, Repr

/-- A PRINT being sent (R179): its label, and whether that label is still the head. -/
structure PrintJob where
  label : LabelRecord
  forHead : Bool
  deriving DecidableEq, Repr

/-- A dispatch record that is not empty (R183, R187). -/
structure Dispatch where
  number : Word
  outcome : Outcome
  clock : Word
  deriving DecidableEq, Repr

/-- The Label Unit (R175, R181). With an empty queue there is no head, and `head` and `dumped` hold WAIT_READY and clear. -/
structure LabelUnit where
  queue : List LabelRecord
  head : HeadState
  dumped : Bool
  printing : Option PrintJob
  readyFlag : Bool
  lot : Nat
  nextNumber : Word
  dispatch : Vector (Option Dispatch) 8
  dumpHigh : Vector Bool 8
  owed : Vector Bool 8
  deriving DecidableEq, Repr

/-! ### Configuration -/

/-- The MOTION section (Table 69). -/
structure MotionConfig where
  k : Nat
  offSH : Nat
  offSE : Nat
  dSL : Nat
  dXE : Nat
  slip : Nat
  reverse : Nat
  dr : Nat
  deriving DecidableEq, Repr

/-- One channel's setup (Table 14). -/
structure ChannelSetup where
  range : Nat
  base : Int
  span : Int
  role : Role
  mode : CompMode
  l1 : Int
  l2 : Int
  action : CompAction
  deriving DecidableEq, Repr

/-- The SCAN section (Table 69): list count, 16 slots, pitch, `lagPasses`, `endExcl`. -/
structure ScanConfig where
  count : Nat
  slots : Vector Nat 16
  pitch : Nat
  lag : Nat
  endExcl : Nat
  deriving DecidableEq, Repr

/-- The CHAIN section (Table 69). -/
structure ChainConfig where
  chainLen : Nat
  offTN : Nat
  offD : Vector Nat 8
  deriving DecidableEq, Repr

/-- The DECK section (Table 69). -/
structure DeckConfig where
  high : Nat
  low : Nat
  deriving DecidableEq, Repr

/-- The values of a configuration and the accepted marks of its five sections (R209, R210). -/
structure Configuration where
  motion : MotionConfig
  channels : Vector ChannelSetup 16
  scan : ScanConfig
  deck : DeckConfig
  chain : ChainConfig
  marks : Vector Bool 5
  deriving DecidableEq, Repr

/-! ### What the part sends on the line link -/

/-- Events of a BUNDLE notice (Table 54). -/
inductive BundleEvent where
  | opened | filled | reopened | closed | discarded | held | released
  | dispatched (o : Outcome)
  deriving DecidableEq, Repr

/-- A BUNDLE notice (R171): the bundle record carries number, bank, generation, grade, totals and flags. -/
structure BundleNotice where
  event : BundleEvent
  bin : Bin
  bundle : Bundle
  state : BinState
  clock : Word
  deriving DecidableEq, Repr

/-- The bodies of PROFILE notices (Table 25). -/
inductive ProfileEvent where
  | stop (strip count stopCount : Nat) (classes : Vector (Option ProfileStatus) 4)
  | drift (strip : Nat) (drift : Int) (limit : Nat)
  | toolWarn (spindle : Spindle) (remaining strip : Nat) (travel : Word)
  | toolExpired (spindle : Spindle) (remaining strip : Nat) (travel : Word)
  deriving DecidableEq, Repr

/-- The bodies of RECIPE notices (R198, R199). -/
inductive RecipeEvent where
  | switched (bank : BankId) (generation : Nat) (previous : Option BankId) (previousState : Option BankState)
  | retired (bank : BankId) (generation : Nat)
  deriving DecidableEq, Repr

/-- The bodies of LABEL notices (R184, R187). -/
inductive LabelEvent where
  | faulted (number : Word) (bin : Bin) (cause : LabelCause) (code : Byte) (dumped : Bool)
  | voided (number : Word) (bin : Bin)
  deriving DecidableEq, Repr

/-- A fault as its record keeps it (R211); a detail that its table gives as none is absent (Tables 11, 48, 57, 70). -/
structure FaultEntry where
  code : Nat
  detail : Option Nat
  object : FaultObject
  position : Word
  clock : Word
  deriving DecidableEq, Repr

/-- Notices (Table 68). -/
inductive Notice where
  | line (after before : LineState) (holds : HoldSet) (travel clock : Word)
  | strip (number : Nat) (reason : StripReason) (state : StripState) (travel : Word)
  | flush (reason : FlushReason) (travel : Word) (count : Nat) (first last : Option Nat)
  | referral (r : Referral) (out : Word)
  | referralEnd (tag : Nat) (id : CuttingId) (reason : ReferralEndReason) (standing : Standing) (clock : Word)
  | returned (id : CuttingId) (reason : ReturnReason) (grade : Option Grade) (code : Option Nat) (bin : Option Bin)
      (place : Place) (clock : Word)
  | bundle (n : BundleNotice)
  | label (e : LabelEvent) (clock : Word)
  | profile (e : ProfileEvent) (clock : Word)
  | recipe (e : RecipeEvent) (clock : Word)
  | fault (book : FaultBook) (f : FaultEntry)
  deriving DecidableEq, Repr

/-- A fault record (R211): empty when it holds no first fault. -/
structure FaultRecord where
  first : Option FaultEntry
  count : Nat
  overflow : Bool
  deriving DecidableEq, Repr

/-- Reply statuses with their added bytes (Table 66). -/
inductive Status where
  | ok
  | frame
  | field (index : Nat)
  | state
  | inuse
  | notfound
  | late
  | noref
  | unknown
  | invalid (sec item : Nat)
  deriving DecidableEq, Repr

/-- The data of a STATUS reply (R212). -/
structure StatusData where
  line : LineState
  holds : HoldSet
  estopLevel : Bool
  travel : Word
  mark : Word
  lug : Word
  strips : Nat
  plannerQueue : Nat
  fireEntries : Nat
  freeRecords : Nat
  deckCount : Nat
  outstanding : Nat
  waiting : Nat
  labels : Nat
  head : Option HeadState
  banks : Vector BankState 2
  counter : Nat
  marks : Vector Bool 5
  faults : Vector Bool 4
  notices : Nat
  dropped : Nat
  clock : Word
  deriving DecidableEq, Repr

/-- The contents of one configuration section as READ CONFIG gives them (R210). -/
inductive ConfigView where
  | motion (c : MotionConfig)
  | channels (c : Vector ChannelSetup 16)
  | scan (c : ScanConfig)
  | deck (c : DeckConfig)
  | chain (c : ChainConfig)
  deriving DecidableEq, Repr

/-- The contents of one recipe section as RECIPE READ gives them (R200); an unloaded section gives no contents. -/
inductive SectionView where
  | cut (c : Option CutSection)
  | lengths (l : Option (List Nat))
  | grades (g : Option (List GradeEntry))
  | tests (t : List (Option TestEntry))
  | bins (b : Option (Vector BinPlan 8))
  | profile (p : Option ProfileSection)
  | cover (w : Option Nat)
  deriving DecidableEq, Repr

/-- The head of a RECIPE READ reply (R200). -/
structure BankView where
  state : BankState
  generation : Option Nat
  strips : Nat
  cuttings : Nat
  bundles : Nat
  references : Nat
  counter : Nat
  deriving DecidableEq, Repr

/-- A cutting's referral state as READ CUTTING reports it (R117). -/
inductive ReferralView where
  | none
  | outstanding (tag : Nat)
  | waiting (place : Nat)
  deriving DecidableEq, Repr

/-- The data of a READ LABELS reply (R189). -/
structure LabelsView where
  lot : Nat
  nextNumber : Word
  readyFlag : Bool
  labels : List (Word × Bin × Word)
  head : Option (LabelRecord × HeadState × Bool)
  timeLeft : Option Nat
  owed : Vector Bool 8
  dispatch : Vector (Option Dispatch) 8
  deriving DecidableEq, Repr

/-- The data of a READ TOOLS reply (R68). -/
structure ToolsView where
  spindles : Vector SpindleRecord 4
  limitCount : Nat
  profileHeld : Bool
  ring : List Nat
  drift : Option Int
  armed : Bool
  deriving DecidableEq, Repr

/-- The data of a READ BIN reply (R172). -/
structure BinView where
  state : BinState
  emptyLevel : Bool
  window : Option CuttingId
  bundle : Option Bundle
  inFlight : Nat
  deriving DecidableEq, Repr

/-- The data of an OK reply; only an OK reply carries data (R206). -/
inductive ReplyData where
  | none
  | identity (vendor part revision link : Nat)
  | status (d : StatusData)
  | config (mark : Bool) (c : ConfigView) (marks : Vector Bool 5)
  | generation (g : Nat)
  | recipe (b : BankView) (c : SectionView)
  | strip (r : Strip) (zonesMm : List (Nat × Nat))
  | cutting (c : Cutting) (context : Option (Nat × Nat)) (referral : ReferralView) (lugOffset : Option Word)
  | bin (d : BinView)
  | labels (d : LabelsView)
  | tools (d : ToolsView)
  | fault (r : FaultRecord)
  | returns (last preFlush : Option ReturnRecord)
  deriving DecidableEq, Repr

/-- A reply (R206). -/
structure Reply where
  kind : Byte
  tag : Byte
  status : Status
  data : ReplyData
  deriving DecidableEq, Repr

/-- A frame that is ready for the transmitter (R207). -/
inductive TxFrame where
  | notice (n : Notice)
  | reply (r : Reply)
  deriving DecidableEq, Repr

/-! ### Line Link Port -/

/-- A receiver of either serial line (R204): hunting, or collecting the bytes after a start mark. -/
inductive Receiver where
  | hunting
  | collecting (got : List Byte)
  deriving DecidableEq, Repr

/-- A checked request frame (R205). -/
structure Request where
  kind : Byte
  tag : Byte
  body : List Byte
  deriving DecidableEq, Repr

/-- The Line Link Port (R204, R205, R207, R208, R211, R213); `tx` holds the ready frames in the order in which they became
ready, the first being sent, and the notice queue is the notices of `tx`. `phase` counts cycles of the 25 MHz clock. -/
structure LinkPort where
  receiver : Receiver
  labelReceiver : Receiver
  requests : List Request
  tx : List TxFrame
  dropped : Nat
  mask : BitVec 11
  belt : FaultRecord
  chain : FaultRecord
  label : FaultRecord
  link : FaultRecord
  clock : Word
  phase : Nat
  deriving DecidableEq, Repr

/-! ### The machine -/

/-- The state of the part: one field for each block, the waiting commands, and the count of free values drawn (the model's own). `inForce` is the
configuration in force, as CONFIGURE sets it and READ CONFIG reports it; `config` is that which reached the blocks at the last strip created
(R209; log 43). -/
structure State where
  motion : Motion
  line : LineCtl
  belt : Belt
  scan : ScanUnit
  profile : ProfileWatch
  planner : Planner
  saw : Saw
  grade : GradeEngine
  referral : ReferralUnit
  cuttings : List Cutting
  chain : Chain
  bundles : BundleTable
  label : LabelUnit
  recipe : RecipeStore
  config : Configuration
  inForce : Configuration
  link : LinkPort
  inReset : Bool
  freeCount : Nat
  pending : List Instr
  deriving DecidableEq, Repr

/-- Why a command stops the machine with a fault: never. The manual's faults are entries of the fault records (R211), which
are effects on the state; no rule of the spec stops the part. -/
inductive Fault where
  deriving DecidableEq, Repr

/-- Why the model refuses a command. -/
inductive Refusal where
  /-- Raised by exec alone, for a row of the table that has no meaning yet; safe: the run stops and nothing is claimed of it. -/
  | notModelled (mnemonic : String)
  deriving DecidableEq, Repr

/-! ### Power-on values -/

/-- A free store (R36). -/
def Store.free : Store := { holder := none, slots := [], scan := none }

/-- An unset spindle (Table 23). -/
def SpindleRecord.unset : SpindleRecord :=
  { state := .unset, remaining := 0, setValue := 0, warnLevel := 0, accumulator := 0 }

/-- An EMPTY bank (R191). -/
def Bank.empty : Bank :=
  { state := .empty, generation := none, cut := none, lengths := none, grades := none, tests := Vector.replicate 64 none,
    bins := none, profile := none, cover := none, strips := 0, cuttings := 0, bundles := 0 }

/-- The channel setup of Table 14 at power-on. -/
def ChannelSetup.atPowerOn : ChannelSetup :=
  { range := 0, base := 0, span := 0, role := .none, mode := .off, l1 := 0, l2 := 0, action := .mark }

/-- The configuration at power-on: every field 0, no section accepted (R210). -/
def Configuration.atPowerOn : Configuration :=
  { motion := { k := 0, offSH := 0, offSE := 0, dSL := 0, dXE := 0, slip := 0, reverse := 0, dr := 0 },
    channels := Vector.replicate 16 ChannelSetup.atPowerOn,
    scan := { count := 0, slots := Vector.replicate 16 0, pitch := 0, lag := 0, endExcl := 0 },
    deck := { high := 0, low := 0 },
    chain := { chainLen := 0, offTN := 0, offD := Vector.replicate 8 0 },
    marks := Vector.replicate 5 false }

/-- The empty fault record (R211). -/
def FaultRecord.empty : FaultRecord := { first := none, count := 0, overflow := false }

/-- An idle planner with an empty queue (R77). -/
def Planner.idle : Planner := { queue := [], inFlight := none, placed := 0, graded := 0 }

/-- The hold-cause set at power-on: NOT_RUN alone (R10). -/
def HoldSet.atPowerOn : HoldSet :=
  { notRun := true, drain := false, host := false, deck := false, profile := false, flush := false, trackFull := false,
    records := false }

/-- The machine right after power-on with E-STOP inactive (R214): every block at its power-on values. The level of BIN EMPTY at
that moment is DESIGN CHOICE active, unsafe (assumption log 13): the bins hold no wood. -/
def State.reset : State :=
  { motion := { travel := 0, mark := 0, lug := 0, events := [] },
    line := { state := .standby, holds := HoldSet.atPowerOn, estopLevel := false },
    belt := { strips := [], nextNumber := 1 },
    scan := { storeA := Store.free, storeB := Store.free, converter := none },
    profile := { limitCount := 0, ring := [], drift := none, armed := true,
                 spindles := Vector.replicate 4 SpindleRecord.unset },
    planner := Planner.idle,
    saw := { entries := [], lastFire := none, high := false },
    grade := { run := none, queue := [] },
    referral := { outstanding := [], waiting := [], lastTag := none, memory := Vector.replicate 255 none },
    cuttings := [],
    chain := { deck := [], windows := Vector.replicate 8 none, transferHigh := false, lastReturn := none, preFlush := none },
    bundles := { bins := Vector.replicate 8 { state := .idle, bundle := none, emptyLevel := true }, nextClose := 1 },
    label := { queue := [], head := .waitReady, dumped := false, printing := none, readyFlag := false, lot := 0,
               nextNumber := 1, dispatch := Vector.replicate 8 none, dumpHigh := Vector.replicate 8 false,
               owed := Vector.replicate 8 false },
    recipe := { banks := Vector.replicate 2 Bank.empty, counter := 1 },
    config := Configuration.atPowerOn,
    inForce := Configuration.atPowerOn,
    link := { receiver := .hunting, labelReceiver := .hunting, requests := [], tx := [], dropped := 0,
              mask := BitVec.allOnes 11, belt := FaultRecord.empty, chain := FaultRecord.empty,
              label := FaultRecord.empty, link := FaultRecord.empty, clock := 0, phase := 0 },
    inReset := false,
    freeCount := 0,
    pending := [] }

end Sys2Proof.Machine
end

