-- ==== Sys2Proof/Machine/Flags.lean ====
section
/-! DEFINITION. The flag computations: the hold-cause set (Table 7), the P and Q flags of a grade with the tests that fold into
them and the verdict functions (R99 to R102), the saturating counters, and the SATURATED mark and comparator outcomes of a sample
(R27, R41). -/

namespace Sys2Proof.Machine

/-- The set holds no cause (R11). -/
def HoldSet.isEmpty (h : HoldSet) : Bool :=
  !(h.notRun || h.drain || h.host || h.deck || h.profile || h.flush || h.trackFull || h.records)

/-- What RESET LINE and entry to ESTOP leave of the set: HOST and PROFILE, with NOT_RUN added (R10). -/
def HoldSet.afterReset (h : HoldSet) : HoldSet :=
  { notRun := true, drain := false, host := h.host, deck := false, profile := h.profile, flush := false, trackFull := false,
    records := false }

/-- A count that rises by one and stops at a limit (R56, R105, R207, R211). -/
def countUpTo (limit n : Nat) : Nat := min limit (n + 1)

/-- The comparison of a test (R99); operation codes 0 LE, 1 GE, 2 IN, 3 OUT in the order of Table 34. -/
def compareFeature (op : Nat) (f a b : Int) : Bool :=
  match op with
  | 0 => decide (f ≤ a)
  | 1 => decide (f ≥ a)
  | 2 => decide (a ≤ f ∧ f ≤ b)
  | _ => decide (f < a ∨ b < f)

/-- The result of a comparison under a test's negate field (R100); 0 no, 1 yes. -/
def applyNegate (negate : Nat) (held : Bool) : Bool := if negate = 1 then !held else held

/-- A result folded into its flag (R101); combine codes 0 SET, 1 AND, 2 OR, 3 XOR in the order of Table 34. -/
def foldFlag (combine : Nat) (flag r : Bool) : Bool :=
  match combine with
  | 0 => r
  | 1 => flag && r
  | 2 => flag || r
  | _ => xor flag r

/-- Both flags after a result r of the test e (R101); destination codes 0 P, 1 Q. -/
def foldResult (e : TestEntry) (p q r : Bool) : Bool × Bool :=
  if e.dest = 0 then (foldFlag e.combine p r, q) else (p, foldFlag e.combine q r)

/-- The index 2 × P + Q of a verdict (R102). -/
def verdictIndex (p q : Bool) : Nat := 2 * p.toNat + q.toNat

/-- The verdict of a grade: bit 2 × P + Q of its verdict function (R102). -/
def verdictPasses (verdict : Nat) (p q : Bool) : Bool := verdict.testBit (verdictIndex p q)

/-- A sample whose code is 0 or 4095 is SATURATED (R27). -/
def codeSaturated (code : Nat) : Bool := code == 0 || code == 4095

/-- Whether a value fails its channel's window (R41). -/
def valueFails (mode : CompMode) (l1 l2 v : Int) : Bool :=
  match mode with
  | .off => false
  | .below => decide (v < l1)
  | .above => decide (l2 < v)
  | .outside => decide (v < l1 ∨ l2 < v)
  | .inside => decide (l1 ≤ v ∧ v ≤ l2)

/-- The profile roles: Profile Watch classifies them and the window comparators do not test them (R41, R53). -/
def Role.isProfile : Role → Bool
  | .tongueT | .tongueL | .grooveW | .grooveD => true
  | _ => false

/-- The thickness roles (R47). -/
def Role.isThick : Role → Bool
  | .thick1 | .thick2 | .thick3 | .thick4 => true
  | _ => false

/-- The class of a profile sample in its role's windows (R53). -/
def classOf (w : ProfileWindow) (v : Int) : ProfileStatus :=
  if w.w1 ≤ v ∧ v ≤ w.w2 then .ok else if w.m1 ≤ v ∧ v ≤ w.m2 then .warn else .limit

/-- The value of a profile class (R53). -/
def ProfileStatus.rank : ProfileStatus → Nat
  | .ok => 0
  | .warn => 1
  | .limit => 2

/-- The worse of two profile classes (R55). -/
def ProfileStatus.worst (a b : ProfileStatus) : ProfileStatus := if a.rank < b.rank then b else a

end Sys2Proof.Machine
end

