-- ==== Sys2Proof/Machine/Ops.lean ====
section
/-! DEFINITION. The named operations that every block shares: arithmetic on positions (R1, R78), notices, faults and replies on the
line link (R206, R207, R211), the line state, the hold-cause set and its LINE notice (R5 to R12), the registered position
events (R2), and the lookups and updates of the tables. -/

namespace Sys2Proof.Machine

/-! ### Positions -/

/-- Position b less position a as a signed 32-bit number (R1). -/
def ticksFrom (a b : Word) : Int := (b - a).toInt

/-- Position b is after position a (R1). -/
def isAfter (b a : Word) : Bool := decide (0 < ticksFrom a b)

/-- A position moved by a signed number of ticks, modulo 2^32. -/
def moveBy (p : Word) (d : Int) : Word := p + BitVec.ofInt 32 d

/-- A position plus a whole number of ticks, modulo 2^32. -/
def plusTicks (p : Word) (d : Nat) : Word := p + BitVec.ofNat 32 d

/-- Ticks to millimetres, rounded as R16 and R78 state, saturating at 65535. -/
def ticksToMm (k ticks : Nat) : Nat := min 65535 ((ticks * k + 32768) / 65536)

/-- Millimetres to ticks (R78). -/
def mmToTicks (k mm : Nat) : Nat := (mm * 65536 + k / 2) / k

/-! ### Updates of fixed tables -/

/-- Replace the element at a place of a fixed table. -/
def setAt {α : Type} {n : Nat} (v : Vector α n) (i : Fin n) (x : α) : Vector α n := v.set i.val x i.isLt

/-- The bins in ascending order. -/
def allBins : List Bin := [0, 1, 2, 3, 4, 5, 6, 7]

/-- The channels in ascending order. -/
def allChannels : List Channel := [0, 1, 2, 3, 4, 5, 6, 7, 8, 9, 10, 11, 12, 13, 14, 15]

/-- The spindles in the order TOP, BOTTOM, TONGUE, GROOVE (R64). -/
def allSpindles : List Spindle := [0, 1, 2, 3]

/-- The two banks. -/
def allBanks : List BankId := [0, 1]

/-! ### Notices, faults and replies -/

/-- The place of a notice's kind in Table 68: its kind is 0x80 plus this. -/
def Notice.kindIndex : Notice → Nat
  | .line .. => 0
  | .strip .. => 1
  | .flush .. => 2
  | .referral .. => 3
  | .referralEnd .. => 4
  | .returned .. => 5
  | .bundle .. => 6
  | .label .. => 7
  | .profile .. => 8
  | .recipe .. => 9
  | .fault .. => 10

/-- Whether a ready frame is a notice. -/
def TxFrame.isNotice : TxFrame → Bool
  | .notice _ => true
  | .reply _ => false

/-- The number of notices in the notice queue (R207). -/
def LinkPort.noticeCount (l : LinkPort) : Nat := l.tx.countP TxFrame.isNotice

/-- The port when a block offers it a notice: masked kinds vanish, a full queue drops and counts (R207, R208). -/
def LinkPort.offer (n : Notice) (l : LinkPort) : LinkPort :=
  if l.mask.getLsbD n.kindIndex then
    if l.noticeCount < Config.noticeCapacity then { l with tx := l.tx ++ [.notice n] }
    else { l with dropped := countUpTo 65535 l.dropped }
  else l

/-- A block offers a notice to the Line Link Port (R207). -/
def offer (n : Notice) (s : State) : State := { s with link := s.link.offer n }

/-- One of the four fault records (R211). -/
def LinkPort.record (l : LinkPort) : FaultBook → FaultRecord
  | .belt => l.belt
  | .chain => l.chain
  | .label => l.label
  | .link => l.link

/-- The port with one fault record replaced. -/
def LinkPort.setRecord (l : LinkPort) (b : FaultBook) (r : FaultRecord) : LinkPort :=
  match b with
  | .belt => { l with belt := r }
  | .chain => { l with chain := r }
  | .label => { l with label := r }
  | .link => { l with link := r }

/-- A fault logged to a record: the first is kept and gives a FAULT notice, later ones are counted (R211). -/
def logFault (b : FaultBook) (code : Nat) (detail : Option Nat) (object : FaultObject) (position : Word) (s : State) : State :=
  let r := s.link.record b
  match r.first with
  | none =>
    let f : FaultEntry := { code, detail, object, position, clock := s.link.clock }
    offer (.fault b f) { s with link := s.link.setRecord b { first := some f, count := 0, overflow := false } }
  | some _ =>
    { s with link := s.link.setRecord b { r with count := countUpTo 255 r.count, overflow := true } }

/-- The kind of the reply to a request (R206). -/
def replyKind (k : Byte) : Byte := k + 0x40

/-- A request's reply becomes ready and the request leaves the head of the queue (R205, R206). -/
def reply (r : Request) (st : Status) (d : ReplyData) (s : State) : State :=
  { s with link := { s.link with
      requests := s.link.requests.drop 1,
      tx := s.link.tx ++ [.reply { kind := replyKind r.kind, tag := r.tag, status := st, data := d }] } }

/-! ### Line state and hold causes -/

/-- The infeed hold-cause set changed by f (R10). -/
def mapHolds (f : HoldSet → HoldSet) (s : State) : State := { s with line := { s.line with holds := f s.line.holds } }

/-- The line is RUN or DRAIN, where the high-water mark does not follow the counter (R2). -/
def LineState.moving : LineState → Bool
  | .run | .drain => true
  | _ => false

/-- The line enters a state: NOT_RUN and DRAIN follow it (Table 7), and in STANDBY, READY and ESTOP the high-water mark
stands at the counter (R2). -/
def enterLine (l : LineState) (s : State) : State :=
  { s with
    line := { s.line with state := l, holds := { s.line.holds with notRun := !l.moving, drain := l == .drain } },
    motion := { s.motion with mark := if l.moving then s.motion.mark else s.motion.travel } }

/-- The LINE notice of an event that took the part from `before` to `after`, if it changed the line state or the set (R12). -/
def lineNote (before after : State) : State :=
  if after.line.state = before.line.state ∧ after.line.holds = before.line.holds then after
  else offer (.line after.line.state before.line.state after.line.holds after.motion.travel after.link.clock) after

/-- The cutting's location is LUG (R130). -/
def CuttingState.onLugP : CuttingState → Bool
  | .onLug | .checked | .mismatch | .dropping => true
  | _ => false

/-- The cutting's location is BELT (R130). -/
def CuttingState.onBelt : CuttingState → Bool
  | .planned | .cut => true
  | _ => false

/-- The lug occupancy (R137): the cuttings on lugs. -/
def lugOccupancy (s : State) : List Cutting := s.cuttings.filter (fun c => c.state.onLugP)

/-- The strip table, the deck queue and the lug chain are all empty (R7). -/
def trackingEmpty (s : State) : Bool := s.belt.strips.isEmpty && s.chain.deck.isEmpty && (lugOccupancy s).isEmpty

/-- The drain test (R7): a complete drain takes the line to READY, one event with one LINE notice (R12). -/
def drainTest (s : State) : State :=
  if s.line.state = .drain ∧ trackingEmpty s = true then lineNote s (enterLine .ready s) else s

/-- The drain test after an event, made when the event freed a strip record or took a cutting off the deck or a lug (R7). -/
def drainAfter (before after : State) : State :=
  if after.belt.strips.length < before.belt.strips.length ∨ after.chain.deck.length < before.chain.deck.length ∨
      (lugOccupancy after).length < (lugOccupancy before).length then drainTest after
  else after

/-- An event: its effects, then its LINE notice (R12), then the drain test it may call for (R7). -/
def event (f : State → State) (s : State) : State := drainAfter s (lineNote s (f s))

/-- The configuration is valid (R210). -/
def configValid (s : State) : Bool := s.inForce.marks.toList.all id

/-- The ACTIVE bank (R191). -/
def activeBank (s : State) : Option BankId := allBanks.find? (fun b => s.recipe.banks[b].state == .active)

/-- READY or STANDBY, by whether the configuration is valid and a bank is ACTIVE (R5, R8, R9). -/
def restState (s : State) : LineState := if configValid s && (activeBank s).isSome then .ready else .standby

/-- STANDBY becomes READY when the configuration is valid and a bank is ACTIVE (R5). -/
def standbyTest (s : State) : State :=
  if s.line.state = .standby ∧ restState s = .ready then lineNote s (enterLine .ready s) else s

/-! ### Registered position events -/

/-- The high-water mark has reached p: it is at p or after p (R2). -/
def reached (s : State) (p : Word) : Bool := !isAfter p s.motion.mark

/-- An event joins the registered events (R2). -/
def addEvent (p : Word) (k : EventKind) (s : State) : State :=
  { s with motion := { s.motion with events := s.motion.events ++ [⟨p, k⟩] } }

/-- The events of a kind that p picks out are withdrawn (R2). -/
def withdraw (p : EventKind → Bool) (s : State) : State :=
  { s with motion := { s.motion with events := s.motion.events.filter (fun e => !p e.what) } }

/-- An event is gone once it is taken (R2). -/
def dropEvent (e : PosEvent) (s : State) : State :=
  { s with motion := { s.motion with events := s.motion.events.erase e } }

/-- The registered events whose position the mark has reached. -/
def dueEvents (s : State) : List PosEvent := s.motion.events.filter (fun e => reached s e.pos)

/-- One of several events due together is taken next; the spec gives no order, so which one is a free value (assumption log 4). -/
def chooseEvent (first : PosEvent) (rest : List PosEvent) (s : State) : PosEvent × State :=
  match rest with
  | [] => (first, s)
  | _ :: _ =>
    let all := first :: rest
    (all.getD (Config.pickEvent s.freeCount % all.length) first, { s with freeCount := s.freeCount + 1 })

/-! ### Tables -/

/-- The strip record in use with a number (R13). -/
def findStrip (s : State) (n : Nat) : Option Strip := s.belt.strips.find? (fun r => r.number == n)

/-- The strip record of a number changed by f. -/
def mapStrip (n : Nat) (f : Strip → Strip) (s : State) : State :=
  { s with belt := { s.belt with strips := s.belt.strips.map (fun r => if r.number = n then f r else r) } }

/-- The cutting record in use with an id (R129). -/
def findCutting (s : State) (id : CuttingId) : Option Cutting := s.cuttings.find? (fun c => decide (c.id = id))

/-- The cutting record of an id changed by f. -/
def mapCutting (id : CuttingId) (f : Cutting → Cutting) (s : State) : State :=
  { s with cuttings := s.cuttings.map (fun c => if c.id = id then f c else c) }

/-- The free count of the Cutting Table (R129). -/
def freeRecords (s : State) : Nat := Config.cuttingCapacity - s.cuttings.length

/-- The cuttings of a strip that are on the belt (R130). -/
def beltCuttings (n : Nat) (s : State) : List CuttingId :=
  (s.cuttings.filter (fun c => c.id.strip == n && c.state.onBelt)).map Cutting.id

/-- A bin's record changed by f. -/
def mapBin (b : Bin) (f : BinRecord → BinRecord) (s : State) : State :=
  { s with bundles := { s.bundles with bins := setAt s.bundles.bins b (f s.bundles.bins[b]) } }

/-- A bin's bundle record, if it holds one, changed by f. -/
def mapBundle (b : Bin) (f : Bundle → Bundle) (s : State) : State :=
  mapBin b (fun r => { r with bundle := r.bundle.map f }) s

/-- A bank's record changed by f. -/
def mapBank (b : BankId) (f : Bank → Bank) (s : State) : State :=
  { s with recipe := { s.recipe with banks := setAt s.recipe.banks b (f s.recipe.banks[b]) } }

/-- A sample store (R36). -/
def ScanUnit.store (u : ScanUnit) : StoreId → Store
  | .a => u.storeA
  | .b => u.storeB

/-- A sample store changed by f. -/
def mapStore (i : StoreId) (f : Store → Store) (s : State) : State :=
  match i with
  | .a => { s with scan := { s.scan with storeA := f s.scan.storeA } }
  | .b => { s with scan := { s.scan with storeB := f s.scan.storeB } }

/-! ### Taking commands -/

/-- While RESET is asserted inputs are not taken (R214): the command finds no taker and the state stays as it is. -/
def whenRunning (f : State → State) (s : State) : Host.Outcome State Fault Refusal :=
  .next (if s.inReset then s else f s)

end Sys2Proof.Machine
end

