-- ==== Sys2Proof/Machine/Operands.lean ====
section
/-! DEFINITION. The operand forms: the fields of request bodies with their sizes (R203), the size each request kind requires (R206),
the codes of values drawn from named lists, the frame form of both serial lines with its CRC, and the receiver (R203, R204). -/

namespace Sys2Proof.Machine

/-! ### Fields of a body -/

/-- The size of a field and whether it is signed (R203). -/
inductive FieldSize where
  | u8 | u16 | u32 | s32
  deriving DecidableEq, Repr

/-- The two bytes of a value, low byte first (R203). -/
def bytes16 (v : BitVec 16) : List Byte := [v.extractLsb' 0 8, v.extractLsb' 8 8]

/-- The four bytes of a value, low byte first (R203). -/
def bytes32 (v : Word) : List Byte := [v.extractLsb' 0 8, v.extractLsb' 8 8, v.extractLsb' 16 8, v.extractLsb' 24 8]

/-- The value of two bytes, low byte first. -/
def value16 (b0 b1 : Byte) : BitVec 16 := b1 ++ b0

/-- The value of four bytes, low byte first. -/
def value32 (b0 b1 b2 b3 : Byte) : Word := b3 ++ b2 ++ b1 ++ b0

/-- One field taken off the front of a body, if the body holds it whole. -/
def takeField : FieldSize → List Byte → Option (Int × List Byte)
  | .u8, b :: r => some (b.toNat, r)
  | .u16, b0 :: b1 :: r => some ((value16 b0 b1).toNat, r)
  | .u32, b0 :: b1 :: b2 :: b3 :: r => some ((value32 b0 b1 b2 b3).toNat, r)
  | .s32, b0 :: b1 :: b2 :: b3 :: r => some ((value32 b0 b1 b2 b3).toInt, r)
  | _, _ => none

/-- The fields of a body of exactly the given layout; none when the body's size differs (R206, step 2). -/
def parseFields : List FieldSize → List Byte → Option (List Int)
  | [], [] => some []
  | [], _ :: _ => none
  | z :: zs, b =>
    match takeField z b with
    | some (v, r) => (parseFields zs r).map (fun vs => v :: vs)
    | none => none

/-! ### Codes of named lists (R203: the place in the list where its rule or table first gives the values, counting from 0) -/

/-- Channel roles in the order of Table 14; a code above the list gives none. -/
def Role.ofCode : Int → Option Role
  | 0 => some .thick1 | 1 => some .thick2 | 2 => some .thick3 | 3 => some .thick4 | 4 => some .width
  | 5 => some .tongueT | 6 => some .tongueL | 7 => some .grooveW | 8 => some .grooveD | 9 => some .moist
  | 10 => some .none
  | _ => none

/-- Comparator modes in the order of Table 14. -/
def CompMode.ofCode : Int → Option CompMode
  | 0 => some .off | 1 => some .below | 2 => some .above | 3 => some .outside | 4 => some .inside
  | _ => none

/-- Comparator actions in the order of Table 14. -/
def CompAction.ofCode : Int → Option CompAction
  | 0 => some .mark | 1 => some .cut
  | _ => none

/-- Fault records by number (R211). -/
def FaultBook.ofCode : Int → Option FaultBook
  | 0 => some .belt | 1 => some .chain | 2 => some .label | 3 => some .link
  | _ => none

/-- A bank by number (Table 3). -/
def bankOfCode : Int → Option BankId
  | 0 => some 0 | 1 => some 1
  | _ => none

/-- A bin by number, 1 to 8 (Table 3). -/
def binOfCode : Int → Option Bin
  | 1 => some 0 | 2 => some 1 | 3 => some 2 | 4 => some 3 | 5 => some 4 | 6 => some 5 | 7 => some 6 | 8 => some 7
  | _ => none

/-- A spindle by number, 0 to 3 (R66). -/
def spindleOfCode : Int → Option Spindle
  | 0 => some 0 | 1 => some 1 | 2 => some 2 | 3 => some 3
  | _ => none

/-! ### Request kinds (Table 67) and their bodies -/

/-- The kinds Table 67 assigns. -/
def assignedKinds : List Byte :=
  [0x01, 0x02, 0x03, 0x04, 0x05, 0x06, 0x07, 0x08, 0x09, 0x0A, 0x0B, 0x10, 0x11, 0x12, 0x13, 0x14, 0x18, 0x20, 0x21, 0x22,
   0x23, 0x24, 0x28, 0x29, 0x2A, 0x30, 0x31, 0x32, 0x38, 0x39, 0x3A]

/-- The kinds a request frame may carry, 0x01 to 0x3F (R204). -/
def isRequestKind (k : Byte) : Bool := decide (0x01 ≤ k ∧ k ≤ 0x3F)

/-- The fields of one channel of the CHANNELS section (Table 69). -/
def channelLayout : List FieldSize := [.u8, .s32, .s32, .u8, .u8, .s32, .s32, .u8]

/-- The layout of a CONFIGURE section after its code (Table 69; sizes: assumption log 11). -/
def configLayout : Int → Option (List FieldSize)
  | 0 => some [.u32, .u32, .u32, .u32, .u32, .u32, .u32, .u16]
  | 1 => some (allChannels.flatMap (fun _ => channelLayout))
  | 2 => some (.u8 :: (allChannels.map (fun _ => FieldSize.u8) ++ [.u32, .u16, .u16]))
  | 3 => some [.u16, .u16]
  | 4 => some (List.replicate 10 .u32)
  | _ => none

/-- The layout of one test entry (Table 34; sizes: assumption log 11). -/
def testLayout : List FieldSize := [.u8, .u8, .s32, .s32, .u8, .u8, .u8, .u8]

/-- The layout of one grade (R97); the one byte of the verdict function is the model's reading (log 11). -/
def gradeLayout : List FieldSize := [.u8, .u8, .u16, .u8]

/-- The layout of one bin plan entry (Table 50; sizes: assumption log 11). -/
def binLayout : List FieldSize := [.u8, .u8, .u8, .u32, .u32, .u32, .u16, .u16, .u16]

/-- A layout repeated. -/
def repeatLayout (n : Nat) (l : List FieldSize) : List FieldSize := (List.replicate n l).flatten

/-! ### Taking a request -/

/-- What a request's own rule answers: the state it leaves, the status, the data of an OK reply. -/
structure Answer where
  state : State
  status : Status
  data : ReplyData

/-- A request that is taken, with no data in its reply. -/
def okay (s : State) : Answer := ⟨s, .ok, .none⟩

/-- A request that is taken and answered with data. -/
def okayWith (d : ReplyData) (s : State) : Answer := ⟨s, .ok, d⟩

/-- A request refused with a status; nothing changes. -/
def refuse (st : Status) (s : State) : Answer := ⟨s, st, .none⟩

/-- The request at the head of the queue is handed to f if it has the kind given; its effects are taken, its reply becomes ready and
it leaves the queue (R205). With another kind, or none, at the head, this request is not taken now. -/
def takeRequest (kind : Byte) (f : Request → State → Answer) (s : State) : State :=
  match s.link.requests with
  | [] => s
  | r :: _ =>
    if r.kind = kind then
      let a := f r s
      reply r a.status a.data a.state
    else s

/-- A request whose body has a fixed layout: another size is answered FRAME and changes nothing (R206, step 2). -/
def withFields (layout : List FieldSize) (f : List Int → State → Answer) (r : Request) (s : State) : Answer :=
  match parseFields layout r.body with
  | some fs => f fs s
  | none => refuse .frame s

/-! ### Frames (Table 65) -/

/-- One shift of the CRC register (R203). -/
def crcShift (c : BitVec 16) : BitVec 16 := if c.msb then (c <<< 1) ^^^ 0x1021#16 else c <<< 1

/-- One byte into the CRC register, most significant bit first (R203). -/
def crcByte (c : BitVec 16) (b : Byte) : BitVec 16 :=
  crcShift (crcShift (crcShift (crcShift (crcShift (crcShift (crcShift (crcShift (c ^^^ (b ++ 0#8)))))))))

/-- The CRC-16 of a run of bytes (R203). -/
def crc16 (l : List Byte) : BitVec 16 := l.foldl crcByte 0xFFFF#16

/-- The bytes a frame's CRC covers: length, kind, tag and body (Table 65). -/
def coveredBytes (kind tag : Byte) (body : List Byte) : List Byte :=
  bytes16 (BitVec.ofNat 16 (body.length + 2)) ++ kind :: tag :: body

/-- A whole frame on the wire (Table 65). -/
def frameBytes (kind tag : Byte) (body : List Byte) : List Byte :=
  0xA5#8 :: (coveredBytes kind tag body ++ bytes16 (crc16 (coveredBytes kind tag body)))

/-- What a receiver makes of a frame it has ended (R204). -/
inductive RxResult where
  | badLength
  | badCrc
  | frame (kind tag : Byte) (body : List Byte)
  deriving DecidableEq, Repr

/-- The verdict on a whole frame of good length: `content` is kind, tag and body, `crc` the last two bytes. -/
def frameVerdict (lo hi : Byte) (content crc : List Byte) : RxResult :=
  if bytes16 (crc16 (lo :: hi :: content)) = crc then
    match content with
    | kind :: tag :: body => .frame kind tag body
    | _ => .badCrc
  else .badCrc

/-- One byte into a receiver (R204): its next state, and a verdict if the byte ended a frame. -/
def rxByte (r : Receiver) (b : Byte) : Receiver × Option RxResult :=
  match r with
  | .hunting => (if b = 0xA5#8 then .collecting [] else .hunting, none)
  | .collecting got =>
    match got ++ [b] with
    | lo :: hi :: [] =>
      if (value16 lo hi).toNat < 2 ∨ 1024 < (value16 lo hi).toNat then (.hunting, some .badLength)
      else (.collecting [lo, hi], none)
    | lo :: hi :: rest =>
      if rest.length < (value16 lo hi).toNat + 2 then (.collecting (lo :: hi :: rest), none)
      else (.hunting, some (frameVerdict lo hi (rest.take (value16 lo hi).toNat) (rest.drop (value16 lo hi).toNat)))
    | g => (.collecting g, none)

/-- A run of bytes into a receiver: its state after them and the verdicts, in order. -/
def rxBytes : Receiver → List Byte → Receiver × List RxResult
  | r, [] => (r, [])
  | r, b :: bs =>
    let one := rxByte r b
    let more := rxBytes one.1 bs
    (more.1, one.2.toList ++ more.2)

end Sys2Proof.Machine
end

