-- ==== Sys2Proof/Machine/Labels.lean ====
section
/-! DEFINITION. The Label Unit's own operations: building and queuing labels, starting a PRINT, giving a dump, FAULTED heads
(R176, R177, R179, R181, R184). -/

namespace Sys2Proof.Machine

/-- Coverage in label units of 0.01 m², rounded to the nearest (R176). -/
def labelUnitsOf (coverage : Nat) : Nat := (coverage + 5000) / 10000

/-- What the Label Unit takes from a bundle at its closure (R176): the lot code in force, and the nominal length and count of each
class whose count is not 0, in class order, from the length table of the bundle's bank. -/
def closureOf (s : State) (bu : Bundle) : ClosureCopy :=
  { lot := s.label.lot,
    pairs := ((s.recipe.banks[bu.bank].lengths.getD []).zip bu.classCounts.toList).filter (fun p => p.2 != 0) }

/-- The label record of a closed bundle (Table 56). -/
def labelOf (b : Bin) (bu : Bundle) : LabelRecord :=
  { number := bu.number, bin := b, gradeCode := bu.gradeCode, generation := bu.generation,
    lot := (bu.closure.map ClosureCopy.lot).getD 0, pieces := bu.landedCount, coverage := bu.landedCoverage,
    labelUnits := labelUnitsOf bu.landedCoverage, short := bu.short, stray := bu.stray,
    pairs := (bu.closure.map ClosureCopy.pairs).getD [], closeTime := bu.closeTime.getD 0 }

/-- A PRINT begins when the head is WAIT_READY, the labeller-ready flag is 1 and no PRINT is being sent; its first byte clears the
flag (R179). -/
def tryPrint (s : State) : State :=
  match s.label.queue with
  | [] => s
  | h :: _ =>
    if s.label.head = .waitReady ∧ s.label.readyFlag = true ∧ s.label.printing = none then
      { s with label := { s.label with printing := some { label := h, forHead := true }, readyFlag := false } }
    else s

/-- A label joins the tail of the queue; into an empty queue it becomes the head in WAIT_READY with its dumped mark clear (R177). -/
def enqueueLabel (l : LabelRecord) (s : State) : State :=
  if s.label.queue.isEmpty then
    { s with label := { s.label with queue := [l], head := .waitReady, dumped := false } }
  else { s with label := { s.label with queue := s.label.queue ++ [l] } }

/-- The label queue has room for one more label (R177). -/
def labelRoom (s : State) : Bool := decide (s.label.queue.length < Config.labelCapacity)

/-- The dump of R181 for the head's bin, if its dumped mark is clear: a pulse, or in ESTOP a pulse owed. A dump that falls due while a pulse
of the same bin still runs or is owed merges with it into one pulse or one owed dump (the model's choice: log 42). -/
def giveDump (b : Bin) (s : State) : State :=
  if s.label.dumped then s
  else if s.line.state = .estop then
    { s with label := { s.label with dumped := true, owed := setAt s.label.owed b true } }
  else { s with label := { s.label with dumped := true, dumpHigh := setAt s.label.dumpHigh b true } }

/-- Entry to ESTOP stops running pulses and their dumps become owed again (R181). -/
def holdDumps (s : State) : State :=
  { s with label := { s.label with
      owed := Vector.zipWith (fun o h => o || h) s.label.owed s.label.dumpHigh,
      dumpHigh := Vector.replicate 8 false } }

/-- On leaving ESTOP every owed dump is given (R181). -/
def giveOwedDumps (s : State) : State :=
  { s with label := { s.label with
      dumpHigh := Vector.zipWith (fun h o => h || o) s.label.dumpHigh s.label.owed,
      owed := Vector.replicate 8 false } }

/-- The code of a FAULTED head's fault in the LABEL record (Table 57). -/
def LabelCause.faultCode : LabelCause → Nat
  | .acceptTimeout => 1
  | .appliedTimeout => 2
  | .labeller => 3

/-- The detail of that fault (Table 57): the labeller code, none for a timeout. -/
def LabelCause.detail (code : Byte) : LabelCause → Option Nat
  | .acceptTimeout | .appliedTimeout => none
  | .labeller => some code.toNat

/-- The head becomes FAULTED: its timer stops, its dumped mark stays, the LABEL fault is logged and the LABEL notice sent (R184),
in this order (the model's choice: log 10). -/
def faultHead (cause : LabelCause) (code : Byte) (s : State) : State :=
  match s.label.queue with
  | [] => s
  | h :: _ =>
    let s1 := { s with label := { s.label with head := .faulted cause code } }
    let s2 := logFault .label cause.faultCode (cause.detail code) (.bundle h.number) 0 s1
    offer (.label (.faulted h.number h.bin cause code s.label.dumped) s2.link.clock) s2

end Sys2Proof.Machine
end

