-- ==== Sys2Proof/Machine/Bundles.lean ====
section
/-! DEFINITION. The Bundle Table and the binding of bundles to banks: opening, admission, landing, release, closure, generation
close, discard (R154 to R167), and the Recipe Store's counts with the retiring of a bank (R198). -/

namespace Sys2Proof.Machine

/-- The grade code of a bin plan entry that stands for NONE (Table 50; assumption log 12). -/
def gradeNone : Nat := 8

/-- The reference count of a bank (Table 59). -/
def Bank.references (b : Bank) : Nat := b.strips + b.cuttings + b.bundles

/-- A BUNDLE notice for bin b, with the bin state after the event (R171). -/
def bundleNotice (e : BundleEvent) (b : Bin) (bu : Bundle) (st : BinState) (s : State) : State :=
  offer (.bundle { event := e, bin := b, bundle := bu, state := st, clock := s.link.clock }) s

/-- The next bundle number advances by one, from 4,294,967,295 to 1 (R188). -/
def nextBundleNumber (n : Word) : Word := if n = 0xFFFFFFFF#32 then 1 else n + 1

/-- The plan entry of the ACTIVE bank for bin b, with its bank, when it gives the bin a grade (R154). -/
def planFor (s : State) (b : Bin) : Option (BankId × BinPlan) :=
  match activeBank s with
  | none => none
  | some k =>
    match s.recipe.banks[k].bins with
    | none => none
    | some plan => if plan[b].grade = gradeNone then none else some (k, plan[b])

/-- The bundle record a bin takes at opening (R154). -/
def newBundle (s : State) (b : Bin) (k : BankId) (e : BinPlan) : Bundle :=
  { number := s.label.nextNumber, bin := b, bank := k, generation := (s.recipe.banks[k].generation).getD 0,
    gradeCode := (((s.recipe.banks[k].grades.getD [])[e.grade]?).map GradeEntry.code).getD 0,
    spec := e, w := (s.recipe.banks[k].cover).getD 0, count := 0, coverage := 0, shortCoverage := 0,
    classCounts := Vector.replicate 12 0, landedCount := 0, landedCoverage := 0, short := false, stray := false,
    closeSeq := none, closeTime := none, closure := none }

/-- A bundle opens in bin b from the ACTIVE bank's plan, or the bin becomes IDLE without a record (R154). -/
def openBundle (b : Bin) (s : State) : State :=
  match planFor s b with
  | none => mapBin b (fun r => { r with state := .idle, bundle := none }) s
  | some (k, e) =>
    let bu := newBundle s b k e
    let s1 := mapBin b (fun r => { r with state := .opened, bundle := some bu }) s
    let s2 := { s1 with label := { s1.label with nextNumber := nextBundleNumber s1.label.nextNumber } }
    let s3 := mapBank k (fun r => { r with bundles := r.bundles + 1 }) s2
    bundleNotice .opened b bu .opened s3

/-- A RETIRING bank whose reference count is 0 becomes VALID, with a RECIPE notice RETIRED (R198). -/
def retireCheck (k : BankId) (s : State) : State :=
  if s.recipe.banks[k].state = .retiring ∧ s.recipe.banks[k].references = 0 then
    let s1 := mapBank k (fun r => { r with state := .valid }) s
    offer (.recipe (.retired k (s.recipe.banks[k].generation.getD 0)) s.link.clock) s1
  else s

/-- The bundle in bin b closes (R162): it takes its close sequence and time, its lot and lengths (R176), is unbound from its bank, gives
the CLOSED notice, and joins the label queue if there is room. -/
def closeBundle (b : Bin) (s : State) : State :=
  match s.bundles.bins[b].bundle with
  | none => s
  | some bu =>
    let room := labelRoom s
    let st : BinState := if room then .labelling else .closing
    let bu' := { bu with closeSeq := some s.bundles.nextClose, closeTime := some s.link.clock, closure := some (closureOf s bu) }
    let s1 := mapBin b (fun r => { r with state := st, bundle := some bu' }) s
    let s2 := { s1 with bundles := { s1.bundles with nextClose := s1.bundles.nextClose + 1 } }
    let s3 := mapBank bu.bank (fun r => { r with bundles := r.bundles - 1 }) s2
    let s4 := bundleNotice .closed b bu' st s3
    if room then tryPrint (enqueueLabel (labelOf b bu') s4) else s4

/-- The closure condition (R162): a FILLED bundle whose committed count equals its landed count closes. -/
def closeTest (b : Bin) (s : State) : State :=
  match s.bundles.bins[b].bundle with
  | none => s
  | some bu => if s.bundles.bins[b].state = .filled ∧ bu.count = bu.landedCount then closeBundle b s else s

/-- The bank of bin b's bundle, tested for retiring after a change that may have unbound it (R198). -/
def retireAfter (b : Bin) (f : State → State) (s : State) : State :=
  match s.bundles.bins[b].bundle with
  | none => f s
  | some bu => retireCheck bu.bank (f s)

/-- A bundle is due for generation close (R166): its bank is not ACTIVE and has no strip and no cutting bound. -/
def closeDue (s : State) (bu : Bundle) : Bool :=
  activeBank s != some bu.bank && s.recipe.banks[bu.bank].strips == 0 && s.recipe.banks[bu.bank].cuttings == 0

/-- An empty bundle is discarded and the bin opens its next bundle or becomes IDLE (R167). -/
def discardBundle (b : Bin) (bu : Bundle) (s : State) : State :=
  let s1 := mapBank bu.bank (fun r => { r with bundles := r.bundles - 1 }) s
  let st : BinState := if (planFor s1 b).isSome then .opened else .idle
  openBundle b (bundleNotice .discarded b bu st s1)

/-- The bundle takes the SHORT flag and the bin becomes FILLED, with its FILLED notice; then the closure condition is tested
(R165, R166). The notice carries FILLED even if the bin moves on at once (R171; the model's reading: log 21). -/
def closeShort (b : Bin) (bu : Bundle) (s : State) : State :=
  let bu' := { bu with short := true }
  closeTest b (bundleNotice .filled b bu' .filled (mapBin b (fun r => { r with state := .filled, bundle := some bu' }) s))

/-- The generation-close test of one bin (R166): only an OPEN bundle is acted on. -/
def genCloseBin (b : Bin) (s : State) : State :=
  match s.bundles.bins[b].bundle with
  | none => s
  | some bu =>
    if s.bundles.bins[b].state = .opened ∧ closeDue s bu = true then
      if bu.count = 0 then discardBundle b bu s else closeShort b bu s
    else s

/-- The generation-close test of every bin in ascending order (R166). -/
def genClose (s : State) : State := allBins.foldl (fun s b => genCloseBin b s) s

/-- The Recipe Store's report after a strip or a cutting is unbound from bank k (R198). -/
def reportUnbound (k : BankId) (s : State) : State :=
  retireCheck k
    (if s.recipe.banks[k].state ≠ .active ∧ s.recipe.banks[k].strips = 0 ∧ s.recipe.banks[k].cuttings = 0 then genClose s
     else s)

/-- A strip is unbound from its bank (Table 63). -/
def unbindStrip (k : BankId) (s : State) : State :=
  reportUnbound k (mapBank k (fun r => { r with strips := r.strips - 1 }) s)

/-- A cutting is unbound from its bank (Table 63). -/
def unbindCutting (k : BankId) (s : State) : State :=
  reportUnbound k (mapBank k (fun r => { r with cuttings := r.cuttings - 1 }) s)

/-! ### Admission, landing, release -/

/-- The fill point of a bundle spec (R158). -/
def BinPlan.fillPoint (e : BinPlan) : Nat := e.ct - e.tolLo

/-- Whether bin b admits a cutting of grade index g, bank generation gen, class c and nominal length n (R157). -/
def admits (s : State) (b : Bin) (g gen c n : Nat) : Bool :=
  match s.bundles.bins[b].bundle with
  | none => false
  | some bu =>
    s.bundles.bins[b].state == .opened
      && bu.spec.grade == g && bu.generation == gen
      && decide (bu.spec.classLow ≤ c ∧ c ≤ bu.spec.classHigh)
      && decide (bu.coverage + n * bu.w ≤ bu.spec.ct + bu.spec.tolHi)
      && decide (bu.count + 1 ≤ bu.spec.nmax)
      && (!decide (n < bu.spec.s)
          || decide ((bu.shortCoverage + n * bu.w) * 100 ≤ bu.spec.pmax * bu.spec.fillPoint))

/-- A class count raised or lowered (R158, R160). -/
def mapClass (c : Nat) (f : Nat → Nat) (v : Vector Nat 12) : Vector Nat 12 :=
  if h : c < 12 then v.set c (f v[c]) h else v

/-- The committed totals with a piece of class c and length n added (R158). -/
def Bundle.commit (bu : Bundle) (c n : Nat) : Bundle :=
  { bu with count := bu.count + 1, coverage := bu.coverage + n * bu.w,
            shortCoverage := if n < bu.spec.s then bu.shortCoverage + n * bu.w else bu.shortCoverage,
            classCounts := mapClass c (fun k => k + 1) bu.classCounts }

/-- The committed totals with a piece of class c and length n taken out (R160). -/
def Bundle.releasePiece (bu : Bundle) (c n : Nat) : Bundle :=
  { bu with count := bu.count - 1, coverage := bu.coverage - n * bu.w,
            shortCoverage := if n < bu.spec.s then bu.shortCoverage - n * bu.w else bu.shortCoverage,
            classCounts := mapClass c (fun k => k - 1) bu.classCounts }

/-- The committed totals have reached the fill point or the piece limit (R158). -/
def Bundle.atFill (bu : Bundle) : Bool := decide (bu.spec.fillPoint ≤ bu.coverage ∨ bu.count = bu.spec.nmax)

/-- The committed totals are below the fill point and the piece limit (R161). -/
def Bundle.belowFill (bu : Bundle) : Bool := decide (bu.coverage < bu.spec.fillPoint ∧ bu.count < bu.spec.nmax)

/-- Bin b takes a cutting of class c and length n into its bundle and tests the fill point (R158). -/
def admitTo (b : Bin) (c n : Nat) (s : State) : State :=
  match s.bundles.bins[b].bundle with
  | none => s
  | some bu =>
    let bu' := bu.commit c n
    if bu'.atFill then
      bundleNotice .filled b bu' .filled (mapBin b (fun r => { r with state := .filled, bundle := some bu' }) s)
    else mapBin b (fun r => { r with bundle := some bu' }) s

/-- The Bundle Table's answer to a lug load (R156): the first bin, in ascending order, that admits the cutting, committed to it. -/
def admission (g gen c n : Nat) (s : State) : Option Bin × State :=
  match allBins.find? (fun b => admits s b g gen c n) with
  | none => (none, s)
  | some b => (some b, admitTo b c n s)

/-- A piece of length n lands in bin b (R159). -/
def landPiece (b : Bin) (n : Nat) (s : State) : State :=
  let s1 := mapBundle b
    (fun bu => { bu with landedCount := bu.landedCount + 1, landedCoverage := bu.landedCoverage + n * bu.w }) s
  retireAfter b (closeTest b) s1

/-- A reservation is taken out of bin b's committed totals (R160). -/
def releaseTotals (b : Bin) (c n : Nat) (s : State) : State := mapBundle b (fun bu => bu.releasePiece c n) s

/-- The tests after a release (R161, R162), without the retiring of a bank: a FILLED bundle reopens or is tested for closure, a
HELD one with underlying FILLED may reopen underneath. -/
def reopenOrClose (b : Bin) (s : State) : State :=
  match s.bundles.bins[b].bundle with
  | none => s
  | some bu =>
    if s.bundles.bins[b].state = .filled then
      if bu.short = false ∧ bu.belowFill = true then
        bundleNotice .reopened b bu .opened (mapBin b (fun r => { r with state := .opened }) s)
      else closeTest b s
    else if s.bundles.bins[b].state = .held .filled ∧ bu.short = false ∧ bu.belowFill = true then
      bundleNotice .reopened b bu (.held .opened) (mapBin b (fun r => { r with state := .held .opened }) s)
    else s

/-- A release (R160) with the tests that follow it (R161, R162) and the retiring of the bank a closure may bring (R198). -/
def release (b : Bin) (c n : Nat) (s : State) : State :=
  retireAfter b (reopenOrClose b) (releaseTotals b c n s)

/-- A stray landing sets the STRAY flag of the bundle in bin b (R170). -/
def flagStray (b : Bin) (s : State) : State := mapBundle b (fun bu => { bu with stray := true }) s

/-! ### The labels that leave the queue -/

/-- The close sequence of bin b's bundle, if the bin is CLOSING (R163). -/
def closingSeq (s : State) (b : Bin) : Option Nat :=
  if s.bundles.bins[b].state = .closing then s.bundles.bins[b].bundle.bind Bundle.closeSeq else none

/-- The better of the oldest CLOSING bin found so far and bin b (R163). -/
def olderClosing (s : State) (best : Option (Bin × Nat)) (b : Bin) : Option (Bin × Nat) :=
  match closingSeq s b, best with
  | none, _ => best
  | some q, none => some (b, q)
  | some q, some (o, p) => if q < p then some (b, q) else some (o, p)

/-- The CLOSING bin whose bundle has the lowest close sequence (R163). -/
def oldestClosing (s : State) : Option Bin := (allBins.foldl (olderClosing s) none).map Prod.fst

/-- The oldest CLOSING bundle joins the label queue and its bin becomes LABELLING (R163). -/
def closingEntry (s : State) : State :=
  match oldestClosing s with
  | none => s
  | some b =>
    match s.bundles.bins[b].bundle with
    | none => s
    | some bu =>
      if labelRoom s then
        enqueueLabel (labelOf b bu) (mapBin b (fun r => { r with state := .labelling }) s)
      else s

/-- The bin leaves LABELLING for CLEARING with its DISPATCHED notice (R164); with BIN EMPTY active the next bundle opens within the
same event (R155). The notice carries CLEARING, the change it reports (R152), even then (the model's reading: log 21). -/
def dispatchBin (b : Bin) (o : Outcome) (s : State) : State :=
  let s1 := mapBin b (fun r => { r with state := .clearing }) s
  let s2 := match s1.bundles.bins[b].bundle with
    | none => s1
    | some bu => bundleNotice (.dispatched o) b bu .clearing s1
  if s2.bundles.bins[b].emptyLevel then openBundle b s2 else s2

/-- The head label leaves the queue with an outcome (R183 for APPLIED; R187 for VOIDED, whose LABEL notice goes ahead of the BUNDLE
notice): the dump if it is due, the dispatch record, the bin to CLEARING, the oldest CLOSING bundle, the next head and its PRINT. -/
def headLeaves (o : Outcome) (s : State) : State :=
  match s.label.queue with
  | [] => s
  | h :: rest =>
    let s1 := giveDump h.bin s
    let s2 := { s1 with label := { s1.label with
        queue := rest, head := .waitReady, dumped := false,
        printing := s1.label.printing.map (fun j => { j with forHead := false }),
        dispatch := setAt s1.label.dispatch h.bin (some { number := h.number, outcome := o, clock := s1.link.clock }) } }
    let s3 := if o = .voided then offer (.label (.voided h.number h.bin) s2.link.clock) s2 else s2
    tryPrint (closingEntry (dispatchBin h.bin o s3))

end Sys2Proof.Machine
end

