-- ==== Sys2Proof/Machine/Referrals.lean ====
section
/-! DEFINITION. The Referral Unit: tags, raising, promotion, answers, expiry and withdrawal (R116 to R128). -/

namespace Sys2Proof.Machine

/-- The tag memory entry of a tag (R116). -/
def ReferralUnit.entry (u : ReferralUnit) (tag : Nat) : Option TagEntry := (u.memory[tag - 1]?).join

/-- The tag memory with the entry of a tag replaced. -/
def ReferralUnit.setEntry (u : ReferralUnit) (tag : Nat) (e : TagEntry) : ReferralUnit :=
  if h : tag - 1 < 255 then { u with memory := u.memory.set (tag - 1) (some e) h } else u

/-- The tag's entry is OUTSTANDING (R119). -/
def ReferralUnit.tagOutstanding (u : ReferralUnit) (tag : Nat) : Bool :=
  match u.entry tag with
  | some e => !e.ended
  | none => false

/-- The tag that follows a tag, from 255 back to 1 (R119). -/
def tagAfter (t : Nat) : Nat := if t ≥ 255 then 1 else t + 1

/-- The first tag, of up to so many from t on, whose entry is not OUTSTANDING (R119). -/
def freeTagFrom (u : ReferralUnit) : Nat → Nat → Nat
  | 0, t => t
  | k + 1, t => if u.tagOutstanding t then freeTagFrom u k (tagAfter t) else t

/-- The tag the next referral to become outstanding takes (R119). -/
def ReferralUnit.nextTag (u : ReferralUnit) : Nat :=
  freeTagFrom u 255 (match u.lastTag with | none => 1 | some t => tagAfter t)

/-- A referral becomes outstanding: it takes a tag, its memory entry is written, and its REFERRAL notice is sent (R119, R120). -/
def makeOutstanding (r : Referral) (s : State) : State :=
  let tag := s.referral.nextTag
  let r' := { r with tag := some tag }
  let u := s.referral.setEntry tag { id := r.id, ended := false }
  offer (.referral r' s.link.clock)
    { s with referral := { u with outstanding := u.outstanding ++ [r'], lastTag := some tag } }

/-- Freed slots are filled from the head of the waiting list (R121); k bounds the promotions. -/
def promote : Nat → State → State
  | 0, s => s
  | k + 1, s =>
    match s.referral.waiting with
    | [] => s
    | r :: rest =>
      if s.referral.outstanding.length < Config.slotCapacity then
        promote k (makeOutstanding r { s with referral := { s.referral with waiting := rest } })
      else s

/-- Every freed slot is filled (R121). -/
def promoteAll (s : State) : State := promote Config.slotCapacity s

/-- The outstanding referral of a cutting. -/
def findOutstanding (s : State) (id : CuttingId) : Option Referral :=
  s.referral.outstanding.find? (fun r => decide (r.id = id))

/-- The waiting referral of a cutting. -/
def findWaiting (s : State) (id : CuttingId) : Option Referral := s.referral.waiting.find? (fun r => decide (r.id = id))

/-- An outstanding referral leaves its slot and its tag's entry becomes ENDED (R119, R121). -/
def endOutstanding (r : Referral) (s : State) : State :=
  let u := match r.tag with
    | none => s.referral
    | some t => s.referral.setEntry t { id := r.id, ended := true }
  { s with referral := { u with outstanding := u.outstanding.filter (fun x => decide (x.id ≠ r.id)) } }

/-- A REFERRAL END notice (R127). -/
def referralEnd (tag : Nat) (id : CuttingId) (reason : ReferralEndReason) (st : Standing) (s : State) : State :=
  offer (.referralEnd tag id reason st s.link.clock) s

/-- The standing referral of a cutting, if any, ends for a reason with its REFERRAL END notice (R124, R126); a freed slot is filled
later, by promoteAll. -/
def endReferral (id : CuttingId) (reason : ReferralEndReason) (s : State) : State :=
  match findOutstanding s id with
  | some r => referralEnd (r.tag.getD 0) id reason .outstanding (endOutstanding r s)
  | none =>
    match findWaiting s id with
    | some _ =>
      referralEnd 0 id reason .waiting
        { s with referral := { s.referral with waiting := s.referral.waiting.filter (fun x => decide (x.id ≠ id)) } }
    | none => s

/-- A referral that arises is placed in a free slot, or in the waiting list, or overflows with its REFERRAL END notice (R118); the
result tells whether it was placed. -/
def raiseReferral (r : Referral) (s : State) : Bool × State :=
  if s.referral.outstanding.length < Config.slotCapacity then (true, makeOutstanding r s)
  else if s.referral.waiting.length < Config.waitingCapacity then
    (true, { s with referral := { s.referral with waiting := s.referral.waiting ++ [r] } })
  else (false, referralEnd 0 r.id .overflow .none s)

/-- RESET LINE and entry to ESTOP end every referral without notices and clear the tag memory; the last tag stays (R128). -/
def ReferralUnit.afterReset (u : ReferralUnit) : ReferralUnit :=
  { outstanding := [], waiting := [], lastTag := u.lastTag, memory := Vector.replicate 255 none }

/-- A cutting's referral state as READ CUTTING reports it (R117). -/
def referralView (s : State) (id : CuttingId) : ReferralView :=
  match findOutstanding s id with
  | some r => .outstanding (r.tag.getD 0)
  | none =>
    match s.referral.waiting.findIdx? (fun r => decide (r.id = id)) with
    | some i => .waiting (i + 1)
    | none => .none

/-- The context a standing referral keeps, as READ CUTTING reports it: grade index and test index (R105). -/
def keptContext (s : State) (id : CuttingId) : Option (Nat × Nat) :=
  ((findOutstanding s id).or (findWaiting s id)).map (fun r => (r.context.grade, r.context.test))

end Sys2Proof.Machine
end

