-- ==== Sys2Proof/Machine/Grading.lean ====
section
/-! DEFINITION. The Grade Engine: the evaluation of a cutting against its bank's grades and test pool, suspended runs, resumptions,
and the settling of a cutting's grading at its lug load (R97 to R114). -/

namespace Sys2Proof.Machine

/-- How the tests of one grade's range end: with both flags, or suspended at a referred test (R103, R107). -/
inductive TestsEnd where
  | done (p q : Bool)
  | referred (test feature : Nat) (p q : Bool)
  deriving DecidableEq, Repr

/-- How an evaluation's run ends (R104, R107). -/
inductive RunEnd where
  | graded (grade code : Nat)
  | noGrade
  | suspended (context : EvalContext) (feature : Nat)
  deriving DecidableEq, Repr

/-- The value of a feature of a cutting; EXT0 to EXT7 have none (R45, R46). -/
def featureOf (fs : Vector (Option Int) 14) (id : Nat) : Option Int := (fs[id]?).join

/-- The result of one test, or none when the test is referred (R100). Features from 16 on are EXT0 to EXT7. -/
def testResult (fs : Vector (Option Int) 14) (e : TestEntry) : Option Bool :=
  if 16 ≤ e.feature then none
  else match featureOf fs e.feature with
    | some f => some (applyNegate e.negate (compareFeature e.op f e.a e.b))
    | none =>
      match e.absent with
      | 0 => some false
      | 1 => some true
      | _ => none

/-- The test pool's entry at an index; a grade's range is loaded by the commit checks (R97). -/
def poolEntry (b : Bank) (i : Nat) : Option TestEntry := (b.tests[i]?).join

/-- The tests of a range, from flags P and Q on, in ascending index (R103). -/
def runTests (b : Bank) (fs : Vector (Option Int) 14) : List Nat → Bool → Bool → TestsEnd
  | [], p, q => .done p q
  | i :: is, p, q =>
    match poolEntry b i with
    | none => runTests b fs is p q
    | some e =>
      match testResult fs e with
      | none => .referred i e.feature p q
      | some r => runTests b fs is (foldResult e p q r).1 (foldResult e p q r).2

/-- The indices of a grade's tests (R97). -/
def gradeRange (g : GradeEntry) : List Nat := List.range' g.first g.count

/-- The grades from index g on, each from P = 1 and Q = 1 (R103, R104). -/
def runGrades (b : Bank) (fs : Vector (Option Int) 14) : List GradeEntry → Nat → RunEnd
  | [], _ => .noGrade
  | e :: es, g =>
    match runTests b fs (gradeRange e) true true with
    | .referred t f p q => .suspended { grade := g, test := t, p, q } f
    | .done p q => if verdictPasses e.verdict p q then .graded g e.code else runGrades b fs es (g + 1)

/-- The grades of a bank. -/
def Bank.gradeList (b : Bank) : List GradeEntry := b.grades.getD []

/-- The first run of a cutting's evaluation (R106). -/
def firstRun (b : Bank) (c : Cutting) : RunEnd := runGrades b c.features b.gradeList 0

/-- A resumption run from the kept context and the answer's result (R110). -/
def resumeRun (b : Bank) (c : Cutting) (k : EvalContext) (result : Bool) : RunEnd :=
  match b.gradeList[k.grade]? with
  | none => .noGrade
  | some g =>
    let flags := match poolEntry b k.test with
      | none => (k.p, k.q)
      | some e => foldResult e k.p k.q (applyNegate e.negate result)
    match runTests b c.features (List.range' (k.test + 1) (g.first + g.count - (k.test + 1))) flags.1 flags.2 with
    | .referred t f p q => .suspended { grade := k.grade, test := t, p, q } f
    | .done p q =>
      if verdictPasses g.verdict p q then .graded k.grade g.code
      else runGrades b c.features (b.gradeList.drop (k.grade + 1)) (k.grade + 1)

/-- A cutting GRADED with a grade index and its code (R104). -/
def gradeAs (g code : Nat) (c : Cutting) : Cutting :=
  { c with gradeStatus := .graded, grade := some (.index g), gradeCode := some code, rejectReason := none }

/-- A cutting GRADED with REJECT and a reason (R104). -/
def rejectAs (r : RejectReason) (c : Cutting) : Cutting :=
  { c with gradeStatus := .graded, grade := some .reject, gradeCode := none, rejectReason := some r }

/-- The end of a cutting's span in mm, exclusive: span start + n + Ae (R45). -/
def spanEnd (b : Bank) (c : Cutting) : Nat := c.spanStart + c.nominal + (b.cut.map CutSection.ae).getD 0

/-- The referral a run hands to the Referral Unit (R107, R117); the strip length is the cutting's STRIPLEN feature (R46). -/
def referralFor (s : State) (c : Cutting) (k : EvalContext) (feature : Nat) : Referral :=
  { id := c.id, context := k, feature, spanStart := c.spanStart, spanEnd := spanEnd s.recipe.banks[c.bank] c,
    nominal := c.nominal, stripLength := ((featureOf c.features 12).getD 0).toNat,
    tag := none, arose := s.link.clock }

/-- The end of a run written into the cutting record; a suspension raises its referral, which may overflow (R107, R108). -/
def writeRun (c : Cutting) (e : RunEnd) (s : State) : State :=
  match e with
  | .graded g code => mapCutting c.id (gradeAs g code) s
  | .noGrade => mapCutting c.id (rejectAs .noGrade) s
  | .suspended k f =>
    let placed := raiseReferral (referralFor s c k f) s
    mapCutting c.id
      (fun c => if placed.1 then { c with gradeStatus := .referred, referralCount := countUpTo 255 c.referralCount }
        else rejectAs .referralOverflow { c with referralCount := countUpTo 255 c.referralCount })
      placed.2

/-- The first run of a cutting on the planning path (R106); a cutting freed meanwhile has no run (R112). -/
def planningRun (id : CuttingId) (s : State) : State :=
  match findCutting s id with
  | none => s
  | some c => writeRun c (firstRun s.recipe.banks[c.bank] c) s

/-- The resumption path begins the run at the head of its queue when it is idle (R109). -/
def beginResumption (s : State) : State :=
  match s.grade.run, s.grade.queue with
  | none, r :: rest => { s with grade := { run := some r, queue := rest } }
  | _, _ => s

/-- The run in progress on the resumption path ends and writes its result; the path is idle after it (R110). -/
def finishRun (s : State) : State :=
  match s.grade.run with
  | none => s
  | some r =>
    let s1 := { s with grade := { s.grade with run := none } }
    match findCutting s1 r.id with
    | none => s1
    | some c => writeRun c (resumeRun s1.recipe.banks[c.bank] c r.context r.result) s1

/-- An answered cutting becomes RESUMING; its run begins at once on an idle path or waits in the queue (R109). -/
def startResumption (r : Resumption) (s : State) : State :=
  let s1 := mapCutting r.id (fun c => { c with gradeStatus := .resuming }) s
  beginResumption { s1 with grade := { s1.grade with queue := s1.grade.queue ++ [r] } }

/-- The Grade Engine lets go of a freed cutting: its waiting resumption leaves the queue, its run in progress ends and writes nothing,
and the path takes the next (R112). -/
def abandonRuns (id : CuttingId) (s : State) : State :=
  beginResumption { s with grade :=
    { run := s.grade.run.filter (fun r => decide (r.id ≠ id)),
      queue := s.grade.queue.filter (fun r => decide (r.id ≠ id)) } }

/-- A resumption run within its cutting's lug load (R111, R125): a further suspension expires as it arises. -/
def settleRun (r : Resumption) (s : State) : State :=
  match findCutting s r.id with
  | none => s
  | some c =>
    match resumeRun s.recipe.banks[c.bank] c r.context r.result with
    | .suspended _ _ =>
      referralEnd 0 r.id .expired .none
        (mapCutting r.id (fun c => rejectAs .referralExpired { c with referralCount := countUpTo 255 c.referralCount }) s)
    | e => writeRun c e s

/-- A RESUMING cutting is settled at its lug load: a run in progress for another cutting is completed first, then this cutting's
resumption is run at once, and the path goes on with its queue (R111). -/
def settleResuming (id : CuttingId) (s : State) : State :=
  match s.grade.run with
  | some r =>
    if r.id = id then beginResumption (settleRun r { s with grade := { s.grade with run := none } })
    else
      let s1 := finishRun s
      match s1.grade.queue.find? (fun x => decide (x.id = id)) with
      | none => beginResumption s1
      | some x =>
        beginResumption (settleRun x
          { s1 with grade := { s1.grade with queue := s1.grade.queue.filter (fun y => decide (y.id ≠ id)) } })
  | none =>
    match s.grade.queue.find? (fun x => decide (x.id = id)) with
    | none => s
    | some x =>
      beginResumption (settleRun x
        { s with grade := { s.grade with queue := s.grade.queue.filter (fun y => decide (y.id ≠ id)) } })

/-- The lug load settles a cutting's grading (R111, R124). UNGRADED cannot occur there (R111), and is left as it is. -/
def settleGrading (id : CuttingId) (s : State) : State :=
  match findCutting s id with
  | none => s
  | some c =>
    match c.gradeStatus with
    | .graded | .ungraded => s
    | .referred => promoteAll (mapCutting id (rejectAs .referralExpired) (endReferral id .expired s))
    | .resuming => settleResuming id s

end Sys2Proof.Machine
end

