-- ==== Sys2Proof/Machine/Cuttings.lean ====
section
/-! DEFINITION. Records coming and going: allocation and freeing of cutting records (R129 to R132), removal of strips from the strip
table (R17), sample stores freed (R38), and returns (R146, R147). -/

namespace Sys2Proof.Machine

/-! ### Strips leaving the table -/

/-- A strip's removal position (R16, R20): trail + offSE + dXE, moved by its shift once it is re-latched. For a strip whose removal position was
taken before its SE match the shift is added all the same, which the position of its return alone shows (the model's choice: log 48). -/
def removalPos (s : State) (r : Strip) : Word :=
  moveBy (plusTicks (r.trail.getD r.lead) (s.config.motion.offSE + s.config.motion.dXE)) (r.shift.getD 0)

/-- A strip's predicted lead at SE (R19). -/
def predictedLead (s : State) (r : Strip) : Word := plusTicks r.lead s.config.motion.offSE

/-- The return reason of a strip is the reason field of its record (R146, Table 47). -/
def StripReason.toReturn : StripReason → ReturnReason
  | .unscanned => .unscanned
  | .latePlan => .latePlan
  | .fireListFull => .fireListFull
  | .missingEdge => .missingEdge
  | .ambiguous => .ambiguous
  | .jam => .jam

/-- The last-return record is overwritten (R147). -/
def writeReturn (o : ReturnObject) (reason : ReturnReason) (p : Place) (s : State) : State :=
  { s with chain := { s.chain with lastReturn := some { object := o, reason, place := p, clock := s.link.clock } } }

/-- A strip that leaves the table UNPLANNED or LOST goes to return (R146); it gives no RETURN notice. -/
def returnStrip (r : Strip) (s : State) : State :=
  if r.state = .unplanned ∨ r.state = .lost then
    match r.reason with
    | some why => writeReturn (.strip r.number) why.toReturn (.tick (removalPos s r)) s
    | none => s
  else s

/-- The store a strip holds, if any, is freed and the record names none (R38). -/
def freeStore (n : Nat) (s : State) : State :=
  match (findStrip s n).bind Strip.store with
  | none => s
  | some i => mapStrip n (fun r => { r with store := none }) (mapStore i (fun _ => Store.free) s)

/-- The event is one that the Belt Tracker or the Scan Unit registered for strip n. -/
def EventKind.ofStrip (n : Nat) : EventKind → Bool
  | .seOpen m | .seEnd m | .removal m | .scanOpen m | .pass m => m == n
  | _ => false

/-- The Belt Tracker removes strip n from the table (R17): its store returns, its pending events are withdrawn, an UNPLANNED or LOST strip
is written as a return, TRACK_FULL leaves the set, and the bank's count falls with what that brings (R198). Fire entries of the strip stay in the
fire list, unregistered: only a PLANNED strip, removed before its SE match, has any (the model's reading: log 45). -/
def dropStrip (n : Nat) (s : State) : State :=
  match findStrip s n with
  | none => s
  | some r =>
    let s1 := withdraw (EventKind.ofStrip n) (freeStore n s)
    let s2 := { s1 with belt := { s1.belt with strips := s1.belt.strips.filter (fun x => x.number != n) } }
    unbindStrip r.bank (mapHolds (fun h => { h with trackFull := false }) (returnStrip r s2))

/-- A strip whose removal position was taken while it held cuttings leaves when none is left on the belt (R17, R131). -/
def leaveIfLast (n : Nat) (s : State) : State :=
  match findStrip s n with
  | none => s
  | some r => if r.removalTaken = true ∧ beltCuttings n s = [] then dropStrip n s else s

/-! ### Cutting records -/

/-- The lowest-numbered place of the table that no record of the list uses, from place k on (R129). -/
def lowestFree (used : List Nat) : Nat → Nat → Nat
  | 0, k => k
  | fuel + 1, k => if k ∈ used then lowestFree used fuel (k + 1) else k

/-- A cutting record as allocated (R72, Table 45, Table 36). -/
def newCutting (slot : Nat) (id : CuttingId) (nominal cls spanStart : Nat) (bank : BankId) : Cutting :=
  { slot, id, nominal, cls, spanStart, bank, features := Vector.replicate 14 none, gradeStatus := .ungraded, grade := none,
    gradeCode := none, rejectReason := none, referralCount := 0, state := .planned, loadLug := none, dest := none,
    returnReason := none, releasedBin := none }

/-- The Cutting Table allocates a record; the bank's cutting count rises, and RECORDS joins the set when the free count falls below 16
(R72, R129, R132). With no record free the allocation fails. -/
def allocate (id : CuttingId) (nominal cls spanStart : Nat) (bank : BankId) (s : State) : State :=
  if freeRecords s = 0 then s
  else
    let slot := lowestFree (s.cuttings.map Cutting.slot) Config.cuttingCapacity 0
    let s1 := { s with cuttings := s.cuttings ++ [newCutting slot id nominal cls spanStart bank] }
    let s2 := mapBank bank (fun r => { r with cuttings := r.cuttings + 1 }) s1
    if freeRecords s2 < Config.recordsFloor then mapHolds (fun h => { h with records := true }) s2 else s2

/-- The reservation a cutting holds in its destination bin is released (R131, R160); a landed cutting has none left. -/
def releaseReservation (c : Cutting) (landed : Bool) (s : State) : State :=
  match c.dest with
  | some (.bin b) => if landed then s else release b c.cls c.nominal s
  | _ => s

/-- The record of a cutting frees (R131), its referral apart: its evaluation ends, its transfer is withdrawn, its reservation is
released, the free count rises, the bank's count falls, and its strip may leave. -/
def freeRecord (landed : Bool) (id : CuttingId) (s : State) : State :=
  match findCutting s id with
  | none => s
  | some c =>
    let s1 := withdraw (fun k => k == .transfer id) (abandonRuns id s)
    let s2 := releaseReservation c landed s1
    let s3 := { s2 with cuttings := s2.cuttings.filter (fun x => decide (x.id ≠ id)) }
    let s4 := if Config.recordsFloor ≤ freeRecords s3 then mapHolds (fun h => { h with records := false }) s3 else s3
    leaveIfLast id.strip (unbindCutting c.bank s4)

/-- One event frees several cuttings: every withdrawal of a referral first, in the order given, then the promotions (R126), then the
records (R131). -/
def freeCuttings (ids : List CuttingId) (s : State) : State :=
  let s1 := ids.foldl (fun s id => endReferral id .withdrawn s) s
  ids.foldl (fun s id => freeRecord false id s) (promoteAll s1)

/-! ### Returns of cuttings -/

/-- A cutting goes to return (R146): the RETURN notice with the bin whose reservation is released for it, and the last-return record. -/
def returnCutting (c : Cutting) (reason : ReturnReason) (released : Option Bin) (p : Place) (s : State) : State :=
  writeReturn (.cutting c.id) reason p
    (offer (.returned c.id reason c.grade c.gradeCode released p s.link.clock) s)

/-- The bin a cutting holds a reservation in: its destination, when that is a bin (R131). -/
def Cutting.reservedBin (c : Cutting) : Option Bin :=
  match c.dest with
  | some (.bin b) => some b
  | _ => none

/-- The reject reason of a cutting is its return reason (R114). -/
def RejectReason.toReturn : RejectReason → ReturnReason
  | .noGrade => .noGrade
  | .referralOverflow => .referralOverflow
  | .referralExpired => .referralExpired

end Sys2Proof.Machine
end

