-- ==== Sys2Proof/Machine/Scan.lean ====
section
/-! DEFINITION. The Scan Unit's own work on one strip under the head: codes and values of samples (R27), pass counts and positions
(R31), held passes (R33), the window comparators and GAUGE runs (R41, R42), DEFECT runs (R39, R40) and the zone list (R43, R44). -/

namespace Sys2Proof.Machine

/-! ### Samples -/

/-- The quotient of a voltage scaled to a code, rounded down or up as the free value says when it is not exact (R27; log 7). -/
def roundCode (range : Nat) (v num den : Int) : Int :=
  if num % den = 0 then num / den else num / den + (if Config.adcRoundsUp range v then 1 else 0)

/-- The code of an input voltage, in units of 5 V / 4095, under a range code (R27): linear over the range, held at its ends. The ranges
are -10 V to 10 V, -5 V to 5 V, 0 to 10 V and 0 to 5 V. -/
def codeOf (range : Nat) (v : Int) : Nat :=
  let c := match range with
    | 0 => roundCode 0 v (v + 8190) 4
    | 1 => roundCode 1 v (v + 4095) 2
    | 2 => roundCode 2 v v 2
    | _ => v
  (max 0 (min 4095 c)).toNat

/-- The engineering value of a code (R27). -/
def valueOf (c : ChannelSetup) (code : Nat) : Int := c.base + (code * c.span) / 4096

/-- The sample of a channel at an input voltage (R27, R32). -/
def sampleOf (setup : Vector ChannelSetup 16) (c : Channel) (v : Int) : Sample :=
  let code := codeOf setup[c].range v
  { channel := c, code, value := valueOf setup[c] code, saturated := codeSaturated code }

/-- The channel numbers of the scan list, in list order (R29). -/
def ScanConfig.channels (c : ScanConfig) : List Channel :=
  (c.slots.toList.take c.count).map (fun k => Fin.ofNat 16 k)

/-- One sample for each entry of the scan list, in list order, at the voltage that entry met (R29, R32). -/
def convertList (cfg : Configuration) (volts : Vector Int 16) : List Sample :=
  (cfg.scan.channels.zip volts.toList).map (fun p => sampleOf cfg.channels p.1 p.2)

/-- The placeholder of a pass 0 that falls due while the converter is still busy with another strip (R33). -/
def placeholder (cfg : Configuration) : PassSlot :=
  { samples := cfg.scan.channels.map (fun c => { channel := c, code := 0, value := 0, saturated := true }), held := true }

/-! ### Passes -/

/-- The tick length of a strip whose trail is known (R16, R31). -/
def Strip.ticks (r : Strip) : Nat :=
  match r.trail with
  | none => 0
  | some t => (ticksFrom r.lead t).toNat

/-- The number N of body passes (R31). -/
def Strip.bodyPasses (r : Strip) (pitch : Nat) : Nat := (r.ticks + pitch - 1) / pitch

/-- The final pass F = N + lagPasses - 1 (R31). -/
def Strip.finalPass (r : Strip) (c : ScanConfig) : Int := (r.bodyPasses c.pitch : Int) + c.lag - 1

/-- Pass j is a body pass (R31): every due pass is one while the trail is absent. -/
def Strip.isBody (r : Strip) (pitch j : Nat) : Bool := r.trail.isNone || decide (j * pitch < r.ticks)

/-- The due position of pass j (R31). -/
def passDue (s : State) (r : Strip) (j : Nat) : Word :=
  plusTicks r.lead (s.config.motion.offSH + j * s.config.scan.pitch)

/-- The position of pass j on the strip in mm (R31). -/
def passMm (s : State) (j : Nat) : Nat := ticksToMm s.config.motion.k (j * s.config.scan.pitch)

/-! ### The zone list -/

/-- A zone in its place by start pass, after those with the same start (R43). -/
def insertZone (z : Zone) : List Zone → List Zone
  | [] => [z]
  | y :: ys => if y.start ≤ z.start then y :: insertZone z ys else z :: y :: ys

/-- A zone merged into another, whose kind and source it takes (R44). -/
def Zone.absorb (last z : Zone) : Zone :=
  { source := last.source, start := min last.start z.start, stop := max last.stop z.stop,
    severity := max last.severity z.severity }

/-- A closed run enters the zone list, or is merged into its last zone when the list is full, with ZONE_SAT (R43, R44). -/
def Strip.enterZone (z : Zone) (r : Strip) : Strip :=
  if r.zones.length < Config.zoneCapacity then { r with zones := insertZone z r.zones }
  else match r.zones.getLast? with
    | none => r
    | some last =>
      { r with zones := insertZone (last.absorb z) r.zones.dropLast, flags := { r.flags with zoneSat := true } }

/-! ### A scan in progress -/

/-- A strip being scanned, with the slots of its store and its scan in progress. -/
structure Scanning where
  strip : Strip
  slots : List PassSlot
  scan : ScanProgress

/-- The open DEFECT run, if any, closes at an end pass (R40). -/
def Scanning.closeDefect (stop : Nat) (x : Scanning) : Scanning :=
  match x.scan.defect with
  | none => x
  | some d =>
    { x with strip := x.strip.enterZone { source := .gate, start := d.start, stop, severity := d.severity },
             scan := { x.scan with defect := none } }

/-- A severity code as a run reads it: 0 as 1 (R40). -/
def readSeverity (g : GateSample) : Nat := max 1 g.severity.toNat

/-- The DEFECT run after an attribution to pass p with the gate active (R40). -/
def extendDefect (p : Nat) (g : GateSample) : Option DefectRun → DefectRun
  | none => { start := p, severity := readSeverity g }
  | some d => { d with severity := max d.severity (readSeverity g) }

/-- The gate sample of pass j is attributed to pass j - lag, or dropped (R39, R40). -/
def Scanning.attribute (lag j : Nat) (g : GateSample) (x : Scanning) : Scanning :=
  if j < lag then x
  else if Config.storePasses ≤ j - lag then x.closeDefect Config.storePasses
  else if g.active then { x with scan := { x.scan with defect := some (extendDefect (j - lag) g x.scan.defect) } }
  else x.closeDefect (j - lag)

/-- The severity of a channel's GAUGE zones (R42). -/
def gaugeSeverity (c : ChannelSetup) : Nat :=
  match c.action with
  | .cut => 8
  | .mark => 0

/-- Channel c's open GAUGE run, if any, closes at an end pass (R42). -/
def Scanning.closeGauge (setup : Vector ChannelSetup 16) (stop : Nat) (c : Channel) (x : Scanning) : Scanning :=
  match x.scan.gauge[c] with
  | none => x
  | some start =>
    { x with strip := x.strip.enterZone { source := .channel c, start, stop, severity := gaugeSeverity setup[c] },
             scan := { x.scan with gauge := setAt x.scan.gauge c none } }

/-- Every open GAUGE run closes at an end pass, channels ascending (R42; log 18). -/
def Scanning.closeGauges (setup : Vector ChannelSetup 16) (stop : Nat) (x : Scanning) : Scanning :=
  allChannels.foldl (fun x c => x.closeGauge setup stop c) x

/-- Channel c fails at a pass (R41). -/
def channelFails (setup : Vector ChannelSetup 16) (samples : List Sample) (c : Channel) : Bool :=
  !setup[c].role.isProfile &&
    samples.any (fun m => m.channel == c && !m.saturated && valueFails setup[c].mode setup[c].l1 setup[c].l2 m.value)

/-- The window comparator of channel c at pass i (R42). -/
def Scanning.compare (setup : Vector ChannelSetup 16) (samples : List Sample) (i : Nat) (x : Scanning) (c : Channel) : Scanning :=
  if channelFails setup samples c then
    match x.scan.gauge[c] with
    | none => { x with scan := { x.scan with gauge := setAt x.scan.gauge c (some i) } }
    | some _ => x
  else x.closeGauge setup i c

/-- The next slot of the store is filled and the window comparators evaluate its pass, channels ascending (R32, R33, R42). -/
def Scanning.file (setup : Vector ChannelSetup 16) (slot : PassSlot) (x : Scanning) : Scanning :=
  allChannels.foldl (Scanning.compare setup slot.samples x.slots.length) { x with slots := x.slots ++ [slot] }

/-- The slot of a held pass: a copy of the pass before it, or the placeholder for pass 0 (R33). -/
def heldSlot (cfg : Configuration) (slots : List PassSlot) : PassSlot :=
  match slots.getLast? with
  | none => placeholder cfg
  | some p => { p with held := true }

/-- So many held passes that wait for their samples get them, in pass order (R33). -/
def Scanning.fillHeld (cfg : Configuration) : Nat → Scanning → Scanning
  | 0, x => x
  | n + 1, x => Scanning.fillHeld cfg n (x.file cfg.channels (heldSlot cfg x.slots))

/-- The body pass j falls due while the converter is busy (R33): its copy is made at once when pass j - 1 has its samples. -/
def Scanning.hold (cfg : Configuration) (j : Nat) (x : Scanning) : Scanning :=
  let y := { x with strip := { x.strip with flags := { x.strip.flags with sparse := true } },
                    scan := { x.scan with owed := x.scan.owed + 1 } }
  if x.slots.length = j then Scanning.fillHeld cfg 1 y else y

/-- A body pass from 2048 on is taken (R37, R42): OVERLENGTH, and at pass 2048 every GAUGE run closes at 2048. -/
def Scanning.overlength (cfg : Configuration) (j : Nat) (x : Scanning) : Scanning :=
  let y := { x with strip := { x.strip with flags := { x.strip.flags with overlength := true } } }
  if j = Config.storePasses then y.closeGauges cfg.channels Config.storePasses else y

/-- What the body pass j does beside its gate sample (R31, R33, R37). -/
def Scanning.body (cfg : Configuration) (busy : Bool) (j : Nat) (x : Scanning) : Scanning :=
  if Config.storePasses ≤ j then x.overlength cfg j
  else if busy then x.hold cfg j
  else { x with scan := { x.scan with owed := x.scan.owed + 1 } }

/-- Taking pass j on the strip's side (R31, R39): its body work, then its gate sample (log 18), and the next pass is j + 1. -/
def Scanning.pass (cfg : Configuration) (busy : Bool) (g : GateSample) (x : Scanning) : Scanning :=
  let j := x.scan.next
  let y := if x.strip.isBody cfg.scan.pitch j then x.body cfg busy j else x
  let z := y.attribute cfg.scan.lag j g
  { z with scan := { z.scan with next := j + 1 } }

/-- Pass F has been taken: the trail is known and no pass up to F is left (R34). -/
def Scanning.passesDone (c : ScanConfig) (x : Scanning) : Bool :=
  x.strip.trail.isSome && decide (x.strip.finalPass c < (x.scan.next : Int))

/-- The scan of the strip ends now (R34, R39): its passes are done or its tail is cut, and every body pass below 2048 taken has its
samples. -/
def Scanning.ended (c : ScanConfig) (x : Scanning) : Bool :=
  (x.scan.cut || x.passesDone c) && decide (x.scan.owed ≤ x.slots.length)

/-- Every open run closes at the scan end (R40, R42): the DEFECT run after the last attributed pass, then the GAUGE runs at the pass
count, and the strip becomes WAITING_PLAN (R34). -/
def Scanning.finish (cfg : Configuration) (x : Scanning) : Scanning :=
  let y := (x.closeDefect (x.scan.next - cfg.scan.lag)).closeGauges cfg.channels x.slots.length
  { y with strip := { y.strip with state := .waitingPlan } }

/-- The scan in progress of strip n. -/
def scanningOf (s : State) (n : Nat) : Option (StoreId × Scanning) :=
  match findStrip s n with
  | none => none
  | some r =>
    match r.state, r.store with
    | .scanning, some i =>
      match (s.scan.store i).scan with
      | none => none
      | some p => some (i, { strip := r, slots := (s.scan.store i).slots, scan := p })
    | _, _ => none

/-- The strip record and the store after work on a scan in progress; the scan itself is kept or over. -/
def putScanning (i : StoreId) (x : Scanning) (keep : Bool) (s : State) : State :=
  mapStrip x.strip.number (fun _ => x.strip)
    (mapStore i (fun t => { t with slots := x.slots, scan := if keep then some x.scan else none }) s)

/-- The converter holds a conversion (R32). -/
def converterBusy (s : State) : Bool := s.scan.converter.isSome

/-- The converter's conversion is set or ends (R32). -/
def setConverter (c : Option Conversion) (s : State) : State := { s with scan := { s.scan with converter := c } }

end Sys2Proof.Machine
end

