-- ==== Sys2Proof/Machine/Profile.lean ====
section
/-! DEFINITION. Profile Watch: the profile status of a strip at its scan end, the profile stop, the drift ring and its alarm, and the
tool-life charge (R53 to R66). -/

namespace Sys2Proof.Machine

/-- The four profile roles, in the order of the windows (R53). -/
def profileRoles : List (Fin 4 × Role) := [(0, .tongueT), (1, .tongueL), (2, .grooveW), (3, .grooveD)]

/-- The pass i may be classified (R54): it is not an end pass. -/
def classifiedPass (endExcl n i : Nat) : Bool := decide (endExcl ≤ i ∧ i + endExcl < n)

/-- The values of the classified samples of a role, from pass i on (R54). -/
def classifiedFrom (setup : Vector ChannelSetup 16) (endExcl n : Nat) (role : Role) : Nat → List PassSlot → List Int
  | _, [] => []
  | i, p :: ps =>
    (if classifiedPass endExcl n i && !p.held then
      (p.samples.filter (fun m => decide (setup[m.channel].role = role) && !m.saturated)).map Sample.value
     else []) ++ classifiedFrom setup endExcl n role (i + 1) ps

/-- The values of a role's classified samples in a strip's store (R54). -/
def classifiedValues (cfg : Configuration) (r : Strip) (slots : List PassSlot) (role : Role) : List Int :=
  classifiedFrom cfg.channels cfg.scan.endExcl (r.bodyPasses cfg.scan.pitch) role 0 slots

/-- The worst class of a list, or none when it is empty (R55). -/
def worstOf : List ProfileStatus → Option ProfileStatus
  | [] => none
  | c :: cs => some (cs.foldl ProfileStatus.worst c)

/-- The classes of the four roles (R55). -/
def roleClasses (cfg : Configuration) (p : ProfileSection) (r : Strip) (slots : List PassSlot) :
    Vector (Option ProfileStatus) 4 :=
  Vector.ofFn (fun i : Fin 4 =>
    worstOf ((classifiedValues cfg r slots
      ((profileRoles.map Prod.snd).getD i.val .none)).map (classOf p.windows[i])))

/-- The profile status of the strip: the worst class among the roles that are not none (R55). -/
def statusOf (classes : Vector (Option ProfileStatus) 4) : Option ProfileStatus := worstOf (classes.toList.filterMap id)

/-- Profile Watch changed by f. -/
def mapProfile (f : ProfileWatch → ProfileWatch) (s : State) : State := { s with profile := f s.profile }

/-- A PROFILE notice (R67). -/
def profileNotice (e : ProfileEvent) (s : State) : State := offer (.profile e s.link.clock) s

/-- The profile stop (R57): PROFILE joins the set, with the STOP notice and then the LINE notice. -/
def profileStop (n stopCount : Nat) (classes : Vector (Option ProfileStatus) 4) (s : State) : State :=
  if stopCount ≤ s.profile.limitCount ∧ s.line.holds.profile = false then
    lineNote s (profileNotice (.stop n s.profile.limitCount stopCount classes)
      (mapHolds (fun h => { h with profile := true }) s))
  else s

/-- The consecutive-limit count after a status (R56), with the stop it may bring (R57). -/
def countStatus (n : Nat) (p : ProfileSection) (classes : Vector (Option ProfileStatus) 4) (st : ProfileStatus) (s : State) :
    State :=
  match st with
  | .limit => profileStop n p.stopCount classes (mapProfile (fun w => { w with limitCount := countUpTo 255 w.limitCount }) s)
  | _ => mapProfile (fun w => { w with limitCount := 0 }) s

/-- The mean of a list of values, truncated toward zero; a mean below 0 is entered as 0 (R59). -/
def tongueMean (vs : List Int) : Nat := (vs.sum.tdiv vs.length).toNat

/-- The ring with a value entered after the newest (R59). -/
def pushRing (v : Nat) (ring : List Nat) : List Nat :=
  (if ring.length < Config.driftCapacity then ring else ring.drop 1) ++ [v]

/-- The drift of a full ring (R60). -/
def driftOf (ring : List Nat) (nominal : Nat) : Int := (ring.sum / 16 : Nat) - (nominal : Int)

/-- The alarm after a computation (R60). -/
def driftAlarm (n limit : Nat) (d : Int) (s : State) : State :=
  if s.profile.armed then
    if limit < d.natAbs then profileNotice (.drift n d limit) (mapProfile (fun w => { w with armed := false }) s) else s
  else if d.natAbs ≤ limit / 2 then mapProfile (fun w => { w with armed := true }) s
  else s

/-- A strip's tongue mean enters the ring; a full ring gives the drift and its alarm (R59, R60). -/
def enterDrift (n v : Nat) (active : ProfileSection) (s : State) : State :=
  let s1 := mapProfile (fun w => { w with ring := pushRing v w.ring }) s
  if s1.profile.ring.length = Config.driftCapacity then
    let d := driftOf s1.profile.ring active.tongueNominal
    driftAlarm n active.driftLimit d (mapProfile (fun w => { w with drift := some d }) s1)
  else s1

/-- The drift step of a scan end (R59): only a strip of the ACTIVE bank with a classified TONGUE_T sample enters a value. -/
def driftStep (r : Strip) (slots : List PassSlot) (p : ProfileSection) (s : State) : State :=
  if activeBank s = some r.bank then
    match classifiedValues s.config r slots .tongueT with
    | [] => s
    | vs => enterDrift r.number (tongueMean vs) p s
  else s

/-- Profile Watch's part of a strip's scan end (R55 to R60). -/
def judgeStrip (n : Nat) (slots : List PassSlot) (s : State) : State :=
  match findStrip s n with
  | none => s
  | some r =>
    match s.recipe.banks[r.bank].profile with
    | none => s
    | some p =>
      let classes := roleClasses s.config p r slots
      match statusOf classes with
      | none => s
      | some st =>
        driftStep r slots p
          (countStatus n p classes st (mapStrip n (fun x => { x with profile := some st }) s))

/-- TOOL SET, RECIPE SWITCH and power-on empty the ring (R61). -/
def emptyRing (s : State) : State := mapProfile (fun w => { w with ring := [], drift := none, armed := true }) s

/-! ### Tool life -/

/-- A spindle charged with a length in mm (R63): an UNSET one is not counted; one whose metres reach 0 is EXPIRED (R62). -/
def SpindleRecord.charge (mm : Nat) (p : SpindleRecord) : SpindleRecord :=
  if p.state = .unset then p
  else
    let t := p.accumulator + mm
    let left := p.remaining - t / 1000
    { p with accumulator := t % 1000, remaining := left, state := if left = 0 then .expired else p.state }

/-- The notices of one spindle's charge (R64): the warn level, then zero. -/
def toolNotices (n : Nat) (i : Spindle) (before after : SpindleRecord) (s : State) : State :=
  let s1 := if 1 ≤ before.warnLevel ∧ before.warnLevel < before.remaining ∧ after.remaining ≤ before.warnLevel then
      profileNotice (.toolWarn i after.remaining n s.motion.travel) s else s
  if 0 < before.remaining ∧ after.remaining = 0 then
    profileNotice (.toolExpired i after.remaining n s1.motion.travel) s1 else s1

/-- One spindle charged, with its notices (R63, R64). -/
def chargeSpindle (n mm : Nat) (s : State) (i : Spindle) : State :=
  let before := s.profile.spindles[i]
  toolNotices n i before (before.charge mm)
    (mapProfile (fun w => { w with spindles := setAt w.spindles i (before.charge mm) }) s)

/-- A strip's length charged to every counted spindle, then its TOOL flag (R63 to R65), in the record of a LOST strip too (R14, R16; the model's
reading: log 39). -/
def chargeTools (n mm : Nat) (s : State) : State :=
  let s1 := allSpindles.foldl (chargeSpindle n mm) s
  mapStrip n (fun r => { r with tool := s1.profile.spindles.toList.any (fun p => p.state == .expired) }) s1

end Sys2Proof.Machine
end

