-- ==== Sys2Proof/Machine/Plan.lean ====
section
/-! DEFINITION. The cut plan of a strip, stage by stage, as a pure function of the values of Table 27 (R79 to R89). -/

namespace Sys2Proof.Machine

/-- A zone as the plan reads it: mm start, mm end, severity. -/
structure MmZone where
  start : Nat
  stop : Nat
  severity : Nat
  deriving DecidableEq, Repr

/-- The inputs of the plan (Table 27): `clamp` is the position of pass 2048 for an OVERLENGTH strip, `free` the free cutting records. -/
structure PlanInput where
  ls : Nat
  clamp : Option Nat
  zones : List MmZone
  cut : CutSection
  lengths : List Nat
  dr : Nat
  pitchK : Nat
  free : Nat
  deriving DecidableEq, Repr

/-- A cut interval, both ends in mm. -/
structure Interval where
  start : Int
  stop : Int
  deriving DecidableEq, Repr

/-- The usable span: its ends, and whether a line fires at each (R80). -/
structure Usable where
  lb : Int
  tb : Int
  leadFires : Bool
  trailFires : Bool
  deriving DecidableEq, Repr

/-- A line of the plan before its conversion to ticks. -/
structure WorkLine where
  pos : Int
  kind : LineKind
  deriving DecidableEq, Repr

/-- A cutting of the plan (R79). -/
structure PlannedCutting where
  start : Int
  nominal : Nat
  cls : Nat
  deriving DecidableEq, Repr

/-- The finished plan. -/
structure CutPlan where
  lines : List PlanLine
  cuttings : List PlannedCutting
  starved : Bool
  deriving DecidableEq, Repr

/-- The shortest length plus Ae (R80). -/
def PlanInput.least (x : PlanInput) : Int := (x.lengths.headD 0 : Int) + x.cut.ae

/-- Stage 1: the usable span (R80). -/
def stage1 (x : PlanInput) : Usable :=
  let tb : Int := (x.ls : Int) - x.cut.tt
  let clamped : Option Int := match x.clamp with
    | none => none
    | some p => if (p : Int) < tb then some p else none
  { lb := x.cut.tl, tb := clamped.getD tb, leadFires := decide (0 < x.cut.tl),
    trailFires := decide (0 < x.cut.tt) || clamped.isSome }

/-- The span can hold no cutting (R80, R84). -/
def Usable.tooShort (u : Usable) (x : PlanInput) : Bool := decide (u.tb - u.lb < x.least)

/-- The end of a zone as the plan and the features read it: an empty zone reaches 1 mm past its start (R45, R81). -/
def MmZone.reach (z : MmZone) : Nat := if z.start = z.stop then z.start + 1 else z.stop

/-- Stage 2: the cut interval of a zone, if it is cut and reaches into the open span, clipped to it (R81). -/
def zoneInterval (x : PlanInput) (u : Usable) (z : MmZone) : Option Interval :=
  if z.severity < x.cut.tc then none
  else
    let s : Int := (z.start : Int) - x.cut.g
    let e : Int := (z.reach : Int) + x.cut.g
    if e ≤ u.lb ∨ u.tb ≤ s then none else some { start := max s u.lb, stop := min e u.tb }

/-- Stage 3: an interval narrower than Dr is widened, not beyond Tb (R82). -/
def widen (dr : Nat) (tb : Int) (i : Interval) : Interval :=
  if i.stop - i.start < dr then { i with stop := min (i.start + dr) tb } else i

/-- An interval in its place by start. -/
def insertInterval (i : Interval) : List Interval → List Interval
  | [] => [i]
  | j :: js => if j.start ≤ i.start then j :: insertInterval i js else i :: j :: js

/-- Intervals in ascending start. -/
def sortIntervals (l : List Interval) : List Interval := l.foldr insertInterval []

/-- Stage 4: intervals closer than Dr merge (R83); `kept` is the last interval kept. -/
def mergeFrom (dr : Nat) (kept : Interval) : List Interval → List Interval
  | [] => [kept]
  | i :: is =>
    if i.start < kept.stop + dr then mergeFrom dr { kept with stop := max kept.stop i.stop } is
    else kept :: mergeFrom dr i is

/-- Stage 4 over the whole list (R83). -/
def mergeIntervals (dr : Nat) : List Interval → List Interval
  | [] => []
  | i :: is => mergeFrom dr i is

/-- Stage 5 at the leading end (R84). -/
def absorbLead (dr : Nat) (u : Usable) (l : List Interval) : Usable × List Interval :=
  match l with
  | [] => (u, [])
  | i :: is => if i.start - u.lb < dr then ({ u with lb := i.stop, leadFires := true }, is) else (u, l)

/-- Stage 5 at the trailing end (R84). -/
def absorbTrail (dr : Nat) (u : Usable) (l : List Interval) : Usable × List Interval :=
  match l.getLast? with
  | none => (u, l)
  | some i => if u.tb - i.stop < dr then ({ u with tb := i.start, trailFires := true }, l.dropLast) else (u, l)

/-- Stages 2 to 5: the usable span left and the intervals left (R81 to R84). -/
def intervalsOf (x : PlanInput) (u : Usable) : Usable × List Interval :=
  let l := mergeIntervals x.dr (sortIntervals ((x.zones.filterMap (zoneInterval x u)).map (widen x.dr u.tb)))
  let a := absorbLead x.dr u l
  absorbTrail x.dr a.1 a.2

/-- A segment (R85): its leading line if it fires, where its wood begins and ends, and its trailing line if it fires. -/
structure Segment where
  lead : Option WorkLine
  u : Int
  q : Int
  trail : Option WorkLine
  deriving DecidableEq, Repr

/-- Stage 6: the segments from a leading line on (R85). -/
def segmentsFrom (k : Nat) (u : Usable) (lead : Option WorkLine) (wood : Int) : List Interval → List Segment
  | [] => [{ lead, u := wood, q := u.tb,
             trail := if u.trailFires then some { pos := u.tb, kind := .trimTrail } else none }]
  | i :: is =>
    { lead, u := wood, q := i.start, trail := some { pos := i.start, kind := .zoneStart } } ::
      segmentsFrom k u (some { pos := i.stop, kind := .zoneEnd }) (i.stop + k) is

/-- Stage 6 over the whole span: the wood of the first segment begins after the leading line's kerf, or at the strip's own leading end
(R85). -/
def segmentsOf (x : PlanInput) (u : Usable) (l : List Interval) : List Segment :=
  if u.leadFires then segmentsFrom x.cut.k u (some { pos := u.lb, kind := .trimLead }) (u.lb + x.cut.k) l
  else segmentsFrom x.cut.k u none 0 l

/-- A length qualifies for a room (R86). -/
def fits (ae dr n : Nat) (room : Int) : Bool :=
  decide ((n : Int) + ae ≤ room ∧ (room - n - ae = 0 ∨ (dr : Int) ≤ room - n - ae))

/-- Stage 7: the largest length of the table that qualifies, with its class (R86). -/
def chooseLength (ae dr : Nat) (room : Int) (lengths : List Nat) : Option (Nat × Nat) :=
  (lengths.zipIdx.filter (fun p => fits ae dr p.1 room)).getLast?

/-- The fill so far: its lines and cuttings, how many lines are kept when a cap is taken, and the caps (R87). -/
structure Fill where
  lines : List WorkLine
  cuttings : List PlannedCutting
  keep : Nat
  capped : Bool
  starved : Bool
  deriving DecidableEq, Repr

/-- Stage 8: the cap taken before a further cutting whose trailing line would be number `upTo`, with STARVED or not (R87). -/
def capTaken (free upTo : Nat) (f : Fill) : Option Bool :=
  if Config.planCuttings ≤ f.cuttings.length then some false
  else if Config.lineCapacity < upTo then some false
  else if free ≤ f.cuttings.length then some true
  else none

/-- The fill with a cutting placed, and the lines up to its trailing line kept (R86, R87). -/
def Fill.place (c : PlannedCutting) (trail : Option WorkLine) (f : Fill) : Fill :=
  let lines := f.lines ++ trail.toList
  { f with lines, cuttings := f.cuttings ++ [c], keep := lines.length }

/-- Stage 7 in one segment from wood position u on (R86, R87); the fuel exceeds the cuttings a plan may hold. -/
def fillWood (x : PlanInput) (seg : Segment) : Nat → Int → Fill → Fill
  | 0, _, f => f
  | fuel + 1, u, f =>
    match chooseLength x.cut.ae x.dr (seg.q - u) x.lengths with
    | none => { f with lines := f.lines ++ seg.trail.toList }
    | some (n, cls) =>
      let stop := u + n + x.cut.ae
      let sep : Option WorkLine := if seg.q = stop then seg.trail else some { pos := stop, kind := .separation }
      match capTaken x.free (f.lines.length + sep.toList.length) f with
      | some starved => { f with capped := true, starved }
      | none =>
        let f' := f.place { start := u, nominal := n, cls } sep
        if seg.q = stop then f' else fillWood x seg fuel (stop + x.cut.k) f'

/-- One segment filled, its leading line first; nothing more is placed once a cap is taken (R86, R87). The leading line of the strip
is there already. -/
def fillSegment (x : PlanInput) (f : Fill) (seg : Segment) : Fill :=
  if f.capped then f
  else
    let lead := match seg.lead with
      | some l => if l.kind = .trimLead then [] else [l]
      | none => []
    fillWood x seg (Config.planCuttings + 2) seg.u { f with lines := f.lines ++ lead }

/-- The fill before the first segment: the leading line alone, which is kept whatever is placed (R87). -/
def Fill.start (u : Usable) : Fill :=
  let lines : List WorkLine := if u.leadFires then [{ pos := u.lb, kind := .trimLead }] else []
  { lines, cuttings := [], keep := lines.length, capped := false, starved := false }

/-- The lines the plan keeps after the fill (R87). -/
def Fill.kept (f : Fill) : List WorkLine :=
  if f.capped || decide (Config.lineCapacity < f.lines.length) then f.lines.take f.keep else f.lines

/-- The lines of a plan without cuttings (R88). -/
def bareLines (x : PlanInput) (u : Usable) : List WorkLine :=
  let lead : List WorkLine := if u.leadFires && decide (u.lb < x.ls) then [{ pos := u.lb, kind := .trimLead }] else []
  let apart : Bool := lead.isEmpty || decide (u.lb + x.dr ≤ u.tb)
  let trail : List WorkLine := if u.trailFires && decide (0 < u.tb) && apart then [{ pos := u.tb, kind := .trimTrail }] else []
  lead ++ trail

/-- The span end of a planned cutting, exclusive (R79). -/
def PlannedCutting.stop (ae : Nat) (c : PlannedCutting) : Int := c.start + c.nominal + ae

/-- A line of the plan with its fire offset and the cuttings that start after it and end on it (R79). -/
def finishLine (x : PlanInput) (cs : List PlannedCutting) (l : WorkLine) : PlanLine :=
  { pos := l.pos.toNat, kind := l.kind, offset := mmToTicks x.pitchK l.pos.toNat,
    starts := cs.findIdx? (fun c => decide (c.start = l.pos + x.cut.k)),
    ends := cs.findIdx? (fun c => decide (c.stop x.cut.ae = l.pos)),
    status := .pending }

/-- The plan without cuttings (R88). -/
def barePlan (x : PlanInput) (u : Usable) : CutPlan :=
  { lines := (bareLines x u).map (finishLine x []), cuttings := [], starved := false }

/-- The fill of all segments. -/
def fillAll (x : PlanInput) (u : Usable) (l : List Interval) : Fill := (segmentsOf x u l).foldl (fillSegment x) (Fill.start u)

/-- The plan after the fill (R87, R88). -/
def filledPlan (x : PlanInput) (u : Usable) (f : Fill) : CutPlan :=
  if f.cuttings.isEmpty && !f.capped then barePlan x u
  else { lines := f.kept.map (finishLine x f.cuttings), cuttings := f.cuttings, starved := f.starved }

/-- The cut plan of a strip (R79 to R88). -/
def cutPlan (x : PlanInput) : CutPlan :=
  let u := stage1 x
  if u.tooShort x then barePlan x u
  else
    let v := intervalsOf x u
    if v.1.tooShort x then barePlan x v.1 else filledPlan x v.1 (fillAll x v.1 v.2)

end Sys2Proof.Machine
end

