-- ==== Sys2Proof/Machine/Features.lean ====
section
/-! DEFINITION. The features of a cutting, reduced from its strip's store, zone list and record (R45 to R51). -/

namespace Sys2Proof.Machine

/-- A zone of a strip in mm (R43). -/
def zoneMm (s : State) (z : Zone) : MmZone :=
  { start := passMm s z.start, stop := passMm s z.stop, severity := z.severity }

/-- A zone overlaps the span [a, b) (R45). -/
def MmZone.overlaps (a b : Nat) (z : MmZone) : Bool := decide (z.start < b ∧ a < z.reach)

/-- The slots of the passes in span, from pass i on (R45). -/
def inSpanFrom (s : State) (a b : Nat) : Nat → List PassSlot → List PassSlot
  | _, [] => []
  | i, p :: ps => (if a ≤ passMm s i ∧ passMm s i < b then [p] else []) ++ inSpanFrom s a b (i + 1) ps

/-- The values of the samples that are not saturated, of the channels whose role p picks out, in some slots (R47, R48, R51). -/
def roleValues (setup : Vector ChannelSetup 16) (p : Role → Bool) (slots : List PassSlot) : List Int :=
  slots.flatMap (fun t => (t.samples.filter (fun m => p setup[m.channel].role && !m.saturated)).map Sample.value)

/-- The lowest of some values. -/
def lowest : List Int → Option Int
  | [] => none
  | v :: vs => some (vs.foldl min v)

/-- The highest of some values. -/
def highest : List Int → Option Int
  | [] => none
  | v :: vs => some (vs.foldl max v)

/-- WDEV: the highest absolute difference from the nominal width (R48). -/
def widthDeviation (nominal : Nat) (vs : List Int) : Option Int :=
  highest (vs.map (fun v => ((v - (nominal : Int)).natAbs : Int)))

/-- MOIST: the mean, truncated toward zero (R51). -/
def meanOf : List Int → Option Int
  | [] => none
  | vs => some (vs.sum.tdiv vs.length)

/-- A zone is of kind DEFECT. -/
def Zone.isDefect (z : Zone) : Bool := z.source == .gate

/-- The features 0 to 13 of a cutting of strip r (Table 19, R46 to R51), from the store's slots. -/
def reduceFeatures (s : State) (r : Strip) (slots : List PassSlot) (c : Cutting) : Vector (Option Int) 14 :=
  let b := spanEnd s.recipe.banks[c.bank] c
  let inSpan := inSpanFrom s c.spanStart b 0 slots
  let thick := roleValues s.config.channels Role.isThick inSpan
  let tmin := lowest thick
  let tmax := highest thick
  let seen := r.zones.filter (fun z => (zoneMm s z).overlaps c.spanStart b)
  let defects := seen.filter Zone.isDefect
  let gauges := seen.filter (fun z => !z.isDefect && z.severity == 0)
  let nominalWidth := (s.recipe.banks[c.bank].cut.map CutSection.nominalWidth).getD 0
  let toolKnown := s.profile.spindles.toList.all (fun p => p.state != .unset)
  #v[some c.nominal, some c.cls, tmin, tmax, tmax.bind (fun hi => tmin.map (fun lo => hi - lo)),
     widthDeviation nominalWidth (roleValues s.config.channels (fun x => x == .width) inSpan),
     some defects.length, some ((defects.map Zone.severity).foldl max 0 : Nat), some gauges.length,
     r.profile.map (fun p => (p.rank : Int)),
     if toolKnown then some (r.tool.toNat : Int) else none,
     meanOf (roleValues s.config.channels (fun x => x == .moist) inSpan),
     some (r.length.getD 0 : Nat), some c.id.index]

end Sys2Proof.Machine
end

