-- ==== Sys2Proof/Machine/Planner.lean ====
section
/-! DEFINITION. The Cut Planner and the saw fire list: the planner queue (R70, R71), the six steps of a processing (R72), the loading of
the fire list (R90 to R92), and the completion event (R74). -/

namespace Sys2Proof.Machine

/-! ### The planner queue -/

/-- Strip n leaves the planner queue (R70). -/
def leavePlannerQueue (n : Nat) (s : State) : State :=
  { s with planner := { s.planner with queue := s.planner.queue.filter (fun m => m != n) } }

/-! ### The fire list -/

/-- Dr in ticks (R78). -/
def drTicks (s : State) : Nat := mmToTicks s.config.motion.k s.config.motion.dr

/-- An entry in its place by fire tick (R90). -/
def insertEntry (e : FireEntry) : List FireEntry → List FireEntry
  | [] => [e]
  | x :: xs => if isAfter x.tick e.tick then e :: x :: xs else x :: insertEntry e xs

/-- The spacing test of a tick against a list of entries and the last fire tick (R92): true when the line must give way. -/
def tooClose (dr : Nat) (last : Option Word) (l : List FireEntry) (t : Word) : Bool :=
  let before := l.filter (fun e => !isAfter e.tick t)
  let after := l.filter (fun e => isAfter e.tick t)
  (match before.getLast?, last with
    | some e, _ => decide (ticksFrom e.tick t < dr)
    | none, some f => decide (ticksFrom f t < dr)
    | none, none => false) ||
  (match after.head? with
    | some e => decide (ticksFrom t e.tick < dr)
    | none => false)

/-- The entry of a strip's line (R90, R91). -/
def entryOf (s : State) (r : Strip) (i : Nat) (l : PlanLine) : FireEntry :=
  { tick := plusTicks r.lead (s.config.motion.offSE + s.config.motion.dSL + l.offset),
    strip := r.number, kind := l.kind, starts := l.starts, ends := l.ends, line := i }

/-- Replace the list of entries of the Saw Scheduler. -/
def setEntries (l : List FireEntry) (s : State) : State := { s with saw := { s.saw with entries := l } }

/-- What the loading makes of a plan's lines (R92): the fire list, the lines with their status, and the indices of cuttings that become
waste, in the order of the lines. -/
structure Loading where
  entries : List FireEntry
  lines : List PlanLine
  waste : List Nat
  deriving DecidableEq, Repr

/-- The cuttings a dropped line takes with it: the one that ends on it and the one that starts after it (R92). -/
def wasteOf (starts ends : Option Nat) : List Nat := ends.toList ++ starts.toList

/-- One offered line tested and inserted or dropped (R92). -/
def loadLine (s : State) (r : Strip) (x : Loading) (p : PlanLine × Nat) : Loading :=
  let e := entryOf s r p.2 p.1
  if tooClose (drTicks s) s.saw.lastFire x.entries e.tick then
    { x with lines := x.lines ++ [{ p.1 with status := .dropped }], waste := x.waste ++ wasteOf p.1.starts p.1.ends }
  else { x with entries := insertEntry e x.entries, lines := x.lines ++ [p.1] }

/-- The lines of a plan offered in ascending position (R91, R92). -/
def loadLines (s : State) (r : Strip) (lines : List PlanLine) : Loading :=
  lines.zipIdx.foldl (loadLine s r) { entries := s.saw.entries, lines := [], waste := [] }

/-- The fire list has room for a plan (R91). -/
def hasRoom (s : State) (lines : List PlanLine) : Bool :=
  decide (lines.length ≤ Config.lineCapacity - s.saw.entries.length)

/-! ### A processing -/

/-- The cutting records the plan in progress may hold (R87): those its processing has allocated with those still free; once its fill has
ended and its grading has begun, those allocated alone. -/
def recordsForPlan (s : State) : Nat :=
  if s.planner.graded = 0 then freeRecords s + s.planner.placed else s.planner.placed

/-- The values of Table 27 for a strip (R79). -/
def planInput (s : State) (r : Strip) : PlanInput :=
  let b := s.recipe.banks[r.bank]
  { ls := r.length.getD 0,
    clamp := if r.flags.overlength then some (passMm s Config.storePasses) else none,
    zones := r.zones.map (zoneMm s),
    cut := b.cut.getD { tl := 0, tt := 0, k := 0, g := 0, ae := 0, tc := 0, nominalWidth := 0 },
    lengths := b.lengths.getD [], dr := s.config.motion.dr, pitchK := s.config.motion.k, free := recordsForPlan s }

/-- The cuttings of a plan allocated in index order, each allocation one event (R72, R86, R132). -/
def allocateAll (r : Strip) : List (PlannedCutting × Nat) → State → State
  | [], s => s
  | (c, i) :: cs, s =>
    allocateAll r cs (event (allocate { strip := r.number, index := i } c.nominal c.cls c.start.toNat r.bank) s)

/-- The features of the allocated cuttings of a strip are written into their records, in index order (R72, step 4). -/
def writeFeatures (r : Strip) (slots : List PassSlot) (s : State) (i : Nat) : State :=
  mapCutting { strip := r.number, index := i } (fun c => { c with features := reduceFeatures s r slots c }) s

/-- The cutting ids of strip n with some indices. -/
def idsOf (n : Nat) (l : List Nat) : List CuttingId := l.map (fun i => { strip := n, index := i })

/-- The store of a strip, with its slots. -/
def slotsOf (s : State) (r : Strip) : List PassSlot :=
  match r.store with
  | none => []
  | some i => (s.scan.store i).slots

/-- Steps 3 to 5 of a processing, from where it stands up to w pieces of work (R72): first the allocations, in index order; when more is done,
the features of every cutting are written, and then the planning runs, in index order. -/
def workUpTo (r : Strip) (p : CutPlan) (w : Nat) (s : State) : State :=
  let m := p.cuttings.length
  let s1 := allocateAll r ((p.cuttings.zipIdx.take w).drop s.planner.placed) s
  let s2 := if m < w ∧ s.planner.graded = 0 then (List.range m).foldl (writeFeatures r (slotsOf s r)) s1 else s1
  let s3 := (((idsOf r.number (List.range m)).take (w - m)).drop s.planner.graded).foldl (fun s id => planningRun id s) s2
  { s3 with planner := { s3.planner with placed := min w m, graded := min (w - m) m } }

/-- The processing of strip n begins (R70, R72): how much of the work it does at once is a free value (assumption log 6). -/
def beginProcessing (n : Nat) (s : State) : State :=
  let s1 := { s with planner := { s.planner with inFlight := some n, placed := 0, graded := 0 } }
  match findStrip s1 n with
  | none => s1
  | some r =>
    if r.state = .waitingPlan then
      let p := cutPlan (planInput s1 r)
      workUpTo r p (Config.workDone s1.freeCount % (2 * p.cuttings.length + 1)) { s1 with freeCount := s1.freeCount + 1 }
    else s1

/-- A strip is handed to the Cut Planner at its scan end (R70). -/
def handToPlanner (n : Nat) (s : State) : State :=
  match s.planner.inFlight with
  | none => beginProcessing n s
  | some _ => { s with planner := { s.planner with queue := s.planner.queue ++ [n] } }

/-- A processing ends and that of the strip at the head of the queue begins (R71). -/
def plannerNext (s : State) : State :=
  match s.planner.queue with
  | [] => { s with planner := Planner.idle }
  | n :: rest => beginProcessing n { s with planner := { s.planner with queue := rest } }

/-- The yield of a strip over the nominal lengths left in its plan (R89). -/
def yieldOf (lengths : List Nat) (ls : Nat) : Nat := lengths.sum * 1000 / ls

/-- The indices of the cuttings the loading frees, ascending and each once (R92, R126). -/
def Loading.wasteIndices (x : Loading) (count : Nat) : List Nat := (List.range count).filter (fun i => x.waste.contains i)

/-- The plan is written into the strip record at completion, with its yield over the cuttings left (R74, R89). -/
def writePlan (r : Strip) (p : CutPlan) (x : Loading) (s : State) : State :=
  let waste := x.wasteIndices p.cuttings.length
  let left := (p.cuttings.zipIdx.filter (fun c => !waste.contains c.2)).map (fun c => c.1.nominal)
  mapStrip r.number (fun t => { t with
    lines := x.lines, cuttings := idsOf r.number (List.range p.cuttings.length),
    yield := some (yieldOf left (r.length.getD 0)), flags := { t.flags with starved := t.flags.starved || p.starved },
    state := .planned }) s

/-- The lines loaded: the strip becomes PLANNED, and the cuttings of dropped lines are freed (R74, R92). -/
def completeLoaded (r : Strip) (p : CutPlan) (s : State) : State :=
  let x := loadLines s r p.lines
  event (fun s => writePlan r p x (freeCuttings (idsOf r.number (x.wasteIndices p.cuttings.length)) (setEntries x.entries s))) s

/-- A STRIP notice (Table 10). -/
def stripNotice (n : Nat) (reason : StripReason) (st : StripState) (s : State) : State :=
  offer (.strip n reason st s.motion.travel) s

/-- The fire list refused the plan: the strip becomes UNPLANNED, with its STRIP notice, and every cutting of it is freed (R74). The STRIP
notice goes ahead of those of the frees (R126; the model's choice: log 10). -/
def completeRefused (r : Strip) (p : CutPlan) (s : State) : State :=
  event (fun s =>
    freeCuttings (idsOf r.number (List.range p.cuttings.length))
      (stripNotice r.number .fireListFull .unplanned
        (mapStrip r.number (fun t => { t with state := .unplanned, reason := some .fireListFull }) s))) s

/-- The rest of the processing of a strip and its completion event (R72, R74; assumption log 6). -/
def completeStrip (r : Strip) (s : State) : State :=
  let p := cutPlan (planInput s r)
  let s1 := workUpTo r p (2 * p.cuttings.length) s
  let s2 := if hasRoom s1 p.lines then completeLoaded r p s1 else completeRefused r p s1
  freeStore r.number s2

/-- The completion event of the processing in flight (R74); for a strip lost meanwhile the work is discarded (R76). The planner then takes
the next strip (R71). -/
def completeProcessing (s : State) : State :=
  match s.planner.inFlight with
  | none => s
  | some n =>
    match findStrip s n with
    | none => plannerNext s
    | some r => plannerNext (if r.state = .waitingPlan then completeStrip r s else s)

end Sys2Proof.Machine
end

