-- ==== Sys2Proof/Machine/Belt.lean ====
section
/-! DEFINITION. The Belt Tracker's operations on strips: loss (R22), the planning deadline (R75), windows (R19), removal (R17), the
pre-flush copy and the FLUSH notice (R26, R147), and the Saw Scheduler's firing and re-latch (R93, R94). -/

namespace Sys2Proof.Machine

/-! ### Loss -/

/-- The event is a fire entry of strip n. -/
def EventKind.fireOf (n : Nat) : EventKind → Bool
  | .fire m _ => m == n
  | _ => false

/-- The event is a pending scan window opening, pass, window opening or window end of strip n: what a loss withdraws (R22). -/
def EventKind.lostWith (n : Nat) : EventKind → Bool
  | .seOpen m | .seEnd m | .scanOpen m | .pass m => m == n
  | _ => false

/-- Strip n becomes LOST for a reason (R22), its belt cuttings apart: fire entries and pending events go, the planner queue lets go of it,
its store is freed with its scan, and its window closes. -/
def loseMark (reason : StripReason) (s : State) (n : Nat) : State :=
  let s1 := setEntries (s.saw.entries.filter (fun e => e.strip != n)) (withdraw (EventKind.fireOf n) s)
  let s2 := withdraw (EventKind.lostWith n) (freeStore n (leavePlannerQueue n s1))
  mapStrip n (fun r => { r with state := .lost, reason := some reason, windowOpen := false }) s2

/-- Strips are lost in one event (R22): the effects of each, then their belt cuttings are freed. -/
def loseStrips (reason : StripReason) (ns : List Nat) (s : State) : State :=
  freeCuttings (ns.flatMap (fun n => beltCuttings n s)) (ns.foldl (loseMark reason) s)

/-- The Chain Tracker copies its last-return record to the pre-flush record (R147). -/
def copyPreFlush (s : State) : State := { s with chain := { s.chain with preFlush := s.chain.lastReturn } }

/-- A FLUSH notice over the strips of a list in order of creation (R26). -/
def flushNotice (reason : FlushReason) (ns : List Nat) (s : State) : State :=
  offer (.flush reason s.motion.travel ns.length ns.head? ns.getLast?) s

/-! ### The planning deadline and the removal -/

/-- The planner lets go of strip n at its deadline (R75): every cutting its processing allocated is freed, and any referral of those is
withdrawn (R126); a strip that waits leaves the queue. -/
def abandonPlanning (n : Nat) (s : State) : State :=
  if s.planner.inFlight = some n then freeCuttings (beltCuttings n s) s else leavePlannerQueue n s

/-- The strip has missed its planning deadline (R75): it is UNPLANNED with its STRIP notice, its planning is abandoned, its scan stops and its
store is freed. -/
def missDeadline (n : Nat) (s : State) : State :=
  let s1 := mapStrip n (fun r => { r with state := .unplanned, reason := some .latePlan }) s
  freeStore n (withdraw (fun k => k == .pass n) (abandonPlanning n (stripNotice n .latePlan .unplanned s1)))

/-- The planning deadline missed, as one event, and the processing the planner begins in place of an abandoned one (R71, R75). -/
def latePlan (n : Nat) (s : State) : State :=
  let s1 := event (missDeadline n) s
  if s.planner.inFlight = some n then plannerNext s1 else s1

/-- The removal position of a strip is taken (R17): with no cutting left on the belt the strip leaves. -/
def takeRemoval (n : Nat) (s : State) : State :=
  if beltCuttings n s = [] then dropStrip n s else mapStrip n (fun r => { r with removalTaken := true }) s

/-- A window end is taken with the window open (R21): the withdrawals of the loss, the STRIP notice and the fault, in this
order (the model's choice: log 10). -/
def missEdge (n : Nat) (p : Word) (s : State) : State :=
  logFault .belt 2 none (.strip n) p (stripNotice n .missingEdge .lost (loseStrips .missingEdge [n] s))

/-! ### The saw -/

/-- A PLANNED cutting becomes CUT (Table 46). -/
def Cutting.toCut (c : Cutting) : Cutting :=
  match c.state with
  | .planned => { c with state := .cut }
  | _ => c

/-- Some line of the strip ends cutting i. -/
def Strip.hasEnd (r : Strip) (i : Nat) : Bool := r.lines.any (fun l => l.ends == some i)

/-- Some line of the strip bounds cutting i. -/
def Strip.hasBound (r : Strip) (i : Nat) : Bool := r.lines.any (fun l => l.ends == some i || l.starts == some i)

/-- A line's status in the strip's plan. -/
def setLine (n i : Nat) (st : LineStatus) (s : State) : State :=
  mapStrip n (fun r => { r with lines := r.lines.modify i (fun l => { l with status := st }) }) s

/-- The cuttings that a firing makes CUT (R94): the one that ends on the entry, and the one that starts after it when it ends on the
unfired trailing end. -/
def cutBy (e : FireEntry) (s : State) : List CuttingId :=
  let started := match findStrip s e.strip with
    | none => []
    | some r => e.starts.toList.filter (fun i => !r.hasEnd i)
  idsOf e.strip (e.ends.toList ++ started)

/-- The entry of a line in the fire list. -/
def findEntry (s : State) (n l : Nat) : Option FireEntry := s.saw.entries.find? (fun e => e.strip == n && e.line == l)

/-- A fire entry is taken (R94). -/
def takeFire (n l : Nat) (s : State) : State :=
  match findEntry s n l with
  | none => s
  | some e =>
    let s1 := { s with saw := { entries := s.saw.entries.erase e, lastFire := some e.tick, high := true } }
    (cutBy e s).foldl (fun s id => mapCutting id Cutting.toCut s) (setLine n l .fired s1)

/-- What a re-latch makes of a strip's entries (R93): those that stay, moved, and those removed, each with the cutting its removal frees
as the fault names it; `freed` gathers the indices. -/
structure Relatch where
  kept : List FireEntry
  removed : List (FireEntry × Option Nat)
  freed : List Nat
  deriving DecidableEq, Repr

/-- The cuttings of strip n that a removed entry frees now: in the table and not freed by an entry before it. -/
def freedBy (s : State) (n : Nat) (freed : List Nat) (e : FireEntry) : List Nat :=
  (wasteOf e.starts e.ends).filter (fun i => !freed.contains i && (findCutting s { strip := n, index := i }).isSome)

/-- One entry moved by the shift and tested against the entries of other strips (R93). -/
def relatchEntry (s : State) (n : Nat) (shift : Int) (others : List FireEntry) (x : Relatch) (e : FireEntry) : Relatch :=
  let m := { e with tick := moveBy e.tick shift }
  if tooClose (drTicks s) s.saw.lastFire others m.tick then
    let gone := freedBy s n x.freed e
    { x with removed := x.removed ++ [(m, gone.getLast?)], freed := x.freed ++ gone }
  else { x with kept := x.kept ++ [m] }

/-- The re-latch of all entries of a strip, in ascending order (R93). -/
def relatch (s : State) (n : Nat) (shift : Int) : Relatch :=
  (s.saw.entries.filter (fun e => e.strip == n)).foldl
    (relatchEntry s n shift (s.saw.entries.filter (fun e => e.strip != n))) { kept := [], removed := [], freed := [] }

/-- The place of a line kind in its list (R203). -/
def LineKind.code : LineKind → Nat
  | .trimLead => 0
  | .zoneStart => 1
  | .zoneEnd => 2
  | .separation => 3
  | .trimTrail => 4

/-- A removed entry: its line becomes DROPPED and a BELT fault SPACING is logged (R93). -/
def spacingFault (n : Nat) (s : State) (x : FireEntry × Option Nat) : State :=
  logFault .belt 6 (some x.1.kind.code)
    (match x.2 with
      | none => .none
      | some i => .cutting { strip := n, index := i })
    x.1.tick (setLine n x.1.line .dropped s)

/-- The fire list after a re-latch (R93). -/
def relatchEntries (s : State) (n : Nat) (x : Relatch) : List FireEntry :=
  x.kept.foldl (fun l e => insertEntry e l) (s.saw.entries.filter (fun e => e.strip != n))

/-- The fire entries of a strip move with its re-latch (R93); the SPACING faults are logged ahead of the frees and their withdrawals (R126; the
model's choice: log 10). -/
def relatchSaw (n : Nat) (shift : Int) (s : State) : State :=
  let x := relatch s n shift
  freeCuttings (idsOf n ((List.range Config.planCuttings).filter (fun i => x.freed.contains i)))
    (x.removed.foldl (spacingFault n) (setEntries (relatchEntries s n x) s))

/-- The cuttings of a strip bounded by no fired line become CUT when it becomes CUTTING (R94). -/
def cutUnbounded (n : Nat) (s : State) : State :=
  match findStrip s n with
  | none => s
  | some r =>
    (r.cuttings.filter (fun id => !r.hasBound id.index)).foldl (fun s id => mapCutting id Cutting.toCut s) s

/-- The effects of a match at position p (R20, R93, R94), the registrations apart. -/
def matchStrip (r : Strip) (p : Word) (s : State) : State :=
  let shift := ticksFrom (predictedLead s r) p
  let s1 := withdraw (fun k => k == .seEnd r.number)
    (mapStrip r.number (fun t => { t with shift := some shift, windowOpen := false }) s)
  if r.state = .planned then
    cutUnbounded r.number (relatchSaw r.number shift (mapStrip r.number (fun t => { t with state := .cutting }) s1))
  else s1

/-- The transfer position of a cutting of a re-latched strip (R96). -/
def transferPos (s : State) (r : Strip) (c : Cutting) : Word :=
  moveBy (plusTicks (predictedLead s r)
    (s.config.motion.dXE + mmToTicks s.config.motion.k (spanEnd s.recipe.banks[c.bank] c))) (r.shift.getD 0)

/-! ### The transfer arm -/

/-- A strip leaves the table when the transfer event of its last belt cutting is taken (R17, R134, R135). -/
def leaveAfterTransfer (n : Nat) (s : State) : State := if beltCuttings n s = [] then dropStrip n s else s

/-- The DECK test after an arrival (R136). -/
def deckRises (s : State) : State :=
  if s.config.deck.high ≤ s.chain.deck.length then mapHolds (fun h => { h with deck := true }) s else s

/-- The DECK test after a departure (R136). -/
def deckFalls (s : State) : State :=
  if s.chain.deck.length ≤ s.config.deck.low then mapHolds (fun h => { h with deck := false }) s else s

/-- The arm fires and the cutting joins the deck queue (R134). -/
def deckArrive (id : CuttingId) (s : State) : State :=
  deckRises (leaveAfterTransfer id.strip
    { mapCutting id (fun c => { c with state := .onDeck }) s with
      chain := { s.chain with transferHigh := true, deck := s.chain.deck ++ [id] } })

/-- With the deck full the cutting runs off to return (R135). -/
def deckRefuse (c : Cutting) (p : Word) (s : State) : State :=
  leaveAfterTransfer c.id.strip (freeCuttings [c.id] (returnCutting c .deckFull none (.tick p) s))

/-- A transfer position is taken (R134, R135). -/
def takeTransfer (id : CuttingId) (p : Word) (s : State) : State :=
  match findCutting s id with
  | none => s
  | some c => if s.chain.deck.length < Config.deckCapacity then deckArrive id s else deckRefuse c p s

end Sys2Proof.Machine
end

