-- ==== Sys2Proof/Machine/Events.lean ====
section
/-! DEFINITION. Taking position events (R2): window openings and ends, removals, fires, transfers, the FLUSH clearing, scan windows and
passes (R30 to R39); and the flushes that register one (R23, R24). -/

namespace Sys2Proof.Machine

/-! ### Events that register nothing -/

/-- A position event at p that registers no other event is taken. -/
def takeSimple (p : Word) (k : EventKind) (s : State) : State :=
  match k with
  | .flushClear => event (mapHolds (fun h => { h with flush := false })) s
  | .seEnd n => event (missEdge n p) s
  | .removal n => event (takeRemoval n) s
  | .fire n l => takeFire n l s
  | .transfer id => event (takeTransfer id p) s
  | .seOpen _ | .scanOpen _ | .pass _ => s

/-- Such an event is registered: taken at once if the mark has reached p (R2). -/
def regSimple (p : Word) (k : EventKind) (s : State) : State := if reached s p then takeSimple p k s else addEvent p k s

/-! ### The SE window -/

/-- The lower end of a strip's SE window, where its opening is registered (R19). -/
def windowStart (s : State) (r : Strip) : Word := moveBy (predictedLead s r) (-(s.config.motion.slip : Int))

/-- The window end of a strip (R19). -/
def windowEnd (s : State) (r : Strip) : Word := plusTicks (predictedLead s r) (s.config.motion.slip + 1)

/-- Position p lies in a strip's SE window, both ends included (R19). -/
def inWindow (s : State) (r : Strip) (p : Word) : Bool :=
  decide ((ticksFrom (predictedLead s r) p).natAbs ≤ s.config.motion.slip)

/-- A strip's window opens and its window end is registered (R19). -/
def openWindow (r : Strip) (s : State) : State :=
  regSimple (windowEnd s r) (.seEnd r.number) (mapStrip r.number (fun t => { t with windowOpen := true }) s)

/-- A strip's window opening is taken, with the planning deadline (R19, R75). -/
def takeSeOpen (n : Nat) (s : State) : State :=
  match findStrip s n with
  | none => s
  | some r =>
    match r.state with
    | .planned | .unplanned => openWindow r s
    | .entering | .clearedIe | .scanning | .waitingPlan => openWindow r (latePlan n s)
    | .cutting | .lost => s

/-! ### Scans -/

/-- A scan whose conditions hold ends (R34): its runs close, Profile Watch judges the strip (R55), and it goes to the Cut Planner
(R70). A pass still registered then is withdrawn; one registered before the trail showed that pass F was taken stays till then, and is
taken if it falls due first, unless the next strip's scan window withdraws it (R30, R31; the model's reading: log 38). -/
def endScanTest (n : Nat) (s : State) : State :=
  match scanningOf s n with
  | none => s
  | some (i, x) =>
    if x.ended s.config.scan then
      handToPlanner n (judgeStrip n x.slots
        (putScanning i (x.finish s.config) false (withdraw (fun k => k == .pass n) s)))
    else s

/-- The next pass of a strip after pass j is registered, unless j was its final pass (R31), or a pass beyond it: R31 excepts pass F alone, and
that a pass beyond F, one registered before the trail was known, registers no further pass is the model's reading (log 38). -/
def registerPass (r : Strip) (j : Nat) (s : State) : State :=
  if r.trail.isSome ∧ r.finalPass s.config.scan ≤ (j : Int) then s else addEvent (passDue s r (j + 1)) (.pass r.number) s

/-- A conversion of pass j begins, if j is a body pass below 2048 and the converter is idle (R31, R32). -/
def beginConversion (r : Strip) (j : Nat) (s : State) : State :=
  if r.isBody s.config.scan.pitch j ∧ j < Config.storePasses ∧ converterBusy s = false then
    setConverter (some { strip := r.number, pass := j }) s
  else s

/-- The due pass of a scanning strip is taken (R31). -/
def takePass (n : Nat) (g : GateSample) (s : State) : State :=
  match scanningOf s n with
  | none => s
  | some (i, x) =>
    endScanTest n (registerPass x.strip x.scan.next (beginConversion x.strip x.scan.next
      (putScanning i (x.pass s.config (converterBusy s) g) true s)))

/-- The pass of strip n that is registered at a position the mark has reached. -/
def duePass (n : Nat) (s : State) : Option PosEvent :=
  s.motion.events.find? (fun e => e.what == .pass n && reached s e.pos)

/-- A pass is taken, and every further pass that is due at its registration (R2, R31); the fuel bounds their number. -/
def takePasses (n : Nat) (g : GateSample) : Nat → State → State
  | 0, s => s
  | fuel + 1, s =>
    let s1 := takePass n g s
    match duePass n s1 with
    | none => s1
    | some e => takePasses n g fuel (dropEvent e s1)

/-- How many passes can be due from position p on: each lies at least one tick after the one before. -/
def passFuel (s : State) (p : Word) : Nat := (ticksFrom p s.motion.mark).toNat + 1

/-- A strip whose passes go on when the next scan window opens: still scanning, its pass F not taken, its tail not cut (R39). -/
def passesGoOn (s : State) (r : Strip) : Bool :=
  match scanningOf s r.number with
  | none => false
  | some (_, x) => !x.scan.cut && !x.passesDone s.config.scan

/-- The event is a pass of some strip. -/
def EventKind.isPass : EventKind → Bool
  | .pass _ => true
  | _ => false

/-- The tail of strip n is cut (R39). -/
def cutTail (s : State) (n : Nat) : State :=
  match scanningOf s n with
  | none => s
  | some (i, x) =>
    endScanTest n
      (putScanning i { x with strip := { x.strip with flags := { x.strip.flags with tailCut := true } },
                              scan := { x.scan with cut := true } } true
        (withdraw (fun k => k == .pass n) s))

/-- The tail of any strip still scanning ends (R30): a strip whose pass F is to come is cut (R39), and of one whose pass F is taken a pass
registered beyond it (log 38) is withdrawn, so that at most one strip takes passes. -/
def cutTails (s : State) : State :=
  withdraw EventKind.isPass (((s.belt.strips.filter (passesGoOn s)).map Strip.number).foldl cutTail s)

/-- The store a strip takes at its scan window: A if it is free, else B if it is free (R30). -/
def freeStoreId (s : State) : Option StoreId :=
  if s.scan.storeA.holder = none then some .a else if s.scan.storeB.holder = none then some .b else none

/-- A scan that has taken no pass. -/
def ScanProgress.fresh : ScanProgress :=
  { next := 0, owed := 0, cut := false, defect := none, gauge := Vector.replicate 16 none }

/-- A strip takes a store and becomes SCANNING (R30). -/
def startScan (n : Nat) (i : StoreId) (s : State) : State :=
  mapStrip n (fun r => { r with state := .scanning, store := some i })
    (mapStore i (fun _ => { holder := some n, slots := [], scan := some ScanProgress.fresh }) s)

/-- A strip finds both stores held (R30). -/
def unscanned (n : Nat) (s : State) : State :=
  stripNotice n .unscanned .unplanned
    (mapStrip n (fun r => { r with state := .unplanned, reason := some .unscanned,
                                   flags := { r.flags with unscanned := true } }) s)

/-- The strip's own part of its scan window opening at p (R30). -/
def openScan (r : Strip) (p : Word) (g : GateSample) (s : State) : State :=
  match freeStoreId s with
  | none => unscanned r.number s
  | some i =>
    let s1 := startScan r.number i s
    if r.trail.isSome ∧ r.finalPass s.config.scan < 0 then endScanTest r.number s1
    else takePasses r.number g (passFuel s1 p) s1

/-- A strip's scan window opening at p is taken (R30): the tails end whatever the strip's own state, that of a strip LOST at its creation too
(the model's reading: log 5). -/
def takeScanOpen (n : Nat) (p : Word) (g : GateSample) (s : State) : State :=
  let s1 := cutTails s
  match findStrip s1 n with
  | none => s1
  | some r =>
    match r.state with
    | .entering | .clearedIe => openScan r p g s1
    | _ => s1

/-! ### Any event -/

/-- A position event at p is taken; g is what the gate lines show at this step. -/
def takeKind (g : GateSample) (p : Word) (k : EventKind) (s : State) : State :=
  match k with
  | .seOpen n => takeSeOpen n s
  | .scanOpen n => takeScanOpen n p g s
  | .pass n => takePasses n g (passFuel s p) s
  | k => takeSimple p k s

/-- An event of any kind is registered: taken at once if the mark has reached p (R2). -/
def register (g : GateSample) (p : Word) (k : EventKind) (s : State) : State :=
  if reached s p then takeKind g p k s else addEvent p k s

/-- The events that a forward step makes the mark reach are taken, each once (R2). -/
def takeDue (g : GateSample) : Nat → State → State
  | 0, s => s
  | fuel + 1, s =>
    match dueEvents s with
    | [] => s
    | e :: es =>
      let c := chooseEvent e es s
      takeDue g fuel (takeKind g c.1.pos c.1.what (dropEvent c.1 c.2))

/-! ### Flush and jam -/

/-- The position at which FLUSH is cleared after a flush or jam at p (R10, R23, R24). -/
def clearPos (s : State) (p : Word) : Word := plusTicks p (s.config.motion.offSE + s.config.motion.dXE)

/-- A flush or jam at p of the strips ns (R23, R24): the losses, the fault, FLUSH with its LINE notice, the pre-flush copy, the FLUSH notice
and the clearing event. The copy stands after the losses, as R24 lists them: a CUTTING strip that a jam drops at once (R17) writes its return
before the copy, and the pre-flush record then names a strip of the jam, against R147's last words (the model's reading: log 40). The clearing
event is registered last, after the FLUSH notice and the drain test and, at a jam, before the mark is reset: a clearing position that the mark has
reached by then is taken at once, and FLUSH leaves the set with a LINE notice of its own (the model's reading: log 44). -/
def flushAt (reason : FlushReason) (why : StripReason) (ns : List Nat) (logIt : State → State) (p : Word) (s : State) : State :=
  let s1 := logIt (loseStrips why ns s)
  let s2 := lineNote s (withdraw (fun k => k == .flushClear) (mapHolds (fun h => { h with flush := true }) s1))
  regSimple (clearPos s p) .flushClear (drainAfter s (flushNotice reason ns (copyPreFlush s2)))

/-- The strips a track flush loses, in order of creation (R23). -/
def flushable (s : State) : List Nat :=
  (s.belt.strips.filter (fun r => r.state != .cutting && r.state != .lost)).map Strip.number

/-- The strips a jam loses, in order of creation (R24). -/
def jammable (s : State) : List Nat := (s.belt.strips.filter (fun r => r.state != .lost)).map Strip.number

/-- A jam (R24): every strip is lost, and the mark then stands at the counter, the last action of R24's list (log 44). -/
def jam (s : State) : State :=
  let s1 := flushAt .jam .jam (jammable s) (logFault .belt 5 (some s.motion.mark.toNat) .none s.motion.travel) s.motion.travel s
  { s1 with motion := { s1.motion with mark := s1.motion.travel } }

/-- The lowest strip number of a list (R26). -/
def lowestNumber : List Nat → Nat
  | [] => 0
  | n :: ns => ns.foldl min n

/-- A track flush at an SE edge at p that lies in the windows of the strips rs (R20, R23). -/
def trackFlush (rs : List Strip) (p : Word) (s : State) : State :=
  flushAt .ambiguous .ambiguous (flushable s)
    (logFault .belt 3 (some rs.length) (.strip (lowestNumber (rs.map Strip.number))) p) p s

/-! ### An SE match -/

/-- The fire entries of a re-latched strip are registered, in order (R93). -/
def registerFires (n : Nat) (s : State) : State :=
  (s.saw.entries.filter (fun e => e.strip == n)).foldl (fun s e => regSimple e.tick (.fire n e.line) s) s

/-- The transfer positions of a strip's belt cuttings are registered (R96). -/
def registerTransfers (n : Nat) (s : State) : State :=
  match findStrip s n with
  | none => s
  | some r =>
    ((s.cuttings.filter (fun c => c.id.strip == n && c.state.onBelt)).map (fun c => (c.id, transferPos s r c))).foldl
      (fun s x => regSimple x.2 (.transfer x.1) s) s

/-- A removal position already registered is moved by the shift (R20). -/
def moveRemoval (n : Nat) (s : State) : State :=
  match findStrip s n with
  | none => s
  | some r =>
    if s.motion.events.any (fun e => e.what == .removal n) then
      regSimple (removalPos s r) (.removal n) (withdraw (fun k => k == .removal n) s)
    else s

/-- An SE edge at p matches strip r (R20): the match is one event, then the registrations it makes (log 5). -/
def takeMatch (r : Strip) (p : Word) (s : State) : State :=
  let s1 := event (matchStrip r p) s
  moveRemoval r.number (if r.state = .planned then registerTransfers r.number (registerFires r.number s1) else s1)

end Sys2Proof.Machine
end

