-- ==== Sys2Proof/Machine/LugChain.lean ====
section
/-! DEFINITION. The Chain Tracker's actions at a LUG pulse and at a landing (R137 to R145). -/

namespace Sys2Proof.Machine

/-- A cutting's lug offset (R137). -/
def lugOffset (s : State) (c : Cutting) : Option Word :=
  if c.state.onLugP then c.loadLug.map (fun l => s.motion.lug - l) else none

/-- The cutting on the lug that stands at an offset (R137). -/
def lugAt (s : State) (off : Nat) : Option Cutting :=
  s.cuttings.find? (fun c => decide (lugOffset s c = some (BitVec.ofNat 32 off)))

/-- The number of a bin as the manual and the wire give it, 1 to 8 (Table 3). -/
def binNumber (b : Bin) : Nat := b.val + 1

/-- The present lug counter as a place (R146). -/
def lugPlace (s : State) : Place := .lug s.motion.lug

/-- Bin b's landing window set or closed (R141). -/
def setWindow (b : Bin) (w : Option CuttingId) (s : State) : State :=
  { s with chain := { s.chain with windows := setAt s.chain.windows b w } }

/-- The drop of cutting c into bin b is missed (R143): the RETURN notice, the fault, then the free with its release (this order is the model's
choice: log 10). -/
def missDrop (b : Bin) (c : Cutting) (s : State) : State :=
  freeCuttings [c.id]
    (logFault .chain 3 (some (binNumber b)) (.cutting c.id) s.motion.lug
      (returnCutting c .dropMiss c.reservedBin (lugPlace s) (setWindow b none s)))

/-- Bin b's landing window, if open, is closed by the LUG pulse (R143). -/
def closeLanding (s : State) (b : Bin) : State :=
  match s.chain.windows[b] with
  | none => s
  | some id =>
    match findCutting s id with
    | none => setWindow b none s
    | some c => event (missDrop b c) s

/-- The tenoner finds no piece on a cutting's lug (R139): the RETURN notice, the fault, then the free with its release (this order is the
model's choice: log 10). -/
def findMissing (c : Cutting) (s : State) : State :=
  freeCuttings [c.id]
    (logFault .chain 1 none (.cutting c.id) s.motion.lug (returnCutting c .missing c.reservedBin (lugPlace s) s))

/-- The tenoner reports a length fault (R139). -/
def findMismatch (c : Cutting) (s : State) : State :=
  match c.reservedBin with
  | none => mapCutting c.id (fun x => { x with state := .mismatch }) s
  | some b =>
    mapCutting c.id
      (fun x => { x with state := .mismatch, dest := some .toReturn, returnReason := some .mismatch, releasedBin := some b })
      (release b c.cls c.nominal s)

/-- The tenoner check of a cutting (R139). -/
def checkCutting (present lengthFault : Bool) (c : Cutting) (s : State) : State :=
  if !present then findMissing c s
  else if lengthFault then findMismatch c s
  else mapCutting c.id (fun x => { x with state := .checked }) s

/-- The tenoner at a LUG pulse (R139, R140). -/
def sampleTenoner (present lengthFault : Bool) (s : State) : State :=
  match lugAt s s.config.chain.offTN with
  | some c => event (checkCutting present lengthFault c) s
  | none => if present then logFault .chain 2 none .none s.motion.lug s else s

/-- Drop b fires for a CHECKED cutting of bin b that stands at it (R141). -/
def fireDrop (s : State) (b : Bin) : State :=
  match lugAt s s.config.chain.offD[b] with
  | none => s
  | some c =>
    if c.state = .checked ∧ c.dest = some (.bin b) then
      setWindow b (some c.id) (mapCutting c.id (fun x => { x with state := .dropping }) s)
    else s

/-- A cutting falls to the return conveyor at the chain end (R145). -/
def fallAtEnd (c : Cutting) (s : State) : State :=
  freeCuttings [c.id]
    (returnCutting c (c.returnReason.getD .mismatch) (c.releasedBin.or c.reservedBin) (lugPlace s) s)

/-- The chain end at a LUG pulse (R145). -/
def chainEnd (s : State) : State :=
  match lugAt s s.config.chain.chainLen with
  | none => s
  | some c => event (fallAtEnd c) s

/-- The destination a lug load fixes (R138, R114, R156), with the return reason of a cutting destined for RETURN. -/
def chooseDest (c : Cutting) (s : State) : Dest × Option ReturnReason × State :=
  match c.grade with
  | some (.index g) =>
    let a := admission g (s.recipe.banks[c.bank].generation.getD 0) c.cls c.nominal s
    match a.1 with
    | some b => (.bin b, none, a.2)
    | none => (.toReturn, some .noBin, a.2)
  | _ => (.toReturn, some ((c.rejectReason.map RejectReason.toReturn).getD .noGrade), s)

/-- The cutting leaves the head of the deck for the lug at the load point (R138), and the DECK test follows (R136). -/
def boardLug (id : CuttingId) (d : Dest) (why : Option ReturnReason) (s : State) : State :=
  deckFalls
    { mapCutting id (fun x => { x with state := .onLug, loadLug := some s.motion.lug, dest := some d, returnReason := why }) s with
      chain := { s.chain with deck := s.chain.deck.drop 1 } }

/-- The lug load of the cutting at the head of the deck (R138). -/
def loadLug (id : CuttingId) (s : State) : State :=
  let s1 := settleGrading id s
  match findCutting s1 id with
  | none => { s1 with chain := { s1.chain with deck := s1.chain.deck.drop 1 } }
  | some c =>
    let d := chooseDest c s1
    boardLug id d.1 d.2.1 d.2.2

/-- The lug loader at a LUG pulse (R138). -/
def loadNext (s : State) : State :=
  match s.chain.deck with
  | [] => s
  | id :: _ => event (loadLug id) s

/-- The actions of one LUG pulse, in the order of R138, after the lug counter has advanced (R3). Open landing windows close in
ascending bin order, and each action is an event with a LINE notice of its own where it changes the set (R12; both the model's: log 36). -/
def takeLugPulse (present lengthFault : Bool) (s : State) : State :=
  let s1 := { s with motion := { s.motion with lug := s.motion.lug + 1 } }
  loadNext (chainEnd (allBins.foldl fireDrop (sampleTenoner present lengthFault (allBins.foldl closeLanding s1))))

/-- A cutting lands in bin b (R142); a closure it brings takes its close sequence ahead of those of a generation close that the free of the
record brings (R163; the model's reading: log 37). -/
def land (b : Bin) (c : Cutting) (s : State) : State :=
  freeRecord true c.id (landPiece b c.nominal (setWindow b none s))

/-- A landing with no window open (R144, R170). -/
def strayLanding (b : Bin) (s : State) : State :=
  flagStray b
    (logFault .chain 4 (some (binNumber b))
      (match s.bundles.bins[b].bundle with
        | none => .none
        | some bu => .bundle bu.number)
      s.motion.lug s)

/-- A leading edge of LANDINGb (R142, R144). -/
def takeLanding (b : Bin) (s : State) : State :=
  match s.chain.windows[b] with
  | none => strayLanding b s
  | some id =>
    match findCutting s id with
    | none => setWindow b none s
    | some c => event (land b c) s

end Sys2Proof.Machine
end

