-- ==== Sys2Proof/Machine/Resets.lean ====
section
/-! DEFINITION. The three resets: the clearing of tracking state that RESET LINE and entry to ESTOP share (R8, R9, R25, R38, R77, R95, R115,
R128, R149, R173, R202), leaving ESTOP (R8, R181), power-on and the RESET pin (R214). -/

namespace Sys2Proof.Machine

/-- The scan unit after a reset: both stores free, the converter idle (R38). -/
def ScanUnit.cleared : ScanUnit := { storeA := Store.free, storeB := Store.free, converter := none }

/-- The chain after a reset: the deck and the windows are empty, TRANSFER is low, and the last-return record is copied (R147, R149). -/
def Chain.cleared (c : Chain) : Chain :=
  { deck := [], windows := Vector.replicate 8 none, transferHigh := false, lastReturn := c.lastReturn, preFlush := c.lastReturn }

/-- The releases of every cutting on a lug that holds a bin (R149, R173). -/
def releaseAll (cs : List Cutting) (s : State) : State :=
  cs.foldl (fun s c =>
    match c.reservedBin with
    | some b => if c.state.onLugP then releaseTotals b c.cls c.nominal s else s
    | none => s) s

/-- A bank's counts fall by the strip and cutting records the reset frees (R202). -/
def dropCounts (before : State) (s : State) (k : BankId) : State :=
  mapBank k (fun r => { r with
    strips := r.strips - before.belt.strips.countP (fun t => t.bank == k),
    cuttings := r.cuttings - before.cuttings.countP (fun c => c.bank == k) }) s

/-- Every block's tracking state is cleared, the bins and bundles apart (R9, R25, R38, R77, R95, R115, R128, R149). -/
def clearBlocks (s : State) : State :=
  { s with
    motion := { s.motion with events := [] },
    line := { s.line with holds := s.line.holds.afterReset },
    belt := { s.belt with strips := [] },
    scan := ScanUnit.cleared,
    planner := Planner.idle,
    saw := { entries := [], lastFire := none, high := false },
    grade := { run := none, queue := [] },
    referral := s.referral.afterReset,
    cuttings := [],
    chain := s.chain.cleared }

/-- The bins' part of a reset (R173): every release first, then each bin tested once, then the generation close; banks left without
references retire last (R202). The generation close takes its close sequences after those of the tests (R163; the model's reading: log 37). -/
def clearBins (before : State) (s : State) : State :=
  let s1 := releaseAll before.cuttings s
  let s2 := allBanks.foldl (dropCounts before) s1
  let s3 := allBins.foldl (fun s b => reopenOrClose b s) s2
  allBanks.foldl (fun s k => retireCheck k s) (genClose s3)

/-- The FLUSH notice of a reset (R25, R26). -/
def resetNotice (reason : FlushReason) (before : State) (s : State) : State :=
  flushNotice reason (before.belt.strips.map Strip.number) s

/-- RESET LINE is taken (R9): the tracking state is cleared, the line becomes READY or STANDBY, and its one LINE notice follows (R12). -/
def resetTracking (s : State) : State :=
  let s1 := clearBins s (resetNotice .reset s (clearBlocks s))
  lineNote s (enterLine (restState s1) s1)

/-- Entry to ESTOP (R8): one LINE notice, then the FLUSH notice and the clearing; pulses of DUMP become owed (R181). -/
def enterEstop (s : State) : State :=
  let s1 := lineNote s (enterLine .estop (clearBlocks s))
  clearBins s (resetNotice .estop s (holdDumps s1))

/-- E-STOP becomes inactive in ESTOP (R8): the line goes to READY or STANDBY and the owed dumps are given (R181). -/
def leaveEstop (s : State) : State := giveOwedDumps (lineNote s (enterLine (restState s) s))

/-- The level of E-STOP (R212). -/
def setEstop (v : Bool) (s : State) : State := { s with line := { s.line with estopLevel := v } }

/-- The levels of the eight BIN EMPTY inputs. -/
def setBinLevels (l : BitVec 8) (s : State) : State :=
  { s with bundles := { s.bundles with
      bins := Vector.ofFn (fun b : Bin => { s.bundles.bins[b] with emptyLevel := l.getLsbD b.val }) } }

/-- Power-on (R214): every block at its power-on values, the inputs sampled, and ESTOP entered at once if E-STOP is active. The commands that
wait, and the count of free values drawn, are not the part's and stay. -/
def powerOn (estop : Bool) (binEmpty : BitVec 8) (s : State) : State :=
  let s1 := setBinLevels binEmpty (setEstop estop { State.reset with pending := s.pending, freeCount := s.freeCount })
  if estop then enterEstop s1 else s1

/-- The RESET pin is asserted (R214): inputs are not taken, and the running pulses stop. Every output is low while `inReset` holds. -/
def assertReset (s : State) : State :=
  { s with
    inReset := true,
    saw := { s.saw with high := false },
    chain := { s.chain with transferHigh := false },
    label := { s.label with dumpHigh := Vector.replicate 8 false } }

/-! ### Outputs (Table 72) -/

/-- INFEED ENABLE (R11, R214). -/
def infeedEnable (s : State) : Bool := !s.inReset && s.line.holds.isEmpty

/-- SAW (R94). -/
def sawOut (s : State) : Bool := !s.inReset && s.saw.high

/-- TRANSFER (R134). -/
def transferOut (s : State) : Bool := !s.inReset && s.chain.transferHigh

/-- DROPb is high while bin b's landing window is open (R141). -/
def dropOut (s : State) (b : Bin) : Bool := !s.inReset && s.chain.windows[b].isSome

/-- DUMPb (R181). -/
def dumpOut (s : State) (b : Bin) : Bool := !s.inReset && s.label.dumpHigh[b]

end Sys2Proof.Machine
end

