-- ==== Sys2Proof/Machine/Wire.lean ====
section
/-! DEFINITION. What the part puts on its two transmit lines: the bytes of replies, notices and PRINT frames (R203, R206, R207, Table 73). A
view of the state: no rule of another block reads it. Sizes and codes the manual leaves open: assumption log 30. -/

namespace Sys2Proof.Machine

/-! ### Fields (R203) -/

/-- A one-byte field. -/
def w8 (n : Nat) : List Byte := [BitVec.ofNat 8 n]

/-- A two-byte field, low byte first. -/
def w16 (n : Nat) : List Byte := bytes16 (BitVec.ofNat 16 n)

/-- A four-byte field, low byte first. -/
def w32 (n : Nat) : List Byte := bytes32 (BitVec.ofNat 32 n)

/-- A signed four-byte field. -/
def wS32 (i : Int) : List Byte := bytes32 (BitVec.ofInt 32 i)

/-- A flag. -/
def wFlag (b : Bool) : List Byte := w8 b.toNat

/-- A value that may be absent: a presence byte, then the value or zeros of its size (R207). -/
def wOpt {α : Type} (enc : α → List Byte) (size : Nat) : Option α → List Byte
  | none => w8 0 ++ List.replicate size 0
  | some x => w8 1 ++ enc x

/-- A set of named values as a two-byte field, bit k for place k (R203). -/
def wSet (l : List Bool) : List Byte := w16 (l.zipIdx.map (fun p => p.1.toNat * 2 ^ p.2)).sum

/-- A list: its count in one byte, then its members. -/
def wList {α : Type} (enc : α → List Byte) (l : List α) : List Byte := w8 l.length ++ l.flatMap enc

/-! ### Codes of named values: places in their lists (R203) -/

/-- Line states in the order of R5. -/
def LineState.code : LineState → Nat
  | .standby => 0 | .ready => 1 | .run => 2 | .drain => 3 | .estop => 4

/-- Strip states in the order of Table 9. -/
def StripState.code : StripState → Nat
  | .entering => 0 | .clearedIe => 1 | .scanning => 2 | .waitingPlan => 3 | .planned => 4 | .cutting => 5 | .unplanned => 6
  | .lost => 7

/-- Strip reasons in the order of Table 8. -/
def StripReason.code : StripReason → Nat
  | .unscanned => 0 | .latePlan => 1 | .fireListFull => 2 | .missingEdge => 3 | .ambiguous => 4 | .jam => 5

/-- Flush reasons in the order of R26. -/
def FlushReason.code : FlushReason → Nat
  | .ambiguous => 0 | .jam => 1 | .reset => 2 | .estop => 3

/-- The sample store of a strip record: A, B or none (Table 8). -/
def storeCode : Option StoreId → Nat
  | some .a => 0 | some .b => 1 | none => 2

/-- Line statuses in the order of R79. -/
def LineStatus.code : LineStatus → Nat
  | .pending => 0 | .fired => 1 | .dropped => 2

/-- Roles in the order of Table 14. -/
def Role.code : Role → Nat
  | .thick1 => 0 | .thick2 => 1 | .thick3 => 2 | .thick4 => 3 | .width => 4 | .tongueT => 5 | .tongueL => 6 | .grooveW => 7
  | .grooveD => 8 | .moist => 9 | .none => 10

/-- Comparator modes in the order of Table 14. -/
def CompMode.code : CompMode → Nat
  | .off => 0 | .below => 1 | .above => 2 | .outside => 3 | .inside => 4

/-- Actions in the order of Table 14. -/
def CompAction.code : CompAction → Nat
  | .mark => 0 | .cut => 1

/-- Spindle states in the order of Table 23. -/
def SpindleState.code : SpindleState → Nat
  | .unset => 0 | .live => 1 | .expired => 2

/-- Cutting states in the order of Table 46. -/
def CuttingState.code : CuttingState → Nat
  | .planned => 0 | .cut => 1 | .onDeck => 2 | .onLug => 3 | .checked => 4 | .mismatch => 5 | .dropping => 6

/-- The location a state determines: BELT, DECK, LUG (Table 45, R130). -/
def CuttingState.location : CuttingState → Nat
  | .planned | .cut => 0
  | .onDeck => 1
  | .onLug | .checked | .mismatch | .dropping => 2

/-- Grading statuses in the order of Table 36. -/
def GradeStatus.code : GradeStatus → Nat
  | .ungraded => 0 | .referred => 1 | .resuming => 2 | .graded => 3

/-- A grade: an index 0 to 7, or 8 for REJECT (log 12). -/
def Grade.code : Grade → Nat
  | .index g => g
  | .reject => 8

/-- Reject reasons in the order of Table 36. -/
def RejectReason.code : RejectReason → Nat
  | .noGrade => 0 | .referralOverflow => 1 | .referralExpired => 2

/-- A destination: bin 1 to 8, or 9 for RETURN (log 12). -/
def Dest.code : Dest → Nat
  | .bin b => binNumber b
  | .toReturn => 9

/-- Return reasons in the order of Table 47. -/
def ReturnReason.code : ReturnReason → Nat
  | .unscanned => 0 | .latePlan => 1 | .fireListFull => 2 | .missingEdge => 3 | .ambiguous => 4 | .jam => 5 | .deckFull => 6
  | .noGrade => 7 | .referralOverflow => 8 | .referralExpired => 9 | .noBin => 10 | .mismatch => 11 | .missing => 12
  | .dropMiss => 13

/-- Bank states in the order of Table 59. -/
def BankState.code : BankState → Nat
  | .empty => 0 | .loading => 1 | .valid => 2 | .active => 3 | .retiring => 4

/-- Bin states in the order of Table 52. -/
def BinState.code : BinState → Nat
  | .idle => 0 | .opened => 1 | .filled => 2 | .closing => 3 | .labelling => 4 | .clearing => 5 | .held _ => 6

/-- The code of a HELD bin's underlying state: its place in R153's OPEN or FILLED, not in Table 52 (the model's choice: log 30). -/
def BinState.underlying : BinState → Option Nat
  | .held .opened => some 0
  | .held .filled => some 1
  | _ => none

/-- Head states in the order of R175. -/
def HeadState.code : HeadState → Nat
  | .waitReady => 0 | .sent => 1 | .accepted => 2 | .faulted _ _ => 3

/-- Fault causes in the order of R184. -/
def LabelCause.code : LabelCause → Nat
  | .acceptTimeout => 0 | .appliedTimeout => 1 | .labeller => 2

/-- Outcomes in the order of R183, R187. -/
def Outcome.code : Outcome → Nat
  | .applied => 0 | .voided => 1

/-- Standings in the order of R127. -/
def Standing.code : Standing → Nat
  | .outstanding => 0 | .waiting => 1 | .none => 2

/-- Reasons of REFERRAL END in the order of R127. -/
def ReferralEndReason.code : ReferralEndReason → Nat
  | .expired => 0 | .withdrawn => 1 | .overflow => 2

/-- Fault records by number (R211). -/
def FaultBook.code : FaultBook → Nat
  | .belt => 0 | .chain => 1 | .label => 2 | .link => 3

/-- BUNDLE events in the order of Table 54. -/
def BundleEvent.code : BundleEvent → Nat
  | .opened => 0 | .filled => 1 | .reopened => 2 | .closed => 3 | .discarded => 4 | .held => 5 | .released => 6
  | .dispatched _ => 7

/-- The status codes of Table 66, with their added bytes. -/
def Status.bytes : Status → List Byte
  | .ok => w8 0 | .frame => w8 1 | .field i => w8 2 ++ w8 i | .state => w8 3 | .inuse => w8 4 | .notfound => w8 5
  | .late => w8 6 | .noref => w8 7 | .unknown => w8 8 | .invalid sec item => w8 9 ++ w8 sec ++ w8 item

/-! ### Compound fields -/

/-- The hold-cause set (Table 7). -/
def HoldSet.bytes (h : HoldSet) : List Byte :=
  wSet [h.notRun, h.drain, h.host, h.deck, h.profile, h.flush, h.trackFull, h.records]

/-- A position or a count of 32 bits. -/
def wWord (w : Word) : List Byte := bytes32 w

/-- A cutting id: strip number and index. -/
def CuttingId.bytes (c : CuttingId) : List Byte := w32 c.strip ++ w8 c.index

/-- A place with its kind, 0 a tick and 1 a lug counter (R146); the kind byte goes before the position, and its codes and its place are the
model's choice (log 30). -/
def Place.bytes : Place → List Byte
  | .tick t => w8 0 ++ wWord t
  | .lug t => w8 1 ++ wWord t

/-- The object of a fault: a presence byte (R207), then its kind, its number and a cutting's index (the form: the model's choice, log 30). -/
def FaultObject.bytes : FaultObject → List Byte
  | .none => w8 0 ++ w8 0 ++ w32 0 ++ w8 0
  | .strip n => w8 1 ++ w8 0 ++ w32 n ++ w8 0
  | .cutting c => w8 1 ++ w8 1 ++ c.bytes
  | .bundle n => w8 1 ++ w8 2 ++ wWord n ++ w8 0

/-- The five values of a fault (R211), the detail and the object with their presence bytes (R207); the detail's four bytes are the model's
choice (log 30). -/
def FaultEntry.bytes (f : FaultEntry) : List Byte :=
  w8 f.code ++ wOpt w32 4 f.detail ++ f.object.bytes ++ wWord f.position ++ wWord f.clock

/-- The status flags of a strip, in the order of Table 8. -/
def StripFlags.bytes (f : StripFlags) : List Byte :=
  wSet [f.overlength, f.tailCut, f.zoneSat, f.starved, f.sparse, f.unscanned]

/-- The flags of a bundle: SHORT, STRAY. -/
def wBundleFlags (short stray : Bool) : List Byte := wSet [short, stray]

/-- The four role classes of a STOP notice (R57): each as a value that may be absent, R55's none as the absent one, a presence byte 0 and a 0
(R207); a fourth place beside OK, WARN and LIMIT would be R203's other reading (the model's choice: log 30). -/
def wClasses (v : Vector (Option ProfileStatus) 4) : List Byte := v.toList.flatMap (wOpt (fun c => w8 c.rank) 1)

/-! ### Notices -/

/-- The body of a BUNDLE notice (R171). -/
def BundleNotice.body (n : BundleNotice) : List Byte :=
  w8 n.event.code ++
  (match n.event with
    | .dispatched o => w8 o.code
    | _ => []) ++
  w8 (binNumber n.bin) ++ wWord n.bundle.number ++ w8 n.bundle.bank.val ++ w16 n.bundle.generation ++
  w8 n.bundle.spec.grade ++ w8 n.bundle.gradeCode ++ w16 n.bundle.count ++ w32 n.bundle.coverage ++
  w32 n.bundle.shortCoverage ++ w16 n.bundle.landedCount ++ w32 n.bundle.landedCoverage ++
  wBundleFlags n.bundle.short n.bundle.stray ++ w8 n.state.code ++ wOpt w8 1 n.state.underlying ++ wWord n.clock

/-- The body of a PROFILE notice, its clock apart (Table 25). R64 lists the event first for the TOOL events; that it stands first in STOP and DRIFT
too, where R57 and R60 list the other fields alone, is the model's choice (log 47). -/
def ProfileEvent.body : ProfileEvent → List Byte
  | .stop n c k v => w8 0 ++ w32 n ++ w16 c ++ w16 k ++ wClasses v
  | .drift n d l => w8 1 ++ w32 n ++ wS32 d ++ w16 l
  | .toolWarn i r n t => w8 2 ++ w8 i.val ++ w16 r ++ w32 n ++ wWord t
  | .toolExpired i r n t => w8 3 ++ w8 i.val ++ w16 r ++ w32 n ++ wWord t

/-- The body of a RECIPE notice, its clock apart (R198, R199); the event byte stands first by the model's choice (log 47). -/
def RecipeEvent.body : RecipeEvent → List Byte
  | .switched k g p st =>
    w8 0 ++ w8 k.val ++ w16 g ++ wOpt (fun b : BankId => w8 b.val) 1 p ++ wOpt (fun x : BankState => w8 x.code) 1 st
  | .retired k g => w8 1 ++ w8 k.val ++ w16 g

/-- The body of a LABEL notice, its clock apart (R184, R187); the event byte stands first by the model's choice (log 47). -/
def LabelEvent.body : LabelEvent → List Byte
  | .faulted n b c code d => w8 0 ++ wWord n ++ w8 (binNumber b) ++ w8 c.code ++ [code] ++ wFlag d
  | .voided n b => w8 1 ++ wWord n ++ w8 (binNumber b)

/-- The body of a notice: the fields its rule lists, in order (R207); the one byte of a referral tag in REFERRAL and REFERRAL END is the model's
choice (log 30). -/
def Notice.body : Notice → List Byte
  | .line a b h t c => w8 a.code ++ w8 b.code ++ h.bytes ++ wWord t ++ wWord c
  | .strip n r st t => w32 n ++ w8 r.code ++ w8 st.code ++ wWord t
  | .flush r t n lo hi => w8 r.code ++ wWord t ++ w16 n ++ wOpt w32 4 lo ++ wOpt w32 4 hi
  | .referral r out =>
    w8 (r.tag.getD 0) ++ r.id.bytes ++ w8 r.context.grade ++ w8 r.context.test ++ w8 r.feature ++ w16 r.spanStart ++
      w16 r.spanEnd ++ w16 r.nominal ++ w16 r.stripLength ++ wWord r.arose ++ wWord out
  | .referralEnd tag id why st c => w8 tag ++ id.bytes ++ w8 why.code ++ w8 st.code ++ wWord c
  | .returned id why g code bin place c =>
    id.bytes ++ w8 why.code ++ wOpt (fun x : Grade => w8 x.code) 1 g ++ wOpt w8 1 code ++
      wOpt (fun b : Bin => w8 (binNumber b)) 1 bin ++ place.bytes ++ wWord c
  | .bundle n => n.body
  | .label e c => e.body ++ wWord c
  | .profile e c => e.body ++ wWord c
  | .recipe e c => e.body ++ wWord c
  | .fault b f => w8 b.code ++ f.bytes

/-! ### Labels -/

/-- The class pairs of a label. -/
def wPairs (l : List (Nat × Nat)) : List Byte := wList (fun p => w16 p.1 ++ w16 p.2) l

/-- The fields of a label record in the order of Table 56. -/
def LabelRecord.bytes (l : LabelRecord) : List Byte :=
  wWord l.number ++ w8 (binNumber l.bin) ++ w8 l.gradeCode ++ w16 l.generation ++ w16 l.lot ++ w16 l.pieces ++
    w32 l.coverage ++ w16 l.labelUnits ++ wBundleFlags l.short l.stray ++ wPairs l.pairs ++ wWord l.closeTime

/-- The body of PRINT: the sequence, then the label record (Table 73). -/
def LabelRecord.printBody (l : LabelRecord) : List Byte := wWord l.number ++ l.bytes

/-- The PRINT frame of a label (Table 65, Table 73). -/
def LabelRecord.printFrame (l : LabelRecord) : List Byte := frameBytes 0x01 0 l.printBody

/-! ### Replies -/

/-- A line of a cut plan (R79, R89). -/
def PlanLine.bytes (l : PlanLine) : List Byte :=
  w16 l.pos ++ w8 l.kind.code ++ w32 l.offset ++ wOpt w8 1 l.starts ++ wOpt w8 1 l.ends ++ w8 l.status.code

/-- A zone with its passes and its mm positions (R43); the source as the zone's kind and a byte that is 0 for the gate and the channel's
number for a channel (the model's choice: log 30). -/
def wZone (z : Zone) (mm : Nat × Nat) : List Byte :=
  (match z.source with
    | .gate => w8 0 ++ w8 0
    | .channel c => w8 1 ++ w8 c.val) ++
  w16 z.start ++ w16 z.stop ++ w8 z.severity ++ w16 mm.1 ++ w16 mm.2

/-- The data of READ STRIP (R18). -/
def Strip.bytes (r : Strip) (mm : List (Nat × Nat)) : List Byte :=
  w32 r.number ++ w8 r.bank.val ++ wWord r.lead ++ wOpt wWord 4 r.trail ++ wOpt w16 2 r.length ++ wOpt wS32 4 r.shift ++
    w8 (storeCode r.store) ++ wList (fun p : Zone × (Nat × Nat) => wZone p.1 p.2) (r.zones.zip mm) ++
    wOpt (fun c : ProfileStatus => w8 c.rank) 1 r.profile ++ wFlag r.tool ++ wList PlanLine.bytes r.lines ++
    wList CuttingId.bytes r.cuttings ++ wOpt w16 2 r.yield ++ r.flags.bytes ++
    wOpt (fun c : StripReason => w8 c.code) 1 r.reason ++ w8 r.state.code

/-- A cutting's referral state (R117): none, outstanding with its tag, waiting with its place (the codes: the model's choice, log 30). -/
def ReferralView.bytes : ReferralView → List Byte
  | .none => w8 0 ++ w8 0
  | .outstanding t => w8 1 ++ w8 t
  | .waiting p => w8 2 ++ w8 p

/-- The data of READ CUTTING (R133); the two values of the kept context of R105, present together, share one presence byte (the model's
choice: log 30). -/
def Cutting.bytes (c : Cutting) (k : Option (Nat × Nat)) (v : ReferralView) (off : Option Word) : List Byte :=
  c.id.bytes ++ w16 c.nominal ++ w8 c.cls ++ w16 c.spanStart ++ w8 c.bank.val ++ c.features.toList.flatMap (wOpt wS32 4) ++
    w8 c.gradeStatus.code ++ wOpt (fun g : Grade => w8 g.code) 1 c.grade ++ wOpt w8 1 c.gradeCode ++
    wOpt (fun r : RejectReason => w8 r.code) 1 c.rejectReason ++ w16 c.referralCount ++ w8 c.state.code ++
    w8 c.state.location ++ wOpt wWord 4 c.loadLug ++ wOpt (fun d : Dest => w8 d.code) 1 c.dest ++
    wOpt (fun r : ReturnReason => w8 r.code) 1 c.returnReason ++
    wOpt (fun p : Nat × Nat => w8 p.1 ++ w8 p.2) 2 k ++ v.bytes ++ wOpt wWord 4 off

/-- A bundle record (Table 51). -/
def Bundle.bytes (b : Bundle) : List Byte :=
  wWord b.number ++ w8 (binNumber b.bin) ++ w8 b.bank.val ++ w16 b.generation ++ w8 b.spec.grade ++ w8 b.gradeCode ++
    w8 b.spec.classLow ++ w8 b.spec.classHigh ++ w32 b.spec.ct ++ w32 b.spec.tolLo ++ w32 b.spec.tolHi ++ w16 b.spec.s ++ w16 b.spec.pmax ++
    w16 b.spec.nmax ++ w16 b.w ++ w16 b.count ++ w32 b.coverage ++ w32 b.shortCoverage ++ b.classCounts.toList.flatMap w16 ++
    w16 b.landedCount ++ w32 b.landedCoverage ++ wBundleFlags b.short b.stray ++ wOpt w32 4 b.closeSeq ++
    wOpt wWord 4 b.closeTime

/-- The data of READ BIN (R172); the mark *none* of an IDLE bin is a single 0 byte (the model's choice: log 30). -/
def BinView.bytes (v : BinView) : List Byte :=
  w8 v.state.code ++ wOpt w8 1 v.state.underlying ++ wFlag v.emptyLevel ++ wOpt CuttingId.bytes 5 v.window ++
    (match v.bundle with
      | none => w8 0
      | some b => w8 1 ++ b.bytes) ++ w16 v.inFlight

/-- The data of READ LABELS (R189); without a head a single 0 byte stands in its place, the head's fault cause and labeller code, present
together, share one presence byte, and an empty dispatch record is a 0 byte and nine zero bytes (the model's choices: log 30); the bins with
an owed dump go as a list (log 12). -/
def LabelsView.bytes (v : LabelsView) : List Byte :=
  w16 v.lot ++ wWord v.nextNumber ++ wFlag v.readyFlag ++
    wList (fun p : Word × Bin × Word => wWord p.1 ++ w8 (binNumber p.2.1) ++ wWord p.2.2) v.labels ++
    (match v.head with
      | none => w8 0
      | some (l, st, d) => w8 1 ++ l.bytes ++ w8 st.code ++ wFlag d ++
        (match st with
          | .faulted c code => w8 1 ++ w8 c.code ++ [code]
          | _ => w8 0 ++ w8 0 ++ w8 0) ++ wOpt w16 2 v.timeLeft) ++
    wList (fun b : Bin => w8 (binNumber b)) (allBins.filter (fun b => v.owed[b])) ++
    v.dispatch.toList.flatMap
      (wOpt (fun d : Dispatch => wWord d.number ++ w8 d.outcome.code ++ wWord d.clock) 9)

/-- The data of READ TOOLS (R68). -/
def ToolsView.bytes (v : ToolsView) : List Byte :=
  v.spindles.toList.flatMap (fun p =>
      w8 p.state.code ++ w16 p.remaining ++ w16 p.setValue ++ w16 p.warnLevel ++ w16 p.accumulator) ++
    w16 v.limitCount ++ wFlag v.profileHeld ++ wList w32 v.ring ++ wOpt wS32 4 v.drift ++ wFlag v.armed

/-- The data of STATUS (R212). -/
def StatusData.bytes (d : StatusData) : List Byte :=
  w8 d.line.code ++ d.holds.bytes ++ wFlag d.estopLevel ++ wWord d.travel ++ wWord d.mark ++ wWord d.lug ++ w16 d.strips ++
    w16 d.plannerQueue ++ w16 d.fireEntries ++ w16 d.freeRecords ++ w16 d.deckCount ++ w16 d.outstanding ++ w16 d.waiting ++
    w16 d.labels ++ wOpt (fun h : HeadState => w8 h.code) 1 d.head ++ d.banks.toList.flatMap (fun b => w8 b.code) ++
    w16 d.counter ++ d.marks.toList.flatMap wFlag ++ wSet d.faults.toList ++ w16 d.notices ++ w16 d.dropped ++
    wWord d.clock

/-- A channel's setup (Table 14). -/
def ChannelSetup.bytes (c : ChannelSetup) : List Byte :=
  w8 c.range ++ wS32 c.base ++ wS32 c.span ++ w8 c.role.code ++ w8 c.mode.code ++ wS32 c.l1 ++ wS32 c.l2 ++ w8 c.action.code

/-- The fields of a configuration section (Table 69). -/
def ConfigView.bytes : ConfigView → List Byte
  | .motion c => w32 c.k ++ w32 c.offSH ++ w32 c.offSE ++ w32 c.dSL ++ w32 c.dXE ++ w32 c.slip ++ w32 c.reverse ++ w16 c.dr
  | .channels v => v.toList.flatMap ChannelSetup.bytes
  | .scan c => w8 c.count ++ c.slots.toList.flatMap w8 ++ w32 c.pitch ++ w16 c.lag ++ w16 c.endExcl
  | .deck c => w16 c.high ++ w16 c.low
  | .chain c => w32 c.chainLen ++ w32 c.offTN ++ c.offD.toList.flatMap w32

/-- A test entry (Table 34). -/
def TestEntry.bytes (e : TestEntry) : List Byte :=
  w8 e.feature ++ w8 e.op ++ wS32 e.a ++ wS32 e.b ++ w8 e.dest ++ w8 e.combine ++ w8 e.negate ++ w8 e.absent

/-- A bin plan entry (Table 50). -/
def BinPlan.bytes (e : BinPlan) : List Byte :=
  w8 e.grade ++ w8 e.classLow ++ w8 e.classHigh ++ w32 e.ct ++ w32 e.tolLo ++ w32 e.tolHi ++ w16 e.s ++ w16 e.pmax ++ w16 e.nmax

/-- A PROFILE section (Table 61). -/
def ProfileSection.bytes (p : ProfileSection) : List Byte :=
  p.windows.toList.flatMap (fun w => wS32 w.w1 ++ wS32 w.w2 ++ wS32 w.m1 ++ wS32 w.m2) ++
    w16 p.tongueNominal ++ w16 p.driftLimit ++ w16 p.stopCount

/-- A section that is loaded, with its contents, or unloaded with none, a single 0 byte (R200; the model's choice: log 30). -/
def wLoaded {α : Type} (enc : α → List Byte) : Option α → List Byte
  | none => w8 0
  | some x => w8 1 ++ enc x

/-- The contents of a recipe section (R200). -/
def SectionView.bytes : SectionView → List Byte
  | .cut c => wLoaded (fun c : CutSection =>
      w16 c.tl ++ w16 c.tt ++ w16 c.k ++ w16 c.g ++ w16 c.ae ++ w16 c.tc ++ w16 c.nominalWidth) c
  | .lengths l => wLoaded (wList w16) l
  | .grades g => wLoaded (wList (fun e : GradeEntry => w8 e.code ++ w8 e.first ++ w16 e.count ++ w8 e.verdict)) g
  | .tests t => t.flatMap (wLoaded TestEntry.bytes)
  | .bins b => wLoaded (fun v : Vector BinPlan 8 => v.toList.flatMap BinPlan.bytes) b
  | .profile p => wLoaded ProfileSection.bytes p
  | .cover w => wLoaded w16 w

/-- The head of RECIPE READ (R200). -/
def BankView.bytes (v : BankView) : List Byte :=
  w8 v.state.code ++ wOpt w16 2 v.generation ++ w16 v.strips ++ w16 v.cuttings ++ w16 v.bundles ++ w16 v.references ++
    w16 v.counter

/-- A return record (R147): its object as a kind byte, 0 a strip and 1 a cutting, a number and an index; an empty record is a single 0 byte
(the model's choice: log 30). -/
def wReturn : Option ReturnRecord → List Byte
  | none => w8 0
  | some r => w8 1 ++
    (match r.object with
      | .strip n => w8 0 ++ w32 n ++ w8 0
      | .cutting c => w8 1 ++ c.bytes) ++
    w8 r.reason.code ++ r.place.bytes ++ wWord r.clock

/-- A fault record, or empty, a single 0 byte (R211; the model's choice: log 30). -/
def FaultRecord.bytes (r : FaultRecord) : List Byte :=
  match r.first with
  | none => w8 0
  | some f => w8 1 ++ f.bytes ++ w16 r.count ++ wFlag r.overflow

/-- The data of an OK reply (R206). -/
def ReplyData.bytes : ReplyData → List Byte
  | .none => []
  | .identity v p r l => w16 v ++ w16 p ++ w16 r ++ w16 l
  | .status d => d.bytes
  | .config m c marks => wFlag m ++ c.bytes ++ marks.toList.flatMap wFlag
  | .generation g => w16 g
  | .recipe b c => b.bytes ++ c.bytes
  | .strip r mm => r.bytes mm
  | .cutting c k v off => c.bytes k v off
  | .bin v => v.bytes
  | .labels v => v.bytes
  | .tools v => v.bytes
  | .fault r => r.bytes
  | .returns a b => wReturn a ++ wReturn b

/-- The body of a reply: its status, then the data that only an OK reply carries (R206). -/
def Reply.body (r : Reply) : List Byte := r.status.bytes ++ r.data.bytes

/-- The frame of a reply or a notice (Table 65, R206, R207): a notice's kind is 0x80 plus its place, its tag 0. -/
def TxFrame.bytes : TxFrame → List Byte
  | .notice n => frameBytes (BitVec.ofNat 8 (0x80 + n.kindIndex)) 0 n.body
  | .reply r => frameBytes r.kind r.tag r.body

/-- The frame that LINK TXD is sending: the first that became ready (R207); while RESET is asserted the line is idle (R214). -/
def sendingBytes (s : State) : Option (List Byte) := if s.inReset then none else s.link.tx.head?.map TxFrame.bytes

/-- The frame that LABEL TXD is sending: the PRINT in progress (R179); while RESET is asserted the line is idle (R214). -/
def printingBytes (s : State) : Option (List Byte) :=
  if s.inReset then none else s.label.printing.map (fun j => j.label.printFrame)

end Sys2Proof.Machine
end

