-- ==== Sys2Proof/Machine/LineCommands.lean ====
section
/-! DEFINITION. The meanings of the commands of line motion, strip tracking and the line state (chapter 1), of power-on and the RESET pin
(R214): one definition for each command. -/

namespace Sys2Proof.Machine

/-! ### Power-on, RESET, E-STOP -/

/-- POWER_ON (R214): taken whatever the part was doing. -/
def execPowerOn (estop : Bool) (binEmpty : BitVec 8) (s : State) : Host.Outcome State Fault Refusal :=
  .next (powerOn estop binEmpty s)

/-- RESET_PIN_ASSERTED (R214). -/
def execResetPinAsserted (s : State) : Host.Outcome State Fault Refusal := .next (assertReset s)

/-- E_STOP_ACTIVE (R8). -/
def execEStopActive (s : State) : Host.Outcome State Fault Refusal :=
  whenRunning (fun s => if s.line.state = .estop then setEstop true s else enterEstop (setEstop true s)) s

/-- E_STOP_INACTIVE (R8). -/
def execEStopInactive (s : State) : Host.Outcome State Fault Refusal :=
  whenRunning (fun s => if s.line.state = .estop then leaveEstop (setEstop false s) else setEstop false s) s

/-! ### The encoder -/

/-- The counter and the mark after a forward step (R1, R2). -/
def stepForward (s : State) : State :=
  let t := s.motion.travel + 1
  { s with motion := { s.motion with
      travel := t
      mark := if s.line.state.moving then (if isAfter t s.motion.mark then t else s.motion.mark) else t } }

/-- The counter and the mark after a reverse step (R1, R2). -/
def stepReverse (s : State) : State :=
  let t := s.motion.travel - 1
  { s with motion := { s.motion with travel := t, mark := if s.line.state.moving then s.motion.mark else t } }

/-- ENC_FORWARD_STEP (R2). -/
def execEncForwardStep (gate : GateSample) (s : State) : Host.Outcome State Fault Refusal :=
  whenRunning (fun s => takeDue gate s.motion.events.length (stepForward s)) s

/-- A reverse step has gone beyond the reverse allowance in RUN or DRAIN (R24); the allowance is the one that reached the block at the last strip
created (R209; log 43). -/
def isJam (s : State) : Bool :=
  s.line.state.moving && decide ((s.config.motion.reverse : Int) < ticksFrom s.motion.travel s.motion.mark)

/-- ENC_REVERSE_STEP (R24). -/
def execEncReverseStep (s : State) : Host.Outcome State Fault Refusal :=
  whenRunning (fun s => if isJam (stepReverse s) then jam (stepReverse s) else stepReverse s) s

/-! ### The infeed eye -/

/-- The next strip number (R15). -/
def nextStripNumber (n : Nat) : Nat := if n = Config.lastStripNumber then 1 else n + 1

/-- No status flag is set. -/
def StripFlags.clear : StripFlags :=
  { overlength := false, tailCut := false, zoneSat := false, starved := false, sparse := false, unscanned := false }

/-- A strip record as created (R15). -/
def newStrip (n : Nat) (bank : BankId) (lead : Word) : Strip :=
  { number := n, bank, lead, trail := none, length := none, shift := none, store := none, zones := [], profile := none,
    tool := false, lines := [], cuttings := [], yield := none, flags := StripFlags.clear, reason := none, state := .entering,
    windowOpen := false, removalTaken := false }

/-- The record joins the table, the bank's strip count rises (R15, R198), and the configuration in force reaches the blocks (R209). -/
def createStrip (r : Strip) (s : State) : State :=
  mapBank r.bank (fun b => { b with strips := b.strips + 1 })
    { s with
      belt := { strips := s.belt.strips ++ [r], nextNumber := nextStripNumber s.belt.nextNumber },
      config := s.inForce }

/-- A strip's window opening and scan window are registered (R15, R19, R29). With the mark already past the window end the strip is LOST at the
first of these; its scan window is registered and taken all the same (the model's reading of R15 against R30: log 5). -/
def registerStrip (g : GateSample) (r : Strip) (s : State) : State :=
  register g (passDue s r 0) (.scanOpen r.number) (register g (windowStart s r) (.seOpen r.number) s)

/-- An IE leading edge in RUN or DRAIN with a record free (R15). -/
def enterStrip (g : GateSample) (s : State) : State :=
  let r := newStrip s.belt.nextNumber ((activeBank s).getD 0) s.motion.travel
  registerStrip g r (createStrip r s)

/-- An IE leading edge that finds the strip table full (R15); its FAULT notice goes ahead of the LINE notice (the model's choice: log 10). -/
def trackFull (s : State) : State :=
  event (fun s => logFault .belt 4 none .none s.motion.travel (mapHolds (fun h => { h with trackFull := true }) s)) s

/-- IE_LEADING_EDGE (R15). -/
def execIeLeadingEdge (gate : GateSample) (s : State) : Host.Outcome State Fault Refusal :=
  whenRunning (fun s =>
    if !s.line.state.moving then logFault .belt 1 (some 0) .none s.motion.travel s
    else if s.belt.strips.length < Config.stripCapacity then enterStrip gate s
    else trackFull s) s

/-- The record that waits for a trail (R16). -/
def waitingTrail (s : State) : Option Strip := s.belt.strips.find? (fun r => r.trail.isNone)

/-- A strip's trail and length (R16). -/
def Strip.clearIe (k : Nat) (t : Word) (r : Strip) : Strip :=
  { r with trail := some t, length := some (ticksToMm k (ticksFrom r.lead t).toNat),
           state := if r.state = .entering then .clearedIe else r.state }

/-- The removal position of a strip is registered (R16). -/
def registerRemoval (n : Nat) (s : State) : State :=
  match findStrip s n with
  | none => s
  | some r => regSimple (removalPos s r) (.removal n) s

/-- The trailing edge of strip r (R16): trail and length, the tool charge, the scan end it may bring (R34), the removal position. The charge
comes before the scan end, and so do its notices (the model's choice: log 10). -/
def takeTrail (r : Strip) (s : State) : State :=
  let done := r.clearIe s.config.motion.k s.motion.travel
  registerRemoval r.number
    (endScanTest r.number
      (chargeTools r.number (done.length.getD 0) (mapStrip r.number (fun _ => done) s)))

/-- IE_TRAILING_EDGE (R16): with no record waiting the edge is passed over. -/
def execIeTrailingEdge (s : State) : Host.Outcome State Fault Refusal :=
  whenRunning (fun s =>
    match waitingTrail s with
    | none => s
    | some r => takeTrail r s) s

/-! ### The saw eye -/

/-- The strips whose open window contains p (R20). -/
def openWindows (s : State) (p : Word) : List Strip := s.belt.strips.filter (fun r => r.windowOpen && inWindow s r p)

/-- An SE leading edge at p (R20). -/
def takeSeEdge (p : Word) (s : State) : State :=
  match openWindows s p with
  | [] => logFault .belt 1 (some 1) .none p s
  | [r] => takeMatch r p s
  | rs => trackFlush rs p s

/-- SE_LEADING_EDGE (R20). -/
def execSeLeadingEdge (s : State) : Host.Outcome State Fault Refusal := whenRunning (fun s => takeSeEdge s.motion.travel s) s

/-- SE_TRAILING_EDGE (R4): stamped and passed over. -/
def execSeTrailingEdge (s : State) : Host.Outcome State Fault Refusal := whenRunning (fun s => s) s

/-! ### Requests of the Line Controller -/

/-- START (R6). -/
def startAnswer (_ : List Int) (s : State) : Answer :=
  match s.line.state with
  | .ready | .drain => okay (event (enterLine .run) s)
  | .standby | .run | .estop => refuse .state s

/-- The command START. -/
def execStart (s : State) : Host.Outcome State Fault Refusal := whenRunning (takeRequest 0x05 (withFields [] startAnswer)) s

/-- DRAIN (R7): the drain test follows the change of state, each with its own LINE notice (R12). -/
def drainAnswer (_ : List Int) (s : State) : Answer :=
  match s.line.state with
  | .run => okay (drainTest (lineNote s (enterLine .drain s)))
  | .drain => okay s
  | .standby | .ready | .estop => refuse .state s

/-- The command DRAIN. -/
def execDrain (s : State) : Host.Outcome State Fault Refusal := whenRunning (takeRequest 0x06 (withFields [] drainAnswer)) s

/-- RESET LINE (R9). -/
def resetAnswer (_ : List Int) (s : State) : Answer :=
  if s.line.state = .estop then refuse .state s else okay (resetTracking s)

/-- The command RESET_LINE. -/
def execResetLine (s : State) : Host.Outcome State Fault Refusal := whenRunning (takeRequest 0x07 (withFields [] resetAnswer)) s

/-- Field number i of a body's fields. -/
def fld (fs : List Int) (i : Nat) : Int := fs.getD i 0

/-- INFEED HOLD (R11). -/
def infeedAnswer (fs : List Int) (s : State) : Answer :=
  if fld fs 0 = 0 then okay (event (mapHolds (fun h => { h with host := false })) s)
  else if fld fs 0 = 1 then okay (event (mapHolds (fun h => { h with host := true })) s)
  else refuse (.field 0) s

/-- The command INFEED_HOLD. -/
def execInfeedHold (s : State) : Host.Outcome State Fault Refusal :=
  whenRunning (takeRequest 0x08 (withFields [.u8] infeedAnswer)) s

end Sys2Proof.Machine
end

