-- ==== Sys2Proof/Machine/StripCommands.lean ====
section
/-! DEFINITION. The meanings of the commands of the Scan Unit, the Cut Planner, the Saw Scheduler, Profile Watch, grading and referrals, and of
their requests (chapters 2 to 6). -/

namespace Sys2Proof.Machine

/-- The samples of a finished conversion go to their slot, and the held passes that waited for them follow (R32, R33). -/
def Scanning.convert (cfg : Configuration) (samples : List Sample) (x : Scanning) : Scanning :=
  let y := x.file cfg.channels { samples, held := false }
  y.fillHeld cfg (y.scan.owed - y.slots.length)

/-- A conversion completes (R32): its samples go to the store of a strip still scanning with that slot next; else they are discarded. -/
def completeConversion (volts : Vector Int 16) (c : Conversion) (s : State) : State :=
  let s1 := setConverter none s
  match scanningOf s1 c.strip with
  | none => s1
  | some (i, x) =>
    if x.slots.length = c.pass then
      endScanTest c.strip (putScanning i (x.convert s.config (convertList s.config volts)) true s1)
    else s1

/-- CONVERSION_COMPLETE (R32): with the converter idle there is nothing to complete. -/
def execConversionComplete (volts : Vector Int 16) (s : State) : Host.Outcome State Fault Refusal :=
  whenRunning (fun s =>
    match s.scan.converter with
    | none => s
    | some c => completeConversion volts c s) s

/-- PROCESSING_COMPLETE (R74). -/
def execProcessingComplete (s : State) : Host.Outcome State Fault Refusal := whenRunning completeProcessing s

/-- RESUMPTION_RUN_END (R110): the run ends and the path takes the next queued cutting (R109). -/
def execResumptionRunEnd (s : State) : Host.Outcome State Fault Refusal :=
  whenRunning (fun s => beginResumption (finishRun s)) s

/-- SAW_PULSE_END (R94). -/
def execSawPulseEnd (s : State) : Host.Outcome State Fault Refusal :=
  whenRunning (fun s => { s with saw := { s.saw with high := false } }) s

/-! ### Profile Watch -/

/-- PROFILE RESUME (R58). -/
def resumeAnswer (_ : List Int) (s : State) : Answer :=
  okay (event (fun s => mapHolds (fun h => { h with profile := false }) (mapProfile (fun w => { w with limitCount := 0 }) s)) s)

/-- The command PROFILE_RESUME. -/
def execProfileResume (s : State) : Host.Outcome State Fault Refusal :=
  whenRunning (takeRequest 0x30 (withFields [] resumeAnswer)) s

/-- A spindle record as TOOL SET leaves it (R66). -/
def SpindleRecord.loaded (setValue warnLevel : Nat) : SpindleRecord :=
  { state := .live, remaining := setValue, setValue, warnLevel, accumulator := 0 }

/-- TOOL SET (R66); of several fields out of range the lowest index is the one refused (the model's choice: log 35). -/
def toolSetAnswer (fs : List Int) (s : State) : Answer :=
  match spindleOfCode (fld fs 0) with
  | none => refuse (.field 0) s
  | some i =>
    if fld fs 1 < 1 ∨ 65000 < fld fs 1 then refuse (.field 1) s
    else if fld fs 1 < fld fs 2 then refuse (.field 2) s
    else okay (emptyRing
      (mapProfile (fun w => { w with
        spindles := setAt w.spindles i (SpindleRecord.loaded (fld fs 1).toNat (fld fs 2).toNat) }) s))

/-- The command TOOL_SET. -/
def execToolSet (s : State) : Host.Outcome State Fault Refusal :=
  whenRunning (takeRequest 0x31 (withFields [.u8, .u16, .u16] toolSetAnswer)) s

/-- The data of READ TOOLS (R68). -/
def toolsView (s : State) : ToolsView :=
  { spindles := s.profile.spindles, limitCount := s.profile.limitCount, profileHeld := s.line.holds.profile,
    ring := s.profile.ring, drift := s.profile.drift, armed := s.profile.armed }

/-- READ TOOLS (R68). -/
def readToolsAnswer (_ : List Int) (s : State) : Answer := okayWith (.tools (toolsView s)) s

/-- The command READ_TOOLS. -/
def execReadTools (s : State) : Host.Outcome State Fault Refusal :=
  whenRunning (takeRequest 0x32 (withFields [] readToolsAnswer)) s

/-! ### Referrals -/

/-- An answer is taken (R122): the referral ends, the freed slot is filled (R121), and the cutting's resumption starts (R109). -/
def takeAnswer (r : Referral) (result : Bool) (s : State) : State :=
  startResumption { id := r.id, context := r.context, result } (promoteAll (endOutstanding r s))

/-- An answer to a tag and a cutting id, judged against the tag memory (R122). -/
def judgeAnswer (tag : Nat) (id : CuttingId) (result : Bool) (s : State) : Answer :=
  match s.referral.entry tag with
  | none => refuse .noref s
  | some e =>
    if e.id ≠ id then refuse .noref s
    else if e.ended then refuse .late s
    else match s.referral.outstanding.find? (fun r => decide (r.tag = some tag)) with
      | none => refuse .late s
      | some r => okay (takeAnswer r result s)

/-- ANSWER (R122). -/
def answerAnswer (fs : List Int) (s : State) : Answer :=
  if fld fs 0 < 1 then refuse (.field 0) s
  else if fld fs 1 < 1 ∨ Config.lastStripNumber < fld fs 1 then refuse (.field 1) s
  else if 15 < fld fs 2 then refuse (.field 2) s
  else if 1 < fld fs 3 then refuse (.field 3) s
  else judgeAnswer (fld fs 0).toNat { strip := (fld fs 1).toNat, index := (fld fs 2).toNat } (fld fs 3 == 1) s

/-- The command ANSWER; the one byte of the tag is the model's reading (log 11). -/
def execAnswer (s : State) : Host.Outcome State Fault Refusal :=
  whenRunning (takeRequest 0x18 (withFields [.u8, .u32, .u8, .u8] answerAnswer)) s

/-! ### Reads of strips and cuttings -/

/-- READ STRIP (R18): the record with each zone's mm positions (R43). -/
def readStripAnswer (fs : List Int) (s : State) : Answer :=
  if fld fs 0 < 1 ∨ Config.lastStripNumber < fld fs 0 then refuse (.field 0) s
  else match findStrip s (fld fs 0).toNat with
    | none => refuse .notfound s
    | some r => okayWith (.strip r (r.zones.map (fun z => (passMm s z.start, passMm s z.stop)))) s

/-- The command READ_STRIP. -/
def execReadStrip (s : State) : Host.Outcome State Fault Refusal :=
  whenRunning (takeRequest 0x20 (withFields [.u32] readStripAnswer)) s

/-- READ CUTTING (R133): the record, the kept context of a REFERRED cutting (R105), its referral state (R117) and its lug offset; of
two fields out of range the lower index is the one refused (the model's choice: log 35). -/
def readCuttingAnswer (fs : List Int) (s : State) : Answer :=
  if fld fs 0 < 1 ∨ Config.lastStripNumber < fld fs 0 then refuse (.field 0) s
  else if 15 < fld fs 1 then refuse (.field 1) s
  else match findCutting s { strip := (fld fs 0).toNat, index := (fld fs 1).toNat } with
    | none => refuse .notfound s
    | some c => okayWith (.cutting c (keptContext s c.id) (referralView s c.id) (lugOffset s c)) s

/-- The command READ_CUTTING. -/
def execReadCutting (s : State) : Host.Outcome State Fault Refusal :=
  whenRunning (takeRequest 0x21 (withFields [.u32, .u8] readCuttingAnswer)) s

end Sys2Proof.Machine
end

