-- ==== Sys2Proof/Machine/BinCommands.lean ====
section
/-! DEFINITION. The meanings of the commands of the deck, the lug chain, the bins and their bundles (chapters 7 and 8). -/

namespace Sys2Proof.Machine

/-! ### The chain -/

/-- LUG_PULSE (R138). -/
def execLugPulse (present lengthFault : Bool) (s : State) : Host.Outcome State Fault Refusal :=
  whenRunning (takeLugPulse present lengthFault) s

/-- LANDING_EDGE (R142, R144). -/
def execLandingEdge (bin : Bin) (s : State) : Host.Outcome State Fault Refusal := whenRunning (takeLanding bin) s

/-- TRANSFER_PULSE_END (R134). -/
def execTransferPulseEnd (s : State) : Host.Outcome State Fault Refusal :=
  whenRunning (fun s => { s with chain := { s.chain with transferHigh := false } }) s

/-- READ RETURNS (R147). -/
def readReturnsAnswer (_ : List Int) (s : State) : Answer := okayWith (.returns s.chain.lastReturn s.chain.preFlush) s

/-- The command READ_RETURNS. -/
def execReadReturns (s : State) : Host.Outcome State Fault Refusal :=
  whenRunning (takeRequest 0x3A (withFields [] readReturnsAnswer)) s

/-! ### The bin floor -/

/-- BIN EMPTYb changes to active (R155): a bin in CLEARING leaves it and the next bundle opens. -/
def floorClears (b : Bin) (s : State) : State :=
  let s1 := mapBin b (fun r => { r with emptyLevel := true }) s
  if s.bundles.bins[b].state = .clearing then openBundle b s1 else s1

/-- BIN_EMPTY_ACTIVE (R155): an input already active does not change. -/
def execBinEmptyActive (bin : Bin) (s : State) : Host.Outcome State Fault Refusal :=
  whenRunning (fun s => if s.bundles.bins[bin].emptyLevel then s else floorClears bin s) s

/-- BIN_EMPTY_INACTIVE (R155). -/
def execBinEmptyInactive (bin : Bin) (s : State) : Host.Outcome State Fault Refusal :=
  whenRunning (mapBin bin (fun r => { r with emptyLevel := false })) s

/-! ### Requests -/

/-- The data of READ BIN (R172). -/
def binView (s : State) (b : Bin) : BinView :=
  let r := s.bundles.bins[b]
  { state := r.state, emptyLevel := r.emptyLevel, window := s.chain.windows[b], bundle := r.bundle,
    inFlight := match r.bundle with
      | none => 0
      | some bu => bu.count - bu.landedCount }

/-- READ BIN (R172). -/
def readBinAnswer (fs : List Int) (s : State) : Answer :=
  match binOfCode (fld fs 0) with
  | none => refuse (.field 0) s
  | some b => okayWith (.bin (binView s b)) s

/-- The command READ_BIN. -/
def execReadBin (s : State) : Host.Outcome State Fault Refusal :=
  whenRunning (takeRequest 0x22 (withFields [.u8] readBinAnswer)) s

/-- The BUNDLE notice of a bin that changes to a state, when it holds a bundle (R171). -/
def enterBin (e : BundleEvent) (b : Bin) (st : BinState) (s : State) : State :=
  let s1 := mapBin b (fun r => { r with state := st }) s
  match s.bundles.bins[b].bundle with
  | none => s1
  | some bu => bundleNotice e b bu st s1

/-- The state under a hold, as a bin state (R153). -/
def Underlying.toState : Underlying → BinState
  | .opened => .opened
  | .filled => .filled

/-- The tests that a hold deferred (R169): a bundle due for generation close is discarded when it is empty and force-closed as SHORT
otherwise, OPEN or FILLED alike, where one FILLED and SHORT already changes no more (R165); then the closure condition. -/
def deferredTests (b : Bin) (s : State) : State :=
  match s.bundles.bins[b].bundle with
  | none => s
  | some bu =>
    if closeDue s bu = false then closeTest b s
    else if bu.count = 0 then discardBundle b bu s
    else if s.bundles.bins[b].state = .filled ∧ bu.short = true then closeTest b s
    else closeShort b bu s

/-- A hold ends (R169): the underlying state with its RELEASED notice, which carries that state even if the bin moves on at once (the model's
reading: log 21), the deferred tests, and the retiring of the bank that may follow (R198). -/
def endHold (b : Bin) (u : Underlying) (s : State) : State :=
  retireAfter b (fun s => deferredTests b (enterBin .released b u.toState s)) s

/-- BIN HOLD 1 (R168). -/
def holdBin (b : Bin) (s : State) : Answer :=
  match s.bundles.bins[b].state with
  | .opened => okay (enterBin .held b (.held .opened) s)
  | .filled => okay (enterBin .held b (.held .filled) s)
  | .held _ => okay s
  | .idle | .closing | .labelling | .clearing => refuse .state s

/-- BIN HOLD 0 (R168). -/
def releaseBin (b : Bin) (s : State) : Answer :=
  match s.bundles.bins[b].state with
  | .held u => okay (endHold b u s)
  | _ => okay s

/-- BIN HOLD (R168); of two fields out of range the lower index is the one refused (the model's choice: log 35). -/
def binHoldAnswer (fs : List Int) (s : State) : Answer :=
  match binOfCode (fld fs 0) with
  | none => refuse (.field 0) s
  | some b =>
    if fld fs 1 = 1 then holdBin b s
    else if fld fs 1 = 0 then releaseBin b s
    else refuse (.field 1) s

/-- The command BIN_HOLD. -/
def execBinHold (s : State) : Host.Outcome State Fault Refusal :=
  whenRunning (takeRequest 0x23 (withFields [.u8, .u8] binHoldAnswer)) s

/-- A bundle is closed by the host (R165). -/
def forceClose (b : Bin) (bu : Bundle) (s : State) : Answer :=
  if bu.landedCount = 0 then refuse .state s
  else if s.bundles.bins[b].state = .filled ∧ bu.short = true then okay (retireAfter b (closeTest b) s)
  else okay (retireAfter b (closeShort b bu) s)

/-- CLOSE BUNDLE (R165). -/
def closeBundleAnswer (fs : List Int) (s : State) : Answer :=
  match binOfCode (fld fs 0) with
  | none => refuse (.field 0) s
  | some b =>
    match s.bundles.bins[b].state, s.bundles.bins[b].bundle with
    | .opened, some bu | .filled, some bu => forceClose b bu s
    | _, _ => refuse .state s

/-- The command CLOSE_BUNDLE. -/
def execCloseBundle (s : State) : Host.Outcome State Fault Refusal :=
  whenRunning (takeRequest 0x24 (withFields [.u8] closeBundleAnswer)) s

end Sys2Proof.Machine
end

