-- ==== Sys2Proof/Machine/LabelCommands.lean ====
section
/-! DEFINITION. The meanings of the commands of the label line and of the requests of the Label Unit (chapter 9). -/

namespace Sys2Proof.Machine

/-! ### Messages of the labeller -/

/-- A label-line frame that checks leaves the receiver hunting (R204). -/
def labelHunt (s : State) : State := { s with link := { s.link with labelReceiver := .hunting } }

/-- A LABEL fault FRAME with a detail of Table 57 (R185). -/
def labelFrameFault (detail : Nat) (s : State) : State := logFault .label 4 (some detail) .none 0 s

/-- READY with its ready field (R179); another value is a bad body (R185). -/
def takeReady (field : Byte) (s : State) : State :=
  if field = 0 then { s with label := { s.label with readyFlag := false } }
  else if field = 1 then tryPrint { s with label := { s.label with readyFlag := true } }
  else labelFrameFault 4 s

/-- The sequence is the head's (R180, R185). -/
def isHead (s : State) (sequence : Word) : Bool :=
  match s.label.queue with
  | [] => false
  | h :: _ => h.number == sequence

/-- The bin of the head label. -/
def headBin (s : State) : Option Bin := s.label.queue.head?.map LabelRecord.bin

/-- The head becomes ACCEPTED with its dump (R180, R181). -/
def acceptHead (s : State) : State :=
  match headBin s with
  | none => s
  | some b => giveDump b { s with label := { s.label with head := .accepted } }

/-- ACCEPT (R180). -/
def takeAccept (sequence : Word) (s : State) : State :=
  if isHead s sequence then
    match s.label.head with
    | .sent | .faulted .acceptTimeout _ => acceptHead s
    | .waitReady | .accepted | .faulted _ _ => s
  else s

/-- APPLIED (R183). -/
def takeApplied (sequence : Word) (s : State) : State := if isHead s sequence then headLeaves .applied s else s

/-- FAULT with a labeller code (R184); a code of 0 is a bad body (R185). -/
def takeLabelFault (sequence : Word) (code : Byte) (s : State) : State :=
  if code = 0 then labelFrameFault 4 s
  else if isHead s sequence then
    match s.label.head with
    | .sent | .accepted => faultHead .labeller code s
    | .waitReady | .faulted _ _ => s
  else s

/-- READY (R179). -/
def execReady (field : Byte) (s : State) : Host.Outcome State Fault Refusal :=
  whenRunning (fun s => takeReady field (labelHunt s)) s

/-- ACCEPT (R180). -/
def execAccept (sequence : Word) (s : State) : Host.Outcome State Fault Refusal :=
  whenRunning (fun s => takeAccept sequence (labelHunt s)) s

/-- APPLIED (R183). -/
def execApplied (sequence : Word) (s : State) : Host.Outcome State Fault Refusal :=
  whenRunning (fun s => takeApplied sequence (labelHunt s)) s

/-- FAULT (R184). -/
def execFault (sequence : Word) (code : Byte) (s : State) : Host.Outcome State Fault Refusal :=
  whenRunning (fun s => takeLabelFault sequence code (labelHunt s)) s

/-! ### The part's own events -/

/-- The last byte of the PRINT goes out (R179): the head becomes SENT if the label is still the head, and the next PRINT may begin. -/
def printOut (s : State) : State :=
  match s.label.printing with
  | none => s
  | some j =>
    tryPrint { s with label := { s.label with printing := none, head := if j.forHead then .sent else s.label.head } }

/-- PRINT_SENT (R179). -/
def execPrintSent (s : State) : Host.Outcome State Fault Refusal := whenRunning printOut s

/-- ACCEPT_TIMER_EXPIRY (R184): the timer runs only for a SENT head. -/
def execAcceptTimerExpiry (s : State) : Host.Outcome State Fault Refusal :=
  whenRunning (fun s => if s.label.head = .sent then faultHead .acceptTimeout 0 s else s) s

/-- APPLIED_TIMER_EXPIRY (R184): the timer runs only for an ACCEPTED head. -/
def execAppliedTimerExpiry (s : State) : Host.Outcome State Fault Refusal :=
  whenRunning (fun s => if s.label.head = .accepted then faultHead .appliedTimeout 0 s else s) s

/-- DUMP_PULSE_END (R181). -/
def execDumpPulseEnd (bin : Bin) (s : State) : Host.Outcome State Fault Refusal :=
  whenRunning (fun s => { s with label := { s.label with dumpHigh := setAt s.label.dumpHigh bin false } }) s

/-! ### Frames of the label line -/

/-- A frame that checks, by its kind (R185, Table 73). -/
def takeLabelFrame (kind : Byte) (body : List Byte) (s : State) : State :=
  if kind = 0x02#8 then
    match body with
    | [f] => takeReady f s
    | _ => labelFrameFault 4 s
  else if kind = 0x03#8 then
    match body with
    | [a, b, c, d] => takeAccept (value32 a b c d) s
    | _ => labelFrameFault 4 s
  else if kind = 0x04#8 then
    match body with
    | [a, b, c, d] => takeApplied (value32 a b c d) s
    | _ => labelFrameFault 4 s
  else if kind = 0x05#8 then
    match body with
    | [a, b, c, d, code] => takeLabelFault (value32 a b c d) code s
    | _ => labelFrameFault 4 s
  else labelFrameFault 3 s

/-- What a frame the label receiver has ended comes to (R185). Its tag is not looked at: R178 says it is 0, and no rule names a fault for
another (the model's choice: log 41). -/
def labelResult (s : State) (r : RxResult) : State :=
  match r with
  | .badLength => labelFrameFault 1 s
  | .badCrc => labelFrameFault 2 s
  | .frame kind _ body => takeLabelFrame kind body s

/-- Bytes arrive on LABEL RXD (R185, R204). -/
def labelReceive (bytes : List Byte) (s : State) : State :=
  let r := rxBytes s.link.labelReceiver bytes
  r.2.foldl labelResult { s with link := { s.link with labelReceiver := r.1 } }

/-- LABEL_FRAME_ERROR (R185). -/
def execLabelFrameError (bytes : List Byte) (s : State) : Host.Outcome State Fault Refusal :=
  whenRunning (labelReceive bytes) s

/-- LABEL_FRAME_GAP (R185): the partial frame is discarded. -/
def execLabelFrameGap (bytes : List Byte) (s : State) : Host.Outcome State Fault Refusal :=
  whenRunning (fun s => labelHunt (labelReceive bytes s)) s

/-! ### Requests -/

/-- LABEL RETRY and LABEL VOID are judged alike (R186, R187): FIELD for 0, NOTFOUND for another bundle, STATE when not FAULTED. -/
def judgeHead (f : State → State) (fs : List Int) (s : State) : Answer :=
  if fld fs 0 = 0 then refuse (.field 0) s
  else if isHead s (BitVec.ofInt 32 (fld fs 0)) then
    match s.label.head with
    | .faulted _ _ => okay (f s)
    | .waitReady | .sent | .accepted => refuse .state s
  else refuse .notfound s

/-- The head returns to WAIT_READY with its dumped mark kept (R186). -/
def retryHead (s : State) : State := tryPrint { s with label := { s.label with head := .waitReady } }

/-- The command LABEL_RETRY. -/
def execLabelRetry (s : State) : Host.Outcome State Fault Refusal :=
  whenRunning (takeRequest 0x28 (withFields [.u32] (judgeHead retryHead))) s

/-- The command LABEL_VOID (R187). -/
def execLabelVoid (s : State) : Host.Outcome State Fault Refusal :=
  whenRunning (takeRequest 0x29 (withFields [.u32] (judgeHead (headLeaves .voided)))) s

/-- The limit of the running timer in ms (R180): the accept timer of a SENT head, the applied timer of an ACCEPTED one. -/
def HeadState.timerLimit : HeadState → Option Nat
  | .sent => some 250
  | .accepted => some 20000
  | .waitReady | .faulted _ _ => none

/-- The time left on the running timer: a free value from 0 to its limit (R189; log 14). -/
def timeLeft (s : State) : Option Nat :=
  if s.label.queue.isEmpty then none
  else s.label.head.timerLimit.map (fun m => Config.timeLeftMs s.freeCount % (m + 1))

/-- The data of READ LABELS (R189). -/
def labelsView (s : State) : LabelsView :=
  { lot := s.label.lot, nextNumber := s.label.nextNumber, readyFlag := s.label.readyFlag,
    labels := s.label.queue.map (fun l => (l.number, l.bin, l.closeTime)),
    head := s.label.queue.head?.map (fun l => (l, s.label.head, s.label.dumped)),
    timeLeft := timeLeft s, owed := s.label.owed, dispatch := s.label.dispatch }

/-- READ LABELS (R189); the count of free values advances when one was drawn. -/
def readLabelsAnswer (_ : List Int) (s : State) : Answer :=
  okayWith (.labels (labelsView s))
    (if (timeLeft s).isSome then { s with freeCount := s.freeCount + 1 } else s)

/-- The command READ_LABELS. -/
def execReadLabels (s : State) : Host.Outcome State Fault Refusal :=
  whenRunning (takeRequest 0x2A (withFields [] readLabelsAnswer)) s

/-- SET LOT (R188). -/
def setLotAnswer (fs : List Int) (s : State) : Answer :=
  if fld fs 1 = 0 then refuse (.field 1) s
  else okay { s with label := { s.label with lot := (fld fs 0).toNat, nextNumber := BitVec.ofInt 32 (fld fs 1) } }

/-- The command SET_LOT. -/
def execSetLot (s : State) : Host.Outcome State Fault Refusal :=
  whenRunning (takeRequest 0x0B (withFields [.u16, .u32] setLotAnswer)) s

end Sys2Proof.Machine
end

