-- ==== Sys2Proof/Machine/RecipeCommands.lean ====
section
/-! DEFINITION. The meanings of the recipe requests (chapter 10): BEGIN, PUT, COMMIT with its checks, SWITCH, READ. -/

namespace Sys2Proof.Machine

/-! ### RECIPE BEGIN -/

/-- The bank may be loaded (R194). -/
def BankState.loadable : BankState → Bool
  | .empty | .valid | .loading => true
  | .active | .retiring => false

/-- A bank at the start of its loading (R194): every section unloaded, the generation absent. Its counts are 0 (R192) and stay. -/
def Bank.begin (b : Bank) : Bank :=
  { Bank.empty with state := .loading, strips := b.strips, cuttings := b.cuttings, bundles := b.bundles }

/-- RECIPE BEGIN (R194). -/
def beginAnswer (fs : List Int) (s : State) : Answer :=
  match bankOfCode (fld fs 0) with
  | none => refuse (.field 0) s
  | some k => if s.recipe.banks[k].state.loadable then okay (mapBank k Bank.begin s) else refuse .inuse s

/-- The command RECIPE_BEGIN. -/
def execRecipeBegin (s : State) : Host.Outcome State Fault Refusal :=
  whenRunning (takeRequest 0x10 (withFields [.u8] beginAnswer)) s

/-! ### RECIPE PUT -/

/-- What a section's body comes to (R195): a change of the bank, or the index of a FIELD reply. -/
inductive PutResult where
  | store (f : Bank → Bank)
  | bad (index : Nat)

/-- A section of fixed layout (R195). -/
def putFixed (layout : List FieldSize) (body : List Byte) (f : List Int → Bank → Bank) : PutResult :=
  match parseFields layout body with
  | none => .bad 1
  | some fs => .store (f fs)

/-- A natural field. -/
def natFld (fs : List Int) (i : Nat) : Nat := (fld fs i).toNat

/-- The CUT section (Table 61). -/
def cutOf (fs : List Int) : CutSection :=
  { tl := natFld fs 0, tt := natFld fs 1, k := natFld fs 2, g := natFld fs 3, ae := natFld fs 4, tc := natFld fs 5, nominalWidth := natFld fs 6 }

/-- Grade i of a GRADES section (R97). -/
def gradeOf (fs : List Int) (i : Nat) : GradeEntry :=
  { code := natFld fs (4 * i), first := natFld fs (4 * i + 1), count := natFld fs (4 * i + 2), verdict := natFld fs (4 * i + 3) }

/-- Entry i of a TESTS run (Table 34). -/
def testOf (fs : List Int) (i : Nat) : TestEntry :=
  { feature := natFld fs (8 * i), op := natFld fs (8 * i + 1), a := fld fs (8 * i + 2), b := fld fs (8 * i + 3),
    dest := natFld fs (8 * i + 4), combine := natFld fs (8 * i + 5), negate := natFld fs (8 * i + 6), absent := natFld fs (8 * i + 7) }

/-- The plan entry of bin b (Table 50). -/
def binPlanOf (fs : List Int) (b : Nat) : BinPlan :=
  { grade := natFld fs (9 * b), classLow := natFld fs (9 * b + 1), classHigh := natFld fs (9 * b + 2), ct := natFld fs (9 * b + 3),
    tolLo := natFld fs (9 * b + 4), tolHi := natFld fs (9 * b + 5), s := natFld fs (9 * b + 6), pmax := natFld fs (9 * b + 7),
    nmax := natFld fs (9 * b + 8) }

/-- The PROFILE section (Table 61). -/
def profileOf (fs : List Int) : ProfileSection :=
  { windows := Vector.ofFn (fun i : Fin 4 =>
      { w1 := fld fs (4 * i.val), w2 := fld fs (4 * i.val + 1), m1 := fld fs (4 * i.val + 2), m2 := fld fs (4 * i.val + 3) }),
    tongueNominal := natFld fs 16, driftLimit := natFld fs 17, stopCount := natFld fs 18 }

/-- A run of entries written into the pool, which leaves every other entry (R193). -/
def putRun (start n : Nat) (fs : List Int) (b : Bank) : Bank :=
  { b with tests := Vector.ofFn (fun i : Fin 64 =>
      if start ≤ i.val ∧ i.val < start + n then some (testOf fs (i.val - start)) else b.tests[i]) }

/-- The LENGTHS section (R195): the count, then the lengths. A count above 12 is refused by its index whatever the body's size (the model's
reading: log 22). -/
def putLengths : List Byte → PutResult
  | [] => .bad 1
  | n :: rest =>
    if 12 < n.toNat then .bad 2
    else putFixed (repeatLayout n.toNat [.u16]) rest (fun fs b => { b with lengths := some (fs.map Int.toNat) })

/-- The GRADES section (R195): the count, then the grades, judged as in `putLengths` (log 22). -/
def putGrades : List Byte → PutResult
  | [] => .bad 1
  | n :: rest =>
    if 8 < n.toNat then .bad 2
    else putFixed (repeatLayout n.toNat gradeLayout) rest
      (fun fs b => { b with grades := some ((List.range n.toNat).map (gradeOf fs)) })

/-- The TESTS section (R195): the starting index, the run length, then the entries. A starting index above 63, a run length of 0 and a run past
entry 63 each give the count's own index, that of the run length, 3 (R195, step 3), judged ahead of the size as in `putLengths`. -/
def putTests : List Byte → PutResult
  | st :: n :: rest =>
    if 63 < st.toNat ∨ n = 0 ∨ 64 < st.toNat + n.toNat then .bad 3
    else putFixed (repeatLayout n.toNat testLayout) rest (putRun st.toNat n.toNat)
  | _ => .bad 1

/-- The contents of one section, by its code (Table 61, R195). -/
def putSection (sec : Nat) (body : List Byte) : PutResult :=
  match sec with
  | 0 => putFixed (repeatLayout 7 [.u16]) body (fun fs b => { b with cut := some (cutOf fs) })
  | 1 => putLengths body
  | 2 => putGrades body
  | 3 => putTests body
  | 4 => putFixed (repeatLayout 8 binLayout) body
      (fun fs b => { b with bins := some (Vector.ofFn (fun i : Fin 8 => binPlanOf fs i.val)) })
  | 5 => putFixed (repeatLayout 16 [.s32] ++ [.u16, .u16, .u16]) body (fun fs b => { b with profile := some (profileOf fs) })
  | _ => putFixed [.u16] body (fun fs b => { b with cover := some (natFld fs 0) })

/-- A section for a bank (R195, steps 2 and 3). -/
def putInto (k : BankId) (sec : Nat) (body : List Byte) (s : State) : Answer :=
  if s.recipe.banks[k].state = .loading then
    match putSection sec body with
    | .bad i => refuse (.field i) s
    | .store f => okay (mapBank k f s)
  else refuse .state s

/-- RECIPE PUT (R195); a body without a bank or without a section is refused with FIELD 1, as one of a wrong size (the model's reading: log
22). -/
def putAnswer (r : Request) (s : State) : Answer :=
  match r.body with
  | [] => refuse (.field 1) s
  | b :: more =>
    match bankOfCode b.toNat with
    | none => refuse (.field 0) s
    | some k =>
      match more with
      | [] => refuse (.field 1) s
      | sec :: body => if 6 < sec.toNat then refuse (.field 1) s else putInto k sec.toNat body s

/-- The command RECIPE_PUT. -/
def execRecipePut (s : State) : Host.Outcome State Fault Refusal := whenRunning (takeRequest 0x11 putAnswer) s

/-! ### RECIPE COMMIT -/

/-- One check of Table 62: its section, its item, and whether it passes. -/
structure CommitCheck where
  sec : Nat
  item : Nat
  ok : Bool
  deriving DecidableEq, Repr

/-- A value lies in a range, both ends included. -/
def within (lo hi n : Nat) : Bool := decide (lo ≤ n ∧ n ≤ hi)

/-- The checks of the CUT section. -/
def cutChecks : Option CutSection → List CommitCheck
  | none => [⟨0, 0, false⟩]
  | some c =>
    [⟨0, 1, within 0 200 c.tl⟩, ⟨0, 2, within 0 200 c.tt⟩, ⟨0, 3, within 1 8 c.k⟩, ⟨0, 4, within 0 50 c.g⟩,
     ⟨0, 5, within 0 30 c.ae⟩, ⟨0, 6, within 1 9 c.tc⟩, ⟨0, 7, within 2000 25000 c.nominalWidth⟩]

/-- The items of the lengths, from item i on, each above the one before. -/
def lengthItems : Nat → Nat → List Nat → List CommitCheck
  | _, _, [] => []
  | i, prev, n :: ns => ⟨1, i, within 150 3000 n && decide (prev < n)⟩ :: lengthItems (i + 1) n ns

/-- The checks of the LENGTHS section; item 13 against the Dr in force. -/
def lengthChecks (dr ae : Nat) : Option (List Nat) → List CommitCheck
  | none | some [] => [⟨1, 0, false⟩]
  | some (n :: ns) => lengthItems 1 0 (n :: ns) ++ [⟨1, 13, decide (dr ≤ n + ae)⟩]

/-- A grade passes (Table 62). -/
def gradeOk (tests : Vector (Option TestEntry) 64) (g : GradeEntry) : Bool :=
  within 1 254 g.code && within 0 16 g.count && within 0 15 g.verdict && decide (g.first + g.count ≤ 64) &&
    (gradeRange g).all (fun i => ((tests[i]?).join).isSome)

/-- The checks of the GRADES section. -/
def gradeChecks (tests : Vector (Option TestEntry) 64) : Option (List GradeEntry) → List CommitCheck
  | none | some [] => [⟨2, 0, false⟩]
  | some gs => gs.zipIdx.map (fun p => ⟨2, p.2 + 1, gradeOk tests p.1⟩)

/-- A test entry passes (Table 62). -/
def testOk (e : TestEntry) : Bool :=
  (within 0 13 e.feature || within 16 23 e.feature) && within 0 3 e.op && within 0 1 e.dest && within 0 3 e.combine &&
    within 0 1 e.negate && within 0 2 e.absent

/-- The checks of the TESTS section: loaded entries alone. -/
def testChecks (tests : Vector (Option TestEntry) 64) : List CommitCheck :=
  tests.toList.zipIdx.filterMap (fun p => p.1.map (fun e => ⟨3, p.2 + 1, testOk e⟩))

/-- A bin plan entry passes (Table 62); one whose grade is NONE is passed over. -/
def binOk (grades lengths : Nat) (e : BinPlan) : Bool :=
  e.grade == gradeNone ||
    (decide (e.grade < grades) && decide (e.classLow ≤ e.classHigh) && decide (e.classHigh < lengths) &&
      within 100000 5000000 e.ct && decide (e.tolLo < e.ct) && decide (e.tolHi ≤ 1000000) && decide (e.s ≤ 3000) &&
      decide (e.pmax ≤ 100) && within 1 1000 e.nmax)

/-- The checks of the BINS section. -/
def binChecks (grades lengths : Nat) : Option (Vector BinPlan 8) → List CommitCheck
  | none => [⟨4, 0, false⟩]
  | some v => v.toList.zipIdx.map (fun p => ⟨4, p.2 + 1, binOk grades lengths p.1⟩)

/-- The windows of a role are in order (Table 62). -/
def windowOk (w : ProfileWindow) : Bool := decide (w.m1 ≤ w.w1 ∧ w.w1 ≤ w.w2 ∧ w.w2 ≤ w.m2)

/-- The checks of the PROFILE section. -/
def profileChecks : Option ProfileSection → List CommitCheck
  | none => [⟨5, 0, false⟩]
  | some p =>
    p.windows.toList.zipIdx.map (fun x => ⟨5, x.2 + 1, windowOk x.1⟩) ++
      [⟨5, 5, within 0 10000 p.tongueNominal⟩, ⟨5, 6, within 0 1000 p.driftLimit⟩, ⟨5, 7, within 1 8 p.stopCount⟩]

/-- The checks of the COVER section. -/
def coverChecks : Option Nat → List CommitCheck
  | none => [⟨6, 0, false⟩]
  | some w => [⟨6, 1, within 20 250 w⟩]

/-- The checks of Table 62 in the order of the table (R196). -/
def commitChecks (dr : Nat) (b : Bank) : List CommitCheck :=
  cutChecks b.cut ++ lengthChecks dr ((b.cut.map CutSection.ae).getD 0) b.lengths ++ gradeChecks b.tests b.grades ++
    testChecks b.tests ++ binChecks (b.grades.getD []).length (b.lengths.getD []).length b.bins ++ profileChecks b.profile ++
    coverChecks b.cover

/-- The first check that fails (R196). -/
def firstFailure (l : List CommitCheck) : Option CommitCheck := l.find? (fun c => !c.ok)

/-- A generation plus one, from 65535 to 1 (R197). -/
def nextGeneration (g : Nat) : Nat := if g = 65535 then 1 else g + 1

/-- The generation a bank holds in VALID, ACTIVE or RETIRING (R197). -/
def Bank.heldGeneration (b : Bank) : Option Nat :=
  match b.state with
  | .valid | .active | .retiring => b.generation
  | .empty | .loading => none

/-- The counter after giving a generation: it passes over the other bank's (R197). -/
def advanceCounter (other : Bank) (g : Nat) : Nat :=
  let n := nextGeneration g
  if other.heldGeneration = some n then nextGeneration n else n

/-- The other bank. -/
def otherBank (k : BankId) : BankId := if k = 0 then 1 else 0

/-- A bank passes its commit (R196, R197). -/
def commitBank (k : BankId) (s : State) : State :=
  let g := s.recipe.counter
  let s1 := mapBank k (fun b => { b with state := .valid, generation := some g }) s
  { s1 with recipe := { s1.recipe with counter := advanceCounter s.recipe.banks[otherBank k] g } }

/-- RECIPE COMMIT (R196). -/
def commitAnswer (fs : List Int) (s : State) : Answer :=
  match bankOfCode (fld fs 0) with
  | none => refuse (.field 0) s
  | some k =>
    if s.recipe.banks[k].state = .loading then
      match firstFailure (commitChecks s.inForce.motion.dr s.recipe.banks[k]) with
      | some c => refuse (.invalid c.sec c.item) s
      | none => okayWith (.generation s.recipe.counter) (commitBank k s)
    else refuse .state s

/-- The command RECIPE_COMMIT. -/
def execRecipeCommit (s : State) : Host.Outcome State Fault Refusal :=
  whenRunning (takeRequest 0x12 (withFields [.u8] commitAnswer)) s

/-! ### RECIPE SWITCH -/

/-- The bank that was ACTIVE becomes RETIRING, or VALID when nothing refers to it (R199, step 1). -/
def Bank.stepDown (b : Bank) : Bank := { b with state := if 0 < b.references then .retiring else .valid }

/-- Steps 1 to 3 of a switch (R199): the states of the banks, the empty ring, the SWITCHED notice. -/
def switchBanks (k : BankId) (prev : Option BankId) (s : State) : State :=
  let s1 := match prev with
    | none => s
    | some p => mapBank p Bank.stepDown s
  let s2 := emptyRing (mapBank k (fun b => { b with state := .active }) s1)
  offer (.recipe (.switched k ((s2.recipe.banks[k].generation).getD 0) prev (prev.map (fun p => s2.recipe.banks[p].state)))
    s2.link.clock) s2

/-- A bundle opens in an IDLE bin (R154, R199, step 5). -/
def openIdle (s : State) (b : Bin) : State := if s.bundles.bins[b].state = .idle then openBundle b s else s

/-- The previous bank may retire when its last bundle has gone (R199, step 6). -/
def retirePrev (prev : Option BankId) (s : State) : State :=
  match prev with
  | none => s
  | some p => retireCheck p s

/-- The effects of a switch, in the order of R199. -/
def takeSwitch (k : BankId) (s : State) : State :=
  let prev := activeBank s
  retirePrev prev (genClose (allBins.foldl openIdle (standbyTest (switchBanks k prev s))))

/-- RECIPE SWITCH (R199). -/
def switchAnswer (fs : List Int) (s : State) : Answer :=
  match bankOfCode (fld fs 0) with
  | none => refuse (.field 0) s
  | some k => if s.recipe.banks[k].state = .valid then okay (takeSwitch k s) else refuse .state s

/-- The command RECIPE_SWITCH. -/
def execRecipeSwitch (s : State) : Host.Outcome State Fault Refusal :=
  whenRunning (takeRequest 0x13 (withFields [.u8] switchAnswer)) s

/-! ### RECIPE READ -/

/-- The head of a RECIPE READ reply (R200). -/
def bankView (s : State) (k : BankId) : BankView :=
  let b := s.recipe.banks[k]
  { state := b.state, generation := b.generation, strips := b.strips, cuttings := b.cuttings, bundles := b.bundles,
    references := b.references, counter := s.recipe.counter }

/-- The contents of a section other than TESTS (R200). -/
def sectionView (b : Bank) (sec : Nat) : SectionView :=
  match sec with
  | 0 => .cut b.cut
  | 1 => .lengths b.lengths
  | 2 => .grades b.grades
  | 4 => .bins b.bins
  | 5 => .profile b.profile
  | _ => .cover b.cover

/-- RECIPE READ of a section other than TESTS (R200). -/
def readSection (k sec : Nat) (s : State) : Answer :=
  match bankOfCode k with
  | none => refuse (.field 0) s
  | some b => if 6 < sec then refuse (.field 1) s
    else okayWith (.recipe (bankView s b) (sectionView s.recipe.banks[b] sec)) s

/-- RECIPE READ of a run of tests (R200); of several fields out of range the lowest index is the one refused, and a run of good start and count
that goes past entry 63 gives the count's index, 3 (the model's choices: log 35). The reply gives each entry with its loaded mark and no mark for
the section as a whole (the model's choice: log 49). -/
def readTests (k start n : Nat) (s : State) : Answer :=
  match bankOfCode k with
  | none => refuse (.field 0) s
  | some b =>
    if 63 < start then refuse (.field 2) s
    else if n = 0 ∨ 64 < start + n then refuse (.field 3) s
    else okayWith (.recipe (bankView s b) (.tests ((s.recipe.banks[b].tests.toList.drop start).take n))) s

/-- RECIPE READ (R200): TESTS takes four bytes, every other section two (R206). -/
def readAnswer (r : Request) (s : State) : Answer :=
  match r.body with
  | [k, sec] => if sec = 3 then refuse .frame s else readSection k.toNat sec.toNat s
  | [k, sec, start, n] => if sec = 3 then readTests k.toNat start.toNat n.toNat s else refuse .frame s
  | _ => refuse .frame s

/-- The command RECIPE_READ. -/
def execRecipeRead (s : State) : Host.Outcome State Fault Refusal := whenRunning (takeRequest 0x14 readAnswer) s

end Sys2Proof.Machine
end

