-- ==== Sys2Proof/Machine/LinkCommands.lean ====
section
/-! DEFINITION. The meanings of the commands of the line link: its frames, the request queue, the transmitter, the clock, configuration,
status, the mask and the fault records (chapter 11). -/

namespace Sys2Proof.Machine

/-! ### Frames and the request queue -/

/-- A LINK fault FRAME with a detail of Table 70. -/
def linkFrameFault (detail : Nat) (s : State) : State := logFault .link 1 (some detail) .none 0 s

/-- A checked request frame joins the queue, or is discarded with OVERRUN (R205). -/
def joinQueue (r : Request) (s : State) : State :=
  if s.link.requests.length < Config.requestCapacity then { s with link := { s.link with requests := s.link.requests ++ [r] } }
  else logFault .link 2 (some r.kind.toNat) .none 0 s

/-- A checked frame on the line link (R204, R205). -/
def takeLinkFrame (r : Request) (s : State) : State := if isRequestKind r.kind then joinQueue r s else linkFrameFault 3 s

/-- What a frame the receiver has ended comes to (R204). -/
def linkResult (s : State) (r : RxResult) : State :=
  match r with
  | .badLength => linkFrameFault 1 s
  | .badCrc => linkFrameFault 2 s
  | .frame kind tag body => takeLinkFrame { kind, tag, body } s

/-- Bytes arrive on LINK RXD (R204). -/
def linkReceive (bytes : List Byte) (s : State) : State :=
  let r := rxBytes s.link.receiver bytes
  r.2.foldl linkResult { s with link := { s.link with receiver := r.1 } }

/-- The line-link receiver hunts (R204). -/
def linkHunt (s : State) : State := { s with link := { s.link with receiver := .hunting } }

/-- LINK_FRAME_GAP (R204): the partial frame is discarded without a fault. -/
def execLinkFrameGap (bytes : List Byte) (s : State) : Host.Outcome State Fault Refusal :=
  whenRunning (fun s => linkHunt (linkReceive bytes s)) s

/-- LINK_FRAME_ERROR (R204). -/
def execLinkFrameError (bytes : List Byte) (s : State) : Host.Outcome State Fault Refusal :=
  whenRunning (linkReceive bytes) s

/-- REQUEST_RECEIVED (R205): a body that no frame can carry is a bad length (R204). -/
def execRequestReceived (kind tag : Byte) (body : List Byte) (s : State) : Host.Outcome State Fault Refusal :=
  whenRunning (fun s =>
    if 1022 < body.length then linkFrameFault 1 (linkHunt s) else takeLinkFrame { kind, tag, body } (linkHunt s)) s

/-- FRAME_SENT (R207): the frame being sent is gone; a notice frees its entry with it. -/
def execFrameSent (s : State) : Host.Outcome State Fault Refusal :=
  whenRunning (fun s => { s with link := { s.link with tx := s.link.tx.drop 1 } }) s

/-- UNKNOWN_REQUEST (R206): the request at the head is of a kind that Table 67 does not assign. -/
def takeUnknown (s : State) : State :=
  match s.link.requests with
  | [] => s
  | r :: _ => if assignedKinds.contains r.kind then s else reply r .unknown .none s

/-- The command UNKNOWN_REQUEST. -/
def execUnknownRequest (s : State) : Host.Outcome State Fault Refusal := whenRunning takeUnknown s

/-! ### The clock -/

/-- CLOCK_SECOND (R213). -/
def execClockSecond (s : State) : Host.Outcome State Fault Refusal :=
  whenRunning (fun s => { s with link := { s.link with clock := s.link.clock + 1, phase := 0 } }) s

/-- SET CLOCK (R213). -/
def setClockAnswer (fs : List Int) (s : State) : Answer :=
  okay { s with link := { s.link with clock := BitVec.ofInt 32 (fld fs 0), phase := 0 } }

/-- The command SET_CLOCK. -/
def execSetClock (s : State) : Host.Outcome State Fault Refusal :=
  whenRunning (takeRequest 0x0A (withFields [.u32] setClockAnswer)) s

/-! ### Identity, status, mask -/

/-- IDENTIFY (R212). -/
def identifyAnswer (_ : List Int) (s : State) : Answer :=
  okayWith (.identity Config.vendorCode Config.partCode Config.siliconRevision Config.linkVersion) s

/-- The command IDENTIFY. -/
def execIdentify (s : State) : Host.Outcome State Fault Refusal :=
  whenRunning (takeRequest 0x01 (withFields [] identifyAnswer)) s

/-- The data of STATUS (R212). -/
def statusData (s : State) : StatusData :=
  { line := s.line.state, holds := s.line.holds, estopLevel := s.line.estopLevel,
    travel := s.motion.travel, mark := s.motion.mark, lug := s.motion.lug,
    strips := s.belt.strips.length, plannerQueue := s.planner.queue.length, fireEntries := s.saw.entries.length,
    freeRecords := freeRecords s, deckCount := s.chain.deck.length,
    outstanding := s.referral.outstanding.length, waiting := s.referral.waiting.length,
    labels := s.label.queue.length, head := if s.label.queue.isEmpty then none else some s.label.head,
    banks := s.recipe.banks.map Bank.state, counter := s.recipe.counter, marks := s.inForce.marks,
    faults := #v[s.link.belt.first.isSome, s.link.chain.first.isSome, s.link.label.first.isSome, s.link.link.first.isSome],
    notices := s.link.noticeCount, dropped := s.link.dropped, clock := s.link.clock }

/-- STATUS (R212): with the clear flag the dropped-notice count becomes 0 after it is reported. -/
def statusAnswer (fs : List Int) (s : State) : Answer :=
  if fld fs 0 = 0 then okayWith (.status (statusData s)) s
  else if fld fs 0 = 1 then okayWith (.status (statusData s)) { s with link := { s.link with dropped := 0 } }
  else refuse (.field 0) s

/-- The command STATUS. -/
def execStatus (s : State) : Host.Outcome State Fault Refusal :=
  whenRunning (takeRequest 0x02 (withFields [.u8] statusAnswer)) s

/-- NOTICE MASK (R208). -/
def maskAnswer (fs : List Int) (s : State) : Answer :=
  if 2047 < fld fs 0 then refuse (.field 0) s
  else okay { s with link := { s.link with mask := BitVec.ofInt 11 (fld fs 0) } }

/-- The command NOTICE_MASK. -/
def execNoticeMask (s : State) : Host.Outcome State Fault Refusal :=
  whenRunning (takeRequest 0x09 (withFields [.u16] maskAnswer)) s

/-! ### Fault records -/

/-- READ FAULT (R211). -/
def readFaultAnswer (fs : List Int) (s : State) : Answer :=
  match FaultBook.ofCode (fld fs 0) with
  | none => refuse (.field 0) s
  | some b => okayWith (.fault (s.link.record b)) s

/-- The command READ_FAULT. -/
def execReadFault (s : State) : Host.Outcome State Fault Refusal :=
  whenRunning (takeRequest 0x38 (withFields [.u8] readFaultAnswer)) s

/-- CLEAR FAULT (R211). -/
def clearFaultAnswer (fs : List Int) (s : State) : Answer :=
  match FaultBook.ofCode (fld fs 0) with
  | none => refuse (.field 0) s
  | some b => okay { s with link := s.link.setRecord b FaultRecord.empty }

/-- The command CLEAR_FAULT. -/
def execClearFault (s : State) : Host.Outcome State Fault Refusal :=
  whenRunning (takeRequest 0x39 (withFields [.u8] clearFaultAnswer)) s

/-! ### Configuration -/

/-- One check of a CONFIGURE section: the field's index and whether it passes (R209). -/
abbrev FieldCheck := Nat × Bool

/-- The first field that fails, in ascending index (R209). -/
def firstBad (l : List FieldCheck) : Option Nat := (l.find? (fun c => !c.2)).map Prod.fst

/-- A field lies in a range, both ends included. -/
def inRange (lo hi v : Int) : Bool := decide (lo ≤ v ∧ v ≤ hi)

/-- A bank that is VALID, ACTIVE or RETIRING allows a Dr (R201). -/
def Bank.allowsDr (dr : Int) (b : Bank) : Bool :=
  match b.state with
  | .valid | .active | .retiring =>
    match b.lengths, b.cut with
    | some (n :: _), some c => decide (dr ≤ (n : Int) + c.ae)
    | _, _ => true
  | .empty | .loading => true

/-- The checks of the MOTION section (Table 69, R201); the contents' field i is field i + 1 of the request. -/
def motionChecks (s : State) (fs : List Int) : List FieldCheck :=
  [(1, inRange 655 131072 (fld fs 0)), (2, inRange 1 1000000 (fld fs 1)),
   (3, inRange 1 1000000 (fld fs 2) && decide (fld fs 1 < fld fs 2)), (4, inRange 1 1000000 (fld fs 3)),
   (5, inRange 1 1000000 (fld fs 4) && decide (fld fs 3 < fld fs 4)), (6, inRange 0 1023 (fld fs 5)),
   (7, inRange 0 4095 (fld fs 6)),
   (8, inRange 20 1000 (fld fs 7) && s.recipe.banks.toList.all (Bank.allowsDr (fld fs 7)))]

/-- The MOTION section (Table 69). -/
def motionOf (fs : List Int) : MotionConfig :=
  { k := natFld fs 0, offSH := natFld fs 1, offSE := natFld fs 2, dSL := natFld fs 3, dXE := natFld fs 4, slip := natFld fs 5,
    reverse := natFld fs 6, dr := natFld fs 7 }

/-- The role code of channel c, unless it is NONE. -/
def roleCode (fs : List Int) (c : Nat) : Option Int := if fld fs (8 * c + 3) = 10 then none else some (fld fs (8 * c + 3))

/-- The checks of one channel (Table 14, R28, R41). -/
def channelChecks (fs : List Int) (c : Nat) : List FieldCheck :=
  [(1 + 8 * c, inRange 0 3 (fld fs (8 * c))), (2 + 8 * c, inRange (-100000) 100000 (fld fs (8 * c + 1))),
   (3 + 8 * c, inRange (-1000000) 1000000 (fld fs (8 * c + 2))),
   (4 + 8 * c, inRange 0 10 (fld fs (8 * c + 3)) &&
     (List.range c).all (fun d => (roleCode fs c).isNone || roleCode fs d != roleCode fs c)),
   (5 + 8 * c, inRange 0 4 (fld fs (8 * c + 4))),
   (7 + 8 * c, fld fs (8 * c + 4) == 0 || decide (fld fs (8 * c + 5) ≤ fld fs (8 * c + 6))),
   (8 + 8 * c, inRange 0 1 (fld fs (8 * c + 7)))]

/-- The setup of channel c (Table 14). -/
def channelOf (fs : List Int) (c : Nat) : ChannelSetup :=
  { range := natFld fs (8 * c), base := fld fs (8 * c + 1), span := fld fs (8 * c + 2),
    role := (Role.ofCode (fld fs (8 * c + 3))).getD .none, mode := (CompMode.ofCode (fld fs (8 * c + 4))).getD .off,
    l1 := fld fs (8 * c + 5), l2 := fld fs (8 * c + 6), action := (CompAction.ofCode (fld fs (8 * c + 7))).getD .mark }

/-- The checks of the SCAN section (Table 69). -/
def scanChecks (fs : List Int) : List FieldCheck :=
  (1, inRange 1 16 (fld fs 0)) ::
    ((List.range 16).map (fun i : Nat => (i + 2, decide (fld fs 0 ≤ (i : Int)) || inRange 0 15 (fld fs (i + 1)))) ++
      [(18, inRange 1 255 (fld fs 17)), (19, inRange 0 255 (fld fs 18)), (20, inRange 0 32 (fld fs 19))])

/-- The SCAN section (Table 69). -/
def scanOf (fs : List Int) : ScanConfig :=
  { count := natFld fs 0, slots := Vector.ofFn (fun i : Fin 16 => natFld fs (i.val + 1)), pitch := natFld fs 17,
    lag := natFld fs 18, endExcl := natFld fs 19 }

/-- The checks of the DECK section (R136). -/
def deckChecks (fs : List Int) : List FieldCheck := [(1, inRange 1 12 (fld fs 0)), (2, decide (fld fs 1 < fld fs 0))]

/-- The DECK section. -/
def deckOf (fs : List Int) : DeckConfig := { high := natFld fs 0, low := natFld fs 1 }

/-- The checks of the CHAIN section (Table 69, R209): each offset above the one before, the last below `chainLen`. -/
def chainChecks (fs : List Int) : List FieldCheck :=
  (1, inRange 8 64 (fld fs 0)) :: (2, decide (1 ≤ fld fs 1)) ::
    (List.range 8).map (fun i : Nat =>
      (i + 3, decide (fld fs (i + 1) < fld fs (i + 2)) && (i != 7 || decide (fld fs 9 < fld fs 0))))

/-- The CHAIN section. -/
def chainOf (fs : List Int) : ChainConfig :=
  { chainLen := natFld fs 0, offTN := natFld fs 1, offD := Vector.ofFn (fun i : Fin 8 => natFld fs (i.val + 2)) }

/-- The checks of a section (R209). -/
def sectionChecks (s : State) (sec : Nat) (fs : List Int) : List FieldCheck :=
  match sec with
  | 0 => motionChecks s fs
  | 1 => (List.range 16).flatMap (channelChecks fs)
  | 2 => scanChecks fs
  | 3 => deckChecks fs
  | _ => chainChecks fs

/-- The configuration with a section's values replaced and its mark set (R209). -/
def installSection (sec : Nat) (fs : List Int) (c : Configuration) : Configuration :=
  match sec with
  | 0 => { c with motion := motionOf fs, marks := setAt c.marks 0 true }
  | 1 => { c with channels := Vector.ofFn (fun i : Fin 16 => channelOf fs i.val), marks := setAt c.marks 1 true }
  | 2 => { c with scan := scanOf fs, marks := setAt c.marks 2 true }
  | 3 => { c with deck := deckOf fs, marks := setAt c.marks 3 true }
  | _ => { c with chain := chainOf fs, marks := setAt c.marks 4 true }

/-- CONFIGURE is taken in STANDBY and READY (R209). -/
def LineState.configurable : LineState → Bool
  | .standby | .ready => true
  | .run | .drain | .estop => false

/-- A section of good size, judged field by field (R209): accepted, its values are in force at once, and the test of R5 follows. They reach the
blocks at the next strip created, in `createStrip`. -/
def configureSection (sec : Nat) (fs : List Int) (s : State) : Answer :=
  match firstBad (sectionChecks s sec fs) with
  | some i => refuse (.field i) s
  | none => okay (standbyTest { s with inForce := installSection sec fs s.inForce })

/-- CONFIGURE (R209): the size is that which the section's code calls for (R206). -/
def configureAnswer (r : Request) (s : State) : Answer :=
  match r.body with
  | [] => refuse .frame s
  | sec :: body =>
    match configLayout sec.toNat with
    | none => if s.line.state.configurable then refuse (.field 0) s else refuse .state s
    | some layout =>
      match parseFields layout body with
      | none => refuse .frame s
      | some fs => if s.line.state.configurable then configureSection sec.toNat fs s else refuse .state s

/-- The command CONFIGURE. -/
def execConfigure (s : State) : Host.Outcome State Fault Refusal := whenRunning (takeRequest 0x03 configureAnswer) s

/-- The contents of a section, by its code (R210). -/
def configView (c : Configuration) (sec : Int) : Option (Fin 5 × ConfigView) :=
  match sec with
  | 0 => some (0, .motion c.motion)
  | 1 => some (1, .channels c.channels)
  | 2 => some (2, .scan c.scan)
  | 3 => some (3, .deck c.deck)
  | 4 => some (4, .chain c.chain)
  | _ => none

/-- READ CONFIG (R210). -/
def readConfigAnswer (fs : List Int) (s : State) : Answer :=
  match configView s.inForce (fld fs 0) with
  | none => refuse (.field 0) s
  | some (i, v) => okayWith (.config s.inForce.marks[i] v s.inForce.marks) s

/-- The command READ_CONFIG. -/
def execReadConfig (s : State) : Host.Outcome State Fault Refusal :=
  whenRunning (takeRequest 0x04 (withFields [.u8] readConfigAnswer)) s

end Sys2Proof.Machine
end

