-- ==== Sys2Proof/Machine/Dispatch.lean ====
section
/-! DEFINITION. The dispatch: one arm for each command of spec/opcode_table.json, in the table's order. -/

namespace Sys2Proof.Machine

def exec (i : Instr) (s : State) : Host.Outcome State Fault Refusal :=
  match i with
  | .powerOn estop binEmpty => Sys2Proof.Machine.execPowerOn estop binEmpty s
  | .resetLine => Sys2Proof.Machine.execResetLine s
  | .eStopActive => Sys2Proof.Machine.execEStopActive s
  | .eStopInactive => Sys2Proof.Machine.execEStopInactive s
  | .encForwardStep gate => Sys2Proof.Machine.execEncForwardStep gate s
  | .encReverseStep => Sys2Proof.Machine.execEncReverseStep s
  | .ieLeadingEdge gate => Sys2Proof.Machine.execIeLeadingEdge gate s
  | .ieTrailingEdge => Sys2Proof.Machine.execIeTrailingEdge s
  | .seLeadingEdge => Sys2Proof.Machine.execSeLeadingEdge s
  | .seTrailingEdge => Sys2Proof.Machine.execSeTrailingEdge s
  | .conversionComplete inputs => Sys2Proof.Machine.execConversionComplete inputs s
  | .processingComplete => Sys2Proof.Machine.execProcessingComplete s
  | .resumptionRunEnd => Sys2Proof.Machine.execResumptionRunEnd s
  | .lugPulse present lengthFault => Sys2Proof.Machine.execLugPulse present lengthFault s
  | .landingEdge bin => Sys2Proof.Machine.execLandingEdge bin s
  | .binEmptyActive bin => Sys2Proof.Machine.execBinEmptyActive bin s
  | .sawPulseEnd => Sys2Proof.Machine.execSawPulseEnd s
  | .transferPulseEnd => Sys2Proof.Machine.execTransferPulseEnd s
  | .dumpPulseEnd bin => Sys2Proof.Machine.execDumpPulseEnd bin s
  | .ready field => Sys2Proof.Machine.execReady field s
  | .printSent => Sys2Proof.Machine.execPrintSent s
  | .accept sequence => Sys2Proof.Machine.execAccept sequence s
  | .applied sequence => Sys2Proof.Machine.execApplied sequence s
  | .fault sequence code => Sys2Proof.Machine.execFault sequence code s
  | .acceptTimerExpiry => Sys2Proof.Machine.execAcceptTimerExpiry s
  | .appliedTimerExpiry => Sys2Proof.Machine.execAppliedTimerExpiry s
  | .labelFrameError bytes => Sys2Proof.Machine.execLabelFrameError bytes s
  | .labelFrameGap bytes => Sys2Proof.Machine.execLabelFrameGap bytes s
  | .linkFrameGap bytes => Sys2Proof.Machine.execLinkFrameGap bytes s
  | .linkFrameError bytes => Sys2Proof.Machine.execLinkFrameError bytes s
  | .requestReceived kind tag body => Sys2Proof.Machine.execRequestReceived kind tag body s
  | .frameSent => Sys2Proof.Machine.execFrameSent s
  | .clockSecond => Sys2Proof.Machine.execClockSecond s
  | .unknownRequest => Sys2Proof.Machine.execUnknownRequest s
  | .identify => Sys2Proof.Machine.execIdentify s
  | .status => Sys2Proof.Machine.execStatus s
  | .configure => Sys2Proof.Machine.execConfigure s
  | .readConfig => Sys2Proof.Machine.execReadConfig s
  | .start => Sys2Proof.Machine.execStart s
  | .drain => Sys2Proof.Machine.execDrain s
  | .infeedHold => Sys2Proof.Machine.execInfeedHold s
  | .noticeMask => Sys2Proof.Machine.execNoticeMask s
  | .setClock => Sys2Proof.Machine.execSetClock s
  | .setLot => Sys2Proof.Machine.execSetLot s
  | .recipeBegin => Sys2Proof.Machine.execRecipeBegin s
  | .recipePut => Sys2Proof.Machine.execRecipePut s
  | .recipeCommit => Sys2Proof.Machine.execRecipeCommit s
  | .recipeSwitch => Sys2Proof.Machine.execRecipeSwitch s
  | .recipeRead => Sys2Proof.Machine.execRecipeRead s
  | .answer => Sys2Proof.Machine.execAnswer s
  | .readStrip => Sys2Proof.Machine.execReadStrip s
  | .readCutting => Sys2Proof.Machine.execReadCutting s
  | .readBin => Sys2Proof.Machine.execReadBin s
  | .binHold => Sys2Proof.Machine.execBinHold s
  | .closeBundle => Sys2Proof.Machine.execCloseBundle s
  | .labelRetry => Sys2Proof.Machine.execLabelRetry s
  | .labelVoid => Sys2Proof.Machine.execLabelVoid s
  | .readLabels => Sys2Proof.Machine.execReadLabels s
  | .profileResume => Sys2Proof.Machine.execProfileResume s
  | .toolSet => Sys2Proof.Machine.execToolSet s
  | .readTools => Sys2Proof.Machine.execReadTools s
  | .readFault => Sys2Proof.Machine.execReadFault s
  | .clearFault => Sys2Proof.Machine.execClearFault s
  | .readReturns => Sys2Proof.Machine.execReadReturns s
  | .binEmptyInactive bin => Sys2Proof.Machine.execBinEmptyInactive bin s
  | .resetPinAsserted => Sys2Proof.Machine.execResetPinAsserted s

end Sys2Proof.Machine
end

