-- ==== Sys2Proof/Safety.lean ====
section
/-! DEFINITION. What a safe state of the block is, in the terms the statements use: the tables and queues within their capacities, the
hold causes and the mark that follow the line state, the limits of a bundle, the bank states and generations. -/

namespace Sys2Proof.Machine

/-! ### Safe states -/

/-- NOT_RUN and DRAIN follow the line state (Table 7): NOT_RUN is in the set exactly outside RUN and DRAIN, DRAIN exactly in DRAIN. -/
def HoldsFollowLine (s : State) : Prop :=
  s.line.holds.notRun = !s.line.state.moving ∧ s.line.holds.drain = (s.line.state == .drain)

/-- In STANDBY, READY and ESTOP the high-water mark stands at the travel counter (R2). -/
def MarkAtRest (s : State) : Prop := s.line.state.moving = false → s.motion.mark = s.motion.travel

/-- The request queue holds at most 4 requests and the notice queue at most 32 notices (R205, R207). -/
def QueuesBounded (s : State) : Prop :=
  s.link.requests.length ≤ Config.requestCapacity ∧ s.link.noticeCount ≤ Config.noticeCapacity

/-- The label queue holds at most 8 labels (R175, R177). -/
def LabelsBounded (s : State) : Prop := s.label.queue.length ≤ Config.labelCapacity

/-- At most 4 referrals are outstanding and at most 4 wait, and none waits while a slot is free (R116, R118). -/
def ReferralsInOrder (s : State) : Prop :=
  s.referral.outstanding.length ≤ Config.slotCapacity ∧ s.referral.waiting.length ≤ Config.waitingCapacity ∧
    (s.referral.outstanding.length < Config.slotCapacity → s.referral.waiting = [])

/-- The strip table, the Cutting Table, the deck queue, the saw fire list and the drift ring are within their capacities (R13, R59, R90,
R129, R136). -/
def TablesBounded (s : State) : Prop :=
  s.belt.strips.length ≤ Config.stripCapacity ∧ s.cuttings.length ≤ Config.cuttingCapacity ∧
    s.chain.deck.length ≤ Config.deckCapacity ∧ s.saw.entries.length ≤ Config.lineCapacity ∧
    s.profile.ring.length ≤ Config.driftCapacity

/-- A bundle's committed totals are within the limits of its own spec copy (R157). -/
def Bundle.WithinLimits (bu : Bundle) : Prop :=
  bu.coverage ≤ bu.spec.ct + bu.spec.tolHi ∧ bu.shortCoverage * 100 ≤ bu.spec.pmax * bu.spec.fillPoint ∧
    bu.count ≤ bu.spec.nmax

/-- Every bundle is within its limits (R157). -/
def BundlesWithinLimits (s : State) : Prop := ∀ (b : Bin) (bu : Bundle), s.bundles.bins[b].bundle = some bu → bu.WithinLimits

/-- At most one bank is ACTIVE (R191), the two banks never hold the same generation, and the counter is one that neither bank holds
(R197). -/
def BanksApart (s : State) : Prop :=
  ¬(s.recipe.banks[0].state = .active ∧ s.recipe.banks[1].state = .active) ∧
    (∀ g, s.recipe.banks[0].heldGeneration = some g → s.recipe.banks[1].heldGeneration ≠ some g) ∧
    ∀ k : BankId, s.recipe.banks[k].heldGeneration ≠ some s.recipe.counter

/-- The LENGTHS and GRADES sections of both banks hold no more entries than their layouts can (R195, Table 61). -/
def SectionsFit (s : State) : Prop :=
  ∀ k : BankId, (∀ l, s.recipe.banks[k].lengths = some l → l.length ≤ 12) ∧ ∀ l, s.recipe.banks[k].grades = some l → l.length ≤ 8

/-- A step of the block answers a next state. -/
def StepAnswers (s : State) : Prop := ∃ t, step s = .next t

/-! ### Vocabulary of the statements -/

/-- The part takes inputs, and the request r stands at the head of the request queue (R205). -/
def Asked (s : State) (r : Request) : Prop := s.inReset = false ∧ s.link.requests.head? = some r

/-- The command is the one that power-on and the release of RESET give, or the assertion of RESET (R214). -/
def isResetCommand : Instr → Bool
  | .powerOn _ _ | .resetPinAsserted => true
  | _ => false

/-- Every output of the part is low and both serial lines are idle (R214). -/
def OutputsLow (s : State) : Prop :=
  infeedEnable s = false ∧ sawOut s = false ∧ transferOut s = false ∧ (∀ b, dropOut s b = false) ∧ (∀ b, dumpOut s b = false) ∧
    sendingBytes s = none ∧ printingBytes s = none

/-- From s to t the head label h leaves the queue with an outcome, the labels of rest behind it (R183, R187): its dispatch record is written;
the dump still due is given, or owed in ESTOP (R181); its bin goes to CLEARING, or with BIN EMPTY active on to IDLE or its next bundle (R155);
and the CLOSING bundle with the lowest close sequence takes the place that is free (R163). -/
def HeadDispatched (s t : State) (h : LabelRecord) (rest : List LabelRecord) (o : Outcome) : Prop :=
  t.label.head = .waitReady ∧ t.label.dumped = false ∧ t.cuttings = s.cuttings ∧
    t.label.dispatch = setAt s.label.dispatch h.bin (some { number := h.number, outcome := o, clock := s.link.clock }) ∧
    (s.label.dumped = true → t.label.dumpHigh = s.label.dumpHigh ∧ t.label.owed = s.label.owed) ∧
    (s.label.dumped = false → s.line.state ≠ .estop →
      t.label.dumpHigh = setAt s.label.dumpHigh h.bin true ∧ t.label.owed = s.label.owed) ∧
    (s.label.dumped = false → s.line.state = .estop →
      t.label.dumpHigh = s.label.dumpHigh ∧ t.label.owed = setAt s.label.owed h.bin true) ∧
    (s.bundles.bins[h.bin].emptyLevel = false → t.bundles.bins[h.bin].state = .clearing ∧
      t.bundles.bins[h.bin].bundle = s.bundles.bins[h.bin].bundle ∧ t.recipe = s.recipe) ∧
    (s.bundles.bins[h.bin].emptyLevel = true →
      (planFor s h.bin = none → t.bundles.bins[h.bin].state = .idle ∧ t.bundles.bins[h.bin].bundle = none) ∧
      ∀ k e, planFor s h.bin = some (k, e) → t.bundles.bins[h.bin].state = .opened ∧
        ∃ bu, t.bundles.bins[h.bin].bundle = some bu ∧ bu.number = s.label.nextNumber ∧ bu.spec = e ∧ bu.count = 0) ∧
    ((∀ b : Bin, b ≠ h.bin → s.bundles.bins[b].state ≠ .closing) → t.label.queue = rest) ∧
    ∀ (c : Bin) (bu : Bundle) (q : Nat), c ≠ h.bin → s.bundles.bins[c].state = .closing → s.bundles.bins[c].bundle = some bu →
      bu.closeSeq = some q →
      (∀ (b : Bin) (x : Bundle) (p : Nat), b ≠ h.bin → b ≠ c → s.bundles.bins[b].state = .closing →
        s.bundles.bins[b].bundle = some x → x.closeSeq = some p → q < p) →
      rest.length < Config.labelCapacity →
      t.label.queue = rest ++ [labelOf c bu] ∧ t.bundles.bins[c].state = .labelling ∧ t.bundles.bins[c].bundle = some bu

/-- FLUSH is in the set, and its one clearing event is registered at p (R10). -/
def FlushPending (t : State) (p : Word) : Prop :=
  t.line.holds.flush = true ∧ ∀ e : PosEvent, e.what = .flushClear → (e ∈ t.motion.events ↔ e.pos = p)

/-- FLUSH has left the set with its clearing event taken, and the LINE notice of that is the last frame that became ready (R2, R10, R12). -/
def FlushPassed (t : State) : Prop :=
  t.line.holds.flush = false ∧ (∀ e ∈ t.motion.events, e.what ≠ .flushClear) ∧
    (t.link.mask[0] = true → t.link.noticeCount < Config.noticeCapacity →
      t.link.tx.getLast? = some (.notice (.line t.line.state t.line.state t.line.holds t.motion.travel t.link.clock)))

/-- The strip of cutting c keeps its place in the strip table when c is freed: it has left already, its removal position is still to come, or
another cutting of it is on the belt (R17). -/
def StripStays (s : State) (c : Cutting) : Prop :=
  ∀ r, findStrip s c.id.strip = some r → r.removalTaken = true → ∃ id ∈ beltCuttings c.id.strip s, id ≠ c.id

/-- From s to t the strip of the freed cutting c, in the table till now, leaves it, and every other strip stays (R17). -/
def StripLeaves (s t : State) (c : Cutting) : Prop :=
  ∀ r, findStrip s c.id.strip = some r → r.removalTaken = true → (∀ id ∈ beltCuttings c.id.strip s, id = c.id) →
    findStrip t c.id.strip = none ∧ ∀ m, m ≠ c.id.strip → findStrip t m = findStrip s m

/-- No cutting but c has the id of c, and at the LUG pulse to come none of the others on lugs stands at the tenoner, at a drop or at the chain end
(R138). -/
def OthersClear (s : State) (c : Cutting) : Prop :=
  ∀ x ∈ s.cuttings, x = c ∨ x.id ≠ c.id ∧ (x.state.onLugP = true → ∀ l, x.loadLug = some l →
    s.motion.lug + 1 - l ≠ BitVec.ofNat 32 s.config.chain.offTN ∧ s.motion.lug + 1 - l ≠ BitVec.ofNat 32 s.config.chain.chainLen ∧
      ∀ b : Bin, s.motion.lug + 1 - l ≠ BitVec.ofNat 32 s.config.chain.offD[b])

/-- From s to t a LUG pulse takes cutting c off the chain to return (R146, R147): its record and every window are gone, the other cuttings stay, the
last-return record names it with its reason and the lug counter, and the RETURN notice, with the bin released, is offered first. Its strip stays, or
leaves the table with it, and then an UNPLANNED or LOST one is a return of its own, the later one. -/
def CuttingReturned (s t : State) (c : Cutting) (why : ReturnReason) (released : Option Bin) : Prop :=
  t.cuttings = s.cuttings.filter (fun x => decide (x.id ≠ c.id)) ∧ (∀ b : Bin, t.chain.windows[b] = none) ∧ t.chain.deck = [] ∧
    t.motion.lug = s.motion.lug + 1 ∧ t.motion.travel = s.motion.travel ∧ (StripStays s c → t.belt = s.belt) ∧ StripLeaves s t c ∧
    (StripStays s c ∨ (∀ r, findStrip s c.id.strip = some r → r.state ≠ .unplanned ∧ r.state ≠ .lost) → t.chain.lastReturn = some
      { object := .cutting c.id, reason := why, place := .lug (s.motion.lug + 1), clock := s.link.clock }) ∧
    (s.link.mask[5] = true → s.link.noticeCount < Config.noticeCapacity →
      TxFrame.notice (.returned c.id why c.grade c.gradeCode released (.lug (s.motion.lug + 1)) s.link.clock) ∈ t.link.tx)

/-- From s to t a CHAIN fault is logged at the LUG pulse that t has taken (R211). -/
def ChainFaultLogged (s t : State) (code : Nat) (detail : Option Nat) (object : FaultObject) : Prop :=
  (s.link.chain.first = none → t.link.chain =
    ⟨some { code, detail, object, position := s.motion.lug + 1, clock := s.link.clock }, 0, false⟩) ∧
    ∀ f, s.link.chain.first = some f → t.link.chain = ⟨some f, min 255 (s.link.chain.count + 1), true⟩

/-- A BUNDLE notice of bin b became ready on the way from s to t, if its kind is not masked and the queue had room (R171, R207, R208). -/
def BundleNoticeSent (s t : State) (n : BundleNotice) : Prop :=
  s.link.mask[6] = true → t.link.noticeCount < Config.noticeCapacity → TxFrame.notice (.bundle n) ∈ t.link.tx

/-- From s to t bin b closes with the bundle x (R162): it takes a close sequence number and the time, and is LABELLING or, with the label queue full,
CLOSING. -/
def BinClosed (s t : State) (b : Bin) (x : Bundle) : Prop :=
  ∃ y q, t.bundles.bins[b].bundle = some y ∧ y = { x with
      closeSeq := some q
      closeTime := some s.link.clock
      closure := y.closure } ∧
    s.bundles.nextClose ≤ q ∧ q < t.bundles.nextClose ∧ t.bundles.bins[b].emptyLevel = s.bundles.bins[b].emptyLevel ∧
    (t.bundles.bins[b].state = .labelling ∨ t.bundles.bins[b].state = .closing)

/-- From s to t bin b takes the next bundle by the plan in force in p, or is IDLE without one where the plan gives none (R154). -/
def NextBundleOpened (p s t : State) (b : Bin) : Prop :=
  (planFor p b = none → t.bundles.bins[b] = { state := .idle, bundle := none, emptyLevel := s.bundles.bins[b].emptyLevel }) ∧
    ∀ k e, planFor p b = some (k, e) → ∃ bu, t.bundles.bins[b] =
        { state := .opened, bundle := some bu, emptyLevel := s.bundles.bins[b].emptyLevel } ∧
      bu.bin = b ∧ bu.bank = k ∧ bu.generation = p.recipe.banks[k].generation.getD 0 ∧ bu.spec = e ∧ bu.count = 0 ∧ bu.coverage = 0 ∧
      bu.shortCoverage = 0 ∧ bu.landedCount = 0 ∧ bu.landedCoverage = 0 ∧ bu.short = false ∧ bu.stray = false

/-- From s to t the bundle bu of bin b, with the ACTIVE bank behind cutting c, loses c's reservation (R160). OPEN it changes no more. FILLED and not
SHORT it reopens when it is below its fill point and its piece limit (R161); otherwise it stays FILLED while pieces are in flight, and closes
when none is (R162). HELD, the state underneath follows R161, and nothing closes. -/
def ReleasedFrom (s t : State) (b : Bin) (bu : Bundle) (c : Cutting) : Prop :=
  s.bundles.bins[b].bundle = some bu → s.recipe.banks[c.bank].state = .active →
    ∀ x, x = bu.releasePiece c.cls c.nominal →
      (s.bundles.bins[b].state = .opened ∨ s.bundles.bins[b].state = .held .opened ∨
          (s.bundles.bins[b].state = .filled ∧ x.count ≠ x.landedCount ∨ s.bundles.bins[b].state = .held .filled) ∧
            (x.short = true ∨ x.belowFill = false) →
        t.bundles = { s.bundles with bins := setAt s.bundles.bins b { s.bundles.bins[b] with bundle := some x } }) ∧
      (s.bundles.bins[b].state = .filled → x.short = false → x.belowFill = true →
        t.bundles = { s.bundles with bins := setAt s.bundles.bins b { s.bundles.bins[b] with state := .opened, bundle := some x } } ∧
          BundleNoticeSent s t ⟨.reopened, b, x, .opened, s.link.clock⟩) ∧
      (s.bundles.bins[b].state = .held .filled → x.short = false → x.belowFill = true →
        t.bundles = { s.bundles with
            bins := setAt s.bundles.bins b { s.bundles.bins[b] with state := .held .opened, bundle := some x } } ∧
          BundleNoticeSent s t ⟨.reopened, b, x, .held .opened, s.link.clock⟩) ∧
      (s.bundles.bins[b].state = .filled → x.short = true ∨ x.belowFill = false → x.count = x.landedCount → BinClosed s t b x)

/-- The bundle bu of bin b without the reservations that the cuttings on lugs hold there (R149, R160). -/
def withoutReservations (s : State) (b : Bin) (bu : Bundle) : Bundle :=
  (s.cuttings.filter (fun c => c.state.onLugP && decide (c.reservedBin = some b))).foldl (fun x c => x.releasePiece c.cls c.nominal) bu

/-- No strip and no cutting but those in the tables is bound to bank k, so that a reset leaves it none (R202). -/
def BoundByTables (s : State) (k : BankId) : Prop :=
  s.recipe.banks[k].strips ≤ s.belt.strips.countP (fun r => r.bank == k) ∧
    s.recipe.banks[k].cuttings ≤ s.cuttings.countP (fun c => c.bank == k)

/-- A release for cutting c reaches its bundle alone: no strip leaves the table with c, or the one that does is of c's own bank. -/
def ReleaseStandsAlone (s : State) (c : Cutting) : Prop :=
  StripStays s c ∨ ∀ r, findStrip s c.id.strip = some r → r.bank = c.bank

/-- What a reset makes of a bin that holds bu, which loses its reservations and is then x (R173): an OPEN one of the ACTIVE bank stays OPEN; one
FILLED and not SHORT reopens below its fill point and otherwise closes; one FILLED and SHORT closes; one HELD follows R161 underneath; the others
keep their state. An OPEN bundle of a bank that is not ACTIVE is due for generation close: discarded when empty, else closed as SHORT (R166). -/
def BinReset (s t : State) (b : Bin) (bu x : Bundle) : Prop :=
  (s.bundles.bins[b].state = .opened ∧ activeBank s = some bu.bank ∨ s.bundles.bins[b].state = .held .opened ∨
      s.bundles.bins[b].state = .held .filled ∧ (x.short = true ∨ x.belowFill = false) ∨ s.bundles.bins[b].state = .closing ∨
      s.bundles.bins[b].state = .labelling ∨ s.bundles.bins[b].state = .clearing →
    t.bundles.bins[b] = { s.bundles.bins[b] with bundle := some x }) ∧
  (s.bundles.bins[b].state = .held .filled → x.short = false → x.belowFill = true →
    t.bundles.bins[b] = { s.bundles.bins[b] with state := .held .opened, bundle := some x }) ∧
  (s.bundles.bins[b].state = .filled → x.short = false → x.belowFill = true → activeBank s = some bu.bank →
    t.bundles.bins[b] = { s.bundles.bins[b] with state := .opened, bundle := some x }) ∧
  (s.bundles.bins[b].state = .filled → x.short = true ∨ x.belowFill = false → x.count = x.landedCount → BinClosed s t b x) ∧
  (s.bundles.bins[b].state = .opened ∨ s.bundles.bins[b].state = .filled ∧ x.short = false ∧ x.belowFill = true →
    activeBank s ≠ some bu.bank → BoundByTables s bu.bank →
    (x.count = 0 → NextBundleOpened s s t b) ∧
    (x.count ≠ 0 → x.count = x.landedCount → BinClosed s t b { x with short := true }))

/-- From s to t a reset clears the deck, the chain and their bins (R149, R173, R202): TRANSFER is low, every bin goes as BinReset says, one without a
bundle keeps its state, and each bank's strip and cutting counts fall by the records that the tables held. -/
def BinsReset (s t : State) : Prop :=
  t.chain.transferHigh = false ∧
    (∀ b : Bin, s.bundles.bins[b].bundle = none → t.bundles.bins[b] = s.bundles.bins[b]) ∧
    (∀ (b : Bin) (bu : Bundle), s.bundles.bins[b].bundle = some bu → BinReset s t b bu (withoutReservations s b bu)) ∧
    ∀ k : BankId,
      t.recipe.banks[k].strips = s.recipe.banks[k].strips - s.belt.strips.countP (fun r => r.bank == k) ∧
      t.recipe.banks[k].cuttings = s.recipe.banks[k].cuttings - s.cuttings.countP (fun c => c.bank == k)

/-- Of the registered events e is the one that falls due when the mark reaches its position; the others lie after it (R2). -/
def OnlyDue (s : State) (e : PosEvent) (others : List PosEvent) : Prop :=
  ∃ before after, s.motion.events = before ++ e :: after ∧ others = before ++ after ∧ ∀ x ∈ others, isAfter x.pos e.pos = true

/-- The event belongs to strip n: one the Belt Tracker or the Scan Unit registered for it, a fire of its lines, or a transfer of its cuttings. -/
def EventKind.concerns (n : Nat) (k : EventKind) : Prop :=
  EventKind.ofStrip n k = true ∨ EventKind.fireOf n k = true ∨ ∃ i, k = .transfer ⟨n, i⟩

/-- What R22 takes of strip n on the way from s to t: its fire entries with their events, its window, scan window and pass events, its cuttings on
the belt with their transfers, its place in the planner's queue, its sample store and its open window. -/
def LossTaken (s t : State) (n : Nat) : Prop :=
  (∀ e ∈ t.saw.entries, e.strip ≠ n) ∧ beltCuttings n t = [] ∧ n ∉ t.planner.queue ∧
    (∀ e ∈ t.motion.events, EventKind.fireOf n e.what = false ∧ EventKind.lostWith n e.what = false ∧
      ∀ i, ⟨n, i⟩ ∈ beltCuttings n s → e.what ≠ .transfer ⟨n, i⟩) ∧
    (∀ x, findStrip t n = some x → x.state = .lost ∧ x.store = none ∧ x.windowOpen = false) ∧
    ∀ r i, findStrip s n = some r → r.store = some i → t.scan.store i = Store.free

/-- In t cutting c, loaded at the LUG pulse that t has taken, stands on the lug at the load point with destination d (R138). -/
def BoardedFor (s t : State) (c : Cutting) (d : Dest) (why : Option ReturnReason) : Prop :=
  findCutting t c.id = some { c with state := .onLug, loadLug := some (s.motion.lug + 1), dest := some d, returnReason := why }

/-- From s to t cutting c, of grade index g, is offered to the bins in ascending order (R156): the first that admits it commits it and is its
destination (R158); with none it goes to RETURN with NO_BIN. -/
def DestFor (s t : State) (c : Cutting) (g : Nat) (d : Dest) (why : Option ReturnReason) : Prop :=
  ((∀ b, admits s b g (s.recipe.banks[c.bank].generation.getD 0) c.cls c.nominal = false) →
    d = .toReturn ∧ why = some .noBin ∧ t.bundles = s.bundles) ∧
  ∀ b bu, admits s b g (s.recipe.banks[c.bank].generation.getD 0) c.cls c.nominal = true →
    (∀ b' < b, admits s b' g (s.recipe.banks[c.bank].generation.getD 0) c.cls c.nominal = false) →
    s.bundles.bins[b].bundle = some bu → d = .bin b ∧ why = none ∧ t.bundles.bins[b].bundle = some (bu.commit c.cls c.nominal)

/-- The record c holds the cutting k of a plan over bank b as R72 allocates it: its length, class, span start and bank, PLANNED. -/
def RecordOf (b : BankId) (k : PlannedCutting) (c : Cutting) : Prop :=
  c.nominal = k.nominal ∧ c.cls = k.cls ∧ c.spanStart = k.start.toNat ∧ c.bank = b ∧ c.state = .planned

/-- The processing of strip n has allocated the first so many cuttings of its plan, and no other cutting of the strip is in the table (R72). -/
def PlanBegun (s : State) (n : Nat) (b : BankId) (plan : List PlannedCutting) : Prop :=
  (∀ c ∈ s.cuttings, c.id.strip = n → c.id.index < s.planner.placed) ∧
    ∀ i k, i < s.planner.placed → plan[i]? = some k → ∃ c, findCutting s ⟨n, i⟩ = some c ∧ RecordOf b k c

/-- Nothing is on a lug and no landing window is open. -/
def ChainIdle (s : State) : Prop := lugOccupancy s = [] ∧ ∀ b : Bin, s.chain.windows[b] = none

/-- The strip, the cutting and the chain tables, the fire list, the planner, the scan stores, the referrals and the registered events are
all empty (R9). -/
def TrackingCleared (s : State) : Prop :=
  s.motion.events = [] ∧ s.belt.strips = [] ∧ s.scan = ScanUnit.cleared ∧ s.planner = Planner.idle ∧
    s.saw = { entries := [], lastFire := none, high := false } ∧ s.grade = { run := none, queue := [] } ∧
    s.referral.outstanding = [] ∧ s.referral.waiting = [] ∧ s.cuttings = [] ∧ s.chain.deck = [] ∧ ∀ b : Bin, s.chain.windows[b] = none

/-! ### Features and window comparators -/

/-- The values that the passes in the span [a, b) hold for the channels whose role p picks, in pass order, a pass in scan-list order, saturated
samples left out (R45, R47). -/
def spanValues (s : State) (slots : List PassSlot) (a b : Nat) (p : Role → Bool) : List Int :=
  (slots.zipIdx.filter (fun x => decide (a ≤ passMm s x.2 ∧ passMm s x.2 < b))).flatMap (fun x =>
    (x.1.samples.filter (fun m => p s.config.channels[m.channel].role && !m.saturated)).map Sample.value)

/-- A zone overlaps the span [a, b) in mm; one whose mm ends are equal is taken to reach 1 mm past its start (R45). -/
def overlapsSpan (s : State) (a b : Nat) (z : Zone) : Bool :=
  decide (passMm s z.start < b ∧ a < if passMm s z.start = passMm s z.stop then passMm s z.start + 1 else passMm s z.stop)

/-- The value is the lowest of some values, or absent with none. -/
def IsLowest (v : Option Int) (l : List Int) : Prop := (l = [] → v = none) ∧ (l ≠ [] → ∃ x ∈ l, v = some x ∧ ∀ y ∈ l, x ≤ y)

/-- The value is the highest of some values, or absent with none. -/
def IsHighest (v : Option Int) (l : List Int) : Prop := (l = [] → v = none) ∧ (l ≠ [] → ∃ x ∈ l, v = some x ∧ ∀ y ∈ l, y ≤ x)

/-- Channel c fails at a pass with some samples (R41): its role is no profile role, and a sample of it that is not saturated fails its mode. -/
def ChannelFailsAt (setup : Vector ChannelSetup 16) (samples : List Sample) (c : Channel) : Prop :=
  (setup[c].role ≠ .tongueT ∧ setup[c].role ≠ .tongueL ∧ setup[c].role ≠ .grooveW ∧ setup[c].role ≠ .grooveD) ∧
    ∃ m ∈ samples, m.channel = c ∧ m.saturated = false ∧
      (setup[c].mode = .below ∧ m.value < setup[c].l1 ∨ setup[c].mode = .above ∧ setup[c].l2 < m.value ∨
        setup[c].mode = .outside ∧ (m.value < setup[c].l1 ∨ setup[c].l2 < m.value) ∨
        setup[c].mode = .inside ∧ setup[c].l1 ≤ m.value ∧ m.value ≤ setup[c].l2)

/-- The GAUGE runs before and after pass i with some samples (R42): a channel that fails opens a run there or keeps its own, and one that does not
has none. -/
def GaugeRunsAt (setup : Vector ChannelSetup 16) (samples : List Sample) (i : Nat) (before after : Vector (Option Nat) 16) : Prop :=
  ∀ c : Channel, (ChannelFailsAt setup samples c → after[c] = some (before[c].getD i)) ∧
    (¬ChannelFailsAt setup samples c → after[c] = none)

/-- From strip r to u the open GAUGE runs of the channels that p picks close at an end pass: each enters the zone list with severity 8 for action CUT
and 0 for MARK (R42, R43), in ascending channel order, which is the model's choice (log 18). -/
def RunsClosed (setup : Vector ChannelSetup 16) (runs : Vector (Option Nat) 16) (stop : Nat) (p : Channel → Prop) (r u : Strip) : Prop :=
  ∃ cs : List Channel, cs.Pairwise (fun a b => a < b) ∧ (∀ c : Channel, c ∈ cs ↔ runs[c] ≠ none ∧ p c) ∧
    u = cs.foldl (fun x c => x.enterZone ⟨.channel c, runs[c].getD 0, stop, if setup[c].action = .cut then 8 else 0⟩) r

/-! ### Referrals -/

/-- The tag that a referral takes as it becomes outstanding (R119): k tags on from the one after the last tag, or from 1 with none, 255 being followed
by 1; the entries of the k tags passed over are OUTSTANDING and its own is not. -/
def TagNext (u : ReferralUnit) (t : Nat) : Prop :=
  ∃ first k, (u.lastTag = none → first = 1) ∧ (∀ l, u.lastTag = some l → first = if l < 255 then l + 1 else 1) ∧ k < 255 ∧
    t = (first - 1 + k) % 255 + 1 ∧ (∀ e, u.entry t = some e → e.ended = true) ∧
    ∀ j < k, ∃ e, u.entry ((first - 1 + j) % 255 + 1) = some e ∧ e.ended = false

/-- The referral that a run of cutting c raises at its suspension (R107, R117). -/
def ReferralRaised (s : State) (c : Cutting) (k : EvalContext) (feature : Nat) (q : Referral) : Prop :=
  q.id = c.id ∧ q.context = k ∧ q.feature = feature ∧ q.spanStart = c.spanStart ∧
    q.spanEnd = c.spanStart + c.nominal + (s.recipe.banks[c.bank].cut.map CutSection.ae).getD 0 ∧ q.nominal = c.nominal ∧
    q.stripLength = (c.features[12].getD 0).toNat ∧ q.tag = none ∧ q.arose = s.link.clock

/-- The Referral Unit with q in a slot under a tag: the tag's entry names its cutting, OUTSTANDING, and the tag is the last (R118, R119). -/
def outstandingWith (u : ReferralUnit) (q : Referral) (tag : Nat) : ReferralUnit :=
  { u.setEntry tag { id := q.id, ended := false } with
    outstanding := u.outstanding ++ [{ q with tag := some tag }]
    lastTag := some tag }

/-- From s to t the record c of a cutting whose run ended on the resumption path has its result (R104, R107, R108): a grade with its code, NO_GRADE,
or at a further referred test REFERRED, or REFERRAL_OVERFLOW when 4 referrals were outstanding and 4 waiting. -/
def RunWritten (s t : State) (c : Cutting) (e : RunEnd) : Prop :=
  (∀ g code, e = .graded g code → findCutting t c.id = some
    { c with gradeStatus := .graded, grade := some (.index g), gradeCode := some code, rejectReason := none }) ∧
  (e = .noGrade → findCutting t c.id = some
    { c with gradeStatus := .graded, grade := some .reject, gradeCode := none, rejectReason := some .noGrade }) ∧
  ∀ k f, e = .suspended k f →
    (s.referral.outstanding.length < 4 ∨ s.referral.waiting.length < 4 → findCutting t c.id = some
      { c with gradeStatus := .referred, referralCount := min 255 (c.referralCount + 1) }) ∧
    (4 ≤ s.referral.outstanding.length → 4 ≤ s.referral.waiting.length → findCutting t c.id = some
      { c with
        gradeStatus := .graded
        grade := some .reject
        gradeCode := none
        rejectReason := some .referralOverflow
        referralCount := min 255 (c.referralCount + 1) })

/-! ### Configuration and recipes in the terms of their tables -/

/-- Field i of a CONFIGURE section, as Table 69 numbers them from field 1. -/
def tableField (fs : List Int) (i : Nat) : Int := fs.getD (i - 1) 0

/-- Field i of the MOTION section, with its cross-checks and R201, passes (Table 69). -/
def MotionFieldPasses (s : State) (f : Nat → Int) (i : Nat) : Prop :=
  (i = 1 → 655 ≤ f 1 ∧ f 1 ≤ 131072) ∧ (i = 2 ∨ i = 3 ∨ i = 4 ∨ i = 5 → 1 ≤ f i ∧ f i ≤ 1000000) ∧ (i = 3 → f 2 < f 3) ∧
    (i = 5 → f 4 < f 5) ∧ (i = 6 → 0 ≤ f 6 ∧ f 6 ≤ 1023) ∧ (i = 7 → 0 ≤ f 7 ∧ f 7 ≤ 4095) ∧
    (i = 8 → 20 ≤ f 8 ∧ f 8 ≤ 1000 ∧ ∀ (k : BankId) (n : Nat) (ns : List Nat) (c : CutSection),
      s.recipe.banks[k].state = .valid ∨ s.recipe.banks[k].state = .active ∨ s.recipe.banks[k].state = .retiring →
      s.recipe.banks[k].lengths = some (n :: ns) → s.recipe.banks[k].cut = some c → f 8 ≤ (n : Int) + c.ae)

/-- Field j of channel c passes (Tables 14 and 69, R28, R41): 0 range, 1 base, 2 span, 3 role, 4 mode, 5 L1, 6 L2, 7 action. Role 10 is NONE and
mode 0 OFF, their places in Table 14 (R203). -/
def ChannelFieldPasses (f : Nat → Int) (c j : Nat) : Prop :=
  (j = 0 → 0 ≤ f (1 + 8 * c) ∧ f (1 + 8 * c) ≤ 3) ∧ (j = 1 → -100000 ≤ f (2 + 8 * c) ∧ f (2 + 8 * c) ≤ 100000) ∧
    (j = 2 → -1000000 ≤ f (3 + 8 * c) ∧ f (3 + 8 * c) ≤ 1000000) ∧
    (j = 3 → 0 ≤ f (4 + 8 * c) ∧ f (4 + 8 * c) ≤ 10 ∧ (f (4 + 8 * c) ≠ 10 → ∀ d < c, f (4 + 8 * d) ≠ f (4 + 8 * c))) ∧
    (j = 4 → 0 ≤ f (5 + 8 * c) ∧ f (5 + 8 * c) ≤ 4) ∧ (j = 6 → f (5 + 8 * c) ≠ 0 → f (6 + 8 * c) ≤ f (7 + 8 * c)) ∧
    (j = 7 → 0 ≤ f (8 + 8 * c) ∧ f (8 + 8 * c) ≤ 1)

/-- Field i of the SCAN section passes (Table 69): the list slots past the count are ignored. -/
def ScanFieldPasses (f : Nat → Int) (i : Nat) : Prop :=
  (i = 1 → 1 ≤ f 1 ∧ f 1 ≤ 16) ∧ (2 ≤ i → i ≤ 17 → (i : Int) - 1 ≤ f 1 → 0 ≤ f i ∧ f i ≤ 15) ∧ (i = 18 → 1 ≤ f 18 ∧ f 18 ≤ 255) ∧
    (i = 19 → 0 ≤ f 19 ∧ f 19 ≤ 255) ∧ (i = 20 → 0 ≤ f 20 ∧ f 20 ≤ 32)

/-- Field i of the CHAIN section passes (Table 69, R209). -/
def ChainFieldPasses (f : Nat → Int) (i : Nat) : Prop :=
  (i = 1 → 8 ≤ f 1 ∧ f 1 ≤ 64) ∧ (i = 2 → 1 ≤ f 2) ∧ (3 ≤ i → i ≤ 10 → f (i - 1) < f i) ∧ (i = 10 → f 10 < f 1)

/-- Field i of a CONFIGURE section passes, by the section's code (Table 69); that of DECK, both fields unsigned, has high 1 to 12 and low below it. -/
def ConfigFieldPasses (s : State) (sec : Nat) (f : Nat → Int) (i : Nat) : Prop :=
  (sec = 0 → MotionFieldPasses s f i) ∧ (sec = 1 → ChannelFieldPasses f ((i - 1) / 8) ((i - 1) % 8)) ∧ (sec = 2 → ScanFieldPasses f i) ∧
    (sec = 3 → (i = 1 → 1 ≤ f 1 ∧ f 1 ≤ 12) ∧ (i = 2 → f 2 < f 1)) ∧ (sec = 4 → ChainFieldPasses f i)

/-- From configuration a to b the values of one section are the fields f, its accepted mark is set, and the other sections stay (Table 69, R209); a
channel's role, mode and action are those whose codes the fields give. -/
def SectionInstalled (a b : Configuration) (sec : Nat) (f : Nat → Int) : Prop :=
  (∀ i : Fin 5, b.marks[i] = (a.marks[i] || decide (i.val = sec))) ∧
    (sec ≠ 0 → b.motion = a.motion) ∧ (sec ≠ 1 → b.channels = a.channels) ∧ (sec ≠ 2 → b.scan = a.scan) ∧ (sec ≠ 3 → b.deck = a.deck) ∧
    (sec ≠ 4 → b.chain = a.chain) ∧
    (sec = 0 → b.motion =
      { k := (f 1).toNat, offSH := (f 2).toNat, offSE := (f 3).toNat, dSL := (f 4).toNat, dXE := (f 5).toNat, slip := (f 6).toNat,
        reverse := (f 7).toNat, dr := (f 8).toNat }) ∧
    (sec = 1 → ∀ c : Channel, b.channels[c].range = (f (1 + 8 * c.val)).toNat ∧ b.channels[c].base = f (2 + 8 * c.val) ∧
      b.channels[c].span = f (3 + 8 * c.val) ∧ (b.channels[c].role.code : Int) = f (4 + 8 * c.val) ∧
      (b.channels[c].mode.code : Int) = f (5 + 8 * c.val) ∧ b.channels[c].l1 = f (6 + 8 * c.val) ∧ b.channels[c].l2 = f (7 + 8 * c.val) ∧
      (b.channels[c].action.code : Int) = f (8 + 8 * c.val)) ∧
    (sec = 2 → b.scan.count = (f 1).toNat ∧ (∀ i : Fin 16, b.scan.slots[i] = (f (i.val + 2)).toNat) ∧ b.scan.pitch = (f 18).toNat ∧
      b.scan.lag = (f 19).toNat ∧ b.scan.endExcl = (f 20).toNat) ∧
    (sec = 3 → b.deck = { high := (f 1).toNat, low := (f 2).toNat }) ∧
    (sec = 4 → b.chain.chainLen = (f 1).toNat ∧ b.chain.offTN = (f 2).toNat ∧ ∀ d : Bin, b.chain.offD[d] = (f (d.val + 3)).toNat)

/-- The fields of a CUT section fit their two bytes (Table 61; sizes: log 11). -/
def CutSection.Fits (c : CutSection) : Prop :=
  c.tl < 65536 ∧ c.tt < 65536 ∧ c.k < 65536 ∧ c.g < 65536 ∧ c.ae < 65536 ∧ c.tc < 65536 ∧ c.nominalWidth < 65536

/-- The fields of a grade fit their bytes (R97; sizes: log 11). -/
def GradeEntry.Fits (g : GradeEntry) : Prop := g.code < 256 ∧ g.first < 256 ∧ g.count < 65536 ∧ g.verdict < 256

/-- A value fits a signed 32-bit field. -/
def FitsS32 (v : Int) : Prop := -2147483648 ≤ v ∧ v ≤ 2147483647

/-- The fields of a test entry fit their bytes (Table 34; sizes: log 11). -/
def TestEntry.Fits (e : TestEntry) : Prop :=
  e.feature < 256 ∧ e.op < 256 ∧ FitsS32 e.a ∧ FitsS32 e.b ∧ e.dest < 256 ∧ e.combine < 256 ∧ e.negate < 256 ∧ e.absent < 256

/-- The fields of a bin plan entry fit their bytes (Table 50; sizes: log 11). -/
def BinPlan.Fits (e : BinPlan) : Prop :=
  e.grade < 256 ∧ e.classLow < 256 ∧ e.classHigh < 256 ∧ e.ct < 4294967296 ∧ e.tolLo < 4294967296 ∧ e.tolHi < 4294967296 ∧
    e.s < 65536 ∧ e.pmax < 65536 ∧ e.nmax < 65536

/-- The fields of a PROFILE section fit their bytes (Table 61; sizes: log 11). -/
def ProfileSection.Fits (p : ProfileSection) : Prop :=
  (∀ i : Fin 4, FitsS32 p.windows[i].w1 ∧ FitsS32 p.windows[i].w2 ∧ FitsS32 p.windows[i].m1 ∧ FitsS32 p.windows[i].m2) ∧
    p.tongueNominal < 65536 ∧ p.driftLimit < 65536 ∧ p.stopCount < 65536

/-- RECIPE PUT of the body with the request r is taken: bank k becomes b, and nothing else changes (R195). -/
def PutStores (r : Request) (s : State) (k : BankId) (b : Bank) : Prop :=
  exec .recipePut s = .next (reply r .ok .none { s with recipe := { s.recipe with banks := setAt s.recipe.banks k b } })

/-- The CUT items of Table 62 pass for a bank. Here and below an item that Table 62 does not give, or gives of an entry that is not there, passes. -/
def CutItemPasses (b : Bank) (i : Nat) : Prop :=
  (i = 0 → b.cut ≠ none) ∧ ∀ c, b.cut = some c →
    (i = 1 → c.tl ≤ 200) ∧ (i = 2 → c.tt ≤ 200) ∧ (i = 3 → 1 ≤ c.k ∧ c.k ≤ 8) ∧ (i = 4 → c.g ≤ 50) ∧ (i = 5 → c.ae ≤ 30) ∧
      (i = 6 → 1 ≤ c.tc ∧ c.tc ≤ 9) ∧ (i = 7 → 2000 ≤ c.nominalWidth ∧ c.nominalWidth ≤ 25000)

/-- The LENGTHS items of Table 62; the first length of an ascending table is its shortest. -/
def LengthItemPasses (dr : Nat) (b : Bank) (i : Nat) : Prop :=
  (i = 0 → ∃ n ns, b.lengths = some (n :: ns)) ∧
    (∀ l n, b.lengths = some l → 1 ≤ i → i ≤ 12 → l[i - 1]? = some n →
      150 ≤ n ∧ n ≤ 3000 ∧ ∀ p, 1 < i → l[i - 2]? = some p → p < n) ∧
    ∀ n ns c, i = 13 → b.lengths = some (n :: ns) → b.cut = some c → dr ≤ n + c.ae

/-- The GRADES items of Table 62. -/
def GradeItemPasses (b : Bank) (i : Nat) : Prop :=
  (i = 0 → ∃ g gs, b.grades = some (g :: gs)) ∧
    ∀ l g, b.grades = some l → 1 ≤ i → l[i - 1]? = some g →
      1 ≤ g.code ∧ g.code ≤ 254 ∧ g.count ≤ 16 ∧ g.verdict ≤ 15 ∧ g.first + g.count ≤ 64 ∧
        ∀ j, g.first ≤ j → j < g.first + g.count → ∃ e, b.tests[j]? = some (some e)

/-- The TESTS items of Table 62: the loaded entries alone. -/
def TestItemPasses (b : Bank) (i : Nat) : Prop :=
  ∀ e, 1 ≤ i → b.tests[i - 1]? = some (some e) →
    (e.feature ≤ 13 ∨ 16 ≤ e.feature ∧ e.feature ≤ 23) ∧ e.op ≤ 3 ∧ e.dest ≤ 1 ∧ e.combine ≤ 3 ∧ e.negate ≤ 1 ∧ e.absent ≤ 2

/-- The BINS items of Table 62; a bin whose grade is NONE, code 8 (log 12), is passed over. -/
def BinItemPasses (b : Bank) (i : Nat) : Prop :=
  (i = 0 → b.bins ≠ none) ∧ ∀ v e, b.bins = some v → 1 ≤ i → v[i - 1]? = some e → e.grade ≠ 8 →
    e.grade < (b.grades.getD []).length ∧ e.classLow ≤ e.classHigh ∧ e.classHigh < (b.lengths.getD []).length ∧
      100000 ≤ e.ct ∧ e.ct ≤ 5000000 ∧ e.tolLo < e.ct ∧ e.tolHi ≤ 1000000 ∧ e.s ≤ 3000 ∧ e.pmax ≤ 100 ∧ 1 ≤ e.nmax ∧ e.nmax ≤ 1000

/-- The PROFILE items of Table 62. -/
def ProfileItemPasses (b : Bank) (i : Nat) : Prop :=
  (i = 0 → b.profile ≠ none) ∧ ∀ p, b.profile = some p →
    (∀ w, 1 ≤ i → p.windows[i - 1]? = some w → w.m1 ≤ w.w1 ∧ w.w1 ≤ w.w2 ∧ w.w2 ≤ w.m2) ∧ (i = 5 → p.tongueNominal ≤ 10000) ∧
      (i = 6 → p.driftLimit ≤ 1000) ∧ (i = 7 → 1 ≤ p.stopCount ∧ p.stopCount ≤ 8)

/-- The COVER items of Table 62. -/
def CoverItemPasses (b : Bank) (i : Nat) : Prop :=
  (i = 0 → b.cover ≠ none) ∧ ∀ w, i = 1 → b.cover = some w → 20 ≤ w ∧ w ≤ 250

/-- Item i of section sec of Table 62 passes for a bank, with Dr in force. -/
def CommitItemPasses (dr : Nat) (b : Bank) (sec i : Nat) : Prop :=
  (sec = 0 → CutItemPasses b i) ∧ (sec = 1 → LengthItemPasses dr b i) ∧ (sec = 2 → GradeItemPasses b i) ∧ (sec = 3 → TestItemPasses b i) ∧
    (sec = 4 → BinItemPasses b i) ∧ (sec = 5 → ProfileItemPasses b i) ∧ (sec = 6 → CoverItemPasses b i)

end Sys2Proof.Machine
end

