-- ==== Sys2Proof/Certificates/Slice0/Obligations.lean ====
section
/-! DEFINITION. The statements for the provers: one definition for each row of OBLIGATIONS.json, in its order. -/

open Sys2Proof Sys2Proof.Machine

/-! ### The block as a whole -/

/-- A step takes the command at the front of the queue and is that command on the state with the queue's rest; on an empty queue it leaves the state
as it is (the idling is the model's choice: assumption log 1). -/
def Obligations.StepTakesTheFrontCommand : Prop :=
  (∀ (c : Instr) (rest : List Instr) (s : State), s.pending = c :: rest → step s = exec c { s with pending := rest }) ∧
    ∀ s : State, s.pending = [] → step s = .next s

/-- The state after power-on: the values the chapters give (R2, R10, R13, R69, R77, R90, R116, R174, R175, R191, R205, R207, R210, R211, R213,
R214), and every safe-state predicate holds of it. -/
def Obligations.PowerOnStateIsSafe : Prop :=
  State.reset.line.state = .standby ∧ State.reset.line.holds = HoldSet.atPowerOn ∧ State.reset.motion = ⟨0, 0, 0, []⟩ ∧
    State.reset.belt = ⟨[], 1⟩ ∧ TrackingCleared State.reset ∧
    (∀ i : Spindle, State.reset.profile.spindles[i] = SpindleRecord.unset) ∧ State.reset.profile.limitCount = 0 ∧
    State.reset.profile.ring = [] ∧ State.reset.profile.drift = none ∧ State.reset.profile.armed = true ∧
    State.reset.referral.lastTag = none ∧ (∀ t : Nat, State.reset.referral.entry t = none) ∧
    (∀ b : Bin, State.reset.bundles.bins[b].state = .idle ∧ State.reset.bundles.bins[b].bundle = none) ∧
    State.reset.bundles.nextClose = 1 ∧ State.reset.label.queue = [] ∧ State.reset.label.readyFlag = false ∧
    State.reset.label.lot = 0 ∧ State.reset.label.nextNumber = 1 ∧ (∀ k : BankId, State.reset.recipe.banks[k] = Bank.empty) ∧
    State.reset.recipe.counter = 1 ∧ (∀ i : Fin 5, State.reset.inForce.marks[i] = false) ∧
    State.reset.config = State.reset.inForce ∧ State.reset.link.requests = [] ∧
    State.reset.link.tx = [] ∧ State.reset.link.dropped = 0 ∧ (∀ k : Fin 11, State.reset.link.mask[k] = true) ∧
    (∀ b : FaultBook, State.reset.link.record b = FaultRecord.empty) ∧ State.reset.link.clock = 0 ∧
    HoldsFollowLine State.reset ∧ MarkAtRest State.reset ∧ QueuesBounded State.reset ∧ LabelsBounded State.reset ∧
    ReferralsInOrder State.reset ∧ TablesBounded State.reset ∧ BundlesWithinLimits State.reset ∧ BanksApart State.reset ∧
    SectionsFit State.reset

/-- POWER_ON leaves the power-on values with the BIN EMPTY levels just sampled; with E-STOP active the line is in ESTOP, and a LINE notice from
STANDBY to ESTOP and a FLUSH notice of 0 strips are the first notices (R214); that LINE goes ahead of FLUSH is the model's choice (log 10). The
waiting commands and the count of free values are the model's own and stay (logs 1, 4). RESET_PIN_ASSERTED drives every output low, leaves both
serial lines idle and every record as it stands, and while RESET is asserted no input is taken (R214; that the records stand is the model's choice,
log 17). -/
def Obligations.PowerOnAndTheResetPin : Prop :=
  (∀ (s : State) (l : BitVec 8), exec (.powerOn false l) s = .next { State.reset with
      pending := s.pending
      freeCount := s.freeCount
      bundles := { State.reset.bundles with
        bins := Vector.ofFn (fun b : Bin => { state := .idle, bundle := none, emptyLevel := l.getLsbD b.val }) } }) ∧
    (∀ (s : State) (l : BitVec 8), ∃ t, exec (.powerOn true l) s = .next t ∧ t.line = ⟨.estop, HoldSet.atPowerOn, true⟩ ∧
      t.link.tx = [.notice (.line .estop .standby HoldSet.atPowerOn 0 0), .notice (.flush .estop 0 0 none none)] ∧
      t.motion = State.reset.motion ∧ t.belt = State.reset.belt ∧ t.recipe = State.reset.recipe ∧ t.label = State.reset.label ∧
      t.profile = State.reset.profile ∧ t.config = State.reset.config ∧ t.inForce = State.reset.inForce ∧ t.link.requests = [] ∧
      t.inReset = false ∧
      TrackingCleared t ∧ ∀ b : Bin, t.bundles.bins[b] = { state := .idle, bundle := none, emptyLevel := l.getLsbD b.val }) ∧
    (∀ s : State, ∃ t, exec .resetPinAsserted s = .next t ∧ OutputsLow t ∧ t = { s with
      inReset := true
      saw := { s.saw with high := false }
      chain := { s.chain with transferHigh := false }
      label := { s.label with dumpHigh := Vector.replicate 8 false } }) ∧
    ∀ (c : Instr) (s : State), s.inReset = true → isResetCommand c = false → exec c s = .next s

/-! ### Whole-machine rules -/

/-- Only START takes the line to RUN, and the line leaves ESTOP only when E-STOP becomes inactive or at power-on (R5, R8, Table 6). -/
def Obligations.OnlyStartEntersRun : Prop :=
  ∀ (c : Instr) (s t : State), exec c s = .next t →
    (s.line.state ≠ .run → t.line.state = .run → c = .start) ∧
      (s.line.state = .estop → t.line.state ≠ .estop → c = .eStopInactive ∨ ∃ e l, c = .powerOn e l)

/-- Only the encoder moves the travel counter and only LUG pulses move the lug counter, by one each; power-on sets both to 0 (R1, R3). -/
def Obligations.OnlyTheirPulsesMoveTheCounters : Prop :=
  ∀ (c : Instr) (s t : State), s.inReset = false → exec c s = .next t →
    t.motion.travel = (match c with
      | .encForwardStep _ => s.motion.travel + 1
      | .encReverseStep => s.motion.travel - 1
      | .powerOn _ _ => 0
      | _ => s.motion.travel) ∧
    t.motion.lug = (match c with
      | .lugPulse _ _ => s.motion.lug + 1
      | .powerOn _ _ => 0
      | _ => s.motion.lug)

/-- NOT_RUN and DRAIN follow the line state, and outside RUN and DRAIN the high-water mark stands at the travel counter, after every step that
starts from a state where they do (Table 7, R2). That the mark falls to the counter at the very moment the line leaves RUN or DRAIN is the model's
reading (log 26). -/
def Obligations.HoldsAndMarkFollowTheLine : Prop :=
  ∀ s t : State, HoldsFollowLine s ∧ MarkAtRest s → step s = .next t → HoldsFollowLine t ∧ MarkAtRest t

/-- No step takes a queue or a table beyond its capacity: requests, notices, labels, strip records, cutting records, deck, fire list, drift ring
(R13, R59, R90, R129, R136, R177, R205, R207). -/
def Obligations.TablesAndQueuesStayBounded : Prop :=
  ∀ s t : State, QueuesBounded s ∧ LabelsBounded s ∧ TablesBounded s → step s = .next t →
    QueuesBounded t ∧ LabelsBounded t ∧ TablesBounded t

/-- At most 4 referrals are outstanding and 4 waiting, and no referral waits while a slot is free, after every step from such a state (R116, R118,
R121). -/
def Obligations.NoReferralWaitsBesideAFreeSlot : Prop :=
  ∀ s t : State, ReferralsInOrder s → step s = .next t → ReferralsInOrder t

/-- Every bundle's committed coverage, short coverage and count stay within the limits of its spec copy (R157). -/
def Obligations.BundlesStayWithinLimits : Prop :=
  ∀ s t : State, BundlesWithinLimits s → step s = .next t → BundlesWithinLimits t

/-- At most one bank is ACTIVE, the banks' generations differ, and the counter holds neither of them, and no bank's LENGTHS or GRADES section holds
more entries than its layout can, after every step from such a state (R191, R195, R197). -/
def Obligations.BanksKeepApart : Prop :=
  ∀ s t : State, step s = .next t → (BanksApart s → BanksApart t) ∧ (SectionsFit s → SectionsFit t)

/-! ### Belt and line state -/

/-- An encoder step at which no registered event falls due and that is no jam moves the travel counter, and the high-water mark as R2 states, and
nothing else. That the reverse allowance which tells a jam is the one that reached the blocks at the last strip created, with an empty strip table
too, is the model's reading of R24 and R209 (log 43). -/
def Obligations.EncoderStepsMoveTheCounter : Prop :=
  (∀ (g : GateSample) (s : State) (m : Word), s.inReset = false →
      m = (if s.line.state.moving then (if isAfter (s.motion.travel + 1) s.motion.mark then s.motion.travel + 1 else s.motion.mark)
        else s.motion.travel + 1) →
      (∀ e ∈ s.motion.events, isAfter e.pos m = true) →
      exec (.encForwardStep g) s = .next { s with motion := { s.motion with travel := s.motion.travel + 1, mark := m } }) ∧
    ∀ s : State, s.inReset = false →
      (s.line.state.moving = true → ticksFrom (s.motion.travel - 1) s.motion.mark ≤ s.config.motion.reverse) →
      exec .encReverseStep s = .next { s with motion := { s.motion with
        travel := s.motion.travel - 1
        mark := if s.line.state.moving then s.motion.mark else s.motion.travel - 1 } }

/-- A reverse step in RUN or DRAIN beyond the reverse allowance is a jam (R24): every strip in the table is LOST, the first BELT fault JAM names the
old mark and the counter, the effects of R22 are taken for each strip it loses, FLUSH joins the set with its clearing event at the counter + offSE +
dXE, the last-return record is copied, the FLUSH notice carries the strips lost (R26), and the mark stands at the counter; a DRAIN that the loss
completes goes to READY (R7). That the reverse allowance and the clearing position are taken from the values that reached the blocks at the last
strip created, with an empty strip table too, is the model's reading of R24 and R209 (log 43). That the copy stands after the returns that the loss
itself writes is the model's reading (log 40); so is that a clearing position which the old mark has reached is taken at once, FLUSH leaving the set
with a LINE notice of its own after the FLUSH notice, unless that READY moved the mark (log 44). -/
def Obligations.JamLosesEveryStrip : Prop :=
  ∀ (s : State) (p : Word) (ns : List Nat), s.inReset = false → s.line.state.moving = true →
    (s.config.motion.reverse : Int) < ticksFrom (s.motion.travel - 1) s.motion.mark →
    p = plusTicks (s.motion.travel - 1) (s.config.motion.offSE + s.config.motion.dXE) →
    isAfter p (s.motion.travel - 1) = true →
    ns = (s.belt.strips.filter (fun r => r.state != .lost)).map Strip.number →
    ∃ t, exec .encReverseStep s = .next t ∧ (∀ r ∈ t.belt.strips, r.state = .lost) ∧ (∀ n ∈ ns, LossTaken s t n) ∧
      (t.line.state = s.line.state ∨ s.line.state = .drain ∧ t.line.state = .ready) ∧
      (isAfter p s.motion.mark = true ∨ t.line.state = .ready → FlushPending t p) ∧
      (isAfter p s.motion.mark = false → t.line.state = s.line.state → FlushPassed t) ∧
      (s.link.belt.first = none → t.link.belt.first = some
        { code := 5, detail := some s.motion.mark.toNat, object := .none, position := s.motion.travel - 1, clock := s.link.clock }) ∧
      (∀ f, s.link.belt.first = some f → t.link.belt = ⟨some f, min 255 (s.link.belt.count + 1), true⟩) ∧
      (s.link.mask[2] = true → t.link.noticeCount < Config.noticeCapacity →
        TxFrame.notice (.flush .jam (s.motion.travel - 1) ns.length ns.head? ns.getLast?) ∈ t.link.tx) ∧
      t.chain.preFlush = t.chain.lastReturn ∧ t.motion.travel = s.motion.travel - 1 ∧ t.motion.mark = s.motion.travel - 1

/-- A forward step that reaches a fire entry and no other event fires it (R94): SAW is high, the entry leaves the list and is the last fire, its
line is FIRED, and a PLANNED cutting that ends on it, or starts on it and ends on the trailing end, is CUT; the other strips and cuttings and the
events still ahead stay. A forward step that reaches the FLUSH clearing position and no other event takes FLUSH out of the set, with its LINE notice
(R10, R12). -/
def Obligations.ForwardStepTakesTheEventDue : Prop :=
  (∀ (g : GateSample) (s : State) (n l : Nat) (e : FireEntry) (others : List PosEvent), s.inReset = false → s.line.state.moving = true →
      s.motion.mark = s.motion.travel → OnlyDue s ⟨s.motion.travel + 1, .fire n l⟩ others → findEntry s n l = some e →
      ∃ t, exec (.encForwardStep g) s = .next t ∧
        t.saw = { entries := s.saw.entries.erase e, lastFire := some e.tick, high := true } ∧
        t.motion = { travel := s.motion.travel + 1, mark := s.motion.travel + 1, lug := s.motion.lug, events := others } ∧
        (∀ r, findStrip s n = some r →
          findStrip t n = some { r with lines := r.lines.modify l (fun q => { q with status := .fired }) }) ∧
        (∀ m, m ≠ n → findStrip t m = findStrip s m) ∧
        (∀ i c, e.ends = some i → findCutting s ⟨n, i⟩ = some c → findCutting t ⟨n, i⟩ = some c.toCut) ∧
        (∀ r i c, e.starts = some i → findStrip s n = some r → r.hasEnd i = false → findCutting s ⟨n, i⟩ = some c →
          findCutting t ⟨n, i⟩ = some c.toCut) ∧
        (∀ id, id.strip ≠ n ∨ e.ends ≠ some id.index ∧ e.starts ≠ some id.index → findCutting t id = findCutting s id) ∧
        t.line = s.line ∧ t.scan = s.scan ∧ t.planner = s.planner ∧ t.chain = s.chain ∧ t.referral = s.referral ∧
        t.bundles = s.bundles ∧ t.recipe = s.recipe ∧ t.label = s.label ∧ t.link = s.link) ∧
    ∀ (g : GateSample) (s : State) (others : List PosEvent), s.inReset = false → s.line.state.moving = true →
      s.motion.mark = s.motion.travel → OnlyDue s ⟨s.motion.travel + 1, .flushClear⟩ others → s.line.holds.flush = true →
      exec (.encForwardStep g) s = .next { s with
        motion := { s.motion with travel := s.motion.travel + 1, mark := s.motion.travel + 1, events := others }
        line := { s.line with holds := { s.line.holds with flush := false } }
        link := s.link.offer (.line s.line.state s.line.state { s.line.holds with flush := false } (s.motion.travel + 1)
          s.link.clock) }

/-- What the forward step that reaches one event of a strip, and no other, does; the events still ahead stay but for those it withdraws. The SE
window opens with its end ahead for a PLANNED or UNPLANNED strip, and for one not yet planned it is LATE_PLAN as well, and every cutting its
processing had allocated leaves the belt (R19, R75); at the window end the strip is LOST with MISSING_EDGE, its fault logged and the effects of R22
taken (R21); at its removal position a strip without belt cuttings leaves the table and TRACK_FULL the set, and one with some stays for them (R17);
at its transfer position a cutting joins a deck with room, and leaves the table at a full one (R134, R135); at its scan window a strip whose trail
is still absent takes store A if that is free, else B, and is UNSCANNED when both are held (R30). That the fire list keeps its entries at a removal,
those of a PLANNED strip removed before its match too, is the model's reading (log 45). -/
def Obligations.ForwardStepMovesAStripOn : Prop :=
  ∀ (g : GateSample) (s : State) (n : Nat) (r : Strip) (p q : Word) (others : List PosEvent), s.inReset = false →
    s.line.state.moving = true → s.motion.mark = s.motion.travel → findStrip s n = some r → p = s.motion.travel + 1 →
    q = plusTicks (plusTicks r.lead s.config.motion.offSE) (s.config.motion.slip + 1) →
    (OnlyDue s ⟨p, .seOpen n⟩ others → isAfter q p = true →
      (r.state = .planned ∨ r.state = .unplanned → exec (.encForwardStep g) s = .next { s with
        motion := { s.motion with travel := p, mark := p, events := others ++ [⟨q, .seEnd n⟩] }
        belt := { s.belt with
          strips := s.belt.strips.map (fun x => if x.number = n then { x with windowOpen := true } else x) } }) ∧
      (r.state = .entering ∨ r.state = .clearedIe ∨ r.state = .scanning ∨ r.state = .waitingPlan → r.removalTaken = false →
        ∃ t x, exec (.encForwardStep g) s = .next t ∧ findStrip t n = some x ∧ x.state = .unplanned ∧
          x.reason = some .latePlan ∧ x.store = none ∧ x.windowOpen = true ∧
          (∀ i, r.store = some i → t.scan.store i = Store.free) ∧
          ⟨q, .seEnd n⟩ ∈ t.motion.events ∧ (∀ e ∈ t.motion.events, e.what ≠ .pass n ∧ (e ∈ others ∨ e = ⟨q, .seEnd n⟩)) ∧
          (∀ e ∈ others, e.what ≠ .pass n → (∀ i, e.what ≠ .transfer ⟨n, i⟩) → e ∈ t.motion.events) ∧
          (s.planner.inFlight = some n → beltCuttings n t = [] ∧ t.planner.inFlight = s.planner.queue.head? ∧
            t.planner.queue = s.planner.queue.drop 1) ∧
          (s.planner.inFlight ≠ some n → t.planner.inFlight = s.planner.inFlight ∧
            t.planner.queue = s.planner.queue.filter (fun m => m != n) ∧ t.cuttings = s.cuttings))) ∧
    (OnlyDue s ⟨p, .seEnd n⟩ others → ∃ t, exec (.encForwardStep g) s = .next t ∧ LossTaken s t n ∧
      (r.removalTaken = false → findStrip t n = some { r with
        state := .lost
        reason := some .missingEdge
        windowOpen := false
        store := none }) ∧
      t.cuttings = s.cuttings.filter (fun c => decide (c.id ∉ beltCuttings n s)) ∧ t.planner.inFlight = s.planner.inFlight ∧
      (∀ e ∈ t.motion.events, e ∈ others) ∧ (∀ e ∈ others, ¬e.what.concerns n → e ∈ t.motion.events) ∧
      (s.link.belt.first = none → t.link.belt.first =
        some { code := 2, detail := none, object := .strip n, position := p, clock := s.link.clock })) ∧
    (OnlyDue s ⟨p, .removal n⟩ others →
      (beltCuttings n s = [] → ∃ t, exec (.encForwardStep g) s = .next t ∧ findStrip t n = none ∧
        (∀ m, m ≠ n → findStrip t m = findStrip s m) ∧ t.line.holds.trackFull = false ∧
        t.motion.events = others.filter (fun e => !EventKind.ofStrip n e.what) ∧
        t.saw = s.saw ∧ t.cuttings = s.cuttings ∧ t.planner = s.planner) ∧
      (beltCuttings n s ≠ [] → exec (.encForwardStep g) s = .next { s with
        motion := { s.motion with travel := p, mark := p, events := others }
        belt := { s.belt with
          strips := s.belt.strips.map (fun x => if x.number = n then { x with removalTaken := true } else x) } })) ∧
    (∀ id c, OnlyDue s ⟨p, .transfer id⟩ others → findCutting s id = some c →
      ∃ t, exec (.encForwardStep g) s = .next t ∧ (∀ e ∈ t.motion.events, e ∈ others) ∧
        (∀ e ∈ others, ¬e.what.concerns id.strip → e ∈ t.motion.events) ∧
        (s.chain.deck.length < Config.deckCapacity →
          t.chain.deck = s.chain.deck ++ [id] ∧ t.chain.transferHigh = true ∧ findCutting t id = some { c with state := .onDeck }) ∧
        (Config.deckCapacity ≤ s.chain.deck.length → t.chain.deck = s.chain.deck ∧ findCutting t id = none)) ∧
    (OnlyDue s ⟨p, .scanOpen n⟩ others → r.state = .entering ∨ r.state = .clearedIe → r.trail = none →
      ∃ t x, exec (.encForwardStep g) s = .next t ∧ findStrip t n = some x ∧
        (∀ e ∈ others, e.what.isPass = false → e ∈ t.motion.events) ∧
        (s.scan.storeA.holder = none → x.state = .scanning ∧ x.store = some .a) ∧
        (s.scan.storeA.holder ≠ none → s.scan.storeB.holder = none → x.state = .scanning ∧ x.store = some .b) ∧
        (s.scan.storeA.holder ≠ none → s.scan.storeB.holder ≠ none →
          x.state = .unplanned ∧ x.reason = some .unscanned ∧ x.flags.unscanned = true))

/-- An IE leading edge in RUN or DRAIN with a record free creates a strip record (R15): the next number, the ACTIVE bank and its strip count, the
lead tick, state ENTERING, and the SE window opening and scan window registered ahead (R19, R29); and the configuration in force reaches the blocks
(R209). Outside RUN and DRAIN the edge is a BELT fault STRAY_EDGE and nothing else; one that finds the strip table full adds TRACK_FULL and logs a
BELT fault TRACK_FULL (R15). That the detail IE is the number 0 is log 30; that the FAULT notice goes ahead of the LINE notice is log 10: both the
model's choice. -/
def Obligations.IeLeadingEdgeByLineAndTable : Prop :=
  (∀ (g : GateSample) (s : State) (k : BankId), s.inReset = false → s.line.state.moving = true →
      s.belt.strips.length < Config.stripCapacity → activeBank s = some k →
      isAfter (moveBy (plusTicks s.motion.travel s.inForce.motion.offSE) (-(s.inForce.motion.slip : Int))) s.motion.mark = true →
      isAfter (plusTicks s.motion.travel s.inForce.motion.offSH) s.motion.mark = true →
      exec (.ieLeadingEdge g) s = .next { s with
        belt :=
          { strips := s.belt.strips ++ [
              { number := s.belt.nextNumber
                bank := k
                lead := s.motion.travel
                trail := none
                length := none
                shift := none
                store := none
                zones := []
                profile := none
                tool := false
                lines := []
                cuttings := []
                yield := none
                flags := { overlength := false, tailCut := false, zoneSat := false, starved := false, sparse := false, unscanned := false }
                reason := none
                state := .entering
                windowOpen := false
                removalTaken := false }]
            nextNumber := if s.belt.nextNumber = 16777215 then 1 else s.belt.nextNumber + 1 }
        recipe := { s.recipe with
          banks := setAt s.recipe.banks k { s.recipe.banks[k] with strips := s.recipe.banks[k].strips + 1 } }
        config := s.inForce
        motion := { s.motion with events := s.motion.events ++
          [⟨moveBy (plusTicks s.motion.travel s.inForce.motion.offSE) (-(s.inForce.motion.slip : Int)), .seOpen s.belt.nextNumber⟩,
           ⟨plusTicks s.motion.travel s.inForce.motion.offSH, .scanOpen s.belt.nextNumber⟩] } }) ∧
    (∀ (g : GateSample) (s : State), s.inReset = false → s.line.state.moving = false →
        exec (.ieLeadingEdge g) s = .next (logFault .belt 1 (some 0) .none s.motion.travel s)) ∧
    ∀ (g : GateSample) (s : State), s.inReset = false → s.line.state.moving = true →
        Config.stripCapacity ≤ s.belt.strips.length → s.line.holds.trackFull = false →
        exec (.ieLeadingEdge g) s = .next
          (let a := logFault .belt 4 none .none s.motion.travel s
           { a with
              line := { s.line with holds := { s.line.holds with trackFull := true } }
              link := a.link.offer (.line s.line.state s.line.state { s.line.holds with trackFull := true } s.motion.travel
                s.link.clock) })

/-- A logged fault becomes the first fault of an empty record, with a FAULT notice; a record that holds one keeps it, counts up to 255 and sets
OVERFLOW, without a notice; the other records stay (R211). -/
def Obligations.FaultRecordsKeepTheFirstFault : Prop :=
  ∀ (b : FaultBook) (code : Nat) (detail : Option Nat) (o : FaultObject) (p : Word) (s : State),
    (∀ b', b' ≠ b → (logFault b code detail o p s).link.record b' = s.link.record b') ∧
    (∀ f : FaultEntry, (s.link.record b).first = none → f = ⟨code, detail, o, p, s.link.clock⟩ →
      (logFault b code detail o p s).link.record b = { first := some f, count := 0, overflow := false } ∧
      (logFault b code detail o p s).link.tx = (s.link.offer (.fault b f)).tx) ∧
    (∀ f, (s.link.record b).first = some f →
      (logFault b code detail o p s).link.record b =
        { first := some f, count := min 255 ((s.link.record b).count + 1), overflow := true } ∧
      (logFault b code detail o p s).link.tx = s.link.tx)

/-- An IE trailing edge with no record waiting is passed over. A waiting record gets the trail and the length (R16), every spindle is charged (R63),
the TOOL flag is set (R65) and the removal position registered. One that is not SCANNING moves from ENTERING to CLEARED_IE and, the PROFILE notices
apart, nothing else changes; one that is SCANNING becomes WAITING_PLAN if its final pass has been taken, or its tail cut, and every pass taken has
its samples, and stays SCANNING otherwise (R34, R39). That a LOST record takes the TOOL flag and its strip's charge too, by R16 and R65 against R14,
is the model's reading (log 39), and so is the oldest record for the trail where several wait (log 24). -/
def Obligations.IeTrailingEdgeMeasuresTheStrip : Prop :=
  (∀ s : State, s.inReset = false → waitingTrail s = none → exec .ieTrailingEdge s = .next s) ∧
    ∀ (s : State) (r : Strip) (mm : Nat) (p : Word), s.inReset = false → waitingTrail s = some r →
      findStrip s r.number = some r →
      mm = min 65535 (((ticksFrom r.lead s.motion.travel).toNat * s.config.motion.k + 32768) / 65536) →
      p = moveBy (plusTicks s.motion.travel (s.config.motion.offSE + s.config.motion.dXE)) (r.shift.getD 0) →
      isAfter p s.motion.mark = true →
      (r.state ≠ .scanning → ∃ t, exec .ieTrailingEdge s = .next t ∧
          t.profile = { s.profile with spindles := s.profile.spindles.map (SpindleRecord.charge mm) } ∧
          findStrip t r.number = some { r with
            trail := some s.motion.travel
            length := some mm
            state := if r.state = .entering then .clearedIe else r.state
            tool := t.profile.spindles.toList.any (fun x => x.state == .expired) } ∧
          (∀ m, m ≠ r.number → findStrip t m = findStrip s m) ∧
          (∃ more : List TxFrame, t.link = { s.link with tx := s.link.tx ++ more, dropped := t.link.dropped } ∧
            ∀ f ∈ more, ∃ n k, f = .notice (.profile n k)) ∧
          t = { s with
            profile := t.profile
            belt := { strips := t.belt.strips, nextNumber := s.belt.nextNumber }
            motion := { s.motion with events := s.motion.events ++ [⟨p, .removal r.number⟩] }
            link := t.link }) ∧
      ∀ (i : StoreId) (y : Scanning), scanningOf s r.number = some (i, y) → ∃ t x, exec .ieTrailingEdge s = .next t ∧
        findStrip t r.number = some x ∧ x.trail = some s.motion.travel ∧ x.length = some mm ∧ x.store = some i ∧
        x.tool = t.profile.spindles.toList.any (fun z => z.state == .expired) ∧
        x.state = (if (y.scan.cut = true ∨ { r with trail := some s.motion.travel }.finalPass s.config.scan < (y.scan.next : Int)) ∧
          y.scan.owed ≤ y.slots.length then .waitingPlan else .scanning) ∧
        t.profile.spindles = s.profile.spindles.map (SpindleRecord.charge mm) ∧ ⟨p, .removal r.number⟩ ∈ t.motion.events ∧
        (∀ m, m ≠ r.number → findStrip t m = findStrip s m) ∧
        t.motion.travel = s.motion.travel ∧ t.motion.mark = s.motion.mark ∧ t.line.state = s.line.state ∧ t.saw = s.saw ∧
        t.chain = s.chain ∧ t.bundles = s.bundles ∧ t.label = s.label ∧ t.config = s.config ∧ t.inForce = s.inForce

/-- An SE leading edge in no open window is a BELT fault STRAY_EDGE with detail SE and changes no strip; in the window of one UNPLANNED strip it
records the shift and closes the window; an SE trailing edge changes nothing (R4, R20). A removal position registered for that strip moves by the
shift (R20): ahead of the mark it is registered anew; reached, it is taken at once, and the strip leaves the table as a return from there, or stays
for cuttings still on the belt (R2, R17, R146). That the detail SE is the number 1 is the model's choice (log 30). -/
def Obligations.SeEdgesWithoutACut : Prop :=
  (∀ s : State, exec .seTrailingEdge s = .next s) ∧
    (∀ s : State, s.inReset = false → openWindows s s.motion.travel = [] →
      exec .seLeadingEdge s = .next (logFault .belt 1 (some 1) .none s.motion.travel s)) ∧
    ∀ (s : State) (r : Strip) (shift : Int), s.inReset = false → openWindows s s.motion.travel = [r] → r.state = .unplanned →
      shift = ticksFrom (plusTicks r.lead s.config.motion.offSE) s.motion.travel →
      ((∀ e ∈ s.motion.events, e.what ≠ .removal r.number) →
        exec .seLeadingEdge s = .next { s with
          belt := { s.belt with strips := s.belt.strips.map (fun x => if x.number = r.number then
            { x with shift := some shift, windowOpen := false } else x) }
          motion := { s.motion with events := s.motion.events.filter (fun e => !(e.what == .seEnd r.number)) } }) ∧
      ∀ (tr q : Word), findStrip s r.number = some r → r.trail = some tr →
        q = moveBy (plusTicks tr (s.config.motion.offSE + s.config.motion.dXE)) shift →
        (∃ e ∈ s.motion.events, e.what = .removal r.number) →
        (isAfter q s.motion.mark = true → exec .seLeadingEdge s = .next { s with
          belt := { s.belt with strips := s.belt.strips.map (fun x => if x.number = r.number then
            { x with shift := some shift, windowOpen := false } else x) }
          motion := { s.motion with
            events := s.motion.events.filter (fun e => !(e.what == .seEnd r.number) && !(e.what == .removal r.number)) ++
              [⟨q, .removal r.number⟩] } }) ∧
        (isAfter q s.motion.mark = false → beltCuttings r.number s = [] →
          ∃ t, exec .seLeadingEdge s = .next t ∧ findStrip t r.number = none ∧ (∀ m, m ≠ r.number → findStrip t m = findStrip s m) ∧
            t.motion.events = s.motion.events.filter (fun e => !EventKind.ofStrip r.number e.what) ∧
            t.line.holds.trackFull = false ∧ t.cuttings = s.cuttings ∧ t.motion.travel = s.motion.travel ∧
            ∀ why, r.reason = some why → t.chain.lastReturn = some
              { object := .strip r.number, reason := why.toReturn, place := .tick q, clock := s.link.clock }) ∧
        (isAfter q s.motion.mark = false → beltCuttings r.number s ≠ [] → exec .seLeadingEdge s = .next { s with
          belt := { s.belt with strips := s.belt.strips.map (fun x => if x.number = r.number then
            { x with shift := some shift, windowOpen := false, removalTaken := true } else x) }
          motion := { s.motion with
            events := s.motion.events.filter (fun e => !(e.what == .seEnd r.number) && !(e.what == .removal r.number)) } })

/-- An SE leading edge in the window of one PLANNED strip makes it CUTTING with its shift, and every fire entry left of it has moved by the shift
(R20, R93). With every moved entry, every transfer position and a moved removal position ahead of the mark, the record stands; a registered removal
position has moved by the shift (R20); every entry that keeps its spacing to the entries of other strips and to the last fire stays, moved, with its
fire registered (R93); and every cutting of the strip still on the belt has its transfer registered where its end passes the crosscut exit, counted
from the edge just seen (R96). -/
def Obligations.SeEdgeMatchesAPlannedStrip : Prop :=
  ∀ (s : State) (r : Strip) (shift : Int), s.inReset = false → openWindows s s.motion.travel = [r] → r.state = .planned →
    shift = ticksFrom (plusTicks r.lead s.config.motion.offSE) s.motion.travel →
    ∃ t, exec .seLeadingEdge s = .next t ∧
      (∀ x, findStrip t r.number = some x → x.state = .cutting ∧ x.shift = some shift ∧ x.windowOpen = false) ∧
      (∀ e ∈ t.saw.entries, e.strip = r.number →
        ∃ e0 ∈ s.saw.entries, e0.strip = r.number ∧ e0.line = e.line ∧ e.tick = moveBy e0.tick shift) ∧
      ∀ q, findStrip s r.number = some r → r.removalTaken = false →
        q = moveBy (plusTicks (r.trail.getD r.lead) (s.config.motion.offSE + s.config.motion.dXE)) shift →
        ((∃ e ∈ s.motion.events, e.what = .removal r.number) → isAfter q s.motion.mark = true) →
        (∀ e ∈ s.saw.entries, e.strip = r.number → isAfter (moveBy e.tick shift) s.motion.mark = true) →
        (∀ c ∈ s.cuttings, c.id.strip = r.number → isAfter (transferPos s { r with shift := some shift } c) s.motion.mark = true) →
        (∃ x, findStrip t r.number = some x) ∧
        (∀ e ∈ t.motion.events, e.what = .removal r.number → e.pos = q) ∧
        ((∃ e ∈ s.motion.events, e.what = .removal r.number) → ⟨q, .removal r.number⟩ ∈ t.motion.events) ∧
        (∀ e ∈ s.saw.entries, e.strip = r.number →
          tooClose (drTicks s) s.saw.lastFire (s.saw.entries.filter (fun o => o.strip != r.number)) (moveBy e.tick shift) = false →
          { e with tick := moveBy e.tick shift } ∈ t.saw.entries ∧
            ⟨moveBy e.tick shift, .fire r.number e.line⟩ ∈ t.motion.events) ∧
        ∀ (c : Cutting) (k : CutSection), c ∈ t.cuttings → c.id.strip = r.number → c.state.onBelt = true →
          s.recipe.banks[c.bank].cut = some k →
          ⟨plusTicks s.motion.travel (s.config.motion.dXE + mmToTicks s.config.motion.k (c.spanStart + c.nominal + k.ae)),
            .transfer c.id⟩ ∈ t.motion.events

/-- An SE leading edge in two or more open windows, in RUN or DRAIN, is a track flush (R23): every strip not CUTTING is LOST, with the effects of
R22, and one CUTTING goes on unchanged with its fire entries; the first BELT fault AMBIGUOUS_EDGE names the number of windows and the lowest strip
number among them, FLUSH joins the set with its clearing event ahead, the last-return record is copied, and the FLUSH notice carries the strips lost
(R26); a DRAIN that the loss completes goes to READY (R7). That the mark falls to the counter at that READY is the model's reading (log 26), and so
are that the copy stands after any return the loss itself writes (log 40), and that a clearing position which the mark has reached is taken at once,
after the FLUSH notice (log 44). -/
def Obligations.AmbiguousEdgeFlushesTheTrack : Prop :=
  ∀ (s : State) (r1 r2 : Strip) (rs : List Strip) (p : Word) (ns : List Nat), s.inReset = false → s.line.state.moving = true →
    openWindows s s.motion.travel = r1 :: r2 :: rs →
    p = plusTicks s.motion.travel (s.config.motion.offSE + s.config.motion.dXE) →
    isAfter p s.motion.travel = true →
    ns = (s.belt.strips.filter (fun r => r.state != .cutting && r.state != .lost)).map Strip.number →
    ∃ t, exec .seLeadingEdge s = .next t ∧ (∀ r ∈ t.belt.strips, r.state = .cutting ∨ r.state = .lost) ∧
      (∀ n ∈ ns, LossTaken s t n) ∧ (∀ e ∈ s.saw.entries, e.strip ∉ ns → e ∈ t.saw.entries) ∧
      (∀ n r, n ∉ ns → findStrip s n = some r → findStrip t n = some r) ∧
      (isAfter p s.motion.mark = true ∨ t.line.state = .ready → FlushPending t p) ∧
      (isAfter p s.motion.mark = false → t.line.state = s.line.state → FlushPassed t) ∧ t.chain.preFlush = t.chain.lastReturn ∧
      (s.link.belt.first = none → ∃ n, n ∈ (r1 :: r2 :: rs).map Strip.number ∧ (∀ m ∈ (r1 :: r2 :: rs).map Strip.number, n ≤ m) ∧
        t.link.belt.first = some
          { code := 3, detail := some (rs.length + 2), object := .strip n, position := s.motion.travel, clock := s.link.clock }) ∧
      (∀ f, s.link.belt.first = some f → t.link.belt = ⟨some f, min 255 (s.link.belt.count + 1), true⟩) ∧
      (s.link.mask[2] = true → t.link.noticeCount < Config.noticeCapacity →
        TxFrame.notice (.flush .ambiguous s.motion.travel ns.length ns.head? ns.getLast?) ∈ t.link.tx) ∧
      t.motion.travel = s.motion.travel ∧
      (t.line.state = s.line.state ∧ t.motion.mark = s.motion.mark ∨
        s.line.state = .drain ∧ t.line.state = .ready ∧ t.motion.mark = s.motion.travel)

/-- START is taken in READY and DRAIN and makes the line RUN without NOT_RUN and DRAIN; DRAIN is taken in RUN and makes the line DRAIN, and with
nothing left to track READY at once, each change with its LINE notice; in DRAIN it changes nothing; in the other states each is refused with STATE
(R6, R7, R12). That the mark falls to the counter at that READY is the model's reading (log 26). -/
def Obligations.StartAndDrainByLineState : Prop :=
  ∀ (s : State) (r : Request), Asked s r → r.body = [] →
    (r.kind = 0x05 → s.line.state = .ready ∨ s.line.state = .drain → exec .start s = .next (reply r .ok .none { s with
      line := { s.line with state := .run, holds := { s.line.holds with notRun := false, drain := false } }
      link := s.link.offer (.line .run s.line.state { s.line.holds with notRun := false, drain := false } s.motion.travel
        s.link.clock) })) ∧
    (r.kind = 0x05 → s.line.state = .standby ∨ s.line.state = .run ∨ s.line.state = .estop →
      exec .start s = .next (reply r .state .none s)) ∧
    (r.kind = 0x06 → s.line.state = .run → trackingEmpty s = false → exec .drain s = .next (reply r .ok .none { s with
      line := { s.line with state := .drain, holds := { s.line.holds with notRun := false, drain := true } }
      link := s.link.offer (.line .drain .run { s.line.holds with notRun := false, drain := true } s.motion.travel
        s.link.clock) })) ∧
    (r.kind = 0x06 → s.line.state = .run → trackingEmpty s = true → exec .drain s = .next (reply r .ok .none { s with
      line := { s.line with state := .ready, holds := { s.line.holds with notRun := true, drain := false } }
      motion := { s.motion with mark := s.motion.travel }
      link := (s.link.offer (.line .drain .run { s.line.holds with notRun := false, drain := true } s.motion.travel s.link.clock)).offer
        (.line .ready .drain { s.line.holds with notRun := true, drain := false } s.motion.travel s.link.clock) })) ∧
    (r.kind = 0x06 → s.line.state = .drain → exec .drain s = .next (reply r .ok .none s)) ∧
    (r.kind = 0x06 → s.line.state = .standby ∨ s.line.state = .ready ∨ s.line.state = .estop →
      exec .drain s = .next (reply r .state .none s))

/-- RESET LINE outside ESTOP, E-STOP becoming active outside ESTOP, and E-STOP becoming inactive in ESTOP: the tracking state is cleared (the first
two), the line takes READY or STANDBY, or ESTOP, the mark stands at the counter (its moment is the model's reading: log 26), and the counters, the
next strip number, the causes HOST and PROFILE, Profile Watch and the configuration keep their values, TRANSFER is low, and the reservations of the
cuttings on lugs leave their bundles, which then go bin by bin as BinReset says (R149, R173, R202); at the third nothing changes but the line, the
mark, the DUMP pulses that were owed and the notices; RESET LINE in ESTOP is refused with STATE (R8, R9, R10, R25, R181). -/
def Obligations.ResetLineAndEStop : Prop :=
  (∀ (s : State) (r : Request), Asked s r → r.kind = 0x07 → r.body = [] → s.line.state ≠ .estop →
      ∃ t, exec .resetLine s = .next t ∧ TrackingCleared t ∧ t.line.state = restState t ∧ t.line.estopLevel = s.line.estopLevel ∧
        t.line.holds = { notRun := true, drain := false, host := s.line.holds.host, deck := false,
                         profile := s.line.holds.profile, flush := false, trackFull := false, records := false } ∧
        t.motion = { travel := s.motion.travel, mark := s.motion.travel, lug := s.motion.lug, events := [] } ∧
        t.belt.nextNumber = s.belt.nextNumber ∧
        t.chain.preFlush = s.chain.lastReturn ∧ t.profile = s.profile ∧ t.config = s.config ∧ t.inForce = s.inForce ∧
        BinsReset s t ∧ t.link.requests = s.link.requests.drop 1 ∧
        t.link.tx.getLast? = some (.reply { kind := 0x47, tag := r.tag, status := .ok, data := .none })) ∧
    (∀ (s : State) (r : Request), Asked s r → r.kind = 0x07 → r.body = [] → s.line.state = .estop →
      exec .resetLine s = .next (reply r .state .none s)) ∧
    (∀ s : State, s.inReset = false → s.line.state ≠ .estop →
      ∃ t, exec .eStopActive s = .next t ∧ TrackingCleared t ∧ t.line.state = .estop ∧ t.line.estopLevel = true ∧
        t.line.holds = { notRun := true, drain := false, host := s.line.holds.host, deck := false,
                         profile := s.line.holds.profile, flush := false, trackFull := false, records := false } ∧
        t.motion = { travel := s.motion.travel, mark := s.motion.travel, lug := s.motion.lug, events := [] } ∧
        t.belt.nextNumber = s.belt.nextNumber ∧
        t.chain.preFlush = s.chain.lastReturn ∧ t.profile = s.profile ∧ t.config = s.config ∧ t.inForce = s.inForce ∧
        BinsReset s t ∧ t.link.requests = s.link.requests ∧ (∀ b : Bin, dumpOut t b = false) ∧
        ∀ b : Bin, s.label.dumpHigh[b] = true → t.label.owed[b] = true) ∧
    ∀ s : State, s.inReset = false → s.line.state = .estop →
      ∃ t, exec .eStopInactive s = .next t ∧ t.line.state = restState s ∧ t.line.estopLevel = false ∧
        (∀ b : Bin, t.label.owed[b] = false ∧ t.label.dumpHigh[b] = (s.label.dumpHigh[b] || s.label.owed[b])) ∧
        t.line.holds = { s.line.holds with notRun := true, drain := false } ∧ t = { s with
          line := t.line
          motion := { s.motion with mark := s.motion.travel }
          label := { s.label with owed := t.label.owed, dumpHigh := t.label.dumpHigh }
          link := t.link }

/-! ### Scan, profile, plan -/

/-- CONVERSION_COMPLETE ends the conversion; the strip still scanning with that slot next gets the samples of its scan list there, not HELD, and
keeps the slots before it (R32). A scan that goes on has its GAUGE runs carried to that pass: a channel that fails there opens a run or keeps its
own, and one that does not has its run closed there into a zone (R41, R42); the held passes filled behind it, copies of it (R33), change neither.
That several zones closed at one pass enter in ascending channel order is the model's choice (log 18). No cutting record of another strip changes,
and with a processing in flight none at all, since only a processing that begins allocates (R70, R72). With the converter idle nothing changes (the
model's choice, log 2). -/
def Obligations.ConversionFillsTheSlot : Prop :=
  (∀ (v : Vector Int 16) (s : State), s.scan.converter = none → exec (.conversionComplete v) s = .next s) ∧
    ∀ (v : Vector Int 16) (s : State) (c : Conversion) (i : StoreId) (x : Scanning) (samples : List Sample), s.inReset = false →
      s.scan.converter = some c → scanningOf (setConverter none s) c.strip = some (i, x) → x.slots.length = c.pass →
      samples = (s.config.scan.channels.zip v.toList).map (fun p => sampleOf s.config.channels p.1 p.2) →
      ∃ t, exec (.conversionComplete v) s = .next t ∧ t.scan.converter = none ∧
        (t.scan.store i).slots[c.pass]? = some { samples, held := false } ∧
        (x.scan.cut = false → x.passesDone s.config.scan = false → ∃ y, scanningOf t c.strip = some (i, y) ∧
          y.scan = { x.scan with gauge := y.scan.gauge } ∧
          GaugeRunsAt s.config.channels samples c.pass x.scan.gauge y.scan.gauge ∧
          RunsClosed s.config.channels x.scan.gauge c.pass (fun k => ¬ChannelFailsAt s.config.channels samples k) x.strip y.strip) ∧
        (t.scan.store i).slots.take c.pass = x.slots ∧ t.motion.travel = s.motion.travel ∧
        (∀ k ∈ s.cuttings, k.id.strip ≠ c.strip → k ∈ t.cuttings) ∧
        (s.planner.inFlight ≠ none → t.cuttings = s.cuttings ∧ t.recipe = s.recipe) ∧
        t.saw = s.saw ∧ t.chain = s.chain ∧ t.bundles = s.bundles

/-- A forward step that takes the pass of a strip that still covers IE (R31 to R33, R39, R40): the next pass is registered one pitch on; with the
converter idle the pass's conversion begins, with it busy the pass is held, SPARSE is set, and a copy of the pass before it fills its slot once that
pass has its samples (for pass 0 a slot of code 0), whose samples the window comparators test (R41, R42), and from pass 2048 on OVERLENGTH is set,
every GAUGE run closing at 2048 (R37, R42); the gate sample opens or extends the DEFECT run of pass j less the lag, or closes it into a zone. When
the next strip's scan window opens over a strip whose final pass is to come, that strip's tail is cut and its pass withdrawn; with every sample
there it goes to the planner, otherwise it scans on for them; the next strip, if ENTERING with a store free, takes the other store and its pass 0,
held as a placeholder while the converter is busy, and one past these states takes none. After any scan window opening only passes of the strip that
opened it are registered (R30); that a pass beyond pass F goes too is the model's reading (log 38). In each the events still ahead stay. -/
def Obligations.PassesAreTakenInOrder : Prop :=
  (∀ (g : GateSample) (s : State) (n : Nat) (i : StoreId) (x : Scanning) (p q : Word) (j lag : Nat) (others : List PosEvent),
    s.inReset = false → s.line.state.moving = true → s.motion.mark = s.motion.travel → p = s.motion.travel + 1 →
    OnlyDue s ⟨p, .pass n⟩ others → scanningOf s n = some (i, x) →
    x.strip.trail = none → x.scan.cut = false → j = x.scan.next → lag = s.config.scan.lag →
    q = plusTicks x.strip.lead (s.config.motion.offSH + (j + 1) * s.config.scan.pitch) → isAfter q p = true →
    ∃ t y, exec (.encForwardStep g) s = .next t ∧ scanningOf t n = some (i, y) ∧ y.scan.next = j + 1 ∧ y.scan.cut = false ∧
      t.motion = { s.motion with travel := p, mark := p, events := others ++ [⟨q, .pass n⟩] } ∧
      (∀ m, m ≠ n → findStrip t m = findStrip s m) ∧
      (j < 2048 → s.scan.converter = none → t.scan.converter = some ⟨n, j⟩ ∧ y.slots = x.slots ∧ y.scan.owed = x.scan.owed + 1 ∧
        y.strip.flags.sparse = x.strip.flags.sparse) ∧
      (j < 2048 → s.scan.converter ≠ none → t.scan.converter = s.scan.converter ∧ y.scan.owed = x.scan.owed + 1 ∧
        y.strip.flags.sparse = true ∧ (x.slots.length ≠ j → y.slots = x.slots) ∧
        (∀ z, x.slots.length = j → x.slots.getLast? = some z → y.slots = x.slots ++ [{ z with held := true }]) ∧
        (j = 0 → x.slots = [] → y.slots = [
          { samples := s.config.scan.channels.map (fun c => { channel := c, code := 0, value := 0, saturated := true }),
            held := true }])) ∧
      (2048 ≤ j → t.scan.converter = s.scan.converter ∧ y.slots = x.slots ∧ y.strip.flags.overlength = true) ∧
      (j < 2048 → s.scan.converter = none ∨ x.slots.length ≠ j → y.scan.gauge = x.scan.gauge) ∧
      (∀ z : PassSlot, j < 2048 → s.scan.converter ≠ none → x.slots.length = j → y.slots = x.slots ++ [z] →
        GaugeRunsAt s.config.channels z.samples j x.scan.gauge y.scan.gauge ∧
        (j < lag ∨ x.scan.defect = none ∧ g.active = false →
          RunsClosed s.config.channels x.scan.gauge j (fun k => ¬ChannelFailsAt s.config.channels z.samples k)
            { x.strip with flags := { x.strip.flags with sparse := true } } y.strip)) ∧
      (j = 2048 → (∀ c : Channel, y.scan.gauge[c] = none) ∧
        (j < lag ∨ x.scan.defect = none ∧ g.active = false →
          RunsClosed s.config.channels x.scan.gauge 2048 (fun _ => True)
            { x.strip with flags := { x.strip.flags with overlength := true } } y.strip)) ∧
      (2048 < j → y.scan.gauge = x.scan.gauge) ∧
      (j < lag → y.scan.defect = x.scan.defect) ∧
      (lag ≤ j → j - lag < 2048 → g.active = true →
        (x.scan.defect = none → y.scan.defect = some ⟨j - lag, max 1 g.severity.toNat⟩) ∧
        ∀ d, x.scan.defect = some d → y.scan.defect = some ⟨d.start, max d.severity (max 1 g.severity.toNat)⟩) ∧
      (lag ≤ j → g.active = false ∨ 2048 ≤ j - lag → y.scan.defect = none ∧
        ∀ d, j < 2048 → s.scan.converter = none → x.scan.defect = some d →
          y.strip = x.strip.enterZone ⟨.gate, d.start, j - lag, d.severity⟩) ∧
      t.line = s.line ∧ t.planner = s.planner ∧ t.saw = s.saw ∧ t.cuttings = s.cuttings ∧ t.chain = s.chain ∧
      t.bundles = s.bundles ∧ t.recipe = s.recipe ∧ t.profile = s.profile ∧ t.link = s.link) ∧
    (∀ (g : GateSample) (s : State) (n m : Nat) (i : StoreId) (x : Scanning) (r : Strip) (p q : Word) (others ahead : List PosEvent),
      s.inReset = false → s.line.state.moving = true → s.motion.mark = s.motion.travel → p = s.motion.travel + 1 →
      OnlyDue s ⟨p, .scanOpen m⟩ others → ahead = others.filter (fun e => !e.what.isPass) → findStrip s m = some r → n ≠ m →
      scanningOf s n = some (i, x) → x.scan.cut = false → x.passesDone s.config.scan = false →
      (∀ y ∈ s.belt.strips, y.number ≠ n → passesGoOn s y = false) →
      q = plusTicks r.lead (s.config.motion.offSH + s.config.scan.pitch) →
      (r.state ≠ .entering ∧ r.state ≠ .clearedIe ∨ r.state = .entering ∧ r.trail = none ∧ isAfter q p = true ∧
        ∀ k : StoreId, (s.scan.store k).holder = none ↔ k ≠ i) →
      ∃ t, exec (.encForwardStep g) s = .next t ∧
        (x.slots.length < x.scan.owed → ∃ y, scanningOf t n = some (i, y) ∧ y.scan = { x.scan with cut := true } ∧
          y.slots = x.slots ∧ y.strip = { x.strip with flags := { x.strip.flags with tailCut := true } } ∧
          t.planner = s.planner ∧ t.cuttings = s.cuttings ∧ t.line = s.line) ∧
        (x.scan.owed ≤ x.slots.length → ∃ y, findStrip t n = some y ∧ y.state = .waitingPlan ∧ y.store = some i ∧
          y.flags.tailCut = true) ∧
        (r.state ≠ .entering → findStrip t m = some r ∧ t.motion.events = ahead) ∧
        (r.state = .entering → t.motion.events = ahead ++ [⟨q, .pass m⟩] ∧ ∃ k z, k ≠ i ∧ scanningOf t m = some (k, z) ∧
          (t.scan.store k).holder = some m ∧ z.scan.next = 1 ∧ z.scan.owed = 1 ∧
          (s.scan.converter = none → t.scan.converter = some ⟨m, 0⟩ ∧ z.slots = [] ∧
            z.strip = { r with state := .scanning, store := some k }) ∧
          (s.scan.converter ≠ none → t.scan.converter = s.scan.converter ∧
            z.strip = { r with state := .scanning, store := some k, flags := { r.flags with sparse := true } } ∧
            z.slots = [{ samples := s.config.scan.channels.map (fun c => { channel := c, code := 0, value := 0, saturated := true })
                         held := true }]))) ∧
    ∀ (g : GateSample) (s : State) (m : Nat) (p : Word) (others : List PosEvent), s.inReset = false → s.line.state.moving = true →
      s.motion.mark = s.motion.travel → p = s.motion.travel + 1 → OnlyDue s ⟨p, .scanOpen m⟩ others →
      ∃ t, exec (.encForwardStep g) s = .next t ∧ ∀ e ∈ t.motion.events, e.what.isPass = true → e.what = .pass m

/-- The scan end of a strip at its final pass (R34): it becomes WAITING_PLAN with its store, and its processing begins, or it joins the planner
queue (R70). Its open runs close: the DEFECT run after the last attributed pass (R40), then every GAUGE run at the pass count (R42), and their zones
enter the list, the GAUGE ones in ascending channel order, which is the model's choice (log 18). Its profile status is the worst class of the roles
with a classified sample, and none without one (R55); LIMIT raises the consecutive-limit count and another status takes it to 0 (R56); at the stop
count PROFILE joins the set with the STOP notice (R57); the mean of the TONGUE_T samples of a strip of the ACTIVE bank enters the drift ring (R59),
and a full ring gives the drift and moves its alarm (R60). That STOP is the first notice of the scan end is the model's choice (log 10). -/
def Obligations.ScanEndJudgesTheStrip : Prop :=
  (∀ l : List ProfileStatus, (worstOf l = none ↔ l = []) ∧ ∀ c, worstOf l = some c → c ∈ l ∧ ∀ d ∈ l, d.rank ≤ c.rank) ∧
    ∀ (g : GateSample) (s : State) (n : Nat) (i : StoreId) (x : Scanning) (j lag : Nat) (p : Word) (others : List PosEvent),
      s.inReset = false →
      s.line.state.moving = true → s.motion.mark = s.motion.travel → p = s.motion.travel + 1 →
      OnlyDue s ⟨p, .pass n⟩ others → j = x.scan.next → lag = s.config.scan.lag →
      scanningOf s n = some (i, x) → x.strip.trail.isSome = true → x.strip.isBody s.config.scan.pitch x.scan.next = false →
      x.strip.finalPass s.config.scan ≤ (x.scan.next : Int) → x.scan.owed ≤ x.slots.length →
      ∃ t r, exec (.encForwardStep g) s = .next t ∧ findStrip t n = some r ∧ r.state = .waitingPlan ∧ r.store = some i ∧
        (t.scan.store i).slots = x.slots ∧ t.motion.events = others.filter (fun e => e.what != .pass n) ∧
        t.line.state = s.line.state ∧ (∀ m, m ≠ n → findStrip t m = findStrip s m) ∧
        (∀ u : Strip,
          (x.scan.defect = none ∧ g.active = false ∧ u = x.strip) ∨
          (x.scan.defect = none ∧ g.active = true ∧ lag ≤ j ∧ j - lag < 2048 ∧
            u = x.strip.enterZone ⟨.gate, j - lag, j + 1 - lag, max 1 g.severity.toNat⟩) ∨
          (∃ d, x.scan.defect = some d ∧ lag ≤ j ∧ j - lag < 2048 ∧
            (g.active = false ∧ u = x.strip.enterZone ⟨.gate, d.start, j - lag, d.severity⟩ ∨
              g.active = true ∧ u = x.strip.enterZone ⟨.gate, d.start, j + 1 - lag, max d.severity (max 1 g.severity.toNat)⟩)) →
          ∃ w, RunsClosed s.config.channels x.scan.gauge x.slots.length (fun _ => True) u w ∧ r.zones = w.zones ∧ r.flags = w.flags) ∧
        (s.planner.inFlight = none → t.planner.inFlight = some n ∧ t.planner.queue = s.planner.queue) ∧
        (s.planner.inFlight ≠ none → t.planner = { s.planner with queue := s.planner.queue ++ [n] }) ∧
        ∀ (sec : ProfileSection) (cs : Vector (Option ProfileStatus) 4),
          s.recipe.banks[x.strip.bank].profile = some sec → cs = roleClasses s.config sec x.strip x.slots →
          (statusOf cs = none → r.profile = x.strip.profile ∧ t.profile = s.profile ∧
            t.line.holds.profile = s.line.holds.profile) ∧
          ∀ st, statusOf cs = some st → r.profile = some st ∧
            (st ≠ .limit → t.profile.limitCount = 0 ∧ t.line.holds.profile = s.line.holds.profile) ∧
            (∀ k, st = .limit → k = min 255 (s.profile.limitCount + 1) → t.profile.limitCount = k ∧
              t.line.holds.profile = (s.line.holds.profile || decide (sec.stopCount ≤ k)) ∧
              (s.line.holds.profile = false → sec.stopCount ≤ k →
                ∃ more, t.link.tx = (s.link.offer (.profile (.stop n k sec.stopCount cs) s.link.clock)).tx ++ more)) ∧
            (activeBank s ≠ some x.strip.bank ∨ classifiedValues s.config x.strip x.slots .tongueT = [] →
              t.profile.ring = s.profile.ring ∧ t.profile.drift = s.profile.drift ∧ t.profile.armed = s.profile.armed) ∧
            ∀ (vs : List Int) (ring : List Nat), activeBank s = some x.strip.bank →
              vs = classifiedValues s.config x.strip x.slots .tongueT → vs ≠ [] →
              ring = (if s.profile.ring.length < 16 then s.profile.ring else s.profile.ring.drop 1) ++
                [(vs.sum.tdiv vs.length).toNat] →
              t.profile.ring = ring ∧
              (ring.length ≠ 16 → t.profile.drift = s.profile.drift ∧ t.profile.armed = s.profile.armed) ∧
              ∀ d : Int, ring.length = 16 → d = (ring.sum / 16 : Nat) - (sec.tongueNominal : Int) →
                t.profile.drift = some d ∧
                t.profile.armed = (if s.profile.armed then decide (d.natAbs ≤ sec.driftLimit)
                  else decide (d.natAbs ≤ sec.driftLimit / 2))

/-- A zone entered keeps the list at 16 zones at most and in ascending start, and some zone of the list covers its wood with at least its severity;
when the list was full, ZONE_SAT is set (R43, R44). -/
def Obligations.ZoneListStaysOrdered : Prop :=
  ∀ (z : Zone) (r : Strip), r.zones.length ≤ Config.zoneCapacity → r.zones.Pairwise (fun a b => a.start ≤ b.start) →
    (r.enterZone z).zones.length ≤ Config.zoneCapacity ∧ (r.enterZone z).zones.Pairwise (fun a b => a.start ≤ b.start) ∧
    (∃ y ∈ (r.enterZone z).zones, y.start ≤ z.start ∧ z.stop ≤ y.stop ∧ z.severity ≤ y.severity) ∧
    (r.zones.length = Config.zoneCapacity → (r.enterZone z).flags.zoneSat = true)

/-- The features of a cutting, reduced over its span of the strip's store, zone list and record (R45): LEN, CLASS, STRIPLEN and INDEX (R46); TMIN,
TMAX and TSPREAD (R47); WDEV against the bank's nominal width (R48); DCOUNT, DSEVMAX and GAUGEZ over the zones that overlap the span (R49); PROF and
TOOL, absent while a spindle is UNSET (R50); and MOIST, the mean truncated toward zero (R51). A feature over samples is absent without one. -/
def Obligations.FeaturesReduceTheSpan : Prop :=
  ∀ (s : State) (r : Strip) (slots : List PassSlot) (c : Cutting) (k : CutSection) (a b : Nat) (f : Vector (Option Int) 14)
    (zones : List Zone) (widths moist : List Int),
    s.recipe.banks[c.bank].cut = some k → a = c.spanStart → b = c.spanStart + c.nominal + k.ae → f = reduceFeatures s r slots c →
    zones = r.zones.filter (overlapsSpan s a b) → widths = spanValues s slots a b (fun x => x == .width) →
    moist = spanValues s slots a b (fun x => x == .moist) →
    f[0] = some (c.nominal : Int) ∧ f[1] = some (c.cls : Int) ∧ f[12] = some ((r.length.getD 0 : Nat) : Int) ∧
    f[13] = some (c.id.index : Int) ∧
    IsLowest f[2] (spanValues s slots a b Role.isThick) ∧ IsHighest f[3] (spanValues s slots a b Role.isThick) ∧
    (f[2] = none → f[4] = none) ∧ (∀ lo hi, f[2] = some lo → f[3] = some hi → f[4] = some (hi - lo)) ∧
    IsHighest f[5] (widths.map (fun v => ((v - (k.nominalWidth : Int)).natAbs : Int))) ∧
    f[6] = some ((zones.countP (fun z => decide (z.source = .gate)) : Nat) : Int) ∧
    (∃ m : Nat, f[7] = some (m : Int) ∧ (∀ z ∈ zones, z.source = .gate → z.severity ≤ m) ∧
      (m = 0 ∨ ∃ z ∈ zones, z.source = .gate ∧ z.severity = m)) ∧
    f[8] = some ((zones.countP (fun z => decide (z.source ≠ .gate ∧ z.severity = 0)) : Nat) : Int) ∧
    ((r.profile = none → f[9] = none) ∧ (r.profile = some .ok → f[9] = some 0) ∧ (r.profile = some .warn → f[9] = some 1) ∧
      (r.profile = some .limit → f[9] = some 2)) ∧
    ((∃ i : Spindle, s.profile.spindles[i].state = .unset) → f[10] = none) ∧
    ((∀ i : Spindle, s.profile.spindles[i].state ≠ .unset) → f[10] = some (if r.tool then 1 else 0)) ∧
    (moist = [] → f[11] = none) ∧ (moist ≠ [] → f[11] = some (moist.sum.tdiv moist.length))

/-- PROFILE RESUME sets the consecutive-limit count to 0 and removes PROFILE, with a LINE notice if it was present, and changes nothing else (R58).
TOOL SET with fields in range loads the spindle and empties the drift ring (R61, R66); a field out of range is refused with its index, and of
several the lowest index is given, which is the model's choice (log 35). -/
def Obligations.ProfileResumeAndToolSet : Prop :=
  (∀ (s : State) (r : Request), Asked s r → r.kind = 0x30 → r.body = [] → s.line.holds.profile = true →
      exec .profileResume s = .next (reply r .ok .none { s with
        profile := { s.profile with limitCount := 0 }
        line := { s.line with holds := { s.line.holds with profile := false } }
        link := s.link.offer (.line s.line.state s.line.state { s.line.holds with profile := false } s.motion.travel
          s.link.clock) })) ∧
    (∀ (s : State) (r : Request), Asked s r → r.kind = 0x30 → r.body = [] → s.line.holds.profile = false →
      exec .profileResume s = .next (reply r .ok .none { s with profile := { s.profile with limitCount := 0 } })) ∧
    ∀ (s : State) (r : Request) (i : Byte) (v w : BitVec 16), Asked s r → r.kind = 0x31 →
      r.body = i :: (bytes16 v ++ bytes16 w) →
      (3 < i.toNat → exec .toolSet s = .next (reply r (.field 0) .none s)) ∧
      (i.toNat ≤ 3 → v.toNat < 1 ∨ 65000 < v.toNat → exec .toolSet s = .next (reply r (.field 1) .none s)) ∧
      (i.toNat ≤ 3 → 1 ≤ v.toNat → v.toNat ≤ 65000 → v.toNat < w.toNat →
        exec .toolSet s = .next (reply r (.field 2) .none s)) ∧
      (∀ k : Spindle, k.val = i.toNat → 1 ≤ v.toNat → v.toNat ≤ 65000 → w.toNat ≤ v.toNat →
        exec .toolSet s = .next (reply r .ok .none { s with profile := { s.profile with
          spindles := setAt s.profile.spindles k
            { state := .live, remaining := v.toNat, setValue := v.toNat, warnLevel := w.toNat, accumulator := 0 }
          ring := []
          drift := none
          armed := true } }))

/-- PROCESSING_COMPLETE: with no processing in flight nothing changes; for a strip that is LOST the work is discarded and the planner takes the next
strip (R71, R76); for a strip WAITING_PLAN the strip becomes PLANNED, or UNPLANNED with FIRE_LIST_FULL, without a store, and the planner takes the
next strip (R74). Where the fire list has room, the strip takes the lines of its plan in order, each PENDING with its entry in the list (R91) or
DROPPED (R92), the ids of its cuttings, and the yield over those left (R89); every cutting of the plan that no dropped line takes with it has its
record, PLANNED, with the features of the strip (R45), graded, NO_GRADE, referred or overflowed as its first run ends (R72, R104, R106 to R108), and
the rest are freed; where it has none, the list stays, the plan stays empty and every cutting is freed (R91). That a plan the fire list refused
writes nothing of the plan into the record, its STARVED flag neither, is the model's reading of R74 and R91 (log 28). A processing that begins
leaves its strip as it is. What a processing does between its beginning and its completion, and when, is the model's choice (log 6), and so is the
first clause (log 2). -/
def Obligations.ProcessingCompletes : Prop :=
  (∀ s : State, s.planner.inFlight = none → exec .processingComplete s = .next s) ∧
    (∀ (s : State) (n : Nat) (r : Strip), s.inReset = false → s.planner.inFlight = some n → findStrip s n = some r →
      r.state = .lost →
      (s.planner.queue = [] → exec .processingComplete s = .next { s with planner := Planner.idle }) ∧
      ∀ m rest, s.planner.queue = m :: rest → ∃ t, exec .processingComplete s = .next t ∧
        t.planner.inFlight = some m ∧ t.planner.queue = rest ∧ t.belt = s.belt ∧ t.scan = s.scan ∧ t.saw = s.saw ∧
        t.motion = s.motion ∧ t.chain = s.chain ∧ t.bundles = s.bundles ∧ ∀ c ∈ s.cuttings, c.id.strip ≠ m → c ∈ t.cuttings) ∧
    ∀ (s : State) (n : Nat) (r : Strip) (plan : CutPlan) (x : Loading) (waste : List Nat), s.inReset = false →
      s.planner.inFlight = some n → findStrip s n = some r → r.state = .waitingPlan → plan = cutPlan (planInput s r) →
      x = loadLines s r plan.lines → waste = x.wasteIndices plan.cuttings.length →
      ∃ t, exec .processingComplete s = .next t ∧
        t.planner.queue = s.planner.queue.drop 1 ∧ t.planner.inFlight = s.planner.queue.head? ∧
        (∀ x, findStrip t n = some x →
          (x.state = .planned ∨ x.state = .unplanned ∧ x.reason = some .fireListFull) ∧ x.store = none) ∧
        t.motion.travel = s.motion.travel ∧ t.config = s.config ∧ t.profile = s.profile ∧ t.chain.deck = s.chain.deck ∧
        (plan.lines.length ≤ Config.lineCapacity - s.saw.entries.length →
          t.saw = { s.saw with entries := x.entries } ∧ (∀ e ∈ s.saw.entries, e ∈ t.saw.entries) ∧
          (∀ i l, plan.lines[i]? = some l → x.lines[i]? = some l ∧ entryOf s r i l ∈ t.saw.entries ∨
            x.lines[i]? = some { l with status := .dropped }) ∧
          (r.removalTaken = false → findStrip t n = some { r with
            lines := x.lines
            cuttings := idsOf n (List.range plan.cuttings.length)
            yield := some (yieldOf
              ((plan.cuttings.zipIdx.filter (fun c => !waste.contains c.2)).map (fun c => c.1.nominal)) (r.length.getD 0))
            flags := { r.flags with starved := r.flags.starved || plan.starved }
            state := .planned
            store := none }) ∧
          (∀ i ∈ waste, findCutting t ⟨n, i⟩ = none) ∧
          (PlanBegun s n r.bank plan.cuttings → ∀ i k, plan.cuttings[i]? = some k → i ∉ waste →
            ∃ c, findCutting t ⟨n, i⟩ = some c ∧ RecordOf r.bank k c ∧
              (s.planner.graded = 0 → c.features = reduceFeatures s r (slotsOf s r) c) ∧
              (s.planner.graded ≤ i →
                (∀ g code, firstRun s.recipe.banks[r.bank] c = .graded g code →
                  c.gradeStatus = .graded ∧ c.grade = some (.index g) ∧ c.gradeCode = some code ∧ c.rejectReason = none) ∧
                (firstRun s.recipe.banks[r.bank] c = .noGrade →
                  c.gradeStatus = .graded ∧ c.grade = some .reject ∧ c.rejectReason = some .noGrade) ∧
                ∀ e f, firstRun s.recipe.banks[r.bank] c = .suspended e f →
                  c.gradeStatus = .referred ∨
                    c.gradeStatus = .graded ∧ c.grade = some .reject ∧ c.rejectReason = some .referralOverflow))) ∧
        (Config.lineCapacity - s.saw.entries.length < plan.lines.length → t.saw = s.saw ∧
          (r.removalTaken = false → findStrip t n = some { r with
            state := .unplanned
            reason := some .fireListFull
            store := none }) ∧
          (s.link.mask[1] = true → t.link.noticeCount < Config.noticeCapacity →
            TxFrame.notice (.strip n .fireListFull .unplanned s.motion.travel) ∈ t.link.tx) ∧
          ∀ i < plan.cuttings.length, findCutting t ⟨n, i⟩ = none)

/-- Any two consecutive lines of one plan are at least Dr apart, for every strip, zone list and bank whose every length plus Ae is at least Dr, as
item 13 of the commit checks ensures for the shortest (R89, Table 62). -/
def Obligations.PlanLinesKeepTheRecoveryDistance : Prop :=
  ∀ x : PlanInput, 0 < x.dr → x.lengths ≠ [] → (∀ n ∈ x.lengths, x.dr ≤ n + x.cut.ae) →
    (cutPlan x).lines.IsChain (fun a b => a.pos + x.dr ≤ b.pos)

/-- A plan has at most 48 lines and 16 cuttings, no more cuttings than free records, and each cutting's nominal length stands in the bank's length
table at its class (R79, R87, R89). -/
def Obligations.PlanStaysWithinItsLimits : Prop :=
  ∀ x : PlanInput, (cutPlan x).lines.length ≤ Config.lineCapacity ∧ (cutPlan x).cuttings.length ≤ Config.planCuttings ∧
    (cutPlan x).cuttings.length ≤ x.free ∧ ∀ c ∈ (cutPlan x).cuttings, x.lengths[c.cls]? = some c.nominal

/-! ### Grading and referrals -/

/-- The comparison of a test: LE, GE, IN and OUT on signed values; LE and GE do not read b; with a greater than b IN holds for no value and OUT for
every value; LE with the largest and GE with the smallest signed 32-bit value hold for every present value (R99). -/
def Obligations.TestsCompareAsTheirOperationSays : Prop :=
  ∀ f a b : Int,
    (compareFeature 0 f a b = true ↔ f ≤ a) ∧ (compareFeature 1 f a b = true ↔ a ≤ f) ∧
    (compareFeature 2 f a b = true ↔ a ≤ f ∧ f ≤ b) ∧ (compareFeature 3 f a b = true ↔ f < a ∨ b < f) ∧
    (∀ b', compareFeature 0 f a b' = compareFeature 0 f a b ∧ compareFeature 1 f a b' = compareFeature 1 f a b) ∧
    (b < a → compareFeature 2 f a b = false ∧ compareFeature 3 f a b = true) ∧
    (-2147483648 ≤ f ∧ f ≤ 2147483647 →
      compareFeature 0 f 2147483647 b = true ∧ compareFeature 1 f (-2147483648) b = true)

/-- A result folds into its test's destination flag by SET, AND, OR or XOR, and the other flag keeps its value (R101). -/
def Obligations.ResultsFoldIntoTheirFlag : Prop :=
  ∀ (e : TestEntry) (p q r : Bool),
    (e.dest = 0 → (foldResult e p q r).2 = q ∧
      (e.combine = 0 → (foldResult e p q r).1 = r) ∧ (e.combine = 1 → (foldResult e p q r).1 = (p && r)) ∧
      (e.combine = 2 → (foldResult e p q r).1 = (p || r)) ∧ (e.combine = 3 → (foldResult e p q r).1 = (p != r))) ∧
    (e.dest = 1 → (foldResult e p q r).1 = p ∧
      (e.combine = 0 → (foldResult e p q r).2 = r) ∧ (e.combine = 1 → (foldResult e p q r).2 = (q && r)) ∧
      (e.combine = 2 → (foldResult e p q r).2 = (q || r)) ∧ (e.combine = 3 → (foldResult e p q r).2 = (q != r)))

/-- A grade passes exactly when bit 2 × P + Q of its verdict function is 1, and each of the sixteen functions of P and Q has one number of 0 to 15
of its own, those of Table 35 among them (R102). -/
def Obligations.VerdictsPassByTheirBit : Prop :=
  (∀ (v : Nat) (p q : Bool), verdictPasses v p q = true ↔ v / 2 ^ (2 * (if p then 1 else 0) + (if q then 1 else 0)) % 2 = 1) ∧
    (∀ f : Bool → Bool → Bool, ∃ v ≤ 15, (∀ p q, verdictPasses v p q = f p q) ∧
      ∀ w ≤ 15, (∀ p q, verdictPasses w p q = f p q) → w = v) ∧
    ∀ p q : Bool, verdictPasses 0 p q = false ∧ verdictPasses 8 p q = (p && q) ∧ verdictPasses 12 p q = p ∧
      verdictPasses 10 p q = q ∧ verdictPasses 14 p q = (p || q) ∧ verdictPasses 4 p q = (p && !q) ∧
      verdictPasses 6 p q = (p != q) ∧ verdictPasses 9 p q = (p == q) ∧ verdictPasses 3 p q = !p ∧
      verdictPasses 1 p q = (!p && !q) ∧ verdictPasses 15 p q = true

/-- A run that grades a cutting gives the first grade of the list that passes: its own tests end with flags its verdict passes, and the tests of
every grade before it end with flags that grade's verdict fails (R103, R104). -/
def Obligations.TheFirstPassingGradeIsTaken : Prop :=
  ∀ (b : Bank) (fs : Vector (Option Int) 14) (es : List GradeEntry) (g code : Nat), runGrades b fs es 0 = .graded g code →
    (∃ e p q, es[g]? = some e ∧ e.code = code ∧ runTests b fs (gradeRange e) true true = .done p q ∧
      verdictPasses e.verdict p q = true) ∧
    ∀ h < g, ∃ e p q, es[h]? = some e ∧ runTests b fs (gradeRange e) true true = .done p q ∧ verdictPasses e.verdict p q = false

/-- RESUMPTION_RUN_END: an idle path with an empty queue stays; otherwise the run in progress ends, its result is written, and the path takes the
next queued resumption (R109, R110). A run that grades its cutting writes the grade, one that no grade passes REJECT with NO_GRADE (R104). One that
meets a further referred test raises a referral with the cutting's span, lengths and context (R107), and the referral count rises: with a slot free
it takes the next tag, goes into the slot and is sent, the cutting REFERRED (R118 to R120); with the slots full it joins the waiting list without a
notice; with both full it overflows, with its REFERRAL END notice, the cutting REJECT with REFERRAL_OVERFLOW (R108, R118). A run whose cutting has
gone writes nothing. That an idle path stays is the model's choice (log 2). -/
def Obligations.ResumptionRunGradesTheCutting : Prop :=
  (∀ s : State, s.grade.run = none → s.grade.queue = [] → exec .resumptionRunEnd s = .next s) ∧
    (∀ (s : State) (r : Resumption), s.inReset = false → s.grade.run = some r → findCutting s r.id = none →
      exec .resumptionRunEnd s = .next { s with grade := { run := s.grade.queue.head?, queue := s.grade.queue.drop 1 } }) ∧
    ∀ (s : State) (r : Resumption) (c : Cutting) (e : RunEnd), s.inReset = false → s.grade.run = some r →
      findCutting s r.id = some c → e = resumeRun s.recipe.banks[c.bank] c r.context r.result →
      (∀ g code, e = .graded g code → exec .resumptionRunEnd s = .next { s with
        cuttings := s.cuttings.map (fun x => if x.id = c.id then
          { x with gradeStatus := .graded, grade := some (.index g), gradeCode := some code, rejectReason := none } else x)
        grade := { run := s.grade.queue.head?, queue := s.grade.queue.drop 1 } }) ∧
      (e = .noGrade → exec .resumptionRunEnd s = .next { s with
        cuttings := s.cuttings.map (fun x => if x.id = c.id then
          { x with gradeStatus := .graded, grade := some .reject, gradeCode := none, rejectReason := some .noGrade } else x)
        grade := { run := s.grade.queue.head?, queue := s.grade.queue.drop 1 } }) ∧
      ∀ k f q, e = .suspended k f → ReferralRaised s c k f q →
        (∀ tag, s.referral.outstanding.length < 4 → TagNext s.referral tag → exec .resumptionRunEnd s = .next { s with
          referral := outstandingWith s.referral q tag
          cuttings := s.cuttings.map (fun x => if x.id = c.id then
            { x with gradeStatus := .referred, referralCount := min 255 (x.referralCount + 1) } else x)
          grade := { run := s.grade.queue.head?, queue := s.grade.queue.drop 1 }
          link := s.link.offer (.referral { q with tag := some tag } s.link.clock) }) ∧
        (4 ≤ s.referral.outstanding.length → s.referral.waiting.length < 4 → exec .resumptionRunEnd s = .next { s with
          referral := { s.referral with waiting := s.referral.waiting ++ [q] }
          cuttings := s.cuttings.map (fun x => if x.id = c.id then
            { x with gradeStatus := .referred, referralCount := min 255 (x.referralCount + 1) } else x)
          grade := { run := s.grade.queue.head?, queue := s.grade.queue.drop 1 } }) ∧
        (4 ≤ s.referral.outstanding.length → 4 ≤ s.referral.waiting.length → exec .resumptionRunEnd s = .next { s with
          cuttings := s.cuttings.map (fun x => if x.id = c.id then
            { x with
              gradeStatus := .graded
              grade := some .reject
              gradeCode := none
              rejectReason := some .referralOverflow
              referralCount := min 255 (x.referralCount + 1) } else x)
          grade := { run := s.grade.queue.head?, queue := s.grade.queue.drop 1 }
          link := s.link.offer (.referralEnd 0 c.id .overflow .none s.link.clock) })

/-- ANSWER (R122): a field out of range is refused with its index; an empty entry or another cutting id gives NOREF, an ENDED entry LATE, and
nothing changes; an OUTSTANDING entry that names the cutting ends the referral, marks the entry ENDED, makes the cutting RESUMING and starts its run
on an idle path, or puts it at the tail of the queue behind a run in progress (R109). With a referral waiting for the one slot so freed, the oldest
leaves the list, takes the next tag and the slot, and is sent ahead of the reply (R119 to R121). The one byte of the tag in the body is the model's
reading (log 11). -/
def Obligations.AnswersAreJudgedByTagAndCutting : Prop :=
  ∀ (s : State) (r : Request) (tag i v : Byte) (n : Word) (id : CuttingId), Asked s r → r.kind = 0x18 →
    r.body = tag :: (bytes32 n ++ [i, v]) → id = ⟨n.toNat, i.toNat⟩ →
    (tag = 0 → exec .answer s = .next (reply r (.field 0) .none s)) ∧
    (tag ≠ 0 → n.toNat < 1 ∨ 16777215 < n.toNat → exec .answer s = .next (reply r (.field 1) .none s)) ∧
    (tag ≠ 0 → 1 ≤ n.toNat → n.toNat ≤ 16777215 →
      (15 < i.toNat → exec .answer s = .next (reply r (.field 2) .none s)) ∧
      (i.toNat ≤ 15 → 1 < v.toNat → exec .answer s = .next (reply r (.field 3) .none s)) ∧
      (i.toNat ≤ 15 → v.toNat ≤ 1 →
        ((∀ e, s.referral.entry tag.toNat = some e → e.id ≠ id) → exec .answer s = .next (reply r .noref .none s)) ∧
        (∀ e, s.referral.entry tag.toNat = some e → e.id = id → e.ended = true →
          exec .answer s = .next (reply r .late .none s)) ∧
        ∀ e q u k gr, s.referral.entry tag.toNat = some e → e.id = id → e.ended = false →
          s.referral.outstanding.find? (fun x => decide (x.tag = some tag.toNat)) = some q → q.id = id →
          u = { s.referral.setEntry tag.toNat { id := id, ended := true } with
            outstanding := s.referral.outstanding.filter (fun x => decide (x.id ≠ id)) } →
          k = { id := id, context := q.context, result := v == 1 } →
          (∀ x, s.grade.run = some x → gr = { run := some x, queue := s.grade.queue ++ [k] }) →
          (s.grade.run = none → gr = { run := (s.grade.queue ++ [k]).head?, queue := (s.grade.queue ++ [k]).drop 1 }) →
          (s.referral.waiting = [] → exec .answer s = .next (reply r .ok .none { s with
            referral := u
            cuttings := s.cuttings.map (fun x => if x.id = id then { x with gradeStatus := .resuming } else x)
            grade := gr })) ∧
          ∀ w rest t, s.referral.waiting = w :: rest → u.outstanding.length = 3 → TagNext u t →
            exec .answer s = .next (reply r .ok .none { s with
              referral := { outstandingWith u w t with waiting := rest }
              cuttings := s.cuttings.map (fun x => if x.id = id then { x with gradeStatus := .resuming } else x)
              grade := gr
              link := s.link.offer (.referral { w with tag := some t } s.link.clock) })))

/-! ### Deck, chain and bins -/

/-- A LUG pulse with the chain idle loads the cutting at the head of the deck (R138): it takes the new lug counter, ON_LUG, and as destination
RETURN with its reject reason, or the lowest bin that admits it, whose bundle commits it (R156, R158), or RETURN with NO_BIN. A REFERRED one is
settled first: its referral ends EXPIRED with a REFERRAL END notice, ahead of any other, its tag's entry ENDED and its slot filled from the waiting
list (R119, R121), and it goes to RETURN as REFERRAL_EXPIRED (R111, R124). A RESUMING one is settled by its resumption, run at once: it is graded,
or NO_GRADE, or a further suspension expires as it arises (R111, R125); the run in progress of another cutting is completed first, and that
cutting's record has its result, as RunWritten says (R110, R111). PRESENT high with no cutting at the tenoner is a CHAIN fault STRAY, and the pulse
does the rest as with PRESENT low (R140). -/
def Obligations.LugPulseLoadsTheHeadOfTheDeck : Prop :=
  (∀ (lf : Bool) (s : State) (id : CuttingId) (rest : List CuttingId) (c : Cutting), s.inReset = false → ChainIdle s →
    s.chain.deck = id :: rest → findCutting s id = some c →
    (c.gradeStatus = .graded →
      ∃ t d why, exec (.lugPulse false lf) s = .next t ∧ t.motion = { s.motion with lug := s.motion.lug + 1 } ∧ t.chain.deck = rest ∧
        BoardedFor s t c d why ∧
        (∀ x, c.grade = some .reject → c.rejectReason = some x → d = .toReturn ∧ why = some x.toReturn ∧ t.bundles = s.bundles) ∧
        (∀ g, c.grade = some (.index g) → DestFor s t c g d why) ∧
        t.belt = s.belt ∧ t.referral = s.referral ∧ t.recipe = s.recipe ∧ t.label = s.label) ∧
    (c.gradeStatus = .referred →
      ∃ t, exec (.lugPulse false lf) s = .next t ∧ t.motion = { s.motion with lug := s.motion.lug + 1 } ∧ t.chain.deck = rest ∧
        BoardedFor s t { c with
          gradeStatus := .graded
          grade := some .reject
          gradeCode := none
          rejectReason := some .referralExpired } .toReturn (some .referralExpired) ∧
        (∀ q, findOutstanding s id = some q → findWaiting s id = none →
          (∀ x ∈ t.referral.outstanding ++ t.referral.waiting, x.id ≠ id) ∧
          ∃ more, t.link.tx = (s.link.offer (.referralEnd (q.tag.getD 0) id .expired .outstanding s.link.clock)).tx ++ more) ∧
        (∀ q k u, findOutstanding s id = some q → q.tag = some k →
          u = { s.referral.setEntry k { id := id, ended := true } with
            outstanding := s.referral.outstanding.filter (fun x => decide (x.id ≠ id)) } →
          (s.referral.waiting = [] → t.referral = u) ∧
          ∀ w rest tag, s.referral.waiting = w :: rest → u.outstanding.length = 3 → TagNext u tag →
            t.referral = { outstandingWith u w tag with waiting := rest }) ∧
        (∀ q, findOutstanding s id = none → findWaiting s id = some q →
          (∀ x ∈ t.referral.outstanding ++ t.referral.waiting, x.id ≠ id) ∧
          ∃ more, t.link.tx = (s.link.offer (.referralEnd 0 id .expired .waiting s.link.clock)).tx ++ more) ∧
        t.belt = s.belt ∧ t.bundles = s.bundles ∧ t.recipe = s.recipe ∧ t.label = s.label ∧ t.grade = s.grade) ∧
    ∀ k : Resumption, c.gradeStatus = .resuming → k.id = id →
      s.grade.run = some k ∧ (∀ x ∈ s.grade.queue, x.id ≠ id) ∨
        (∀ x, s.grade.run = some x → x.id ≠ id) ∧ s.grade.queue.find? (fun x => decide (x.id = id)) = some k →
      ∃ t d why x, exec (.lugPulse false lf) s = .next t ∧ t.motion = { s.motion with lug := s.motion.lug + 1 } ∧
        t.chain.deck = rest ∧ BoardedFor s t x d why ∧
        (∀ g code, resumeRun s.recipe.banks[c.bank] c k.context k.result = .graded g code →
          x = { c with gradeStatus := .graded, grade := some (.index g), gradeCode := some code, rejectReason := none } ∧
            DestFor s t c g d why) ∧
        (resumeRun s.recipe.banks[c.bank] c k.context k.result = .noGrade →
          x = { c with gradeStatus := .graded, grade := some .reject, gradeCode := none, rejectReason := some .noGrade } ∧
            d = .toReturn ∧ why = some .noGrade ∧ t.bundles = s.bundles) ∧
        (∀ e f, resumeRun s.recipe.banks[c.bank] c k.context k.result = .suspended e f →
          x = { c with
            gradeStatus := .graded
            grade := some .reject
            gradeCode := none
            rejectReason := some .referralExpired
            referralCount := min 255 (c.referralCount + 1) } ∧
            d = .toReturn ∧ why = some .referralExpired ∧ t.bundles = s.bundles ∧
            (s.link.mask[4] = true → t.link.noticeCount < Config.noticeCapacity →
              TxFrame.notice (.referralEnd 0 id .expired .none s.link.clock) ∈ t.link.tx)) ∧
        (∀ y ∈ t.grade.run.toList ++ t.grade.queue, y.id ≠ id) ∧
        (∀ y o, s.grade.run = some y → y.id ≠ id → findCutting s y.id = some o →
          RunWritten s t o (resumeRun s.recipe.banks[o.bank] o y.context y.result)) ∧
        t.belt = s.belt ∧ t.recipe = s.recipe ∧ t.label = s.label) ∧
  (∀ (lf : Bool) (s : State), s.inReset = false → (∀ b : Bin, s.chain.windows[b] = none) →
    lugAt { s with motion := { s.motion with lug := s.motion.lug + 1 } } s.config.chain.offTN = none →
    exec (.lugPulse true lf) s = exec (.lugPulse false lf) (logFault .chain 2 none .none (s.motion.lug + 1) s)) ∧
  ∀ (lf : Bool) (s : State), s.inReset = false → ChainIdle s → s.chain.deck = [] →
    exec (.lugPulse true lf) s = .next (logFault .chain 2 none .none (s.motion.lug + 1)
      { s with motion := { s.motion with lug := s.motion.lug + 1 } })

/-- A cutting on the chain at a LUG pulse at which no other stands at the tenoner, at a drop or at the chain end (R139, R141, R143, R145). At the
tenoner, with PRESENT low it goes to return MISSING with a CHAIN fault and its reservation released; with PRESENT and LENGTH FAULT high it becomes
MISMATCH, one with a bin as destination releasing it for RETURN; with PRESENT alone it becomes CHECKED. A CHECKED one at the drop of its bin becomes
DROPPING and opens the bin's landing window; a pulse that finds that window still open closes it, and the cutting goes to return DROP_MISS with a
CHAIN fault; one destined for RETURN falls at the chain end with its own reason. What each release makes of the bundle, OPEN, FILLED or HELD,
ReleasedFrom says (R160, R161, R162), and what a return makes of its strip, CuttingReturned (R17). The other cuttings stay as they are. That the
RETURN notice is offered ahead of the fault's and the free's is the model's choice (log 10). -/
def Obligations.TenonerChecksAndDropsFire : Prop :=
  (∀ (s : State) (c : Cutting) (l : Word), s.inReset = false → s.chain.deck = [] → (∀ b : Bin, s.chain.windows[b] = none) →
    findCutting s c.id = some c → OthersClear s c → c.loadLug = some l → s.config.chain.chainLen ≤ 64 →
    s.config.chain.offTN < s.config.chain.chainLen →
    (∀ b : Bin, s.config.chain.offTN < s.config.chain.offD[b] ∧ s.config.chain.offD[b] < s.config.chain.chainLen) →
    (∀ a b : Bin, a < b → s.config.chain.offD[a] < s.config.chain.offD[b]) →
    (∀ lf : Bool, c.state = .onLug → (s.motion.lug + 1 - l).toNat = s.config.chain.offTN →
      (∃ t, exec (.lugPulse false lf) s = .next t ∧
        CuttingReturned s t c .missing c.reservedBin ∧ ChainFaultLogged s t 1 none (.cutting c.id) ∧
        ∀ b bu, c.dest = some (.bin b) → ReleaseStandsAlone s c → ReleasedFrom s t b bu c) ∧
      (lf = false → exec (.lugPulse true lf) s = .next { s with
        motion := { s.motion with lug := s.motion.lug + 1 }
        cuttings := s.cuttings.map (fun x => if x.id = c.id then { x with state := .checked } else x) }) ∧
      (lf = true → c.dest = some .toReturn → exec (.lugPulse true lf) s = .next { s with
        motion := { s.motion with lug := s.motion.lug + 1 }
        cuttings := s.cuttings.map (fun x => if x.id = c.id then { x with state := .mismatch } else x) }) ∧
      (∀ b : Bin, lf = true → c.dest = some (.bin b) → ∃ t, exec (.lugPulse true lf) s = .next t ∧
        t.motion = { s.motion with lug := s.motion.lug + 1 } ∧
        t.cuttings = s.cuttings.map (fun x => if x.id = c.id then { x with
          state := .mismatch
          dest := some .toReturn
          returnReason := some .mismatch
          releasedBin := some b } else x) ∧
        t.chain = s.chain ∧ t.line = s.line ∧ t.belt = s.belt ∧ ∀ bu, ReleasedFrom s t b bu c)) ∧
    (∀ b : Bin, c.state = .checked → c.dest = some (.bin b) → (s.motion.lug + 1 - l).toNat = s.config.chain.offD[b] →
      exec (.lugPulse false false) s = .next { s with
        motion := { s.motion with lug := s.motion.lug + 1 }
        cuttings := s.cuttings.map (fun x => if x.id = c.id then { x with state := .dropping } else x)
        chain := { s.chain with windows := setAt s.chain.windows b (some c.id) } }) ∧
    (∀ (why : ReturnReason) (lf : Bool), c.state = .checked ∨ c.state = .mismatch → c.dest = some .toReturn →
      c.returnReason = some why → (s.motion.lug + 1 - l).toNat = s.config.chain.chainLen →
      ∃ t, exec (.lugPulse false lf) s = .next t ∧ CuttingReturned s t c why c.releasedBin ∧ t.link.chain = s.link.chain)) ∧
  ∀ (s : State) (c : Cutting) (b : Bin) (lf : Bool), s.inReset = false → s.chain.deck = [] → s.chain.windows[b] = some c.id →
    (∀ b' : Bin, b' ≠ b → s.chain.windows[b'] = none) → findCutting s c.id = some c → OthersClear s c → c.state = .dropping →
    c.dest = some (.bin b) → ∃ t, exec (.lugPulse false lf) s = .next t ∧
      CuttingReturned s t c .dropMiss (some b) ∧ ChainFaultLogged s t 3 (some (b.val + 1)) (.cutting c.id) ∧
      ∀ bu, ReleaseStandsAlone s c → ReleasedFrom s t b bu c

/-- A landing in an open window (R142, R159): the window closes, the bundle's landed count and coverage rise, the committed totals stay, and the
cutting's record frees; its strip stays in the table, or leaves it when this was the last it waited for (R17); a HELD bin stays HELD (R169). A
FILLED bundle whose last piece in flight it is closes: LABELLING with its label queued, or CLOSING when the label queue is full (R162). The last
cutting of a bank that is not ACTIVE and has no strip brings the generation close, which makes an OPEN bundle of the bank SHORT, and closes it when
no piece is in flight (R166). A landing with no window open is a CHAIN fault STRAY_LANDING that sets STRAY in the bin's bundle (R144, R170). -/
def Obligations.LandingsReachTheirBundle : Prop :=
  (∀ (s : State) (b : Bin) (c : Cutting) (bu landed : Bundle), s.inReset = false → s.chain.windows[b] = some c.id →
      findCutting s c.id = some c → s.bundles.bins[b].bundle = some bu →
      landed = { bu with
        landedCount := bu.landedCount + 1
        landedCoverage := bu.landedCoverage + c.nominal * bu.w } →
      (∃ t, exec (.landingEdge b) s = .next t ∧ t.chain.windows = setAt s.chain.windows b none ∧ t.chain.deck = s.chain.deck ∧
        t.cuttings = s.cuttings.filter (fun x => decide (x.id ≠ c.id)) ∧ (StripStays s c → t.belt = s.belt) ∧ StripLeaves s t c) ∧
      (StripStays s c ∧ (s.recipe.banks[c.bank].state = .active ∨ s.recipe.banks[c.bank].strips ≠ 0 ∨
            2 ≤ s.recipe.banks[c.bank].cuttings) ∨
          s.recipe.banks[c.bank].state = .active ∧ (∀ r, findStrip s c.id.strip = some r → r.bank = c.bank) →
        (s.bundles.bins[b].state = .opened ∨ s.bundles.bins[b].state = .filled ∧ bu.count ≠ bu.landedCount + 1 ∨
            (∃ u, s.bundles.bins[b].state = .held u) →
          ∃ t, exec (.landingEdge b) s = .next t ∧
            t.bundles = { s.bundles with bins := setAt s.bundles.bins b { s.bundles.bins[b] with bundle := some landed } } ∧
            t.recipe.banks[c.bank].cuttings = s.recipe.banks[c.bank].cuttings - 1 ∧ t.label = s.label ∧ t.referral = s.referral) ∧
        (s.bundles.bins[b].state = .filled → bu.count = bu.landedCount + 1 →
          ∃ t x, exec (.landingEdge b) s = .next t ∧
            t.bundles.bins[b].bundle = some x ∧ x = { landed with
              closeSeq := some s.bundles.nextClose
              closeTime := some s.link.clock
              closure := x.closure } ∧
            t.bundles.nextClose = s.bundles.nextClose + 1 ∧
            (∀ b', b' ≠ b → t.bundles.bins[b'] = s.bundles.bins[b']) ∧
            t.recipe.banks[bu.bank].bundles = s.recipe.banks[bu.bank].bundles - 1 ∧
            (s.label.queue.length < Config.labelCapacity →
              t.bundles.bins[b].state = .labelling ∧ t.label.queue = s.label.queue ++ [labelOf b x]) ∧
            (Config.labelCapacity ≤ s.label.queue.length →
              t.bundles.bins[b].state = .closing ∧ t.label.queue = s.label.queue))) ∧
      (∀ u, s.bundles.bins[b].state = .held u → ∃ t, exec (.landingEdge b) s = .next t ∧
        t.bundles.bins[b] = { s.bundles.bins[b] with bundle := some landed }) ∧
      (s.recipe.banks[c.bank].state ≠ .active → s.recipe.banks[c.bank].strips = 0 → s.recipe.banks[c.bank].cuttings ≤ 1 →
        s.bundles.bins[b].state = .opened → bu.bank = c.bank → bu.count ≠ 0 →
        ∃ t x, exec (.landingEdge b) s = .next t ∧
          t.bundles.bins[b].bundle = some x ∧ x = { landed with
            short := true
            closeSeq := x.closeSeq
            closeTime := x.closeTime
            closure := x.closure } ∧
          (bu.count = bu.landedCount + 1 → x.closeTime = some s.link.clock ∧
            (∃ q, s.bundles.nextClose ≤ q ∧ q < t.bundles.nextClose ∧ x.closeSeq = some q) ∧
            (t.bundles.bins[b].state = .labelling ∨ t.bundles.bins[b].state = .closing)) ∧
          (bu.count ≠ bu.landedCount + 1 → x.closeSeq = bu.closeSeq ∧ t.bundles.bins[b].state = .filled))) ∧
    ∀ (s : State) (b : Bin), s.inReset = false → s.chain.windows[b] = none →
      ∃ t, exec (.landingEdge b) s = .next t ∧
        t.bundles = { s.bundles with bins := setAt s.bundles.bins b { s.bundles.bins[b] with
          bundle := s.bundles.bins[b].bundle.map (fun bu => { bu with stray := true }) } } ∧
        t.link = (logFault .chain 4 (some (b.val + 1))
          (match s.bundles.bins[b].bundle with
            | none => .none
            | some bu => .bundle bu.number) s.motion.lug s).link ∧
        t.cuttings = s.cuttings ∧ t.chain = s.chain ∧ t.line = s.line ∧ t.recipe = s.recipe

/-- BIN EMPTY (R155): a change to inactive, or to active outside CLEARING, changes the level alone; a change to active in CLEARING makes the bin
IDLE without a bundle when no bank is ACTIVE, or opens the next bundle, which takes the next bundle number, empty totals, and one binding of its
bank (R154). -/
def Obligations.BinEmptyOpensTheNextBundle : Prop :=
  (∀ (s : State) (b : Bin), s.inReset = false →
      exec (.binEmptyInactive b) s = .next { s with bundles := { s.bundles with
        bins := setAt s.bundles.bins b { s.bundles.bins[b] with emptyLevel := false } } }) ∧
    ∀ (s : State) (b : Bin), s.inReset = false → s.bundles.bins[b].emptyLevel = false →
      (s.bundles.bins[b].state ≠ .clearing → exec (.binEmptyActive b) s = .next { s with bundles := { s.bundles with
        bins := setAt s.bundles.bins b { s.bundles.bins[b] with emptyLevel := true } } }) ∧
      (s.bundles.bins[b].state = .clearing → planFor s b = none →
        exec (.binEmptyActive b) s = .next { s with bundles := { s.bundles with
          bins := setAt s.bundles.bins b { state := .idle, bundle := none, emptyLevel := true } } }) ∧
      (∀ k e, s.bundles.bins[b].state = .clearing → planFor s b = some (k, e) →
        ∃ t bu, exec (.binEmptyActive b) s = .next t ∧
          t.bundles = { s.bundles with bins := setAt s.bundles.bins b { state := .opened, bundle := some bu, emptyLevel := true } } ∧
          bu.number = s.label.nextNumber ∧ bu.bin = b ∧ bu.bank = k ∧ bu.spec = e ∧ bu.count = 0 ∧ bu.coverage = 0 ∧
          bu.shortCoverage = 0 ∧ bu.landedCount = 0 ∧ bu.landedCoverage = 0 ∧ bu.short = false ∧ bu.stray = false ∧ bu.closeSeq = none ∧
          t.label = { s.label with nextNumber := if s.label.nextNumber = 4294967295 then 1 else s.label.nextNumber + 1 } ∧
          t.recipe = { s.recipe with
            banks := setAt s.recipe.banks k { s.recipe.banks[k] with bundles := s.recipe.banks[k].bundles + 1 } })

/-- An admission answers the lowest bin that admits the cutting and commits the piece to its bundle: count, coverage, class count, and short
coverage for a length below S; taking the same piece out again restores the bundle (R156, R158, R160). -/
def Obligations.AdmissionCommitsAndReleaseRestores : Prop :=
  (∀ (s t : State) (g gen c n : Nat) (b : Bin), admission g gen c n s = (some b, t) →
      admits s b g gen c n = true ∧ (∀ b' < b, admits s b' g gen c n = false) ∧
      ∃ bu, s.bundles.bins[b].bundle = some bu ∧ t.bundles.bins[b].bundle = some (bu.commit c n) ∧
        (t.bundles.bins[b].state = .filled ↔ bu.spec.ct - bu.spec.tolLo ≤ bu.coverage + n * bu.w ∨ bu.count + 1 = bu.spec.nmax) ∧
        ∀ b', b' ≠ b → t.bundles.bins[b'] = s.bundles.bins[b']) ∧
    ∀ (bu : Bundle) (c n : Nat), c < 12 → (bu.commit c n).count = bu.count + 1 ∧
      (bu.commit c n).coverage = bu.coverage + n * bu.w ∧ (bu.commit c n).landedCount = bu.landedCount ∧
      (bu.commit c n).shortCoverage = bu.shortCoverage + (if n < bu.spec.s then n * bu.w else 0) ∧
      (bu.commit c n).releasePiece c n = bu

/-- BIN HOLD (R168): hold 1 makes an OPEN or FILLED bin HELD with that state underneath, changes nothing in a HELD bin, and is refused with STATE in
the others; hold 0 changes nothing outside HELD, and ends a hold whose bundle is bound to the ACTIVE bank and still open, or full with pieces in
flight, with the RELEASED notice (R169); a full one of the ACTIVE bank with every piece landed closes at once (R162, R169); a bundle found due for
generation close closes as SHORT, and an empty one is discarded (R166, R167, R169): that this holds over FILLED too is the model's reading (log 20).
A field out of range is refused with its index; that the bin's goes first when both are is the model's choice (log 35). -/
def Obligations.BinHoldByBinState : Prop :=
  ∀ (s : State) (r : Request) (n h : Byte), Asked s r → r.kind = 0x23 → r.body = [n, h] →
    (n.toNat < 1 ∨ 8 < n.toNat → exec .binHold s = .next (reply r (.field 0) .none s)) ∧
    ∀ b : Bin, b.val + 1 = n.toNat →
      (1 < h.toNat → exec .binHold s = .next (reply r (.field 1) .none s)) ∧
      (∀ bu, h = 1 → s.bundles.bins[b].state = .opened → s.bundles.bins[b].bundle = some bu →
        exec .binHold s = .next (reply r .ok .none { s with
          bundles := { s.bundles with bins := setAt s.bundles.bins b { s.bundles.bins[b] with state := .held .opened } }
          link := s.link.offer (.bundle ⟨.held, b, bu, .held .opened, s.link.clock⟩) })) ∧
      (∀ bu, h = 1 → s.bundles.bins[b].state = .filled → s.bundles.bins[b].bundle = some bu →
        exec .binHold s = .next (reply r .ok .none { s with
          bundles := { s.bundles with bins := setAt s.bundles.bins b { s.bundles.bins[b] with state := .held .filled } }
          link := s.link.offer (.bundle ⟨.held, b, bu, .held .filled, s.link.clock⟩) })) ∧
      (∀ u, h = 1 → s.bundles.bins[b].state = .held u → exec .binHold s = .next (reply r .ok .none s)) ∧
      (h = 1 → s.bundles.bins[b].state = .idle ∨ s.bundles.bins[b].state = .closing ∨ s.bundles.bins[b].state = .labelling ∨
        s.bundles.bins[b].state = .clearing → exec .binHold s = .next (reply r .state .none s)) ∧
      (h = 0 → (∀ u, s.bundles.bins[b].state ≠ .held u) → exec .binHold s = .next (reply r .ok .none s)) ∧
      (∀ bu, h = 0 → s.bundles.bins[b].state = .held .opened → s.bundles.bins[b].bundle = some bu →
        activeBank s = some bu.bank → s.recipe.banks[bu.bank].state ≠ .retiring →
        exec .binHold s = .next (reply r .ok .none { s with
          bundles := { s.bundles with bins := setAt s.bundles.bins b { s.bundles.bins[b] with state := .opened } }
          link := s.link.offer (.bundle ⟨.released, b, bu, .opened, s.link.clock⟩) })) ∧
      (∀ bu, h = 0 → s.bundles.bins[b].state = .held .filled → s.bundles.bins[b].bundle = some bu →
        activeBank s = some bu.bank → s.recipe.banks[bu.bank].state ≠ .retiring → bu.count ≠ bu.landedCount →
        exec .binHold s = .next (reply r .ok .none { s with
          bundles := { s.bundles with bins := setAt s.bundles.bins b { s.bundles.bins[b] with state := .filled } }
          link := s.link.offer (.bundle ⟨.released, b, bu, .filled, s.link.clock⟩) })) ∧
      (∀ bu, h = 0 → s.bundles.bins[b].state = .held .filled → s.bundles.bins[b].bundle = some bu →
        activeBank s = some bu.bank → bu.count = bu.landedCount → ∃ t bu', exec .binHold s = .next t ∧
          t.bundles.bins[b].bundle = some bu' ∧ bu'.short = bu.short ∧ bu'.count = bu.count ∧
          bu'.closeSeq = some s.bundles.nextClose ∧ t.bundles.nextClose = s.bundles.nextClose + 1 ∧
          t.bundles.bins[b].state = (if s.label.queue.length < Config.labelCapacity then .labelling else .closing) ∧
          ∀ b', b' ≠ b → t.bundles.bins[b'] = s.bundles.bins[b']) ∧
      ∀ bu u, h = 0 → s.bundles.bins[b].state = .held u → s.bundles.bins[b].bundle = some bu →
        activeBank s ≠ some bu.bank → s.recipe.banks[bu.bank].strips = 0 → s.recipe.banks[bu.bank].cuttings = 0 →
        (bu.count ≠ 0 → bu.count = bu.landedCount → ∃ t bu', exec .binHold s = .next t ∧
          t.bundles.bins[b].bundle = some bu' ∧ bu'.short = true ∧ bu'.count = bu.count ∧
          bu'.closeSeq = some s.bundles.nextClose ∧ t.bundles.nextClose = s.bundles.nextClose + 1 ∧
          t.bundles.bins[b].state = (if s.label.queue.length < Config.labelCapacity then .labelling else .closing) ∧
          ∀ b', b' ≠ b → t.bundles.bins[b'] = s.bundles.bins[b']) ∧
        (bu.count = 0 → planFor s b = none → ∃ t, exec .binHold s = .next t ∧
          t.bundles = { s.bundles with bins := setAt s.bundles.bins b { s.bundles.bins[b] with state := .idle, bundle := none } })

/-- CLOSE BUNDLE (R165): a bin out of range is refused with FIELD 0; an OPEN or FILLED bin with a piece landed takes SHORT and is FILLED while
pieces are in flight, with the FILLED notice unless it was FILLED and SHORT already, when nothing changes; with none in flight it is LABELLING with
its label queued, or CLOSING when the label queue is full (R162); with nothing landed, or in a state other than OPEN and FILLED, it is refused with
STATE. -/
def Obligations.CloseBundleByBinState : Prop :=
  ∀ (s : State) (r : Request) (n : Byte), Asked s r → r.kind = 0x24 → r.body = [n] →
    (n.toNat < 1 ∨ 8 < n.toNat → exec .closeBundle s = .next (reply r (.field 0) .none s)) ∧
    ∀ b : Bin, b.val + 1 = n.toNat →
      (s.bundles.bins[b].state ≠ .opened → s.bundles.bins[b].state ≠ .filled →
        exec .closeBundle s = .next (reply r .state .none s)) ∧
      ∀ bu, s.bundles.bins[b].bundle = some bu → s.bundles.bins[b].state = .opened ∨ s.bundles.bins[b].state = .filled →
        (bu.landedCount = 0 → exec .closeBundle s = .next (reply r .state .none s)) ∧
        (bu.landedCount ≠ 0 → bu.count ≠ bu.landedCount → s.recipe.banks[bu.bank].state ≠ .retiring →
          (s.bundles.bins[b].state = .opened ∨ bu.short = false → exec .closeBundle s = .next (reply r .ok .none { s with
            bundles := { s.bundles with
              bins := setAt s.bundles.bins b { s.bundles.bins[b] with state := .filled, bundle := some { bu with short := true } } }
            link := s.link.offer (.bundle ⟨.filled, b, { bu with short := true }, .filled, s.link.clock⟩) })) ∧
          (s.bundles.bins[b].state = .filled → bu.short = true → exec .closeBundle s = .next (reply r .ok .none s))) ∧
        (bu.landedCount ≠ 0 → bu.count = bu.landedCount →
          ∃ t bu', exec .closeBundle s = .next t ∧ t.bundles.bins[b].bundle = some bu' ∧ bu'.short = true ∧
            bu'.closeSeq = some s.bundles.nextClose ∧ bu'.closeTime = some s.link.clock ∧
            t.bundles.nextClose = s.bundles.nextClose + 1 ∧
            t.recipe.banks[bu.bank].bundles = s.recipe.banks[bu.bank].bundles - 1 ∧
            (s.label.queue.length < Config.labelCapacity →
              t.bundles.bins[b].state = .labelling ∧ t.label.queue = s.label.queue ++ [labelOf b bu']) ∧
            (Config.labelCapacity ≤ s.label.queue.length →
              t.bundles.bins[b].state = .closing ∧ t.label.queue = s.label.queue))

/-! ### Labels -/

/-- READY sets the labeller-ready flag to its field; READY 1 with a head in WAIT_READY and no PRINT being sent begins its PRINT, which takes the
flag back to 0; when the PRINT of the head goes out, the head is SENT; any other ready field is a LABEL fault FRAME with detail 4 (R179, R185; as an
operand of READY it is the model's choice, log 23). ACCEPT of the head in SENT makes it ACCEPTED and gives its dump, at once or owed in ESTOP,
unless it was given, and so does a late ACCEPT of a head FAULTED by ACCEPT_TIMEOUT; an ACCEPT of another sequence, or of a head in another state, is
discarded (R180, R181, R185). -/
def Obligations.ReadyPrintsAndAcceptDumps : Prop :=
  (∀ s : State, s.inReset = false → exec (.ready 0) s = .next { s with
      label := { s.label with readyFlag := false }
      link := { s.link with labelReceiver := .hunting } }) ∧
    (∀ s : State, s.inReset = false → s.label.queue = [] → exec (.ready 1) s = .next { s with
      label := { s.label with readyFlag := true }
      link := { s.link with labelReceiver := .hunting } }) ∧
    (∀ (s : State) (h : LabelRecord) (rest : List LabelRecord), s.inReset = false → s.label.queue = h :: rest →
      s.label.head = .waitReady → s.label.printing = none →
      exec (.ready 1) s = .next { s with
        label := { s.label with printing := some { label := h, forHead := true }, readyFlag := false }
        link := { s.link with labelReceiver := .hunting } }) ∧
    (∀ (s : State) (f : Byte), s.inReset = false → 1 < f.toNat →
      exec (.ready f) s = .next (logFault .label 4 (some 4) .none 0 { s with link := { s.link with labelReceiver := .hunting } })) ∧
    (∀ (s : State) (j : PrintJob), s.inReset = false → s.label.printing = some j → j.forHead = true →
      exec .printSent s = .next { s with label := { s.label with printing := none, head := .sent } }) ∧
    ∀ (s : State) (q : Word) (h : LabelRecord) (rest : List LabelRecord), s.inReset = false → s.label.queue = h :: rest →
      (h.number ≠ q → exec (.accept q) s = .next { s with link := { s.link with labelReceiver := .hunting } }) ∧
      (h.number = q → s.label.head = .waitReady ∨ s.label.head = .accepted ∨
          (∃ cause code, s.label.head = .faulted cause code ∧ cause ≠ .acceptTimeout) →
        exec (.accept q) s = .next { s with link := { s.link with labelReceiver := .hunting } }) ∧
      (h.number = q → s.label.head = .sent ∨ (∃ code, s.label.head = .faulted .acceptTimeout code) →
        (s.label.dumped = true → exec (.accept q) s = .next { s with
          label := { s.label with head := .accepted }
          link := { s.link with labelReceiver := .hunting } }) ∧
        (s.label.dumped = false → s.line.state ≠ .estop → exec (.accept q) s = .next { s with
          label := { s.label with head := .accepted, dumped := true, dumpHigh := setAt s.label.dumpHigh h.bin true }
          link := { s.link with labelReceiver := .hunting } }) ∧
        (s.label.dumped = false → s.line.state = .estop → exec (.accept q) s = .next { s with
          label := { s.label with head := .accepted, dumped := true, owed := setAt s.label.owed h.bin true }
          link := { s.link with labelReceiver := .hunting } }))

/-- APPLIED of the head in every head state, and LABEL VOID of a FAULTED head, take the label out of the queue with their outcome: the dispatch
record, the dump still due (owed in ESTOP), the bin's way to CLEARING, IDLE or its next bundle, and the oldest CLOSING bundle's entry are as
HeadDispatched says (R155, R163, R164, R181, R183, R187); the reply to LABEL VOID comes last. LABEL VOID of 0 is refused with FIELD, of a number
that is not the head's with NOTFOUND, and of a head not FAULTED with STATE (R187). -/
def Obligations.HeadLabelIsDispatched : Prop :=
  (∀ (s : State) (r : Request) (n : Word), Asked s r → r.kind = 0x29 → r.body = bytes32 n →
    (n = 0 → exec .labelVoid s = .next (reply r (.field 0) .none s)) ∧
    (n ≠ 0 → (∀ h rest, s.label.queue = h :: rest → h.number ≠ n) → exec .labelVoid s = .next (reply r .notfound .none s)) ∧
    ∀ h rest, n ≠ 0 → s.label.queue = h :: rest → h.number = n → (∀ cause code, s.label.head ≠ .faulted cause code) →
      exec .labelVoid s = .next (reply r .state .none s)) ∧
  ∀ (s : State) (h : LabelRecord) (rest : List LabelRecord), s.inReset = false → s.label.queue = h :: rest →
    (∃ t, exec (.applied h.number) s = .next t ∧ HeadDispatched s t h rest .applied) ∧
    ∀ (r : Request) (cause : LabelCause) (code : Byte), s.link.requests.head? = some r → r.kind = 0x29 →
      r.body = bytes32 h.number → h.number ≠ 0 → s.label.head = .faulted cause code →
      ∃ t, exec .labelVoid s = .next t ∧ HeadDispatched s t h rest .voided ∧
        t.link.tx.getLast? = some (.reply { kind := 0x69, tag := r.tag, status := .ok, data := .none })

/-- The head becomes FAULTED at a FAULT of its sequence in SENT or ACCEPTED, at the accept timer's expiry in SENT and at the applied timer's in
ACCEPTED: the cause and code are kept, a LABEL fault is logged and the LABEL notice sent; a timer that does not run gives nothing (R184; that an
expiry without its timer is passed over is the model's choice, log 2, and so is the FAULT notice ahead of the LABEL notice, log 10). -/
def Obligations.HeadBecomesFaulted : Prop :=
  ∀ (s : State) (h : LabelRecord) (rest : List LabelRecord), s.inReset = false → s.label.queue = h :: rest →
    (∀ code : Byte, code ≠ 0 → s.label.head = .sent ∨ s.label.head = .accepted →
      exec (.fault h.number code) s = .next (offer (.label (.faulted h.number h.bin .labeller code s.label.dumped) s.link.clock)
        (logFault .label 3 (some code.toNat) (.bundle h.number) 0 { s with
          label := { s.label with head := .faulted .labeller code }
          link := { s.link with labelReceiver := .hunting } }))) ∧
    (s.label.head = .sent →
      exec .acceptTimerExpiry s = .next (offer (.label (.faulted h.number h.bin .acceptTimeout 0 s.label.dumped) s.link.clock)
        (logFault .label 1 none (.bundle h.number) 0 { s with label := { s.label with head := .faulted .acceptTimeout 0 } }))) ∧
    (s.label.head = .accepted →
      exec .appliedTimerExpiry s = .next (offer (.label (.faulted h.number h.bin .appliedTimeout 0 s.label.dumped) s.link.clock)
        (logFault .label 2 none (.bundle h.number) 0 { s with label := { s.label with head := .faulted .appliedTimeout 0 } }))) ∧
    (s.label.head ≠ .sent → exec .acceptTimerExpiry s = .next s) ∧
    (s.label.head ≠ .accepted → exec .appliedTimerExpiry s = .next s)

/-- LABEL RETRY (R186): 0 is refused with FIELD, a number that is not the head's with NOTFOUND, a head not FAULTED with STATE; a FAULTED head
returns to WAIT_READY with its dumped mark kept, and its PRINT waits while the labeller is not ready. READ LABELS gives the queue, the head and the
records, with the running timer's time left within its limit (R189; a free value, log 14). -/
def Obligations.LabelRetryAndReadLabels : Prop :=
  (∀ (s : State) (r : Request) (n : Word), Asked s r → r.kind = 0x28 → r.body = bytes32 n →
      (n = 0 → exec .labelRetry s = .next (reply r (.field 0) .none s)) ∧
      (n ≠ 0 → (∀ h rest, s.label.queue = h :: rest → h.number ≠ n) → exec .labelRetry s = .next (reply r .notfound .none s)) ∧
      (∀ h rest, n ≠ 0 → s.label.queue = h :: rest → h.number = n →
        ((∀ cause code, s.label.head ≠ .faulted cause code) → exec .labelRetry s = .next (reply r .state .none s)) ∧
        (∀ cause code, s.label.head = .faulted cause code → s.label.readyFlag = false →
          exec .labelRetry s = .next (reply r .ok .none { s with label := { s.label with head := .waitReady } })))) ∧
    ∀ (s : State) (r : Request), Asked s r → r.kind = 0x2A → r.body = [] →
      ∃ v n, exec .readLabels s = .next (reply r .ok (.labels v) { s with freeCount := n }) ∧ v.lot = s.label.lot ∧
        v.nextNumber = s.label.nextNumber ∧ v.readyFlag = s.label.readyFlag ∧
        v.labels = s.label.queue.map (fun l => (l.number, l.bin, l.closeTime)) ∧ v.owed = s.label.owed ∧
        v.dispatch = s.label.dispatch ∧
        (∀ h rest, s.label.queue = h :: rest → v.head = some (h, s.label.head, s.label.dumped)) ∧
        (s.label.queue = [] → v.head = none ∧ v.timeLeft = none) ∧
        ∀ x, v.timeLeft = some x → s.label.head = .sent ∧ x ≤ 250 ∨ s.label.head = .accepted ∧ x ≤ 20000

/-! ### Frames, requests and the transmitter -/

/-- A frame with a body of at most 1022 bytes is what a hunting receiver reads from its bytes, and nothing more (R203, R204). -/
def Obligations.ReceiverReadsWhatTheFrameSays : Prop :=
  ∀ (kind tag : Byte) (body : List Byte), body.length ≤ 1022 →
    rxBytes .hunting (frameBytes kind tag body) = (.hunting, [.frame kind tag body])

/-- On either line, from a hunting receiver: bytes without a start mark change nothing; a start mark with a length below 2 or above 1024 is a FRAME
fault with detail 1 in the line's own record; a frame of good length whose last two bytes are not the CRC of its length and contents is a FRAME
fault with detail 2; a partial frame followed by a gap leaves nothing behind (R185, R203, R204). -/
def Obligations.BadFramesAreDiscarded : Prop :=
  (∀ (s : State) (bs : List Byte), s.inReset = false → s.link.receiver = .hunting → (∀ x ∈ bs, x ≠ 0xA5) →
      exec (.linkFrameError bs) s = .next s ∧ exec (.linkFrameGap bs) s = .next s) ∧
    (∀ (s : State) (bs : List Byte), s.inReset = false → s.link.labelReceiver = .hunting → (∀ x ∈ bs, x ≠ 0xA5) →
      exec (.labelFrameError bs) s = .next s ∧ exec (.labelFrameGap bs) s = .next s) ∧
    (∀ (s : State) (n : BitVec 16), s.inReset = false → n.toNat < 2 ∨ 1024 < n.toNat →
      (s.link.receiver = .hunting →
        exec (.linkFrameError (0xA5 :: bytes16 n)) s = .next (logFault .link 1 (some 1) .none 0 s)) ∧
      (s.link.labelReceiver = .hunting →
        exec (.labelFrameError (0xA5 :: bytes16 n)) s = .next (logFault .label 4 (some 1) .none 0 s))) ∧
    (∀ (s : State) (n : BitVec 16) (content crc : List Byte), s.inReset = false → 2 ≤ n.toNat → n.toNat ≤ 1024 →
      content.length = n.toNat → crc.length = 2 → crc ≠ bytes16 (crc16 (bytes16 n ++ content)) →
      (s.link.receiver = .hunting →
        exec (.linkFrameError (0xA5 :: (bytes16 n ++ content ++ crc))) s = .next (logFault .link 1 (some 2) .none 0 s)) ∧
      (s.link.labelReceiver = .hunting →
        exec (.labelFrameError (0xA5 :: (bytes16 n ++ content ++ crc))) s = .next (logFault .label 4 (some 2) .none 0 s))) ∧
    ∀ (s : State) (n : BitVec 16) (rest : List Byte), s.inReset = false → 2 ≤ n.toNat → n.toNat ≤ 1024 →
      rest.length < n.toNat + 2 →
      (s.link.receiver = .hunting → exec (.linkFrameGap (0xA5 :: (bytes16 n ++ rest))) s = .next s) ∧
      (s.link.labelReceiver = .hunting → exec (.labelFrameGap (0xA5 :: (bytes16 n ++ rest))) s = .next s)

/-- A checked frame with a request kind joins a queue of fewer than 4 requests at its tail; with 4 it is a LINK fault OVERRUN with the kind as
detail; a kind outside 0x01 to 0x3F is a LINK fault FRAME with detail 3 (R204, R205). That REQUEST_RECEIVED may carry a kind that is no request, or
a body above 1022 bytes, which stands for a length above 1024 and is a LINK fault FRAME with detail 1, is the model's choice (log 23). -/
def Obligations.RequestsJoinTheQueue : Prop :=
  (∀ (s : State) (kind tag : Byte) (body : List Byte), s.inReset = false → 1022 < body.length →
    exec (.requestReceived kind tag body) s = .next
      (logFault .link 1 (some 1) .none 0 { s with link := { s.link with receiver := .hunting } })) ∧
  ∀ (s : State) (kind tag : Byte) (body : List Byte), s.inReset = false → body.length ≤ 1022 →
    (1 ≤ kind.toNat → kind.toNat ≤ 63 →
      (s.link.requests.length < 4 → exec (.requestReceived kind tag body) s = .next { s with link := { s.link with
        receiver := .hunting
        requests := s.link.requests ++ [{ kind, tag, body }] } }) ∧
      (4 ≤ s.link.requests.length → exec (.requestReceived kind tag body) s = .next
        (logFault .link 2 (some kind.toNat) .none 0 { s with link := { s.link with receiver := .hunting } }))) ∧
    (kind.toNat < 1 ∨ 63 < kind.toNat → exec (.requestReceived kind tag body) s = .next
      (logFault .link 1 (some 3) .none 0 { s with link := { s.link with receiver := .hunting } }))

/-- The ends of the part's own activities: the SAW, TRANSFER and DUMP pulses go low at their ends, the frame being sent leaves the transmitter, and
the clock rises by one (R94, R134, R181, R207, R213). -/
def Obligations.ActivitiesEnd : Prop :=
  ∀ s : State, s.inReset = false →
    exec .sawPulseEnd s = .next { s with saw := { s.saw with high := false } } ∧
    exec .transferPulseEnd s = .next { s with chain := { s.chain with transferHigh := false } } ∧
    (∀ b : Bin, exec (.dumpPulseEnd b) s = .next { s with label := { s.label with
      dumpHigh := setAt s.label.dumpHigh b false } }) ∧
    exec .frameSent s = .next { s with link := { s.link with tx := s.link.tx.drop 1 } } ∧
    exec .clockSecond s = .next { s with link := { s.link with clock := s.link.clock + 1, phase := 0 } }

/-- An unassigned kind is answered UNKNOWN; IDENTIFY gives the four identity codes; STATUS reports the dropped count as it stood and clears it with
clear flag 1, and refuses another flag; either with a body of another size is answered FRAME; nothing else changes (R206, R212). -/
def Obligations.UnknownIdentifyAndStatus : Prop :=
  ∀ (s : State) (r : Request), Asked s r →
    (r.kind ∉ assignedKinds → exec .unknownRequest s = .next (reply r .unknown .none s)) ∧
    (r.kind = 0x01 → r.body = [] → exec .identify s = .next (reply r .ok (.identity 0x0A37 440 1 1) s)) ∧
    (r.kind = 0x01 → r.body ≠ [] → exec .identify s = .next (reply r .frame .none s)) ∧
    (r.kind = 0x02 → r.body.length ≠ 1 → exec .status s = .next (reply r .frame .none s)) ∧
    (∀ f : Byte, r.kind = 0x02 → r.body = [f] →
      (f = 0 → ∃ d, exec .status s = .next (reply r .ok (.status d) s) ∧ d.line = s.line.state ∧ d.holds = s.line.holds ∧
        d.estopLevel = s.line.estopLevel ∧ d.travel = s.motion.travel ∧ d.mark = s.motion.mark ∧ d.lug = s.motion.lug ∧
        d.strips = s.belt.strips.length ∧ d.freeRecords = 128 - s.cuttings.length ∧ d.deckCount = s.chain.deck.length ∧
        d.labels = s.label.queue.length ∧ d.counter = s.recipe.counter ∧ d.dropped = s.link.dropped ∧ d.clock = s.link.clock) ∧
      (f = 1 → ∃ d, exec .status s = .next (reply r .ok (.status d) { s with link := { s.link with dropped := 0 } }) ∧
        d.dropped = s.link.dropped) ∧
      (1 < f.toNat → exec .status s = .next (reply r (.field 0) .none s)))

/-- READ STRIP, READ CUTTING, READ BIN and READ RETURNS report the record asked for and change nothing; a record not in use is NOTFOUND and a field
out of range FIELD with its index (R18, R133, R147, R172); of two fields out of range READ CUTTING gives the lower index, which is the model's
choice (log 35). -/
def Obligations.TrackingReadsChangeNothing : Prop :=
  ∀ (s : State) (r : Request), Asked s r →
    (∀ n : Word, r.kind = 0x20 → r.body = bytes32 n →
      (n.toNat < 1 ∨ 16777215 < n.toNat → exec .readStrip s = .next (reply r (.field 0) .none s)) ∧
      (1 ≤ n.toNat → n.toNat ≤ 16777215 →
        (findStrip s n.toNat = none → exec .readStrip s = .next (reply r .notfound .none s)) ∧
        ∀ x, findStrip s n.toNat = some x → exec .readStrip s = .next (reply r .ok
          (.strip x (x.zones.map (fun z => (passMm s z.start, passMm s z.stop)))) s))) ∧
    (∀ (n : Word) (i : Byte), r.kind = 0x21 → r.body = bytes32 n ++ [i] →
      (n.toNat < 1 ∨ 16777215 < n.toNat → exec .readCutting s = .next (reply r (.field 0) .none s)) ∧
      (1 ≤ n.toNat → n.toNat ≤ 16777215 →
        (15 < i.toNat → exec .readCutting s = .next (reply r (.field 1) .none s)) ∧
        (i.toNat ≤ 15 → findCutting s ⟨n.toNat, i.toNat⟩ = none → exec .readCutting s = .next (reply r .notfound .none s)) ∧
        ∀ c, i.toNat ≤ 15 → findCutting s ⟨n.toNat, i.toNat⟩ = some c → exec .readCutting s = .next (reply r .ok
          (.cutting c (keptContext s c.id) (referralView s c.id)
            (if c.state.onLugP then c.loadLug.map (fun l => s.motion.lug - l) else none)) s))) ∧
    (∀ n : Byte, r.kind = 0x22 → r.body = [n] →
      (n.toNat < 1 ∨ 8 < n.toNat → exec .readBin s = .next (reply r (.field 0) .none s)) ∧
      ∀ b : Bin, b.val + 1 = n.toNat → ∃ d, exec .readBin s = .next (reply r .ok (.bin d) s) ∧
        d.state = s.bundles.bins[b].state ∧ d.emptyLevel = s.bundles.bins[b].emptyLevel ∧ d.window = s.chain.windows[b] ∧
        d.bundle = s.bundles.bins[b].bundle ∧
        ∀ bu, s.bundles.bins[b].bundle = some bu → d.inFlight = bu.count - bu.landedCount) ∧
    (r.kind = 0x3A → r.body = [] →
      exec .readReturns s = .next (reply r .ok (.returns s.chain.lastReturn s.chain.preFlush) s))

/-- READ CONFIG, READ TOOLS, READ FAULT and RECIPE READ report what they are asked for and change nothing; CLEAR FAULT empties the record (R68,
R200, R210, R211). RECIPE READ refuses a bank above 1, a section above 6, a starting index above 63, and a count of 0 or past entry 63 with their
index, and a body of another size with FRAME. That TESTS takes four bytes with a one-byte starting index and count, and another section two, is the
model's reading (logs 11, 22); that the lowest field out of range is the one refused, and the count's index for a sum above 64, is its choice (log
35). -/
def Obligations.SetupReadsChangeNothing : Prop :=
  ∀ (s : State) (r : Request), Asked s r →
    (∀ n : Byte, r.kind = 0x04 → r.body = [n] →
      (4 < n.toNat → exec .readConfig s = .next (reply r (.field 0) .none s)) ∧
      (n = 0 → exec .readConfig s = .next (reply r .ok (.config s.inForce.marks[0] (.motion s.inForce.motion) s.inForce.marks) s)) ∧
      (n = 1 → exec .readConfig s = .next (reply r .ok (.config s.inForce.marks[1] (.channels s.inForce.channels) s.inForce.marks) s)) ∧
      (n = 2 → exec .readConfig s = .next (reply r .ok (.config s.inForce.marks[2] (.scan s.inForce.scan) s.inForce.marks) s)) ∧
      (n = 3 → exec .readConfig s = .next (reply r .ok (.config s.inForce.marks[3] (.deck s.inForce.deck) s.inForce.marks) s)) ∧
      (n = 4 → exec .readConfig s = .next (reply r .ok (.config s.inForce.marks[4] (.chain s.inForce.chain) s.inForce.marks) s))) ∧
    (r.kind = 0x32 → r.body = [] → exec .readTools s = .next (reply r .ok (.tools
      { spindles := s.profile.spindles, limitCount := s.profile.limitCount, profileHeld := s.line.holds.profile,
        ring := s.profile.ring, drift := s.profile.drift, armed := s.profile.armed }) s)) ∧
    (∀ n : Byte, r.kind = 0x38 → r.body = [n] →
      (3 < n.toNat → exec .readFault s = .next (reply r (.field 0) .none s)) ∧
      ∀ b, FaultBook.ofCode n.toNat = some b → exec .readFault s = .next (reply r .ok (.fault (s.link.record b)) s)) ∧
    (∀ n : Byte, r.kind = 0x39 → r.body = [n] →
      (3 < n.toNat → exec .clearFault s = .next (reply r (.field 0) .none s)) ∧
      ∀ b, FaultBook.ofCode n.toNat = some b → exec .clearFault s = .next (reply r .ok .none
        { s with link := s.link.setRecord b { first := none, count := 0, overflow := false } })) ∧
    (∀ (k : BankId) (sec : Byte), r.kind = 0x14 → r.body = [BitVec.ofNat 8 k.val, sec] → sec.toNat ≤ 6 → sec ≠ 3 →
      ∃ c, exec .recipeRead s = .next (reply r .ok (.recipe
        { state := s.recipe.banks[k].state, generation := s.recipe.banks[k].generation, strips := s.recipe.banks[k].strips,
          cuttings := s.recipe.banks[k].cuttings, bundles := s.recipe.banks[k].bundles,
          references := s.recipe.banks[k].strips + s.recipe.banks[k].cuttings + s.recipe.banks[k].bundles,
          counter := s.recipe.counter } c) s) ∧
        (sec = 0 → c = .cut s.recipe.banks[k].cut) ∧ (sec = 1 → c = .lengths s.recipe.banks[k].lengths) ∧
        (sec = 2 → c = .grades s.recipe.banks[k].grades) ∧ (sec = 4 → c = .bins s.recipe.banks[k].bins) ∧
        (sec = 5 → c = .profile s.recipe.banks[k].profile) ∧ (sec = 6 → c = .cover s.recipe.banks[k].cover)) ∧
    (∀ (k : BankId) (st n : Byte), r.kind = 0x14 → r.body = [BitVec.ofNat 8 k.val, 3, st, n] → st.toNat ≤ 63 → 1 ≤ n.toNat →
      st.toNat + n.toNat ≤ 64 →
      ∃ v, exec .recipeRead s = .next (reply r .ok
        (.recipe v (.tests ((s.recipe.banks[k].tests.toList.drop st.toNat).take n.toNat))) s)) ∧
    (∀ k sec : Byte, r.kind = 0x14 → r.body = [k, sec] →
      (sec = 3 → exec .recipeRead s = .next (reply r .frame .none s)) ∧
      (sec ≠ 3 → 1 < k.toNat → exec .recipeRead s = .next (reply r (.field 0) .none s)) ∧
      (k.toNat ≤ 1 → 6 < sec.toNat → exec .recipeRead s = .next (reply r (.field 1) .none s))) ∧
    (∀ k sec st n : Byte, r.kind = 0x14 → r.body = [k, sec, st, n] →
      (sec ≠ 3 → exec .recipeRead s = .next (reply r .frame .none s)) ∧
      (sec = 3 → 1 < k.toNat → exec .recipeRead s = .next (reply r (.field 0) .none s)) ∧
      (sec = 3 → k.toNat ≤ 1 → 63 < st.toNat → exec .recipeRead s = .next (reply r (.field 2) .none s)) ∧
      (sec = 3 → k.toNat ≤ 1 → st.toNat ≤ 63 → n = 0 ∨ 64 < st.toNat + n.toNat →
        exec .recipeRead s = .next (reply r (.field 3) .none s))) ∧
    (r.kind = 0x14 → r.body.length ≠ 2 → r.body.length ≠ 4 → exec .recipeRead s = .next (reply r .frame .none s))

/-! ### Settings, configuration and recipes -/

/-- INFEED HOLD adds or removes HOST with a LINE notice when the set changes; NOTICE MASK, SET CLOCK and SET LOT set their values; each replies OK,
and a field out of range is refused with its index and changes nothing (R11, R188, R208, R213). -/
def Obligations.SettingsAreTaken : Prop :=
  ∀ (s : State) (r : Request), Asked s r →
    (∀ h : Byte, r.kind = 0x08 → r.body = [h] →
      (1 < h.toNat → exec .infeedHold s = .next (reply r (.field 0) .none s)) ∧
      (∀ v : Bool, h = (if v then 1 else 0) →
        (s.line.holds.host = v → exec .infeedHold s = .next (reply r .ok .none s)) ∧
        (s.line.holds.host ≠ v → exec .infeedHold s = .next (reply r .ok .none { s with
          line := { s.line with holds := { s.line.holds with host := v } }
          link := s.link.offer (.line s.line.state s.line.state { s.line.holds with host := v } s.motion.travel
            s.link.clock) })))) ∧
    (∀ m : BitVec 16, r.kind = 0x09 → r.body = bytes16 m →
      (2047 < m.toNat → exec .noticeMask s = .next (reply r (.field 0) .none s)) ∧
      (m.toNat ≤ 2047 → exec .noticeMask s = .next (reply r .ok .none
        { s with link := { s.link with mask := m.extractLsb' 0 11 } }))) ∧
    (∀ v : Word, r.kind = 0x0A → r.body = bytes32 v →
      exec .setClock s = .next (reply r .ok .none { s with link := { s.link with clock := v, phase := 0 } })) ∧
    (∀ (lot : BitVec 16) (n : Word), r.kind = 0x0B → r.body = bytes16 lot ++ bytes32 n →
      (n = 0 → exec .setLot s = .next (reply r (.field 1) .none s)) ∧
      (n ≠ 0 → exec .setLot s = .next (reply r .ok .none
        { s with label := { s.label with lot := lot.toNat, nextNumber := n } })))

/-- CONFIGURE (R209): in RUN, DRAIN and ESTOP it is refused with STATE; in STANDBY and READY a section code above 4 is refused with FIELD 0, and a
section whose fields all pass Table 69, with its cross-checks and R201, replaces its values and sets its accepted mark, STANDBY becoming READY when
that makes the configuration valid with a bank ACTIVE (R5); one with a field that fails is refused with the index of the lowest, and a body of
another size with FRAME. The values in force change at once and reach their blocks at the next strip created (R209; that READ CONFIG, the checks and
a commit read them at once is the model's reading, log 43). The sizes of the fields, two bytes for each deck mark among them, are the model's
reading (log 11). -/
def Obligations.ConfigureJudgesTheSection : Prop :=
  ∀ (s : State) (r : Request) (sec : Byte) (body : List Byte), Asked s r → r.kind = 0x03 → r.body = sec :: body →
    (4 < sec.toNat →
      (s.line.state = .standby ∨ s.line.state = .ready → exec .configure s = .next (reply r (.field 0) .none s)) ∧
      (s.line.state = .run ∨ s.line.state = .drain ∨ s.line.state = .estop → exec .configure s = .next (reply r .state .none s))) ∧
    (∀ layout, configLayout sec.toNat = some layout → parseFields layout body = none →
      exec .configure s = .next (reply r .frame .none s)) ∧
    ∀ (layout : List FieldSize) (fs : List Int) (f : Nat → Int), configLayout sec.toNat = some layout →
      parseFields layout body = some fs → (∀ i, f i = tableField fs i) →
      (s.line.state = .run ∨ s.line.state = .drain ∨ s.line.state = .estop →
        exec .configure s = .next (reply r .state .none s)) ∧
      (s.line.state = .standby ∨ s.line.state = .ready →
        ((∀ i, 1 ≤ i → i ≤ layout.length → ConfigFieldPasses s sec.toNat f i) →
          ∃ t, exec .configure s = .next (reply r .ok .none t) ∧ SectionInstalled s.inForce t.inForce sec.toNat f ∧
            t.config = s.config ∧
            t.line.state = (if s.line.state = .standby then restState { s with inForce := t.inForce } else s.line.state) ∧
            t.recipe = s.recipe ∧ t.bundles = s.bundles ∧ t.profile = s.profile ∧ t.motion.travel = s.motion.travel) ∧
        ∀ i, 1 ≤ i → i ≤ layout.length → ¬ConfigFieldPasses s sec.toNat f i →
          (∀ j, 1 ≤ j → j < i → ConfigFieldPasses s sec.toNat f j) → exec .configure s = .next (reply r (.field i) .none s))

/-- RECIPE BEGIN makes an EMPTY, VALID or LOADING bank LOADING with every section unloaded and no generation, and is refused with INUSE for an
ACTIVE or RETIRING one (R194). RECIPE PUT in a LOADING bank stores each section of Table 61 as its body gives it, a run of tests in its place in the
pool, and changes nothing else; it is refused with STATE in another bank, with FIELD 1 for a section code above 6 or a body of another size, and
with the index of a count that the layout cannot hold: 2 for LENGTHS and GRADES, 3 for TESTS, its starting index included (R195). Either request
refuses a bank above 1 with FIELD 0. That a count too large goes ahead of a wrong size, and FIELD 1 for a body too short for a section byte or for
its count, are the model's reading (log 22); so are the sizes of the fields (log 11). -/
def Obligations.RecipeBeginAndPut : Prop :=
  (∀ (s : State) (r : Request) (k : Byte) (more : List Byte), Asked s r → 1 < k.toNat →
    (r.kind = 0x10 → r.body = [k] → exec .recipeBegin s = .next (reply r (.field 0) .none s)) ∧
    (r.kind = 0x11 → r.body = k :: more → exec .recipePut s = .next (reply r (.field 0) .none s))) ∧
  (∀ (s : State) (r : Request) (k : BankId), Asked s r → r.kind = 0x10 → r.body = [BitVec.ofNat 8 k.val] →
    (s.recipe.banks[k].state = .active ∨ s.recipe.banks[k].state = .retiring →
      exec .recipeBegin s = .next (reply r .inuse .none s)) ∧
    (s.recipe.banks[k].state ≠ .active → s.recipe.banks[k].state ≠ .retiring →
      exec .recipeBegin s = .next (reply r .ok .none { s with recipe := { s.recipe with
        banks := setAt s.recipe.banks k
          { state := .loading
            generation := none
            cut := none
            lengths := none
            grades := none
            tests := Vector.replicate 64 none
            bins := none
            profile := none
            cover := none
            strips := s.recipe.banks[k].strips
            cuttings := s.recipe.banks[k].cuttings
            bundles := s.recipe.banks[k].bundles } } }))) ∧
  ∀ (s : State) (r : Request) (k : BankId) (b : Bank) (sec : Byte) (more : List Byte), Asked s r → r.kind = 0x11 →
    r.body = BitVec.ofNat 8 k.val :: sec :: more → b = s.recipe.banks[k] →
    (6 < sec.toNat → exec .recipePut s = .next (reply r (.field 1) .none s)) ∧
    (sec.toNat ≤ 6 → b.state ≠ .loading → exec .recipePut s = .next (reply r .state .none s)) ∧
    (b.state = .loading →
      (sec = 0 →
        (∀ c : CutSection, c.Fits →
          more = w16 c.tl ++ w16 c.tt ++ w16 c.k ++ w16 c.g ++ w16 c.ae ++ w16 c.tc ++ w16 c.nominalWidth →
          PutStores r s k { b with cut := some c }) ∧
        (more.length ≠ 14 → exec .recipePut s = .next (reply r (.field 1) .none s))) ∧
      (sec = 1 →
        (∀ ns : List Nat, ns.length ≤ 12 → (∀ n ∈ ns, n < 65536) → more = wList w16 ns → PutStores r s k { b with lengths := some ns }) ∧
        (more = [] → exec .recipePut s = .next (reply r (.field 1) .none s)) ∧
        ∀ (n : Byte) (rest : List Byte), more = n :: rest →
          (12 < n.toNat → exec .recipePut s = .next (reply r (.field 2) .none s)) ∧
          (n.toNat ≤ 12 → rest.length ≠ 2 * n.toNat → exec .recipePut s = .next (reply r (.field 1) .none s))) ∧
      (sec = 2 →
        (∀ gs : List GradeEntry, gs.length ≤ 8 → (∀ g ∈ gs, g.Fits) →
          more = wList (fun g : GradeEntry => w8 g.code ++ w8 g.first ++ w16 g.count ++ w8 g.verdict) gs →
          PutStores r s k { b with grades := some gs }) ∧
        (more = [] → exec .recipePut s = .next (reply r (.field 1) .none s)) ∧
        ∀ (n : Byte) (rest : List Byte), more = n :: rest →
          (8 < n.toNat → exec .recipePut s = .next (reply r (.field 2) .none s)) ∧
          (n.toNat ≤ 8 → rest.length ≠ 5 * n.toNat → exec .recipePut s = .next (reply r (.field 1) .none s))) ∧
      (sec = 3 →
        (more.length < 2 → exec .recipePut s = .next (reply r (.field 1) .none s)) ∧
        ∀ (st n : Byte) (rest : List Byte), more = st :: n :: rest →
          (63 < st.toNat ∨ n = 0 ∨ 64 < st.toNat + n.toNat → exec .recipePut s = .next (reply r (.field 3) .none s)) ∧
          (st.toNat ≤ 63 → n ≠ 0 → st.toNat + n.toNat ≤ 64 →
            (rest.length ≠ 14 * n.toNat → exec .recipePut s = .next (reply r (.field 1) .none s)) ∧
            ∀ es : List TestEntry, es.length = n.toNat → (∀ e ∈ es, e.Fits) → rest = es.flatMap TestEntry.bytes →
              ∃ v : Vector (Option TestEntry) 64, PutStores r s k { b with tests := v } ∧
                (∀ i e, es[i]? = some e → v[st.toNat + i]? = some (some e)) ∧
                ∀ j : Fin 64, j.val < st.toNat ∨ st.toNat + n.toNat ≤ j.val → v[j] = b.tests[j])) ∧
      (sec = 4 →
        (∀ v : Vector BinPlan 8, (∀ i : Bin, v[i].Fits) → more = v.toList.flatMap BinPlan.bytes →
          PutStores r s k { b with bins := some v }) ∧
        (more.length ≠ 168 → exec .recipePut s = .next (reply r (.field 1) .none s))) ∧
      (sec = 5 →
        (∀ p : ProfileSection, p.Fits → more = p.bytes → PutStores r s k { b with profile := some p }) ∧
        (more.length ≠ 70 → exec .recipePut s = .next (reply r (.field 1) .none s))) ∧
      (sec = 6 →
        (∀ w : BitVec 16, more = bytes16 w → PutStores r s k { b with cover := some w.toNat }) ∧
        (more.length ≠ 2 → exec .recipePut s = .next (reply r (.field 1) .none s))))

/-- RECIPE COMMIT (R196, R197): a bank above 1 is refused with FIELD 0 and one not LOADING with STATE; a LOADING bank in which an item of Table 62
fails gets INVALID with the first of those, by section and then by item, and stays as it is; one whose items all pass becomes VALID with the
counter's generation, which the reply carries, and the counter moves on past the other bank's generation. A length table holds 12 lengths at most
(R195; BanksKeepApart states that it stays so). -/
def Obligations.RecipeCommitValidatesTheBank : Prop :=
  (∀ (s : State) (r : Request) (k : Byte), Asked s r → r.kind = 0x12 → r.body = [k] → 1 < k.toNat →
    exec .recipeCommit s = .next (reply r (.field 0) .none s)) ∧
  ∀ (s : State) (r : Request) (k : BankId) (b : Bank), Asked s r → r.kind = 0x12 → r.body = [BitVec.ofNat 8 k.val] →
    b = s.recipe.banks[k] →
    (b.state ≠ .loading → exec .recipeCommit s = .next (reply r .state .none s)) ∧
    (b.state = .loading → (∀ l, b.lengths = some l → l.length ≤ 12) →
      (∀ sec item, ¬CommitItemPasses s.inForce.motion.dr b sec item →
        (∀ sec' item', sec' < sec ∨ sec' = sec ∧ item' < item → CommitItemPasses s.inForce.motion.dr b sec' item') →
        exec .recipeCommit s = .next (reply r (.invalid sec item) .none s)) ∧
      ((∀ sec item, CommitItemPasses s.inForce.motion.dr b sec item) →
        ∃ n, exec .recipeCommit s = .next (reply r .ok (.generation s.recipe.counter) { s with recipe :=
            { banks := setAt s.recipe.banks k { b with state := .valid, generation := some s.recipe.counter }
              counter := n } }) ∧
          (n = nextGeneration s.recipe.counter ∨ n = nextGeneration (nextGeneration s.recipe.counter)) ∧
          s.recipe.banks[otherBank k].heldGeneration ≠ some n))

/-- RECIPE SWITCH (R199): a bank above 1 is refused with FIELD 0 and one not VALID with STATE. A VALID bank becomes ACTIVE with its generation; the
bank that was ACTIVE becomes RETIRING, or VALID when nothing refers to it any more; the drift ring empties; the SWITCHED notice, the first, names
the bank, its generation and what became of the other; STANDBY becomes READY when the configuration is valid; every IDLE bin takes a bundle of the
new plan or stays IDLE (R154); an OPEN bundle of a bank that is not ACTIVE and has no strip and no cutting bound is discarded when empty and takes
SHORT otherwise, closed when nothing of it is in flight (R166, R167), and every other bin stays; the OK reply follows; the counter, the strips, the
cuttings and the configuration stay. -/
def Obligations.RecipeSwitchActivatesTheBank : Prop :=
  (∀ (s : State) (r : Request) (k : Byte), Asked s r → r.kind = 0x13 → r.body = [k] → 1 < k.toNat →
    exec .recipeSwitch s = .next (reply r (.field 0) .none s)) ∧
  ∀ (s : State) (r : Request) (k : BankId), Asked s r → r.kind = 0x13 → r.body = [BitVec.ofNat 8 k.val] →
    (s.recipe.banks[k].state ≠ .valid → exec .recipeSwitch s = .next (reply r .state .none s)) ∧
    (s.recipe.banks[k].state = .valid → ∃ t, exec .recipeSwitch s = .next t ∧ t.recipe.banks[k].state = .active ∧
      t.recipe.banks[k].generation = s.recipe.banks[k].generation ∧ t.recipe.counter = s.recipe.counter ∧
      t.profile = { s.profile with ring := [], drift := none, armed := true } ∧
      (s.line.state = .standby → t.line.state = if configValid s then .ready else .standby) ∧
      (s.line.state ≠ .standby → t.line = s.line) ∧ t.motion.travel = s.motion.travel ∧ t.belt = s.belt ∧
      t.cuttings = s.cuttings ∧ t.config = s.config ∧ t.inForce = s.inForce ∧
      t.link.tx.getLast? = some (.reply { kind := 0x53, tag := r.tag, status := .ok, data := .none }) ∧
      (∃ more, t.link.tx = (s.link.offer (.recipe (.switched k (s.recipe.banks[k].generation.getD 0) (activeBank s)
        ((activeBank s).map (fun p => if 0 < s.recipe.banks[p].references then .retiring else .valid))) s.link.clock)).tx ++ more) ∧
      (∀ p : BankId, p ≠ k → s.recipe.banks[p].state = .active →
        t.recipe.banks[p].state = if 0 < t.recipe.banks[p].references then .retiring else .valid) ∧
      ∀ b : Bin,
        (s.bundles.bins[b].state = .idle → NextBundleOpened t s t b) ∧
        (s.bundles.bins[b].state ≠ .idle → s.bundles.bins[b].state ≠ .opened → t.bundles.bins[b] = s.bundles.bins[b]) ∧
        ∀ bu, s.bundles.bins[b].state = .opened → s.bundles.bins[b].bundle = some bu →
          (bu.bank = k ∨ s.recipe.banks[bu.bank].strips ≠ 0 ∨ s.recipe.banks[bu.bank].cuttings ≠ 0 →
            t.bundles.bins[b] = s.bundles.bins[b]) ∧
          (bu.bank ≠ k → s.recipe.banks[bu.bank].strips = 0 → s.recipe.banks[bu.bank].cuttings = 0 →
            (bu.count = 0 → NextBundleOpened t s t b) ∧
            (bu.count ≠ 0 → bu.count ≠ bu.landedCount → t.bundles.bins[b] =
              { s.bundles.bins[b] with state := .filled, bundle := some { bu with short := true } }) ∧
            (bu.count ≠ 0 → bu.count = bu.landedCount → BinClosed s t b { bu with short := true })))
end

