-- ==== Sys2Proof/Laws/State.lean ====
section
/-! SUPPORT. What each shared update of the state leaves of each field: one lemma for each field and update. -/

set_option Elab.async false

namespace Sys2Proof.Machine

@[simp] theorem offer_motion (n : Notice) (s : State) : (offer n s).motion = s.motion := rfl
@[simp] theorem offer_line (n : Notice) (s : State) : (offer n s).line = s.line := rfl
@[simp] theorem offer_belt (n : Notice) (s : State) : (offer n s).belt = s.belt := rfl
@[simp] theorem offer_scan (n : Notice) (s : State) : (offer n s).scan = s.scan := rfl
@[simp] theorem offer_profile (n : Notice) (s : State) : (offer n s).profile = s.profile := rfl
@[simp] theorem offer_planner (n : Notice) (s : State) : (offer n s).planner = s.planner := rfl
@[simp] theorem offer_saw (n : Notice) (s : State) : (offer n s).saw = s.saw := rfl
@[simp] theorem offer_grade (n : Notice) (s : State) : (offer n s).grade = s.grade := rfl
@[simp] theorem offer_referral (n : Notice) (s : State) : (offer n s).referral = s.referral := rfl
@[simp] theorem offer_cuttings (n : Notice) (s : State) : (offer n s).cuttings = s.cuttings := rfl
@[simp] theorem offer_chain (n : Notice) (s : State) : (offer n s).chain = s.chain := rfl
@[simp] theorem offer_bundles (n : Notice) (s : State) : (offer n s).bundles = s.bundles := rfl
@[simp] theorem offer_label (n : Notice) (s : State) : (offer n s).label = s.label := rfl
@[simp] theorem offer_recipe (n : Notice) (s : State) : (offer n s).recipe = s.recipe := rfl
@[simp] theorem offer_config (n : Notice) (s : State) : (offer n s).config = s.config := rfl
@[simp] theorem offer_inForce (n : Notice) (s : State) : (offer n s).inForce = s.inForce := rfl
@[simp] theorem offer_inReset (n : Notice) (s : State) : (offer n s).inReset = s.inReset := rfl
@[simp] theorem offer_freeCount (n : Notice) (s : State) : (offer n s).freeCount = s.freeCount := rfl
@[simp] theorem offer_pending (n : Notice) (s : State) : (offer n s).pending = s.pending := rfl

@[simp] theorem reply_motion (r : Request) (st : Status) (d : ReplyData) (s : State) : (reply r st d s).motion = s.motion := rfl
@[simp] theorem reply_line (r : Request) (st : Status) (d : ReplyData) (s : State) : (reply r st d s).line = s.line := rfl
@[simp] theorem reply_belt (r : Request) (st : Status) (d : ReplyData) (s : State) : (reply r st d s).belt = s.belt := rfl
@[simp] theorem reply_scan (r : Request) (st : Status) (d : ReplyData) (s : State) : (reply r st d s).scan = s.scan := rfl
@[simp] theorem reply_profile (r : Request) (st : Status) (d : ReplyData) (s : State) : (reply r st d s).profile = s.profile := rfl
@[simp] theorem reply_planner (r : Request) (st : Status) (d : ReplyData) (s : State) : (reply r st d s).planner = s.planner := rfl
@[simp] theorem reply_saw (r : Request) (st : Status) (d : ReplyData) (s : State) : (reply r st d s).saw = s.saw := rfl
@[simp] theorem reply_grade (r : Request) (st : Status) (d : ReplyData) (s : State) : (reply r st d s).grade = s.grade := rfl
@[simp] theorem reply_referral (r : Request) (st : Status) (d : ReplyData) (s : State) : (reply r st d s).referral = s.referral := rfl
@[simp] theorem reply_cuttings (r : Request) (st : Status) (d : ReplyData) (s : State) : (reply r st d s).cuttings = s.cuttings := rfl
@[simp] theorem reply_chain (r : Request) (st : Status) (d : ReplyData) (s : State) : (reply r st d s).chain = s.chain := rfl
@[simp] theorem reply_bundles (r : Request) (st : Status) (d : ReplyData) (s : State) : (reply r st d s).bundles = s.bundles := rfl
@[simp] theorem reply_label (r : Request) (st : Status) (d : ReplyData) (s : State) : (reply r st d s).label = s.label := rfl
@[simp] theorem reply_recipe (r : Request) (st : Status) (d : ReplyData) (s : State) : (reply r st d s).recipe = s.recipe := rfl
@[simp] theorem reply_config (r : Request) (st : Status) (d : ReplyData) (s : State) : (reply r st d s).config = s.config := rfl
@[simp] theorem reply_inForce (r : Request) (st : Status) (d : ReplyData) (s : State) : (reply r st d s).inForce = s.inForce := rfl
@[simp] theorem reply_inReset (r : Request) (st : Status) (d : ReplyData) (s : State) : (reply r st d s).inReset = s.inReset := rfl
@[simp] theorem reply_freeCount (r : Request) (st : Status) (d : ReplyData) (s : State) : (reply r st d s).freeCount = s.freeCount := rfl
@[simp] theorem reply_pending (r : Request) (st : Status) (d : ReplyData) (s : State) : (reply r st d s).pending = s.pending := rfl

@[simp] theorem mapHolds_motion (f : HoldSet → HoldSet) (s : State) : (mapHolds f s).motion = s.motion := rfl
@[simp] theorem mapHolds_belt (f : HoldSet → HoldSet) (s : State) : (mapHolds f s).belt = s.belt := rfl
@[simp] theorem mapHolds_scan (f : HoldSet → HoldSet) (s : State) : (mapHolds f s).scan = s.scan := rfl
@[simp] theorem mapHolds_profile (f : HoldSet → HoldSet) (s : State) : (mapHolds f s).profile = s.profile := rfl
@[simp] theorem mapHolds_planner (f : HoldSet → HoldSet) (s : State) : (mapHolds f s).planner = s.planner := rfl
@[simp] theorem mapHolds_saw (f : HoldSet → HoldSet) (s : State) : (mapHolds f s).saw = s.saw := rfl
@[simp] theorem mapHolds_grade (f : HoldSet → HoldSet) (s : State) : (mapHolds f s).grade = s.grade := rfl
@[simp] theorem mapHolds_referral (f : HoldSet → HoldSet) (s : State) : (mapHolds f s).referral = s.referral := rfl
@[simp] theorem mapHolds_cuttings (f : HoldSet → HoldSet) (s : State) : (mapHolds f s).cuttings = s.cuttings := rfl
@[simp] theorem mapHolds_chain (f : HoldSet → HoldSet) (s : State) : (mapHolds f s).chain = s.chain := rfl
@[simp] theorem mapHolds_bundles (f : HoldSet → HoldSet) (s : State) : (mapHolds f s).bundles = s.bundles := rfl
@[simp] theorem mapHolds_label (f : HoldSet → HoldSet) (s : State) : (mapHolds f s).label = s.label := rfl
@[simp] theorem mapHolds_recipe (f : HoldSet → HoldSet) (s : State) : (mapHolds f s).recipe = s.recipe := rfl
@[simp] theorem mapHolds_config (f : HoldSet → HoldSet) (s : State) : (mapHolds f s).config = s.config := rfl
@[simp] theorem mapHolds_inForce (f : HoldSet → HoldSet) (s : State) : (mapHolds f s).inForce = s.inForce := rfl
@[simp] theorem mapHolds_link (f : HoldSet → HoldSet) (s : State) : (mapHolds f s).link = s.link := rfl
@[simp] theorem mapHolds_inReset (f : HoldSet → HoldSet) (s : State) : (mapHolds f s).inReset = s.inReset := rfl
@[simp] theorem mapHolds_freeCount (f : HoldSet → HoldSet) (s : State) : (mapHolds f s).freeCount = s.freeCount := rfl
@[simp] theorem mapHolds_pending (f : HoldSet → HoldSet) (s : State) : (mapHolds f s).pending = s.pending := rfl

@[simp] theorem enterLine_belt (l : LineState) (s : State) : (enterLine l s).belt = s.belt := rfl
@[simp] theorem enterLine_scan (l : LineState) (s : State) : (enterLine l s).scan = s.scan := rfl
@[simp] theorem enterLine_profile (l : LineState) (s : State) : (enterLine l s).profile = s.profile := rfl
@[simp] theorem enterLine_planner (l : LineState) (s : State) : (enterLine l s).planner = s.planner := rfl
@[simp] theorem enterLine_saw (l : LineState) (s : State) : (enterLine l s).saw = s.saw := rfl
@[simp] theorem enterLine_grade (l : LineState) (s : State) : (enterLine l s).grade = s.grade := rfl
@[simp] theorem enterLine_referral (l : LineState) (s : State) : (enterLine l s).referral = s.referral := rfl
@[simp] theorem enterLine_cuttings (l : LineState) (s : State) : (enterLine l s).cuttings = s.cuttings := rfl
@[simp] theorem enterLine_chain (l : LineState) (s : State) : (enterLine l s).chain = s.chain := rfl
@[simp] theorem enterLine_bundles (l : LineState) (s : State) : (enterLine l s).bundles = s.bundles := rfl
@[simp] theorem enterLine_label (l : LineState) (s : State) : (enterLine l s).label = s.label := rfl
@[simp] theorem enterLine_recipe (l : LineState) (s : State) : (enterLine l s).recipe = s.recipe := rfl
@[simp] theorem enterLine_config (l : LineState) (s : State) : (enterLine l s).config = s.config := rfl
@[simp] theorem enterLine_inForce (l : LineState) (s : State) : (enterLine l s).inForce = s.inForce := rfl
@[simp] theorem enterLine_link (l : LineState) (s : State) : (enterLine l s).link = s.link := rfl
@[simp] theorem enterLine_inReset (l : LineState) (s : State) : (enterLine l s).inReset = s.inReset := rfl
@[simp] theorem enterLine_freeCount (l : LineState) (s : State) : (enterLine l s).freeCount = s.freeCount := rfl
@[simp] theorem enterLine_pending (l : LineState) (s : State) : (enterLine l s).pending = s.pending := rfl

@[simp] theorem addEvent_line (p : Word) (k : EventKind) (s : State) : (addEvent p k s).line = s.line := rfl
@[simp] theorem addEvent_belt (p : Word) (k : EventKind) (s : State) : (addEvent p k s).belt = s.belt := rfl
@[simp] theorem addEvent_scan (p : Word) (k : EventKind) (s : State) : (addEvent p k s).scan = s.scan := rfl
@[simp] theorem addEvent_profile (p : Word) (k : EventKind) (s : State) : (addEvent p k s).profile = s.profile := rfl
@[simp] theorem addEvent_planner (p : Word) (k : EventKind) (s : State) : (addEvent p k s).planner = s.planner := rfl
@[simp] theorem addEvent_saw (p : Word) (k : EventKind) (s : State) : (addEvent p k s).saw = s.saw := rfl
@[simp] theorem addEvent_grade (p : Word) (k : EventKind) (s : State) : (addEvent p k s).grade = s.grade := rfl
@[simp] theorem addEvent_referral (p : Word) (k : EventKind) (s : State) : (addEvent p k s).referral = s.referral := rfl
@[simp] theorem addEvent_cuttings (p : Word) (k : EventKind) (s : State) : (addEvent p k s).cuttings = s.cuttings := rfl
@[simp] theorem addEvent_chain (p : Word) (k : EventKind) (s : State) : (addEvent p k s).chain = s.chain := rfl
@[simp] theorem addEvent_bundles (p : Word) (k : EventKind) (s : State) : (addEvent p k s).bundles = s.bundles := rfl
@[simp] theorem addEvent_label (p : Word) (k : EventKind) (s : State) : (addEvent p k s).label = s.label := rfl
@[simp] theorem addEvent_recipe (p : Word) (k : EventKind) (s : State) : (addEvent p k s).recipe = s.recipe := rfl
@[simp] theorem addEvent_config (p : Word) (k : EventKind) (s : State) : (addEvent p k s).config = s.config := rfl
@[simp] theorem addEvent_inForce (p : Word) (k : EventKind) (s : State) : (addEvent p k s).inForce = s.inForce := rfl
@[simp] theorem addEvent_link (p : Word) (k : EventKind) (s : State) : (addEvent p k s).link = s.link := rfl
@[simp] theorem addEvent_inReset (p : Word) (k : EventKind) (s : State) : (addEvent p k s).inReset = s.inReset := rfl
@[simp] theorem addEvent_freeCount (p : Word) (k : EventKind) (s : State) : (addEvent p k s).freeCount = s.freeCount := rfl
@[simp] theorem addEvent_pending (p : Word) (k : EventKind) (s : State) : (addEvent p k s).pending = s.pending := rfl

@[simp] theorem withdraw_line (p : EventKind → Bool) (s : State) : (withdraw p s).line = s.line := rfl
@[simp] theorem withdraw_belt (p : EventKind → Bool) (s : State) : (withdraw p s).belt = s.belt := rfl
@[simp] theorem withdraw_scan (p : EventKind → Bool) (s : State) : (withdraw p s).scan = s.scan := rfl
@[simp] theorem withdraw_profile (p : EventKind → Bool) (s : State) : (withdraw p s).profile = s.profile := rfl
@[simp] theorem withdraw_planner (p : EventKind → Bool) (s : State) : (withdraw p s).planner = s.planner := rfl
@[simp] theorem withdraw_saw (p : EventKind → Bool) (s : State) : (withdraw p s).saw = s.saw := rfl
@[simp] theorem withdraw_grade (p : EventKind → Bool) (s : State) : (withdraw p s).grade = s.grade := rfl
@[simp] theorem withdraw_referral (p : EventKind → Bool) (s : State) : (withdraw p s).referral = s.referral := rfl
@[simp] theorem withdraw_cuttings (p : EventKind → Bool) (s : State) : (withdraw p s).cuttings = s.cuttings := rfl
@[simp] theorem withdraw_chain (p : EventKind → Bool) (s : State) : (withdraw p s).chain = s.chain := rfl
@[simp] theorem withdraw_bundles (p : EventKind → Bool) (s : State) : (withdraw p s).bundles = s.bundles := rfl
@[simp] theorem withdraw_label (p : EventKind → Bool) (s : State) : (withdraw p s).label = s.label := rfl
@[simp] theorem withdraw_recipe (p : EventKind → Bool) (s : State) : (withdraw p s).recipe = s.recipe := rfl
@[simp] theorem withdraw_config (p : EventKind → Bool) (s : State) : (withdraw p s).config = s.config := rfl
@[simp] theorem withdraw_inForce (p : EventKind → Bool) (s : State) : (withdraw p s).inForce = s.inForce := rfl
@[simp] theorem withdraw_link (p : EventKind → Bool) (s : State) : (withdraw p s).link = s.link := rfl
@[simp] theorem withdraw_inReset (p : EventKind → Bool) (s : State) : (withdraw p s).inReset = s.inReset := rfl
@[simp] theorem withdraw_freeCount (p : EventKind → Bool) (s : State) : (withdraw p s).freeCount = s.freeCount := rfl
@[simp] theorem withdraw_pending (p : EventKind → Bool) (s : State) : (withdraw p s).pending = s.pending := rfl

@[simp] theorem dropEvent_line (e : PosEvent) (s : State) : (dropEvent e s).line = s.line := rfl
@[simp] theorem dropEvent_belt (e : PosEvent) (s : State) : (dropEvent e s).belt = s.belt := rfl
@[simp] theorem dropEvent_scan (e : PosEvent) (s : State) : (dropEvent e s).scan = s.scan := rfl
@[simp] theorem dropEvent_profile (e : PosEvent) (s : State) : (dropEvent e s).profile = s.profile := rfl
@[simp] theorem dropEvent_planner (e : PosEvent) (s : State) : (dropEvent e s).planner = s.planner := rfl
@[simp] theorem dropEvent_saw (e : PosEvent) (s : State) : (dropEvent e s).saw = s.saw := rfl
@[simp] theorem dropEvent_grade (e : PosEvent) (s : State) : (dropEvent e s).grade = s.grade := rfl
@[simp] theorem dropEvent_referral (e : PosEvent) (s : State) : (dropEvent e s).referral = s.referral := rfl
@[simp] theorem dropEvent_cuttings (e : PosEvent) (s : State) : (dropEvent e s).cuttings = s.cuttings := rfl
@[simp] theorem dropEvent_chain (e : PosEvent) (s : State) : (dropEvent e s).chain = s.chain := rfl
@[simp] theorem dropEvent_bundles (e : PosEvent) (s : State) : (dropEvent e s).bundles = s.bundles := rfl
@[simp] theorem dropEvent_label (e : PosEvent) (s : State) : (dropEvent e s).label = s.label := rfl
@[simp] theorem dropEvent_recipe (e : PosEvent) (s : State) : (dropEvent e s).recipe = s.recipe := rfl
@[simp] theorem dropEvent_config (e : PosEvent) (s : State) : (dropEvent e s).config = s.config := rfl
@[simp] theorem dropEvent_inForce (e : PosEvent) (s : State) : (dropEvent e s).inForce = s.inForce := rfl
@[simp] theorem dropEvent_link (e : PosEvent) (s : State) : (dropEvent e s).link = s.link := rfl
@[simp] theorem dropEvent_inReset (e : PosEvent) (s : State) : (dropEvent e s).inReset = s.inReset := rfl
@[simp] theorem dropEvent_freeCount (e : PosEvent) (s : State) : (dropEvent e s).freeCount = s.freeCount := rfl
@[simp] theorem dropEvent_pending (e : PosEvent) (s : State) : (dropEvent e s).pending = s.pending := rfl

@[simp] theorem mapStrip_motion (n : Nat) (f : Strip → Strip) (s : State) : (mapStrip n f s).motion = s.motion := rfl
@[simp] theorem mapStrip_line (n : Nat) (f : Strip → Strip) (s : State) : (mapStrip n f s).line = s.line := rfl
@[simp] theorem mapStrip_scan (n : Nat) (f : Strip → Strip) (s : State) : (mapStrip n f s).scan = s.scan := rfl
@[simp] theorem mapStrip_profile (n : Nat) (f : Strip → Strip) (s : State) : (mapStrip n f s).profile = s.profile := rfl
@[simp] theorem mapStrip_planner (n : Nat) (f : Strip → Strip) (s : State) : (mapStrip n f s).planner = s.planner := rfl
@[simp] theorem mapStrip_saw (n : Nat) (f : Strip → Strip) (s : State) : (mapStrip n f s).saw = s.saw := rfl
@[simp] theorem mapStrip_grade (n : Nat) (f : Strip → Strip) (s : State) : (mapStrip n f s).grade = s.grade := rfl
@[simp] theorem mapStrip_referral (n : Nat) (f : Strip → Strip) (s : State) : (mapStrip n f s).referral = s.referral := rfl
@[simp] theorem mapStrip_cuttings (n : Nat) (f : Strip → Strip) (s : State) : (mapStrip n f s).cuttings = s.cuttings := rfl
@[simp] theorem mapStrip_chain (n : Nat) (f : Strip → Strip) (s : State) : (mapStrip n f s).chain = s.chain := rfl
@[simp] theorem mapStrip_bundles (n : Nat) (f : Strip → Strip) (s : State) : (mapStrip n f s).bundles = s.bundles := rfl
@[simp] theorem mapStrip_label (n : Nat) (f : Strip → Strip) (s : State) : (mapStrip n f s).label = s.label := rfl
@[simp] theorem mapStrip_recipe (n : Nat) (f : Strip → Strip) (s : State) : (mapStrip n f s).recipe = s.recipe := rfl
@[simp] theorem mapStrip_config (n : Nat) (f : Strip → Strip) (s : State) : (mapStrip n f s).config = s.config := rfl
@[simp] theorem mapStrip_inForce (n : Nat) (f : Strip → Strip) (s : State) : (mapStrip n f s).inForce = s.inForce := rfl
@[simp] theorem mapStrip_link (n : Nat) (f : Strip → Strip) (s : State) : (mapStrip n f s).link = s.link := rfl
@[simp] theorem mapStrip_inReset (n : Nat) (f : Strip → Strip) (s : State) : (mapStrip n f s).inReset = s.inReset := rfl
@[simp] theorem mapStrip_freeCount (n : Nat) (f : Strip → Strip) (s : State) : (mapStrip n f s).freeCount = s.freeCount := rfl
@[simp] theorem mapStrip_pending (n : Nat) (f : Strip → Strip) (s : State) : (mapStrip n f s).pending = s.pending := rfl

@[simp] theorem mapCutting_motion (id : CuttingId) (f : Cutting → Cutting) (s : State) : (mapCutting id f s).motion = s.motion := rfl
@[simp] theorem mapCutting_line (id : CuttingId) (f : Cutting → Cutting) (s : State) : (mapCutting id f s).line = s.line := rfl
@[simp] theorem mapCutting_belt (id : CuttingId) (f : Cutting → Cutting) (s : State) : (mapCutting id f s).belt = s.belt := rfl
@[simp] theorem mapCutting_scan (id : CuttingId) (f : Cutting → Cutting) (s : State) : (mapCutting id f s).scan = s.scan := rfl
@[simp] theorem mapCutting_profile (id : CuttingId) (f : Cutting → Cutting) (s : State) : (mapCutting id f s).profile = s.profile := rfl
@[simp] theorem mapCutting_planner (id : CuttingId) (f : Cutting → Cutting) (s : State) : (mapCutting id f s).planner = s.planner := rfl
@[simp] theorem mapCutting_saw (id : CuttingId) (f : Cutting → Cutting) (s : State) : (mapCutting id f s).saw = s.saw := rfl
@[simp] theorem mapCutting_grade (id : CuttingId) (f : Cutting → Cutting) (s : State) : (mapCutting id f s).grade = s.grade := rfl
@[simp] theorem mapCutting_referral (id : CuttingId) (f : Cutting → Cutting) (s : State) : (mapCutting id f s).referral = s.referral := rfl
@[simp] theorem mapCutting_chain (id : CuttingId) (f : Cutting → Cutting) (s : State) : (mapCutting id f s).chain = s.chain := rfl
@[simp] theorem mapCutting_bundles (id : CuttingId) (f : Cutting → Cutting) (s : State) : (mapCutting id f s).bundles = s.bundles := rfl
@[simp] theorem mapCutting_label (id : CuttingId) (f : Cutting → Cutting) (s : State) : (mapCutting id f s).label = s.label := rfl
@[simp] theorem mapCutting_recipe (id : CuttingId) (f : Cutting → Cutting) (s : State) : (mapCutting id f s).recipe = s.recipe := rfl
@[simp] theorem mapCutting_config (id : CuttingId) (f : Cutting → Cutting) (s : State) : (mapCutting id f s).config = s.config := rfl
@[simp] theorem mapCutting_inForce (id : CuttingId) (f : Cutting → Cutting) (s : State) : (mapCutting id f s).inForce = s.inForce := rfl
@[simp] theorem mapCutting_link (id : CuttingId) (f : Cutting → Cutting) (s : State) : (mapCutting id f s).link = s.link := rfl
@[simp] theorem mapCutting_inReset (id : CuttingId) (f : Cutting → Cutting) (s : State) : (mapCutting id f s).inReset = s.inReset := rfl
@[simp] theorem mapCutting_freeCount (id : CuttingId) (f : Cutting → Cutting) (s : State) : (mapCutting id f s).freeCount = s.freeCount := rfl
@[simp] theorem mapCutting_pending (id : CuttingId) (f : Cutting → Cutting) (s : State) : (mapCutting id f s).pending = s.pending := rfl

@[simp] theorem mapBin_motion (b : Bin) (f : BinRecord → BinRecord) (s : State) : (mapBin b f s).motion = s.motion := rfl
@[simp] theorem mapBin_line (b : Bin) (f : BinRecord → BinRecord) (s : State) : (mapBin b f s).line = s.line := rfl
@[simp] theorem mapBin_belt (b : Bin) (f : BinRecord → BinRecord) (s : State) : (mapBin b f s).belt = s.belt := rfl
@[simp] theorem mapBin_scan (b : Bin) (f : BinRecord → BinRecord) (s : State) : (mapBin b f s).scan = s.scan := rfl
@[simp] theorem mapBin_profile (b : Bin) (f : BinRecord → BinRecord) (s : State) : (mapBin b f s).profile = s.profile := rfl
@[simp] theorem mapBin_planner (b : Bin) (f : BinRecord → BinRecord) (s : State) : (mapBin b f s).planner = s.planner := rfl
@[simp] theorem mapBin_saw (b : Bin) (f : BinRecord → BinRecord) (s : State) : (mapBin b f s).saw = s.saw := rfl
@[simp] theorem mapBin_grade (b : Bin) (f : BinRecord → BinRecord) (s : State) : (mapBin b f s).grade = s.grade := rfl
@[simp] theorem mapBin_referral (b : Bin) (f : BinRecord → BinRecord) (s : State) : (mapBin b f s).referral = s.referral := rfl
@[simp] theorem mapBin_cuttings (b : Bin) (f : BinRecord → BinRecord) (s : State) : (mapBin b f s).cuttings = s.cuttings := rfl
@[simp] theorem mapBin_chain (b : Bin) (f : BinRecord → BinRecord) (s : State) : (mapBin b f s).chain = s.chain := rfl
@[simp] theorem mapBin_label (b : Bin) (f : BinRecord → BinRecord) (s : State) : (mapBin b f s).label = s.label := rfl
@[simp] theorem mapBin_recipe (b : Bin) (f : BinRecord → BinRecord) (s : State) : (mapBin b f s).recipe = s.recipe := rfl
@[simp] theorem mapBin_config (b : Bin) (f : BinRecord → BinRecord) (s : State) : (mapBin b f s).config = s.config := rfl
@[simp] theorem mapBin_inForce (b : Bin) (f : BinRecord → BinRecord) (s : State) : (mapBin b f s).inForce = s.inForce := rfl
@[simp] theorem mapBin_link (b : Bin) (f : BinRecord → BinRecord) (s : State) : (mapBin b f s).link = s.link := rfl
@[simp] theorem mapBin_inReset (b : Bin) (f : BinRecord → BinRecord) (s : State) : (mapBin b f s).inReset = s.inReset := rfl
@[simp] theorem mapBin_freeCount (b : Bin) (f : BinRecord → BinRecord) (s : State) : (mapBin b f s).freeCount = s.freeCount := rfl
@[simp] theorem mapBin_pending (b : Bin) (f : BinRecord → BinRecord) (s : State) : (mapBin b f s).pending = s.pending := rfl

@[simp] theorem mapBundle_motion (b : Bin) (f : Bundle → Bundle) (s : State) : (mapBundle b f s).motion = s.motion := rfl
@[simp] theorem mapBundle_line (b : Bin) (f : Bundle → Bundle) (s : State) : (mapBundle b f s).line = s.line := rfl
@[simp] theorem mapBundle_belt (b : Bin) (f : Bundle → Bundle) (s : State) : (mapBundle b f s).belt = s.belt := rfl
@[simp] theorem mapBundle_scan (b : Bin) (f : Bundle → Bundle) (s : State) : (mapBundle b f s).scan = s.scan := rfl
@[simp] theorem mapBundle_profile (b : Bin) (f : Bundle → Bundle) (s : State) : (mapBundle b f s).profile = s.profile := rfl
@[simp] theorem mapBundle_planner (b : Bin) (f : Bundle → Bundle) (s : State) : (mapBundle b f s).planner = s.planner := rfl
@[simp] theorem mapBundle_saw (b : Bin) (f : Bundle → Bundle) (s : State) : (mapBundle b f s).saw = s.saw := rfl
@[simp] theorem mapBundle_grade (b : Bin) (f : Bundle → Bundle) (s : State) : (mapBundle b f s).grade = s.grade := rfl
@[simp] theorem mapBundle_referral (b : Bin) (f : Bundle → Bundle) (s : State) : (mapBundle b f s).referral = s.referral := rfl
@[simp] theorem mapBundle_cuttings (b : Bin) (f : Bundle → Bundle) (s : State) : (mapBundle b f s).cuttings = s.cuttings := rfl
@[simp] theorem mapBundle_chain (b : Bin) (f : Bundle → Bundle) (s : State) : (mapBundle b f s).chain = s.chain := rfl
@[simp] theorem mapBundle_label (b : Bin) (f : Bundle → Bundle) (s : State) : (mapBundle b f s).label = s.label := rfl
@[simp] theorem mapBundle_recipe (b : Bin) (f : Bundle → Bundle) (s : State) : (mapBundle b f s).recipe = s.recipe := rfl
@[simp] theorem mapBundle_config (b : Bin) (f : Bundle → Bundle) (s : State) : (mapBundle b f s).config = s.config := rfl
@[simp] theorem mapBundle_inForce (b : Bin) (f : Bundle → Bundle) (s : State) : (mapBundle b f s).inForce = s.inForce := rfl
@[simp] theorem mapBundle_link (b : Bin) (f : Bundle → Bundle) (s : State) : (mapBundle b f s).link = s.link := rfl
@[simp] theorem mapBundle_inReset (b : Bin) (f : Bundle → Bundle) (s : State) : (mapBundle b f s).inReset = s.inReset := rfl
@[simp] theorem mapBundle_freeCount (b : Bin) (f : Bundle → Bundle) (s : State) : (mapBundle b f s).freeCount = s.freeCount := rfl
@[simp] theorem mapBundle_pending (b : Bin) (f : Bundle → Bundle) (s : State) : (mapBundle b f s).pending = s.pending := rfl

@[simp] theorem mapBank_motion (b : BankId) (f : Bank → Bank) (s : State) : (mapBank b f s).motion = s.motion := rfl
@[simp] theorem mapBank_line (b : BankId) (f : Bank → Bank) (s : State) : (mapBank b f s).line = s.line := rfl
@[simp] theorem mapBank_belt (b : BankId) (f : Bank → Bank) (s : State) : (mapBank b f s).belt = s.belt := rfl
@[simp] theorem mapBank_scan (b : BankId) (f : Bank → Bank) (s : State) : (mapBank b f s).scan = s.scan := rfl
@[simp] theorem mapBank_profile (b : BankId) (f : Bank → Bank) (s : State) : (mapBank b f s).profile = s.profile := rfl
@[simp] theorem mapBank_planner (b : BankId) (f : Bank → Bank) (s : State) : (mapBank b f s).planner = s.planner := rfl
@[simp] theorem mapBank_saw (b : BankId) (f : Bank → Bank) (s : State) : (mapBank b f s).saw = s.saw := rfl
@[simp] theorem mapBank_grade (b : BankId) (f : Bank → Bank) (s : State) : (mapBank b f s).grade = s.grade := rfl
@[simp] theorem mapBank_referral (b : BankId) (f : Bank → Bank) (s : State) : (mapBank b f s).referral = s.referral := rfl
@[simp] theorem mapBank_cuttings (b : BankId) (f : Bank → Bank) (s : State) : (mapBank b f s).cuttings = s.cuttings := rfl
@[simp] theorem mapBank_chain (b : BankId) (f : Bank → Bank) (s : State) : (mapBank b f s).chain = s.chain := rfl
@[simp] theorem mapBank_bundles (b : BankId) (f : Bank → Bank) (s : State) : (mapBank b f s).bundles = s.bundles := rfl
@[simp] theorem mapBank_label (b : BankId) (f : Bank → Bank) (s : State) : (mapBank b f s).label = s.label := rfl
@[simp] theorem mapBank_config (b : BankId) (f : Bank → Bank) (s : State) : (mapBank b f s).config = s.config := rfl
@[simp] theorem mapBank_inForce (b : BankId) (f : Bank → Bank) (s : State) : (mapBank b f s).inForce = s.inForce := rfl
@[simp] theorem mapBank_link (b : BankId) (f : Bank → Bank) (s : State) : (mapBank b f s).link = s.link := rfl
@[simp] theorem mapBank_inReset (b : BankId) (f : Bank → Bank) (s : State) : (mapBank b f s).inReset = s.inReset := rfl
@[simp] theorem mapBank_freeCount (b : BankId) (f : Bank → Bank) (s : State) : (mapBank b f s).freeCount = s.freeCount := rfl
@[simp] theorem mapBank_pending (b : BankId) (f : Bank → Bank) (s : State) : (mapBank b f s).pending = s.pending := rfl

@[simp] theorem setEntries_motion (l : List FireEntry) (s : State) : (setEntries l s).motion = s.motion := rfl
@[simp] theorem setEntries_line (l : List FireEntry) (s : State) : (setEntries l s).line = s.line := rfl
@[simp] theorem setEntries_belt (l : List FireEntry) (s : State) : (setEntries l s).belt = s.belt := rfl
@[simp] theorem setEntries_scan (l : List FireEntry) (s : State) : (setEntries l s).scan = s.scan := rfl
@[simp] theorem setEntries_profile (l : List FireEntry) (s : State) : (setEntries l s).profile = s.profile := rfl
@[simp] theorem setEntries_planner (l : List FireEntry) (s : State) : (setEntries l s).planner = s.planner := rfl
@[simp] theorem setEntries_grade (l : List FireEntry) (s : State) : (setEntries l s).grade = s.grade := rfl
@[simp] theorem setEntries_referral (l : List FireEntry) (s : State) : (setEntries l s).referral = s.referral := rfl
@[simp] theorem setEntries_cuttings (l : List FireEntry) (s : State) : (setEntries l s).cuttings = s.cuttings := rfl
@[simp] theorem setEntries_chain (l : List FireEntry) (s : State) : (setEntries l s).chain = s.chain := rfl
@[simp] theorem setEntries_bundles (l : List FireEntry) (s : State) : (setEntries l s).bundles = s.bundles := rfl
@[simp] theorem setEntries_label (l : List FireEntry) (s : State) : (setEntries l s).label = s.label := rfl
@[simp] theorem setEntries_recipe (l : List FireEntry) (s : State) : (setEntries l s).recipe = s.recipe := rfl
@[simp] theorem setEntries_config (l : List FireEntry) (s : State) : (setEntries l s).config = s.config := rfl
@[simp] theorem setEntries_inForce (l : List FireEntry) (s : State) : (setEntries l s).inForce = s.inForce := rfl
@[simp] theorem setEntries_link (l : List FireEntry) (s : State) : (setEntries l s).link = s.link := rfl
@[simp] theorem setEntries_inReset (l : List FireEntry) (s : State) : (setEntries l s).inReset = s.inReset := rfl
@[simp] theorem setEntries_freeCount (l : List FireEntry) (s : State) : (setEntries l s).freeCount = s.freeCount := rfl
@[simp] theorem setEntries_pending (l : List FireEntry) (s : State) : (setEntries l s).pending = s.pending := rfl

@[simp] theorem setConverter_motion (c : Option Conversion) (s : State) : (setConverter c s).motion = s.motion := rfl
@[simp] theorem setConverter_line (c : Option Conversion) (s : State) : (setConverter c s).line = s.line := rfl
@[simp] theorem setConverter_belt (c : Option Conversion) (s : State) : (setConverter c s).belt = s.belt := rfl
@[simp] theorem setConverter_profile (c : Option Conversion) (s : State) : (setConverter c s).profile = s.profile := rfl
@[simp] theorem setConverter_planner (c : Option Conversion) (s : State) : (setConverter c s).planner = s.planner := rfl
@[simp] theorem setConverter_saw (c : Option Conversion) (s : State) : (setConverter c s).saw = s.saw := rfl
@[simp] theorem setConverter_grade (c : Option Conversion) (s : State) : (setConverter c s).grade = s.grade := rfl
@[simp] theorem setConverter_referral (c : Option Conversion) (s : State) : (setConverter c s).referral = s.referral := rfl
@[simp] theorem setConverter_cuttings (c : Option Conversion) (s : State) : (setConverter c s).cuttings = s.cuttings := rfl
@[simp] theorem setConverter_chain (c : Option Conversion) (s : State) : (setConverter c s).chain = s.chain := rfl
@[simp] theorem setConverter_bundles (c : Option Conversion) (s : State) : (setConverter c s).bundles = s.bundles := rfl
@[simp] theorem setConverter_label (c : Option Conversion) (s : State) : (setConverter c s).label = s.label := rfl
@[simp] theorem setConverter_recipe (c : Option Conversion) (s : State) : (setConverter c s).recipe = s.recipe := rfl
@[simp] theorem setConverter_config (c : Option Conversion) (s : State) : (setConverter c s).config = s.config := rfl
@[simp] theorem setConverter_inForce (c : Option Conversion) (s : State) : (setConverter c s).inForce = s.inForce := rfl
@[simp] theorem setConverter_link (c : Option Conversion) (s : State) : (setConverter c s).link = s.link := rfl
@[simp] theorem setConverter_inReset (c : Option Conversion) (s : State) : (setConverter c s).inReset = s.inReset := rfl
@[simp] theorem setConverter_freeCount (c : Option Conversion) (s : State) : (setConverter c s).freeCount = s.freeCount := rfl
@[simp] theorem setConverter_pending (c : Option Conversion) (s : State) : (setConverter c s).pending = s.pending := rfl

@[simp] theorem mapProfile_motion (f : ProfileWatch → ProfileWatch) (s : State) : (mapProfile f s).motion = s.motion := rfl
@[simp] theorem mapProfile_line (f : ProfileWatch → ProfileWatch) (s : State) : (mapProfile f s).line = s.line := rfl
@[simp] theorem mapProfile_belt (f : ProfileWatch → ProfileWatch) (s : State) : (mapProfile f s).belt = s.belt := rfl
@[simp] theorem mapProfile_scan (f : ProfileWatch → ProfileWatch) (s : State) : (mapProfile f s).scan = s.scan := rfl
@[simp] theorem mapProfile_planner (f : ProfileWatch → ProfileWatch) (s : State) : (mapProfile f s).planner = s.planner := rfl
@[simp] theorem mapProfile_saw (f : ProfileWatch → ProfileWatch) (s : State) : (mapProfile f s).saw = s.saw := rfl
@[simp] theorem mapProfile_grade (f : ProfileWatch → ProfileWatch) (s : State) : (mapProfile f s).grade = s.grade := rfl
@[simp] theorem mapProfile_referral (f : ProfileWatch → ProfileWatch) (s : State) : (mapProfile f s).referral = s.referral := rfl
@[simp] theorem mapProfile_cuttings (f : ProfileWatch → ProfileWatch) (s : State) : (mapProfile f s).cuttings = s.cuttings := rfl
@[simp] theorem mapProfile_chain (f : ProfileWatch → ProfileWatch) (s : State) : (mapProfile f s).chain = s.chain := rfl
@[simp] theorem mapProfile_bundles (f : ProfileWatch → ProfileWatch) (s : State) : (mapProfile f s).bundles = s.bundles := rfl
@[simp] theorem mapProfile_label (f : ProfileWatch → ProfileWatch) (s : State) : (mapProfile f s).label = s.label := rfl
@[simp] theorem mapProfile_recipe (f : ProfileWatch → ProfileWatch) (s : State) : (mapProfile f s).recipe = s.recipe := rfl
@[simp] theorem mapProfile_config (f : ProfileWatch → ProfileWatch) (s : State) : (mapProfile f s).config = s.config := rfl
@[simp] theorem mapProfile_inForce (f : ProfileWatch → ProfileWatch) (s : State) : (mapProfile f s).inForce = s.inForce := rfl
@[simp] theorem mapProfile_link (f : ProfileWatch → ProfileWatch) (s : State) : (mapProfile f s).link = s.link := rfl
@[simp] theorem mapProfile_inReset (f : ProfileWatch → ProfileWatch) (s : State) : (mapProfile f s).inReset = s.inReset := rfl
@[simp] theorem mapProfile_freeCount (f : ProfileWatch → ProfileWatch) (s : State) : (mapProfile f s).freeCount = s.freeCount := rfl
@[simp] theorem mapProfile_pending (f : ProfileWatch → ProfileWatch) (s : State) : (mapProfile f s).pending = s.pending := rfl

@[simp] theorem setWindow_motion (b : Bin) (w : Option CuttingId) (s : State) : (setWindow b w s).motion = s.motion := rfl
@[simp] theorem setWindow_line (b : Bin) (w : Option CuttingId) (s : State) : (setWindow b w s).line = s.line := rfl
@[simp] theorem setWindow_belt (b : Bin) (w : Option CuttingId) (s : State) : (setWindow b w s).belt = s.belt := rfl
@[simp] theorem setWindow_scan (b : Bin) (w : Option CuttingId) (s : State) : (setWindow b w s).scan = s.scan := rfl
@[simp] theorem setWindow_profile (b : Bin) (w : Option CuttingId) (s : State) : (setWindow b w s).profile = s.profile := rfl
@[simp] theorem setWindow_planner (b : Bin) (w : Option CuttingId) (s : State) : (setWindow b w s).planner = s.planner := rfl
@[simp] theorem setWindow_saw (b : Bin) (w : Option CuttingId) (s : State) : (setWindow b w s).saw = s.saw := rfl
@[simp] theorem setWindow_grade (b : Bin) (w : Option CuttingId) (s : State) : (setWindow b w s).grade = s.grade := rfl
@[simp] theorem setWindow_referral (b : Bin) (w : Option CuttingId) (s : State) : (setWindow b w s).referral = s.referral := rfl
@[simp] theorem setWindow_cuttings (b : Bin) (w : Option CuttingId) (s : State) : (setWindow b w s).cuttings = s.cuttings := rfl
@[simp] theorem setWindow_bundles (b : Bin) (w : Option CuttingId) (s : State) : (setWindow b w s).bundles = s.bundles := rfl
@[simp] theorem setWindow_label (b : Bin) (w : Option CuttingId) (s : State) : (setWindow b w s).label = s.label := rfl
@[simp] theorem setWindow_recipe (b : Bin) (w : Option CuttingId) (s : State) : (setWindow b w s).recipe = s.recipe := rfl
@[simp] theorem setWindow_config (b : Bin) (w : Option CuttingId) (s : State) : (setWindow b w s).config = s.config := rfl
@[simp] theorem setWindow_inForce (b : Bin) (w : Option CuttingId) (s : State) : (setWindow b w s).inForce = s.inForce := rfl
@[simp] theorem setWindow_link (b : Bin) (w : Option CuttingId) (s : State) : (setWindow b w s).link = s.link := rfl
@[simp] theorem setWindow_inReset (b : Bin) (w : Option CuttingId) (s : State) : (setWindow b w s).inReset = s.inReset := rfl
@[simp] theorem setWindow_freeCount (b : Bin) (w : Option CuttingId) (s : State) : (setWindow b w s).freeCount = s.freeCount := rfl
@[simp] theorem setWindow_pending (b : Bin) (w : Option CuttingId) (s : State) : (setWindow b w s).pending = s.pending := rfl

/-! ### The fields an update writes -/

@[simp] theorem offer_link (n : Notice) (s : State) : (offer n s).link = s.link.offer n := rfl
@[simp] theorem reply_requests (r : Request) (st : Status) (d : ReplyData) (s : State) :
    (reply r st d s).link.requests = s.link.requests.drop 1 := rfl
@[simp] theorem reply_tx (r : Request) (st : Status) (d : ReplyData) (s : State) :
    (reply r st d s).link.tx = s.link.tx ++ [.reply { kind := replyKind r.kind, tag := r.tag, status := st, data := d }] := rfl
@[simp] theorem mapHolds_state (f : HoldSet → HoldSet) (s : State) : (mapHolds f s).line.state = s.line.state := rfl
@[simp] theorem mapHolds_holds (f : HoldSet → HoldSet) (s : State) : (mapHolds f s).line.holds = f s.line.holds := rfl
@[simp] theorem mapHolds_estopLevel (f : HoldSet → HoldSet) (s : State) :
    (mapHolds f s).line.estopLevel = s.line.estopLevel := rfl
@[simp] theorem enterLine_state (l : LineState) (s : State) : (enterLine l s).line.state = l := rfl
@[simp] theorem enterLine_travel (l : LineState) (s : State) : (enterLine l s).motion.travel = s.motion.travel := rfl
@[simp] theorem enterLine_lug (l : LineState) (s : State) : (enterLine l s).motion.lug = s.motion.lug := rfl
@[simp] theorem enterLine_events (l : LineState) (s : State) : (enterLine l s).motion.events = s.motion.events := rfl
@[simp] theorem addEvent_events (p : Word) (k : EventKind) (s : State) :
    (addEvent p k s).motion.events = s.motion.events ++ [⟨p, k⟩] := rfl
@[simp] theorem addEvent_travel (p : Word) (k : EventKind) (s : State) :
    (addEvent p k s).motion.travel = s.motion.travel := rfl
@[simp] theorem addEvent_mark (p : Word) (k : EventKind) (s : State) : (addEvent p k s).motion.mark = s.motion.mark := rfl
@[simp] theorem addEvent_lug (p : Word) (k : EventKind) (s : State) : (addEvent p k s).motion.lug = s.motion.lug := rfl
@[simp] theorem withdraw_travel (p : EventKind → Bool) (s : State) : (withdraw p s).motion.travel = s.motion.travel := rfl
@[simp] theorem withdraw_mark (p : EventKind → Bool) (s : State) : (withdraw p s).motion.mark = s.motion.mark := rfl
@[simp] theorem withdraw_lug (p : EventKind → Bool) (s : State) : (withdraw p s).motion.lug = s.motion.lug := rfl
@[simp] theorem dropEvent_travel (e : PosEvent) (s : State) : (dropEvent e s).motion.travel = s.motion.travel := rfl
@[simp] theorem dropEvent_mark (e : PosEvent) (s : State) : (dropEvent e s).motion.mark = s.motion.mark := rfl
@[simp] theorem dropEvent_lug (e : PosEvent) (s : State) : (dropEvent e s).motion.lug = s.motion.lug := rfl
@[simp] theorem mapStrip_nextNumber (n : Nat) (f : Strip → Strip) (s : State) :
    (mapStrip n f s).belt.nextNumber = s.belt.nextNumber := rfl
@[simp] theorem mapStrip_length (n : Nat) (f : Strip → Strip) (s : State) :
    (mapStrip n f s).belt.strips.length = s.belt.strips.length := by simp [mapStrip]
@[simp] theorem mapCutting_length (id : CuttingId) (f : Cutting → Cutting) (s : State) :
    (mapCutting id f s).cuttings.length = s.cuttings.length := by simp [mapCutting]
@[simp] theorem mapBin_nextClose (b : Bin) (f : BinRecord → BinRecord) (s : State) :
    (mapBin b f s).bundles.nextClose = s.bundles.nextClose := rfl
@[simp] theorem mapBank_counter (b : BankId) (f : Bank → Bank) (s : State) :
    (mapBank b f s).recipe.counter = s.recipe.counter := rfl
@[simp] theorem setEntries_entries (l : List FireEntry) (s : State) : (setEntries l s).saw.entries = l := rfl
@[simp] theorem setEntries_lastFire (l : List FireEntry) (s : State) : (setEntries l s).saw.lastFire = s.saw.lastFire := rfl
@[simp] theorem setEntries_high (l : List FireEntry) (s : State) : (setEntries l s).saw.high = s.saw.high := rfl
@[simp] theorem setConverter_converter (c : Option Conversion) (s : State) : (setConverter c s).scan.converter = c := rfl

end Sys2Proof.Machine
end

