-- ==== Sys2Proof/Laws/Exec.lean ====
section
/-! SUPPORT. What each command comes to while the part is not in RESET, how a request at the head of the queue is taken, and the one position
event that falls due at a step. -/

set_option Elab.async false

namespace Sys2Proof.Machine

/-! ### Taking inputs and requests -/

/-- Outside RESET a command is taken (R214). -/
theorem whenRunning_next (f : State → State) {s : State} (h : s.inReset = false) : whenRunning f s = .next (f s) := by
  simp [whenRunning, h]

/-- In RESET a command leaves the state as it is (R214). -/
theorem whenRunning_inReset (f : State → State) {s : State} (h : s.inReset = true) : whenRunning f s = .next s := by
  simp [whenRunning, h]

/-- A command that answers through whenRunning answers a next state in either case. -/
theorem whenRunning_eq (f : State → State) (s : State) : whenRunning f s = .next (if s.inReset then s else f s) := rfl

/-- The request at the head of the queue, of the command's own kind, is taken (R205, R206). -/
theorem takeRequest_head {kind : Byte} (f : Request → State → Answer) {s : State} {r : Request}
    (hr : s.link.requests.head? = some r) (hk : r.kind = kind) :
    takeRequest kind f s = reply r (f r s).status (f r s).data (f r s).state := by
  unfold takeRequest
  split
  · simp_all
  · simp_all

/-- A request of another kind at the head is not taken. -/
theorem takeRequest_other {kind : Byte} (f : Request → State → Answer) {s : State} {r : Request}
    (hr : s.link.requests.head? = some r) (hk : r.kind ≠ kind) : takeRequest kind f s = s := by
  unfold takeRequest
  split
  · rfl
  · simp_all

/-- With no request waiting nothing is taken; and the one position event that
falls due at a step. -/
theorem takeRequest_none {kind : Byte} (f : Request → State → Answer) {s : State} (hr : s.link.requests = []) :
    takeRequest kind f s = s := by
  simp [takeRequest, hr]

/-- Whatever takeRequest does is its reply to the head request, or nothing. -/
theorem takeRequest_cases (kind : Byte) (f : Request → State → Answer) (s : State) :
    takeRequest kind f s = s ∨ ∃ r rest, s.link.requests = r :: rest ∧ r.kind = kind ∧
      takeRequest kind f s = reply r (f r s).status (f r s).data (f r s).state := by
  unfold takeRequest
  split
  · exact .inl rfl
  · rename_i r rest h
    split
    · exact .inr ⟨r, rest, h, ‹_›, rfl⟩
    · exact .inl rfl

/-- A body of the layout is handed to the request's own rule (R206, step 3). -/
theorem withFields_some {layout : List FieldSize} (f : List Int → State → Answer) {r : Request} {s : State} {fs : List Int}
    (h : parseFields layout r.body = some fs) : withFields layout f r s = f fs s := by
  simp [withFields, h]

/-- A body of another size is answered FRAME (R206, step 2). -/
theorem withFields_none {layout : List FieldSize} (f : List Int → State → Answer) {r : Request} {s : State}
    (h : parseFields layout r.body = none) : withFields layout f r s = refuse .frame s := by
  simp [withFields, h]

/-- A request of the command's kind at the head of the queue is answered as its rule answers it (R205). -/
theorem exec_answered {c : Instr} {kind : Byte} {f : Request → State → Answer} {s t : State} {r : Request} {st : Status} {d : ReplyData}
    (ha : Asked s r) (he : s.inReset = false → exec c s = .next (takeRequest kind f s)) (hk : r.kind = kind)
    (hf : f r s = ⟨t, st, d⟩) : exec c s = .next (reply r st d t) := by
  rw [he ha.1, takeRequest_head f ha.2 hk, hf]

/-- The same for a request whose body has a fixed layout (R206). -/
theorem exec_answered_fields {c : Instr} {kind : Byte} {layout : List FieldSize} {f : List Int → State → Answer} {s t : State}
    {r : Request} {fs : List Int} {st : Status} {d : ReplyData} (ha : Asked s r)
    (he : s.inReset = false → exec c s = .next (takeRequest kind (withFields layout f) s)) (hk : r.kind = kind)
    (hp : parseFields layout r.body = some fs) (hf : f fs s = ⟨t, st, d⟩) : exec c s = .next (reply r st d t) :=
  exec_answered ha he hk (by rw [withFields_some f hp, hf])

/-! ### The commands -/

theorem exec_powerOn (estop : Bool) (binEmpty : BitVec 8) (s : State) : exec (.powerOn estop binEmpty) s = .next (powerOn estop binEmpty s) := rfl

theorem exec_resetLine {s : State} (h : s.inReset = false) :
    exec .resetLine s = .next (takeRequest 0x07 (withFields [] resetAnswer) s) := by
  show execResetLine s = _; unfold execResetLine; exact whenRunning_next _ h

theorem exec_eStopActive {s : State} (h : s.inReset = false) :
    exec .eStopActive s = .next (
      if s.line.state = .estop then setEstop true s
      else enterEstop (setEstop true s)) := by
  show execEStopActive s = _; unfold execEStopActive; exact whenRunning_next _ h

theorem exec_eStopInactive {s : State} (h : s.inReset = false) :
    exec .eStopInactive s = .next (
      if s.line.state = .estop then leaveEstop (setEstop false s)
      else setEstop false s) := by
  show execEStopInactive s = _; unfold execEStopInactive; exact whenRunning_next _ h

theorem exec_encForwardStep (gate : GateSample) {s : State} (h : s.inReset = false) :
    exec (.encForwardStep gate) s = .next (takeDue gate s.motion.events.length (stepForward s)) := by
  show execEncForwardStep gate s = _; unfold execEncForwardStep; exact whenRunning_next _ h

theorem exec_encReverseStep {s : State} (h : s.inReset = false) :
    exec .encReverseStep s = .next (
      if isJam (stepReverse s) then jam (stepReverse s)
      else stepReverse s) := by
  show execEncReverseStep s = _; unfold execEncReverseStep; exact whenRunning_next _ h

theorem exec_ieLeadingEdge (gate : GateSample) {s : State} (h : s.inReset = false) :
    exec (.ieLeadingEdge gate) s = .next (
      if !s.line.state.moving then logFault .belt 1 (some 0) .none s.motion.travel s
      else if s.belt.strips.length < Config.stripCapacity then enterStrip gate s
      else trackFull s) := by
  show execIeLeadingEdge gate s = _; unfold execIeLeadingEdge; exact whenRunning_next _ h

theorem exec_ieTrailingEdge {s : State} (h : s.inReset = false) :
    exec .ieTrailingEdge s = .next (
        match waitingTrail s with
        | none => s
        | some r => takeTrail r s
      ) := by
  show execIeTrailingEdge s = _; unfold execIeTrailingEdge; exact whenRunning_next _ h

theorem exec_seLeadingEdge {s : State} (h : s.inReset = false) :
    exec .seLeadingEdge s = .next (takeSeEdge s.motion.travel s) := by
  show execSeLeadingEdge s = _; unfold execSeLeadingEdge; exact whenRunning_next _ h

theorem exec_seTrailingEdge {s : State} (h : s.inReset = false) :
    exec .seTrailingEdge s = .next (s) := by
  show execSeTrailingEdge s = _; unfold execSeTrailingEdge; exact whenRunning_next _ h

theorem exec_conversionComplete (inputs : Vector Int 16) {s : State} (h : s.inReset = false) :
    exec (.conversionComplete inputs) s = .next (
        match s.scan.converter with
        | none => s
        | some c => completeConversion inputs c s
      ) := by
  show execConversionComplete inputs s = _; unfold execConversionComplete; exact whenRunning_next _ h

theorem exec_processingComplete {s : State} (h : s.inReset = false) :
    exec .processingComplete s = .next (completeProcessing s) := by
  show execProcessingComplete s = _; unfold execProcessingComplete; exact whenRunning_next _ h

theorem exec_resumptionRunEnd {s : State} (h : s.inReset = false) :
    exec .resumptionRunEnd s = .next (beginResumption (finishRun s)) := by
  show execResumptionRunEnd s = _; unfold execResumptionRunEnd; exact whenRunning_next _ h

theorem exec_lugPulse (present lengthFault : Bool) {s : State} (h : s.inReset = false) :
    exec (.lugPulse present lengthFault) s = .next (takeLugPulse present lengthFault s) := by
  show execLugPulse present lengthFault s = _; unfold execLugPulse; exact whenRunning_next _ h

theorem exec_landingEdge (bin : Bin) {s : State} (h : s.inReset = false) :
    exec (.landingEdge bin) s = .next (takeLanding bin s) := by
  show execLandingEdge bin s = _; unfold execLandingEdge; exact whenRunning_next _ h

theorem exec_binEmptyActive (bin : Bin) {s : State} (h : s.inReset = false) :
    exec (.binEmptyActive bin) s = .next (
      if s.bundles.bins[bin].emptyLevel then s
      else floorClears bin s) := by
  show execBinEmptyActive bin s = _; unfold execBinEmptyActive; exact whenRunning_next _ h

theorem exec_sawPulseEnd {s : State} (h : s.inReset = false) :
    exec .sawPulseEnd s = .next ({ s with saw := { s.saw with high := false } }) := by
  show execSawPulseEnd s = _; unfold execSawPulseEnd; exact whenRunning_next _ h

theorem exec_transferPulseEnd {s : State} (h : s.inReset = false) :
    exec .transferPulseEnd s = .next ({ s with chain := { s.chain with transferHigh := false } }) := by
  show execTransferPulseEnd s = _; unfold execTransferPulseEnd; exact whenRunning_next _ h

theorem exec_dumpPulseEnd (bin : Bin) {s : State} (h : s.inReset = false) :
    exec (.dumpPulseEnd bin) s = .next ({ s with label := { s.label with dumpHigh := setAt s.label.dumpHigh bin false } }) := by
  show execDumpPulseEnd bin s = _; unfold execDumpPulseEnd; exact whenRunning_next _ h

theorem exec_ready (field : Byte) {s : State} (h : s.inReset = false) :
    exec (.ready field) s = .next (takeReady field (labelHunt s)) := by
  show execReady field s = _; unfold execReady; exact whenRunning_next _ h

theorem exec_printSent {s : State} (h : s.inReset = false) :
    exec .printSent s = .next (printOut s) := by
  show execPrintSent s = _; unfold execPrintSent; exact whenRunning_next _ h

theorem exec_accept (sequence : Word) {s : State} (h : s.inReset = false) :
    exec (.accept sequence) s = .next (takeAccept sequence (labelHunt s)) := by
  show execAccept sequence s = _; unfold execAccept; exact whenRunning_next _ h

theorem exec_applied (sequence : Word) {s : State} (h : s.inReset = false) :
    exec (.applied sequence) s = .next (takeApplied sequence (labelHunt s)) := by
  show execApplied sequence s = _; unfold execApplied; exact whenRunning_next _ h

theorem exec_fault (sequence : Word) (code : Byte) {s : State} (h : s.inReset = false) :
    exec (.fault sequence code) s = .next (takeLabelFault sequence code (labelHunt s)) := by
  show execFault sequence code s = _; unfold execFault; exact whenRunning_next _ h

theorem exec_acceptTimerExpiry {s : State} (h : s.inReset = false) :
    exec .acceptTimerExpiry s = .next (
      if s.label.head = .sent then faultHead .acceptTimeout 0 s
      else s) := by
  show execAcceptTimerExpiry s = _; unfold execAcceptTimerExpiry; exact whenRunning_next _ h

theorem exec_appliedTimerExpiry {s : State} (h : s.inReset = false) :
    exec .appliedTimerExpiry s = .next (
      if s.label.head = .accepted then faultHead .appliedTimeout 0 s
      else s) := by
  show execAppliedTimerExpiry s = _; unfold execAppliedTimerExpiry; exact whenRunning_next _ h

theorem exec_labelFrameError (bytes : List Byte) {s : State} (h : s.inReset = false) :
    exec (.labelFrameError bytes) s = .next (labelReceive bytes s) := by
  show execLabelFrameError bytes s = _; unfold execLabelFrameError; exact whenRunning_next _ h

theorem exec_labelFrameGap (bytes : List Byte) {s : State} (h : s.inReset = false) :
    exec (.labelFrameGap bytes) s = .next (labelHunt (labelReceive bytes s)) := by
  show execLabelFrameGap bytes s = _; unfold execLabelFrameGap; exact whenRunning_next _ h

theorem exec_linkFrameGap (bytes : List Byte) {s : State} (h : s.inReset = false) :
    exec (.linkFrameGap bytes) s = .next (linkHunt (linkReceive bytes s)) := by
  show execLinkFrameGap bytes s = _; unfold execLinkFrameGap; exact whenRunning_next _ h

theorem exec_linkFrameError (bytes : List Byte) {s : State} (h : s.inReset = false) :
    exec (.linkFrameError bytes) s = .next (linkReceive bytes s) := by
  show execLinkFrameError bytes s = _; unfold execLinkFrameError; exact whenRunning_next _ h

theorem exec_requestReceived (kind tag : Byte) (body : List Byte) {s : State} (h : s.inReset = false) :
    exec (.requestReceived kind tag body) s = .next (
      if 1022 < body.length then linkFrameFault 1 (linkHunt s)
      else takeLinkFrame { kind, tag, body } (linkHunt s)) := by
  show execRequestReceived kind tag body s = _; unfold execRequestReceived; exact whenRunning_next _ h

theorem exec_frameSent {s : State} (h : s.inReset = false) :
    exec .frameSent s = .next ({ s with link := { s.link with tx := s.link.tx.drop 1 } }) := by
  show execFrameSent s = _; unfold execFrameSent; exact whenRunning_next _ h

theorem exec_clockSecond {s : State} (h : s.inReset = false) :
    exec .clockSecond s = .next ({ s with link := { s.link with clock := s.link.clock + 1, phase := 0 } }) := by
  show execClockSecond s = _; unfold execClockSecond; exact whenRunning_next _ h

theorem exec_unknownRequest {s : State} (h : s.inReset = false) :
    exec .unknownRequest s = .next (takeUnknown s) := by
  show execUnknownRequest s = _; unfold execUnknownRequest; exact whenRunning_next _ h

theorem exec_identify {s : State} (h : s.inReset = false) :
    exec .identify s = .next (takeRequest 0x01 (withFields [] identifyAnswer) s) := by
  show execIdentify s = _; unfold execIdentify; exact whenRunning_next _ h

theorem exec_status {s : State} (h : s.inReset = false) :
    exec .status s = .next (takeRequest 0x02 (withFields [.u8] statusAnswer) s) := by
  show execStatus s = _; unfold execStatus; exact whenRunning_next _ h

theorem exec_configure {s : State} (h : s.inReset = false) :
    exec .configure s = .next (takeRequest 0x03 configureAnswer s) := by
  show execConfigure s = _; unfold execConfigure; exact whenRunning_next _ h

theorem exec_readConfig {s : State} (h : s.inReset = false) :
    exec .readConfig s = .next (takeRequest 0x04 (withFields [.u8] readConfigAnswer) s) := by
  show execReadConfig s = _; unfold execReadConfig; exact whenRunning_next _ h

theorem exec_start {s : State} (h : s.inReset = false) :
    exec .start s = .next (takeRequest 0x05 (withFields [] startAnswer) s) := by
  show execStart s = _; unfold execStart; exact whenRunning_next _ h

theorem exec_drain {s : State} (h : s.inReset = false) :
    exec .drain s = .next (takeRequest 0x06 (withFields [] drainAnswer) s) := by
  show execDrain s = _; unfold execDrain; exact whenRunning_next _ h

theorem exec_infeedHold {s : State} (h : s.inReset = false) :
    exec .infeedHold s = .next (takeRequest 0x08 (withFields [.u8] infeedAnswer) s) := by
  show execInfeedHold s = _; unfold execInfeedHold; exact whenRunning_next _ h

theorem exec_noticeMask {s : State} (h : s.inReset = false) :
    exec .noticeMask s = .next (takeRequest 0x09 (withFields [.u16] maskAnswer) s) := by
  show execNoticeMask s = _; unfold execNoticeMask; exact whenRunning_next _ h

theorem exec_setClock {s : State} (h : s.inReset = false) :
    exec .setClock s = .next (takeRequest 0x0A (withFields [.u32] setClockAnswer) s) := by
  show execSetClock s = _; unfold execSetClock; exact whenRunning_next _ h

theorem exec_setLot {s : State} (h : s.inReset = false) :
    exec .setLot s = .next (takeRequest 0x0B (withFields [.u16, .u32] setLotAnswer) s) := by
  show execSetLot s = _; unfold execSetLot; exact whenRunning_next _ h

theorem exec_recipeBegin {s : State} (h : s.inReset = false) :
    exec .recipeBegin s = .next (takeRequest 0x10 (withFields [.u8] beginAnswer) s) := by
  show execRecipeBegin s = _; unfold execRecipeBegin; exact whenRunning_next _ h

theorem exec_recipePut {s : State} (h : s.inReset = false) :
    exec .recipePut s = .next (takeRequest 0x11 putAnswer s) := by
  show execRecipePut s = _; unfold execRecipePut; exact whenRunning_next _ h

theorem exec_recipeCommit {s : State} (h : s.inReset = false) :
    exec .recipeCommit s = .next (takeRequest 0x12 (withFields [.u8] commitAnswer) s) := by
  show execRecipeCommit s = _; unfold execRecipeCommit; exact whenRunning_next _ h

theorem exec_recipeSwitch {s : State} (h : s.inReset = false) :
    exec .recipeSwitch s = .next (takeRequest 0x13 (withFields [.u8] switchAnswer) s) := by
  show execRecipeSwitch s = _; unfold execRecipeSwitch; exact whenRunning_next _ h

theorem exec_recipeRead {s : State} (h : s.inReset = false) :
    exec .recipeRead s = .next (takeRequest 0x14 readAnswer s) := by
  show execRecipeRead s = _; unfold execRecipeRead; exact whenRunning_next _ h

theorem exec_answer {s : State} (h : s.inReset = false) :
    exec .answer s = .next (takeRequest 0x18 (withFields [.u8, .u32, .u8, .u8] answerAnswer) s) := by
  show execAnswer s = _; unfold execAnswer; exact whenRunning_next _ h

theorem exec_readStrip {s : State} (h : s.inReset = false) :
    exec .readStrip s = .next (takeRequest 0x20 (withFields [.u32] readStripAnswer) s) := by
  show execReadStrip s = _; unfold execReadStrip; exact whenRunning_next _ h

theorem exec_readCutting {s : State} (h : s.inReset = false) :
    exec .readCutting s = .next (takeRequest 0x21 (withFields [.u32, .u8] readCuttingAnswer) s) := by
  show execReadCutting s = _; unfold execReadCutting; exact whenRunning_next _ h

theorem exec_readBin {s : State} (h : s.inReset = false) :
    exec .readBin s = .next (takeRequest 0x22 (withFields [.u8] readBinAnswer) s) := by
  show execReadBin s = _; unfold execReadBin; exact whenRunning_next _ h

theorem exec_binHold {s : State} (h : s.inReset = false) :
    exec .binHold s = .next (takeRequest 0x23 (withFields [.u8, .u8] binHoldAnswer) s) := by
  show execBinHold s = _; unfold execBinHold; exact whenRunning_next _ h

theorem exec_closeBundle {s : State} (h : s.inReset = false) :
    exec .closeBundle s = .next (takeRequest 0x24 (withFields [.u8] closeBundleAnswer) s) := by
  show execCloseBundle s = _; unfold execCloseBundle; exact whenRunning_next _ h

theorem exec_labelRetry {s : State} (h : s.inReset = false) :
    exec .labelRetry s = .next (takeRequest 0x28 (withFields [.u32] (judgeHead retryHead)) s) := by
  show execLabelRetry s = _; unfold execLabelRetry; exact whenRunning_next _ h

theorem exec_labelVoid {s : State} (h : s.inReset = false) :
    exec .labelVoid s = .next (takeRequest 0x29 (withFields [.u32] (judgeHead (headLeaves .voided))) s) := by
  show execLabelVoid s = _; unfold execLabelVoid; exact whenRunning_next _ h

theorem exec_readLabels {s : State} (h : s.inReset = false) :
    exec .readLabels s = .next (takeRequest 0x2A (withFields [] readLabelsAnswer) s) := by
  show execReadLabels s = _; unfold execReadLabels; exact whenRunning_next _ h

theorem exec_profileResume {s : State} (h : s.inReset = false) :
    exec .profileResume s = .next (takeRequest 0x30 (withFields [] resumeAnswer) s) := by
  show execProfileResume s = _; unfold execProfileResume; exact whenRunning_next _ h

theorem exec_toolSet {s : State} (h : s.inReset = false) :
    exec .toolSet s = .next (takeRequest 0x31 (withFields [.u8, .u16, .u16] toolSetAnswer) s) := by
  show execToolSet s = _; unfold execToolSet; exact whenRunning_next _ h

theorem exec_readTools {s : State} (h : s.inReset = false) :
    exec .readTools s = .next (takeRequest 0x32 (withFields [] readToolsAnswer) s) := by
  show execReadTools s = _; unfold execReadTools; exact whenRunning_next _ h

theorem exec_readFault {s : State} (h : s.inReset = false) :
    exec .readFault s = .next (takeRequest 0x38 (withFields [.u8] readFaultAnswer) s) := by
  show execReadFault s = _; unfold execReadFault; exact whenRunning_next _ h

theorem exec_clearFault {s : State} (h : s.inReset = false) :
    exec .clearFault s = .next (takeRequest 0x39 (withFields [.u8] clearFaultAnswer) s) := by
  show execClearFault s = _; unfold execClearFault; exact whenRunning_next _ h

theorem exec_readReturns {s : State} (h : s.inReset = false) :
    exec .readReturns s = .next (takeRequest 0x3A (withFields [] readReturnsAnswer) s) := by
  show execReadReturns s = _; unfold execReadReturns; exact whenRunning_next _ h

theorem exec_binEmptyInactive (bin : Bin) {s : State} (h : s.inReset = false) :
    exec (.binEmptyInactive bin) s = .next (mapBin bin (fun r => { r with emptyLevel := false }) s) := by
  show execBinEmptyInactive bin s = _; unfold execBinEmptyInactive; exact whenRunning_next _ h

theorem exec_resetPinAsserted (s : State) : exec .resetPinAsserted s = .next (assertReset s) := rfl

/-! ### One event due, and what a scan window leaves registered -/

/-- No position is after itself. -/
theorem isAfter_self (p : Word) : isAfter p p = false := by simp [isAfter, ticksFrom]

/-- The one event due is the one taken, once the mark stands at its position (R2). -/
theorem OnlyDue.due {s t : State} {e : PosEvent} {others : List PosEvent} (h : OnlyDue s e others)
    (he : t.motion.events = s.motion.events) (hm : t.motion.mark = e.pos) : dueEvents t = [e] := by
  obtain ⟨before, after, h1, h2, h3⟩ := h
  subst h2
  have none (l : List PosEvent) (hl : ∀ x ∈ l, x ∈ before ++ after) : l.filter (fun x => reached t x.pos) = [] := by
    rw [List.filter_eq_nil_iff]
    intro x hx
    simp [reached, hm, h3 x (hl x hx)]
  have self : reached t e.pos = true := by simp [reached, hm, isAfter_self]
  simp [dueEvents, he, h1, List.filter_append, none before (fun x hx => by simp [hx]), self,
    none after (fun x hx => by simp [hx])]

/-- Once it is taken, the others stay registered (R2). -/
theorem OnlyDue.erase {s : State} {e : PosEvent} {others : List PosEvent} (h : OnlyDue s e others) :
    s.motion.events.erase e = others := by
  obtain ⟨before, after, h1, h2, h3⟩ := h
  have hn : e ∉ before := fun hm => by
    have := h3 e (by simp [h2, hm])
    rw [isAfter_self] at this
    exact Bool.false_ne_true this
  rw [h1, h2, List.erase_append_right _ hn, List.erase_cons_head]

/-- After a tail cut no pass is registered (R30). -/
theorem cutTails_passes (s : State) : ∀ e ∈ (cutTails s).motion.events, e.what.isPass = false := by
  intro e he
  simpa [cutTails, withdraw] using (List.mem_filter.mp he).2

end Sys2Proof.Machine
end

