-- ==== Sys2Proof/Laws/Frames.lean ====
section
/-! SUPPORT. What the shared operations leave alone, said once for each: how the link may change (LinkGrows), and the operations that change
nothing but the link, the bins with what closes them, the referrals, or the grading of cuttings. -/

set_option Elab.async false

namespace Sys2Proof.Machine

/-! ### The link -/

/-- What a block outside the port can make of the link: notices join the ready frames within the capacity (R207), and faults are logged (R211); the
requests, the mask, the clock and the receivers stay. -/
structure LinkGrows (l l' : LinkPort) : Prop where
  receiver : l'.receiver = l.receiver
  labelReceiver : l'.labelReceiver = l.labelReceiver
  requests : l'.requests = l.requests
  mask : l'.mask = l.mask
  clock : l'.clock = l.clock
  phase : l'.phase = l.phase
  tx : ∃ ns : List Notice, l'.tx = l.tx ++ ns.map TxFrame.notice
  notices : l.noticeCount ≤ Config.noticeCapacity → l'.noticeCount ≤ Config.noticeCapacity

theorem LinkGrows.refl (l : LinkPort) : LinkGrows l l :=
  ⟨rfl, rfl, rfl, rfl, rfl, rfl, ⟨[], by simp⟩, id⟩

theorem LinkGrows.trans {a b c : LinkPort} (h : LinkGrows a b) (k : LinkGrows b c) : LinkGrows a c := by
  obtain ⟨ns, hn⟩ := h.tx
  obtain ⟨ms, hm⟩ := k.tx
  exact ⟨k.receiver.trans h.receiver, k.labelReceiver.trans h.labelReceiver, k.requests.trans h.requests, k.mask.trans h.mask,
    k.clock.trans h.clock, k.phase.trans h.phase, ⟨ns ++ ms, by rw [hm, hn]; simp⟩, fun x => k.notices (h.notices x)⟩

/-- An offered notice joins the ready frames, or is masked, or is dropped and counted (R207, R208). -/
theorem LinkPort.offer_cases (n : Notice) (l : LinkPort) :
    (l.mask.getLsbD n.kindIndex = false ∧ l.offer n = l) ∨
    (l.noticeCount < Config.noticeCapacity ∧ l.offer n = { l with tx := l.tx ++ [.notice n] }) ∨
    (Config.noticeCapacity ≤ l.noticeCount ∧ l.offer n = { l with dropped := countUpTo 65535 l.dropped }) := by
  unfold LinkPort.offer
  split
  · split
    · exact .inr (.inl ⟨‹_›, rfl⟩)
    · exact .inr (.inr ⟨by omega, rfl⟩)
  · exact .inl ⟨by simp_all, rfl⟩

theorem LinkPort.offer_grows (n : Notice) (l : LinkPort) : LinkGrows l (l.offer n) := by
  obtain ⟨_, h⟩ | ⟨hc, h⟩ | ⟨_, h⟩ := LinkPort.offer_cases n l
  · rw [h]
    exact LinkGrows.refl l
  · rw [h]
    refine ⟨rfl, rfl, rfl, rfl, rfl, rfl, ⟨[n], rfl⟩, fun _ => ?_⟩
    simp only [LinkPort.noticeCount, List.countP_append] at hc ⊢
    simp [TxFrame.isNotice, Nat.succ_le_of_lt hc]
  · rw [h]
    exact ⟨rfl, rfl, rfl, rfl, rfl, rfl, ⟨[], by simp⟩, id⟩

theorem LinkPort.setRecord_grows (b : FaultBook) (r : FaultRecord) (l : LinkPort) : LinkGrows l (l.setRecord b r) := by
  cases b <;> exact ⟨rfl, rfl, rfl, rfl, rfl, rfl, ⟨[], by simp [LinkPort.setRecord]⟩, id⟩

/-- A logged fault is the first of its record, with its FAULT notice, or one more that is counted (R211). -/
theorem logFault_cases (b : FaultBook) (code : Nat) (detail : Option Nat) (o : FaultObject) (p : Word) (s : State) :
    ((s.link.record b).first = none ∧
      logFault b code detail o p s = offer (.fault b ⟨code, detail, o, p, s.link.clock⟩)
        { s with link := s.link.setRecord b ⟨some ⟨code, detail, o, p, s.link.clock⟩, 0, false⟩ }) ∨
    ∃ f, (s.link.record b).first = some f ∧
      logFault b code detail o p s =
        { s with link := s.link.setRecord b ⟨some f, countUpTo 255 (s.link.record b).count, true⟩ } := by
  cases h : (s.link.record b).first with
  | none => exact .inl ⟨rfl, by simp only [logFault, h]⟩
  | some f => exact .inr ⟨f, rfl, by simp only [logFault, h]⟩

/-! ### Operations that change the link alone -/

/-- The step from s to t changes nothing but the link, and the link as LinkGrows says. -/
structure LinkOnly (s t : State) : Prop where
  eq : t = { s with link := t.link }
  link : LinkGrows s.link t.link

theorem LinkOnly.refl (s : State) : LinkOnly s s := ⟨rfl, LinkGrows.refl _⟩

theorem LinkOnly.trans {a b c : State} (h : LinkOnly a b) (k : LinkOnly b c) : LinkOnly a c :=
  ⟨by rw [k.eq, h.eq], h.link.trans k.link⟩

theorem offer_linkOnly (n : Notice) (s : State) : LinkOnly s (offer n s) := ⟨rfl, LinkPort.offer_grows n s.link⟩

theorem logFault_linkOnly (b : FaultBook) (code : Nat) (detail : Option Nat) (o : FaultObject) (p : Word) (s : State) :
    LinkOnly s (logFault b code detail o p s) := by
  obtain ⟨_, h⟩ | ⟨f, _, h⟩ := logFault_cases b code detail o p s
  · rw [h]
    exact ⟨rfl, (LinkPort.setRecord_grows b _ s.link).trans (LinkPort.offer_grows _ _)⟩
  · rw [h]
    exact ⟨rfl, LinkPort.setRecord_grows b _ s.link⟩

/-- The LINE notice of an event touches the link alone (R12). -/
theorem lineNote_linkOnly (before after : State) : LinkOnly after (lineNote before after) := by
  unfold lineNote
  split
  · exact LinkOnly.refl _
  · exact offer_linkOnly _ _

theorem bundleNotice_linkOnly (e : BundleEvent) (b : Bin) (bu : Bundle) (st : BinState) (s : State) :
    LinkOnly s (bundleNotice e b bu st s) := offer_linkOnly _ _

theorem referralEnd_linkOnly (tag : Nat) (id : CuttingId) (why : ReferralEndReason) (st : Standing) (s : State) :
    LinkOnly s (referralEnd tag id why st s) := offer_linkOnly _ _

/-! ### The drain test and events -/

/-- The drain test does nothing, or takes a complete DRAIN to READY with its LINE notice (R7). -/
theorem drainTest_cases (s : State) :
    drainTest s = s ∨ (s.line.state = .drain ∧ trackingEmpty s = true ∧ drainTest s = lineNote s (enterLine .ready s)) := by
  unfold drainTest
  split
  · rename_i h
    exact .inr ⟨h.1, h.2, rfl⟩
  · exact .inl rfl

/-- The drain test after an event either is made or changes nothing (R7). -/
theorem drainAfter_cases (before after : State) : drainAfter before after = after ∨ drainAfter before after = drainTest after := by
  unfold drainAfter
  split
  · exact .inr rfl
  · exact .inl rfl

/-- An event is its effects and its LINE notice, and in DRAIN perhaps the change to READY (R7, R12). -/
theorem event_cases (f : State → State) (s : State) :
    event f s = lineNote s (f s) ∨ event f s = drainTest (lineNote s (f s)) := drainAfter_cases s (lineNote s (f s))

/-! ### Bins, bundles, labels and the banks' counts -/

/-- The step from s to t changes nothing but the bins, the Label Unit, the banks and the link, keeps the generation counter, and takes the label
queue to no more than its capacity (R177). -/
structure BinsOnly (s t : State) : Prop where
  eq : t = { s with bundles := t.bundles, label := t.label, recipe := t.recipe, link := t.link }
  counter : t.recipe.counter = s.recipe.counter
  labels : s.label.queue.length ≤ Config.labelCapacity → t.label.queue.length ≤ Config.labelCapacity
  link : LinkGrows s.link t.link

theorem BinsOnly.refl (s : State) : BinsOnly s s := ⟨rfl, rfl, id, LinkGrows.refl _⟩

theorem BinsOnly.trans {a b c : State} (h : BinsOnly a b) (k : BinsOnly b c) : BinsOnly a c :=
  ⟨by rw [k.eq, h.eq], k.counter.trans h.counter, fun x => k.labels (h.labels x), h.link.trans k.link⟩

theorem LinkOnly.binsOnly {s t : State} (h : LinkOnly s t) : BinsOnly s t := by
  obtain ⟨e, g⟩ := h
  rw [e]
  exact ⟨rfl, rfl, id, g⟩

theorem mapBin_binsOnly (b : Bin) (f : BinRecord → BinRecord) (s : State) : BinsOnly s (mapBin b f s) :=
  ⟨rfl, rfl, id, LinkGrows.refl _⟩

theorem mapBundle_binsOnly (b : Bin) (f : Bundle → Bundle) (s : State) : BinsOnly s (mapBundle b f s) :=
  mapBin_binsOnly b _ s

theorem mapBank_binsOnly (k : BankId) (f : Bank → Bank) (s : State) : BinsOnly s (mapBank k f s) :=
  ⟨rfl, rfl, id, LinkGrows.refl _⟩

theorem tryPrint_binsOnly (s : State) : BinsOnly s (tryPrint s) := by
  unfold tryPrint
  split
  · exact BinsOnly.refl s
  · split
    · exact ⟨rfl, rfl, id, LinkGrows.refl _⟩
    · exact BinsOnly.refl s

theorem giveDump_binsOnly (b : Bin) (s : State) : BinsOnly s (giveDump b s) := by
  unfold giveDump
  split
  · exact BinsOnly.refl s
  · split <;> exact ⟨rfl, rfl, id, LinkGrows.refl _⟩

/-- A label joins the queue at its tail (R177). -/
theorem enqueueLabel_queue (l : LabelRecord) (s : State) : (enqueueLabel l s).label.queue = s.label.queue ++ [l] := by
  unfold enqueueLabel
  split
  · simp_all
  · rfl

theorem enqueueLabel_binsOnly (l : LabelRecord) (s : State) (h : labelRoom s = true) : BinsOnly s (enqueueLabel l s) := by
  refine ⟨?_, ?_, fun _ => ?_, ?_⟩
  · unfold enqueueLabel
    split <;> rfl
  · unfold enqueueLabel
    split <;> rfl
  · rw [enqueueLabel_queue]
    simpa [labelRoom, Nat.succ_le_iff] using h
  · unfold enqueueLabel
    split <;> exact LinkGrows.refl _

theorem retireCheck_binsOnly (k : BankId) (s : State) : BinsOnly s (retireCheck k s) := by
  unfold retireCheck
  split
  · exact (mapBank_binsOnly k _ s).trans (offer_linkOnly _ _).binsOnly
  · exact BinsOnly.refl s

theorem openBundle_binsOnly (b : Bin) (s : State) : BinsOnly s (openBundle b s) := by
  unfold openBundle
  split
  · exact mapBin_binsOnly b _ s
  · exact ⟨rfl, rfl, id, LinkPort.offer_grows _ _⟩

theorem closeBundle_binsOnly (b : Bin) (s : State) : BinsOnly s (closeBundle b s) := by
  unfold closeBundle
  split
  · exact BinsOnly.refl s
  · rename_i bu _
    have h : ∀ (st : BinState) (bu' : Bundle), BinsOnly s (bundleNotice .closed b bu' st
        (mapBank bu.bank (fun r => { r with bundles := r.bundles - 1 })
          { mapBin b (fun r => { r with state := st, bundle := some bu' }) s with
            bundles := { (mapBin b (fun r => { r with state := st, bundle := some bu' }) s).bundles with
              nextClose := (mapBin b (fun r => { r with state := st, bundle := some bu' }) s).bundles.nextClose + 1 } })) :=
      fun st bu' => ⟨rfl, rfl, id, LinkPort.offer_grows _ _⟩
    dsimp only
    split
    · rename_i hr
      refine ((h _ _).trans (enqueueLabel_binsOnly _ _ ?_)).trans (tryPrint_binsOnly _)
      exact hr
    · exact h _ _

theorem closeTest_binsOnly (b : Bin) (s : State) : BinsOnly s (closeTest b s) := by
  unfold closeTest
  split
  · exact BinsOnly.refl s
  · split
    · exact closeBundle_binsOnly b s
    · exact BinsOnly.refl s

/-- A change that touches only the bins stays so with the test for retiring after it (R198). -/
theorem retireAfter_binsOnly (b : Bin) (f : State → State) (s : State) (h : BinsOnly s (f s)) : BinsOnly s (retireAfter b f s) := by
  unfold retireAfter
  split
  · exact h
  · exact h.trans (retireCheck_binsOnly _ _)

theorem discardBundle_binsOnly (b : Bin) (bu : Bundle) (s : State) : BinsOnly s (discardBundle b bu s) := by
  unfold discardBundle
  exact ((mapBank_binsOnly _ _ s).trans (bundleNotice_linkOnly _ _ _ _ _).binsOnly).trans (openBundle_binsOnly _ _)

theorem closeShort_binsOnly (b : Bin) (bu : Bundle) (s : State) : BinsOnly s (closeShort b bu s) := by
  unfold closeShort
  exact ((mapBin_binsOnly b _ s).trans (bundleNotice_linkOnly _ _ _ _ _).binsOnly).trans (closeTest_binsOnly _ _)

theorem genCloseBin_binsOnly (b : Bin) (s : State) : BinsOnly s (genCloseBin b s) := by
  unfold genCloseBin
  split
  · exact BinsOnly.refl s
  · split
    · split
      · exact discardBundle_binsOnly _ _ _
      · exact closeShort_binsOnly _ _ _
    · exact BinsOnly.refl s

/-- Steps that touch only the bins, taken one after another, touch only the bins. -/
theorem foldl_binsOnly {α : Type} (f : State → α → State) (h : ∀ s x, BinsOnly s (f s x)) (l : List α) (s : State) :
    BinsOnly s (l.foldl f s) := by
  induction l generalizing s with
  | nil => exact BinsOnly.refl s
  | cons x l ih => exact (h s x).trans (ih _)

theorem genClose_binsOnly (s : State) : BinsOnly s (genClose s) :=
  foldl_binsOnly _ (fun s b => genCloseBin_binsOnly b s) allBins s

theorem reportUnbound_binsOnly (k : BankId) (s : State) : BinsOnly s (reportUnbound k s) := by
  unfold reportUnbound
  split
  · exact (genClose_binsOnly s).trans (retireCheck_binsOnly _ _)
  · exact retireCheck_binsOnly _ _

theorem unbindStrip_binsOnly (k : BankId) (s : State) : BinsOnly s (unbindStrip k s) :=
  (mapBank_binsOnly k _ s).trans (reportUnbound_binsOnly k _)

theorem unbindCutting_binsOnly (k : BankId) (s : State) : BinsOnly s (unbindCutting k s) :=
  (mapBank_binsOnly k _ s).trans (reportUnbound_binsOnly k _)

theorem admitTo_binsOnly (b : Bin) (c n : Nat) (s : State) : BinsOnly s (admitTo b c n s) := by
  unfold admitTo
  split
  · exact BinsOnly.refl s
  · dsimp only
    split
    · exact (mapBin_binsOnly b _ s).trans (bundleNotice_linkOnly _ _ _ _ _).binsOnly
    · exact mapBin_binsOnly b _ s

/-- An admission names no bin and changes nothing, or names the first bin that admits and commits the piece to it (R156). -/
theorem admission_cases (g gen c n : Nat) (s : State) :
    ((∀ b ∈ allBins, admits s b g gen c n = false) ∧ admission g gen c n s = (none, s)) ∨
    ∃ b, allBins.find? (fun b => admits s b g gen c n) = some b ∧ admits s b g gen c n = true ∧
      admission g gen c n s = (some b, admitTo b c n s) := by
  cases h : allBins.find? (fun b => admits s b g gen c n) with
  | none =>
    refine .inl ⟨fun b hb => ?_, by simp only [admission, h]⟩
    simpa using List.find?_eq_none.1 h b hb
  | some b => exact .inr ⟨b, rfl, by simpa using List.find?_some h, by simp only [admission, h]⟩

theorem reopenOrClose_binsOnly (b : Bin) (s : State) : BinsOnly s (reopenOrClose b s) := by
  unfold reopenOrClose
  split
  · exact BinsOnly.refl s
  · split
    · split
      · exact (mapBin_binsOnly b _ s).trans (bundleNotice_linkOnly _ _ _ _ _).binsOnly
      · exact closeTest_binsOnly b s
    · split
      · exact (mapBin_binsOnly b _ s).trans (bundleNotice_linkOnly _ _ _ _ _).binsOnly
      · exact BinsOnly.refl s

theorem landPiece_binsOnly (b : Bin) (n : Nat) (s : State) : BinsOnly s (landPiece b n s) :=
  (mapBundle_binsOnly b _ s).trans (retireAfter_binsOnly b _ _ (closeTest_binsOnly b _))

theorem release_binsOnly (b : Bin) (c n : Nat) (s : State) : BinsOnly s (release b c n s) :=
  (mapBundle_binsOnly b _ s).trans (retireAfter_binsOnly b _ _ (reopenOrClose_binsOnly b _))

theorem releaseReservation_binsOnly (c : Cutting) (landed : Bool) (s : State) : BinsOnly s (releaseReservation c landed s) := by
  unfold releaseReservation
  split
  · split
    · exact BinsOnly.refl s
    · exact release_binsOnly _ _ _ _
  · exact BinsOnly.refl s

theorem closingEntry_binsOnly (s : State) : BinsOnly s (closingEntry s) := by
  unfold closingEntry
  split
  · exact BinsOnly.refl s
  · split
    · exact BinsOnly.refl s
    · split
      · rename_i hr
        exact (mapBin_binsOnly _ _ s).trans (enqueueLabel_binsOnly _ _ hr)
      · exact BinsOnly.refl s

theorem dispatchBin_binsOnly (b : Bin) (o : Outcome) (s : State) : BinsOnly s (dispatchBin b o s) := by
  have h : ∀ t, BinsOnly s t → BinsOnly s (if t.bundles.bins[b].emptyLevel then openBundle b t else t) := by
    intro t ht
    split
    · exact ht.trans (openBundle_binsOnly b _)
    · exact ht
  unfold dispatchBin
  dsimp only
  split
  · exact h _ (mapBin_binsOnly b _ s)
  · exact h _ ((mapBin_binsOnly b _ s).trans (bundleNotice_linkOnly _ _ _ _ _).binsOnly)

/-! ### Referrals -/

/-- The step from s to t changes nothing but the referrals and the link. -/
structure ReferralsOnly (s t : State) : Prop where
  eq : t = { s with referral := t.referral, link := t.link }
  link : LinkGrows s.link t.link

theorem ReferralsOnly.refl (s : State) : ReferralsOnly s s := ⟨rfl, LinkGrows.refl _⟩

theorem ReferralsOnly.trans {a b c : State} (h : ReferralsOnly a b) (k : ReferralsOnly b c) : ReferralsOnly a c :=
  ⟨by rw [k.eq, h.eq], h.link.trans k.link⟩

theorem LinkOnly.referralsOnly {s t : State} (h : LinkOnly s t) : ReferralsOnly s t := by
  obtain ⟨e, g⟩ := h
  rw [e]
  exact ⟨rfl, g⟩

/-- A referral that becomes outstanding joins the outstanding ones with the next tag; the waiting list stays (R119, R120). -/
theorem makeOutstanding_lists (r : Referral) (s : State) :
    (makeOutstanding r s).referral.outstanding = s.referral.outstanding ++ [{ r with tag := some s.referral.nextTag }] ∧
      (makeOutstanding r s).referral.waiting = s.referral.waiting ∧
      (makeOutstanding r s).referral.lastTag = some s.referral.nextTag := by
  unfold makeOutstanding ReferralUnit.setEntry
  dsimp only
  split <;> exact ⟨rfl, rfl, rfl⟩

theorem makeOutstanding_referralsOnly (r : Referral) (s : State) : ReferralsOnly s (makeOutstanding r s) :=
  ⟨rfl, LinkPort.offer_grows _ _⟩

theorem promote_referralsOnly (k : Nat) (s : State) : ReferralsOnly s (promote k s) := by
  induction k generalizing s with
  | zero => exact ReferralsOnly.refl s
  | succ k ih =>
    unfold promote
    split
    · exact ReferralsOnly.refl s
    · rename_i r rest _
      split
      · refine ReferralsOnly.trans ⟨rfl, ?_⟩ (ih _)
        exact LinkPort.offer_grows _ _
      · exact ReferralsOnly.refl s

theorem promoteAll_referralsOnly (s : State) : ReferralsOnly s (promoteAll s) := promote_referralsOnly _ s

/-- A raised referral becomes outstanding, waits, or overflows with a REFERRAL END notice (R118). -/
theorem raiseReferral_cases (r : Referral) (s : State) :
    (s.referral.outstanding.length < Config.slotCapacity ∧ raiseReferral r s = (true, makeOutstanding r s)) ∨
    (Config.slotCapacity ≤ s.referral.outstanding.length ∧ s.referral.waiting.length < Config.waitingCapacity ∧
      raiseReferral r s = (true, { s with referral := { s.referral with waiting := s.referral.waiting ++ [r] } })) ∨
    (Config.slotCapacity ≤ s.referral.outstanding.length ∧ Config.waitingCapacity ≤ s.referral.waiting.length ∧
      raiseReferral r s = (false, referralEnd 0 r.id .overflow .none s)) := by
  unfold raiseReferral
  split
  · exact .inl ⟨‹_›, rfl⟩
  · split
    · exact .inr (.inl ⟨by omega, ‹_›, rfl⟩)
    · exact .inr (.inr ⟨by omega, by omega, rfl⟩)

theorem raiseReferral_referralsOnly (r : Referral) (s : State) : ReferralsOnly s (raiseReferral r s).2 := by
  obtain ⟨_, h⟩ | ⟨_, _, h⟩ | ⟨_, _, h⟩ := raiseReferral_cases r s <;> rw [h]
  · exact makeOutstanding_referralsOnly r s
  · exact ⟨rfl, LinkGrows.refl _⟩
  · exact (referralEnd_linkOnly _ _ _ _ _).referralsOnly

/-- An ended referral leaves the outstanding ones; the waiting list and the last tag stay (R119). -/
theorem endOutstanding_lists (r : Referral) (s : State) :
    (endOutstanding r s).referral.outstanding = s.referral.outstanding.filter (fun x => decide (x.id ≠ r.id)) ∧
      (endOutstanding r s).referral.waiting = s.referral.waiting ∧
      (endOutstanding r s).referral.lastTag = s.referral.lastTag := by
  unfold endOutstanding
  cases r.tag with
  | none => exact ⟨rfl, rfl, rfl⟩
  | some t =>
    unfold ReferralUnit.setEntry
    dsimp only
    split <;> exact ⟨rfl, rfl, rfl⟩

theorem endOutstanding_referralsOnly (r : Referral) (s : State) : ReferralsOnly s (endOutstanding r s) :=
  ⟨rfl, LinkGrows.refl _⟩

theorem endReferral_referralsOnly (id : CuttingId) (why : ReferralEndReason) (s : State) :
    ReferralsOnly s (endReferral id why s) := by
  unfold endReferral
  split
  · exact (endOutstanding_referralsOnly _ s).trans (referralEnd_linkOnly _ _ _ _ _).referralsOnly
  · split
    · exact ⟨rfl, LinkPort.offer_grows _ _⟩
    · exact ReferralsOnly.refl s

/-! ### Grading -/

/-- The step from s to t changes nothing but the resumption path, the cutting records, the referrals and the link, and keeps the number of cutting
records. -/
structure GradingOnly (s t : State) : Prop where
  eq : t = { s with grade := t.grade, cuttings := t.cuttings, referral := t.referral, link := t.link }
  count : t.cuttings.length = s.cuttings.length
  link : LinkGrows s.link t.link

theorem GradingOnly.refl (s : State) : GradingOnly s s := ⟨rfl, rfl, LinkGrows.refl _⟩

theorem GradingOnly.trans {a b c : State} (h : GradingOnly a b) (k : GradingOnly b c) : GradingOnly a c :=
  ⟨by rw [k.eq, h.eq], k.count.trans h.count, h.link.trans k.link⟩

theorem ReferralsOnly.gradingOnly {s t : State} (h : ReferralsOnly s t) : GradingOnly s t := by
  obtain ⟨e, g⟩ := h
  rw [e]
  exact ⟨rfl, rfl, g⟩

theorem setGrade_gradingOnly (g : GradeEngine) (s : State) : GradingOnly s { s with grade := g } := ⟨rfl, rfl, LinkGrows.refl _⟩

theorem mapCutting_gradingOnly (id : CuttingId) (f : Cutting → Cutting) (s : State) : GradingOnly s (mapCutting id f s) :=
  ⟨rfl, by simp [mapCutting], LinkGrows.refl _⟩

theorem beginResumption_gradingOnly (s : State) : GradingOnly s (beginResumption s) := by
  unfold beginResumption
  split
  · exact ⟨rfl, rfl, LinkGrows.refl _⟩
  · exact GradingOnly.refl s

theorem abandonRuns_gradingOnly (id : CuttingId) (s : State) : GradingOnly s (abandonRuns id s) :=
  (setGrade_gradingOnly _ s).trans (beginResumption_gradingOnly _)

theorem startResumption_gradingOnly (r : Resumption) (s : State) : GradingOnly s (startResumption r s) :=
  ((mapCutting_gradingOnly _ _ s).trans (setGrade_gradingOnly _ _)).trans (beginResumption_gradingOnly _)

theorem writeRun_gradingOnly (c : Cutting) (e : RunEnd) (s : State) : GradingOnly s (writeRun c e s) := by
  unfold writeRun
  split
  · exact mapCutting_gradingOnly _ _ s
  · exact mapCutting_gradingOnly _ _ s
  · exact (raiseReferral_referralsOnly _ s).gradingOnly.trans (mapCutting_gradingOnly _ _ _)

theorem planningRun_gradingOnly (id : CuttingId) (s : State) : GradingOnly s (planningRun id s) := by
  unfold planningRun
  split
  · exact GradingOnly.refl s
  · exact writeRun_gradingOnly _ _ s

theorem finishRun_gradingOnly (s : State) : GradingOnly s (finishRun s) := by
  unfold finishRun
  split
  · exact GradingOnly.refl s
  · dsimp only
    split
    · exact ⟨rfl, rfl, LinkGrows.refl _⟩
    · exact GradingOnly.trans (setGrade_gradingOnly _ _) (writeRun_gradingOnly _ _ _)

theorem settleRun_gradingOnly (r : Resumption) (s : State) : GradingOnly s (settleRun r s) := by
  unfold settleRun
  split
  · exact GradingOnly.refl s
  · split
    · exact (mapCutting_gradingOnly _ _ s).trans (referralEnd_linkOnly _ _ _ _ _).referralsOnly.gradingOnly
    · exact writeRun_gradingOnly _ _ s

theorem settleResuming_gradingOnly (id : CuttingId) (s : State) : GradingOnly s (settleResuming id s) := by
  unfold settleResuming
  split
  · split
    · exact (GradingOnly.trans (setGrade_gradingOnly _ _) (settleRun_gradingOnly _ _)).trans (beginResumption_gradingOnly _)
    · dsimp only
      split
      · exact (finishRun_gradingOnly s).trans (beginResumption_gradingOnly _)
      · exact ((finishRun_gradingOnly s).trans
          (GradingOnly.trans (setGrade_gradingOnly _ _) (settleRun_gradingOnly _ _))).trans (beginResumption_gradingOnly _)
  · split
    · exact GradingOnly.refl s
    · exact (GradingOnly.trans (setGrade_gradingOnly _ _) (settleRun_gradingOnly _ _)).trans (beginResumption_gradingOnly _)

theorem settleGrading_gradingOnly (id : CuttingId) (s : State) : GradingOnly s (settleGrading id s) := by
  unfold settleGrading
  split
  · exact GradingOnly.refl s
  · split
    · exact GradingOnly.refl s
    · exact GradingOnly.refl s
    · exact ((endReferral_referralsOnly _ _ s).gradingOnly.trans (mapCutting_gradingOnly _ _ _)).trans
        (promoteAll_referralsOnly _).gradingOnly
    · exact settleResuming_gradingOnly id s

end Sys2Proof.Machine
end

