-- ==== Sys2Proof/Laws/Operands.lean ====
section
/-! SUPPORT. Fields of request bodies: a value's bytes give the value back, and bodies of the layouts the requests use give their fields. -/

set_option Elab.async false

namespace Sys2Proof.Machine

/-- The two bytes of a value give it back (R203). -/
@[simp] theorem value16_bytes (v : BitVec 16) : value16 (v.extractLsb' 0 8) (v.extractLsb' 8 8) = v := by
  unfold value16
  ext j hj
  simp only [BitVec.getElem_append, BitVec.getElem_extractLsb']
  split
  · simp [BitVec.getLsbD_eq_getElem, hj]
  · rw [show 8 + (j - 8) = j by omega]
    exact BitVec.getLsbD_eq_getElem hj

/-- The four bytes of a value give it back (R203). -/
@[simp] theorem value32_bytes (v : Word) :
    value32 (v.extractLsb' 0 8) (v.extractLsb' 8 8) (v.extractLsb' 16 8) (v.extractLsb' 24 8) = v := by
  unfold value32
  ext j hj
  simp only [BitVec.getElem_append, BitVec.getElem_extractLsb']
  split
  · simp [BitVec.getLsbD_eq_getElem, hj]
  · split
    · rw [show 8 + (j - 8) = j by omega]
      exact BitVec.getLsbD_eq_getElem hj
    · split
      · rw [show 16 + (j - 8 - 8) = j by omega]
        exact BitVec.getLsbD_eq_getElem hj
      · rw [show 24 + (j - 8 - 8 - 8) = j by omega]
        exact BitVec.getLsbD_eq_getElem hj

@[simp] theorem bytes16_length (v : BitVec 16) : (bytes16 v).length = 2 := rfl
@[simp] theorem bytes32_length (v : Word) : (bytes32 v).length = 4 := rfl

/-- An empty layout takes the empty body alone. -/
@[simp] theorem parseFields_nil : parseFields [] [] = some [] := rfl
@[simp] theorem parseFields_nil_cons (b : Byte) (bs : List Byte) : parseFields [] (b :: bs) = none := rfl

/-- A one-byte field. -/
@[simp] theorem parseFields_u8 (b : Byte) (zs : List FieldSize) (bs : List Byte) :
    parseFields (.u8 :: zs) (b :: bs) = (parseFields zs bs).map (fun vs => (b.toNat : Int) :: vs) := rfl

/-- A two-byte field. -/
@[simp] theorem parseFields_u16 (v : BitVec 16) (zs : List FieldSize) (bs : List Byte) :
    parseFields (.u16 :: zs) (bytes16 v ++ bs) = (parseFields zs bs).map (fun vs => (v.toNat : Int) :: vs) := by
  simp [bytes16, parseFields, takeField]

/-- A four-byte field. -/
@[simp] theorem parseFields_u32 (v : Word) (zs : List FieldSize) (bs : List Byte) :
    parseFields (.u32 :: zs) (bytes32 v ++ bs) = (parseFields zs bs).map (fun vs => (v.toNat : Int) :: vs) := by
  simp [bytes32, parseFields, takeField]

/-- A signed four-byte field. -/
@[simp] theorem parseFields_s32 (v : Word) (zs : List FieldSize) (bs : List Byte) :
    parseFields (.s32 :: zs) (bytes32 v ++ bs) = (parseFields zs bs).map (fun vs => v.toInt :: vs) := by
  simp [bytes32, parseFields, takeField]

/-- A body that is one two-byte field. -/
@[simp] theorem parseFields_only16 (v : BitVec 16) : parseFields [.u16] (bytes16 v) = some [(v.toNat : Int)] := by
  simpa using parseFields_u16 v [] []

/-- A body that is one four-byte field. -/
@[simp] theorem parseFields_only32 (v : Word) : parseFields [.u32] (bytes32 v) = some [(v.toNat : Int)] := by
  simpa using parseFields_u32 v [] []

end Sys2Proof.Machine
end

