-- ==== Sys2Proof/WellFormed.lean ====
section
/-! DEFINITION. When a command's operands are ones the line can bring: fields of frames in their ranges (R178, R203, R204) and input
voltages in a range around what the converter reads (R27). The machine takes ill-formed commands too, and says what they come to. -/

namespace Sys2Proof

/-- The ready field is 0 or 1 (R178). -/
def wfReadyField (f : Byte) : Bool := f == 0 || f == 1

/-- The labeller code is 1 to 255 (R178). -/
def wfLabellerCode (c : Byte) : Bool := c != 0

/-- The kind of a request frame is 0x01 to 0x3F (R203, R204). -/
def wfRequestKind (k : Byte) : Bool := decide (0x01 ≤ k ∧ k ≤ 0x3F)

/-- The body of a frame is at most 1022 bytes (Table 65). -/
def wfBody (b : List Byte) : Bool := decide (b.length ≤ 1022)

/-- An input voltage is at most 10 V on either side, in units of 5 V / 4095 (R27; assumption log 7). -/
def wfVoltage (v : Int) : Bool := decide (-8190 ≤ v ∧ v ≤ 8190)

/-- The command's operands are well formed. -/
def WellFormed : Instr → Bool
  | .ready f => wfReadyField f
  | .fault _ c => wfLabellerCode c
  | .requestReceived k _ b => wfRequestKind k && wfBody b
  | .conversionComplete v => v.toList.all wfVoltage
  | .powerOn _ _ | .resetLine | .eStopActive | .eStopInactive | .encForwardStep _ | .encReverseStep | .ieLeadingEdge _
  | .ieTrailingEdge | .seLeadingEdge | .seTrailingEdge | .processingComplete | .resumptionRunEnd | .lugPulse _ _
  | .landingEdge _ | .binEmptyActive _ | .sawPulseEnd | .transferPulseEnd | .dumpPulseEnd _ | .printSent | .accept _
  | .applied _ | .acceptTimerExpiry | .appliedTimerExpiry | .labelFrameError _ | .labelFrameGap _ | .linkFrameGap _
  | .linkFrameError _ | .frameSent | .clockSecond | .unknownRequest | .identify | .status | .configure | .readConfig
  | .start | .drain | .infeedHold | .noticeMask | .setClock | .setLot | .recipeBegin | .recipePut | .recipeCommit
  | .recipeSwitch | .recipeRead | .answer | .readStrip | .readCutting | .readBin | .binHold | .closeBundle | .labelRetry
  | .labelVoid | .readLabels | .profileResume | .toolSet | .readTools | .readFault | .clearFault | .readReturns
  | .binEmptyInactive _ | .resetPinAsserted => true

end Sys2Proof
end

