-- ==== Sys2Proof/Laws/PerInstr.lean ====
section
/-! SUPPORT. The family of statements made per command: WellFormed says of each command exactly what the fields of its frame, or the
range of its inputs, allow (R27, R178, R203, R204). -/

set_option Elab.async false

namespace Sys2Proof.Laws.Operands

/-- The operands of a command lie in the ranges its rule gives them. -/
def InRange : Instr → Prop
  | .ready f => f.toNat ≤ 1
  | .fault _ c => 1 ≤ c.toNat
  | .requestReceived k _ b => (1 ≤ k.toNat ∧ k.toNat ≤ 63) ∧ b.length ≤ 1022
  | .conversionComplete v => ∀ x ∈ v.toList, -8190 ≤ x ∧ x ≤ 8190
  | .powerOn _ _ | .resetLine | .eStopActive | .eStopInactive | .encForwardStep _ | .encReverseStep
  | .ieLeadingEdge _ | .ieTrailingEdge | .seLeadingEdge | .seTrailingEdge | .processingComplete | .resumptionRunEnd
  | .lugPulse _ _ | .landingEdge _ | .binEmptyActive _ | .sawPulseEnd | .transferPulseEnd | .dumpPulseEnd _
  | .printSent | .accept _ | .applied _ | .acceptTimerExpiry | .appliedTimerExpiry | .labelFrameError _
  | .labelFrameGap _ | .linkFrameGap _ | .linkFrameError _ | .frameSent | .clockSecond | .unknownRequest | .identify
  | .status | .configure | .readConfig | .start | .drain | .infeedHold | .noticeMask | .setClock | .setLot
  | .recipeBegin | .recipePut | .recipeCommit | .recipeSwitch | .recipeRead | .answer | .readStrip | .readCutting
  | .readBin | .binHold | .closeBundle | .labelRetry | .labelVoid | .readLabels | .profileResume | .toolSet
  | .readTools | .readFault | .clearFault | .readReturns | .binEmptyInactive _ | .resetPinAsserted => True

/-- The check and the ranges agree for the command. -/
def Statement (i : Instr) : Prop := WellFormed i = true ↔ InRange i

theorem powerOn (estop : Bool) (binEmpty : BitVec 8) : Statement (.powerOn estop binEmpty) :=
  by simp [Statement, InRange, WellFormed]
theorem resetLine : Statement .resetLine := by simp [Statement, InRange, WellFormed]
theorem eStopActive : Statement .eStopActive := by simp [Statement, InRange, WellFormed]
theorem eStopInactive : Statement .eStopInactive := by simp [Statement, InRange, WellFormed]
theorem encForwardStep (gate : GateSample) : Statement (.encForwardStep gate) := by simp [Statement, InRange, WellFormed]
theorem encReverseStep : Statement .encReverseStep := by simp [Statement, InRange, WellFormed]
theorem ieLeadingEdge (gate : GateSample) : Statement (.ieLeadingEdge gate) := by simp [Statement, InRange, WellFormed]
theorem ieTrailingEdge : Statement .ieTrailingEdge := by simp [Statement, InRange, WellFormed]
theorem seLeadingEdge : Statement .seLeadingEdge := by simp [Statement, InRange, WellFormed]
theorem seTrailingEdge : Statement .seTrailingEdge := by simp [Statement, InRange, WellFormed]
theorem conversionComplete (inputs : Vector Int 16) : Statement (.conversionComplete inputs) := by
  simp only [Statement, InRange, WellFormed, wfVoltage, List.all_eq_true, decide_eq_true_eq]
theorem processingComplete : Statement .processingComplete := by simp [Statement, InRange, WellFormed]
theorem resumptionRunEnd : Statement .resumptionRunEnd := by simp [Statement, InRange, WellFormed]
theorem lugPulse (present : Bool) (lengthFault : Bool) : Statement (.lugPulse present lengthFault) :=
  by simp [Statement, InRange, WellFormed]
theorem landingEdge (bin : Bin) : Statement (.landingEdge bin) := by simp [Statement, InRange, WellFormed]
theorem binEmptyActive (bin : Bin) : Statement (.binEmptyActive bin) := by simp [Statement, InRange, WellFormed]
theorem sawPulseEnd : Statement .sawPulseEnd := by simp [Statement, InRange, WellFormed]
theorem transferPulseEnd : Statement .transferPulseEnd := by simp [Statement, InRange, WellFormed]
theorem dumpPulseEnd (bin : Bin) : Statement (.dumpPulseEnd bin) := by simp [Statement, InRange, WellFormed]
theorem ready (field : Byte) : Statement (.ready field) := by
  show (field == 0 || field == 1) = true ↔ field.toNat ≤ 1
  rw [Bool.or_eq_true, beq_iff_eq, beq_iff_eq, BitVec.toNat_inj.symm, BitVec.toNat_inj.symm]
  simp; omega
theorem printSent : Statement .printSent := by simp [Statement, InRange, WellFormed]
theorem accept (sequence : Word) : Statement (.accept sequence) := by simp [Statement, InRange, WellFormed]
theorem applied (sequence : Word) : Statement (.applied sequence) := by simp [Statement, InRange, WellFormed]
theorem fault (sequence : Word) (code : Byte) : Statement (.fault sequence code) := by
  show (code != 0) = true ↔ 1 ≤ code.toNat
  rw [bne_iff_ne, ne_eq, BitVec.toNat_inj.symm]
  simp; omega
theorem acceptTimerExpiry : Statement .acceptTimerExpiry := by simp [Statement, InRange, WellFormed]
theorem appliedTimerExpiry : Statement .appliedTimerExpiry := by simp [Statement, InRange, WellFormed]
theorem labelFrameError (bytes : List Byte) : Statement (.labelFrameError bytes) :=
  by simp [Statement, InRange, WellFormed]
theorem labelFrameGap (bytes : List Byte) : Statement (.labelFrameGap bytes) := by simp [Statement, InRange, WellFormed]
theorem linkFrameGap (bytes : List Byte) : Statement (.linkFrameGap bytes) := by simp [Statement, InRange, WellFormed]
theorem linkFrameError (bytes : List Byte) : Statement (.linkFrameError bytes) :=
  by simp [Statement, InRange, WellFormed]
theorem requestReceived (kind : Byte) (tag : Byte) (body : List Byte) : Statement (.requestReceived kind tag body) := by
  simp [Statement, InRange, WellFormed, wfRequestKind, wfBody, BitVec.le_def]
theorem frameSent : Statement .frameSent := by simp [Statement, InRange, WellFormed]
theorem clockSecond : Statement .clockSecond := by simp [Statement, InRange, WellFormed]
theorem unknownRequest : Statement .unknownRequest := by simp [Statement, InRange, WellFormed]
theorem identify : Statement .identify := by simp [Statement, InRange, WellFormed]
theorem status : Statement .status := by simp [Statement, InRange, WellFormed]
theorem configure : Statement .configure := by simp [Statement, InRange, WellFormed]
theorem readConfig : Statement .readConfig := by simp [Statement, InRange, WellFormed]
theorem start : Statement .start := by simp [Statement, InRange, WellFormed]
theorem drain : Statement .drain := by simp [Statement, InRange, WellFormed]
theorem infeedHold : Statement .infeedHold := by simp [Statement, InRange, WellFormed]
theorem noticeMask : Statement .noticeMask := by simp [Statement, InRange, WellFormed]
theorem setClock : Statement .setClock := by simp [Statement, InRange, WellFormed]
theorem setLot : Statement .setLot := by simp [Statement, InRange, WellFormed]
theorem recipeBegin : Statement .recipeBegin := by simp [Statement, InRange, WellFormed]
theorem recipePut : Statement .recipePut := by simp [Statement, InRange, WellFormed]
theorem recipeCommit : Statement .recipeCommit := by simp [Statement, InRange, WellFormed]
theorem recipeSwitch : Statement .recipeSwitch := by simp [Statement, InRange, WellFormed]
theorem recipeRead : Statement .recipeRead := by simp [Statement, InRange, WellFormed]
theorem answer : Statement .answer := by simp [Statement, InRange, WellFormed]
theorem readStrip : Statement .readStrip := by simp [Statement, InRange, WellFormed]
theorem readCutting : Statement .readCutting := by simp [Statement, InRange, WellFormed]
theorem readBin : Statement .readBin := by simp [Statement, InRange, WellFormed]
theorem binHold : Statement .binHold := by simp [Statement, InRange, WellFormed]
theorem closeBundle : Statement .closeBundle := by simp [Statement, InRange, WellFormed]
theorem labelRetry : Statement .labelRetry := by simp [Statement, InRange, WellFormed]
theorem labelVoid : Statement .labelVoid := by simp [Statement, InRange, WellFormed]
theorem readLabels : Statement .readLabels := by simp [Statement, InRange, WellFormed]
theorem profileResume : Statement .profileResume := by simp [Statement, InRange, WellFormed]
theorem toolSet : Statement .toolSet := by simp [Statement, InRange, WellFormed]
theorem readTools : Statement .readTools := by simp [Statement, InRange, WellFormed]
theorem readFault : Statement .readFault := by simp [Statement, InRange, WellFormed]
theorem clearFault : Statement .clearFault := by simp [Statement, InRange, WellFormed]
theorem readReturns : Statement .readReturns := by simp [Statement, InRange, WellFormed]
theorem binEmptyInactive (bin : Bin) : Statement (.binEmptyInactive bin) := by simp [Statement, InRange, WellFormed]
theorem resetPinAsserted : Statement .resetPinAsserted := by simp [Statement, InRange, WellFormed]

end Sys2Proof.Laws.Operands
end

