-- ==== Sys2Proof/Laws/Tracking.lean ====
section
/-! SUPPORT. What the operations that lose strips and free cuttings leave alone: the counters and the mark, the line state, the profile, the
configuration, the generation counter; and that they never lengthen a table. -/

set_option Elab.async false

namespace Sys2Proof.Machine

/-- The step from s to t moves no counter, leaves the line state, the causes NOT_RUN, DRAIN, HOST and PROFILE, the next strip number, the profile, the
configuration and the generation counter, and lengthens none of the strip table, the Cutting Table, the deck and the fire list. -/
structure TrackingOnly (s t : State) : Prop where
  eq : t = { s with
    motion := { s.motion with events := t.motion.events }
    line := { s.line with holds := { t.line.holds with
      notRun := s.line.holds.notRun, drain := s.line.holds.drain, host := s.line.holds.host, profile := s.line.holds.profile } }
    belt := { s.belt with strips := t.belt.strips }
    scan := t.scan, planner := t.planner, saw := t.saw, grade := t.grade, referral := t.referral, cuttings := t.cuttings
    chain := t.chain, bundles := t.bundles, label := t.label, recipe := t.recipe, link := t.link }
  counter : t.recipe.counter = s.recipe.counter
  labels : s.label.queue.length ≤ Config.labelCapacity → t.label.queue.length ≤ Config.labelCapacity
  link : LinkGrows s.link t.link
  strips : t.belt.strips.length ≤ s.belt.strips.length
  cuttings : t.cuttings.length ≤ s.cuttings.length
  deck : t.chain.deck.length ≤ s.chain.deck.length
  entries : t.saw.entries.length ≤ s.saw.entries.length

theorem TrackingOnly.refl (s : State) : TrackingOnly s s :=
  ⟨rfl, rfl, id, LinkGrows.refl _, Nat.le_refl _, Nat.le_refl _, Nat.le_refl _, Nat.le_refl _⟩

theorem TrackingOnly.trans {a b c : State} (h : TrackingOnly a b) (k : TrackingOnly b c) : TrackingOnly a c :=
  ⟨by rw [k.eq, h.eq], k.counter.trans h.counter, fun x => k.labels (h.labels x), h.link.trans k.link, k.strips.trans h.strips,
    k.cuttings.trans h.cuttings, k.deck.trans h.deck, k.entries.trans h.entries⟩

theorem BinsOnly.trackingOnly {s t : State} (h : BinsOnly s t) : TrackingOnly s t := by
  obtain ⟨e, c, l, g⟩ := h
  rw [e]
  exact ⟨rfl, c, l, g, Nat.le_refl _, Nat.le_refl _, Nat.le_refl _, Nat.le_refl _⟩

theorem GradingOnly.trackingOnly {s t : State} (h : GradingOnly s t) : TrackingOnly s t := by
  obtain ⟨e, n, g⟩ := h
  rw [e]
  exact ⟨rfl, rfl, id, g, Nat.le_refl _, n.le, Nat.le_refl _, Nat.le_refl _⟩

theorem ReferralsOnly.trackingOnly {s t : State} (h : ReferralsOnly s t) : TrackingOnly s t := h.gradingOnly.trackingOnly

theorem LinkOnly.trackingOnly {s t : State} (h : LinkOnly s t) : TrackingOnly s t := h.binsOnly.trackingOnly

/-- Steps of this kind, taken one after another, are a step of this kind. -/
theorem foldl_trackingOnly {α : Type} (f : State → α → State) (h : ∀ s x, TrackingOnly s (f s x)) (l : List α) (s : State) :
    TrackingOnly s (l.foldl f s) := by
  induction l generalizing s with
  | nil => exact TrackingOnly.refl s
  | cons x l ih => exact (h s x).trans (ih _)

/-! ### Small updates -/

theorem mapStrip_trackingOnly (n : Nat) (f : Strip → Strip) (s : State) : TrackingOnly s (mapStrip n f s) :=
  ⟨rfl, rfl, id, LinkGrows.refl _, by simp [mapStrip], Nat.le_refl _, Nat.le_refl _, Nat.le_refl _⟩

theorem mapCutting_trackingOnly (id : CuttingId) (f : Cutting → Cutting) (s : State) : TrackingOnly s (mapCutting id f s) :=
  (mapCutting_gradingOnly id f s).trackingOnly

theorem withdraw_trackingOnly (p : EventKind → Bool) (s : State) : TrackingOnly s (withdraw p s) :=
  ⟨rfl, rfl, id, LinkGrows.refl _, Nat.le_refl _, Nat.le_refl _, Nat.le_refl _, Nat.le_refl _⟩

theorem addEvent_trackingOnly (p : Word) (k : EventKind) (s : State) : TrackingOnly s (addEvent p k s) :=
  ⟨rfl, rfl, id, LinkGrows.refl _, Nat.le_refl _, Nat.le_refl _, Nat.le_refl _, Nat.le_refl _⟩

theorem mapStore_trackingOnly (i : StoreId) (f : Store → Store) (s : State) : TrackingOnly s (mapStore i f s) := by
  cases i <;> exact ⟨rfl, rfl, id, LinkGrows.refl _, Nat.le_refl _, Nat.le_refl _, Nat.le_refl _, Nat.le_refl _⟩

theorem leavePlannerQueue_trackingOnly (n : Nat) (s : State) : TrackingOnly s (leavePlannerQueue n s) :=
  ⟨rfl, rfl, id, LinkGrows.refl _, Nat.le_refl _, Nat.le_refl _, Nat.le_refl _, Nat.le_refl _⟩

theorem setEntries_trackingOnly (l : List FireEntry) (s : State) (h : l.length ≤ s.saw.entries.length) :
    TrackingOnly s (setEntries l s) :=
  ⟨rfl, rfl, id, LinkGrows.refl _, Nat.le_refl _, Nat.le_refl _, Nat.le_refl _, h⟩

theorem writeReturn_trackingOnly (o : ReturnObject) (why : ReturnReason) (p : Place) (s : State) :
    TrackingOnly s (writeReturn o why p s) :=
  ⟨rfl, rfl, id, LinkGrows.refl _, Nat.le_refl _, Nat.le_refl _, Nat.le_refl _, Nat.le_refl _⟩

theorem copyPreFlush_trackingOnly (s : State) : TrackingOnly s (copyPreFlush s) :=
  ⟨rfl, rfl, id, LinkGrows.refl _, Nat.le_refl _, Nat.le_refl _, Nat.le_refl _, Nat.le_refl _⟩

/-- The causes that the tracking itself sets and clears (Table 7) may change within it. -/
theorem mapHolds_trackingOnly (f : HoldSet → HoldSet) (s : State)
    (h : ∀ x, (f x).notRun = x.notRun ∧ (f x).drain = x.drain ∧ (f x).host = x.host ∧ (f x).profile = x.profile) :
    TrackingOnly s (mapHolds f s) := by
  obtain ⟨a, b, c, d⟩ := h s.line.holds
  refine ⟨?_, rfl, id, LinkGrows.refl _, Nat.le_refl _, Nat.le_refl _, Nat.le_refl _, Nat.le_refl _⟩
  simp only [mapHolds, ← a, ← b, ← c, ← d]

/-! ### Strips and cuttings leave -/

theorem returnStrip_trackingOnly (r : Strip) (s : State) : TrackingOnly s (returnStrip r s) := by
  unfold returnStrip
  split
  · split
    · exact writeReturn_trackingOnly _ _ _ s
    · exact TrackingOnly.refl s
  · exact TrackingOnly.refl s

theorem freeStore_trackingOnly (n : Nat) (s : State) : TrackingOnly s (freeStore n s) := by
  unfold freeStore
  split
  · exact TrackingOnly.refl s
  · exact (mapStore_trackingOnly _ _ s).trans (mapStrip_trackingOnly _ _ _)

theorem keepStrips_trackingOnly (p : Strip → Bool) (s : State) :
    TrackingOnly s { s with belt := { s.belt with strips := s.belt.strips.filter p } } :=
  ⟨rfl, rfl, id, LinkGrows.refl _, List.length_filter_le _ _, Nat.le_refl _, Nat.le_refl _, Nat.le_refl _⟩

theorem keepCuttings_trackingOnly (p : Cutting → Bool) (s : State) :
    TrackingOnly s { s with cuttings := s.cuttings.filter p } :=
  ⟨rfl, rfl, id, LinkGrows.refl _, Nat.le_refl _, List.length_filter_le _ _, Nat.le_refl _, Nat.le_refl _⟩

/-- A strip that leaves the table takes nothing along but what R17 names. -/
theorem dropStrip_trackingOnly (n : Nat) (s : State) : TrackingOnly s (dropStrip n s) := by
  unfold dropStrip
  split
  · exact TrackingOnly.refl s
  · refine ((((freeStore_trackingOnly n s).trans (withdraw_trackingOnly _ _)).trans (keepStrips_trackingOnly _ _)).trans
      (returnStrip_trackingOnly _ _)).trans (TrackingOnly.trans (mapHolds_trackingOnly _ _ ?_) (unbindStrip_binsOnly _ _).trackingOnly)
    exact fun _ => ⟨rfl, rfl, rfl, rfl⟩

theorem leaveIfLast_trackingOnly (n : Nat) (s : State) : TrackingOnly s (leaveIfLast n s) := by
  unfold leaveIfLast
  split
  · exact TrackingOnly.refl s
  · split
    · exact dropStrip_trackingOnly n s
    · exact TrackingOnly.refl s

theorem leaveAfterTransfer_trackingOnly (n : Nat) (s : State) : TrackingOnly s (leaveAfterTransfer n s) := by
  unfold leaveAfterTransfer
  split
  · exact dropStrip_trackingOnly n s
  · exact TrackingOnly.refl s

/-- The freeing of a cutting's record (R131). -/
theorem freeRecord_trackingOnly (landed : Bool) (id : CuttingId) (s : State) : TrackingOnly s (freeRecord landed id s) := by
  unfold freeRecord
  split
  · exact TrackingOnly.refl s
  · have h : ∀ t, TrackingOnly t (if Config.recordsFloor ≤ freeRecords t then mapHolds (fun h => { h with records := false }) t else t) := by
      intro t
      split
      · exact mapHolds_trackingOnly _ _ (fun _ => ⟨rfl, rfl, rfl, rfl⟩)
      · exact TrackingOnly.refl t
    exact (((((abandonRuns_gradingOnly id s).trackingOnly.trans (withdraw_trackingOnly _ _)).trans
      (releaseReservation_binsOnly _ _ _).trackingOnly).trans (keepCuttings_trackingOnly _ _)).trans (h _)).trans
      ((unbindCutting_binsOnly _ _).trackingOnly.trans (leaveIfLast_trackingOnly _ _))

/-- The freeing of several cuttings in one event (R126, R131). -/
theorem freeCuttings_trackingOnly (ids : List CuttingId) (s : State) : TrackingOnly s (freeCuttings ids s) := by
  unfold freeCuttings
  exact ((foldl_trackingOnly _ (fun s id => (endReferral_referralsOnly id _ s).trackingOnly) ids s).trans
    (promoteAll_referralsOnly _).trackingOnly).trans
    (foldl_trackingOnly _ (fun s id => freeRecord_trackingOnly false id s) ids _)

/-- The loss of a strip, its cuttings apart (R22). -/
theorem loseMark_trackingOnly (why : StripReason) (s : State) (n : Nat) : TrackingOnly s (loseMark why s n) := by
  unfold loseMark
  refine ((((withdraw_trackingOnly _ s).trans (setEntries_trackingOnly _ _ ?_)).trans (leavePlannerQueue_trackingOnly n _)).trans
    (freeStore_trackingOnly n _)).trans ((withdraw_trackingOnly _ _).trans (mapStrip_trackingOnly _ _ _))
  exact List.length_filter_le _ _

/-- The loss of several strips in one event (R22). -/
theorem loseStrips_trackingOnly (why : StripReason) (ns : List Nat) (s : State) : TrackingOnly s (loseStrips why ns s) := by
  unfold loseStrips
  exact (foldl_trackingOnly _ (loseMark_trackingOnly why) ns s).trans (freeCuttings_trackingOnly _ _)

theorem stripNotice_linkOnly (n : Nat) (why : StripReason) (st : StripState) (s : State) :
    LinkOnly s (stripNotice n why st s) := offer_linkOnly _ _

/-- A window end with the window open (R21). -/
theorem missEdge_trackingOnly (n : Nat) (p : Word) (s : State) : TrackingOnly s (missEdge n p s) := by
  unfold missEdge
  exact ((loseStrips_trackingOnly _ _ s).trans (stripNotice_linkOnly _ _ _ _).trackingOnly).trans
    (logFault_linkOnly _ _ _ _ _ _).trackingOnly

/-- A planning deadline missed, its LINE notice and the next processing apart (R75). -/
theorem missDeadline_trackingOnly (n : Nat) (s : State) : TrackingOnly s (missDeadline n s) := by
  have h : ∀ t, TrackingOnly t (abandonPlanning n t) := by
    intro t
    unfold abandonPlanning
    split
    · exact freeCuttings_trackingOnly _ t
    · exact leavePlannerQueue_trackingOnly n t
  unfold missDeadline
  exact ((((mapStrip_trackingOnly _ _ s).trans (stripNotice_linkOnly _ _ _ _).trackingOnly).trans (h _)).trans
    (withdraw_trackingOnly _ _)).trans (freeStore_trackingOnly n _)

/-- A removal position taken (R17). -/
theorem takeRemoval_trackingOnly (n : Nat) (s : State) : TrackingOnly s (takeRemoval n s) := by
  unfold takeRemoval
  split
  · exact dropStrip_trackingOnly n s
  · exact mapStrip_trackingOnly _ _ s

/-- A fire entry taken (R94). -/
theorem takeFire_trackingOnly (n l : Nat) (s : State) : TrackingOnly s (takeFire n l s) := by
  unfold takeFire
  split
  · exact TrackingOnly.refl s
  · rename_i e _
    have h : TrackingOnly s { s with saw := { entries := s.saw.entries.erase e, lastFire := some e.tick, high := true } } :=
      ⟨rfl, rfl, id, LinkGrows.refl _, Nat.le_refl _, Nat.le_refl _, Nat.le_refl _, List.length_erase_le⟩
    exact (h.trans (mapStrip_trackingOnly _ _ _)).trans
      (foldl_trackingOnly _ (fun s id => mapCutting_trackingOnly id _ s) _ _)

/-! ### The end of a hold -/

theorem enterBin_binsOnly (e : BundleEvent) (b : Bin) (st : BinState) (s : State) : BinsOnly s (enterBin e b st s) := by
  unfold enterBin
  dsimp only
  split
  · exact mapBin_binsOnly b _ s
  · exact (mapBin_binsOnly b _ s).trans (bundleNotice_linkOnly _ _ _ _ _).binsOnly

/-- The tests a hold deferred (R169). -/
theorem deferredTests_binsOnly (b : Bin) (s : State) : BinsOnly s (deferredTests b s) := by
  unfold deferredTests
  split
  · exact BinsOnly.refl s
  · split
    · exact closeTest_binsOnly b s
    · split
      · exact discardBundle_binsOnly b _ s
      · split
        · exact closeTest_binsOnly b s
        · exact closeShort_binsOnly b _ s

/-- The end of a hold (R169). -/
theorem endHold_binsOnly (b : Bin) (u : Underlying) (s : State) : BinsOnly s (endHold b u s) :=
  retireAfter_binsOnly b _ s ((enterBin_binsOnly _ b _ s).trans (deferredTests_binsOnly b _))

end Sys2Proof.Machine
end

