-- ==== Sys2Proof/Laws/Planning.lean ====
section
/-! SUPPORT. What the processing of a strip can do before its completion (R70 to R72): it allocates cutting records and runs them through the
planning path, and leaves everything but those records, their bank's count, the cause RECORDS, the referrals and the planner alone. -/

set_option Elab.async false

namespace Sys2Proof.Machine

/-- The step from s to t is the work of a processing of strip n: of the line only the cause RECORDS may change, cutting records of other strips
stay, no record leaves the Cutting Table, which keeps to its capacity, and the generation counter stays. -/
structure PlanningOnly (n : Nat) (s t : State) : Prop where
  eq : t = { s with
    line := { s.line with holds := { s.line.holds with records := t.line.holds.records } }
    planner := t.planner, referral := t.referral, cuttings := t.cuttings, recipe := t.recipe, link := t.link
    freeCount := t.freeCount }
  counter : t.recipe.counter = s.recipe.counter
  link : LinkGrows s.link t.link
  others : ∀ c ∈ s.cuttings, c.id.strip ≠ n → c ∈ t.cuttings
  bounded : s.cuttings.length ≤ Config.cuttingCapacity → t.cuttings.length ≤ Config.cuttingCapacity
  grows : s.cuttings.length ≤ t.cuttings.length

theorem PlanningOnly.refl (n : Nat) (s : State) : PlanningOnly n s s :=
  ⟨rfl, rfl, LinkGrows.refl _, fun _ h _ => h, id, Nat.le_refl _⟩

theorem PlanningOnly.trans {n : Nat} {a b c : State} (h : PlanningOnly n a b) (k : PlanningOnly n b c) : PlanningOnly n a c :=
  ⟨by rw [k.eq, h.eq], k.counter.trans h.counter, h.link.trans k.link, fun x hx hn => k.others x (h.others x hx hn) hn,
    fun x => k.bounded (h.bounded x), Nat.le_trans h.grows k.grows⟩

theorem LinkOnly.planningOnly {s t : State} (h : LinkOnly s t) (n : Nat) : PlanningOnly n s t := by
  obtain ⟨e, g⟩ := h
  rw [e]
  exact ⟨rfl, rfl, g, fun _ h _ => h, id, Nat.le_refl _⟩

theorem ReferralsOnly.planningOnly {s t : State} (h : ReferralsOnly s t) (n : Nat) : PlanningOnly n s t := by
  obtain ⟨e, g⟩ := h
  rw [e]
  exact ⟨rfl, rfl, g, fun _ h _ => h, id, Nat.le_refl _⟩

theorem foldl_planningOnly {α : Type} {n : Nat} (f : State → α → State) (l : List α) (h : ∀ s, ∀ x ∈ l, PlanningOnly n s (f s x))
    (s : State) : PlanningOnly n s (l.foldl f s) := by
  induction l generalizing s with
  | nil => exact PlanningOnly.refl n s
  | cons x l ih =>
    exact (h s x (by simp)).trans (ih (fun s y hy => h s y (by simp [hy])) _)

/-- A change of a cutting record of strip n. -/
theorem mapCutting_planningOnly (id : CuttingId) (f : Cutting → Cutting) (s : State) : PlanningOnly id.strip s (mapCutting id f s) := by
  refine ⟨rfl, rfl, LinkGrows.refl _, fun c hc hn => ?_, fun h => by simpa [mapCutting] using h, by simp [mapCutting]⟩
  exact List.mem_map.mpr ⟨c, hc, by simp [show c.id ≠ id from fun e => hn (by rw [e])]⟩

/-- An allocation (R129, R132): a record joins the table if one is free. -/
theorem allocate_planningOnly (id : CuttingId) (nominal cls spanStart : Nat) (bank : BankId) (s : State) :
    PlanningOnly id.strip s (allocate id nominal cls spanStart bank s) := by
  unfold allocate
  split
  · exact PlanningOnly.refl _ s
  · rename_i h
    have hb : s.cuttings.length + 1 ≤ Config.cuttingCapacity := by
      unfold freeRecords at h
      omega
    have hg : ∀ x : Cutting, ∀ c ∈ s.cuttings, c ∈ s.cuttings ++ [x] := fun x c hc => List.mem_append_left _ hc
    dsimp only
    split
    · exact ⟨rfl, rfl, LinkGrows.refl _, fun c hc _ => hg _ c hc, fun _ => by simpa [mapHolds, mapBank] using hb,
        by simp [mapHolds, mapBank]⟩
    · exact ⟨rfl, rfl, LinkGrows.refl _, fun c hc _ => hg _ c hc, fun _ => by simpa [mapBank] using hb, by simp [mapBank]⟩

/-- An allocation calls for no drain test (R7): it takes no strip, no deck place and no lug. -/
theorem event_allocate (id : CuttingId) (nominal cls spanStart : Nat) (bank : BankId) (s : State) :
    event (allocate id nominal cls spanStart bank) s = lineNote s (allocate id nominal cls spanStart bank s) := by
  have h : ∀ t, t.belt = s.belt → t.chain = s.chain → (lugOccupancy s).length ≤ (lugOccupancy t).length → drainAfter s t = t := by
    intro t hb hc hl
    unfold drainAfter
    rw [if_neg]
    rw [hb, hc]
    omega
  have hl := lineNote_linkOnly s (allocate id nominal cls spanStart bank s)
  have hp := allocate_planningOnly id nominal cls spanStart bank s
  unfold event
  refine h _ ?_ ?_ ?_
  · rw [hl.eq, hp.eq]
  · rw [hl.eq, hp.eq]
  · rw [hl.eq]
    unfold allocate lugOccupancy
    split
    · exact Nat.le_refl _
    · dsimp only
      split <;> simp [mapHolds, mapBank]

theorem allocateAll_planningOnly (r : Strip) (l : List (PlannedCutting × Nat)) (s : State) :
    PlanningOnly r.number s (allocateAll r l s) := by
  induction l generalizing s with
  | nil => exact PlanningOnly.refl _ s
  | cons x l ih =>
    unfold allocateAll
    rw [event_allocate]
    have h := (allocate_planningOnly ⟨r.number, x.2⟩ x.1.nominal x.1.cls x.1.start.toNat r.bank s).trans
      ((lineNote_linkOnly s _).planningOnly _)
    exact h.trans (ih _)

theorem writeRun_planningOnly (c : Cutting) (e : RunEnd) (s : State) : PlanningOnly c.id.strip s (writeRun c e s) := by
  unfold writeRun
  split
  · exact mapCutting_planningOnly _ _ s
  · exact mapCutting_planningOnly _ _ s
  · exact ((raiseReferral_referralsOnly _ s).planningOnly _).trans (mapCutting_planningOnly _ _ _)

/-- A run of the planning path (R106). -/
theorem planningRun_planningOnly (id : CuttingId) (s : State) : PlanningOnly id.strip s (planningRun id s) := by
  unfold planningRun
  split
  · exact PlanningOnly.refl _ s
  · rename_i c h
    have hc : c.id = id := by simpa using List.find?_some h
    rw [← hc]
    exact writeRun_planningOnly c _ s

/-- Steps 3 to 5 of a processing, as far as they are taken (R72). -/
theorem workUpTo_planningOnly (r : Strip) (p : CutPlan) (w : Nat) (s : State) : PlanningOnly r.number s (workUpTo r p w s) := by
  have hw : ∀ (sl : List PassSlot) (l : List Nat) (t : State), PlanningOnly r.number t (l.foldl (writeFeatures r sl) t) :=
    fun sl l t => foldl_planningOnly _ l (fun s i _ => mapCutting_planningOnly ⟨r.number, i⟩ _ s) t
  have hg : ∀ (k d : Nat) (t : State), PlanningOnly r.number t
      ((((idsOf r.number (List.range p.cuttings.length)).take k).drop d).foldl (fun s id => planningRun id s) t) := by
    intro k d t
    refine foldl_planningOnly _ _ (fun s id hid => ?_) t
    obtain ⟨i, _, rfl⟩ := List.mem_map.mp (List.mem_of_mem_take (List.mem_of_mem_drop hid))
    exact planningRun_planningOnly ⟨r.number, i⟩ s
  have hs : ∀ (t : State) (f : Planner), PlanningOnly r.number t { t with planner := f } :=
    fun _ _ => ⟨rfl, rfl, LinkGrows.refl _, fun _ h _ => h, id, Nat.le_refl _⟩
  unfold workUpTo
  dsimp only
  split
  · exact (((allocateAll_planningOnly r _ s).trans (hw _ _ _)).trans (hg _ _ _)).trans (hs _ _)
  · exact ((allocateAll_planningOnly r _ s).trans (hg _ _ _)).trans (hs _ _)

/-- The beginning of a processing (R70): the planner holds it in flight, and its strip's record stands as it was. -/
theorem beginProcessing_planningOnly (n : Nat) (s : State) : PlanningOnly n s (beginProcessing n s) := by
  have h0 : ∀ (t : State) (f : Planner) (k : Nat), PlanningOnly n t { t with planner := f, freeCount := k } :=
    fun _ _ _ => ⟨rfl, rfl, LinkGrows.refl _, fun _ h _ => h, id, Nat.le_refl _⟩
  unfold beginProcessing
  dsimp only
  split
  · exact h0 s { s.planner with inFlight := some n, placed := 0, graded := 0 } s.freeCount
  · rename_i r h
    have hr : r.number = n := by simpa using List.find?_some h
    split
    · have hw := workUpTo_planningOnly r
      rw [hr] at hw
      exact (h0 s { s.planner with inFlight := some n, placed := 0, graded := 0 } (s.freeCount + 1)).trans (hw _ _ _)
    · exact h0 s { s.planner with inFlight := some n, placed := 0, graded := 0 } s.freeCount

/-- What the planner holds after work on its processing: the same processing and the same queue. -/
theorem workUpTo_planner (r : Strip) (p : CutPlan) (w : Nat) (s : State) :
    (workUpTo r p w s).planner = { s.planner with placed := min w p.cuttings.length, graded := min (w - p.cuttings.length) p.cuttings.length } := by
  have ha : ∀ (l : List (PlannedCutting × Nat)) (t : State), (allocateAll r l t).planner = t.planner := by
    intro l
    induction l with
    | nil => exact fun _ => rfl
    | cons x l ih =>
      intro t
      unfold allocateAll
      rw [ih, event_allocate, (lineNote_linkOnly _ _).eq]
      unfold allocate
      split
      · rfl
      · dsimp only
        split <;> rfl
  have hw : ∀ (sl : List PassSlot) (l : List Nat) (t : State), (l.foldl (writeFeatures r sl) t).planner = t.planner := by
    intro sl l
    induction l with
    | nil => exact fun _ => rfl
    | cons x l ih => exact fun t => (ih _).trans rfl
  have hg : ∀ (l : List CuttingId) (t : State), (l.foldl (fun s id => planningRun id s) t).planner = t.planner := by
    intro l
    induction l with
    | nil => exact fun _ => rfl
    | cons x l ih => exact fun t => (ih _).trans (by have h := congrArg State.planner (planningRun_gradingOnly x t).eq; exact h)
  unfold workUpTo
  dsimp only
  rw [hg]
  split
  · rw [hw, ha]
  · rw [ha]

theorem beginProcessing_planner (n : Nat) (s : State) :
    (beginProcessing n s).planner.inFlight = some n ∧ (beginProcessing n s).planner.queue = s.planner.queue := by
  unfold beginProcessing
  dsimp only
  split
  · exact ⟨rfl, rfl⟩
  · split
    · rw [workUpTo_planner]
      exact ⟨rfl, rfl⟩
    · exact ⟨rfl, rfl⟩

/-- The planner takes the next strip (R71). -/
theorem plannerNext_planner (s : State) :
    (plannerNext s).planner.inFlight = s.planner.queue.head? ∧ (plannerNext s).planner.queue = s.planner.queue.drop 1 := by
  unfold plannerNext
  split
  · rename_i h
    simp [h, Planner.idle]
  · rename_i m rest h
    simpa [h] using beginProcessing_planner m { s with planner := { s.planner with queue := rest } }

end Sys2Proof.Machine
end

