-- ==== Sys2Proof/Tests/Slice0.lean ====
section
/-! SUPPORT. Tests: each well-formedness check refuses a term; values and steps the chapters work out; and for each statement with hypotheses,
concrete states and operands that meet them, at the bounds of its clauses. -/

set_option Elab.async false

namespace Sys2Proof.Tests

open Sys2Proof Sys2Proof.Machine

/-! ### Well-formedness -/

theorem test_ready_field_of_two_is_ill_formed : WellFormed (.ready 2) = false := by decide
theorem test_labeller_code_of_zero_is_ill_formed : WellFormed (.fault 5 0) = false := by decide
theorem test_request_kind_of_a_reply_is_ill_formed : WellFormed (.requestReceived 0x40 0 []) = false := by decide
theorem test_request_kind_of_zero_is_ill_formed : WellFormed (.requestReceived 0 0 []) = false := by decide
theorem test_body_of_1023_bytes_is_ill_formed :
    WellFormed (.requestReceived 1 0 (List.replicate 1023 0)) = false := by decide +kernel
theorem test_voltage_beyond_ten_volts_is_ill_formed :
    WellFormed (.conversionComplete (Vector.replicate 16 8191)) = false := by decide
theorem test_good_operands_are_well_formed : WellFormed (.requestReceived 0x3F 9 [1, 2]) = true ∧ WellFormed (.ready 1) = true := by
  decide

/-- No row of the table gives bits, so no word spells a command. -/
theorem test_no_word_spells_a_command : decodeTableWord 8 5 = none ∧ State.reset.withFetchWord 8 5 = State.reset := by decide +kernel

/-! ### Helpers: small states -/

/-- The state a command leaves. -/
def after (c : Instr) (s : State) : State :=
  match exec c s with
  | .next t => t
  | .fault _ | .refused _ => s

/-- A MOTION section in the manner of the chapters' examples (K of 4.4, slip of 1.6). -/
def motionSection : MotionConfig :=
  { k := 13107, offSH := 20000, offSE := 40000, dSL := 1500, dXE := 2000, slip := 64, reverse := 200, dr := 80 }

/-- The lengths of the worked case of 4.4. -/
def lengthTable : List Nat := [250, 300, 400, 500, 600, 750, 900, 1200]

/-- The CUT section of the worked case of 4.4. -/
def cutSection : CutSection := { tl := 10, tt := 10, k := 4, g := 5, ae := 6, tc := 4, nominalWidth := 9000 }

/-- Bin 1's entry of the worked sequence of 8.9. -/
def binEntry : BinPlan :=
  { grade := 0, classLow := 0, classHigh := 7, ct := 500000, tolLo := 20000, tolHi := 30000, s := 400, pmax := 20, nmax := 20 }

/-- An ACTIVE bank with the lengths, the cut section and bin entry of the worked cases. -/
def activeRecipe : Bank :=
  { Bank.empty with
    state := .active
    generation := some 1
    cut := some cutSection
    lengths := some lengthTable
    grades := some [{ code := 11, first := 0, count := 0, verdict := 15 }]
    bins := some (Vector.replicate 8 binEntry)
    cover := some 90
    strips := 1
    cuttings := 1
    bundles := 1 }

/-- A line state with the hold causes that follow it. -/
def lineIn (l : LineState) : LineCtl :=
  { state := l, holds := { HoldSet.atPowerOn with notRun := !l.moving, drain := l == .drain }, estopLevel := l == .estop }

/-- A configuration with the MOTION section above. -/
def someConfig : Configuration :=
  { Configuration.atPowerOn with
    motion := motionSection
    scan := { count := 1, slots := Vector.replicate 16 0, pitch := 10, lag := 3, endExcl := 2 }
    deck := { high := 10, low := 5 }
    chain := { chainLen := 40, offTN := 4, offD := #v[8, 12, 16, 20, 24, 28, 32, 36] } }

/-- The part in a line state, with bank 0 ACTIVE and the travel counter at 1000. -/
def lineAt (l : LineState) : State :=
  { State.reset with
    motion := { travel := 1000, mark := 1000, lug := 7, events := [] }
    line := lineIn l
    config := someConfig
    inForce := someConfig
    recipe := { banks := #v[activeRecipe, Bank.empty], counter := 2 } }

/-- The same with a request waiting. -/
def asks (kind : Byte) (body : List Byte) (s : State) : State :=
  { s with link := { s.link with requests := [{ kind, tag := 9, body }] } }

/-- The status of the last reply. -/
def lastStatus (s : State) : Option Status :=
  match s.link.tx.getLast? with
  | some (.reply r) => some r.status
  | _ => none

/-- Strip 1 in a state, with its lead at 100. -/
def stripIn (st : StripState) : Strip := { newStrip 1 0 100 with state := st }

/-- The part in RUN with a strip on the belt. -/
def withStrip (r : Strip) (s : State) : State := { s with belt := { strips := [r], nextNumber := r.number + 1 } }

/-- Cutting 0 of strip 1 in a state, graded with grade index 0 and 500 mm long (class 3). -/
def cuttingIn (st : CuttingState) : Cutting :=
  { newCutting 0 ⟨1, 0⟩ 500 3 14 0 with state := st, gradeStatus := .graded, grade := some (.index 0), gradeCode := some 11 }

/-- A bundle of bin 1 of the worked sequence of 8.9, with some pieces in it. -/
def someBundle (count landed : Nat) : Bundle :=
  { number := 5, bin := 0, bank := 0, generation := 1, gradeCode := 11, spec := binEntry, w := 90, count, coverage := 45000 * count,
    shortCoverage := 0, classCounts := Vector.replicate 12 0, landedCount := landed, landedCoverage := 45000 * landed,
    short := false, stray := false, closeSeq := none, closeTime := none, closure := none }

/-- The part in RUN with bin 1 in a state. -/
def withBin (st : BinState) (bu : Option Bundle) (s : State) : State :=
  { s with bundles := { s.bundles with bins := setAt s.bundles.bins 0 { state := st, bundle := bu, emptyLevel := false } } }

/-- A label of bundle 5 in bin 1. -/
def someLabel : LabelRecord := labelOf 0 { someBundle 1 1 with closeSeq := some 1, closeTime := some 0 }

/-- The part in RUN with a head label in a state. -/
def withHead (h : HeadState) (dumped : Bool) (s : State) : State :=
  { s with label := { s.label with queue := [someLabel], head := h, dumped } }

/-! ### Values the chapters work out -/

/-- 11.1: the CRC of the nine bytes 31 to 39 (hexadecimal), the check value of CRC-16 with 0x1021 and 0xFFFF. -/
theorem test_crc_of_the_nine_digits :
    crc16 [0x31, 0x32, 0x33, 0x34, 0x35, 0x36, 0x37, 0x38, 0x39] = 0x29B1 := by decide +kernel

/-- 4.4: 15035 ticks at K = 13107 are 3007 mm; and 2600 ticks are 520 mm in R78's other direction. -/
theorem test_ticks_and_mm : ticksToMm 13107 15035 = 3007 ∧ mmToTicks 13107 520 = 2600 ∧ mmToTicks 13107 80 = 400 := by decide +kernel

/-- 2.7: strip 40 of 95 ticks is 19 mm long. -/
theorem test_length_of_strip_forty : ticksToMm 13107 95 = 19 := by decide +kernel

/-- 9: coverage in label units. -/
theorem test_label_units : labelUnitsOf 486000 = 49 ∧ labelUnitsOf 475000 = 48 ∧ labelUnitsOf 474999 = 47 := by decide

/-- The plan input of strip 17 (4.4). -/
def strip17 : PlanInput :=
  { ls := 3007, clamp := none, zones := [⟨612, 640, 5⟩, ⟨1000, 1010, 2⟩, ⟨1452, 1474, 7⟩], cut := cutSection, lengths := lengthTable,
    dr := 80, pitchK := 13107, free := 128 }

/-- Table 30: the line list of strip 17. -/
theorem test_lines_of_strip_seventeen :
    (cutPlan strip17).lines.map (fun l => (l.pos, l.kind, l.offset, l.starts, l.ends)) =
      [(10, .trimLead, 50, some 0, none), (520, .separation, 2600, none, some 0), (607, .zoneStart, 3035, none, none),
       (687, .zoneEnd, 3435, some 1, none), (1447, .zoneStart, 7235, none, some 1), (1527, .zoneEnd, 7635, some 2, none),
       (2737, .separation, 13685, some 3, some 2), (2997, .trimTrail, 14985, none, some 3)] := by decide +kernel

/-- Table 29: the cuttings of strip 17. -/
theorem test_cuttings_of_strip_seventeen :
    (cutPlan strip17).cuttings = [⟨14, 500, 3⟩, ⟨691, 750, 5⟩, ⟨1531, 1200, 7⟩, ⟨2741, 250, 0⟩] := by decide +kernel

/-- 4.6: strip 31 takes 900 and 250. -/
theorem test_cuttings_of_strip_thirty_one :
    (cutPlan { strip17 with ls := 1300, zones := [] }).cuttings = [⟨14, 900, 6⟩, ⟨924, 250, 0⟩] := by decide +kernel

/-- The example bank of 5.8. -/
def gradingBank : Bank :=
  { Bank.empty with
    grades := some [⟨11, 0, 4, 8⟩, ⟨12, 4, 2, 12⟩, ⟨13, 6, 1, 12⟩]
    tests := Vector.ofFn (fun i : Fin 64 => ([⟨6, 0, 0, 0, 0, 0, 0, 0⟩, ⟨4, 0, 30, 0, 0, 1, 0, 0⟩, ⟨11, 2, 60, 90, 1, 0, 0, 2⟩,
      ⟨9, 1, 1, 0, 1, 1, 1, 1⟩, ⟨7, 0, 3, 0, 0, 0, 0, 0⟩, ⟨16, 1, 1, 0, 0, 1, 0, 2⟩,
      ⟨10, 0, 0, 0, 0, 0, 0, 0⟩] : List TestEntry)[i.val]?) }

/-- A cutting of 5.8 with its features of Table 40: LEN, DCOUNT, DSEVMAX, TSPREAD, MOIST; PROF and TOOL are 0. -/
def graded17 (len dcount dsev spread : Int) (moist : Option Int) : Cutting :=
  { cuttingIn .planned with
    features := #v[some len, none, none, none, some spread, none, some dcount, some dsev, none, some 0, some 0, moist, none, none] }

/-- Table 41: C0 takes grade 0 with code 11; C1 is referred at test 5 of grade 1; C3 at test 2 of grade 0. -/
theorem test_grading_of_strip_seventeen :
    firstRun gradingBank (graded17 500 0 0 22 (some 74)) = .graded 0 11 ∧
      firstRun gradingBank (graded17 750 1 2 18 (some 77)) = .suspended ⟨1, 5, true, true⟩ 16 ∧
      firstRun gradingBank (graded17 250 0 0 15 none) = .suspended ⟨0, 2, true, true⟩ 11 := by decide +kernel

/-- Table 24: the TONGUE spindle through a strip of 3007 mm, and through one that ends it. -/
theorem test_tool_life :
    (SpindleRecord.charge 3007 ⟨.live, 12, 2000, 10, 850⟩) = ⟨.live, 9, 2000, 10, 857⟩ ∧
      (SpindleRecord.charge 3500 ⟨.live, 3, 2000, 10, 871⟩) = ⟨.expired, 0, 2000, 10, 371⟩ := by decide

/-- Table 22: the ring through strip 311. -/
theorem test_drift_ring :
    let ring := [600, 602, 604, 606, 607, 607, 608, 608, 609, 609, 610, 610, 611, 611, 612, 614]
    driftOf ring 600 = 8 ∧ driftOf (pushRing 617 ring) 600 = 9 ∧ (pushRing 617 ring).sum = 9745 := by decide

/-- Table 20: the tongue mean of the example strip. -/
theorem test_tongue_mean : tongueMean [601, 612, 606, 609] = 607 := by decide

/-- 8.9: with 72,000 mm² short, a 300 mm piece is refused and a 250 mm piece would bring 94,500 and is admitted. -/
theorem test_short_share_of_bin_one :
    let s := withBin .opened (some { someBundle 4 4 with coverage := 180000, shortCoverage := 72000 }) (lineAt .run)
    admits s 0 0 1 1 300 = false ∧ admits s 0 0 1 0 250 = true ∧ admits s 0 0 1 7 1200 = true := by decide +kernel

/-! ### Steps -/

/-- R6: START in READY takes the line to RUN. -/
theorem test_start_runs : (after .start (asks 0x05 [] (lineAt .ready))).line.state = .run := by decide +kernel
/-- R7: DRAIN with nothing tracked takes the line to READY at once. -/
theorem test_drain_of_an_empty_line : (after .drain (asks 0x06 [] (lineAt .run))).line.state = .ready := by decide +kernel
/-- R10: INFEED HOLD 1 adds HOST, and INFEED ENABLE goes low. -/
theorem test_infeed_hold : infeedEnable (lineAt .run) = true ∧ infeedEnable (after .infeedHold (asks 0x08 [1] (lineAt .run))) = false := by
  decide +kernel
/-- R1: the counter wraps in both directions. -/
theorem test_travel_wraps :
    (after (.encForwardStep ⟨false, 0⟩) { lineAt .ready with motion := ⟨0xFFFFFFFF, 0xFFFFFFFF, 0, []⟩ }).motion.travel = 0 ∧
      (after .encReverseStep State.reset).motion.travel = 0xFFFFFFFF := by decide +kernel
/-- R15: strip number 16,777,215 is followed by 1. -/
theorem test_strip_numbers_wrap :
    (after (.ieLeadingEdge ⟨false, 0⟩) { lineAt .run with belt := ⟨[], 16777215⟩ }).belt.nextNumber = 1 := by decide +kernel
/-- R22, R26: E-STOP loses the tracking with a LINE and then a FLUSH notice. -/
theorem test_estop_notices :
    (after .eStopActive (withStrip (stripIn .scanning) (lineAt .run))).link.tx.map (fun f => match f with
      | .notice n => n.kindIndex
      | .reply _ => 99) = [0, 2] := by decide +kernel
/-- R206: an unassigned kind is UNKNOWN, and a body of another size is FRAME. -/
theorem test_unknown_and_frame :
    lastStatus (after .unknownRequest (asks 0x0C [] State.reset)) = some .unknown ∧
      lastStatus (after .start (asks 0x05 [1] (lineAt .ready))) = some .frame := by decide +kernel
/-- R197: the generation counter passes over the other bank's generation and from 65535 to 1. -/
theorem test_generation_counter :
    nextGeneration 65535 = 1 ∧ advanceCounter { Bank.empty with state := .valid, generation := some 1 } 65535 = 2 := by decide
/-- R58: PROFILE RESUME clears the count. -/
theorem test_profile_resume :
    (after .profileResume (asks 0x30 [] { lineAt .run with
      profile := { State.reset.profile with limitCount := 3 } })).profile.limitCount = 0 := by decide +kernel
/-- R188: bundle number 4,294,967,295 is followed by 1. -/
theorem test_bundle_numbers_wrap : nextBundleNumber 0xFFFFFFFF = 1 ∧ nextBundleNumber 7 = 8 := by decide
/-- R119: the tag after 255 is 1, and an OUTSTANDING tag is passed over. -/
theorem test_tags_go_round :
    tagAfter 255 = 1 ∧
      ({ outstanding := [], waiting := [], lastTag := some 255,
         memory := (Vector.replicate 255 none).set 0 (some ⟨⟨1, 0⟩, false⟩) } : ReferralUnit).nextTag = 2 := by decide +kernel
/-- R27: a code of 4095 is SATURATED, and its value is base + 4095 x span / 4096 rounded down. -/
theorem test_saturated_code :
    codeSaturated 4095 = true ∧ codeSaturated 4094 = false ∧
      valueOf { ChannelSetup.atPowerOn with base := -100, span := 10000 } 2048 = 4900 := by decide
/-- R181: in ESTOP an ACCEPT owes its dump. -/
theorem test_owed_dump :
    (after (.accept 5) (withHead .sent false (lineAt .estop))).label.owed[0] = true := by decide +kernel
/-- R155: BIN EMPTY in CLEARING opens the next bundle of the plan. -/
theorem test_bin_empty_opens :
    (after (.binEmptyActive 0) (withBin .clearing (some (someBundle 1 1)) (lineAt .run))).bundles.bins[0].state = .opened := by
  decide +kernel
/-- R144: a landing without a window is logged and flags the bundle. -/
theorem test_stray_landing :
    let t := after (.landingEdge 0) (withBin .opened (some (someBundle 1 1)) (lineAt .run))
    (t.bundles.bins[0].bundle.map Bundle.stray) = some true ∧ (t.link.chain.first.map FaultEntry.detail) = some (some 1) := by decide +kernel

/-! ### Witnesses: states and operands that meet the hypotheses of the statements -/

/-- The request of `asks`. -/
def request (kind : Byte) (body : List Byte) : Request := { kind, tag := 9, body }

/-- The state a step leaves. -/
def stepped (s : State) : State :=
  match step s with
  | .next t => t
  | .fault _ | .refused _ => s

/-- Events of strips 1 and 2 that lie ahead while one is due. -/
def aheadOf : EventKind → List PosEvent
  | .removal _ => [⟨1400, .seOpen 2⟩]
  | .seOpen _ | .seEnd _ => [⟨1400, .scanOpen 2⟩, ⟨1500, .removal 1⟩]
  | _ => [⟨1400, .seOpen 1⟩, ⟨1500, .removal 1⟩]

/-- The part in RUN with one registered event at the next step, and others ahead. -/
def dueIn (k : EventKind) (s : State) : State := { s with motion := { s.motion with events := ⟨1001, k⟩ :: aheadOf k } }

/-- ForwardStepTakesTheEventDue, ForwardStepMovesAStripOn, PassesAreTakenInOrder, ScanEndJudgesTheStrip: one event due, others ahead. -/
theorem test_hyps_only_due (k : EventKind) (s : State) : OnlyDue (dueIn k s) ⟨1001, k⟩ (aheadOf k) := by
  refine ⟨[], aheadOf k, rfl, rfl, ?_⟩
  cases k <;> simp [aheadOf] <;> decide

/-- A command waits. -/
def waiting (c : Instr) (s : State) : State := { s with pending := [c] }

/-- The gate reads low. -/
def gateLow : GateSample := ⟨false, 0⟩

/-- StepTakesTheFrontCommand, PowerOnAndTheResetPin. -/
theorem test_hyps_step_and_reset :
    (waiting .start (lineAt .run)).pending = .start :: [] ∧ State.reset.pending = [] ∧
      (after .resetPinAsserted (lineAt .run)).inReset = true ∧ isResetCommand .start = false := by decide +kernel

/-- OnlyStartEntersRun, OnlyTheirPulsesMoveTheCounters. -/
theorem test_hyps_line_rules :
    let s := asks 0x05 [] (lineAt .ready)
    let e := lineAt .estop
    exec .start s = .next (after .start s) ∧ s.line.state ≠ .run ∧ (after .start s).line.state = .run ∧
      exec .eStopInactive e = .next (after .eStopInactive e) ∧ e.line.state = .estop ∧ (after .eStopInactive e).line.state ≠ .estop ∧
      s.inReset = false ∧ exec .encReverseStep s = .next (after .encReverseStep s) ∧
      exec (.lugPulse true true) s = .next (after (.lugPulse true true) s) :=
  ⟨rfl, by decide +kernel, by decide +kernel, rfl, by decide +kernel, by decide +kernel, rfl, rfl, rfl⟩

/-- The part in RUN with an OPEN bundle at its limits, four referrals in their slots, and an IE edge to come. -/
def busy : State :=
  let q (i : Nat) : Referral :=
    { id := ⟨1, i⟩, context := ⟨0, 0, true, true⟩, feature := 16, spanStart := 14, spanEnd := 520, nominal := 500, stripLength := 3007,
      tag := some (i + 1), arose := 0 }
  waiting (.ieLeadingEdge gateLow)
    { withBin .opened (some { someBundle 20 0 with coverage := 530000, shortCoverage := 96000 }) (withStrip (stripIn .scanning) (lineAt .run)) with
      referral := { State.reset.referral with outstanding := [q 0, q 1, q 2, q 3], waiting := [q 4] } }

/-- HoldsAndMarkFollowTheLine, TablesAndQueuesStayBounded, NoReferralWaitsBesideAFreeSlot, BundlesStayWithinLimits, BanksKeepApart. -/
theorem test_hyps_invariants :
    HoldsFollowLine busy ∧ MarkAtRest busy ∧ QueuesBounded busy ∧ LabelsBounded busy ∧ TablesBounded busy ∧ ReferralsInOrder busy ∧
      BundlesWithinLimits busy ∧ BanksApart busy ∧ SectionsFit busy ∧ step busy = .next (stepped busy) := by
  refine ⟨by unfold HoldsFollowLine; decide +kernel, by unfold MarkAtRest; decide +kernel, ?_, ?_, ?_, ?_, ?_, ?_, ?_, rfl⟩
  · unfold QueuesBounded; decide +kernel
  · unfold LabelsBounded; decide +kernel
  · unfold TablesBounded; decide +kernel
  · unfold ReferralsInOrder; decide +kernel
  · have h : ∀ b : Bin, ∀ bu ∈ busy.bundles.bins[b].bundle, bu.coverage ≤ bu.spec.ct + bu.spec.tolHi ∧
        bu.shortCoverage * 100 ≤ bu.spec.pmax * bu.spec.fillPoint ∧ bu.count ≤ bu.spec.nmax := by decide +kernel
    exact fun b bu hb => h b bu hb
  · refine ⟨by decide +kernel, ?_, by decide +kernel⟩
    have h : ∀ g ∈ busy.recipe.banks[0].heldGeneration, busy.recipe.banks[1].heldGeneration ≠ some g := by decide +kernel
    exact fun g hg => h g hg
  · have h : ∀ k : BankId, (∀ l ∈ busy.recipe.banks[k].lengths, l.length ≤ 12) ∧
        ∀ l ∈ busy.recipe.banks[k].grades, l.length ≤ 8 := by decide +kernel
    exact fun k => ⟨fun l hl => (h k).1 l hl, fun l hl => (h k).2 l hl⟩

/-- EncoderStepsMoveTheCounter, with an event one tick ahead and a reverse step of exactly the allowance. -/
theorem test_hyps_encoder :
    (∀ m ∈ [1000, 1001], ∀ mv ∈ [LineState.run, .ready],
      let s := { lineAt mv with motion := { travel := 1000, mark := BitVec.ofNat 32 m, lug := 0, events := [⟨1002, .flushClear⟩] } }
      s.inReset = false ∧ ∀ e ∈ s.motion.events, isAfter e.pos (if s.line.state.moving then
        (if isAfter (s.motion.travel + 1) s.motion.mark then s.motion.travel + 1 else s.motion.mark) else s.motion.travel + 1) = true) ∧
      (let s := { lineAt .run with motion := { travel := 1000, mark := 1199, lug := 0, events := [] } }
       s.inReset = false ∧ s.line.state.moving = true ∧ ticksFrom (s.motion.travel - 1) s.motion.mark = s.config.motion.reverse) ∧
      (lineAt .ready).line.state.moving = false := by decide +kernel

/-- A fault as a record keeps it. -/
def someFault : FaultEntry := { code := 1, detail := some 0, object := .none, position := 0, clock := 0 }

/-- JamLosesEveryStrip, one tick beyond the allowance, in RUN and in DRAIN, with and without a fault kept, the clearing position one tick after
the old mark or at it. -/
theorem test_hyps_jam :
    ∀ l ∈ [LineState.run, .drain], ∀ f ∈ [none, some someFault], ∀ d ∈ [202, 201],
      let s := withStrip (stripIn .cutting)
        { lineAt l with
          config := { (lineAt l).config with motion := { motionSection with offSH := 1, offSE := d - 2, dSL := 1, dXE := 2 } }
          motion := { travel := 1000, mark := 1200, lug := 0, events := [⟨1300, .flushClear⟩, ⟨1300, .pass 1⟩] }
          link := { State.reset.link with belt := { first := f, count := 0, overflow := false } } }
      let p := plusTicks (s.motion.travel - 1) (s.config.motion.offSE + s.config.motion.dXE)
      s.inReset = false ∧ s.line.state.moving = true ∧ s.link.belt.first = f ∧ s.link.mask[2] = true ∧
        (s.config.motion.reverse : Int) < ticksFrom (s.motion.travel - 1) s.motion.mark ∧
        isAfter p s.motion.mark = decide (d = 202) ∧ isAfter p (s.motion.travel - 1) = true := by decide +kernel

/-- A jam whose clearing position the old mark has reached: FLUSH comes and goes, with a LINE notice each, the FLUSH notice between them (log 44). -/
theorem test_jam_short_of_the_old_mark :
    let s := { lineAt .run with
      config := { (lineAt .run).config with motion := { motionSection with offSH := 1, offSE := 199, dSL := 1, dXE := 2 } }
      motion := { travel := 1000, mark := 1200, lug := 0, events := [] } }
    let t := after .encReverseStep s
    t.line.holds.flush = false ∧ t.motion.events = [] ∧ t.motion.mark = 999 ∧
      t.link.tx.map (fun f => match f with
        | .notice n => n.kindIndex
        | .reply _ => 99) = [10, 0, 2, 0] := by decide +kernel

/-- A fire entry for line 0 of strip 1, which ends cutting 0. -/
def someEntry : FireEntry := { tick := 1001, strip := 1, kind := .separation, starts := none, ends := some 0, line := 0 }

/-- ForwardStepTakesTheEventDue. -/
theorem test_hyps_fire_and_flush_due :
    (let s := dueIn (.fire 1 0) { withStrip (stripIn .cutting) (lineAt .run) with
        saw := { entries := [someEntry], lastFire := none, high := false }, cuttings := [cuttingIn .planned] }
     s.inReset = false ∧ s.line.state.moving = true ∧ s.motion.mark = s.motion.travel ∧
        s.motion.travel + 1 = 1001 ∧ findEntry s 1 0 = some someEntry ∧ findStrip s 1 = some (stripIn .cutting) ∧
        findCutting s ⟨1, 0⟩ = some (cuttingIn .planned) ∧ { someEntry with starts := some 0, ends := none }.starts = some 0 ∧
        (stripIn .cutting).hasEnd 0 = false) ∧
      (let s := dueIn .flushClear { lineAt .run with line := { lineIn .run with holds := { (lineIn .run).holds with flush := true } } }
       s.inReset = false ∧ s.line.state.moving = true ∧ s.motion.mark = s.motion.travel ∧
          s.motion.travel + 1 = 1001 ∧ s.line.holds.flush = true) := by decide +kernel

/-- Strip 1 in a state, with its window opening at position 1001 and its scan window at 1001 when its lead is early. -/
def stripDue (st : StripState) (lead : Word) : Strip := { stripIn st with lead }

/-- ForwardStepMovesAStripOn, a deck of 11 and of 12, and each way the stores can be held. -/
theorem test_hyps_strip_events_due :
    (∀ k ∈ [EventKind.seOpen 1, .seEnd 1, .removal 1, .transfer ⟨1, 0⟩, .scanOpen 1],
      ∀ st ∈ [StripState.planned, .unplanned, .entering, .clearedIe, .scanning, .waitingPlan],
        let r := stripDue st (1001 + 64 - 40000)
        let s := dueIn k (withStrip r (lineAt .run))
        s.inReset = false ∧ s.line.state.moving = true ∧ s.motion.mark = s.motion.travel ∧ findStrip s 1 = some r ∧
          s.motion.travel + 1 = 1001 ∧ r.state = st ∧ r.trail = none ∧ beltCuttings 1 s = [] ∧
          r.removalTaken = false ∧
          isAfter (plusTicks (plusTicks r.lead s.config.motion.offSE) (s.config.motion.slip + 1)) (s.motion.travel + 1) = true) ∧
      (∀ n ∈ [Config.deckCapacity - 1, Config.deckCapacity],
        let s := { dueIn (.transfer ⟨1, 0⟩) (withStrip (stripIn .cutting) (lineAt .run)) with
          cuttings := [cuttingIn .cut], chain := { State.reset.chain with deck := List.replicate n ⟨9, 0⟩ } }
        findCutting s ⟨1, 0⟩ = some (cuttingIn .cut) ∧ s.chain.deck.length = n ∧ findStrip s 1 = some (stripIn .cutting)) ∧
      (∀ a ∈ [none, some 7], ∀ b ∈ [none, some 8],
        let s := { dueIn (.scanOpen 1) (withStrip (stripDue .entering (1001 - 20000)) (lineAt .run)) with
          scan := { storeA := { Store.free with holder := a }, storeB := { Store.free with holder := b }, converter := none } }
        s.scan.storeA.holder = a ∧ s.scan.storeB.holder = b ∧ findStrip s 1 = some (stripDue .entering (1001 - 20000))) := by
  decide +kernel

/-- ForwardStepMovesAStripOn: a removal that finds a cutting on the belt, and a window end with everything R22 takes. -/
theorem test_loss_takes_what_the_strip_held :
    beltCuttings 1 { dueIn (.removal 1) (withStrip (stripIn .cutting) (lineAt .run)) with cuttings := [cuttingIn .cut] } ≠ [] ∧
      (let s := { dueIn (.seEnd 1) (withStrip { stripIn .planned with store := some .a, windowOpen := true } (lineAt .run)) with
         saw := { entries := [someEntry], lastFire := none, high := false }
         cuttings := [cuttingIn .planned, { cuttingIn .onDeck with id := ⟨1, 1⟩ }]
         planner := { Planner.idle with queue := [1, 3] } }
       let t := after (.encForwardStep gateLow) s
       t.saw.entries = [] ∧ t.cuttings.map Cutting.id = [⟨1, 1⟩] ∧ t.planner.queue = [3] ∧ t.motion.events = aheadOf (.seEnd 1) ∧
         (findStrip t 1).map Strip.state = some .lost ∧ (t.link.belt.first.map FaultEntry.code) = some 2) := by decide +kernel

/-- ForwardStepMovesAStripOn at a deadline that finds the strip in process with a cutting allocated, and another that waits. -/
theorem test_hyps_deadline_in_process :
    ∀ p ∈ [some 1, some 2, none],
      let s := { dueIn (.seOpen 1) (withStrip (stripDue .waitingPlan (1001 + 64 - 40000)) (lineAt .run)) with
        cuttings := [cuttingIn .planned]
        planner := { queue := [1, 3], inFlight := p, placed := 1, graded := 1 } }
      s.planner.inFlight = p ∧ beltCuttings 1 s = [⟨1, 0⟩] ∧ findStrip s 1 = some (stripDue .waitingPlan (1001 + 64 - 40000)) := by
  decide +kernel

/-- R75, R126: at the deadline the cuttings of the strip in process leave the table, and its referral is withdrawn. -/
theorem test_deadline_frees_the_cuttings :
    let q : Referral :=
      { id := ⟨1, 0⟩, context := ⟨0, 0, true, true⟩, feature := 16, spanStart := 14, spanEnd := 520, nominal := 500, stripLength := 3007,
        tag := some 1, arose := 0 }
    let t := after (.encForwardStep gateLow) { dueIn (.seOpen 1) (withStrip (stripDue .waitingPlan (1001 + 64 - 40000)) (lineAt .run)) with
      cuttings := [{ cuttingIn .planned with gradeStatus := .referred, grade := none }]
      referral := { State.reset.referral with outstanding := [q] }
      planner := { queue := [], inFlight := some 1, placed := 1, graded := 1 } }
    t.cuttings = [] ∧ t.referral.outstanding = [] ∧ t.planner = Planner.idle ∧ t.link.tx.map (fun f => match f with
      | .notice n => n.kindIndex
      | .reply _ => 99) = [1, 4] := by decide +kernel

/-- The part in RUN with n strip records in use. -/
def strips (n : Nat) (s : State) : State := { s with belt := { strips := List.replicate n (stripIn .cutting), nextNumber := 17 } }

/-- IeLeadingEdgeByLineAndTable, 15 and 16 records in use. -/
theorem test_hyps_ie_leading_edge :
    (∀ l ∈ [LineState.run, .drain], ∀ n ∈ [0, Config.stripCapacity - 1],
      let s := strips n (lineAt l)
      s.inReset = false ∧ s.line.state.moving = true ∧ s.belt.strips.length < Config.stripCapacity ∧ activeBank s = some 0 ∧
        isAfter (moveBy (plusTicks s.motion.travel s.inForce.motion.offSE) (-(s.inForce.motion.slip : Int))) s.motion.mark = true ∧
        isAfter (plusTicks s.motion.travel s.inForce.motion.offSH) s.motion.mark = true) ∧
      (∀ l ∈ [LineState.standby, .ready, .estop], (lineAt l).inReset = false ∧ (lineAt l).line.state.moving = false) ∧
      (let s := strips Config.stripCapacity (lineAt .run)
       s.inReset = false ∧ s.line.state.moving = true ∧ Config.stripCapacity ≤ s.belt.strips.length ∧
          s.line.holds.trackFull = false) := by decide +kernel

/-- FaultRecordsKeepTheFirstFault. -/
theorem test_hyps_fault_records :
    (lineAt .run).link.belt.first = none ∧
      ({ (lineAt .run).link with belt := { first := some someFault, count := 255, overflow := true } } : LinkPort).belt.first =
        some someFault := by decide +kernel

/-- IeTrailingEdgeMeasuresTheStrip, in every state. -/
theorem test_hyps_ie_trailing_edge :
    (waitingTrail (lineAt .run) = none) ∧
      ∀ st ∈ [StripState.entering, .clearedIe, .waitingPlan, .planned, .cutting, .unplanned, .lost],
        let s := withStrip (stripIn st) (lineAt .run)
        s.inReset = false ∧ waitingTrail s = some (stripIn st) ∧ findStrip s (stripIn st).number = some (stripIn st) ∧
          (stripIn st).state ≠ .scanning ∧
          isAfter (moveBy (plusTicks s.motion.travel (s.config.motion.offSE + s.config.motion.dXE)) ((stripIn st).shift.getD 0))
            s.motion.mark = true := by decide +kernel

/-- The part in RUN with strip 1 scanning into store A: its trail, its next pass, and how many passes it has taken and has samples of. -/
def scanAt (trail : Option Word) (next owed filled : Nat) (cut : Bool) : State :=
  { withStrip { stripIn .scanning with store := some .a, trail } (lineAt .run) with
    scan := { storeA :=
                { holder := some 1
                  slots := List.replicate filled { samples := [⟨0, 7, 600, false⟩], held := false }
                  scan := some { ScanProgress.fresh with next, owed, cut } }
              storeB := Store.free
              converter := none } }

/-- IeTrailingEdgeMeasuresTheStrip of a strip SCANNING: passes to come, the last pass taken (900 ticks are 90 body passes), a tail cut. -/
theorem test_hyps_ie_trailing_edge_scanning :
    ∀ x ∈ [(5, 5, 5, false), (93, 90, 90, false), (93, 90, 89, false), (5, 5, 5, true)],
      let s := scanAt none x.1 x.2.1 x.2.2.1 x.2.2.2
      s.inReset = false ∧ (waitingTrail s).map Strip.state = some .scanning ∧ (waitingTrail s) = findStrip s 1 ∧
        (scanningOf s 1).map (fun y => (y.1, y.2.scan.next, y.2.slots.length)) = some (.a, x.1, x.2.2.1) ∧
        isAfter (plusTicks s.motion.travel (s.config.motion.offSE + s.config.motion.dXE)) s.motion.mark = true ∧
        ({ stripIn .scanning with trail := some s.motion.travel } : Strip).finalPass s.config.scan = 92 := by decide +kernel

/-- A strip whose SE window is open, its predicted lead d ticks after position 1000. -/
def windowed (n : Nat) (st : StripState) (d : Int) : Strip :=
  { newStrip n 0 (moveBy 1000 (d - 40000)) with state := st, windowOpen := true }

/-- The part in RUN with strips on the belt. -/
def onBelt (rs : List Strip) : State := { lineAt .run with belt := { strips := rs, nextNumber := 9 } }

/-- SeEdgesWithoutACut, SeEdgeMatchesAPlannedStrip, AmbiguousEdgeFlushesTheTrack, at both ends of the window. -/
theorem test_hyps_se_edges :
    (openWindows (onBelt []) 1000 = [] ∧ openWindows (onBelt [windowed 1 .planned 65]) 1000 = [] ∧ (onBelt []).motion.travel = 1000) ∧
      (∀ d ∈ ([64, -64] : List Int),
        let r := windowed 1 .unplanned d
        openWindows (onBelt [r]) 1000 = [r] ∧ r.state = .unplanned ∧ ∀ e ∈ (onBelt [r]).motion.events, e.what ≠ .removal 1) ∧
      (∀ d ∈ ([64, -64] : List Int),
        let r := windowed 1 .planned d
        openWindows (onBelt [r]) 1000 = [r] ∧ r.state = .planned ∧ (onBelt [r]).inReset = false) ∧
      ∀ l ∈ [LineState.run, .drain], ∀ lead ∈ [41999, 42000],
        let s0 := onBelt [windowed 1 .planned 64, windowed 2 .unplanned (-64), windowed 3 .planned 0]
        let s := { s0 with line := lineIn l, motion := { s0.motion with mark := BitVec.ofNat 32 (1000 + lead) } }
        s.inReset = false ∧ s.line.state.moving = true ∧ s.link.belt.first = none ∧ s.link.mask[2] = true ∧
          openWindows s s.motion.travel = [windowed 1 .planned 64, windowed 2 .unplanned (-64), windowed 3 .planned 0] ∧
          isAfter (plusTicks s.motion.travel (s.config.motion.offSE + s.config.motion.dXE)) s.motion.mark = decide (lead = 41999) ∧
          isAfter (plusTicks s.motion.travel (s.config.motion.offSE + s.config.motion.dXE)) s.motion.travel = true := by
  decide +kernel

/-- SeEdgeMatchesAPlannedStrip, with an entry of the strip 5000 ticks ahead, one of another strip exactly Dr from it, and a cutting of the strip. -/
theorem test_hyps_se_match :
    ∀ d ∈ ([64, -64] : List Int),
      let r := windowed 1 .planned d
      let e : FireEntry := { someEntry with tick := moveBy 6000 d }
      let s := { onBelt [r] with
        saw := { entries := [e, { someEntry with tick := 6400, strip := 2 }], lastFire := some 600, high := false }
        cuttings := [{ newCutting 0 ⟨1, 0⟩ 500 3 14 0 with state := .planned }] }
      openWindows s s.motion.travel = [r] ∧ ticksFrom (plusTicks r.lead s.config.motion.offSE) s.motion.travel = -d ∧
        findStrip s 1 = some r ∧ r.removalTaken = false ∧ (∀ x ∈ s.motion.events, x.what ≠ .removal 1) ∧
        isAfter (moveBy e.tick (-d)) s.motion.mark = true ∧
        (∀ c ∈ s.cuttings, isAfter (transferPos s { r with shift := some (-d) } c) s.motion.mark = true) ∧
        s.recipe.banks[(0 : BankId)].cut = some cutSection ∧
        drTicks s = 400 ∧
        tooClose (drTicks s) s.saw.lastFire (s.saw.entries.filter (fun o => o.strip != 1)) (moveBy e.tick (-d)) = false := by
  decide +kernel

/-- The part in RUN with strip 1 in its SE window, its removal registered at 1012 ticks and the window's own width, the mark and cuttings as given. -/
def removalAhead (st : StripState) (d : Int) (mark : Word) (cs : List Cutting) : State :=
  let r := { windowed 1 st d with trail := some (moveBy 1010 (d - 40000)), reason := some .unscanned }
  { onBelt [r] with
    config := { someConfig with motion := { motionSection with dSL := 1, dXE := 2 } }
    motion := { travel := 1000, mark, lug := 7, events := [⟨moveBy 1012 d, .removal 1⟩, ⟨1065, .seEnd 1⟩] }
    cuttings := cs }

/-- SeEdgesWithoutACut and SeEdgeMatchesAPlannedStrip: a registered removal position, which the shift takes one tick ahead of the mark, or to it. -/
theorem test_hyps_se_removal :
    ∀ st ∈ [StripState.unplanned, .planned], ∀ d ∈ ([64, -64] : List Int), ∀ mark ∈ [1011, 1012], ∀ cs ∈ [[], [cuttingIn .cut]],
      let s := removalAhead st d (BitVec.ofNat 32 mark) cs
      let q := moveBy (plusTicks (moveBy 1010 (d - 40000)) (s.config.motion.offSE + s.config.motion.dXE)) (-d)
      s.inReset = false ∧ (openWindows s s.motion.travel).map Strip.state = [st] ∧ openWindows s s.motion.travel = s.belt.strips ∧
        (findStrip s 1).bind Strip.trail = some (moveBy 1010 (d - 40000)) ∧ (beltCuttings 1 s = [] ↔ cs = []) ∧
        (∃ e ∈ s.motion.events, e.what = .removal 1) ∧ q = 1012 ∧ isAfter q s.motion.mark = decide (mark = 1011) := by decide +kernel

/-- A request stands at the head of the queue of a part that takes inputs. -/
theorem asked_asks (kind : Byte) (body : List Byte) (s : State) (h : s.inReset = false) :
    Asked (asks kind body s) (request kind body) := ⟨h, rfl⟩

/-- StartAndDrainByLineState. -/
theorem test_hyps_start_and_drain :
    (∀ l ∈ [LineState.standby, .ready, .run, .drain, .estop], Asked (asks 0x05 [] (lineAt l)) (request 0x05 []) ∧
      Asked (asks 0x06 [] (lineAt l)) (request 0x06 []) ∧ (asks 0x06 [] (lineAt l)).line.state = l) ∧
      trackingEmpty (asks 0x06 [] (withStrip (stripIn .lost) (lineAt .run))) = false ∧
      trackingEmpty (asks 0x06 [] (lineAt .run)) = true := by
  refine ⟨fun l _ => ⟨asked_asks _ _ _ rfl, asked_asks _ _ _ rfl, rfl⟩, by decide +kernel, by decide +kernel⟩

/-- ResetLineAndEStop. -/
theorem test_hyps_reset_line_and_estop :
    (∀ l ∈ [LineState.standby, .ready, .run, .drain, .estop], Asked (asks 0x07 [] (lineAt l)) (request 0x07 []) ∧
      (asks 0x07 [] (lineAt l)).line.state = l ∧ (lineAt l).inReset = false) ∧
      (let s := { lineAt .run with label := { State.reset.label with dumpHigh := Vector.replicate 8 true } }
       s.line.state ≠ .estop ∧ s.label.dumpHigh[(0 : Bin)] = true) := by
  refine ⟨fun l _ => ⟨asked_asks _ _ _ rfl, rfl, rfl⟩, by decide +kernel⟩

/-- The part in RUN with a bundle in bin 1 and a cutting on a lug bound for it, TRANSFER high, its bank ACTIVE or RETIRING with nothing bound to it
but that cutting. -/
def inFlight (st : BinState) (bu : Bundle) (active : Bool) : State :=
  let s := withBin st (some bu)
    { lineAt .run with
      cuttings := [{ cuttingIn .onLug with loadLug := some 4, dest := some (.bin 0) }]
      recipe := { banks := #v[{ activeRecipe with strips := 0, state := if active then .active else .retiring }, Bank.empty], counter := 2 } }
  { s with chain := { s.chain with transferHigh := true } }

/-- The bundle of bin 1, in short: its state, pieces, SHORT flag, and whether it has closed. -/
def binOne (s : State) : BinState × Option (Nat × Bool × Bool) :=
  (s.bundles.bins[0].state, s.bundles.bins[0].bundle.map (fun bu => (bu.count, bu.short, bu.closeSeq.isSome)))

/-- ResetLineAndEStop: the clauses of BinReset, with what the releases leave of each bundle. -/
theorem test_hyps_bins_reset :
    (∀ st ∈ [BinState.opened, .filled, .held .opened, .held .filled, .closing, .labelling, .clearing], ∀ a ∈ [true, false],
      let s := inFlight st (someBundle 11 3) a
      s.bundles.bins[(0 : Bin)].state = st ∧ s.bundles.bins[(0 : Bin)].bundle = some (someBundle 11 3) ∧
        s.bundles.bins[(7 : Bin)].bundle = none ∧ activeBank s = (if a then some (someBundle 11 3).bank else none) ∧
        (withoutReservations s 0 (someBundle 11 3)).count = 10 ∧ (withoutReservations s 0 (someBundle 11 3)).belowFill = true ∧
        s.recipe.banks[(0 : BankId)].strips ≤ s.belt.strips.countP (fun r => r.bank == 0) ∧
        s.recipe.banks[(0 : BankId)].cuttings ≤ s.cuttings.countP (fun c => c.bank == 0)) ∧
      (let b := { someBundle 2 1 with short := true }
       let x := withoutReservations (inFlight .filled b true) 0 b
       x.count = x.landedCount ∧ x.short = true ∧ x.count ≠ 0) ∧
      (let b := someBundle 20 19
       let x := withoutReservations (inFlight .filled b true) 0 b
       x.count = x.landedCount ∧ x.short = false ∧ x.belowFill = false) ∧
      (withoutReservations (inFlight .opened (someBundle 1 0) false) 0 (someBundle 1 0)).count = 0 := by decide +kernel

/-- The part after RESET LINE in such a state. -/
def afterReset (st : BinState) (bu : Bundle) (active : Bool) : State := after .resetLine (asks 0x07 [] (inFlight st bu active))

/-- R173: RESET LINE keeps an OPEN bundle, reopens or closes a FILLED one, and reopens a HELD one underneath; TRANSFER is low. -/
theorem test_reset_line_and_the_bins :
    [(BinState.opened, 3, 1), (.filled, 11, 3), (.filled, 20, 19), (.held .filled, 11, 3)].map
        (fun x => binOne (afterReset x.1 (someBundle x.2.1 x.2.2) true)) =
      [(.opened, some (2, false, false)), (.opened, some (10, false, false)), (.labelling, some (19, false, true)),
       (.held .opened, some (10, false, false))] ∧
      (afterReset .opened (someBundle 3 1) true).chain.transferHigh = false := by decide +kernel

/-- R166, R173: RESET LINE closes or discards an OPEN bundle of a bank that is not ACTIVE. -/
theorem test_reset_line_and_generation_close :
    [(3, 2), (1, 0)].map (fun x => binOne (afterReset .opened (someBundle x.1 x.2) false)) =
      [(.labelling, some (2, true, true)), (.idle, none)] := by decide +kernel

/-- The part in RUN with strip 1 scanning into store A, its first pass in the converter. -/
def scanningState : State :=
  { withStrip { stripIn .scanning with store := some .a } (lineAt .run) with
    scan := { storeA := { holder := some 1, slots := [], scan := some .fresh }, storeB := Store.free,
              converter := some { strip := 1, pass := 0 } } }

/-- ConversionFillsTheSlot. -/
theorem test_hyps_conversion :
    (lineAt .run).scan.converter = none ∧ scanningState.inReset = false ∧ scanningState.scan.converter = some ⟨1, 0⟩ ∧
      (scanningOf (setConverter none scanningState) 1).map (fun x => (x.1, x.2.slots.length)) = some (.a, 0) := by decide +kernel

/-- Strip 1 is scanning, and its scan is as p says. -/
def scanOf (s : State) (p : StoreId → Scanning → Bool) : Bool :=
  match scanningOf s 1 with
  | some (i, y) => p i y
  | none => false

/-- Channel 0 measures the width and fails above 2200 with action CUT. -/
def gaugeChannels : Vector ChannelSetup 16 :=
  setAt Configuration.atPowerOn.channels 0 { ChannelSetup.atPowerOn with
    base := 0
    span := 4096
    role := .width
    mode := .above
    l2 := 2200
    action := .cut }

/-- A state with those channels, and a GAUGE run open on channel 0 of store A's scan, or none. -/
def gauged (run : Option Nat) (s : State) : State :=
  { s with
    config := { s.config with channels := gaugeChannels }
    scan := { s.scan with storeA := { s.scan.storeA with
      scan := s.scan.storeA.scan.map (fun p => { p with gauge := setAt p.gauge 0 run }) } } }

/-- The clauses of GaugeRunsAt: a sample beyond L2 fails its channel; one at L2, one saturated and one of another channel do not. -/
theorem test_hyps_channel_fails :
    ChannelFailsAt gaugeChannels [⟨0, 2201, 2201, false⟩] 0 ∧ ¬ChannelFailsAt gaugeChannels [⟨0, 2200, 2200, false⟩] 0 ∧
      ¬ChannelFailsAt gaugeChannels [⟨0, 4095, 4095, true⟩] 0 ∧ ¬ChannelFailsAt gaugeChannels [⟨1, 2201, 2201, false⟩] 0 := by
  refine ⟨?_, ?_, ?_, ?_⟩ <;> unfold ChannelFailsAt <;> decide +kernel



/-- The part in RUN with strip 1's pass 4 in the converter and a GAUGE run open on channel 0, or none. -/
def convertingState (run : Option Nat) : State :=
  let a := gauged run (scanAt none 5 5 4 false)
  { a with scan := { a.scan with converter := some ⟨1, 4⟩ } }

/-- ConversionFillsTheSlot, of a scan that goes on, with a GAUGE run open and without. -/
theorem test_hyps_conversion_gauge :
    ∀ run ∈ [none, some 2],
      let s := convertingState run
      s.inReset = false ∧ s.scan.converter = some ⟨1, 4⟩ ∧
        scanOf (setConverter none s) (fun i x => decide (i = .a ∧ x.slots.length = 4 ∧ x.scan.cut = false ∧
          x.passesDone s.config.scan = false ∧ x.scan.gauge[0] = run)) = true := by decide +kernel

/-- PassesAreTakenInOrder: pass 0, pass 2, and a pass beyond the store, with a lag of 3, the converter idle or busy, and the pass before with
its samples or without. -/
theorem test_hyps_passes :
    ∀ x ∈ [(0, 0), (2, 2), (3, 2), (2050, 2048), (2051, 2048)], ∀ c ∈ [none, some (⟨7, 4⟩ : Conversion)],
      ∀ d ∈ [none, some (⟨1, 4⟩ : DefectRun)],
        let a := scanAt none x.1 x.2 0 false
        let s := dueIn (.pass 1) { a with scan := { a.scan with
          converter := c
          storeA := { a.scan.storeA with scan := some { ScanProgress.fresh with next := x.1, owed := x.2, defect := d } } } }
        s.inReset = false ∧ s.line.state.moving = true ∧ s.motion.mark = s.motion.travel ∧
          s.motion.travel + 1 = 1001 ∧ s.scan.converter = c ∧ s.config.scan.lag = 3 ∧
          scanOf s (fun i y => decide (i = .a ∧ y.strip.trail = none ∧ y.scan.cut = false ∧ y.scan.next = x.1 ∧ y.scan.defect = d)) = true ∧
          isAfter (plusTicks 100 (s.config.motion.offSH + (x.1 + 1) * s.config.scan.pitch)) (s.motion.travel + 1) = true := by
  decide +kernel

/-- The part in RUN at body pass j of strip 1, its GAUGE run open from pass 2, the converter busy or idle, the pass before of some width. -/
def gaugePass (code j owed : Nat) (busy : Bool) : State :=
  let a := gauged (some 2) (scanAt none j owed owed false)
  dueIn (.pass 1) { a with scan := { a.scan with
    converter := if busy then some ⟨7, 4⟩ else none
    storeA := { a.scan.storeA with slots := List.replicate owed { samples := [⟨0, code, code, false⟩], held := false } } } }

/-- PassesAreTakenInOrder: the GAUGE clauses, of a held pass whose copy passes or fails its channel, an idle converter, and passes 2048 and 2049. -/
theorem test_hyps_gauge_passes :
    ∀ x ∈ [(100, 5, 5, true), (2300, 5, 5, true), (100, 5, 5, false), (100, 2048, 2048, false), (100, 2049, 2048, true)],
      let s := gaugePass x.1 x.2.1 x.2.2.1 x.2.2.2
      s.inReset = false ∧ s.line.state.moving = true ∧ s.motion.mark = s.motion.travel ∧ s.scan.converter.isSome = x.2.2.2 ∧
        gateLow.active = false ∧ scanOf s (fun i y => decide (i = .a ∧ y.strip.trail = none ∧ y.scan.cut = false ∧
          y.scan.next = x.2.1 ∧ y.slots.length = x.2.2.1 ∧ y.scan.defect = none ∧ y.scan.gauge[0] = some 2)) = true ∧
        isAfter (plusTicks 100 (s.config.motion.offSH + (x.2.1 + 1) * s.config.scan.pitch)) 1001 = true := by decide +kernel

/-- R42: a held copy that passes closes the run at its pass, pass 2048 closes it at 2048, and an idle converter leaves it. -/
theorem test_gauge_runs_at_a_pass :
    [(100, 5, 5, true), (2300, 5, 5, true), (100, 5, 5, false), (100, 2048, 2048, false)].map (fun x =>
        let t := after (.encForwardStep gateLow) (gaugePass x.1 x.2.1 x.2.2.1 x.2.2.2)
        (t.scan.storeA.scan.map (fun p => p.gauge[0]), t.belt.strips.map Strip.zones)) =
      [(some none, [[⟨.channel 0, 2, 5, 8⟩]]), (some (some 2), [[]]), (some (some 2), [[]]),
       (some none, [[⟨.channel 0, 2, 2048, 8⟩]])] := by decide +kernel

/-- The events ahead of a scan window of strip 2 that cuts strip 1's tail. -/
def tailAhead : List PosEvent := [⟨1010, .pass 1⟩, ⟨1400, .seOpen 1⟩, ⟨1500, .removal 1⟩]

/-- PassesAreTakenInOrder: the scan window is the one event due. -/
theorem test_hyps_tail_cut_due (s : State) (h : s.motion.events = ⟨1001, .scanOpen 2⟩ :: tailAhead) :
    OnlyDue s ⟨1001, .scanOpen 2⟩ tailAhead := ⟨[], tailAhead, h, rfl, by decide⟩

/-- PassesAreTakenInOrder, at a tail cut: a sample still to come or none, the next strip UNPLANNED or ENTERING, the converter idle or busy. -/
theorem test_hyps_tail_cut :
    ∀ filled ∈ [4, 5], ∀ c ∈ [none, some (⟨1, 4⟩ : Conversion)], ∀ st ∈ [StripState.unplanned, .entering],
      let a := scanAt (some 1000) 5 5 filled false
      let r := { newStrip 2 0 (moveBy 1001 (-20000)) with state := st }
      let s := { dueIn (.pass 1) a with
        belt := { strips := a.belt.strips ++ [r], nextNumber := 3 }
        scan := { a.scan with converter := c }
        motion := { a.motion with events := ⟨1001, .scanOpen 2⟩ :: tailAhead } }
      s.inReset = false ∧ s.line.state.moving = true ∧ s.motion.mark = s.motion.travel ∧ s.motion.travel + 1 = 1001 ∧ r.trail = none ∧
        findStrip s 2 = some r ∧ (∀ y ∈ s.belt.strips, y.number ≠ 1 → passesGoOn s y = false) ∧
        s.scan.converter = c ∧ isAfter (plusTicks r.lead (s.config.motion.offSH + s.config.scan.pitch)) 1001 = true ∧
        s.scan.storeA.holder = some 1 ∧ s.scan.storeB.holder = none ∧
        scanOf s (fun i y => decide (i = .a ∧ y.scan.cut = false ∧
          y.passesDone s.config.scan = false ∧ y.slots.length = filled ∧ y.scan.owed = 5)) = true := by decide +kernel

/-- A PROFILE section with the windows of the example of chapter 3 for TONGUE_T. -/
def profileSection : ProfileSection :=
  { windows := Vector.replicate 4 ⟨590, 610, 580, 620⟩, tongueNominal := 600, driftLimit := 5, stopCount := 2 }

/-- The scan of strip 1 at its final pass: a trail of 96 ticks gives 10 body passes and final pass 12, channel 0 measures the tongue. -/
def finalPassState (sample : Sample) (ring : List Nat) (count : Nat) (inFlight : Option Nat) : State :=
  let a := scanAt (some 196) 12 10 10 false
  dueIn (.pass 1) { a with
    config := { a.config with channels := setAt a.config.channels 0 { ChannelSetup.atPowerOn with role := .tongueT } }
    profile := { a.profile with ring, limitCount := count }
    planner := { Planner.idle with inFlight }
    recipe := { banks := #v[{ activeRecipe with profile := some profileSection }, Bank.empty], counter := 2 }
    scan := { a.scan with storeA := { a.scan.storeA with slots := List.replicate 10 { samples := [sample], held := false } } } }

/-- ScanEndJudgesTheStrip: OK, LIMIT and no classified sample, a ring of 3, 15 and 16 values, the planner idle and busy. -/
theorem test_hyps_scan_end :
    ∀ m ∈ [((⟨0, 7, 600, false⟩ : Sample), some ProfileStatus.ok, 6), (⟨0, 7, 621, false⟩, some .limit, 6),
      (⟨0, 0, 0, true⟩, none, 0)],
      ∀ k ∈ [3, 15, 16], ∀ q ∈ [none, some 9],
        let s := finalPassState m.1 (List.replicate k 600) 1 q
        s.inReset = false ∧ s.line.state.moving = true ∧ s.motion.mark = s.motion.travel ∧
          s.motion.travel + 1 = 1001 ∧ s.planner.inFlight = q ∧ activeBank s = some 0 ∧
          scanOf s (fun i y => decide (i = .a ∧ y.strip.trail.isSome = true ∧
            y.strip.isBody s.config.scan.pitch y.scan.next = false ∧
            y.strip.finalPass s.config.scan ≤ (y.scan.next : Int) ∧ y.scan.owed ≤ y.slots.length ∧
            s.recipe.banks[y.strip.bank].profile = some profileSection ∧
            statusOf (roleClasses s.config profileSection y.strip y.slots) = m.2.1 ∧
            (classifiedValues s.config y.strip y.slots .tongueT).length = m.2.2)) = true := by
  decide +kernel

/-- The part in RUN at a final pass with a GAUGE run open, a DEFECT run as given, and the planner busy. -/
def endingState (d : Option DefectRun) : State :=
  let a := gauged (some 2) (finalPassState ⟨0, 0, 0, true⟩ [] 0 (some 9))
  { a with scan := { a.scan with storeA := { a.scan.storeA with
    scan := a.scan.storeA.scan.map (fun p => { p with defect := d }) } } }

/-- ScanEndJudgesTheStrip: pass 12 at a lag of 3, with a DEFECT run open and none, at either gate level. -/
theorem test_hyps_scan_end_runs :
    ∀ d ∈ [none, some (⟨4, 2⟩ : DefectRun)],
      let s := endingState d
      s.inReset = false ∧ s.config.scan.lag = 3 ∧ scanOf s (fun i y => decide (i = .a ∧ y.scan.next = 12 ∧ y.scan.defect = d ∧
        y.scan.gauge[0] = some 2 ∧ y.strip.trail.isSome = true ∧ y.strip.isBody s.config.scan.pitch 12 = false ∧
        y.strip.finalPass s.config.scan ≤ (12 : Int) ∧ y.scan.owed ≤ y.slots.length)) = true ∧
        (⟨true, 0⟩ : GateSample).active = true ∧ gateLow.active = false := by decide +kernel

/-- R40, R42: at the scan end the DEFECT run closes after pass 9, at pass 9 when the gate is low there, and the GAUGE run at the 10 passes taken. -/
theorem test_runs_close_at_the_scan_end :
    [(none, gateLow), (none, ⟨true, 0⟩), (some ⟨4, 2⟩, gateLow), (some ⟨4, 2⟩, ⟨true, 5⟩)].map (fun x =>
        (after (.encForwardStep x.2) (endingState x.1)).belt.strips.map Strip.zones) =
      [[[⟨.channel 0, 2, 10, 8⟩]], [[⟨.channel 0, 2, 10, 8⟩, ⟨.gate, 9, 10, 1⟩]],
       [[⟨.channel 0, 2, 10, 8⟩, ⟨.gate, 4, 9, 2⟩]], [[⟨.channel 0, 2, 10, 8⟩, ⟨.gate, 4, 10, 5⟩]]] := by decide +kernel

/-- ZoneListStaysOrdered, on a full list. -/
theorem test_hyps_zone_list :
    let zs : List Zone := (List.range 16).map (fun i => ⟨.gate, 10 * i, 10 * i + 5, 1⟩)
    zs.length = Config.zoneCapacity ∧ zs.Pairwise (fun a b => a.start ≤ b.start) := by decide +kernel

/-- The part in RUN with channels 0 to 2 as MOIST, WIDTH and THICK1, and the spindles LIVE. -/
def featureState : State :=
  let a := lineAt .run
  let ch (r : Role) : ChannelSetup := { ChannelSetup.atPowerOn with role := r }
  { a with
    config := { a.config with channels := setAt (setAt (setAt a.config.channels 0 (ch .moist)) 1 (ch .width)) 2 (ch .thick1) }
    profile := { a.profile with spindles := Vector.replicate 4 ⟨.live, 9, 2000, 10, 857⟩ } }

/-- The samples of one pass: moisture, width and thickness. -/
def passOf (m w th : Int) (held : Bool) : PassSlot := { samples := [⟨0, 1, m, false⟩, ⟨1, 1, w, false⟩, ⟨2, 1, th, false⟩], held }

/-- Seven passes ahead of the span, and the four of the examples of R48 and R51, the last with a saturated width. -/
def featureSlots : List PassSlot :=
  List.replicate 7 (passOf 900 1 1 false) ++ [passOf 112 9030 600 false, passOf 114 8970 590 false, passOf 114 9045 612 true,
    { samples := [⟨0, 1, 115, false⟩, ⟨1, 0, 0, true⟩, ⟨2, 1, 601, false⟩], held := false }]

/-- FeaturesReduceTheSpan: passes in the span or none, zones, each profile status, a spindle UNSET or none. -/
theorem test_hyps_features :
    let s := featureState
    s.recipe.banks[(cuttingIn .planned).bank].cut = some cutSection ∧
      spanValues s featureSlots 14 520 Role.isThick = [600, 590, 612, 601] ∧ spanValues s [] 14 520 Role.isThick = [] ∧
      spanValues s featureSlots 14 520 (fun x => x == .moist) = [112, 114, 114, 115] ∧
      (∀ i : Spindle, s.profile.spindles[i].state ≠ .unset) ∧ (lineAt .run).profile.spindles[(0 : Spindle)].state = .unset ∧
      (∀ p ∈ [none, some ProfileStatus.ok, some .warn, some .limit], ({ stripIn .waitingPlan with profile := p } : Strip).profile = p) ∧
      overlapsSpan s 691 1447 ⟨.gate, 500, 505, 2⟩ = true ∧ overlapsSpan s 691 1447 ⟨.gate, 306, 320, 5⟩ = false := by
  decide +kernel

/-- R47, R48, R51: thicknesses 590 to 612, the WDEV of widths 9030, 8970 and 9045, and the MOIST of 112, 114, 114 and 115. -/
theorem test_features_over_samples :
    let f := reduceFeatures featureState { stripIn .waitingPlan with length := some 3007, profile := some .warn, tool := true } featureSlots
      (cuttingIn .planned)
    f = #v[some 500, some 3, some 590, some 612, some 22, some 45, some 0, some 0, some 0, some 1, some 1, some 113, some 3007, some 0] := by
  decide +kernel

/-- R49: cutting C1 of 4.4 sees zone Z2 alone of the three of its strip, and with no pass in the store no feature over samples. -/
theorem test_features_over_zones :
    let f := reduceFeatures featureState
      { stripIn .waitingPlan with zones := [⟨.gate, 306, 320, 5⟩, ⟨.gate, 500, 505, 2⟩, ⟨.gate, 726, 737, 7⟩] } []
      { cuttingIn .planned with nominal := 750, spanStart := 691 }
    [f[2], f[4], f[5], f[6], f[7], f[8], f[11]] = [none, none, none, some 1, some 2, some 0, none] := by decide +kernel

/-- ProfileResumeAndToolSet. -/
theorem test_hyps_profile_and_tools :
    (let s := { lineAt .run with line := { lineIn .run with holds := { (lineIn .run).holds with profile := true } } }
     Asked (asks 0x30 [] s) (request 0x30 []) ∧ (asks 0x30 [] s).line.holds.profile = true) ∧
      (Asked (asks 0x30 [] (lineAt .run)) (request 0x30 []) ∧ (asks 0x30 [] (lineAt .run)).line.holds.profile = false) ∧
      ∀ (i : Byte) (v w : BitVec 16), Asked (asks 0x31 (i :: (bytes16 v ++ bytes16 w)) (lineAt .run))
        (request 0x31 (i :: (bytes16 v ++ bytes16 w))) := by
  refine ⟨⟨asked_asks _ _ _ rfl, by decide +kernel⟩, ⟨asked_asks _ _ _ rfl, by decide +kernel⟩, fun i v w => asked_asks _ _ _ rfl⟩

/-- The bounds of ProfileResumeAndToolSet. -/
theorem test_hyps_tool_set_bounds :
    3 < (4 : Byte).toNat ∧ (3 : Byte).toNat ≤ 3 ∧ (0 : BitVec 16).toNat < 1 ∧ 65000 < (65001 : BitVec 16).toNat ∧
      1 ≤ (1 : BitVec 16).toNat ∧ (65000 : BitVec 16).toNat ≤ 65000 ∧ (1 : BitVec 16).toNat < (2 : BitVec 16).toNat ∧
      (65000 : BitVec 16).toNat ≤ (65000 : BitVec 16).toNat ∧ (3 : Spindle).val = (3 : Byte).toNat := by decide

/-- ProcessingCompletes, with a queue of one and of none. -/
theorem test_hyps_processing :
    (lineAt .run).planner.inFlight = none ∧
      ∀ st ∈ [StripState.lost, .waitingPlan], ∀ q ∈ [[], [2]],
        let r := { stripIn st with trail := some 1000, length := some 3007, store := some .a }
        let s := { withStrip r (lineAt .run) with planner := { queue := q, inFlight := some 1, placed := 0, graded := 0 } }
        s.inReset = false ∧ s.planner.inFlight = some 1 ∧ s.planner.queue = q ∧ findStrip s 1 = some r ∧ r.state = st := by
  decide +kernel

/-- Strip 31 of 4.6 in process, w pieces of its work done. -/
def inProcess (w : Nat) : State :=
  let r := { stripIn .waitingPlan with trail := some 6600, length := some 1300, store := some .a }
  let s := { withStrip r (lineAt .run) with planner := { Planner.idle with inFlight := some 1 } }
  workUpTo r (cutPlan (planInput s r)) w s

/-- R72: strip 31 completes alike from each stage of its processing: two cuttings graded, in order. -/
theorem test_processing_completes_from_any_stage :
    ∀ w ∈ [0, 1, 2, 3, 4],
      (inProcess w).cuttings.length = min w 2 ∧
        ((after .processingComplete (inProcess w)).cuttings.map (fun c => (c.id.index, c.nominal, c.gradeStatus.code))) =
          [(0, 900, 3), (1, 250, 3)] := by decide +kernel

/-- Strip 31 in process with bank 0's one grade as given, over one test on EXT0, which the host answers, and n referrals outstanding, m waiting. -/
def inProcessWith (g : GradeEntry) (n m : Nat) : State :=
  let q : Referral :=
    { id := ⟨7, 0⟩, context := ⟨0, 0, true, true⟩, feature := 16, spanStart := 14, spanEnd := 520, nominal := 500, stripLength := 3007,
      tag := some 200, arose := 0 }
  let s := inProcess 0
  { s with
    recipe := { banks := #v[{ activeRecipe with
      grades := some [g]
      tests := setAt Bank.empty.tests 0 (some ⟨16, 0, 0, 0, 0, 0, 0, 0⟩) }, Bank.empty], counter := 2 }
    referral := { s.referral with outstanding := List.replicate n q, waiting := List.replicate m q } }

/-- R104, R107, R108: each first run of strip 31's two cuttings grades, finds no grade, is referred, or overflows. -/
theorem test_first_runs_at_a_completion :
    [(⟨11, 0, 0, 15⟩, 0, 0), (⟨11, 0, 0, 0⟩, 0, 0), (⟨11, 0, 1, 15⟩, 0, 0), (⟨11, 0, 1, 15⟩, 4, 3)].map (fun x =>
        (after .processingComplete (inProcessWith x.1 x.2.1 x.2.2)).cuttings.map (fun c => (c.gradeStatus, c.grade, c.rejectReason))) =
      [List.replicate 2 (.graded, some (.index 0), none), List.replicate 2 (.graded, some .reject, some .noGrade),
       List.replicate 2 (.referred, none, none), [(.referred, none, none), (.graded, some .reject, some .referralOverflow)]] := by
  decide +kernel

/-- ProcessingCompletes: no cutting graded when the processing has begun nothing, and two when it has done all. -/
theorem test_hyps_processing_graded : (inProcess 0).planner.graded = 0 ∧ (inProcess 4).planner.graded = 2 := by decide +kernel

/-- ProcessingCompletes: a fire list with room for the four lines of strip 31 and one with room for three, and the records of a processing begun. -/
theorem test_hyps_processing_plan :
    (∀ w ∈ [0, 1, 2, 3, 4], ∀ k ∈ [44, 45],
      let s := { inProcess w with saw := { State.reset.saw with entries := List.replicate k { someEntry with strip := 7 } } }
      s.inReset = false ∧ s.planner.inFlight = some 1 ∧
        (findStrip s 1).map (fun r => (r.state, r.removalTaken, decide ((cutPlan (planInput s r)).lines.length ≤
          Config.lineCapacity - s.saw.entries.length))) = some (.waitingPlan, false, decide (k = 44))) := by decide +kernel

/-- ProcessingCompletes, of a processing that has allocated both its cuttings. -/
theorem test_hyps_processing_begun :
    let plan := (cutPlan { strip17 with ls := 1300, zones := [] }).cuttings
    PlanBegun (inProcess 2) 1 0 plan ∧ PlanBegun (inProcess 0) 1 0 plan := by
  refine ⟨⟨by decide +kernel, ?_⟩, ⟨by decide +kernel, ?_⟩⟩
  · have h : ∀ i < (inProcess 2).planner.placed, ∀ k ∈ (cutPlan { strip17 with ls := 1300, zones := [] }).cuttings[i]?,
        ∃ c ∈ findCutting (inProcess 2) ⟨1, i⟩, c.nominal = k.nominal ∧ c.cls = k.cls ∧ c.spanStart = k.start.toNat ∧ c.bank = 0 ∧
          c.state = .planned := by decide +kernel
    exact fun i k hi hk => h i hi k hk
  · have h : (inProcess 0).planner.placed = 0 := by decide +kernel
    exact fun i k hi _ => by omega

/-- R92: an entry of another strip at the place of strip 31's first line drops that line, and the cutting that starts on it goes. -/
theorem test_processing_drops_a_line :
    let s0 := inProcess 2
    let s := { s0 with saw := { s0.saw with entries := [{ someEntry with strip := 7, tick := plusTicks 100 (40000 + 1500 + 50) }] } }
    let t := after .processingComplete s
    (findStrip s 1).map (fun r => (loadLines s r (cutPlan (planInput s r)).lines).wasteIndices 2) = some [0] ∧
      t.cuttings.map (fun c => c.id.index) = [1] ∧ (findStrip t 1).map Strip.yield = some (some 192) := by decide +kernel

/-- R74, R91: a fire list without room keeps its entries, and the cuttings go. -/
theorem test_processing_finds_no_room :
    let s := { inProcess 2 with saw := { State.reset.saw with entries := List.replicate 48 { someEntry with strip := 7 } } }
    let t := after .processingComplete s
    t.saw = s.saw ∧ t.cuttings = [] ∧ (findStrip t 1).map (fun r => (r.state, r.reason, r.lines)) =
      some (.unplanned, some .fireListFull, []) := by decide +kernel

/-- PlanLinesKeepTheRecoveryDistance, with Dr at the largest value the lengths allow as well. -/
theorem test_hyps_plan :
    0 < strip17.dr ∧ strip17.lengths ≠ [] ∧ (∀ n ∈ strip17.lengths, strip17.dr ≤ n + strip17.cut.ae) ∧
      (let x := { strip17 with dr := 256 }
       0 < x.dr ∧ x.lengths ≠ [] ∧ ∀ n ∈ x.lengths, x.dr ≤ n + x.cut.ae) := by decide +kernel

/-- TestsCompareAsTheirOperationSays, ResultsFoldIntoTheirFlag. -/
theorem test_hyps_tests_and_flags :
    (2 : Int) < 3 ∧ ((-2147483648 : Int) ≤ -2147483648 ∧ (2147483647 : Int) ≤ 2147483647) ∧
      ∀ d ∈ [0, 1], ∀ c ∈ [0, 1, 2, 3], let e : TestEntry := ⟨0, 0, 0, 0, d, c, 0, 0⟩
        e.dest = d ∧ e.combine = c := by decide

/-- TheFirstPassingGradeIsTaken. -/
theorem test_hyps_grades :
    runGrades gradingBank (graded17 500 0 0 22 (some 74)).features gradingBank.gradeList 0 = .graded 0 11 ∧
      runGrades activeRecipe (cuttingIn .planned).features [⟨11, 0, 0, 0⟩, ⟨12, 0, 0, 15⟩] 0 = .graded 1 12 := by decide +kernel

/-- The part in RUN with bank 0 the example bank of 5.8 and cutting C1 of strip 17 referred. -/
def referredState : State :=
  let c := { graded17 750 1 2 18 (some 77) with gradeStatus := .resuming }
  { lineAt .run with
    cuttings := [c]
    grade := { run := some ⟨⟨1, 0⟩, ⟨1, 5, true, true⟩, true⟩, queue := [⟨⟨9, 0⟩, ⟨0, 2, true, true⟩, false⟩] }
    recipe := { banks := #v[{ gradingBank with state := .active, generation := some 1 }, Bank.empty], counter := 2 } }

/-- ResumptionRunGradesTheCutting. -/
theorem test_hyps_resumption :
    (lineAt .run).grade.run = none ∧ (lineAt .run).grade.queue = [] ∧ referredState.inReset = false ∧
      referredState.grade.run = some ⟨⟨1, 0⟩, ⟨1, 5, true, true⟩, true⟩ ∧
      (findCutting referredState ⟨1, 0⟩).map (fun c => resumeRun referredState.recipe.banks[c.bank] c ⟨1, 5, true, true⟩ true) =
        some (.graded 1 12) := by decide +kernel

/-- A referral of cutting i of strip 7, under a tag or waiting. -/
def otherReferral (i : Nat) (tag : Option Nat) : Referral :=
  { id := ⟨7, i⟩, context := ⟨0, 0, true, true⟩, feature := 16, spanStart := 14, spanEnd := 520, nominal := 500, stripLength := 3007,
    tag, arose := 0 }

/-- Referrals of strip 7, n outstanding under tags 101 on and m waiting, the tag memory and last tag as given. -/
def referralsOf (n m : Nat) (last : Option Nat) (mem : Vector (Option TagEntry) 255) : ReferralUnit :=
  { outstanding := (List.range n).map (fun i => otherReferral i (some (101 + i)))
    waiting := (List.range m).map (fun i => otherReferral (8 + i) none)
    lastTag := last
    memory := mem }

/-- The part in RUN with C1 of strip 17 resuming after a test of its grade 1, every grade with one verdict function. -/
def resumingAt (test verdict : Nat) (u : ReferralUnit) : State :=
  let b : Bank := { gradingBank with
    state := .active
    generation := some 1
    cut := some cutSection
    grades := some [⟨11, 0, 4, verdict⟩, ⟨12, 4, 2, verdict⟩, ⟨13, 6, 1, verdict⟩] }
  { referredState with
    grade := { referredState.grade with run := some ⟨⟨1, 0⟩, ⟨1, test, true, true⟩, true⟩ }
    recipe := { banks := #v[b, Bank.empty], counter := 2 }
    referral := u }

/-- How C1's run ends there. -/
def resumedEnd (s : State) : Option RunEnd :=
  s.grade.run.bind (fun k => (findCutting s ⟨1, 0⟩).map (fun c => resumeRun s.recipe.banks[c.bank] c k.context k.result))

/-- The tag memory with tags 255 and 1 OUTSTANDING and tag 2 ENDED. -/
def someMemory : Vector (Option TagEntry) 255 :=
  setAt (setAt (setAt (Vector.replicate 255 none) 254 (some ⟨⟨7, 0⟩, false⟩)) 0 (some ⟨⟨7, 1⟩, false⟩)) 1 (some ⟨⟨7, 2⟩, true⟩)

/-- TagNext: the first tag of all, the one after 255, and 2 past 255 and 1, which are OUTSTANDING. -/
theorem test_hyps_next_tag :
    TagNext (referralsOf 0 0 none (Vector.replicate 255 none)) 1 ∧ TagNext (referralsOf 0 0 (some 255) (Vector.replicate 255 none)) 1 ∧
      TagNext (referralsOf 0 0 (some 254) someMemory) 2 := by
  refine ⟨⟨1, 0, ?_⟩, ⟨1, 0, ?_⟩, ⟨255, 2, ?_⟩⟩
  all_goals refine ⟨?_, ?_, ?_, ?_, ?_, ?_⟩ <;> decide

/-- ResumptionRunGradesTheCutting: a run that no grade passes, a cutting that has gone, and a suspension with 3 slots taken, with 4 and 3 waiting, and
with 4 and 4. -/
theorem test_hyps_resumption_ends :
    resumedEnd (resumingAt 5 0 (referralsOf 0 0 none someMemory)) = some .noGrade ∧
      findCutting { referredState with cuttings := [] } ⟨1, 0⟩ = none ∧
      ∀ x ∈ [(3, 0), (4, 3), (4, 4)],
        let s := resumingAt 4 12 (referralsOf x.1 x.2 (some 254) someMemory)
        s.inReset = false ∧ s.grade.run.map Resumption.id = some ⟨1, 0⟩ ∧ resumedEnd s = some (.suspended ⟨1, 5, true, true⟩ 16) ∧
          s.referral.outstanding.length = x.1 ∧ s.referral.waiting.length = x.2 := by decide +kernel

/-- ResumptionRunGradesTheCutting: the referral that the suspension raises. -/
theorem test_hyps_referral_raised :
    ReferralRaised (resumingAt 4 12 (referralsOf 3 0 (some 254) someMemory)) { graded17 750 1 2 18 (some 77) with gradeStatus := .resuming }
      ⟨1, 5, true, true⟩ 16
      { id := ⟨1, 0⟩, context := ⟨1, 5, true, true⟩, feature := 16, spanStart := 14, spanEnd := 520, nominal := 500, stripLength := 0,
        tag := none, arose := 0 } := ⟨rfl, rfl, rfl, rfl, by decide +kernel, rfl, by decide +kernel, rfl, rfl⟩

/-- R108, R118, R119: the suspended run takes tag 2 and the free slot, waits behind four, or overflows behind eight. -/
theorem test_suspension_raises_a_referral :
    [(3, 0), (4, 3), (4, 4)].map (fun x =>
        let t := after .resumptionRunEnd (resumingAt 4 12 (referralsOf x.1 x.2 (some 254) someMemory))
        (t.referral.outstanding.map Referral.tag, t.referral.waiting.length, t.link.tx.length, t.cuttings.map Cutting.rejectReason)) =
      [([some 101, some 102, some 103, some 2], 0, 1, [none]), ([some 101, some 102, some 103, some 104], 4, 0, [none]),
       ([some 101, some 102, some 103, some 104], 4, 1, [some .referralOverflow])] := by decide +kernel

/-- The part in RUN with tag 7 given to cutting 15 of the last strip number. -/
def outstandingState (ended : Bool) : State :=
  let q : Referral :=
    { id := ⟨16777215, 15⟩, context := ⟨1, 5, true, true⟩, feature := 16, spanStart := 14, spanEnd := 520, nominal := 500,
      stripLength := 3007, tag := some 7, arose := 0 }
  { lineAt .run with
    referral := { State.reset.referral with
      outstanding := if ended then [] else [q]
      memory := setAt State.reset.referral.memory 6 (some ⟨⟨16777215, 15⟩, ended⟩) } }

/-- AnswersAreJudgedByTagAndCutting. -/
theorem test_hyps_answer (ended : Bool) (tag i v : Byte) (n : Word) :
    Asked (asks 0x18 (tag :: (bytes32 n ++ [i, v])) (outstandingState ended)) (request 0x18 (tag :: (bytes32 n ++ [i, v]))) :=
  asked_asks _ _ _ rfl

/-- The clauses of AnswersAreJudgedByTagAndCutting at their bounds. -/
theorem test_hyps_answer_entries :
    (16777216 : Word).toNat = 16777216 ∧ (16777215 : Word).toNat = 16777215 ∧ 15 < (16 : Byte).toNat ∧ (15 : Byte).toNat ≤ 15 ∧
      1 < (2 : Byte).toNat ∧ (1 : Byte).toNat ≤ 1 ∧ (outstandingState false).referral.entry 255 = none ∧
      (outstandingState true).referral.entry 7 = some ⟨⟨16777215, 15⟩, true⟩ ∧
      (let s := outstandingState false
       s.referral.entry 7 = some ⟨⟨16777215, 15⟩, false⟩ ∧
         (s.referral.outstanding.find? (fun x => decide (x.tag = some 7))).map Referral.id = some ⟨16777215, 15⟩ ∧
         s.referral.waiting = [] ∧ s.grade.run = none ∧ s.grade.queue = []) := by decide +kernel

/-- The part in RUN with tag 7 given to cutting 15 of the last strip number, three more referrals outstanding and one waiting, the path busy or
idle. -/
def answeredState (busy : Bool) : State :=
  let s := outstandingState false
  let u := referralsOf 3 1 (some 254) s.referral.memory
  { s with
    referral := { u with outstanding := s.referral.outstanding ++ u.outstanding }
    grade := { run := if busy then some ⟨⟨9, 0⟩, ⟨0, 2, true, true⟩, false⟩ else none, queue := [] } }

/-- AnswersAreJudgedByTagAndCutting: a full set of slots with one referral waiting, and the tag that it takes. -/
theorem test_hyps_answer_promotes :
    (∀ busy ∈ [true, false],
      let s := answeredState busy
      s.referral.entry 7 = some ⟨⟨16777215, 15⟩, false⟩ ∧ s.referral.waiting = [otherReferral 8 none] ∧ s.grade.run.isSome = busy ∧
        (s.referral.outstanding.find? (fun x => decide (x.tag = some 7))).map Referral.id = some ⟨16777215, 15⟩ ∧
        (s.referral.outstanding.filter (fun x => decide (x.id ≠ ⟨16777215, 15⟩))).length = 3) ∧
      TagNext { (answeredState true).referral.setEntry 7 ⟨⟨16777215, 15⟩, true⟩ with outstanding := [] } 255 := by
  refine ⟨by decide +kernel, 255, 0, ?_⟩
  refine ⟨?_, ?_, ?_, ?_, ?_, ?_⟩ <;> decide +kernel

/-- R109, R121: the answer queues the resumption behind a run in progress, and the oldest waiting referral takes the slot under tag 255. -/
theorem test_answer_promotes :
    let t := after .answer (asks 0x18 (7 :: (bytes32 16777215 ++ [15, 1])) (answeredState true))
    t.grade.queue.map Resumption.id = [⟨16777215, 15⟩] ∧ t.referral.waiting = [] ∧
      t.referral.outstanding.map (fun q => (q.id, q.tag)) =
        [(⟨7, 0⟩, some 101), (⟨7, 1⟩, some 102), (⟨7, 2⟩, some 103), (⟨7, 8⟩, some 255)] ∧ t.link.tx.length = 2 := by decide +kernel

/-- The part in RUN with cutting 0 at the head of the deck and bin 1 as it stands. -/
def deckState (c : Cutting) (s : State) : State := { s with cuttings := [c], chain := { s.chain with deck := [c.id, ⟨9, 0⟩] } }

/-- LugPulseLoadsTheHeadOfTheDeck, for a reject, for no bin and for bin 1. -/
theorem test_hyps_lug_load :
    (∀ c ∈ [{ cuttingIn .onDeck with grade := some .reject, gradeCode := none, rejectReason := some .noGrade }, cuttingIn .onDeck],
      let s := deckState c (lineAt .run)
      s.inReset = false ∧ lugOccupancy s = [] ∧ (∀ b : Bin, s.chain.windows[b] = none) ∧ s.chain.deck = [c.id, ⟨9, 0⟩] ∧
        findCutting s c.id = some c ∧ c.gradeStatus = .graded ∧
        ∀ b : Bin, admits s b 0 (s.recipe.banks[c.bank].generation.getD 0) c.cls c.nominal = false) ∧
      (let s := deckState (cuttingIn .onDeck) (withBin .opened (some (someBundle 1 1)) (lineAt .run))
       lugOccupancy s = [] ∧ admits s 0 0 (s.recipe.banks[(0 : BankId)].generation.getD 0) 3 500 = true ∧
         s.bundles.bins[(0 : Bin)].bundle = some (someBundle 1 1)) := by decide +kernel

/-- The part in RUN with a REFERRED cutting at the head of the deck, its referral outstanding or waiting. -/
def referredHead (out : Bool) : State :=
  let q : Referral :=
    { id := ⟨1, 0⟩, context := ⟨0, 0, true, true⟩, feature := 16, spanStart := 14, spanEnd := 520, nominal := 500, stripLength := 3007,
      tag := if out then some 1 else none, arose := 0 }
  { deckState { cuttingIn .onDeck with gradeStatus := .referred, grade := none, gradeCode := none } (lineAt .run) with
    referral := { State.reset.referral with outstanding := if out then [q] else [], waiting := if out then [] else [q] } }

/-- The part in RUN with cutting C1 of strip 17 RESUMING at the head of the deck, its resumption run in progress or behind another's. -/
def resumingHead (own : Bool) : State :=
  let c := { graded17 750 1 2 18 (some 77) with state := .onDeck, gradeStatus := .resuming }
  let k : Resumption := ⟨⟨1, 0⟩, ⟨1, 5, true, true⟩, true⟩
  let other : Resumption := ⟨⟨9, 0⟩, ⟨0, 2, true, true⟩, false⟩
  { deckState c referredState with grade := if own then { run := some k, queue := [other] } else { run := some other, queue := [k] } }

/-- LugPulseLoadsTheHeadOfTheDeck, for a REFERRED cutting. -/
theorem test_hyps_lug_load_referred :
    ∀ out ∈ [true, false],
      let s := referredHead out
      s.inReset = false ∧ lugOccupancy s = [] ∧ (∀ b : Bin, s.chain.windows[b] = none) ∧ s.chain.deck = [⟨1, 0⟩, ⟨9, 0⟩] ∧
        (findCutting s ⟨1, 0⟩).map Cutting.gradeStatus = some .referred ∧
        (findOutstanding s ⟨1, 0⟩).isSome = out ∧ (findWaiting s ⟨1, 0⟩).isNone = out := by decide +kernel

/-- LugPulseLoadsTheHeadOfTheDeck, for a RESUMING cutting. -/
theorem test_hyps_lug_load_resuming :
    (∀ own ∈ [true, false],
      let s := resumingHead own
      s.inReset = false ∧ lugOccupancy s = [] ∧ (∀ b : Bin, s.chain.windows[b] = none) ∧ s.chain.deck = [⟨1, 0⟩, ⟨9, 0⟩] ∧
        (findCutting s ⟨1, 0⟩).map Cutting.gradeStatus = some .resuming) ∧
      ((resumingHead true).grade.run.map Resumption.id = some ⟨1, 0⟩ ∧ ∀ x ∈ (resumingHead true).grade.queue, x.id ≠ ⟨1, 0⟩) ∧
      (∀ x ∈ (resumingHead false).grade.run, x.id ≠ ⟨1, 0⟩) ∧
      ((resumingHead false).grade.queue.find? (fun x => decide (x.id = ⟨1, 0⟩))).map Resumption.id = some ⟨1, 0⟩ := by decide +kernel

/-- What a lug load fixed for each cutting: grade, reject reason and return reason. -/
def loaded (s : State) : List (Option Grade × Option RejectReason × Option ReturnReason) :=
  s.cuttings.map (fun c => (c.grade, c.rejectReason, c.returnReason))

/-- R111, R124: the load of a REFERRED cutting expires its referral, and that of a RESUMING one grades it. -/
theorem test_lug_load_settles :
    (let t := after (.lugPulse false false) (referredHead true)
     loaded t = [(some .reject, some .referralExpired, some .referralExpired)] ∧ t.referral.outstanding = [] ∧
       t.link.tx = [.notice (.referralEnd 1 ⟨1, 0⟩ .expired .outstanding 0)]) ∧
      ∀ own ∈ [true, false], loaded (after (.lugPulse false false) (resumingHead own)) = [(some (.index 1), none, some .noBin)] := by
  decide +kernel

/-- The part in RUN with C1 RESUMING at the head of the deck behind the run of cutting 0 of strip 9, a copy of it, at a test of grade 1, every grade
with one verdict function. -/
def behindAnother (test verdict : Nat) (u : ReferralUnit) : State :=
  let c := { graded17 750 1 2 18 (some 77) with gradeStatus := .resuming }
  { resumingHead false with
    cuttings := [{ c with state := .onDeck }, { c with id := ⟨9, 0⟩ }]
    grade := { run := some ⟨⟨9, 0⟩, ⟨1, test, true, true⟩, true⟩, queue := [⟨⟨1, 0⟩, ⟨1, 5, true, true⟩, true⟩] }
    recipe := (resumingAt 5 verdict u).recipe
    referral := u }

/-- LugPulseLoadsTheHeadOfTheDeck: the run of the other cutting ends graded, NO_GRADE or suspended, with 3 slots taken or 4 and 4 waiting. -/
theorem test_hyps_lug_load_others :
    ∀ x ∈ [(5, 12, RunEnd.graded 1 12), (5, 0, .noGrade), (4, 12, .suspended ⟨1, 5, true, true⟩ 16)], ∀ n ∈ [(3, 0), (4, 4)],
      let s := behindAnother x.1 x.2.1 (referralsOf n.1 n.2 (some 254) someMemory)
      s.grade.run.map Resumption.id = some ⟨9, 0⟩ ∧ (findCutting s ⟨9, 0⟩).map Cutting.id = some ⟨9, 0⟩ ∧ s.chain.deck.head? = some ⟨1, 0⟩ ∧
        s.referral.outstanding.length = n.1 ∧ s.referral.waiting.length = n.2 ∧
        (findCutting s ⟨9, 0⟩).bind (fun o => s.grade.run.map (fun k => resumeRun s.recipe.banks[o.bank] o k.context k.result)) =
          some x.2.2 := by decide +kernel

/-- R110, R111: the load of a RESUMING cutting completes the run of the other first, whose record has its result. -/
theorem test_lug_load_completes_the_other :
    [(5, 12, 3, 0), (5, 0, 3, 0), (4, 12, 3, 0), (4, 12, 4, 4)].map (fun x =>
        let t := after (.lugPulse false false) (behindAnother x.1 x.2.1 (referralsOf x.2.2.1 x.2.2.2 (some 254) someMemory))
        (findCutting t ⟨9, 0⟩).map (fun o => (o.gradeStatus, o.rejectReason))) =
      [some (.graded, none), some (.graded, some .noGrade), some (.referred, none), some (.graded, some .referralOverflow)] := by
  decide +kernel

/-- LugPulseLoadsTheHeadOfTheDeck, for a REFERRED cutting with the slots full and one referral waiting. -/
theorem test_hyps_lug_load_promotes :
    let u := referralsOf 3 1 (some 254) (setAt State.reset.referral.memory 6 (some ⟨⟨1, 0⟩, false⟩))
    let q := { otherReferral 0 (some 7) with id := ⟨1, 0⟩ }
    let s := { referredHead true with referral := { u with outstanding := q :: u.outstanding } }
    findOutstanding s ⟨1, 0⟩ = some q ∧ s.referral.waiting = [otherReferral 8 none] ∧
      (s.referral.outstanding.filter (fun x => decide (x.id ≠ ⟨1, 0⟩))).length = 3 ∧
      ((after (.lugPulse false false) s).referral.outstanding.map (fun x => (x.id, x.tag)) =
        [(⟨7, 0⟩, some 101), (⟨7, 1⟩, some 102), (⟨7, 2⟩, some 103), (⟨7, 8⟩, some 255)]) := by decide +kernel

/-- R140: PRESENT at an empty lug at the tenoner is a fault and nothing else. -/
theorem test_stray_at_the_tenoner :
    let s := lineAt .run
    (after (.lugPulse true false) s).link.chain.first.map (fun f => (f.code, f.position)) = some (2, 8) ∧ ChainIdle s ∧
      s.chain.deck = [] ∧ lugAt { s with motion := { s.motion with lug := s.motion.lug + 1 } } s.config.chain.offTN = none :=
  ⟨by decide +kernel, ⟨by decide +kernel, by decide +kernel⟩, by decide +kernel, by decide +kernel⟩

/-- The part in RUN with one cutting on a lug. -/
def onLugAt (st : CuttingState) (l : Word) (d : Dest) : State :=
  { lineAt .run with cuttings := [{ cuttingIn st with loadLug := some l, dest := some d }] }

/-- TenonerChecksAndDropsFire, for the first and the last bin. -/
theorem test_hyps_tenoner_and_drop :
    (∀ x ∈ [(CuttingState.onLug, (4 : Word), Dest.toReturn, 4), (.onLug, 4, .bin 7, 4), (.checked, 0, .bin 0, 8),
        (.checked, 8 - 36, .bin 7, 36)],
      let s := onLugAt x.1 x.2.1 x.2.2.1
      s.inReset = false ∧ s.chain.deck = [] ∧ (s.motion.lug + 1 - x.2.1).toNat = x.2.2.2) ∧
      (let s := lineAt .run
       s.config.chain.chainLen ≤ 64 ∧ s.config.chain.offTN = 4 ∧ s.config.chain.offTN < s.config.chain.chainLen ∧
         s.config.chain.offD[(0 : Bin)] = 8 ∧ s.config.chain.offD[(7 : Bin)] = 36 ∧ (∀ b : Bin, s.chain.windows[b] = none) ∧
         (∀ b : Bin, s.config.chain.offTN < s.config.chain.offD[b] ∧ s.config.chain.offD[b] < s.config.chain.chainLen) ∧
         ∀ a b : Bin, a < b → s.config.chain.offD[a] < s.config.chain.offD[b]) := by decide +kernel

/-- TenonerChecksAndDropsFire: MISSING and MISMATCH of a cutting bound for bin 8, and the chain end of a NO_BIN cutting. -/
theorem test_hyps_chain_returns :
    ((onLugAt .onLug 4 (.bin 7)).cuttings.map Cutting.reservedBin = [some 7] ∧ findStrip (onLugAt .onLug 4 (.bin 7)) 1 = none) ∧
      ∀ st ∈ [CuttingState.checked, .mismatch],
        let s0 := onLugAt st (8 - 40) .toReturn
        let s := { s0 with line := lineIn .drain, cuttings := s0.cuttings.map (fun c => { c with returnReason := some .noBin }) }
        s.inReset = false ∧ s.chain.deck = [] ∧ (s.motion.lug + 1 - (8 - 40)).toNat = s.config.chain.chainLen ∧
          s.cuttings.map Cutting.state = [st] ∧ s.cuttings.map Cutting.returnReason = [some .noBin] ∧ findStrip s 1 = none := by decide +kernel

/-- The part in RUN with a cutting over bin 1 whose landing window is open. -/
def dropped (c : Cutting) (s : State) : State :=
  { s with cuttings := [c], chain := { s.chain with windows := setAt s.chain.windows 0 (some c.id) } }

/-- TenonerChecksAndDropsFire: a drop missed. -/
theorem test_hyps_drop_miss :
    let c := { cuttingIn .dropping with loadLug := some 0, dest := some (.bin 0) }
    let s := dropped c (withBin .opened (some (someBundle 2 1)) (lineAt .run))
    s.inReset = false ∧ s.chain.deck = [] ∧ s.chain.windows[(0 : Bin)] = some c.id ∧ (∀ b : Bin, b ≠ 0 → s.chain.windows[b] = none) ∧
      s.cuttings = [c] ∧ c.dest = some (.bin 0) ∧ findStrip s c.id.strip = none ∧ s.link.chain.first = none ∧
      s.link.mask[5] = true ∧ s.link.noticeCount < Config.noticeCapacity ∧ s.recipe.banks[c.bank].state = .active := by decide +kernel

/-- R139: a missing piece bound for bin 1 takes its 500 mm out of the bundle again, and a mismatch keeps its record for the chain end. -/
theorem test_tenoner_releases_the_reservation :
    let s := withBin .opened (some (someBundle 2 1)) (onLugAt .onLug 4 (.bin 0))
    (after (.lugPulse false false) s).cuttings = [] ∧
      ((after (.lugPulse false false) s).bundles.bins[0].bundle.map (fun bu => (bu.count, bu.coverage))) = some (1, 45000) ∧
      (after (.lugPulse true true) s).cuttings.map (fun c => (c.state, c.dest, c.releasedBin)) =
        [(.mismatch, some .toReturn, some 0)] := by decide +kernel

/-- TenonerChecksAndDropsFire: the clauses of ReleasedFrom, for a missing piece of 500 mm. -/
theorem test_hyps_released :
    (let x := (someBundle 11 3).releasePiece 3 500
     x.short = false ∧ x.belowFill = true ∧ x.count ≠ x.landedCount) ∧
      (let x := (someBundle 20 3).releasePiece 3 500
       x.short = false ∧ x.belowFill = false ∧ x.count ≠ x.landedCount) ∧
      (let x := { someBundle 2 1 with short := true }.releasePiece 3 500
       x.short = true ∧ x.count = x.landedCount) ∧
      ∀ st ∈ [BinState.opened, .filled, .held .opened, .held .filled],
        let s := withBin st (some (someBundle 11 3)) (onLugAt .onLug 4 (.bin 0))
        s.bundles.bins[(0 : Bin)].state = st ∧ s.bundles.bins[(0 : Bin)].bundle = some (someBundle 11 3) ∧
          s.recipe.banks[(0 : BankId)].state = .active := by decide +kernel

/-- Bin 1 after a cutting bound for it is missing at the tenoner. -/
def missed (st : BinState) (bu : Bundle) : BinState × Option (Nat × Bool × Bool) :=
  binOne (after (.lugPulse false false) (withBin st (some bu) (onLugAt .onLug 4 (.bin 0))))

/-- R161, R162: a missing piece reopens a FILLED bundle, HELD or not, and closes one that is SHORT. -/
theorem test_release_reopens_or_closes :
    missed .filled (someBundle 11 3) = (.opened, some (10, false, false)) ∧
      missed (.held .filled) (someBundle 11 3) = (.held .opened, some (10, false, false)) ∧
      missed .filled { someBundle 3 1 with short := true } = (.filled, some (2, true, false)) ∧
      missed .filled { someBundle 2 1 with short := true } = (.labelling, some (1, true, true)) := by decide +kernel

/-- LandingsReachTheirBundle. -/
theorem test_hyps_landing :
    (∀ x ∈ [(BinState.opened, 2), (.filled, 2), (.filled, 3), (.held .opened, 2), (.held .filled, 2)], ∀ labels ∈ [7, 8],
      let c := cuttingIn .dropping
      let s0 := dropped c (withBin x.1 (some (someBundle x.2 1)) (lineAt .run))
      let s := { s0 with label := { s0.label with queue := List.replicate labels someLabel } }
      s.inReset = false ∧ s.chain.windows[(0 : Bin)] = some c.id ∧ findCutting s c.id = some c ∧
        s.bundles.bins[(0 : Bin)].bundle = some (someBundle x.2 1) ∧ s.bundles.bins[(0 : Bin)].state = x.1 ∧
        s.recipe.banks[c.bank].state = .active ∧ findStrip s c.id.strip = none ∧ (someBundle x.2 1).landedCount + 1 = 2 ∧
        s.label.queue.length = labels) ∧
      (lineAt .run).inReset = false ∧ (lineAt .run).chain.windows[(7 : Bin)] = none := by decide +kernel

/-- LandingsReachTheirBundle, of the last cutting of a RETIRING bank, with a piece in flight and without. -/
theorem test_hyps_last_landing :
    ∀ n ∈ [2, 3],
      let c := cuttingIn .dropping
      let s0 := dropped c (withBin .opened (some (someBundle n 1)) (lineAt .run))
      let s := { s0 with recipe := { banks := #v[{ activeRecipe with state := .retiring, strips := 0 }, Bank.empty], counter := 2 } }
      s.inReset = false ∧ s.chain.windows[(0 : Bin)] = some c.id ∧ findCutting s c.id = some c ∧ findStrip s c.id.strip = none ∧
        s.bundles.bins[(0 : Bin)].bundle = some (someBundle n 1) ∧ s.bundles.bins[(0 : Bin)].state = .opened ∧
        (someBundle n 1).bank = c.bank ∧ (someBundle n 1).count = n ∧ s.recipe.banks[c.bank].state = .retiring ∧
        s.recipe.banks[c.bank].strips = 0 ∧ s.recipe.banks[c.bank].cuttings = 1 ∧
        (after (.landingEdge 0) s).bundles.bins[0].bundle.map (fun x => (x.short, x.closeSeq)) =
          some (true, if n = 2 then some 1 else none) := by decide +kernel

/-- Beside cutting c of strip 1, whose record has passed its removal position or not: a cutting of strip 9 at lug offset 6 of the pulse to come, and
cutting 1 of strip 1 on the belt, or not. -/
def among (c : Cutting) (taken onTheBelt : Bool) (s : State) : State :=
  { s with
    belt := { strips := [{ stripIn .cutting with trail := some 7000, shift := some 0, removalTaken := taken }], nextNumber := 10 }
    cuttings := [{ cuttingIn .checked with id := ⟨9, 0⟩, loadLug := some 2, dest := some (.bin 4) }, c] ++
      if onTheBelt then [{ cuttingIn .cut with id := ⟨1, 1⟩ }] else [] }

/-- The cuttings that TenonerChecksAndDropsFire follows: at the tenoner, at the drops of bins 1 and 8, at the chain end, and in an open window. -/
def followed : List Cutting :=
  [(CuttingState.onLug, 4, Dest.toReturn), (.onLug, 4, .bin 7), (.checked, 0, .bin 0), (.checked, 8 - 36, .bin 7), (.checked, 8 - 40, .toReturn),
    (.mismatch, 8 - 40, .toReturn), (.dropping, 0, .bin 0)].map
      (fun x => { cuttingIn x.1 with loadLug := some x.2.1, dest := some x.2.2 })

/-- TenonerChecksAndDropsFire and LandingsReachTheirBundle: no other cutting stands at a station. -/
theorem test_hyps_others_clear : ∀ c ∈ followed, ∀ taken ∈ [true, false], ∀ b ∈ [true, false],
    OthersClear (among c taken b (lineAt .run)) c := by
  have h : ∀ c ∈ followed, ∀ taken ∈ [true, false], ∀ b ∈ [true, false],
      let s := among c taken b (lineAt .run)
      ∀ x ∈ s.cuttings, x = c ∨ x.id ≠ c.id ∧ (x.state.onLugP = true → x.loadLug.all (fun l =>
        s.motion.lug + 1 - l != BitVec.ofNat 32 s.config.chain.offTN && s.motion.lug + 1 - l != BitVec.ofNat 32 s.config.chain.chainLen &&
          s.config.chain.offD.all (fun o => s.motion.lug + 1 - l != BitVec.ofNat 32 o)) = true) := by decide +kernel
  intro c hc taken ht b hb x hx
  rcases h c hc taken ht b hb x hx with e | ⟨e, f⟩
  · exact .inl e
  · refine .inr ⟨e, fun hp l hl => ?_⟩
    have g := f hp
    rw [hl] at g
    simp only [Option.all_some, Bool.and_eq_true, bne_iff_ne, Vector.all_eq_true] at g
    exact ⟨g.1.1, g.1.2, fun d => g.2 d d.isLt⟩

/-- The same two: the strip in the table stays, its removal to come or a cutting of it on the belt, or leaves with the cutting. -/
theorem test_hyps_strip_stays : ∀ c ∈ followed, ∀ x ∈ [(false, false), (false, true), (true, true)],
    StripStays (among c x.1 x.2 (lineAt .run)) c := by
  have h : ∀ c ∈ followed, ∀ x ∈ [(false, false), (false, true), (true, true)],
      ∀ r ∈ findStrip (among c x.1 x.2 (lineAt .run)) c.id.strip, r.removalTaken = true →
        ∃ id ∈ beltCuttings c.id.strip (among c x.1 x.2 (lineAt .run)), id ≠ c.id := by decide +kernel
  exact fun c hc x hx r hr => h c hc x hx r hr

/-- The same two: the strip leaves with its last cutting, which ReleaseStandsAlone takes in. -/
theorem test_hyps_strip_leaves : ∀ c ∈ followed,
    let s := among c true false (lineAt .run)
    findCutting s c.id = some c ∧ (findStrip s c.id.strip).map (fun r => (r.removalTaken, r.bank, r.state)) = some (true, c.bank, .cutting) ∧
      beltCuttings c.id.strip s = [] := by decide +kernel

/-- R17, R139: a missing piece leaves the other cuttings, and its strip while it still waits for one on the belt. -/
theorem test_missing_among_others :
    [(false, false), (true, true), (true, false)].map (fun x =>
        let c := { cuttingIn .onLug with loadLug := some 4, dest := some (.bin 0) }
        let t := after (.lugPulse false false) (among c x.1 x.2 (withBin .opened (some (someBundle 2 1)) (lineAt .run)))
        (t.cuttings.map Cutting.id, t.belt.strips.map Strip.number, t.bundles.bins[0].bundle.map Bundle.count)) =
      [([⟨9, 0⟩], [1], some 1), ([⟨9, 0⟩, ⟨1, 1⟩], [1], some 1), ([⟨9, 0⟩], [], some 1)] := by decide +kernel

/-- R17, R142: a landing likewise. -/
theorem test_landing_among_others :
    [(false, false), (true, true), (true, false)].map (fun x =>
        let c := { cuttingIn .dropping with loadLug := some 0, dest := some (.bin 0) }
        let t := after (.landingEdge 0) { among c x.1 x.2 (withBin .opened (some (someBundle 2 1)) (lineAt .run)) with
          chain := (dropped c (lineAt .run)).chain }
        (t.cuttings.map Cutting.id, t.belt.strips.map Strip.number, t.bundles.bins[0].bundle.map Bundle.landedCount)) =
      [([⟨9, 0⟩], [1], some 2), ([⟨9, 0⟩, ⟨1, 1⟩], [1], some 2), ([⟨9, 0⟩], [], some 2)] := by decide +kernel

/-- The part without an ACTIVE bank, a bundle of the retired one in bin 1. -/
def noBank (s : State) : State := { s with recipe := { banks := #v[Bank.empty, Bank.empty], counter := 2 } }

/-- BinEmptyOpensTheNextBundle. -/
theorem test_hyps_bin_empty :
    (∀ st ∈ [BinState.idle, .opened, .clearing],
      let s := withBin st (some (someBundle 1 1)) (lineAt .run)
      s.inReset = false ∧ s.bundles.bins[(0 : Bin)].emptyLevel = false ∧ s.bundles.bins[(0 : Bin)].state = st ∧
        planFor s 0 = some (0, binEntry)) ∧
      planFor (noBank (withBin .clearing (some (someBundle 1 1)) (lineAt .run))) 0 = none := by decide +kernel

/-- AdmissionCommitsAndReleaseRestores. -/
theorem test_hyps_admission :
    let s := withBin .opened (some (someBundle 1 1)) (lineAt .run)
    admission 0 1 3 500 s = (some 0, (admission 0 1 3 500 s).2) ∧ 11 < 12 := by decide +kernel

/-- BinHoldByBinState. -/
theorem test_hyps_bin_hold (st : BinState) (n h : Byte) :
    Asked (asks 0x23 [n, h] (withBin st (some (someBundle 2 1)) (lineAt .run))) (request 0x23 [n, h]) := asked_asks _ _ _ rfl

/-- The clauses of BinHoldByBinState, for each bin state. -/
theorem test_hyps_bin_states :
    (0 : Byte).toNat < 1 ∧ 8 < (9 : Byte).toNat ∧ (0 : Bin).val + 1 = (1 : Byte).toNat ∧ (7 : Bin).val + 1 = (8 : Byte).toNat ∧
      1 < (2 : Byte).toNat ∧
      (∀ st ∈ [BinState.idle, .opened, .filled, .closing, .labelling, .clearing, .held .opened, .held .filled],
        let s := asks 0x23 [1, 0] (withBin st (some (someBundle 2 1)) (lineAt .run))
        s.bundles.bins[(0 : Bin)].state = st ∧ s.bundles.bins[(0 : Bin)].bundle = some (someBundle 2 1) ∧
          activeBank s = some (someBundle 2 1).bank ∧ s.recipe.banks[(someBundle 2 1).bank].state ≠ .retiring) ∧
      (∀ u ∈ [Underlying.opened, .filled], ∀ k ∈ [0, 2],
        let bu := someBundle k k
        let s := asks 0x23 [1, 0] (noBank (withBin (.held u) (some bu) (lineAt .run)))
        s.bundles.bins[(0 : Bin)].state = .held u ∧ s.bundles.bins[(0 : Bin)].bundle = some bu ∧ bu.count = k ∧ bu.landedCount = k ∧
          activeBank s = none ∧ s.recipe.banks[bu.bank].strips = 0 ∧ s.recipe.banks[bu.bank].cuttings = 0 ∧ planFor s 0 = none) ∧
      (someBundle 2 1).count ≠ (someBundle 2 1).landedCount ∧
      (let s := asks 0x23 [1, 0] (withBin (.held .filled) (some (someBundle 2 2)) (lineAt .run))
       s.bundles.bins[(0 : Bin)].state = .held .filled ∧ s.bundles.bins[(0 : Bin)].bundle = some (someBundle 2 2) ∧
         activeBank s = some (someBundle 2 2).bank ∧ (someBundle 2 2).count = (someBundle 2 2).landedCount) := by decide +kernel

/-- R169: a full bundle found due for generation close at the end of its hold takes SHORT, with RELEASED, FILLED and CLOSED notices. -/
theorem test_due_bundle_closes_short :
    let t := after .binHold (asks 0x23 [1, 0] (noBank (withBin (.held .filled) (some (someBundle 2 2)) (lineAt .run))))
    t.bundles.bins[0].state = .labelling ∧ (t.bundles.bins[0].bundle.map Bundle.short) = some true ∧
      t.link.tx.map (fun f => match f with
        | .notice (.bundle n) => n.event.code
        | _ => 99) = [6, 1, 3, 99] := by decide +kernel

/-- CloseBundleByBinState. -/
theorem test_hyps_close_bundle (bu : Bundle) (n : Byte) :
    Asked (asks 0x24 [n] (withBin .opened (some bu) (lineAt .run))) (request 0x24 [n]) ∧
      (asks 0x24 [n] (withBin .opened (some bu) (lineAt .run))).bundles.bins[(0 : Bin)].bundle = some bu := ⟨asked_asks _ _ _ rfl, rfl⟩

/-- CloseBundleByBinState, of a FILLED bin. -/
theorem test_hyps_close_bundle_filled (bu : Bundle) (n : Byte) :
    Asked (asks 0x24 [n] (withBin .filled (some bu) (lineAt .run))) (request 0x24 [n]) ∧
      (asks 0x24 [n] (withBin .filled (some bu) (lineAt .run))).bundles.bins[(0 : Bin)].state = .filled ∧
      { bu with short := true }.short = true := ⟨asked_asks _ _ _ rfl, rfl, rfl⟩

/-- The clauses of CloseBundleByBinState, with 7 and 8 labels queued. -/
theorem test_hyps_close_bundle_counts :
    (someBundle 0 0).landedCount = 0 ∧ ((someBundle 2 1).landedCount ≠ 0 ∧ (someBundle 2 1).count ≠ (someBundle 2 1).landedCount) ∧
      ((someBundle 1 1).landedCount ≠ 0 ∧ (someBundle 1 1).count = (someBundle 1 1).landedCount) ∧
      (List.replicate 7 someLabel).length < Config.labelCapacity ∧ Config.labelCapacity ≤ (List.replicate 8 someLabel).length := by
  decide +kernel

/-- ReadyPrintsAndAcceptDumps, its clauses on READY. -/
theorem test_hyps_ready :
    (lineAt .run).inReset = false ∧ (lineAt .run).label.queue = [] ∧ 1 < (2 : Byte).toNat ∧
      (let s := withHead .waitReady false (lineAt .run)
       s.label.queue = [someLabel] ∧ s.label.head = .waitReady ∧ s.label.printing = none) ∧
      (let s := { lineAt .run with label := { State.reset.label with printing := some ⟨someLabel, true⟩ } }
       s.label.printing = some ⟨someLabel, true⟩ ∧ s.inReset = false) := by decide +kernel

/-- ReadyPrintsAndAcceptDumps, its clauses on ACCEPT, and HeadBecomesFaulted, for each state of the head. -/
theorem test_hyps_head_of_the_labels :
    ∀ hd ∈ [HeadState.waitReady, .sent, .accepted, .faulted .labeller 1, .faulted .acceptTimeout 0],
      ∀ d ∈ [true, false], ∀ l ∈ [LineState.run, .estop],
      let s := withHead hd d (lineAt l)
      s.inReset = false ∧ s.label.queue = [someLabel] ∧ s.label.head = hd ∧ s.label.dumped = d ∧ s.line.state = l ∧
        someLabel.number = 5 ∧ someLabel.number ≠ 6 ∧ someLabel.number ≠ 0 := by decide +kernel

/-- HeadLabelIsDispatched: the head, with its dump given and still due, in RUN and in ESTOP. -/
theorem test_hyps_dispatch :
    ∀ d ∈ [true, false], ∀ l ∈ [LineState.run, .estop],
      let s := withHead (.faulted .labeller 1) d (withBin .labelling (some (someBundle 1 1)) (lineAt l))
      let v := asks 0x29 (bytes32 someLabel.number) s
      s.inReset = false ∧ s.label.queue = [someLabel] ∧ s.label.dumped = d ∧ s.line.state = l ∧
        s.bundles.bins[someLabel.bin].emptyLevel = false ∧ (∀ b : Bin, s.bundles.bins[b].state ≠ .closing) ∧
        v.link.requests.head? = some (request 0x29 (bytes32 someLabel.number)) ∧ v.label.head = .faulted .labeller 1 := by
  decide +kernel

/-- The part with the head of test_hyps_dispatch, BIN EMPTY1 active, and bin 3 CLOSING. -/
def dispatching : State :=
  let s := withHead (.faulted .labeller 1) true (withBin .labelling (some (someBundle 1 1)) (lineAt .run))
  mapBin 2 (fun r => { r with state := .closing, bundle := some { someBundle 1 1 with closeSeq := some 1 } })
    (mapBin someLabel.bin (fun r => { r with emptyLevel := true }) s)

/-- The clauses of HeadDispatched for BIN EMPTY active and for a CLOSING bin. -/
theorem test_hyps_dispatch_clauses :
    dispatching.bundles.bins[someLabel.bin].emptyLevel = true ∧ (planFor dispatching someLabel.bin).isSome = true ∧
      planFor (noBank dispatching) someLabel.bin = none ∧ (2 : Bin) ≠ someLabel.bin ∧
      (dispatching.bundles.bins[(2 : Bin)].bundle.bind Bundle.closeSeq) = some 1 ∧
      (∀ b : Bin, b ≠ someLabel.bin → b ≠ 2 → dispatching.bundles.bins[b].state ≠ .closing) ∧
      (match exec (.applied someLabel.number) dispatching with
        | .next t => (t.label.queue.map LabelRecord.bin, t.bundles.bins[(2 : Bin)].state, t.bundles.bins[someLabel.bin].state)
        | _ => ([], .idle, .idle)) = ([2], .labelling, .opened) := by decide +kernel

/-- R187: LABEL VOID of 0, of another number, of a head not FAULTED, and of an empty queue. -/
theorem test_label_void_refusals :
    [(0, HeadState.faulted .labeller 1), (6, .faulted .labeller 1), (5, .waitReady), (5, .sent), (5, .accepted)].map
        (fun x => lastStatus (after .labelVoid (asks 0x29 (bytes32 x.1) (withHead x.2 true (lineAt .run))))) =
      [some (.field 0), some .notfound, some .state, some .state, some .state] ∧
      lastStatus (after .labelVoid (asks 0x29 (bytes32 5) (lineAt .run))) = some .notfound := by decide +kernel

/-- LabelRetryAndReadLabels, and HeadLabelIsDispatched, the refusals of LABEL VOID. -/
theorem test_hyps_label_requests (hd : HeadState) (n : Word) :
    Asked (asks 0x28 (bytes32 n) (withHead hd true (lineAt .run))) (request 0x28 (bytes32 n)) ∧
      Asked (asks 0x29 (bytes32 n) (withHead hd true (lineAt .run))) (request 0x29 (bytes32 n)) ∧
      Asked (asks 0x2A [] (withHead hd true (lineAt .run))) (request 0x2A []) ∧ (withHead hd true (lineAt .run)).label.head = hd ∧
      (withHead hd true (lineAt .run)).label.queue = [someLabel] ∧ (withHead hd true (lineAt .run)).label.readyFlag = false :=
  ⟨asked_asks _ _ _ rfl, asked_asks _ _ _ rfl, asked_asks _ _ _ rfl, rfl, rfl, rfl⟩

/-- ReceiverReadsWhatTheFrameSays, BadFramesAreDiscarded, at their bounds. -/
theorem test_hyps_frames :
    ([] : List Byte).length ≤ 1022 ∧ (List.replicate 1022 (7 : Byte)).length ≤ 1022 ∧
      ((lineAt .run).link.receiver = .hunting ∧ (lineAt .run).link.labelReceiver = .hunting ∧ (lineAt .run).inReset = false) ∧
      ([0xA4, 0xA6] : List Byte).all (fun x => x ≠ 0xA5) = true ∧ (1 : BitVec 16).toNat < 2 ∧ 1024 < (1025 : BitVec 16).toNat ∧
      (2 ≤ (2 : BitVec 16).toNat ∧ ([1, 2, 3] : List Byte).length < (2 : BitVec 16).toNat + 2) ∧
      ([7, 7] : List Byte).length = (2 : BitVec 16).toNat ∧ (List.replicate 1024 (7 : Byte)).length = (1024 : BitVec 16).toNat ∧
      ((1024 : BitVec 16).toNat ≤ 1024 ∧ (List.replicate 1025 (0 : Byte)).length < (1024 : BitVec 16).toNat + 2) := by decide +kernel

/-- BadFramesAreDiscarded: whatever the length and contents n and content, one of two byte pairs is not their CRC. -/
theorem test_hyps_bad_crc (n : BitVec 16) (content : List Byte) :
    ∃ crc : List Byte, crc.length = 2 ∧ crc ≠ bytes16 (crc16 (bytes16 n ++ content)) := by
  by_cases h : ([0, 0] : List Byte) = bytes16 (crc16 (bytes16 n ++ content))
  · exact ⟨[1, 0], rfl, by rw [← h]; decide⟩
  · exact ⟨[0, 0], rfl, h⟩

/-- RequestsJoinTheQueue, at its bounds; ActivitiesEnd asks a part out of reset alone. -/
theorem test_hyps_request_kinds :
    (1 ≤ (1 : Byte).toNat ∧ (63 : Byte).toNat ≤ 63 ∧ (0 : Byte).toNat < 1 ∧ 63 < (64 : Byte).toNat) ∧
      (List.replicate 3 (request 1 [])).length < 4 ∧ 4 ≤ (List.replicate 4 (request 1 [])).length ∧
      1022 < (List.replicate 1023 (0 : Byte)).length := by decide +kernel

/-- UnknownIdentifyAndStatus, TrackingReadsChangeNothing, SetupReadsChangeNothing, SettingsAreTaken. -/
theorem test_hyps_reads (l : LineState) (kind : Byte) (body : List Byte) :
    Asked (asks kind body (lineAt l)) (request kind body) ∧ (request kind body).kind = kind ∧ (request kind body).body = body :=
  ⟨asked_asks _ _ _ rfl, rfl, rfl⟩

/-- The clauses of the statements on reads, at their bounds. -/
theorem test_hyps_read_operands :
    ((0x0C : Byte) ∉ assignedKinds ∧ (0x3F : Byte) ∉ assignedKinds) ∧ ([0] : List Byte) ≠ [] ∧ ([0, 0] : List Byte).length ≠ 1 ∧
      1 < (2 : Byte).toNat ∧
      ((0 : Word).toNat < 1 ∧ 16777215 < (16777216 : Word).toNat ∧ 1 ≤ (1 : Word).toNat ∧ (16777215 : Word).toNat ≤ 16777215) ∧
      (findStrip (lineAt .run) 1 = none ∧ findStrip (withStrip (stripIn .planned) (lineAt .run)) 1 = some (stripIn .planned)) ∧
      (findCutting (lineAt .run) ⟨1, 0⟩ = none ∧
        findCutting { lineAt .run with cuttings := [cuttingIn .onLug] } ⟨1, 0⟩ = some (cuttingIn .onLug)) ∧
      (4 < (5 : Byte).toNat ∧ 3 < (4 : Byte).toNat ∧ FaultBook.ofCode 0 = some .belt ∧ FaultBook.ofCode 3 = some .link) ∧
      ((6 : Byte).toNat ≤ 6 ∧ (6 : Byte) ≠ 3 ∧ (63 : Byte).toNat ≤ 63 ∧ 1 ≤ (1 : Byte).toNat ∧
        (63 : Byte).toNat + (1 : Byte).toNat ≤ 64) ∧
      (1 < (2 : Byte).toNat ∧ (1 : Byte).toNat ≤ 1 ∧ 6 < (7 : Byte).toNat ∧ 63 < (64 : Byte).toNat ∧
        64 < (63 : Byte).toNat + (2 : Byte).toNat ∧ ([1, 2, 3] : List Byte).length ≠ 2) := by decide +kernel

/-- The clauses of SettingsAreTaken, at their bounds. -/
theorem test_hyps_settings :
    (1 < (2 : Byte).toNat ∧ (1 : Byte) = (if true then 1 else 0)) ∧ (2047 < (2048 : BitVec 16).toNat ∧ (2047 : BitVec 16).toNat ≤ 2047) ∧
      (lineAt .run).line.holds.host = false ∧ (1 : Word) ≠ 0 := by decide

/-- The fields of a MOTION section as Table 69 orders them. -/
def motionFields (k dr : Int) : List Int := [k, 20000, 40000, 1500, 2000, 64, 200, dr]

/-- The fields of a CHANNELS section at their bounds: channel c has role c up to NONE, and channel 1 the role r. -/
def channelFields (r : Int) : List Int :=
  (List.range 16).flatMap (fun c => [3, -100000, 1000000, if c = 1 then r else min c 10, 4, 7, 7, 1])

/-- The fields of a SCAN section with a count of 2 and a channel as its second. -/
def scanFields (c : Int) : List Int := [2, 15, c] ++ List.replicate 14 99 ++ [255, 255, 32]

/-- The fields of a CHAIN section of 12 lugs, the last drop as given. -/
def chainFields (d : Int) : List Int := [12, 1, 2, 3, 4, 5, 6, 7, 8, d]

/-- ConfigureJudgesTheSection: the sections at their bounds pass, field by field. -/
theorem test_hyps_configure_passes (s : State) :
    (∀ i, 1 ≤ i → i ≤ 128 → ConfigFieldPasses s 1 (tableField (channelFields 1)) i) ∧
      (∀ i, 1 ≤ i → i ≤ 20 → ConfigFieldPasses s 2 (tableField (scanFields 15)) i) ∧
      (∀ i, 1 ≤ i → i ≤ 2 → ConfigFieldPasses s 3 (tableField [12, 11]) i) ∧
      ∀ i, 1 ≤ i → i ≤ 10 → ConfigFieldPasses s 4 (tableField (chainFields 11)) i := by
  have h1 : ∀ c < 16, ∀ j, ChannelFieldPasses (tableField (channelFields 1)) c j := by
    intro c h j
    refine ⟨fun _ => ?_, fun _ => ?_, fun _ => ?_, fun _ => ?_, fun _ => ?_, fun _ => ?_, fun _ => ?_⟩
    all_goals
      clear * - h
      revert c
      decide +kernel
  have h2 : ∀ i < 21, ScanFieldPasses (tableField (scanFields 15)) i := by
    intro i h
    interval_cases i <;> refine ⟨?_, ?_, ?_, ?_, ?_⟩ <;> decide
  have h4 : ∀ i < 11, ChainFieldPasses (tableField (chainFields 11)) i := by unfold ChainFieldPasses; decide +kernel
  refine ⟨fun i _ h => ⟨by omega, fun _ => h1 _ (by omega) _, by omega, by omega, by omega⟩,
    fun i _ h => ⟨by omega, by omega, fun _ => h2 i (by omega), by omega, by omega⟩,
    fun i _ _ => ⟨by omega, by omega, by omega, fun _ => ⟨fun _ => by decide, fun _ => by decide⟩, by omega⟩,
    fun i _ h => ⟨by omega, by omega, by omega, by omega, fun _ => h4 i (by omega)⟩⟩

/-- ConfigureJudgesTheSection: a role held twice, a channel above 15, a low mark not below the high, and the last drop at the chain's end, each the
first to fail. -/
theorem test_hyps_configure_fails (s : State) :
    (¬ConfigFieldPasses s 1 (tableField (channelFields 0)) 12 ∧ ∀ j, 1 ≤ j → j < 12 → ConfigFieldPasses s 1 (tableField (channelFields 0)) j) ∧
      (¬ConfigFieldPasses s 2 (tableField (scanFields 16)) 3 ∧ ∀ j, 1 ≤ j → j < 3 → ConfigFieldPasses s 2 (tableField (scanFields 16)) j) ∧
      (¬ConfigFieldPasses s 3 (tableField [12, 12]) 2 ∧ ∀ j, 1 ≤ j → j < 2 → ConfigFieldPasses s 3 (tableField [12, 12]) j) ∧
      (¬ConfigFieldPasses s 4 (tableField (chainFields 12)) 10 ∧
        ∀ j, 1 ≤ j → j < 10 → ConfigFieldPasses s 4 (tableField (chainFields 12)) j) := by
  have h1 : ∀ i < 12, ChannelFieldPasses (tableField (channelFields 0)) ((i - 1) / 8) ((i - 1) % 8) := by
    intro i h
    interval_cases i <;> refine ⟨?_, ?_, ?_, ?_, ?_, ?_, ?_⟩ <;> decide
  have h2 : ∀ i < 3, ScanFieldPasses (tableField (scanFields 16)) i := by
    intro i h
    interval_cases i <;> refine ⟨?_, ?_, ?_, ?_, ?_⟩ <;> decide
  have h4 : ∀ i < 10, ChainFieldPasses (tableField (chainFields 12)) i := by unfold ChainFieldPasses; decide +kernel
  refine ⟨⟨fun h => ((h.2.1 rfl).2.2.2.1 rfl).2.2 (by decide) 0 (by decide) (by decide),
      fun j _ h => ⟨by omega, fun _ => h1 j h, by omega, by omega, by omega⟩⟩,
    ⟨fun h => absurd ((h.2.2.1 rfl).2.1 (by decide) (by decide) (by decide)).2 (by decide),
      fun j _ h => ⟨by omega, by omega, fun _ => h2 j h, by omega, by omega⟩⟩,
    ⟨fun h => absurd ((h.2.2.2.1 rfl).2 rfl) (by decide),
      fun j _ _ => ⟨by omega, by omega, by omega, fun _ => ⟨fun _ => by decide, by omega⟩, by omega⟩⟩,
    ⟨fun h => absurd ((h.2.2.2.2 rfl).2.2.2 rfl) (by decide),
      fun j _ h => ⟨by omega, by omega, by omega, by omega, fun _ => h4 j h⟩⟩⟩

/-- The MOTION fields but the last pass in any state, at the bounds of the first. -/
theorem test_motion_fields_pass (s : State) (dr : Int) (j : Nat) (h : j ≠ 8) : MotionFieldPasses s (tableField (motionFields 655 dr)) j := by
  refine ⟨?_, fun e => ?_, ?_, ?_, ?_, ?_, by omega⟩
  · simp [tableField, motionFields]
  · obtain rfl | rfl | rfl | rfl := e <;> simp [tableField, motionFields]
  all_goals simp [tableField, motionFields]

/-- ConfigureJudgesTheSection: a MOTION section with Dr at the shortest length plus Ae passes, and with one more fails field 8 first (R201). -/
theorem test_hyps_configure_motion :
    (∀ i, 1 ≤ i → i ≤ 8 → ConfigFieldPasses (lineAt .ready) 0 (tableField (motionFields 655 256)) i) ∧
      ¬ConfigFieldPasses (lineAt .ready) 0 (tableField (motionFields 655 257)) 8 ∧
      ∀ j, 1 ≤ j → j < 8 → ConfigFieldPasses (lineAt .ready) 0 (tableField (motionFields 655 257)) j := by
  refine ⟨fun i _ hi => ⟨fun _ => ?_, by omega, by omega, by omega, by omega⟩, fun h => ?_,
    fun j _ hj => ⟨fun _ => test_motion_fields_pass _ _ _ (by omega), by omega, by omega, by omega, by omega⟩⟩
  · by_cases h8 : i = 8
    · subst h8
      refine ⟨by omega, by omega, by omega, by omega, by omega, by omega, fun _ => ⟨by decide, by decide, fun k n ns c _ hl hc => ?_⟩⟩
      have h : ∀ k : BankId, ∀ l ∈ (lineAt .ready).recipe.banks[k].lengths, ∀ c ∈ (lineAt .ready).recipe.banks[k].cut,
          (256 : Int) ≤ ((l.headD 0 : Nat) : Int) + (c.ae : Nat) := by decide +kernel
      exact h k _ hl c hc
    · exact test_motion_fields_pass _ _ _ h8
  · have := ((h.1 rfl).2.2.2.2.2.2 rfl).2.2 0 250 _ cutSection (Or.inr (Or.inl rfl)) rfl rfl
    exact absurd this (by decide)

/-- Fields as the bytes of a layout. -/
def fieldBytes (layout : List FieldSize) (fs : List Int) : List Byte :=
  (layout.zip fs).flatMap (fun x => match x.1 with
    | .u8 => [BitVec.ofInt 8 x.2]
    | .u16 => bytes16 (BitVec.ofInt 16 x.2)
    | .u32 | .s32 => bytes32 (BitVec.ofInt 32 x.2))

/-- The part in a line state with CONFIGURE of a section of these fields waiting. -/
def configuring (l : LineState) (sec : Nat) (fs : List Int) : State :=
  asks 0x03 (BitVec.ofNat 8 sec :: fieldBytes ((configLayout sec).getD []) fs) (lineAt l)

/-- The sections of the tests below that pass, and those that fail with the field. -/
def goodSections : List (List Int) := [motionFields 655 256, channelFields 1, scanFields 15, [12, 11], chainFields 11]
def badSections : List (List Int × Nat) :=
  [(motionFields 655 257, 8), (channelFields 0, 12), (scanFields 16, 3), ([12, 12], 2), (chainFields 12, 10)]

/-- ConfigureJudgesTheSection: each layout, and the fields that its bytes give; a section code of 5, and a body of another size. -/
theorem test_hyps_configure :
    (∀ p ∈ (goodSections ++ badSections.map Prod.fst).zip [0, 1, 2, 3, 4, 0, 1, 2, 3, 4],
      (configLayout p.2).bind (fun layout => parseFields layout (fieldBytes layout p.1)) = some p.1) ∧
      4 < (5 : Byte).toNat ∧ configLayout 3 = some [.u16, .u16] ∧ parseFields [.u16, .u16] [0, 12, 0] = none := by decide +kernel

/-- R209: each good section is taken in READY and installed, each bad one refused with its field, and both refused in RUN. -/
theorem test_configure_by_section :
    goodSections.zipIdx.map (fun x => lastStatus (after .configure (configuring .ready x.2 x.1))) = List.replicate 5 (some .ok) ∧
      badSections.zipIdx.map (fun x => lastStatus (after .configure (configuring .standby x.2 x.1.1))) =
        badSections.map (fun x => some (.field x.2)) ∧
      goodSections.zipIdx.map (fun x => lastStatus (after .configure (configuring .run x.2 x.1))) = List.replicate 5 (some .state) := by
  decide +kernel

/-- R209: the channels installed are those of the fields. -/
theorem test_configure_installs_the_channels :
    let c := (after .configure (configuring .ready 1 (channelFields 1))).inForce
    c.channels[9] = { range := 3, base := -100000, span := 1000000, role := .moist, mode := .inside, l1 := 7, l2 := 7, action := .cut } ∧
      c.channels[15].role = .none ∧ c.marks = #v[false, true, false, false, false] := by decide +kernel

/-- R209: CONFIGURE changes the values in force, and the next strip created brings them to the blocks. -/
theorem test_configuration_reaches_the_blocks_with_a_strip :
    let t := after .configure (asks 0x03 (3 :: (bytes16 12 ++ bytes16 11)) (lineAt .ready))
    let u := after (.ieLeadingEdge gateLow) { t with line := lineIn .run }
    t.config.deck = { high := 10, low := 5 } ∧ t.inForce.deck = { high := 12, low := 11 } ∧ u.config = t.inForce := by decide +kernel

/-- The part in READY with bank 1 in a state. -/
def withBank (b : Bank) : State := { lineAt .ready with recipe := { banks := #v[activeRecipe, b], counter := 2 } }

/-- RecipeBeginAndPut, RecipeCommitValidatesTheBank, RecipeSwitchActivatesTheBank. -/
theorem test_hyps_recipe_requests (b : Bank) (kind : Byte) (body : List Byte) :
    Asked (asks kind body (withBank b)) (request kind body) ∧ (asks kind body (withBank b)).recipe.banks[(1 : BankId)] = b ∧
      (asks kind body (withBank b)).recipe.banks[(0 : BankId)].state = .active := ⟨asked_asks _ _ _ rfl, rfl, rfl⟩

/-- A LOADING bank that passes its commit. -/
def goodBank : Bank :=
  { activeRecipe with
    state := .loading
    generation := none
    profile := some { windows := Vector.replicate 4 ⟨0, 0, 0, 0⟩, tongueNominal := 10000, driftLimit := 1000, stopCount := 8 } }

/-- The bank operands of RecipeBeginAndPut. -/
theorem test_hyps_recipe_operands :
    BitVec.ofNat 8 (1 : BankId).val = (1 : Byte) ∧ 1 < (2 : Byte).toNat ∧ 6 < (7 : Byte).toNat ∧ (6 : Byte).toNat ≤ 6 := by decide

/-- Sections at the largest values their fields hold. -/
def widestCut : CutSection := { tl := 65535, tt := 65535, k := 65535, g := 65535, ae := 65535, tc := 65535, nominalWidth := 65535 }
def widestGrade : GradeEntry := { code := 255, first := 255, count := 65535, verdict := 255 }
def widestTest : TestEntry := ⟨255, 255, 2147483647, -2147483648, 255, 255, 255, 255⟩
def widestBin : BinPlan :=
  { grade := 255, classLow := 255, classHigh := 255, ct := 4294967295, tolLo := 4294967295, tolHi := 4294967295, s := 65535, pmax := 65535,
    nmax := 65535 }
def widestProfile : ProfileSection :=
  { windows := Vector.replicate 4 ⟨-2147483648, 2147483647, 0, 0⟩, tongueNominal := 65535, driftLimit := 65535, stopCount := 65535 }

/-- RecipeBeginAndPut: the widest sections fit their bytes. -/
theorem test_hyps_sections_fit :
    widestCut.Fits ∧ widestGrade.Fits ∧ widestTest.Fits ∧ widestBin.Fits ∧ widestProfile.Fits := by
  refine ⟨?_, ?_, ?_, ?_, ?_⟩
  · unfold CutSection.Fits; decide
  · unfold GradeEntry.Fits; decide
  · unfold TestEntry.Fits FitsS32; decide
  · unfold BinPlan.Fits; decide
  · unfold ProfileSection.Fits FitsS32; decide

/-- The bodies of those sections as a request carries them behind the bank and the section. -/
def putBody : Nat → List Byte
  | 0 => w16 65535 ++ w16 65535 ++ w16 65535 ++ w16 65535 ++ w16 65535 ++ w16 65535 ++ w16 65535
  | 1 => wList w16 (List.replicate 12 65535)
  | 2 => wList (fun g : GradeEntry => w8 g.code ++ w8 g.first ++ w16 g.count ++ w8 g.verdict) (List.replicate 8 widestGrade)
  | 3 => 62 :: 2 :: [widestTest, widestTest].flatMap TestEntry.bytes
  | 4 => (Vector.replicate 8 widestBin).toList.flatMap BinPlan.bytes
  | 5 => widestProfile.bytes
  | _ => bytes16 65535

/-- The part in READY with bank 1 LOADING and nothing loaded, and RECIPE PUT of a body waiting. -/
def putting (sec : Nat) (body : List Byte) : State :=
  asks 0x11 (1 :: BitVec.ofNat 8 sec :: body) (withBank { Bank.empty with state := .loading })

/-- R195: each section is stored as its body gives it. -/
theorem test_put_stores_each_section :
    (List.range 7).map (fun k => (after .recipePut (putting k (putBody k))).recipe.banks[1]) =
      let b : Bank := { Bank.empty with state := .loading }
      [{ b with cut := some widestCut }, { b with lengths := some (List.replicate 12 65535) },
       { b with grades := some (List.replicate 8 widestGrade) },
       { b with tests := setAt (setAt b.tests 62 (some widestTest)) 63 (some widestTest) },
       { b with bins := some (Vector.replicate 8 widestBin) }, { b with profile := some widestProfile },
       { b with cover := some 65535 }] := by decide +kernel

/-- RecipeBeginAndPut: bank 2, bodies of another size, counts of 13 and 9, and test runs that start at 64, are empty, or pass entry 63. -/
theorem test_hyps_put_refusals :
    1 < (2 : Byte).toNat ∧ (putBody 0 ++ [0]).length ≠ 14 ∧ (putBody 4 ++ [0]).length ≠ 168 ∧ (putBody 5 ++ [0]).length ≠ 70 ∧
      (putBody 6 ++ [0]).length ≠ 2 ∧ (12 < (13 : Byte).toNat ∧ (12 : Byte).toNat ≤ 12) ∧ (8 < (9 : Byte).toNat ∧ (8 : Byte).toNat ≤ 8) ∧
      ([0] : List Byte).length ≠ 2 * (12 : Byte).toNat ∧ ([0] : List Byte).length ≠ 5 * (8 : Byte).toNat ∧ ([0] : List Byte).length < 2 ∧
      (63 < (64 : Byte).toNat ∧ (63 : Byte).toNat ≤ 63) ∧ 64 < (63 : Byte).toNat + (2 : Byte).toNat ∧
      (63 : Byte).toNat + (1 : Byte).toNat ≤ 64 ∧ ([0] : List Byte).length ≠ 14 * (1 : Byte).toNat := by decide +kernel

/-- R195: the field that RECIPE PUT is refused with, for each of these. -/
theorem test_put_refusals :
    ([(0, putBody 0 ++ [0]), (1, [13]), (1, [12, 0]), (1, []), (2, [9]), (2, [8, 0]), (3, [62]), (3, [64, 0]), (3, [64, 1]), (3, [0, 0]),
        (3, [63, 2]), (3, [63, 1, 0]), (6, [0])] : List (Nat × List Byte)).map (fun x => lastStatus (after .recipePut (putting x.1 x.2))) =
      [1, 2, 1, 1, 2, 1, 1, 3, 3, 3, 3, 1, 1].map (fun i => some (.field i)) ∧
      lastStatus (after .recipePut (asks 0x11 [2, 7] (withBank goodBank))) = some (.field 0) ∧
      [(0x10, Instr.recipeBegin), (0x12, .recipeCommit), (0x13, .recipeSwitch)].map
        (fun x => lastStatus (after x.2 (asks x.1 [2] (withBank goodBank)))) = List.replicate 3 (some (.field 0)) := by decide +kernel

/-- Every entry of a vector of copies is the value copied. -/
theorem replicate_entry {α : Type} {n i : Nat} {x y : α} (h : (Vector.replicate n x)[i]? = some y) : y = x := by
  obtain ⟨hi, he⟩ := Vector.getElem?_eq_some_iff.mp h
  rw [← he, Vector.getElem_replicate]

/-- The CUT items pass for the section of the worked case. -/
theorem test_cut_items_pass (b : Bank) (h : b.cut = some cutSection) (i : Nat) : CutItemPasses b i := by
  refine ⟨fun _ => by simp [h], fun c hc => ?_⟩
  rw [h] at hc
  cases hc
  simp [cutSection]

/-- The LENGTHS items pass for the table of the worked case, with Dr at most its shortest plus Ae. -/
theorem test_length_items_pass (b : Bank) (dr : Nat) (hl : b.lengths = some lengthTable) (hc : b.cut = some cutSection) (hd : dr ≤ 256) (i : Nat) :
    LengthItemPasses dr b i := by
  refine ⟨fun _ => ⟨_, _, hl⟩, fun l n hn h1 h2 hx => ?_, fun n ns c _ hn hx => ?_⟩
  · rw [hl] at hn
    cases hn
    have h : ∀ j < 12, ∀ n ∈ lengthTable[j]?, 150 ≤ n ∧ n ≤ 3000 ∧ ∀ p ∈ lengthTable[j - 1]?, 0 < j → p < n := by decide
    obtain ⟨h3, h4, h5⟩ := h (i - 1) (by omega) n hx
    exact ⟨h3, h4, fun p hi hp => h5 p (by rwa [Nat.sub_sub]) (by omega)⟩
  · rw [hl] at hn
    rw [hc] at hx
    cases hn
    cases hx
    exact hd

/-- The GRADES items pass for one grade without tests. -/
theorem test_grade_items_pass (b : Bank) (h : b.grades = some [{ code := 11, first := 0, count := 0, verdict := 15 }]) (i : Nat) :
    GradeItemPasses b i := by
  refine ⟨fun _ => ⟨_, _, h⟩, fun l g hl h1 hg => ?_⟩
  rw [h] at hl
  cases hl
  obtain rfl : i = 1 := by
    have := (List.getElem?_eq_some_iff.mp hg).1
    simp at this
    omega
  cases hg
  simp

/-- The TESTS items pass for a pool with nothing loaded. -/
theorem test_test_items_pass (b : Bank) (h : b.tests = Vector.replicate 64 none) (i : Nat) : TestItemPasses b i := by
  intro e _ he
  rw [h] at he
  exact absurd (replicate_entry he) (by simp)

/-- The BINS items pass for eight entries of the worked sequence, beside one grade and eight lengths. -/
theorem test_bin_items_pass (b : Bank) (h : b.bins = some (Vector.replicate 8 binEntry)) (hg : (b.grades.getD []).length = 1)
    (hl : (b.lengths.getD []).length = 8) (i : Nat) : BinItemPasses b i := by
  refine ⟨fun _ => by simp [h], fun v e hv _ he _ => ?_⟩
  rw [h] at hv
  cases hv
  rw [hg, hl]
  obtain rfl := replicate_entry he
  decide

/-- The PROFILE items pass for windows of zeros and limits at their bounds. -/
theorem test_profile_items_pass (b : Bank) (i : Nat) (h : b.profile = goodBank.profile) : ProfileItemPasses b i := by
  refine ⟨fun _ => by simp [h, goodBank], fun p hp => ?_⟩
  rw [h] at hp
  cases hp
  refine ⟨fun w _ hw => ?_, by simp, by simp, by simp⟩
  obtain rfl := replicate_entry hw
  simp

/-- RecipeCommitValidatesTheBank: every item passes, with Dr at the value in force and at the largest that item 13 of LENGTHS allows. -/
theorem test_hyps_commit_passes :
    (withBank goodBank).inForce.motion.dr = 80 ∧ (∀ l, goodBank.lengths = some l → l.length ≤ 12) ∧
      ∀ dr ≤ 256, ∀ sec item, CommitItemPasses dr goodBank sec item := by
  refine ⟨by decide +kernel, fun l h => ?_, fun dr hd sec item => ?_⟩
  · cases h
    decide
  · exact ⟨fun _ => test_cut_items_pass _ rfl _, fun _ => test_length_items_pass _ _ rfl rfl hd _, fun _ => test_grade_items_pass _ rfl _,
      fun _ => test_test_items_pass _ rfl _, fun _ => test_bin_items_pass _ rfl rfl rfl _, fun _ => test_profile_items_pass _ _ rfl,
      fun _ => ⟨fun _ => by simp [goodBank, activeRecipe], fun w _ hw => by cases hw; decide⟩⟩

/-- A LOADING bank whose section sec fails its item 1, by one beyond the bound. -/
def badBank : Nat → Bank
  | 0 => { goodBank with cut := some { cutSection with tl := 201 } }
  | 1 => { goodBank with lengths := some (149 :: lengthTable) }
  | 2 => { goodBank with grades := some [{ code := 11, first := 0, count := 17, verdict := 15 }] }
  | 3 => { goodBank with tests := setAt goodBank.tests 0 (some ⟨14, 0, 0, 0, 0, 0, 0, 0⟩) }
  | 4 => { goodBank with bins := some (Vector.replicate 8 { binEntry with nmax := 0 }) }
  | 5 => { goodBank with profile := some { windows := Vector.replicate 4 ⟨0, 0, 1, 0⟩, tongueNominal := 0, driftLimit := 0, stopCount := 1 } }
  | _ => { goodBank with cover := some 251 }

/-- RecipeCommitValidatesTheBank: in each section item 1 is the first to fail. -/
theorem test_hyps_commit_fails :
    ∀ sec ≤ 6, ¬CommitItemPasses 80 (badBank sec) sec 1 ∧ (badBank sec).state = .loading ∧
      ∀ sec' item', sec' < sec ∨ sec' = sec ∧ item' < 1 → CommitItemPasses 80 (badBank sec) sec' item' := by
  intro sec hs
  obtain rfl | rfl | rfl | rfl | rfl | rfl | rfl : sec = 0 ∨ sec = 1 ∨ sec = 2 ∨ sec = 3 ∨ sec = 4 ∨ sec = 5 ∨ sec = 6 := by omega
  · refine ⟨fun h => absurd (((h.1 rfl).2 _ rfl).1 rfl) (by decide), rfl, fun sec' item' h => ?_⟩
    obtain ⟨rfl, rfl⟩ : sec' = 0 ∧ item' = 0 := by omega
    exact ⟨fun _ => ⟨fun _ => by simp [badBank], fun c _ => by simp⟩, by simp⟩
  · refine ⟨fun h => absurd ((h.2.1 rfl).2.1 _ _ rfl (by omega) (by omega) rfl).1 (by decide), rfl, fun sec' item' h => ?_⟩
    refine ⟨fun _ => test_cut_items_pass _ rfl _, fun e => ?_, by omega, by omega, by omega, by omega, by omega⟩
    obtain rfl : item' = 0 := by omega
    exact ⟨fun _ => ⟨_, _, rfl⟩, by omega, by omega⟩
  · refine ⟨fun h => absurd ((h.2.2.1 rfl).2 _ _ rfl (by omega) rfl).2.2.1 (by decide), rfl, fun sec' item' h => ?_⟩
    refine ⟨fun _ => test_cut_items_pass _ rfl _, fun _ => test_length_items_pass _ _ rfl rfl (by omega) _, fun e => ?_, by omega, by omega,
      by omega, by omega⟩
    obtain rfl : item' = 0 := by omega
    exact ⟨fun _ => ⟨_, _, rfl⟩, by omega⟩
  · refine ⟨fun h => absurd (h.2.2.2.1 rfl ⟨14, 0, 0, 0, 0, 0, 0, 0⟩ (by omega) (by decide)).1 (by decide), rfl, fun sec' item' h => ?_⟩
    refine ⟨fun _ => test_cut_items_pass _ rfl _, fun _ => test_length_items_pass _ _ rfl rfl (by omega) _,
      fun _ => test_grade_items_pass _ rfl _, fun e => ?_, by omega, by omega, by omega⟩
    obtain rfl : item' = 0 := by omega
    exact fun _ h => absurd h (by omega)
  · refine ⟨fun h => absurd ((h.2.2.2.2.1 rfl).2 _ { binEntry with nmax := 0 } rfl (by omega) (by decide) (by decide)).2.2.2.2.2.2.2.2.2.1
      (by decide), rfl, fun sec' item' h => ?_⟩
    refine ⟨fun _ => test_cut_items_pass _ rfl _, fun _ => test_length_items_pass _ _ rfl rfl (by omega) _,
      fun _ => test_grade_items_pass _ rfl _, fun _ => test_test_items_pass _ rfl _, fun e => ?_, by omega, by omega⟩
    obtain rfl : item' = 0 := by omega
    exact ⟨fun _ => by simp [badBank], by omega⟩
  · refine ⟨fun h => absurd (((h.2.2.2.2.2.1 rfl).2 _ rfl).1 ⟨0, 0, 1, 0⟩ (by omega) (by decide)).1 (by decide), rfl, fun sec' item' h => ?_⟩
    refine ⟨fun _ => test_cut_items_pass _ rfl _, fun _ => test_length_items_pass _ _ rfl rfl (by omega) _,
      fun _ => test_grade_items_pass _ rfl _, fun _ => test_test_items_pass _ rfl _, fun _ => test_bin_items_pass _ rfl rfl rfl _,
      fun e => ?_, by omega⟩
    obtain rfl : item' = 0 := by omega
    exact ⟨fun _ => by simp [badBank], fun p _ => ⟨by omega, by simp, by simp, by simp⟩⟩
  · refine ⟨fun h => absurd ((h.2.2.2.2.2.2 rfl).2 _ rfl rfl).2 (by decide), rfl, fun sec' item' h => ?_⟩
    refine ⟨fun _ => test_cut_items_pass _ rfl _, fun _ => test_length_items_pass _ _ rfl rfl (by omega) _,
      fun _ => test_grade_items_pass _ rfl _, fun _ => test_test_items_pass _ rfl _, fun _ => test_bin_items_pass _ rfl rfl rfl _,
      fun _ => test_profile_items_pass _ _ rfl, fun e => ?_⟩
    obtain rfl : item' = 0 := by omega
    exact ⟨fun _ => by simp [badBank], by omega⟩

/-- R196: the commit of each gives INVALID with its section and item 1; with Dr at 257 item 13 of LENGTHS fails. -/
theorem test_commit_names_the_first_failure :
    (List.range 7).map (fun k => lastStatus (after .recipeCommit (asks 0x12 [1] (withBank (badBank k))))) =
      (List.range 7).map (fun k => some (.invalid k 1)) ∧
      (let s := withBank goodBank
       lastStatus (after .recipeCommit (asks 0x12 [1] { s with
         inForce := { s.inForce with motion := { s.inForce.motion with dr := 257 } } })) = some (.invalid 1 13)) := by decide +kernel

/-- The part in READY with bank 1 VALID, and bin 1 OPEN with a bundle of bank 0, which so many strips and no cuttings are bound to. -/
def switching (strips : Nat) (bu : Bundle) : State :=
  let b := { goodBank with state := .valid, generation := some 2, strips := 0, cuttings := 0, bundles := 0 }
  { withBin .opened (some bu) (lineAt .ready) with
    recipe := { banks := #v[{ activeRecipe with strips, cuttings := 0 }, b], counter := 3 } }

/-- The bin clauses of RecipeSwitchActivatesTheBank. -/
theorem test_hyps_switch :
    ∀ strips ∈ [0, 1], ∀ x ∈ [(0, 0), (2, 1), (2, 2)],
      let s := switching strips (someBundle x.1 x.2)
      s.recipe.banks[(1 : BankId)].state = .valid ∧ s.bundles.bins[(0 : Bin)].state = .opened ∧
        s.bundles.bins[(0 : Bin)].bundle = some (someBundle x.1 x.2) ∧ (someBundle x.1 x.2).bank ≠ 1 ∧
        s.recipe.banks[(someBundle x.1 x.2).bank].strips = strips ∧ s.recipe.banks[(someBundle x.1 x.2).bank].cuttings = 0 ∧
        s.recipe.banks[(0 : BankId)].state = .active ∧ s.bundles.bins[(7 : Bin)].state = .idle := by decide +kernel

/-- The part after that switch. -/
def switched (strips : Nat) (bu : Bundle) : State := after .recipeSwitch (asks 0x13 [1] (switching strips bu))

/-- R199: a switch keeps, closes or discards the OPEN bundle of the bank that steps down. -/
theorem test_switch_and_the_open_bin :
    [(1, 2, 2), (0, 2, 2), (0, 2, 1), (0, 0, 0)].map (fun x => binOne (switched x.1 (someBundle x.2.1 x.2.2))) =
      [(.opened, some (2, false, false)), (.labelling, some (2, true, true)), (.filled, some (2, true, false)),
       (.opened, some (0, false, false))] := by decide +kernel

/-- R199: a switch opens an IDLE bin, and the bank that steps down is RETIRING while anything refers to it. -/
theorem test_switch_and_the_idle_bin :
    (switched 0 (someBundle 0 0)).bundles.bins[(7 : Bin)].state = .opened ∧
      (switched 0 (someBundle 0 0)).recipe.banks[(0 : BankId)].state = .valid ∧
      (switched 1 (someBundle 2 2)).recipe.banks[(0 : BankId)].state = .retiring := by decide +kernel

end Sys2Proof.Tests
end

