-- ==== Sys2Proof/Proofs/Grading.lean ====
section
/-! PROOFS. Grading: the comparison of a test (R99), the fold of its result into a flag (R101) and the verdict of a grade (R102). -/

namespace Sys2Proof.Machine

/-! ### Comparisons -/

@[simp] theorem compareFeature_le (f a b : Int) : compareFeature 0 f a b = decide (f ≤ a) := rfl

@[simp] theorem compareFeature_ge (f a b : Int) : compareFeature 1 f a b = decide (a ≤ f) := rfl

@[simp] theorem compareFeature_in (f a b : Int) : compareFeature 2 f a b = decide (a ≤ f ∧ f ≤ b) := rfl

@[simp] theorem compareFeature_out (f a b : Int) : compareFeature 3 f a b = decide (f < a ∨ b < f) := rfl

/-- OUT is the complement of IN, whatever the order of the thresholds. -/
theorem compareFeature_out_eq_not_in (f a b : Int) : compareFeature 3 f a b = !compareFeature 2 f a b := by
  rw [compareFeature_out, compareFeature_in, ← decide_not, decide_eq_decide]
  omega

theorem compareFeature_in_eq_false {f a b : Int} (h : b < a) : compareFeature 2 f a b = false := by
  rw [compareFeature_in, decide_eq_false_iff_not]
  omega

/-- Settles O32: each operation is its inequality; with a above b IN fails, so that OUT holds; and the edge values bound every 32-bit value. -/
theorem testsCompareAsTheirOperationSays : Obligations.TestsCompareAsTheirOperationSays := by
  intro f a b
  refine ⟨by simp, by simp, by simp, by simp, fun b' => ⟨rfl, rfl⟩, fun h => ?reversed, fun ⟨hlo, hhi⟩ => ?edges⟩
  case reversed =>
    have hin : compareFeature 2 f a b = false := compareFeature_in_eq_false h
    exact ⟨hin, by rw [compareFeature_out_eq_not_in, hin, Bool.not_false]⟩
  case edges =>
    exact ⟨decide_eq_true hhi, decide_eq_true hlo⟩

/-! ### Flags -/

@[simp] theorem foldFlag_set (flag r : Bool) : foldFlag 0 flag r = r := rfl

@[simp] theorem foldFlag_and (flag r : Bool) : foldFlag 1 flag r = (flag && r) := rfl

@[simp] theorem foldFlag_or (flag r : Bool) : foldFlag 2 flag r = (flag || r) := rfl

@[simp] theorem foldFlag_xor (flag r : Bool) : foldFlag 3 flag r = (flag != r) := rfl

theorem foldResult_p {e : TestEntry} (p q r : Bool) (h : e.dest = 0) : foldResult e p q r = (foldFlag e.combine p r, q) := if_pos h

theorem foldResult_q {e : TestEntry} (p q r : Bool) (h : e.dest ≠ 0) : foldResult e p q r = (p, foldFlag e.combine q r) := if_neg h

/-- What each combine mode makes of a flag (R101). -/
theorem foldFlag_modes (combine : Nat) (flag r : Bool) :
    (combine = 0 → foldFlag combine flag r = r) ∧ (combine = 1 → foldFlag combine flag r = (flag && r)) ∧
      (combine = 2 → foldFlag combine flag r = (flag || r)) ∧ (combine = 3 → foldFlag combine flag r = (flag != r)) := by
  refine ⟨?set, ?and, ?or, ?xor⟩ <;> (rintro rfl; simp)

/-- Settles O33: the destination chooses the flag, and the combine mode says what becomes of it. -/
theorem resultsFoldIntoTheirFlag : Obligations.ResultsFoldIntoTheirFlag := by
  intro e p q r
  constructor
  · intro hp
    rw [foldResult_p p q r hp]
    exact ⟨rfl, foldFlag_modes e.combine p r⟩
  · intro hq
    rw [foldResult_q p q r (by omega)]
    exact ⟨rfl, foldFlag_modes e.combine q r⟩

/-! ### Verdicts -/

theorem verdictIndex_eq_ite (p q : Bool) : verdictIndex p q = 2 * (if p then 1 else 0) + (if q then 1 else 0) := by
  simp only [verdictIndex, Bool.toNat, Bool.cond_eq_ite]

theorem verdictIndex_lt (p q : Bool) : verdictIndex p q < 4 := by
  have hp := p.toNat_le
  have hq := q.toNat_le
  simp only [verdictIndex]
  omega

/-- P and Q are the bits of their index, P the higher. -/
theorem verdictIndex_bits (p q : Bool) : (verdictIndex p q).testBit 1 = p ∧ (verdictIndex p q).testBit 0 = q := by
  revert p q
  decide

/-- Each of the four bits of a verdict function is the bit of some P and Q. -/
theorem exists_verdictIndex_eq {i : Nat} (h : i < 4) : ∃ p q, verdictIndex p q = i := by
  revert i
  decide

theorem verdictPasses_iff (v : Nat) (p q : Bool) : verdictPasses v p q = true ↔ v / 2 ^ verdictIndex p q % 2 = 1 := by
  rw [verdictPasses, Nat.testBit_eq_decide_div_mod_eq, decide_eq_true_iff]

/-- The number of a function of P and Q: bit 2 × P + Q is the function's value there. -/
def verdictOf (f : Bool → Bool → Bool) : Nat := Nat.ofBits fun i : Fin 4 => f (i.val.testBit 1) (i.val.testBit 0)

theorem verdictOf_lt (f : Bool → Bool → Bool) : verdictOf f < 16 := Nat.ofBits_lt_two_pow _

theorem verdictPasses_verdictOf (f : Bool → Bool → Bool) (p q : Bool) : verdictPasses (verdictOf f) p q = f p q := by
  obtain ⟨hp, hq⟩ := verdictIndex_bits p q
  rw [verdictPasses, verdictOf, Nat.testBit_ofBits_lt _ _ (verdictIndex_lt p q), hp, hq]

/-- Two verdict functions that pass alike are one number: their four bits agree and they have no others. -/
theorem verdict_ext {v w : Nat} (hv : v < 16) (hw : w < 16) (h : ∀ p q, verdictPasses v p q = verdictPasses w p q) : v = w := by
  refine Nat.eq_of_testBit_eq fun i => ?_
  rcases Nat.lt_or_ge i 4 with hi | hi
  · obtain ⟨p, q, rfl⟩ := exists_verdictIndex_eq hi
    exact h p q
  · have hpow : 16 ≤ 2 ^ i := Nat.pow_le_pow_right two_pos hi
    rw [Nat.testBit_lt_two_pow (by omega), Nat.testBit_lt_two_pow (by omega)]

/-- The functions of Table 35 (R102). -/
theorem verdictPasses_table35 (p q : Bool) :
    verdictPasses 0 p q = false ∧ verdictPasses 8 p q = (p && q) ∧ verdictPasses 12 p q = p ∧
      verdictPasses 10 p q = q ∧ verdictPasses 14 p q = (p || q) ∧ verdictPasses 4 p q = (p && !q) ∧
      verdictPasses 6 p q = (p != q) ∧ verdictPasses 9 p q = (p == q) ∧ verdictPasses 3 p q = !p ∧
      verdictPasses 1 p q = (!p && !q) ∧ verdictPasses 15 p q = true := by
  revert p q
  decide

/-- Settles O34: a function's number is the one whose bits are its values, and bits determine the number. -/
theorem verdictsPassByTheirBit : Obligations.VerdictsPassByTheirBit := by
  refine ⟨fun v p q => ?bit, fun f => ?number, verdictPasses_table35⟩
  case bit =>
    rw [verdictPasses_iff, verdictIndex_eq_ite]
  case number =>
    refine ⟨verdictOf f, Nat.le_of_lt_succ (verdictOf_lt f), verdictPasses_verdictOf f, fun w hw hf => ?_⟩
    refine verdict_ext (Nat.lt_succ_of_le hw) (verdictOf_lt f) fun p q => ?_
    rw [hf, verdictPasses_verdictOf]

end Sys2Proof.Machine
end

