-- ==== Sys2Proof/Proofs/Keeping.lean ====
section
/-! PROOFS. What no operation on the bins and the referrals breaks: the committed totals stay within the limits of the spec copy (R157), a bank
changes in its counts alone or retires (R198), and no referral waits beside a free slot (R118, R121). -/

namespace Sys2Proof.Machine

/-! ### Fixed tables -/

theorem setAt_self {α : Type} {n : Nat} (v : Vector α n) (i : Fin n) (x : α) : (setAt v i x)[i] = x := by
  simp [setAt]

theorem setAt_other {α : Type} {n : Nat} (v : Vector α n) {i j : Fin n} (x : α) (h : i ≠ j) : (setAt v i x)[j] = v[j] := by
  simp [setAt, Fin.val_ne_of_ne h]

/-- A property of every place of a table stays when the element put in has it. -/
theorem forall_setAt {α : Type} {n : Nat} {P : Fin n → α → Prop} {v : Vector α n} {i : Fin n} {x : α} (hv : ∀ j, P j v[j]) (hx : P i x) :
    ∀ j, P j (setAt v i x)[j] := by
  intro j
  by_cases h : i = j
  · subst h
    rw [setAt_self]
    exact hx
  · rw [setAt_other v x h]
    exact hv j

/-! ### Banks -/

/-- From a to b a bank changes in its reference counts alone, or retires to VALID (R198). -/
structure BankKept (a b : Bank) : Prop where
  eq : b = { a with state := b.state, strips := b.strips, cuttings := b.cuttings, bundles := b.bundles }
  state : b.state = a.state ∨ a.state = .retiring ∧ b.state = .valid

theorem BankKept.refl (a : Bank) : BankKept a a := ⟨rfl, .inl rfl⟩

theorem BankKept.trans {a b c : Bank} (h : BankKept a b) (k : BankKept b c) : BankKept a c := by
  refine ⟨by rw [k.eq, h.eq], ?_⟩
  obtain hs | ⟨hr, hv⟩ := h.state
  · rw [← hs]
    exact k.state
  · obtain ks | ⟨kr, _⟩ := k.state
    · exact .inr ⟨hr, ks.trans hv⟩
    · rw [hv] at kr
      contradiction

theorem BankKept.active_iff {a b : Bank} (h : BankKept a b) : b.state = .active ↔ a.state = .active := by
  obtain hs | ⟨hr, hv⟩ := h.state
  · rw [hs]
  · simp [hr, hv]

theorem BankKept.generation {a b : Bank} (h : BankKept a b) : b.generation = a.generation := by
  rw [h.eq]

theorem BankKept.lengths {a b : Bank} (h : BankKept a b) : b.lengths = a.lengths := by
  rw [h.eq]

theorem BankKept.grades {a b : Bank} (h : BankKept a b) : b.grades = a.grades := by
  rw [h.eq]

/-- Retiring keeps the generation that a bank holds (R197). -/
theorem BankKept.heldGeneration {a b : Bank} (h : BankKept a b) : b.heldGeneration = a.heldGeneration := by
  unfold Bank.heldGeneration
  obtain hs | ⟨hr, hv⟩ := h.state
  · rw [hs, h.generation]
  · rw [hr, hv, h.generation]

/-! ### The relation -/

/-- From s to t no bundle passes its limits, and each bank is kept. -/
structure BinsKept (s t : State) : Prop where
  limits : BundlesWithinLimits s → BundlesWithinLimits t
  banks : ∀ k : BankId, BankKept s.recipe.banks[k] t.recipe.banks[k]
  counter : t.recipe.counter = s.recipe.counter

theorem BinsKept.refl (s : State) : BinsKept s s := ⟨id, fun _ => BankKept.refl _, rfl⟩

theorem BinsKept.trans {a b c : State} (h : BinsKept a b) (k : BinsKept b c) : BinsKept a c :=
  ⟨fun x => k.limits (h.limits x), fun i => (h.banks i).trans (k.banks i), k.counter.trans h.counter⟩

/-- What touches neither bins nor banks keeps both. -/
theorem BinsKept.of_eq {s t : State} (hb : t.bundles = s.bundles) (hr : t.recipe = s.recipe) : BinsKept s t := by
  refine ⟨fun h => ?_, fun k => ?_, by rw [hr]⟩
  · unfold BundlesWithinLimits
    rw [hb]
    exact h
  · rw [hr]
    exact BankKept.refl _

theorem LinkOnly.binsKept {s t : State} (h : LinkOnly s t) : BinsKept s t :=
  BinsKept.of_eq (by rw [h.eq]) (by rw [h.eq])

theorem GradingOnly.binsKept {s t : State} (h : GradingOnly s t) : BinsKept s t :=
  BinsKept.of_eq (by rw [h.eq]) (by rw [h.eq])

theorem ReferralsOnly.binsKept {s t : State} (h : ReferralsOnly s t) : BinsKept s t := h.gradingOnly.binsKept

theorem foldl_binsKept {α : Type} (f : State → α → State) (h : ∀ s x, BinsKept s (f s x)) (l : List α) (s : State) :
    BinsKept s (l.foldl f s) := by
  induction l generalizing s with
  | nil => exact BinsKept.refl s
  | cons x l ih => exact (h s x).trans (ih _)

/-- The banks that are active, hold generations and have sections are the same after what keeps the banks. -/
theorem BinsKept.banksApart {s t : State} (h : BinsKept s t) (ha : BanksApart s) : BanksApart t := by
  obtain ⟨hactive, hdiff, hcounter⟩ := ha
  have hg : ∀ k : BankId, t.recipe.banks[k].heldGeneration = s.recipe.banks[k].heldGeneration := fun k => (h.banks k).heldGeneration
  refine ⟨fun ⟨h0, h1⟩ => hactive ⟨(h.banks 0).active_iff.mp h0, (h.banks 1).active_iff.mp h1⟩, fun g h0 h1 => ?_, fun k => ?_⟩
  · exact hdiff g ((hg 0).symm.trans h0) ((hg 1).symm.trans h1)
  · rw [hg k, h.counter]
    exact hcounter k

theorem BinsKept.sectionsFit {s t : State} (h : BinsKept s t) (hf : SectionsFit s) : SectionsFit t := by
  intro k
  rw [(h.banks k).lengths, (h.banks k).grades]
  exact hf k

/-! ### Bundles and their limits -/

/-- A bin record that takes a bundle only if the bundle is within its limits. -/
theorem mapBin_binsKept (b : Bin) (f : BinRecord → BinRecord) (s : State)
    (h : BundlesWithinLimits s → ∀ bu, (f s.bundles.bins[b]).bundle = some bu → bu.WithinLimits) : BinsKept s (mapBin b f s) :=
  ⟨fun hs => forall_setAt (P := fun _ (r : BinRecord) => ∀ bu : Bundle, r.bundle = some bu → bu.WithinLimits) hs (h hs),
    fun _ => BankKept.refl _, rfl⟩

/-- A change of a bin that leaves its bundle, or has none. -/
theorem mapBin_binsKept_of_bundle (b : Bin) (f : BinRecord → BinRecord) (s : State)
    (h : ∀ r bu, (f r).bundle = some bu → r.bundle = some bu) : BinsKept s (mapBin b f s) :=
  mapBin_binsKept b f s fun hs bu e => hs b bu (h _ _ e)

/-- A bundle put in for another one of the bin. -/
theorem mapBin_binsKept_of_replace (b : Bin) {f : BinRecord → BinRecord} {s : State} {bu bu' : Bundle}
    (hb : s.bundles.bins[b].bundle = some bu) (hf : ∀ r, (f r).bundle = some bu') (hw : bu.WithinLimits → bu'.WithinLimits) :
    BinsKept s (mapBin b f s) := by
  refine mapBin_binsKept b f s fun hs x hx => ?_
  rw [hf] at hx
  cases hx
  exact hw (hs b bu hb)

theorem mapBundle_binsKept (b : Bin) (f : Bundle → Bundle) (s : State) (h : ∀ bu : Bundle, bu.WithinLimits → (f bu).WithinLimits) :
    BinsKept s (mapBundle b f s) := by
  refine mapBin_binsKept b _ s fun hs bu e => ?_
  obtain ⟨x, hx, rfl⟩ := Option.map_eq_some_iff.mp e
  exact h x (hs b x hx)

theorem mapBank_binsKept (k : BankId) (f : Bank → Bank) (s : State) (h : BankKept s.recipe.banks[k] (f s.recipe.banks[k])) :
    BinsKept s (mapBank k f s) :=
  ⟨id, forall_setAt (P := fun j x => BankKept s.recipe.banks[j] x) (fun _ => BankKept.refl _) h, rfl⟩

theorem BankKept.counts (a : Bank) (strips cuttings bundles : Nat) : BankKept a { a with strips, cuttings, bundles } := ⟨rfl, .inl rfl⟩

/-- The counts of a bank written anew. -/
theorem mapBank_counts_binsKept (k : BankId) (f g h : Bank → Nat) (s : State) :
    BinsKept s (mapBank k (fun r => { r with strips := f r, cuttings := g r, bundles := h r }) s) :=
  mapBank_binsKept k _ s (BankKept.counts _ _ _ _)

/-- A new bundle commits nothing. -/
theorem newBundle_withinLimits (s : State) (b : Bin) (k : BankId) (e : BinPlan) : (newBundle s b k e).WithinLimits :=
  ⟨Nat.zero_le _, Nat.le_trans (Nat.le_of_eq (Nat.zero_mul _)) (Nat.zero_le _), Nat.zero_le _⟩

/-- What is taken out of committed totals leaves them within the limits (R160). -/
theorem Bundle.WithinLimits.releasePiece {bu : Bundle} (h : bu.WithinLimits) (c n : Nat) : (bu.releasePiece c n).WithinLimits := by
  obtain ⟨hc, hs, hn⟩ := h
  refine ⟨Nat.le_trans (Nat.sub_le _ _) hc, ?_, Nat.le_trans (Nat.sub_le _ _) hn⟩
  refine Nat.le_trans (Nat.mul_le_mul_right 100 ?_) hs
  simp only [Bundle.releasePiece]
  split
  · exact Nat.sub_le _ _
  · exact Nat.le_refl _

/-- What an admission asks (R157) is that the totals with the piece stay within the limits. -/
theorem admits_withinLimits {s : State} {b : Bin} {g gen c n : Nat} {bu : Bundle} (h : admits s b g gen c n = true)
    (hb : s.bundles.bins[b].bundle = some bu) (hw : bu.WithinLimits) : (bu.commit c n).WithinLimits := by
  obtain ⟨_, hs, _⟩ := hw
  simp only [admits, hb, Bool.and_eq_true, Bool.or_eq_true, decide_eq_true_eq, Bool.not_eq_true', decide_eq_false_iff_not] at h
  obtain ⟨⟨⟨_, hcov⟩, hcount⟩, hshort⟩ := h
  refine ⟨hcov, ?_, hcount⟩
  simp only [Bundle.commit]
  split
  · obtain hn | hn := hshort
    · contradiction
    · exact hn
  · exact hs

/-! ### The operations on the bins -/

theorem tryPrint_binsKept (s : State) : BinsKept s (tryPrint s) := by
  refine BinsKept.of_eq ?_ ?_ <;> (unfold tryPrint; split <;> [rfl; (split <;> rfl)])

theorem giveDump_binsKept (b : Bin) (s : State) : BinsKept s (giveDump b s) := by
  refine BinsKept.of_eq ?_ ?_ <;> (unfold giveDump; split <;> [rfl; (split <;> rfl)])

theorem enqueueLabel_binsKept (l : LabelRecord) (s : State) : BinsKept s (enqueueLabel l s) := by
  refine BinsKept.of_eq ?_ ?_ <;> (unfold enqueueLabel; split <;> rfl)

theorem retireCheck_binsKept (k : BankId) (s : State) : BinsKept s (retireCheck k s) := by
  unfold retireCheck
  split
  · rename_i h
    exact (mapBank_binsKept k _ s ⟨rfl, .inr ⟨h.1, rfl⟩⟩).trans (offer_linkOnly _ _).binsKept
  · exact BinsKept.refl s

theorem bundleNotice_binsKept (e : BundleEvent) (b : Bin) (bu : Bundle) (st : BinState) (s : State) :
    BinsKept s (bundleNotice e b bu st s) := (bundleNotice_linkOnly e b bu st s).binsKept

theorem mapBank_addBundle_binsKept (k : BankId) (s : State) : BinsKept s (mapBank k (fun r => { r with bundles := r.bundles + 1 }) s) :=
  mapBank_counts_binsKept k Bank.strips Bank.cuttings (fun r => r.bundles + 1) s

theorem mapBank_dropBundle_binsKept (k : BankId) (s : State) : BinsKept s (mapBank k (fun r => { r with bundles := r.bundles - 1 }) s) :=
  mapBank_counts_binsKept k Bank.strips Bank.cuttings (fun r => r.bundles - 1) s

theorem setLabel_binsKept (l : LabelUnit) (s : State) : BinsKept s { s with label := l } := BinsKept.of_eq rfl rfl

theorem openBundle_binsKept (b : Bin) (s : State) : BinsKept s (openBundle b s) := by
  unfold openBundle
  split
  · exact mapBin_binsKept b _ s (fun _ bu e => by contradiction)
  · rename_i k e _
    have hput : BinsKept s (mapBin b (fun r => { r with state := .opened, bundle := some (newBundle s b k e) }) s) := by
      refine mapBin_binsKept b _ s fun _ bu h => ?_
      cases h
      exact newBundle_withinLimits s b k e
    refine BinsKept.trans ?_ (bundleNotice_binsKept _ _ _ _ _)
    refine BinsKept.trans ?_ (mapBank_addBundle_binsKept k _)
    exact hput.trans (setLabel_binsKept _ _)

/-- The bins as they are, with another close sequence next. -/
theorem setNextClose_binsKept (n : Nat) (s : State) : BinsKept s { s with bundles := { s.bundles with nextClose := n } } :=
  ⟨id, fun _ => BankKept.refl _, rfl⟩

theorem closeBundle_binsKept (b : Bin) (s : State) : BinsKept s (closeBundle b s) := by
  unfold closeBundle
  split
  · exact BinsKept.refl s
  · rename_i bu hb
    have hput : ∀ (st : BinState) (x : Bundle), (bu.WithinLimits → x.WithinLimits) →
        BinsKept s (mapBin b (fun r => { r with state := st, bundle := some x }) s) :=
      fun st x hx => mapBin_binsKept_of_replace b hb (fun _ => rfl) hx
    dsimp only
    split
    · refine BinsKept.trans ?_ (tryPrint_binsKept _)
      refine BinsKept.trans ?_ (enqueueLabel_binsKept _ _)
      refine BinsKept.trans ?_ (bundleNotice_binsKept _ _ _ _ _)
      refine BinsKept.trans ?_ (mapBank_dropBundle_binsKept _ _)
      refine BinsKept.trans ?_ (setNextClose_binsKept _ _)
      exact hput _ _ id
    · refine BinsKept.trans ?_ (bundleNotice_binsKept _ _ _ _ _)
      refine BinsKept.trans ?_ (mapBank_dropBundle_binsKept _ _)
      refine BinsKept.trans ?_ (setNextClose_binsKept _ _)
      exact hput _ _ id

theorem closeTest_binsKept (b : Bin) (s : State) : BinsKept s (closeTest b s) := by
  unfold closeTest
  split
  · exact BinsKept.refl s
  · split
    · exact closeBundle_binsKept b s
    · exact BinsKept.refl s

theorem retireAfter_binsKept (b : Bin) (f : State → State) (s : State) (h : BinsKept s (f s)) : BinsKept s (retireAfter b f s) := by
  unfold retireAfter
  split
  · exact h
  · exact h.trans (retireCheck_binsKept _ _)

theorem discardBundle_binsKept (b : Bin) (bu : Bundle) (s : State) : BinsKept s (discardBundle b bu s) := by
  unfold discardBundle
  exact ((mapBank_dropBundle_binsKept _ s).trans (bundleNotice_binsKept _ _ _ _ _)).trans (openBundle_binsKept _ _)

theorem closeShort_binsKept (b : Bin) (bu : Bundle) (s : State) (hb : s.bundles.bins[b].bundle = some bu) :
    BinsKept s (closeShort b bu s) := by
  unfold closeShort
  exact ((mapBin_binsKept_of_replace b (bu' := { bu with short := true }) hb (fun _ => rfl) id).trans (bundleNotice_binsKept _ _ _ _ _)).trans (closeTest_binsKept _ _)

theorem genCloseBin_binsKept (b : Bin) (s : State) : BinsKept s (genCloseBin b s) := by
  unfold genCloseBin
  split
  · exact BinsKept.refl s
  · rename_i bu hb
    split
    · split
      · exact discardBundle_binsKept b bu s
      · exact closeShort_binsKept b bu s hb
    · exact BinsKept.refl s

theorem genClose_binsKept (s : State) : BinsKept s (genClose s) := foldl_binsKept _ (fun s b => genCloseBin_binsKept b s) allBins s

theorem reportUnbound_binsKept (k : BankId) (s : State) : BinsKept s (reportUnbound k s) := by
  unfold reportUnbound
  split
  · exact (genClose_binsKept s).trans (retireCheck_binsKept _ _)
  · exact retireCheck_binsKept _ _

theorem unbindStrip_binsKept (k : BankId) (s : State) : BinsKept s (unbindStrip k s) :=
  (mapBank_counts_binsKept k (fun r => r.strips - 1) Bank.cuttings Bank.bundles s).trans (reportUnbound_binsKept k _)

theorem unbindCutting_binsKept (k : BankId) (s : State) : BinsKept s (unbindCutting k s) :=
  (mapBank_counts_binsKept k Bank.strips (fun r => r.cuttings - 1) Bank.bundles s).trans (reportUnbound_binsKept k _)

/-- A piece goes into a bin that admits it (R156, R157). -/
theorem admitTo_binsKept (b : Bin) (g gen c n : Nat) (s : State) (h : admits s b g gen c n = true) : BinsKept s (admitTo b c n s) := by
  unfold admitTo
  split
  · exact BinsKept.refl s
  · rename_i bu hb
    dsimp only
    split
    · exact (mapBin_binsKept_of_replace b hb (fun _ => rfl) (admits_withinLimits h hb)).trans (bundleNotice_binsKept _ _ _ _ _)
    · exact mapBin_binsKept_of_replace b hb (fun _ => rfl) (admits_withinLimits h hb)

theorem admission_binsKept (g gen c n : Nat) (s : State) : BinsKept s (admission g gen c n s).2 := by
  obtain ⟨_, h⟩ | ⟨b, _, ha, h⟩ := admission_cases g gen c n s <;> rw [h]
  · exact BinsKept.refl s
  · exact admitTo_binsKept b g gen c n s ha

/-- A bin whose state alone changes. -/
theorem mapBin_state_binsKept (b : Bin) (st : BinState) (s : State) : BinsKept s (mapBin b (fun r => { r with state := st }) s) :=
  mapBin_binsKept_of_bundle b _ s fun _ _ h => h

theorem reopenOrClose_binsKept (b : Bin) (s : State) : BinsKept s (reopenOrClose b s) := by
  unfold reopenOrClose
  split
  · exact BinsKept.refl s
  · split
    · split
      · exact (mapBin_state_binsKept b _ s).trans (bundleNotice_binsKept _ _ _ _ _)
      · exact closeTest_binsKept b s
    · split
      · exact (mapBin_state_binsKept b _ s).trans (bundleNotice_binsKept _ _ _ _ _)
      · exact BinsKept.refl s

theorem landPiece_binsKept (b : Bin) (n : Nat) (s : State) : BinsKept s (landPiece b n s) := by
  unfold landPiece
  refine BinsKept.trans ?_ (retireAfter_binsKept b _ _ (closeTest_binsKept b _))
  exact mapBundle_binsKept b _ s fun _ h => h

theorem releaseTotals_binsKept (b : Bin) (c n : Nat) (s : State) : BinsKept s (releaseTotals b c n s) :=
  mapBundle_binsKept b _ s fun _ h => h.releasePiece c n

theorem release_binsKept (b : Bin) (c n : Nat) (s : State) : BinsKept s (release b c n s) :=
  (releaseTotals_binsKept b c n s).trans (retireAfter_binsKept b _ _ (reopenOrClose_binsKept b _))

theorem releaseReservation_binsKept (c : Cutting) (landed : Bool) (s : State) : BinsKept s (releaseReservation c landed s) := by
  unfold releaseReservation
  split
  · split
    · exact BinsKept.refl s
    · exact release_binsKept _ _ _ _
  · exact BinsKept.refl s

theorem flagStray_binsKept (b : Bin) (s : State) : BinsKept s (flagStray b s) := mapBundle_binsKept b _ s fun _ h => h

theorem closingEntry_binsKept (s : State) : BinsKept s (closingEntry s) := by
  unfold closingEntry
  split
  · exact BinsKept.refl s
  · split
    · exact BinsKept.refl s
    · split
      · exact (mapBin_state_binsKept _ _ s).trans (enqueueLabel_binsKept _ _)
      · exact BinsKept.refl s

theorem dispatchBin_binsKept (b : Bin) (o : Outcome) (s : State) : BinsKept s (dispatchBin b o s) := by
  have hempty : ∀ t, BinsKept s t → BinsKept s (if t.bundles.bins[b].emptyLevel then openBundle b t else t) := by
    intro t ht
    split
    · exact ht.trans (openBundle_binsKept b _)
    · exact ht
  unfold dispatchBin
  dsimp only
  split
  · exact hempty _ (mapBin_state_binsKept b _ s)
  · exact hempty _ ((mapBin_state_binsKept b _ s).trans (bundleNotice_binsKept _ _ _ _ _))

theorem headLeaves_binsKept (o : Outcome) (s : State) : BinsKept s (headLeaves o s) := by
  have hrest : ∀ (b : Bin) (t : State), BinsKept t (tryPrint (closingEntry (dispatchBin b o t))) := fun b t =>
    ((dispatchBin_binsKept b o t).trans (closingEntry_binsKept _)).trans (tryPrint_binsKept _)
  unfold headLeaves
  split
  · exact BinsKept.refl s
  · rename_i h rest _
    dsimp only
    refine BinsKept.trans (BinsKept.trans (giveDump_binsKept h.bin s) ?_) (hrest h.bin _)
    split
    · exact BinsKept.of_eq rfl rfl
    · exact BinsKept.of_eq rfl rfl

theorem enterBin_binsKept (e : BundleEvent) (b : Bin) (st : BinState) (s : State) : BinsKept s (enterBin e b st s) := by
  unfold enterBin
  dsimp only
  split
  · exact mapBin_state_binsKept b _ s
  · exact (mapBin_state_binsKept b _ s).trans (bundleNotice_binsKept _ _ _ _ _)

theorem deferredTests_binsKept (b : Bin) (s : State) : BinsKept s (deferredTests b s) := by
  unfold deferredTests
  split
  · exact BinsKept.refl s
  · rename_i bu hb
    split
    · exact closeTest_binsKept b s
    · split
      · exact discardBundle_binsKept b _ s
      · split
        · exact closeTest_binsKept b s
        · exact closeShort_binsKept b bu s hb

theorem endHold_binsKept (b : Bin) (u : Underlying) (s : State) : BinsKept s (endHold b u s) :=
  retireAfter_binsKept b _ s ((enterBin_binsKept _ b _ s).trans (deferredTests_binsKept b _))

/-! ### Referrals -/

/-- The slots and the waiting list are within their capacities (R116, R118), a referral that waits beside a free slot not excluded. -/
def ReferralsBounded (s : State) : Prop :=
  s.referral.outstanding.length ≤ Config.slotCapacity ∧ s.referral.waiting.length ≤ Config.waitingCapacity

theorem ReferralsInOrder.bounded {s : State} (h : ReferralsInOrder s) : ReferralsBounded s := ⟨h.1, h.2.1⟩

theorem ReferralsInOrder.of_eq {s t : State} (h : ReferralsInOrder s) (e : t.referral = s.referral) : ReferralsInOrder t := by
  unfold ReferralsInOrder
  rw [e]
  exact h

theorem ReferralsBounded.of_eq {s t : State} (h : ReferralsBounded s) (e : t.referral = s.referral) : ReferralsBounded t := by
  unfold ReferralsBounded
  rw [e]
  exact h

theorem endOutstanding_bounded (r : Referral) {s : State} (h : ReferralsBounded s) : ReferralsBounded (endOutstanding r s) := by
  obtain ⟨ho, hw⟩ := h
  obtain ⟨eo, ew, _⟩ := endOutstanding_lists r s
  unfold ReferralsBounded
  rw [eo, ew]
  exact ⟨Nat.le_trans (List.length_filter_le _ _) ho, hw⟩

/-- An ended referral leaves its slot or the waiting list (R121, R124, R126). -/
theorem endReferral_bounded (id : CuttingId) (why : ReferralEndReason) {s : State} (h : ReferralsBounded s) :
    ReferralsBounded (endReferral id why s) := by
  unfold endReferral
  split
  · exact endOutstanding_bounded _ h
  · split
    · exact ⟨h.1, Nat.le_trans (List.length_filter_le _ _) h.2⟩
    · exact h

theorem foldl_endReferral_bounded (ids : List CuttingId) (why : ReferralEndReason) {s : State} (h : ReferralsBounded s) :
    ReferralsBounded (ids.foldl (fun s id => endReferral id why s) s) := by
  induction ids generalizing s with
  | nil => exact h
  | cons id ids ih => exact ih (endReferral_bounded id why h)

/-- k promotions, k at least the number that wait or the number of free slots, leave none waiting beside a free slot (R121). -/
theorem promote_inOrder (k : Nat) {s : State} (h : ReferralsBounded s)
    (hk : s.referral.waiting.length ≤ k ∨ Config.slotCapacity ≤ s.referral.outstanding.length + k) : ReferralsInOrder (promote k s) := by
  induction k generalizing s with
  | zero =>
    obtain ⟨ho, hw⟩ := h
    refine ⟨ho, hw, fun hfree => ?_⟩
    obtain hz | hfull := hk
    · exact List.length_eq_zero_iff.mp (Nat.le_zero.mp hz)
    · exact absurd hfree (Nat.not_lt.mpr hfull)
  | succ k ih =>
    obtain ⟨ho, hw⟩ := h
    unfold promote
    split
    case h_1 hnone => exact ⟨ho, hw, fun _ => hnone⟩
    case h_2 r rest hsome =>
      rw [hsome, List.length_cons] at hw hk
      split
      case isTrue hfree =>
        obtain ⟨eo, ew, _⟩ := makeOutstanding_lists r { s with referral := { s.referral with waiting := rest } }
        refine ih ⟨?_, ?_⟩ ?_
        · rw [eo, List.length_append]
          exact hfree
        · rw [ew]
          exact Nat.le_of_succ_le hw
        · rw [eo, ew, List.length_append, List.length_singleton]
          show rest.length ≤ k ∨ Config.slotCapacity ≤ s.referral.outstanding.length + 1 + k
          omega
      case isFalse hfull => exact ⟨ho, by rw [hsome]; exact hw, fun hfree => absurd hfree hfull⟩

/-- Every freed slot is filled (R121): as many promotions as there are slots are enough. -/
theorem promoteAll_inOrder {s : State} (h : ReferralsBounded s) : ReferralsInOrder (promoteAll s) :=
  promote_inOrder Config.slotCapacity h (.inr (Nat.le_add_left _ _))

/-- A referral that arises takes a free slot, and waits only behind full ones (R118). -/
theorem raiseReferral_inOrder (r : Referral) {s : State} (h : ReferralsInOrder s) : ReferralsInOrder (raiseReferral r s).2 := by
  obtain ⟨ho, hw, hnone⟩ := h
  obtain ⟨hfree, e⟩ | ⟨hfull, hroom, e⟩ | ⟨_, _, e⟩ := raiseReferral_cases r s <;> rw [e]
  · obtain ⟨eo, ew, _⟩ := makeOutstanding_lists r s
    refine ⟨?_, ?_, fun _ => ?_⟩
    · rw [eo, List.length_append]
      exact hfree
    · rw [ew]
      exact hw
    · rw [ew]
      exact hnone hfree
  · refine ⟨ho, ?_, fun hfree => absurd hfree (Nat.not_lt.mpr hfull)⟩
    simpa using hroom
  · exact ⟨ho, hw, hnone⟩

theorem mapCutting_inOrder (id : CuttingId) (f : Cutting → Cutting) {s : State} (h : ReferralsInOrder s) :
    ReferralsInOrder (mapCutting id f s) := h

theorem writeRun_inOrder (c : Cutting) (e : RunEnd) {s : State} (h : ReferralsInOrder s) : ReferralsInOrder (writeRun c e s) := by
  cases e with
  | graded g code => exact h
  | noGrade => exact h
  | suspended k f => exact mapCutting_inOrder _ _ (raiseReferral_inOrder _ h)

theorem planningRun_inOrder (id : CuttingId) {s : State} (h : ReferralsInOrder s) : ReferralsInOrder (planningRun id s) := by
  unfold planningRun
  split
  · exact h
  · exact writeRun_inOrder _ _ h

theorem beginResumption_referral (s : State) : (beginResumption s).referral = s.referral := by
  unfold beginResumption
  split <;> rfl

theorem beginResumption_inOrder {s : State} (h : ReferralsInOrder s) : ReferralsInOrder (beginResumption s) :=
  h.of_eq (beginResumption_referral s)

theorem finishRun_inOrder {s : State} (h : ReferralsInOrder s) : ReferralsInOrder (finishRun s) := by
  unfold finishRun
  split
  · exact h
  · dsimp only
    split
    · exact h
    · exact writeRun_inOrder _ _ h

theorem settleRun_inOrder (r : Resumption) {s : State} (h : ReferralsInOrder s) : ReferralsInOrder (settleRun r s) := by
  unfold settleRun
  split
  · exact h
  · split
    · exact h
    · exact writeRun_inOrder _ _ h

theorem settleResuming_inOrder (id : CuttingId) {s : State} (h : ReferralsInOrder s) : ReferralsInOrder (settleResuming id s) := by
  have hrun : ∀ (r : Resumption) (g : GradeEngine) {t : State}, ReferralsInOrder t →
      ReferralsInOrder (beginResumption (settleRun r { t with grade := g })) :=
    fun r g t ht => beginResumption_inOrder (settleRun_inOrder r ht)
  unfold settleResuming
  split
  · split
    · exact hrun _ _ h
    · dsimp only
      split
      · exact beginResumption_inOrder (finishRun_inOrder h)
      · exact hrun _ _ (finishRun_inOrder h)
  · split
    · exact h
    · exact hrun _ _ h

/-- A lug load leaves no referral waiting beside a slot it freed (R121, R124). -/
theorem settleGrading_inOrder (id : CuttingId) {s : State} (h : ReferralsInOrder s) : ReferralsInOrder (settleGrading id s) := by
  unfold settleGrading
  split
  · exact h
  · split
    · exact h
    · exact h
    · exact promoteAll_inOrder ((endReferral_bounded id .expired h.bounded).of_eq rfl)
    · exact settleResuming_inOrder id h

end Sys2Proof.Machine
end

