-- ==== Sys2Proof/Proofs/Steady.lean ====
section
/-! PROOFS. What the operations on strips, cuttings and the planner keep: the bins and banks as in Keeping, and no referral waiting beside a free
slot; then, for any step, the safe-state predicates that it carries from its state to the next (Safe), with the counters and the line state as they
were unless a drain completes (Steady). -/

namespace Sys2Proof.Machine

/-! ### Bins, banks and referrals together -/

/-- From s to t the bins and banks are kept, and no referral comes to wait beside a free slot. -/
structure Sound (s t : State) : Prop where
  bins : BinsKept s t
  order : ReferralsInOrder s → ReferralsInOrder t

theorem Sound.refl (s : State) : Sound s s := ⟨BinsKept.refl s, id⟩

theorem Sound.trans {a b c : State} (h : Sound a b) (k : Sound b c) : Sound a c :=
  ⟨h.bins.trans k.bins, fun x => k.order (h.order x)⟩

/-- What touches neither bins, banks nor referrals. -/
theorem Sound.of_eq {s t : State} (hb : t.bundles = s.bundles) (hr : t.recipe = s.recipe) (hf : t.referral = s.referral) : Sound s t :=
  ⟨BinsKept.of_eq hb hr, fun h => h.of_eq hf⟩

theorem BinsOnly.sound {s t : State} (h : BinsOnly s t) (k : BinsKept s t) : Sound s t := ⟨k, fun x => x.of_eq (by rw [h.eq])⟩

theorem LinkOnly.sound {s t : State} (h : LinkOnly s t) : Sound s t := h.binsOnly.sound h.binsKept

theorem foldl_sound {α : Type} (f : State → α → State) (h : ∀ s x, Sound s (f s x)) (l : List α) (s : State) : Sound s (l.foldl f s) := by
  induction l generalizing s with
  | nil => exact Sound.refl s
  | cons x l ih => exact (h s x).trans (ih _)

theorem mapStrip_sound (n : Nat) (f : Strip → Strip) (s : State) : Sound s (mapStrip n f s) := Sound.of_eq rfl rfl rfl

theorem mapCutting_sound (id : CuttingId) (f : Cutting → Cutting) (s : State) : Sound s (mapCutting id f s) := Sound.of_eq rfl rfl rfl

theorem mapHolds_sound (f : HoldSet → HoldSet) (s : State) : Sound s (mapHolds f s) := Sound.of_eq rfl rfl rfl

theorem withdraw_sound (p : EventKind → Bool) (s : State) : Sound s (withdraw p s) := Sound.of_eq rfl rfl rfl

theorem mapStore_sound (i : StoreId) (f : Store → Store) (s : State) : Sound s (mapStore i f s) := by
  cases i <;> exact Sound.of_eq rfl rfl rfl

theorem returnStrip_sound (r : Strip) (s : State) : Sound s (returnStrip r s) := by
  unfold returnStrip
  split
  · split <;> exact Sound.of_eq rfl rfl rfl
  · exact Sound.refl s

theorem freeStore_sound (n : Nat) (s : State) : Sound s (freeStore n s) := by
  unfold freeStore
  split
  · exact Sound.refl s
  · exact Sound.trans (mapStore_sound _ _ s) (mapStrip_sound _ _ _)

theorem keepStrips_sound (p : Strip → Bool) (s : State) : Sound s { s with belt := { s.belt with strips := s.belt.strips.filter p } } :=
  Sound.of_eq rfl rfl rfl

theorem keepCuttings_sound (p : Cutting → Bool) (s : State) : Sound s { s with cuttings := s.cuttings.filter p } := Sound.of_eq rfl rfl rfl

theorem unbindStrip_sound (k : BankId) (s : State) : Sound s (unbindStrip k s) :=
  (unbindStrip_binsOnly k s).sound (unbindStrip_binsKept k s)

theorem unbindCutting_sound (k : BankId) (s : State) : Sound s (unbindCutting k s) :=
  (unbindCutting_binsOnly k s).sound (unbindCutting_binsKept k s)

theorem dropStrip_sound (n : Nat) (s : State) : Sound s (dropStrip n s) := by
  unfold dropStrip
  split
  · exact Sound.refl s
  · refine Sound.trans ?_ (unbindStrip_sound _ _)
    refine Sound.trans ?_ (mapHolds_sound _ _)
    refine Sound.trans ?_ (returnStrip_sound _ _)
    refine Sound.trans ?_ (keepStrips_sound _ _)
    exact (freeStore_sound n s).trans (withdraw_sound _ _)

theorem leaveIfLast_sound (n : Nat) (s : State) : Sound s (leaveIfLast n s) := by
  unfold leaveIfLast
  split
  · exact Sound.refl s
  · split
    · exact dropStrip_sound n s
    · exact Sound.refl s

theorem leaveAfterTransfer_sound (n : Nat) (s : State) : Sound s (leaveAfterTransfer n s) := by
  unfold leaveAfterTransfer
  split
  · exact dropStrip_sound n s
  · exact Sound.refl s

theorem abandonRuns_sound (id : CuttingId) (s : State) : Sound s (abandonRuns id s) :=
  ⟨(abandonRuns_gradingOnly id s).binsKept, fun h => beginResumption_inOrder h⟩

theorem freeRecord_sound (landed : Bool) (id : CuttingId) (s : State) : Sound s (freeRecord landed id s) := by
  have hfloor : ∀ t, Sound t (if Config.recordsFloor ≤ freeRecords t then mapHolds (fun h => { h with records := false }) t else t) := by
    intro t
    split
    · exact mapHolds_sound _ t
    · exact Sound.refl t
  unfold freeRecord
  split
  · exact Sound.refl s
  · refine Sound.trans ?_ (leaveIfLast_sound _ _)
    refine Sound.trans ?_ (unbindCutting_sound _ _)
    refine Sound.trans ?_ (hfloor _)
    refine Sound.trans ?_ (keepCuttings_sound _ _)
    refine Sound.trans ?_ ((releaseReservation_binsOnly _ _ _).sound (releaseReservation_binsKept _ _ _))
    exact (abandonRuns_sound id s).trans (withdraw_sound _ _)

/-- Steps on the referrals alone that leave them bounded, then the promotions (R126): none waits beside a free slot. -/
theorem promoteAll_sound {s t : State} (h : BinsKept s t) (hb : ReferralsBounded s → ReferralsBounded t) : Sound s (promoteAll t) :=
  ⟨h.trans (promoteAll_referralsOnly t).binsKept, fun x => promoteAll_inOrder (hb x.bounded)⟩

theorem freeCuttings_sound (ids : List CuttingId) (s : State) : Sound s (freeCuttings ids s) := by
  unfold freeCuttings
  refine Sound.trans (promoteAll_sound ?_ ?_) (foldl_sound _ (fun s id => freeRecord_sound false id s) ids _)
  · exact foldl_binsKept _ (fun s id => (endReferral_referralsOnly id _ s).binsKept) ids s
  · exact foldl_endReferral_bounded ids _

theorem setEntries_sound (l : List FireEntry) (s : State) : Sound s (setEntries l s) := Sound.of_eq rfl rfl rfl

theorem leavePlannerQueue_sound (n : Nat) (s : State) : Sound s (leavePlannerQueue n s) := Sound.of_eq rfl rfl rfl

theorem loseMark_sound (why : StripReason) (s : State) (n : Nat) : Sound s (loseMark why s n) := by
  unfold loseMark
  refine Sound.trans ?_ (mapStrip_sound _ _ _)
  refine Sound.trans ?_ (withdraw_sound _ _)
  refine Sound.trans ?_ (freeStore_sound _ _)
  exact Sound.of_eq rfl rfl rfl

theorem loseStrips_sound (why : StripReason) (ns : List Nat) (s : State) : Sound s (loseStrips why ns s) := by
  unfold loseStrips
  exact (foldl_sound _ (loseMark_sound why) ns s).trans (freeCuttings_sound _ _)

theorem missEdge_sound (n : Nat) (p : Word) (s : State) : Sound s (missEdge n p s) := by
  unfold missEdge
  refine Sound.trans ?_ (logFault_linkOnly _ _ _ _ _ _).sound
  exact (loseStrips_sound _ _ s).trans (stripNotice_linkOnly _ _ _ _).sound

theorem abandonPlanning_sound (n : Nat) (s : State) : Sound s (abandonPlanning n s) := by
  unfold abandonPlanning
  split
  · exact freeCuttings_sound _ s
  · exact leavePlannerQueue_sound n s

theorem missDeadline_sound (n : Nat) (s : State) : Sound s (missDeadline n s) := by
  unfold missDeadline
  refine Sound.trans ?_ (freeStore_sound _ _)
  refine Sound.trans ?_ (withdraw_sound _ _)
  refine Sound.trans ?_ (abandonPlanning_sound n _)
  exact (mapStrip_sound _ _ s).trans (stripNotice_linkOnly _ _ _ _).sound

theorem takeRemoval_sound (n : Nat) (s : State) : Sound s (takeRemoval n s) := by
  unfold takeRemoval
  split
  · exact dropStrip_sound n s
  · exact mapStrip_sound _ _ s

theorem takeFire_sound (n l : Nat) (s : State) : Sound s (takeFire n l s) := by
  unfold takeFire
  split
  · exact Sound.refl s
  · refine Sound.trans ?_ (foldl_sound _ (fun s id => mapCutting_sound id _ s) _ _)
    exact Sound.of_eq rfl rfl rfl

/-! ### Planning -/

theorem setPlanner_sound (p : Planner) (s : State) : Sound s { s with planner := p } := Sound.of_eq rfl rfl rfl

theorem mapBank_addCutting_binsKept (k : BankId) (s : State) : BinsKept s (mapBank k (fun r => { r with cuttings := r.cuttings + 1 }) s) :=
  mapBank_counts_binsKept k Bank.strips (fun r => r.cuttings + 1) Bank.bundles s

theorem allocate_sound (id : CuttingId) (nominal cls spanStart : Nat) (bank : BankId) (s : State) :
    Sound s (allocate id nominal cls spanStart bank s) := by
  unfold allocate
  split
  · exact Sound.refl s
  · have hjoin : ∀ l, Sound s (mapBank bank (fun r => { r with cuttings := r.cuttings + 1 }) { s with cuttings := l }) := fun l =>
      Sound.trans (b := { s with cuttings := l }) (Sound.of_eq rfl rfl rfl) ⟨mapBank_addCutting_binsKept bank _, fun h => h⟩
    dsimp only
    split
    · exact (hjoin _).trans (mapHolds_sound _ _)
    · exact hjoin _

theorem lineNote_sound (before after : State) : Sound after (lineNote before after) := (lineNote_linkOnly before after).sound

theorem allocateAll_sound (r : Strip) (l : List (PlannedCutting × Nat)) (s : State) : Sound s (allocateAll r l s) := by
  induction l generalizing s with
  | nil => exact Sound.refl s
  | cons x l ih =>
    unfold allocateAll
    rw [event_allocate]
    exact ((allocate_sound _ _ _ _ _ s).trans (lineNote_sound _ _)).trans (ih _)

theorem planningRun_sound (id : CuttingId) (s : State) : Sound s (planningRun id s) :=
  ⟨(planningRun_gradingOnly id s).binsKept, planningRun_inOrder id⟩

theorem workUpTo_sound (r : Strip) (p : CutPlan) (w : Nat) (s : State) : Sound s (workUpTo r p w s) := by
  unfold workUpTo
  dsimp only
  refine Sound.trans ?_ (setPlanner_sound _ _)
  refine Sound.trans ?_ (foldl_sound _ (fun s id => planningRun_sound id s) _ _)
  split
  · exact (allocateAll_sound r _ s).trans (foldl_sound _ (fun s i => mapCutting_sound _ _ s) _ _)
  · exact allocateAll_sound r _ s

theorem beginProcessing_sound (n : Nat) (s : State) : Sound s (beginProcessing n s) := by
  have hbegin : ∀ k, Sound s { s with planner := { s.planner with inFlight := some n, placed := 0, graded := 0 }, freeCount := k } :=
    fun _ => Sound.of_eq rfl rfl rfl
  unfold beginProcessing
  dsimp only
  split
  · exact hbegin s.freeCount
  · split
    · exact (hbegin (s.freeCount + 1)).trans (workUpTo_sound _ _ _ _)
    · exact hbegin s.freeCount

theorem plannerNext_sound (s : State) : Sound s (plannerNext s) := by
  unfold plannerNext
  split
  · exact Sound.of_eq rfl rfl rfl
  · exact (setPlanner_sound _ s).trans (beginProcessing_sound _ _)

theorem settleGrading_sound (id : CuttingId) (s : State) : Sound s (settleGrading id s) :=
  ⟨(settleGrading_gradingOnly id s).binsKept, settleGrading_inOrder id⟩

/-! ### The safe-state predicates across a step -/

/-- Every safe-state predicate that holds in s holds in t, the two of the line state apart. -/
structure Within (s t : State) : Prop where
  queues : QueuesBounded s → QueuesBounded t
  labels : LabelsBounded s → LabelsBounded t
  tables : TablesBounded s → TablesBounded t
  order : ReferralsInOrder s → ReferralsInOrder t
  limits : BundlesWithinLimits s → BundlesWithinLimits t
  apart : BanksApart s → BanksApart t
  fit : SectionsFit s → SectionsFit t

theorem Within.refl (s : State) : Within s s := ⟨id, id, id, id, id, id, id⟩

theorem Within.trans {a b c : State} (h : Within a b) (k : Within b c) : Within a c :=
  ⟨fun x => k.queues (h.queues x), fun x => k.labels (h.labels x), fun x => k.tables (h.tables x), fun x => k.order (h.order x),
    fun x => k.limits (h.limits x), fun x => k.apart (h.apart x), fun x => k.fit (h.fit x)⟩

/-- Every safe-state predicate that holds in s holds in t. -/
structure Safe (s t : State) : Prop extends Within s t where
  line : HoldsFollowLine s → HoldsFollowLine t
  mark : MarkAtRest s → MarkAtRest t

theorem Safe.refl (s : State) : Safe s s := ⟨Within.refl s, id, id⟩

theorem Safe.trans {a b c : State} (h : Safe a b) (k : Safe b c) : Safe a c :=
  ⟨h.toWithin.trans k.toWithin, fun x => k.line (h.line x), fun x => k.mark (h.mark x)⟩

/-- From s to t the safe-state predicates are carried over, the two counters stay, and the line neither enters RUN nor leaves ESTOP. -/
structure Steady (s t : State) : Prop extends Safe s t where
  travel : t.motion.travel = s.motion.travel
  lug : t.motion.lug = s.motion.lug
  run : s.line.state ≠ .run → t.line.state ≠ .run
  estop : s.line.state = .estop → t.line.state = .estop

theorem Steady.refl (s : State) : Steady s s := ⟨Safe.refl s, rfl, rfl, id, id⟩

theorem Steady.trans {a b c : State} (h : Steady a b) (k : Steady b c) : Steady a c :=
  ⟨h.toSafe.trans k.toSafe, k.travel.trans h.travel, k.lug.trans h.lug, fun x => k.run (h.run x), fun x => k.estop (h.estop x)⟩

theorem foldl_steady {α : Type} (f : State → α → State) (h : ∀ s x, Steady s (f s x)) (l : List α) (s : State) :
    Steady s (l.foldl f s) := by
  induction l generalizing s with
  | nil => exact Steady.refl s
  | cons x l ih => exact (h s x).trans (ih _)

theorem LinkGrows.queuesBounded {s t : State} (h : LinkGrows s.link t.link) (hq : QueuesBounded s) : QueuesBounded t :=
  ⟨by rw [h.requests]; exact hq.1, h.notices hq.2⟩

/-- What the line, the counters, the link and the tables show of a step decides most of Steady; Sound gives the rest. -/
theorem Steady.of_facets {s t : State} (hs : Sound s t) (hstate : t.line.state = s.line.state)
    (hholds : t.line.holds.notRun = s.line.holds.notRun ∧ t.line.holds.drain = s.line.holds.drain)
    (hmotion : t.motion.travel = s.motion.travel ∧ t.motion.mark = s.motion.mark ∧ t.motion.lug = s.motion.lug)
    (hqueues : QueuesBounded s → QueuesBounded t) (hlabels : LabelsBounded s → LabelsBounded t)
    (htables : TablesBounded s → TablesBounded t) : Steady s t := by
  obtain ⟨hnotRun, hdrain⟩ := hholds
  obtain ⟨htravel, hmark, hlug⟩ := hmotion
  refine ⟨⟨⟨hqueues, hlabels, htables, hs.order, hs.bins.limits, hs.bins.banksApart, hs.bins.sectionsFit⟩, ?line, ?mark⟩, htravel, hlug, ?run, ?estop⟩
  case line =>
    unfold HoldsFollowLine
    rw [hnotRun, hdrain, hstate]
    exact id
  case mark =>
    unfold MarkAtRest
    rw [hmark, htravel, hstate]
    exact id
  case run =>
    rw [hstate]
    exact id
  case estop =>
    rw [hstate]
    exact id

theorem TrackingOnly.steady {s t : State} (h : TrackingOnly s t) (k : Sound s t) : Steady s t := by
  have hline : t.line.state = s.line.state ∧ t.line.holds.notRun = s.line.holds.notRun ∧ t.line.holds.drain = s.line.holds.drain := by
    rw [h.eq]
    exact ⟨rfl, rfl, rfl⟩
  have hmotion : t.motion.travel = s.motion.travel ∧ t.motion.mark = s.motion.mark ∧ t.motion.lug = s.motion.lug := by
    rw [h.eq]
    exact ⟨rfl, rfl, rfl⟩
  have hring : t.profile = s.profile := by rw [h.eq]
  refine Steady.of_facets k hline.1 hline.2 hmotion h.link.queuesBounded h.labels ?_
  rintro ⟨hstrips, hcuttings, hdeck, hentries, hdrift⟩
  exact ⟨h.strips.trans hstrips, h.cuttings.trans hcuttings, h.deck.trans hdeck, h.entries.trans hentries, by rw [hring]; exact hdrift⟩

theorem PlanningOnly.steady {n : Nat} {s t : State} (h : PlanningOnly n s t) (k : Sound s t) : Steady s t := by
  have hline : t.line.state = s.line.state ∧ t.line.holds.notRun = s.line.holds.notRun ∧ t.line.holds.drain = s.line.holds.drain := by
    rw [h.eq]
    exact ⟨rfl, rfl, rfl⟩
  have hkept : t.motion = s.motion ∧ t.label = s.label ∧ t.belt = s.belt ∧ t.chain = s.chain ∧ t.saw = s.saw ∧ t.profile = s.profile := by
    rw [h.eq]
    exact ⟨rfl, rfl, rfl, rfl, rfl, rfl⟩
  obtain ⟨hmotion, hlabel, hbelt, hchain, hsaw, hprofile⟩ := hkept
  refine Steady.of_facets k hline.1 hline.2 (by simp [hmotion]) h.link.queuesBounded ?_ ?_
  · unfold LabelsBounded
    rw [hlabel]
    exact id
  · rintro ⟨hstrips, hcuttings, hdeck, hentries, hdrift⟩
    exact ⟨by rw [hbelt]; exact hstrips, h.bounded hcuttings, by rw [hchain]; exact hdeck, by rw [hsaw]; exact hentries,
      by rw [hprofile]; exact hdrift⟩

theorem BinsOnly.steady {s t : State} (h : BinsOnly s t) (k : BinsKept s t) : Steady s t := h.trackingOnly.steady (h.sound k)

theorem LinkOnly.steady {s t : State} (h : LinkOnly s t) : Steady s t := h.binsOnly.steady h.binsKept

theorem GradingOnly.steady {s t : State} (h : GradingOnly s t) (k : ReferralsInOrder s → ReferralsInOrder t) : Steady s t :=
  h.trackingOnly.steady ⟨h.binsKept, k⟩

/-! ### Events -/

/-- A line state entered with its causes and the mark as Table 7 and R2 ask, from any state. -/
theorem enterLine_follows (l : LineState) (s : State) : HoldsFollowLine (enterLine l s) ∧ MarkAtRest (enterLine l s) := by
  refine ⟨⟨rfl, rfl⟩, fun h => ?_⟩
  simp only [enterLine] at h ⊢
  simp [h]

theorem enterLine_within (l : LineState) (s : State) : Within s (enterLine l s) := ⟨id, id, id, id, id, id, id⟩

theorem enterLine_safe (l : LineState) (s : State) : Safe s (enterLine l s) :=
  ⟨enterLine_within l s, fun _ => (enterLine_follows l s).1, fun _ => (enterLine_follows l s).2⟩

theorem enterReady_steady {s : State} (h : s.line.state ≠ .estop) : Steady s (enterLine .ready s) :=
  ⟨enterLine_safe _ s, rfl, rfl, fun _ => by simp [enterLine], fun h' => absurd h' h⟩

theorem lineNote_steady (before after : State) : Steady after (lineNote before after) := (lineNote_linkOnly before after).steady

theorem drainTest_steady (s : State) : Steady s (drainTest s) := by
  obtain h | ⟨hdrain, _, h⟩ := drainTest_cases s <;> rw [h]
  · exact Steady.refl s
  · exact (enterReady_steady (by rw [hdrain]; exact LineState.noConfusion)).trans (lineNote_steady _ _)

theorem drainAfter_steady (before after : State) : Steady after (drainAfter before after) := by
  obtain h | h := drainAfter_cases before after <;> rw [h]
  · exact Steady.refl after
  · exact drainTest_steady after

/-- An event carries over what its effects do. -/
theorem event_steady {f : State → State} {s : State} (h : Steady s (f s)) : Steady s (event f s) :=
  (h.trans (lineNote_steady _ _)).trans (drainAfter_steady _ _)

end Sys2Proof.Machine
end

