-- ==== Sys2Proof/Proofs/Carrying.lean ====
section
/-! PROOFS. Every operation of the model, from the taking of one event to the actions of a pulse, is Steady: it carries every safe-state predicate
over, moves no counter, and takes the line neither into RUN nor out of ESTOP. -/

namespace Sys2Proof.Machine

/-! ### Updates of one part -/

theorem mapStrip_steady (n : Nat) (f : Strip → Strip) (s : State) : Steady s (mapStrip n f s) :=
  (mapStrip_trackingOnly n f s).steady (mapStrip_sound n f s)

theorem mapCutting_steady (id : CuttingId) (f : Cutting → Cutting) (s : State) : Steady s (mapCutting id f s) :=
  (mapCutting_trackingOnly id f s).steady (mapCutting_sound id f s)

theorem mapStore_steady (i : StoreId) (f : Store → Store) (s : State) : Steady s (mapStore i f s) :=
  (mapStore_trackingOnly i f s).steady (mapStore_sound i f s)

theorem withdraw_steady (p : EventKind → Bool) (s : State) : Steady s (withdraw p s) :=
  (withdraw_trackingOnly p s).steady (withdraw_sound p s)

theorem addEvent_steady (p : Word) (k : EventKind) (s : State) : Steady s (addEvent p k s) :=
  (addEvent_trackingOnly p k s).steady (Sound.of_eq rfl rfl rfl)

theorem dropEvent_steady (e : PosEvent) (s : State) : Steady s (dropEvent e s) :=
  Steady.of_facets (Sound.of_eq rfl rfl rfl) rfl ⟨rfl, rfl⟩ ⟨rfl, rfl, rfl⟩ id id id

theorem setScan_steady (u : ScanUnit) (s : State) : Steady s { s with scan := u } :=
  Steady.of_facets (Sound.of_eq rfl rfl rfl) rfl ⟨rfl, rfl⟩ ⟨rfl, rfl, rfl⟩ id id id

theorem setPlanner_steady (p : Planner) (s : State) : Steady s { s with planner := p } :=
  Steady.of_facets (Sound.of_eq rfl rfl rfl) rfl ⟨rfl, rfl⟩ ⟨rfl, rfl, rfl⟩ id id id

theorem setFreeCount_steady (n : Nat) (s : State) : Steady s { s with freeCount := n } :=
  Steady.of_facets (Sound.of_eq rfl rfl rfl) rfl ⟨rfl, rfl⟩ ⟨rfl, rfl, rfl⟩ id id id

theorem setInForce_steady (c : Configuration) (s : State) : Steady s { s with inForce := c } :=
  Steady.of_facets (Sound.of_eq rfl rfl rfl) rfl ⟨rfl, rfl⟩ ⟨rfl, rfl, rfl⟩ id id id

/-- A change of Profile Watch that keeps its ring within the capacity. -/
theorem mapProfile_steady (f : ProfileWatch → ProfileWatch) (s : State)
    (h : ∀ w : ProfileWatch, w.ring.length ≤ Config.driftCapacity → (f w).ring.length ≤ Config.driftCapacity) : Steady s (mapProfile f s) :=
  Steady.of_facets (Sound.of_eq rfl rfl rfl) rfl ⟨rfl, rfl⟩ ⟨rfl, rfl, rfl⟩ id id
    fun ⟨hstrips, hcuttings, hdeck, hentries, hdrift⟩ => ⟨hstrips, hcuttings, hdeck, hentries, h _ hdrift⟩

/-- The causes but NOT_RUN and DRAIN, which follow the line state (Table 7). -/
theorem mapHolds_steady (f : HoldSet → HoldSet) (s : State) (h : ∀ x, (f x).notRun = x.notRun ∧ (f x).drain = x.drain) :
    Steady s (mapHolds f s) :=
  Steady.of_facets (Sound.of_eq rfl rfl rfl) rfl (h _) ⟨rfl, rfl, rfl⟩ id id id

theorem offer_steady (n : Notice) (s : State) : Steady s (offer n s) := (offer_linkOnly n s).steady

theorem logFault_steady (b : FaultBook) (code : Nat) (detail : Option Nat) (o : FaultObject) (p : Word) (s : State) :
    Steady s (logFault b code detail o p s) := (logFault_linkOnly b code detail o p s).steady

theorem freeStore_steady (n : Nat) (s : State) : Steady s (freeStore n s) := (freeStore_trackingOnly n s).steady (freeStore_sound n s)

theorem freeCuttings_steady (ids : List CuttingId) (s : State) : Steady s (freeCuttings ids s) :=
  (freeCuttings_trackingOnly ids s).steady (freeCuttings_sound ids s)

/-- The Label Unit with a queue no longer than it was. -/
theorem setLabel_steady (l : LabelUnit) (s : State) (h : l.queue.length ≤ s.label.queue.length) : Steady s { s with label := l } :=
  Steady.of_facets (Sound.of_eq rfl rfl rfl) rfl ⟨rfl, rfl⟩ ⟨rfl, rfl, rfl⟩ id (fun x => h.trans x) id

/-- A reply leaves the head of the request queue and is no notice (R205, R206). -/
theorem reply_steady (r : Request) (st : Status) (d : ReplyData) (s : State) : Steady s (reply r st d s) := by
  refine Steady.of_facets (Sound.of_eq rfl rfl rfl) rfl ⟨rfl, rfl⟩ ⟨rfl, rfl, rfl⟩ ?_ id id
  rintro ⟨hrequests, hnotices⟩
  refine ⟨?_, ?_⟩
  · rw [reply_requests, List.length_drop]
    omega
  · simpa [LinkPort.noticeCount, TxFrame.isNotice] using hnotices

/-! ### The Cut Planner -/

theorem beginProcessing_steady (n : Nat) (s : State) : Steady s (beginProcessing n s) :=
  (beginProcessing_planningOnly n s).steady (beginProcessing_sound n s)

theorem handToPlanner_steady (n : Nat) (s : State) : Steady s (handToPlanner n s) := by
  unfold handToPlanner
  split
  · exact beginProcessing_steady n s
  · exact setPlanner_steady _ s

theorem plannerNext_steady (s : State) : Steady s (plannerNext s) := by
  unfold plannerNext
  split
  · exact setPlanner_steady _ s
  · exact (setPlanner_steady _ s).trans (beginProcessing_steady _ _)

theorem workUpTo_steady (r : Strip) (p : CutPlan) (w : Nat) (s : State) : Steady s (workUpTo r p w s) :=
  (workUpTo_planningOnly r p w s).steady (workUpTo_sound r p w s)

theorem insertEntry_length (e : FireEntry) (l : List FireEntry) : (insertEntry e l).length = l.length + 1 := by
  induction l with
  | nil => rfl
  | cons x xs ih =>
    unfold insertEntry
    split
    · rfl
    · simp [ih]

/-- Each line offered adds at most one entry to the fire list (R92). -/
theorem loadLine_entries_length (s : State) (r : Strip) (x : Loading) (p : PlanLine × Nat) :
    (loadLine s r x p).entries.length ≤ x.entries.length + 1 := by
  unfold loadLine
  dsimp only
  split
  · exact Nat.le_succ _
  · exact (insertEntry_length _ _).le

theorem foldl_loadLine_entries_length (s : State) (r : Strip) (l : List (PlanLine × Nat)) (x : Loading) :
    (l.foldl (loadLine s r) x).entries.length ≤ x.entries.length + l.length := by
  induction l generalizing x with
  | nil => exact Nat.le_refl _
  | cons p l ih =>
    have hrest := ih (loadLine s r x p)
    have hone := loadLine_entries_length s r x p
    rw [List.foldl_cons, List.length_cons]
    omega

theorem loadLines_entries_length (s : State) (r : Strip) (lines : List PlanLine) :
    (loadLines s r lines).entries.length ≤ s.saw.entries.length + lines.length := by
  have h := foldl_loadLine_entries_length s r lines.zipIdx { entries := s.saw.entries, lines := [], waste := [] }
  rwa [List.length_zipIdx] at h

/-- A plan that the fire list has room for keeps it within its capacity (R90, R91). -/
theorem setEntries_steady {l : List FireEntry} {s : State}
    (h : s.saw.entries.length ≤ Config.lineCapacity → l.length ≤ Config.lineCapacity) : Steady s (setEntries l s) :=
  Steady.of_facets (setEntries_sound l s) rfl ⟨rfl, rfl⟩ ⟨rfl, rfl, rfl⟩ id id
    fun ⟨hstrips, hcuttings, hdeck, hentries, hdrift⟩ => ⟨hstrips, hcuttings, hdeck, h hentries, hdrift⟩

theorem completeLoaded_steady (r : Strip) (p : CutPlan) (s : State) (h : hasRoom s p.lines = true) : Steady s (completeLoaded r p s) := by
  unfold completeLoaded
  refine event_steady ?_
  refine Steady.trans ?_ (mapStrip_steady _ _ _)
  refine Steady.trans ?_ (freeCuttings_steady _ _)
  refine setEntries_steady fun hs => ?_
  have hlen := loadLines_entries_length s r p.lines
  have hroom : p.lines.length ≤ Config.lineCapacity - s.saw.entries.length := of_decide_eq_true h
  omega

theorem completeRefused_steady (r : Strip) (p : CutPlan) (s : State) : Steady s (completeRefused r p s) := by
  unfold completeRefused
  refine event_steady ?_
  refine Steady.trans ?_ (freeCuttings_steady _ _)
  exact (mapStrip_steady _ _ s).trans (offer_steady _ _)

theorem completeStrip_steady (r : Strip) (s : State) : Steady s (completeStrip r s) := by
  unfold completeStrip
  dsimp only
  refine Steady.trans ?_ (freeStore_steady _ _)
  split
  · exact (workUpTo_steady r _ _ s).trans (completeLoaded_steady r _ _ ‹_›)
  · exact (workUpTo_steady r _ _ s).trans (completeRefused_steady r _ _)

theorem completeProcessing_steady (s : State) : Steady s (completeProcessing s) := by
  unfold completeProcessing
  split
  · exact Steady.refl s
  · split
    · exact plannerNext_steady s
    · refine Steady.trans ?_ (plannerNext_steady _)
      split
      · exact completeStrip_steady _ s
      · exact Steady.refl s

/-! ### Profile Watch -/

theorem pushRing_length (v : Nat) (ring : List Nat) (h : ring.length ≤ Config.driftCapacity) : (pushRing v ring).length ≤ Config.driftCapacity := by
  unfold pushRing
  rw [List.length_append, List.length_singleton]
  split
  · assumption
  · rw [List.length_drop]
    have hpos : 0 < Config.driftCapacity := by decide
    omega

theorem profileNotice_steady (e : ProfileEvent) (s : State) : Steady s (profileNotice e s) := offer_steady _ s

theorem profileStop_steady (n stopCount : Nat) (classes : Vector (Option ProfileStatus) 4) (s : State) :
    Steady s (profileStop n stopCount classes s) := by
  unfold profileStop
  split
  · refine Steady.trans ?_ (lineNote_steady _ _)
    refine Steady.trans ?_ (profileNotice_steady _ _)
    exact mapHolds_steady _ s fun _ => ⟨rfl, rfl⟩
  · exact Steady.refl s

theorem countStatus_steady (n : Nat) (p : ProfileSection) (classes : Vector (Option ProfileStatus) 4) (st : ProfileStatus) (s : State) :
    Steady s (countStatus n p classes st s) := by
  have hzero : Steady s (mapProfile (fun w => { w with limitCount := 0 }) s) := mapProfile_steady _ s fun _ => id
  cases st with
  | limit =>
    refine Steady.trans ?_ (profileStop_steady n p.stopCount classes _)
    exact mapProfile_steady _ s fun _ => id
  | ok => exact hzero
  | warn => exact hzero

theorem driftAlarm_steady (n limit : Nat) (d : Int) (s : State) : Steady s (driftAlarm n limit d s) := by
  unfold driftAlarm
  split
  · split
    · refine Steady.trans ?_ (profileNotice_steady _ _)
      exact mapProfile_steady _ s fun _ => id
    · exact Steady.refl s
  · split
    · exact mapProfile_steady _ s fun _ => id
    · exact Steady.refl s

theorem enterDrift_steady (n v : Nat) (active : ProfileSection) (s : State) : Steady s (enterDrift n v active s) := by
  have hpush : Steady s (mapProfile (fun w => { w with ring := pushRing v w.ring }) s) :=
    mapProfile_steady _ s fun w => pushRing_length v w.ring
  unfold enterDrift
  dsimp only
  split
  · refine hpush.trans (Steady.trans ?_ (driftAlarm_steady _ _ _ _))
    exact mapProfile_steady _ _ fun _ => id
  · exact hpush

theorem driftStep_steady (r : Strip) (slots : List PassSlot) (p : ProfileSection) (s : State) : Steady s (driftStep r slots p s) := by
  unfold driftStep
  split
  · split
    · exact Steady.refl s
    · exact enterDrift_steady _ _ _ s
  · exact Steady.refl s

theorem judgeStrip_steady (n : Nat) (slots : List PassSlot) (s : State) : Steady s (judgeStrip n slots s) := by
  unfold judgeStrip
  split
  · exact Steady.refl s
  · split
    · exact Steady.refl s
    · dsimp only
      split
      · exact Steady.refl s
      · refine Steady.trans ?_ (driftStep_steady _ _ _ _)
        exact (mapStrip_steady _ _ s).trans (countStatus_steady _ _ _ _ _)

theorem toolNotices_steady (n : Nat) (i : Spindle) (before after : SpindleRecord) (s : State) : Steady s (toolNotices n i before after s) := by
  have hwarn : Steady s (if 1 ≤ before.warnLevel ∧ before.warnLevel < before.remaining ∧ after.remaining ≤ before.warnLevel then
      profileNotice (.toolWarn i after.remaining n s.motion.travel) s else s) := by
    split
    · exact profileNotice_steady _ s
    · exact Steady.refl s
  unfold toolNotices
  dsimp only
  split
  · exact hwarn.trans (profileNotice_steady _ _)
  · exact hwarn

theorem chargeSpindle_steady (n mm : Nat) (s : State) (i : Spindle) : Steady s (chargeSpindle n mm s i) := by
  unfold chargeSpindle
  refine Steady.trans ?_ (toolNotices_steady _ _ _ _ _)
  exact mapProfile_steady _ s fun _ => id

theorem chargeTools_steady (n mm : Nat) (s : State) : Steady s (chargeTools n mm s) :=
  (foldl_steady _ (chargeSpindle_steady n mm) allSpindles s).trans (mapStrip_steady _ _ _)

/-! ### Scans -/

theorem putScanning_steady (i : StoreId) (x : Scanning) (keep : Bool) (s : State) : Steady s (putScanning i x keep s) :=
  (mapStore_steady _ _ s).trans (mapStrip_steady _ _ _)

theorem setConverter_steady (c : Option Conversion) (s : State) : Steady s (setConverter c s) := setScan_steady _ s

theorem endScanTest_steady (n : Nat) (s : State) : Steady s (endScanTest n s) := by
  unfold endScanTest
  split
  · exact Steady.refl s
  · split
    · refine Steady.trans ?_ (handToPlanner_steady _ _)
      refine Steady.trans ?_ (judgeStrip_steady _ _ _)
      exact (withdraw_steady _ s).trans (putScanning_steady _ _ _ _)
    · exact Steady.refl s

theorem registerPass_steady (r : Strip) (j : Nat) (s : State) : Steady s (registerPass r j s) := by
  unfold registerPass
  split
  · exact Steady.refl s
  · exact addEvent_steady _ _ s

theorem beginConversion_steady (r : Strip) (j : Nat) (s : State) : Steady s (beginConversion r j s) := by
  unfold beginConversion
  split
  · exact setConverter_steady _ s
  · exact Steady.refl s

theorem takePass_steady (n : Nat) (g : GateSample) (s : State) : Steady s (takePass n g s) := by
  unfold takePass
  split
  · exact Steady.refl s
  · refine Steady.trans ?_ (endScanTest_steady _ _)
    refine Steady.trans ?_ (registerPass_steady _ _ _)
    exact (putScanning_steady _ _ _ s).trans (beginConversion_steady _ _ _)

theorem takePasses_steady (n : Nat) (g : GateSample) (fuel : Nat) (s : State) : Steady s (takePasses n g fuel s) := by
  induction fuel generalizing s with
  | zero => exact Steady.refl s
  | succ fuel ih =>
    unfold takePasses
    dsimp only
    split
    · exact takePass_steady n g s
    · exact ((takePass_steady n g s).trans (dropEvent_steady _ _)).trans (ih _)

theorem cutTail_steady (s : State) (n : Nat) : Steady s (cutTail s n) := by
  unfold cutTail
  split
  · exact Steady.refl s
  · refine Steady.trans ?_ (endScanTest_steady _ _)
    exact (withdraw_steady _ s).trans (putScanning_steady _ _ _ _)

theorem cutTails_steady (s : State) : Steady s (cutTails s) := by
  unfold cutTails
  exact (foldl_steady _ cutTail_steady _ s).trans (withdraw_steady _ _)

theorem openScan_steady (r : Strip) (p : Word) (g : GateSample) (s : State) : Steady s (openScan r p g s) := by
  have hstart : ∀ i, Steady s (startScan r.number i s) := fun i => (mapStore_steady i _ s).trans (mapStrip_steady _ _ _)
  unfold openScan
  split
  · exact (mapStrip_steady _ _ s).trans (offer_steady _ _)
  · dsimp only
    split
    · exact (hstart _).trans (endScanTest_steady _ _)
    · exact (hstart _).trans (takePasses_steady _ _ _ _)

theorem takeScanOpen_steady (n : Nat) (p : Word) (g : GateSample) (s : State) : Steady s (takeScanOpen n p g s) := by
  unfold takeScanOpen
  dsimp only
  split
  · exact cutTails_steady s
  · split
    · exact (cutTails_steady s).trans (openScan_steady _ _ _ _)
    · exact (cutTails_steady s).trans (openScan_steady _ _ _ _)
    · exact cutTails_steady s

/-! ### Events that register nothing -/

theorem missEdge_steady (n : Nat) (p : Word) (s : State) : Steady s (missEdge n p s) :=
  (missEdge_trackingOnly n p s).steady (missEdge_sound n p s)

theorem missDeadline_steady (n : Nat) (s : State) : Steady s (missDeadline n s) :=
  (missDeadline_trackingOnly n s).steady (missDeadline_sound n s)

theorem takeRemoval_steady (n : Nat) (s : State) : Steady s (takeRemoval n s) :=
  (takeRemoval_trackingOnly n s).steady (takeRemoval_sound n s)

theorem takeFire_steady (n l : Nat) (s : State) : Steady s (takeFire n l s) := (takeFire_trackingOnly n l s).steady (takeFire_sound n l s)

theorem leaveAfterTransfer_steady (n : Nat) (s : State) : Steady s (leaveAfterTransfer n s) :=
  (leaveAfterTransfer_trackingOnly n s).steady (leaveAfterTransfer_sound n s)

theorem latePlan_steady (n : Nat) (s : State) : Steady s (latePlan n s) := by
  have hmiss : Steady s (event (missDeadline n) s) := event_steady (missDeadline_steady n s)
  unfold latePlan
  dsimp only
  split
  · exact hmiss.trans (plannerNext_steady _)
  · exact hmiss

/-- The Chain Tracker with a deck within its capacity. -/
theorem setChain_steady (c : Chain) (s : State) (h : s.chain.deck.length ≤ Config.deckCapacity → c.deck.length ≤ Config.deckCapacity) :
    Steady s { s with chain := c } :=
  Steady.of_facets (Sound.of_eq rfl rfl rfl) rfl ⟨rfl, rfl⟩ ⟨rfl, rfl, rfl⟩ id id
    fun ⟨hstrips, hcuttings, hdeck, hentries, hdrift⟩ => ⟨hstrips, hcuttings, h hdeck, hentries, hdrift⟩

theorem deckRises_steady (s : State) : Steady s (deckRises s) := by
  unfold deckRises
  split
  · exact mapHolds_steady _ s fun _ => ⟨rfl, rfl⟩
  · exact Steady.refl s

theorem deckFalls_steady (s : State) : Steady s (deckFalls s) := by
  unfold deckFalls
  split
  · exact mapHolds_steady _ s fun _ => ⟨rfl, rfl⟩
  · exact Steady.refl s

theorem deckArrive_steady (id : CuttingId) (s : State) (h : s.chain.deck.length < Config.deckCapacity) : Steady s (deckArrive id s) := by
  unfold deckArrive
  refine Steady.trans ?_ (deckRises_steady _)
  refine Steady.trans ?_ (leaveAfterTransfer_steady _ _)
  refine (mapCutting_steady id _ s).trans (setChain_steady _ _ fun _ => ?_)
  rw [List.length_append]
  exact h

theorem returnCutting_steady (c : Cutting) (why : ReturnReason) (released : Option Bin) (p : Place) (s : State) :
    Steady s (returnCutting c why released p s) := (offer_steady _ s).trans (setChain_steady _ _ id)

theorem deckRefuse_steady (c : Cutting) (p : Word) (s : State) : Steady s (deckRefuse c p s) := by
  unfold deckRefuse
  refine Steady.trans ?_ (leaveAfterTransfer_steady _ _)
  exact (returnCutting_steady _ _ _ _ s).trans (freeCuttings_steady _ _)

theorem takeTransfer_steady (id : CuttingId) (p : Word) (s : State) : Steady s (takeTransfer id p s) := by
  unfold takeTransfer
  split
  · exact Steady.refl s
  · split
    · exact deckArrive_steady id s ‹_›
    · exact deckRefuse_steady _ p s

theorem takeSimple_steady (p : Word) (k : EventKind) (s : State) : Steady s (takeSimple p k s) := by
  cases k with
  | flushClear => exact event_steady (mapHolds_steady _ s fun _ => ⟨rfl, rfl⟩)
  | seEnd n => exact event_steady (missEdge_steady n p s)
  | removal n => exact event_steady (takeRemoval_steady n s)
  | fire n l => exact takeFire_steady n l s
  | transfer id => exact event_steady (takeTransfer_steady id p s)
  | seOpen n => exact Steady.refl s
  | scanOpen n => exact Steady.refl s
  | pass n => exact Steady.refl s

theorem regSimple_steady (p : Word) (k : EventKind) (s : State) : Steady s (regSimple p k s) := by
  unfold regSimple
  split
  · exact takeSimple_steady p k s
  · exact addEvent_steady p k s

/-! ### Any event -/

theorem openWindow_steady (r : Strip) (s : State) : Steady s (openWindow r s) := (mapStrip_steady _ _ s).trans (regSimple_steady _ _ _)

theorem takeSeOpen_steady (n : Nat) (s : State) : Steady s (takeSeOpen n s) := by
  unfold takeSeOpen
  split
  · exact Steady.refl s
  · split
    · exact openWindow_steady _ s
    · exact openWindow_steady _ s
    · exact (latePlan_steady n s).trans (openWindow_steady _ _)
    · exact (latePlan_steady n s).trans (openWindow_steady _ _)
    · exact (latePlan_steady n s).trans (openWindow_steady _ _)
    · exact (latePlan_steady n s).trans (openWindow_steady _ _)
    · exact Steady.refl s
    · exact Steady.refl s

theorem takeKind_steady (g : GateSample) (p : Word) (k : EventKind) (s : State) : Steady s (takeKind g p k s) := by
  cases k with
  | seOpen n => exact takeSeOpen_steady n s
  | scanOpen n => exact takeScanOpen_steady n p g s
  | pass n => exact takePasses_steady n g _ s
  | flushClear => exact takeSimple_steady p .flushClear s
  | seEnd n => exact takeSimple_steady p (.seEnd n) s
  | removal n => exact takeSimple_steady p (.removal n) s
  | fire n l => exact takeSimple_steady p (.fire n l) s
  | transfer id => exact takeSimple_steady p (.transfer id) s

theorem register_steady (g : GateSample) (p : Word) (k : EventKind) (s : State) : Steady s (register g p k s) := by
  unfold register
  split
  · exact takeKind_steady g p k s
  · exact addEvent_steady p k s

theorem chooseEvent_steady (first : PosEvent) (rest : List PosEvent) (s : State) : Steady s (chooseEvent first rest s).2 := by
  unfold chooseEvent
  split
  · exact Steady.refl s
  · exact setFreeCount_steady _ s

theorem takeDue_steady (g : GateSample) (fuel : Nat) (s : State) : Steady s (takeDue g fuel s) := by
  induction fuel generalizing s with
  | zero => exact Steady.refl s
  | succ fuel ih =>
    unfold takeDue
    split
    · exact Steady.refl s
    · refine Steady.trans ?_ (ih _)
      refine Steady.trans ?_ (takeKind_steady _ _ _ _)
      exact (chooseEvent_steady _ _ s).trans (dropEvent_steady _ _)

/-! ### Flush, match, strip table -/

theorem loseStrips_steady (why : StripReason) (ns : List Nat) (s : State) : Steady s (loseStrips why ns s) :=
  (loseStrips_trackingOnly why ns s).steady (loseStrips_sound why ns s)

theorem flushAt_steady (reason : FlushReason) (why : StripReason) (ns : List Nat) (logIt : State → State) (p : Word) (s : State)
    (h : ∀ t, Steady t (logIt t)) : Steady s (flushAt reason why ns logIt p s) := by
  unfold flushAt
  refine Steady.trans ?_ (regSimple_steady _ _ _)
  refine Steady.trans ?_ (drainAfter_steady _ _)
  refine Steady.trans ?_ (offer_steady _ _)
  refine Steady.trans ?_ (setChain_steady _ _ id)
  refine Steady.trans ?_ (lineNote_steady _ _)
  refine Steady.trans ?_ (withdraw_steady _ _)
  refine Steady.trans ?_ (mapHolds_steady _ _ fun _ => ⟨rfl, rfl⟩)
  exact (loseStrips_steady why ns s).trans (h _)

theorem trackFlush_steady (rs : List Strip) (p : Word) (s : State) : Steady s (trackFlush rs p s) :=
  flushAt_steady _ _ _ _ _ s fun t => logFault_steady _ _ _ _ _ t

/-- A re-latched entry either stays, moved, or is removed (R93). -/
theorem relatchEntry_kept_length (s : State) (n : Nat) (shift : Int) (others : List FireEntry) (x : Relatch) (e : FireEntry) :
    (relatchEntry s n shift others x e).kept.length ≤ x.kept.length + 1 := by
  unfold relatchEntry
  dsimp only
  split
  · exact Nat.le_succ _
  · simp

theorem foldl_relatchEntry_kept_length (s : State) (n : Nat) (shift : Int) (others l : List FireEntry) (x : Relatch) :
    (l.foldl (relatchEntry s n shift others) x).kept.length ≤ x.kept.length + l.length := by
  induction l generalizing x with
  | nil => exact Nat.le_refl _
  | cons e l ih =>
    have hrest := ih (relatchEntry s n shift others x e)
    have hone := relatchEntry_kept_length s n shift others x e
    rw [List.foldl_cons, List.length_cons]
    omega

theorem relatch_kept_length (s : State) (n : Nat) (shift : Int) :
    (relatch s n shift).kept.length ≤ (s.saw.entries.filter (fun e => e.strip == n)).length := by
  have h := foldl_relatchEntry_kept_length s n shift (s.saw.entries.filter (fun e => e.strip != n))
    (s.saw.entries.filter (fun e => e.strip == n)) { kept := [], removed := [], freed := [] }
  rwa [List.length_nil, Nat.zero_add] at h

theorem foldl_insertEntry_length (l m : List FireEntry) : (l.foldl (fun l e => insertEntry e l) m).length = m.length + l.length := by
  induction l generalizing m with
  | nil => rfl
  | cons e l ih =>
    rw [List.foldl_cons, ih, insertEntry_length, List.length_cons]
    omega

theorem relatchEntries_length (s : State) (n : Nat) (shift : Int) :
    (relatchEntries s n (relatch s n shift)).length ≤ s.saw.entries.length := by
  have hkept := relatch_kept_length s n shift
  have hsplit := List.length_eq_length_filter_add (l := s.saw.entries) (fun e => e.strip == n)
  unfold relatchEntries
  rw [foldl_insertEntry_length]
  have hothers : (s.saw.entries.filter (fun e => e.strip != n)).length = (s.saw.entries.filter (fun e => !(e.strip == n))).length := rfl
  omega

theorem spacingFault_steady (n : Nat) (s : State) (x : FireEntry × Option Nat) : Steady s (spacingFault n s x) :=
  (mapStrip_steady _ _ s).trans (logFault_steady _ _ _ _ _ _)

theorem relatchSaw_steady (n : Nat) (shift : Int) (s : State) : Steady s (relatchSaw n shift s) := by
  unfold relatchSaw
  refine Steady.trans ?_ (freeCuttings_steady _ _)
  refine Steady.trans ?_ (foldl_steady _ (spacingFault_steady n) _ _)
  exact setEntries_steady fun h => (relatchEntries_length s n shift).trans h

theorem cutUnbounded_steady (n : Nat) (s : State) : Steady s (cutUnbounded n s) := by
  unfold cutUnbounded
  split
  · exact Steady.refl s
  · exact foldl_steady _ (fun s id => mapCutting_steady id _ s) _ s

theorem matchStrip_steady (r : Strip) (p : Word) (s : State) : Steady s (matchStrip r p s) := by
  have hclose : Steady s (withdraw (fun k => k == .seEnd r.number)
      (mapStrip r.number (fun t => { t with shift := some (ticksFrom (predictedLead s r) p), windowOpen := false }) s)) :=
    (mapStrip_steady _ _ s).trans (withdraw_steady _ _)
  unfold matchStrip
  dsimp only
  split
  · refine Steady.trans ?_ (cutUnbounded_steady _ _)
    refine Steady.trans ?_ (relatchSaw_steady _ _ _)
    exact hclose.trans (mapStrip_steady _ _ _)
  · exact hclose

theorem registerFires_steady (n : Nat) (s : State) : Steady s (registerFires n s) :=
  foldl_steady _ (fun s _ => regSimple_steady _ _ s) _ s

theorem registerTransfers_steady (n : Nat) (s : State) : Steady s (registerTransfers n s) := by
  unfold registerTransfers
  split
  · exact Steady.refl s
  · exact foldl_steady _ (fun s _ => regSimple_steady _ _ s) _ s

theorem moveRemoval_steady (n : Nat) (s : State) : Steady s (moveRemoval n s) := by
  unfold moveRemoval
  split
  · exact Steady.refl s
  · split
    · exact (withdraw_steady _ s).trans (regSimple_steady _ _ _)
    · exact Steady.refl s

theorem takeMatch_steady (r : Strip) (p : Word) (s : State) : Steady s (takeMatch r p s) := by
  have hmatch : Steady s (event (matchStrip r p) s) := event_steady (matchStrip_steady r p s)
  unfold takeMatch
  dsimp only
  refine Steady.trans ?_ (moveRemoval_steady _ _)
  split
  · exact (hmatch.trans (registerFires_steady _ _)).trans (registerTransfers_steady _ _)
  · exact hmatch

theorem takeSeEdge_steady (p : Word) (s : State) : Steady s (takeSeEdge p s) := by
  unfold takeSeEdge
  split
  · exact logFault_steady _ _ _ _ _ s
  · exact takeMatch_steady _ p s
  · exact trackFlush_steady _ p s

/-- A strip record joins a table with a record free (R13, R15). -/
theorem createStrip_steady (r : Strip) (s : State) (h : s.belt.strips.length < Config.stripCapacity) : Steady s (createStrip r s) := by
  have hbank : BinsKept s (createStrip r s) := by
    refine BinsKept.trans (BinsKept.of_eq ?_ ?_) (mapBank_counts_binsKept r.bank (fun b => b.strips + 1) Bank.cuttings Bank.bundles _)
    · rfl
    · rfl
  refine Steady.of_facets ⟨hbank, fun x => x⟩ rfl ⟨rfl, rfl⟩ ⟨rfl, rfl, rfl⟩ id id ?_
  rintro ⟨_, hcuttings, hdeck, hentries, hdrift⟩
  refine ⟨?_, hcuttings, hdeck, hentries, hdrift⟩
  simpa [createStrip] using h

theorem enterStrip_steady (g : GateSample) (s : State) (h : s.belt.strips.length < Config.stripCapacity) : Steady s (enterStrip g s) := by
  unfold enterStrip registerStrip
  exact ((createStrip_steady _ s h).trans (register_steady _ _ _ _)).trans (register_steady _ _ _ _)

theorem trackFull_steady (s : State) : Steady s (trackFull s) := by
  unfold trackFull
  refine event_steady (Steady.trans ?_ (logFault_steady _ _ _ _ _ _))
  exact mapHolds_steady _ s fun _ => ⟨rfl, rfl⟩

theorem registerRemoval_steady (n : Nat) (s : State) : Steady s (registerRemoval n s) := by
  unfold registerRemoval
  split
  · exact Steady.refl s
  · exact regSimple_steady _ _ s

theorem takeTrail_steady (r : Strip) (s : State) : Steady s (takeTrail r s) := by
  unfold takeTrail
  refine Steady.trans ?_ (registerRemoval_steady _ _)
  refine Steady.trans ?_ (endScanTest_steady _ _)
  exact (mapStrip_steady _ _ s).trans (chargeTools_steady _ _ _)

theorem completeConversion_steady (volts : Vector Int 16) (c : Conversion) (s : State) : Steady s (completeConversion volts c s) := by
  unfold completeConversion
  dsimp only
  split
  · exact setConverter_steady _ s
  · split
    · exact ((setConverter_steady _ s).trans (putScanning_steady _ _ _ _)).trans (endScanTest_steady _ _)
    · exact setConverter_steady _ s

/-! ### The lug chain -/

theorem setWindow_steady (b : Bin) (w : Option CuttingId) (s : State) : Steady s (setWindow b w s) := setChain_steady _ s id

theorem missDrop_steady (b : Bin) (c : Cutting) (s : State) : Steady s (missDrop b c s) := by
  unfold missDrop
  refine Steady.trans ?_ (freeCuttings_steady _ _)
  exact ((setWindow_steady _ _ s).trans (returnCutting_steady _ _ _ _ _)).trans (logFault_steady _ _ _ _ _ _)

theorem closeLanding_steady (s : State) (b : Bin) : Steady s (closeLanding s b) := by
  unfold closeLanding
  split
  · exact Steady.refl s
  · split
    · exact setWindow_steady _ _ s
    · exact event_steady (missDrop_steady _ _ s)

theorem release_steady (b : Bin) (c n : Nat) (s : State) : Steady s (release b c n s) :=
  (release_binsOnly b c n s).steady (release_binsKept b c n s)

theorem checkCutting_steady (present lengthFault : Bool) (c : Cutting) (s : State) : Steady s (checkCutting present lengthFault c s) := by
  unfold checkCutting
  split
  · unfold findMissing
    refine Steady.trans ?_ (freeCuttings_steady _ _)
    exact (returnCutting_steady _ _ _ _ s).trans (logFault_steady _ _ _ _ _ _)
  · split
    · unfold findMismatch
      split
      · exact mapCutting_steady _ _ s
      · exact (release_steady _ _ _ s).trans (mapCutting_steady _ _ _)
    · exact mapCutting_steady _ _ s

theorem sampleTenoner_steady (present lengthFault : Bool) (s : State) : Steady s (sampleTenoner present lengthFault s) := by
  unfold sampleTenoner
  split
  · exact event_steady (checkCutting_steady _ _ _ s)
  · split
    · exact logFault_steady _ _ _ _ _ s
    · exact Steady.refl s

theorem fireDrop_steady (s : State) (b : Bin) : Steady s (fireDrop s b) := by
  unfold fireDrop
  split
  · exact Steady.refl s
  · split
    · exact (mapCutting_steady _ _ s).trans (setWindow_steady _ _ _)
    · exact Steady.refl s

theorem chainEnd_steady (s : State) : Steady s (chainEnd s) := by
  unfold chainEnd
  split
  · exact Steady.refl s
  · exact event_steady ((returnCutting_steady _ _ _ _ s).trans (freeCuttings_steady _ _))

theorem admission_steady (g gen c n : Nat) (s : State) : Steady s (admission g gen c n s).2 := by
  refine BinsOnly.steady ?_ (admission_binsKept g gen c n s)
  obtain ⟨_, h⟩ | ⟨b, _, _, h⟩ := admission_cases g gen c n s <;> rw [h]
  · exact BinsOnly.refl s
  · exact admitTo_binsOnly b c n s

theorem chooseDest_steady (c : Cutting) (s : State) : Steady s (chooseDest c s).2.2 := by
  unfold chooseDest
  split
  · dsimp only
    split
    · exact admission_steady _ _ _ _ s
    · exact admission_steady _ _ _ _ s
  · exact Steady.refl s

/-- The head of the deck leaves it. -/
theorem dropDeck_steady (s : State) : Steady s { s with chain := { s.chain with deck := s.chain.deck.drop 1 } } :=
  setChain_steady _ s fun h => (List.length_drop ▸ Nat.sub_le _ _ : (s.chain.deck.drop 1).length ≤ s.chain.deck.length).trans h

theorem settleGrading_steady (id : CuttingId) (s : State) : Steady s (settleGrading id s) :=
  (settleGrading_gradingOnly id s).steady (settleGrading_inOrder id)

theorem boardLug_steady (id : CuttingId) (d : Dest) (why : Option ReturnReason) (s : State) : Steady s (boardLug id d why s) := by
  unfold boardLug
  refine Steady.trans ?_ (deckFalls_steady _)
  exact (mapCutting_steady _ _ s).trans (dropDeck_steady _)

theorem loadLug_steady (id : CuttingId) (s : State) : Steady s (loadLug id s) := by
  unfold loadLug
  dsimp only
  refine Steady.trans (settleGrading_steady id s) ?_
  split
  · exact dropDeck_steady _
  · refine Steady.trans ?_ (boardLug_steady _ _ _ _)
    exact chooseDest_steady _ _

theorem loadNext_steady (s : State) : Steady s (loadNext s) := by
  unfold loadNext
  split
  · exact Steady.refl s
  · exact event_steady (loadLug_steady _ s)

/-- The actions of a LUG pulse, once the lug counter has advanced (R138). -/
theorem takeLugPulse_steady (present lengthFault : Bool) (s : State) :
    Steady { s with motion := { s.motion with lug := s.motion.lug + 1 } } (takeLugPulse present lengthFault s) := by
  unfold takeLugPulse
  refine Steady.trans ?_ (loadNext_steady _)
  refine Steady.trans ?_ (chainEnd_steady _)
  refine Steady.trans ?_ (foldl_steady _ fireDrop_steady allBins _)
  exact (foldl_steady _ closeLanding_steady allBins _).trans (sampleTenoner_steady _ _ _)

theorem freeRecord_steady (landed : Bool) (id : CuttingId) (s : State) : Steady s (freeRecord landed id s) :=
  (freeRecord_trackingOnly landed id s).steady (freeRecord_sound landed id s)

theorem takeLanding_steady (b : Bin) (s : State) : Steady s (takeLanding b s) := by
  unfold takeLanding
  split
  · exact (logFault_steady _ _ _ _ _ s).trans ((mapBundle_binsOnly b _ _).steady (flagStray_binsKept b _))
  · split
    · exact setWindow_steady _ _ s
    · refine event_steady ?_
      refine Steady.trans ?_ (freeRecord_steady _ _ _)
      exact (setWindow_steady _ _ s).trans ((landPiece_binsOnly _ _ _).steady (landPiece_binsKept _ _ _))

end Sys2Proof.Machine
end

