-- ==== Sys2Proof/Proofs/Requests.lean ====
section
/-! PROOFS. What the requests and the messages of the labeller do is Steady too, the loading, commit and switch of recipes and the resets among
them; START, the end of an ESTOP and power-on alone are not, and are Safe. -/

namespace Sys2Proof.Machine

/-! ### Taking a request -/

@[simp] theorem okay_state (s : State) : (okay s).state = s := rfl

@[simp] theorem okayWith_state (d : ReplyData) (s : State) : (okayWith d s).state = s := rfl

@[simp] theorem refuse_state (st : Status) (s : State) : (refuse st s).state = s := rfl

theorem takeRequest_steady (kind : Byte) {f : Request → State → Answer} {s : State} (h : ∀ r, Steady s (f r s).state) :
    Steady s (takeRequest kind f s) := by
  obtain e | ⟨r, _, _, _, e⟩ := takeRequest_cases kind f s <;> rw [e]
  · exact Steady.refl s
  · exact (h r).trans (reply_steady _ _ _ _)

/-- A request of fixed layout is refused FRAME, or handed to its own rule (R206). -/
theorem withFields_cases (layout : List FieldSize) (f : List Int → State → Answer) (r : Request) (s : State) :
    (parseFields layout r.body = none ∧ withFields layout f r s = refuse .frame s) ∨
      ∃ fs, parseFields layout r.body = some fs ∧ withFields layout f r s = f fs s := by
  cases h : parseFields layout r.body with
  | none => exact .inl ⟨rfl, withFields_none f h⟩
  | some fs => exact .inr ⟨fs, rfl, withFields_some f h⟩

theorem withFields_steady (kind : Byte) (layout : List FieldSize) {f : List Int → State → Answer} {s : State}
    (h : ∀ fs, Steady s (f fs s).state) : Steady s (takeRequest kind (withFields layout f) s) := by
  refine takeRequest_steady kind fun r => ?_
  obtain ⟨_, e⟩ | ⟨fs, _, e⟩ := withFields_cases layout f r s <;> rw [e]
  · exact Steady.refl s
  · exact h fs

/-- A rule that answers from the state and leaves it. -/
theorem Steady.of_state_eq {s t : State} (h : t = s) : Steady s t := by
  rw [h]
  exact Steady.refl s

/-! ### Reads -/

theorem readConfigAnswer_state (fs : List Int) (s : State) : (readConfigAnswer fs s).state = s := by
  unfold readConfigAnswer
  split <;> rfl

theorem readSection_state (k sec : Nat) (s : State) : (readSection k sec s).state = s := by
  unfold readSection
  split
  · rfl
  · split <;> rfl

theorem readTests_state (k start n : Nat) (s : State) : (readTests k start n s).state = s := by
  unfold readTests
  split
  · rfl
  · split
    · rfl
    · split <;> rfl

theorem readAnswer_state (r : Request) (s : State) : (readAnswer r s).state = s := by
  unfold readAnswer
  split
  · split
    · rfl
    · exact readSection_state _ _ s
  · split
    · exact readTests_state _ _ _ s
    · rfl
  · rfl

theorem readStripAnswer_state (fs : List Int) (s : State) : (readStripAnswer fs s).state = s := by
  unfold readStripAnswer
  split
  · rfl
  · split <;> rfl

theorem readCuttingAnswer_state (fs : List Int) (s : State) : (readCuttingAnswer fs s).state = s := by
  unfold readCuttingAnswer
  split
  · rfl
  · split
    · rfl
    · split <;> rfl

theorem readBinAnswer_state (fs : List Int) (s : State) : (readBinAnswer fs s).state = s := by
  unfold readBinAnswer
  split <;> rfl

theorem readLabelsAnswer_steady (fs : List Int) (s : State) : Steady s (readLabelsAnswer fs s).state := by
  unfold readLabelsAnswer
  rw [okayWith_state]
  split
  · exact setFreeCount_steady _ s
  · exact Steady.refl s

theorem readFaultAnswer_state (fs : List Int) (s : State) : (readFaultAnswer fs s).state = s := by
  unfold readFaultAnswer
  split <;> rfl

/-! ### Settings -/

/-- The link with its queues no longer than they were. -/
theorem setLink_steady (l : LinkPort) (s : State) (hr : l.requests = s.link.requests) (ht : l.tx = s.link.tx) : Steady s { s with link := l } := by
  refine Steady.of_facets (Sound.of_eq rfl rfl rfl) rfl ⟨rfl, rfl⟩ ⟨rfl, rfl, rfl⟩ ?_ id id
  unfold QueuesBounded LinkPort.noticeCount
  rw [hr, ht]
  exact id

theorem statusAnswer_steady (fs : List Int) (s : State) : Steady s (statusAnswer fs s).state := by
  unfold statusAnswer
  split
  · exact Steady.refl s
  · split
    · exact setLink_steady _ s rfl rfl
    · exact Steady.refl s

theorem maskAnswer_steady (fs : List Int) (s : State) : Steady s (maskAnswer fs s).state := by
  unfold maskAnswer
  split
  · exact Steady.refl s
  · exact setLink_steady _ s rfl rfl

theorem setLotAnswer_steady (fs : List Int) (s : State) : Steady s (setLotAnswer fs s).state := by
  unfold setLotAnswer
  split
  · exact Steady.refl s
  · exact setLabel_steady _ s (Nat.le_refl _)

theorem clearFaultAnswer_steady (fs : List Int) (s : State) : Steady s (clearFaultAnswer fs s).state := by
  unfold clearFaultAnswer
  split
  · exact Steady.refl s
  · rename_i b _
    refine setLink_steady _ s ?_ ?_ <;> (cases b <;> rfl)

theorem infeedAnswer_steady (fs : List Int) (s : State) : Steady s (infeedAnswer fs s).state := by
  unfold infeedAnswer
  split
  · exact event_steady (mapHolds_steady _ s fun _ => ⟨rfl, rfl⟩)
  · split
    · exact event_steady (mapHolds_steady _ s fun _ => ⟨rfl, rfl⟩)
    · exact Steady.refl s

/-- PROFILE and the consecutive-limit count go together (R58). -/
def clearStop (s : State) : State := mapHolds (fun h => { h with profile := false }) (mapProfile (fun w => { w with limitCount := 0 }) s)

theorem resumeAnswer_state (fs : List Int) (s : State) : (resumeAnswer fs s).state = event clearStop s := rfl

theorem resumeAnswer_steady (fs : List Int) (s : State) : Steady s (resumeAnswer fs s).state := by
  rw [resumeAnswer_state]
  refine event_steady (Steady.trans (b := mapProfile (fun w => { w with limitCount := 0 }) s) ?_ ?_)
  · exact mapProfile_steady _ s fun _ => id
  · exact mapHolds_steady _ _ fun _ => ⟨rfl, rfl⟩

theorem emptyRing_steady (s : State) : Steady s (emptyRing s) := mapProfile_steady _ s fun _ _ => Nat.zero_le _

theorem toolSetAnswer_steady (fs : List Int) (s : State) : Steady s (toolSetAnswer fs s).state := by
  unfold toolSetAnswer
  split
  · exact Steady.refl s
  · split
    · exact Steady.refl s
    · split
      · exact Steady.refl s
      · refine Steady.trans ?_ (emptyRing_steady _)
        exact mapProfile_steady _ s fun _ => id

theorem standbyTest_steady (s : State) : Steady s (standbyTest s) := by
  unfold standbyTest
  split
  · rename_i h
    exact (enterReady_steady (by rw [h.1]; exact LineState.noConfusion)).trans (lineNote_steady _ _)
  · exact Steady.refl s

theorem configureSection_steady (sec : Nat) (fs : List Int) (s : State) : Steady s (configureSection sec fs s).state := by
  unfold configureSection
  split
  · exact Steady.refl s
  · exact (setInForce_steady _ s).trans (standbyTest_steady _)

theorem configureAnswer_steady (r : Request) (s : State) : Steady s (configureAnswer r s).state := by
  unfold configureAnswer
  split
  · exact Steady.refl s
  · split
    · split <;> exact Steady.refl s
    · split
      · exact Steady.refl s
      · split
        · exact configureSection_steady _ _ s
        · exact Steady.refl s

/-- DRAIN is taken in RUN, which is not ESTOP (R7). -/
theorem drainAnswer_steady (fs : List Int) (s : State) : Steady s (drainAnswer fs s).state := by
  unfold drainAnswer
  split
  · rename_i h
    refine Steady.trans ?_ (drainTest_steady _)
    refine Steady.trans ?_ (lineNote_steady _ _)
    exact ⟨enterLine_safe _ s, rfl, rfl, fun _ => by simp [enterLine], fun h' => by rw [h] at h'; contradiction⟩
  · exact Steady.refl s
  · exact Steady.refl s
  · exact Steady.refl s
  · exact Steady.refl s

/-! ### Bins -/

theorem openBundle_steady (b : Bin) (s : State) : Steady s (openBundle b s) := (openBundle_binsOnly b s).steady (openBundle_binsKept b s)

theorem setEmptyLevel_steady (b : Bin) (v : Bool) (s : State) : Steady s (mapBin b (fun r => { r with emptyLevel := v }) s) :=
  (mapBin_binsOnly b _ s).steady (mapBin_binsKept_of_bundle b _ s fun _ _ h => h)

theorem floorClears_steady (b : Bin) (s : State) : Steady s (floorClears b s) := by
  unfold floorClears
  dsimp only
  split
  · exact (setEmptyLevel_steady b true s).trans (openBundle_steady b _)
  · exact setEmptyLevel_steady b true s

theorem binHoldAnswer_steady (fs : List Int) (s : State) : Steady s (binHoldAnswer fs s).state := by
  have henter : ∀ b st, Steady s (enterBin .held b st s) := fun b st => (enterBin_binsOnly _ b st s).steady (enterBin_binsKept _ b st s)
  have hhold : ∀ b, Steady s (holdBin b s).state := by
    intro b
    unfold holdBin
    split
    · exact henter b _
    · exact henter b _
    · exact Steady.refl s
    · exact Steady.refl s
    · exact Steady.refl s
    · exact Steady.refl s
    · exact Steady.refl s
  have hrelease : ∀ b, Steady s (releaseBin b s).state := by
    intro b
    unfold releaseBin
    split
    · exact (endHold_binsOnly b _ s).steady (endHold_binsKept b _ s)
    · exact Steady.refl s
  unfold binHoldAnswer
  split
  · exact Steady.refl s
  · split
    · exact hhold _
    · split
      · exact hrelease _
      · exact Steady.refl s

theorem forceClose_steady (b : Bin) (bu : Bundle) (s : State) (hb : s.bundles.bins[b].bundle = some bu) :
    Steady s (forceClose b bu s).state := by
  unfold forceClose
  split
  · exact Steady.refl s
  · split
    · exact (retireAfter_binsOnly b _ s (closeTest_binsOnly b s)).steady (retireAfter_binsKept b _ s (closeTest_binsKept b s))
    · exact (retireAfter_binsOnly b _ s (closeShort_binsOnly b bu s)).steady (retireAfter_binsKept b _ s (closeShort_binsKept b bu s hb))

theorem closeBundleAnswer_steady (fs : List Int) (s : State) : Steady s (closeBundleAnswer fs s).state := by
  unfold closeBundleAnswer
  split
  · exact Steady.refl s
  · split
    · exact forceClose_steady _ _ s ‹_›
    · exact forceClose_steady _ _ s ‹_›
    · exact Steady.refl s

/-! ### Labels -/

theorem tryPrint_steady (s : State) : Steady s (tryPrint s) := (tryPrint_binsOnly s).steady (tryPrint_binsKept s)

theorem faultHead_steady (cause : LabelCause) (code : Byte) (s : State) : Steady s (faultHead cause code s) := by
  unfold faultHead
  split
  · exact Steady.refl s
  · refine Steady.trans ?_ (offer_steady _ _)
    refine Steady.trans ?_ (logFault_steady _ _ _ _ _ _)
    exact setLabel_steady _ s (Nat.le_refl _)

theorem headLeaves_steady (o : Outcome) (s : State) : Steady s (headLeaves o s) := by
  have hrest : ∀ (b : Bin) (t : State), Steady t (tryPrint (closingEntry (dispatchBin b o t))) := fun b t =>
    (((dispatchBin_binsOnly b o t).trans (closingEntry_binsOnly _)).trans (tryPrint_binsOnly _)).steady
      (((dispatchBin_binsKept b o t).trans (closingEntry_binsKept _)).trans (tryPrint_binsKept _))
  unfold headLeaves
  split
  · exact Steady.refl s
  · rename_i h rest hq
    have hdump : Steady s (giveDump h.bin s) := (giveDump_binsOnly h.bin s).steady (giveDump_binsKept h.bin s)
    have hqueue : (giveDump h.bin s).label.queue = s.label.queue := by
      unfold giveDump
      split
      · rfl
      · split <;> rfl
    have hleave : ∀ l : LabelUnit, l.queue = rest → Steady (giveDump h.bin s) { giveDump h.bin s with label := l } := by
      intro l hl
      refine setLabel_steady l _ ?_
      rw [hqueue, hq, hl]
      exact Nat.le_succ _
    dsimp only
    refine Steady.trans ?_ (hrest h.bin _)
    split
    · exact (hdump.trans (hleave _ rfl)).trans (offer_steady _ _)
    · exact hdump.trans (hleave _ rfl)

theorem takeReady_steady (field : Byte) (s : State) : Steady s (takeReady field s) := by
  unfold takeReady
  split
  · exact setLabel_steady _ s (Nat.le_refl _)
  · split
    · refine Steady.trans ?_ (tryPrint_steady _)
      exact setLabel_steady _ s (Nat.le_refl _)
    · exact logFault_steady _ _ _ _ _ s

theorem acceptHead_steady (s : State) : Steady s (acceptHead s) := by
  unfold acceptHead
  split
  · exact Steady.refl s
  · refine Steady.trans ?_ ((giveDump_binsOnly _ _).steady (giveDump_binsKept _ _))
    exact setLabel_steady _ s (Nat.le_refl _)

theorem takeAccept_steady (sequence : Word) (s : State) : Steady s (takeAccept sequence s) := by
  unfold takeAccept
  split
  · split
    · exact acceptHead_steady s
    · exact acceptHead_steady s
    · exact Steady.refl s
    · exact Steady.refl s
    · exact Steady.refl s
  · exact Steady.refl s

theorem takeApplied_steady (sequence : Word) (s : State) : Steady s (takeApplied sequence s) := by
  unfold takeApplied
  split
  · exact headLeaves_steady _ s
  · exact Steady.refl s

theorem takeLabelFault_steady (sequence : Word) (code : Byte) (s : State) : Steady s (takeLabelFault sequence code s) := by
  unfold takeLabelFault
  split
  · exact logFault_steady _ _ _ _ _ s
  · split
    · split
      · exact faultHead_steady _ _ s
      · exact faultHead_steady _ _ s
      · exact Steady.refl s
      · exact Steady.refl s
    · exact Steady.refl s

theorem printOut_steady (s : State) : Steady s (printOut s) := by
  unfold printOut
  split
  · exact Steady.refl s
  · refine Steady.trans ?_ (tryPrint_steady _)
    exact setLabel_steady _ s (Nat.le_refl _)

theorem takeLabelFrame_steady (kind : Byte) (body : List Byte) (s : State) : Steady s (takeLabelFrame kind body s) := by
  have hbad : ∀ d, Steady s (labelFrameFault d s) := fun d => logFault_steady _ _ _ _ _ s
  unfold takeLabelFrame
  split
  · split
    · exact takeReady_steady _ s
    · exact hbad 4
  · split
    · split
      · exact takeAccept_steady _ s
      · exact hbad 4
    · split
      · split
        · exact takeApplied_steady _ s
        · exact hbad 4
      · split
        · split
          · exact takeLabelFault_steady _ _ s
          · exact hbad 4
        · exact hbad 3

theorem labelResult_steady (s : State) (r : RxResult) : Steady s (labelResult s r) := by
  cases r with
  | badLength => exact logFault_steady _ _ _ _ _ s
  | badCrc => exact logFault_steady _ _ _ _ _ s
  | frame kind tag body => exact takeLabelFrame_steady kind body s

theorem labelHunt_steady (s : State) : Steady s (labelHunt s) := setLink_steady _ s rfl rfl

theorem labelReceive_steady (bytes : List Byte) (s : State) : Steady s (labelReceive bytes s) :=
  Steady.trans (b := { s with link := { s.link with labelReceiver := (rxBytes s.link.labelReceiver bytes).1 } }) (setLink_steady _ s rfl rfl)
    (foldl_steady _ labelResult_steady _ _)

theorem judgeHead_steady {f : State → State} (fs : List Int) {s : State} (h : Steady s (f s)) : Steady s (judgeHead f fs s).state := by
  unfold judgeHead
  split
  · exact Steady.refl s
  · split
    · split
      · exact h
      · exact Steady.refl s
      · exact Steady.refl s
      · exact Steady.refl s
    · exact Steady.refl s

theorem retryHead_steady (s : State) : Steady s (retryHead s) := by
  unfold retryHead
  refine Steady.trans ?_ (tryPrint_steady _)
  exact setLabel_steady _ s (Nat.le_refl _)

/-! ### The line link -/

theorem joinQueue_steady (r : Request) (s : State) : Steady s (joinQueue r s) := by
  unfold joinQueue
  split
  · rename_i h
    refine Steady.of_facets (Sound.of_eq rfl rfl rfl) rfl ⟨rfl, rfl⟩ ⟨rfl, rfl, rfl⟩ ?_ id id
    rintro ⟨_, hnotices⟩
    refine ⟨?_, hnotices⟩
    rw [List.length_append]
    exact h
  · exact logFault_steady _ _ _ _ _ s

theorem takeLinkFrame_steady (r : Request) (s : State) : Steady s (takeLinkFrame r s) := by
  unfold takeLinkFrame
  split
  · exact joinQueue_steady r s
  · exact logFault_steady _ _ _ _ _ s

theorem linkResult_steady (s : State) (r : RxResult) : Steady s (linkResult s r) := by
  cases r with
  | badLength => exact logFault_steady _ _ _ _ _ s
  | badCrc => exact logFault_steady _ _ _ _ _ s
  | frame kind tag body => exact takeLinkFrame_steady _ s

theorem linkHunt_steady (s : State) : Steady s (linkHunt s) := setLink_steady _ s rfl rfl

theorem linkReceive_steady (bytes : List Byte) (s : State) : Steady s (linkReceive bytes s) :=
  Steady.trans (b := { s with link := { s.link with receiver := (rxBytes s.link.receiver bytes).1 } }) (setLink_steady _ s rfl rfl)
    (foldl_steady _ linkResult_steady _ _)

theorem frameSent_steady (s : State) : Steady s { s with link := { s.link with tx := s.link.tx.drop 1 } } := by
  refine Steady.of_facets (Sound.of_eq rfl rfl rfl) rfl ⟨rfl, rfl⟩ ⟨rfl, rfl, rfl⟩ ?_ id id
  rintro ⟨hrequests, hnotices⟩
  exact ⟨hrequests, Nat.le_trans (List.Sublist.countP_le (List.drop_sublist 1 s.link.tx)) hnotices⟩

theorem takeUnknown_steady (s : State) : Steady s (takeUnknown s) := by
  unfold takeUnknown
  split
  · exact Steady.refl s
  · split
    · exact Steady.refl s
    · exact reply_steady _ _ _ s

/-! ### Answers to referrals -/

theorem startResumption_steady (r : Resumption) (s : State) : Steady s (startResumption r s) :=
  (startResumption_gradingOnly r s).steady fun h => beginResumption_inOrder h

/-- The slot that an answer frees is filled within the answer (R121, R122). -/
theorem takeAnswer_steady (r : Referral) (result : Bool) (s : State) : Steady s (takeAnswer r result s) := by
  unfold takeAnswer
  refine Steady.trans ?_ (startResumption_steady _ _)
  refine ((endOutstanding_referralsOnly r s).trans (promoteAll_referralsOnly _)).trackingOnly.steady ?_
  exact promoteAll_sound (endOutstanding_referralsOnly r s).binsKept (endOutstanding_bounded r)

theorem judgeAnswer_steady (tag : Nat) (id : CuttingId) (result : Bool) (s : State) : Steady s (judgeAnswer tag id result s).state := by
  unfold judgeAnswer
  split
  · exact Steady.refl s
  · split
    · exact Steady.refl s
    · split
      · exact Steady.refl s
      · split
        · exact Steady.refl s
        · exact takeAnswer_steady _ _ s

theorem answerAnswer_steady (fs : List Int) (s : State) : Steady s (answerAnswer fs s).state := by
  unfold answerAnswer
  split
  · exact Steady.refl s
  · split
    · exact Steady.refl s
    · split
      · exact Steady.refl s
      · split
        · exact Steady.refl s
        · exact judgeAnswer_steady _ _ _ s

end Sys2Proof.Machine
end

