-- ==== Sys2Proof/Proofs/SafetyRules.lean ====
section
/-! PROOFS. The whole-machine rules: the safe-state predicates across every step, the one command that enters RUN and those that leave ESTOP, and
the commands that move the counters. -/

namespace Sys2Proof.Machine

/-! ### Resets -/

/-- What is cleared is empty, and what stays is as it was (R9, R25). -/
theorem clearBlocks_within (s : State) : Within s (clearBlocks s) :=
  ⟨id, id, fun ⟨_, _, _, _, hdrift⟩ => ⟨Nat.zero_le _, Nat.zero_le _, Nat.zero_le _, Nat.zero_le _, hdrift⟩,
    fun _ => ⟨Nat.zero_le _, Nat.zero_le _, fun _ => rfl⟩, id, id, id⟩

theorem releaseAll_steady (cs : List Cutting) (s : State) : Steady s (releaseAll cs s) := by
  refine foldl_steady _ (fun s c => ?_) cs s
  split
  · split
    · exact (mapBundle_binsOnly _ _ s).steady (releaseTotals_binsKept _ _ _ s)
    · exact Steady.refl s
  · exact Steady.refl s

theorem dropCounts_steady (before s : State) (k : BankId) : Steady s (dropCounts before s k) :=
  (mapBank_binsOnly k _ s).steady (mapBank_binsKept k _ s (BankKept.counts _ _ _ _))

theorem retireCheck_steady (k : BankId) (s : State) : Steady s (retireCheck k s) := (retireCheck_binsOnly k s).steady (retireCheck_binsKept k s)

theorem genClose_steady (s : State) : Steady s (genClose s) := (genClose_binsOnly s).steady (genClose_binsKept s)

theorem clearBins_steady (before s : State) : Steady s (clearBins before s) := by
  unfold clearBins
  refine Steady.trans ?_ (foldl_steady _ (fun s k => retireCheck_steady k s) allBanks _)
  refine Steady.trans ?_ (genClose_steady _)
  refine Steady.trans ?_ (foldl_steady _ (fun s b => (reopenOrClose_binsOnly b s).steady (reopenOrClose_binsKept b s)) allBins _)
  exact (releaseAll_steady _ s).trans (foldl_steady _ (dropCounts_steady before) allBanks _)

theorem resetNotice_steady (reason : FlushReason) (before s : State) : Steady s (resetNotice reason before s) := offer_steady _ s

theorem restState_cases (s : State) : restState s = .ready ∨ restState s = .standby := by
  unfold restState
  split
  · exact .inl rfl
  · exact .inr rfl

theorem restState_ne_run (s : State) : restState s ≠ .run := by
  obtain h | h := restState_cases s <;> (rw [h]; exact LineState.noConfusion)

theorem lineNote_state (before after : State) : (lineNote before after).line = after.line := by
  rw [(lineNote_linkOnly before after).eq]

theorem lineNote_motion (before after : State) : (lineNote before after).motion = after.motion := by
  rw [(lineNote_linkOnly before after).eq]

/-- A line state entered, with its LINE notice: the two predicates of the line hold whatever the state before. -/
theorem lineNote_enterLine_safe {s u : State} (before : State) (l : LineState) (h : Within s u) : Safe s (lineNote before (enterLine l u)) := by
  have hnote := lineNote_steady before (enterLine l u)
  obtain ⟨hline, hmark⟩ := enterLine_follows l u
  exact ⟨(h.trans (enterLine_within l u)).trans hnote.toWithin, fun _ => hnote.line hline, fun _ => hnote.mark hmark⟩

/-- RESET LINE is taken outside ESTOP (R9). -/
theorem resetTracking_steady {s : State} (h : s.line.state ≠ .estop) : Steady s (resetTracking s) := by
  have hbins := clearBins_steady s (resetNotice .reset s (clearBlocks s))
  have hnotice := resetNotice_steady .reset s (clearBlocks s)
  unfold resetTracking
  refine ⟨lineNote_enterLine_safe s _ (((clearBlocks_within s).trans hnotice.toWithin).trans hbins.toWithin), ?_, ?_, fun _ => ?_,
    fun h' => absurd h' h⟩
  · rw [lineNote_motion, enterLine_travel]
    exact hbins.travel
  · rw [lineNote_motion, enterLine_lug]
    exact hbins.lug
  · rw [lineNote_state, enterLine_state]
    exact restState_ne_run _

theorem resetAnswer_steady (fs : List Int) (s : State) : Steady s (resetAnswer fs s).state := by
  unfold resetAnswer
  split
  · exact Steady.refl s
  · rename_i h
    rw [okay_state]
    exact resetTracking_steady h

theorem enterEstop_steady (s : State) : Steady s (enterEstop s) := by
  have henter : Steady s (lineNote s (enterLine .estop (clearBlocks s))) := by
    refine ⟨lineNote_enterLine_safe s _ (clearBlocks_within s), ?_, ?_, fun _ => ?_, fun _ => ?_⟩
    · rw [lineNote_motion, enterLine_travel]
      rfl
    · rw [lineNote_motion, enterLine_lug]
      rfl
    · rw [lineNote_state]
      exact LineState.noConfusion
    · rw [lineNote_state]
      rfl
  unfold enterEstop
  refine Steady.trans ?_ (clearBins_steady _ _)
  refine Steady.trans ?_ (resetNotice_steady _ _ _)
  refine henter.trans ?_
  exact setLabel_steady _ _ (Nat.le_refl _)

theorem setEstop_steady (v : Bool) (s : State) : Steady s (setEstop v s) :=
  Steady.of_facets (Sound.of_eq rfl rfl rfl) rfl ⟨rfl, rfl⟩ ⟨rfl, rfl, rfl⟩ id id id

/-- Leaving ESTOP (R8) moves no counter and does not enter RUN. -/
theorem leaveEstop_facts (s : State) : Safe s (leaveEstop s) ∧ (leaveEstop s).motion.travel = s.motion.travel ∧
    (leaveEstop s).motion.lug = s.motion.lug ∧ (leaveEstop s).line.state ≠ .run := by
  have hdumps : Steady (lineNote s (enterLine (restState s) s)) (leaveEstop s) := by
    unfold leaveEstop giveOwedDumps
    exact setLabel_steady _ _ (Nat.le_refl _)
  refine ⟨(lineNote_enterLine_safe s _ (Within.refl s)).trans hdumps.toSafe, ?_, ?_, hdumps.run ?_⟩
  · rw [hdumps.travel, lineNote_motion, enterLine_travel]
  · rw [hdumps.lug, lineNote_motion, enterLine_lug]
  · rw [lineNote_state, enterLine_state]
    exact restState_ne_run s

theorem assertReset_steady (s : State) : Steady s (assertReset s) :=
  Steady.of_facets (Sound.of_eq rfl rfl rfl) rfl ⟨rfl, rfl⟩ ⟨rfl, rfl, rfl⟩ id id id

/-! ### Power-on -/

/-- The state that power-on begins with (R214): the power-on values, with the levels sampled. -/
def powerOnBase (estop : Bool) (levels : BitVec 8) (s : State) : State :=
  setBinLevels levels (setEstop estop { State.reset with pending := s.pending, freeCount := s.freeCount })

theorem powerOn_eq (estop : Bool) (levels : BitVec 8) (s : State) :
    powerOn estop levels s = if estop then enterEstop (powerOnBase estop levels s) else powerOnBase estop levels s := rfl

theorem powerOnBase_bundle (estop : Bool) (levels : BitVec 8) (s : State) (b : Bin) :
    (powerOnBase estop levels s).bundles.bins[b].bundle = none := by
  simp [powerOnBase, setBinLevels, setEstop, State.reset]

theorem empty_heldGeneration : Bank.empty.heldGeneration = none := rfl

theorem reset_bank (k : BankId) : State.reset.recipe.banks[k] = Bank.empty := by
  simp [State.reset]

theorem reset_banksApart : BanksApart State.reset := by
  refine ⟨fun h => ?_, fun g h => ?_, fun k => ?_⟩
  · have h0 : State.reset.recipe.banks[(0 : BankId)].state = .active := h.1
    rw [reset_bank] at h0
    contradiction
  · have h0 : State.reset.recipe.banks[(0 : BankId)].heldGeneration = some g := h
    rw [reset_bank, empty_heldGeneration] at h0
    contradiction
  · rw [reset_bank, empty_heldGeneration]
    exact nofun

theorem reset_sectionsFit : SectionsFit State.reset := by
  intro k
  rw [reset_bank]
  exact ⟨nofun, nofun⟩

/-- Every safe-state predicate holds of the power-on values (R214), from whatever state. -/
theorem powerOnBase_safe (estop : Bool) (levels : BitVec 8) (s u : State) : Safe u (powerOnBase estop levels s) := by
  refine ⟨⟨fun _ => ⟨Nat.zero_le _, Nat.zero_le _⟩, fun _ => Nat.zero_le _, fun _ => ?tables, fun _ => ?order, fun _ => ?limits,
    fun _ => reset_banksApart, fun _ => reset_sectionsFit⟩, fun _ => ⟨rfl, rfl⟩, fun _ _ => rfl⟩
  case tables => exact ⟨Nat.zero_le _, Nat.zero_le _, Nat.zero_le _, Nat.zero_le _, Nat.zero_le _⟩
  case order => exact ⟨Nat.zero_le _, Nat.zero_le _, fun _ => rfl⟩
  case limits =>
    intro b bu h
    rw [powerOnBase_bundle] at h
    contradiction

theorem powerOn_safe (estop : Bool) (levels : BitVec 8) (s u : State) : Safe u (powerOn estop levels s) := by
  rw [powerOn_eq]
  split
  · exact (powerOnBase_safe _ levels s u).trans (enterEstop_steady _).toSafe
  · exact powerOnBase_safe _ levels s u

theorem powerOn_facts (estop : Bool) (levels : BitVec 8) (s : State) : (powerOn estop levels s).motion.travel = 0 ∧
    (powerOn estop levels s).motion.lug = 0 ∧ (powerOn estop levels s).line.state ≠ .run := by
  rw [powerOn_eq]
  split
  · have h := enterEstop_steady (powerOnBase estop levels s)
    exact ⟨h.travel, h.lug, h.run LineState.noConfusion⟩
  · exact ⟨rfl, rfl, LineState.noConfusion⟩

/-! ### Recipes -/

/-- The banks apart (R191, R197), of bank k and the other one. -/
def ApartFrom (a b : Bank) (counter : Nat) : Prop :=
  ¬(a.state = .active ∧ b.state = .active) ∧ (∀ g, a.heldGeneration = some g → b.heldGeneration ≠ some g) ∧
    a.heldGeneration ≠ some counter ∧ b.heldGeneration ≠ some counter

theorem otherBank_ne (k : BankId) : k ≠ otherBank k := by
  revert k
  decide

theorem otherBank_cases (k : BankId) : (k = 0 ∧ otherBank k = 1) ∨ (k = 1 ∧ otherBank k = 0) := by
  revert k
  decide

theorem eq_otherBank : ∀ p k : BankId, p ≠ k → p = otherBank k := by
  decide

theorem ApartFrom.symm {a b : Bank} {n : Nat} (h : ApartFrom a b n) : ApartFrom b a n := by
  obtain ⟨hactive, hdiff, ha, hb⟩ := h
  exact ⟨fun ⟨x, y⟩ => hactive ⟨y, x⟩, fun g hg hg' => hdiff g hg' hg, hb, ha⟩

theorem banksApart_iff_zero (s : State) :
    BanksApart s ↔ ApartFrom s.recipe.banks[(0 : BankId)] s.recipe.banks[(1 : BankId)] s.recipe.counter := by
  constructor
  · rintro ⟨hactive, hdiff, hcounter⟩
    exact ⟨hactive, hdiff, hcounter 0, hcounter 1⟩
  · rintro ⟨hactive, hdiff, h0, h1⟩
    refine ⟨hactive, hdiff, fun k => ?_⟩
    obtain ⟨hk, _⟩ | ⟨hk, _⟩ := otherBank_cases k <;> subst hk
    · exact h0
    · exact h1

/-- The predicate speaks of the two banks alike, from either of them. -/
theorem banksApart_iff (s : State) (k : BankId) :
    BanksApart s ↔ ApartFrom s.recipe.banks[k] s.recipe.banks[otherBank k] s.recipe.counter := by
  rw [banksApart_iff_zero]
  obtain ⟨rfl, _⟩ | ⟨rfl, _⟩ := otherBank_cases k
  · exact Iff.rfl
  · exact ⟨ApartFrom.symm, ApartFrom.symm⟩

theorem mapBank_bank (k : BankId) (f : Bank → Bank) (s : State) : (mapBank k f s).recipe.banks[k] = f s.recipe.banks[k] := setAt_self _ _ _

theorem mapBank_otherBank (k : BankId) (f : Bank → Bank) (s : State) :
    (mapBank k f s).recipe.banks[otherBank k] = s.recipe.banks[otherBank k] := setAt_other _ _ (otherBank_ne k)

/-- A bank that holds no generation stands apart from the other one. -/
theorem mapBank_apart_of_loading {k : BankId} {f : Bank → Bank} {s : State} (hf : (f s.recipe.banks[k]).state = .loading) (h : BanksApart s) :
    BanksApart (mapBank k f s) := by
  rw [banksApart_iff _ k] at h ⊢
  rw [mapBank_bank, mapBank_otherBank]
  have hnone : (f s.recipe.banks[k]).heldGeneration = none := by
    unfold Bank.heldGeneration
    rw [hf]
  unfold ApartFrom
  rw [hf, hnone]
  exact ⟨nofun, nofun, nofun, h.2.2.2⟩

/-- The layouts hold at most 12 lengths and 8 grades (R195, Table 61). -/
def Bank.Fits (b : Bank) : Prop := (∀ l, b.lengths = some l → l.length ≤ 12) ∧ ∀ l, b.grades = some l → l.length ≤ 8

theorem mapBank_fits {k : BankId} {f : Bank → Bank} {s : State} (hf : s.recipe.banks[k].Fits → (f s.recipe.banks[k]).Fits) (h : SectionsFit s) :
    SectionsFit (mapBank k f s) :=
  forall_setAt (P := fun _ => Bank.Fits) h (hf (h k))

/-- A change of the recipes alone is judged by the two predicates that speak of them. -/
theorem setRecipe_steady (u : RecipeStore) (s : State) (ha : BanksApart s → BanksApart { s with recipe := u })
    (hf : SectionsFit s → SectionsFit { s with recipe := u }) : Steady s { s with recipe := u } :=
  ⟨⟨⟨id, id, id, id, id, ha, hf⟩, id, id⟩, rfl, rfl, id, id⟩

theorem mapBank_steady {k : BankId} {f : Bank → Bank} {s : State} (ha : BanksApart s → BanksApart (mapBank k f s))
    (hf : s.recipe.banks[k].Fits → (f s.recipe.banks[k]).Fits) : Steady s (mapBank k f s) :=
  setRecipe_steady _ s ha (mapBank_fits hf)

theorem beginAnswer_steady (fs : List Int) (s : State) : Steady s (beginAnswer fs s).state := by
  unfold beginAnswer
  split
  · exact Steady.refl s
  · split
    · refine mapBank_steady (mapBank_apart_of_loading rfl) fun _ => ?_
      exact ⟨nofun, nofun⟩
    · exact Steady.refl s

theorem parseFields_length {layout : List FieldSize} {body : List Byte} {fs : List Int} (h : parseFields layout body = some fs) :
    fs.length = layout.length := by
  induction layout generalizing body fs with
  | nil =>
    cases body with
    | nil => cases h; rfl
    | cons b bs => contradiction
  | cons z zs ih =>
    unfold parseFields at h
    split at h
    · obtain ⟨vs, hvs, rfl⟩ := Option.map_eq_some_iff.mp h
      rw [List.length_cons, List.length_cons, ih hvs]
    · contradiction

theorem putFixed_store {layout : List FieldSize} {body : List Byte} {g : List Int → Bank → Bank} {f : Bank → Bank}
    (h : putFixed layout body g = .store f) : ∃ fs, parseFields layout body = some fs ∧ f = g fs := by
  unfold putFixed at h
  split at h
  · contradiction
  · cases h
    exact ⟨_, ‹_›, rfl⟩

/-- What a stored section keeps of its bank: the state, and sections within their layouts (R195). -/
def PutKeeps (f : Bank → Bank) : Prop := ∀ b : Bank, (f b).state = b.state ∧ (b.Fits → (f b).Fits)

theorem putFixed_keeps {layout : List FieldSize} {body : List Byte} {g : List Int → Bank → Bank} {f : Bank → Bank}
    (h : putFixed layout body g = .store f) (hg : ∀ fs, fs.length = layout.length → PutKeeps (g fs)) : PutKeeps f := by
  obtain ⟨fs, hfs, rfl⟩ := putFixed_store h
  exact hg fs (parseFields_length hfs)

theorem putLengths_keeps {body : List Byte} {f : Bank → Bank} (h : putLengths body = .store f) : PutKeeps f := by
  unfold putLengths at h
  split at h
  · contradiction
  · rename_i n rest
    split at h
    · contradiction
    · refine putFixed_keeps h fun fs hfs b => ⟨rfl, fun hb => ⟨fun l hl => ?_, hb.2⟩⟩
      cases hl
      have hlayout : (repeatLayout n.toNat [.u16]).length = n.toNat := by simp [repeatLayout]
      rw [List.length_map, hfs, hlayout]
      omega

theorem putGrades_keeps {body : List Byte} {f : Bank → Bank} (h : putGrades body = .store f) : PutKeeps f := by
  unfold putGrades at h
  split at h
  · contradiction
  · split at h
    · contradiction
    · refine putFixed_keeps h fun fs _ b => ⟨rfl, fun hb => ⟨hb.1, fun l hl => ?_⟩⟩
      cases hl
      rw [List.length_map, List.length_range]
      omega

theorem putRun_keeps (start n : Nat) (fs : List Int) : PutKeeps (putRun start n fs) := by
  intro b
  unfold putRun Bank.Fits
  exact ⟨rfl, id⟩

theorem putTests_keeps {body : List Byte} {f : Bank → Bank} (h : putTests body = .store f) : PutKeeps f := by
  unfold putTests at h
  split at h
  · split at h
    · contradiction
    · exact putFixed_keeps h fun fs _ => putRun_keeps _ _ fs
  · contradiction

theorem putSection_keeps {sec : Nat} {body : List Byte} {f : Bank → Bank} (h : putSection sec body = .store f) : PutKeeps f := by
  unfold putSection at h
  split at h
  · exact putFixed_keeps h fun _ _ _ => ⟨rfl, fun hb => ⟨hb.1, hb.2⟩⟩
  · exact putLengths_keeps h
  · exact putGrades_keeps h
  · exact putTests_keeps h
  · exact putFixed_keeps h fun _ _ _ => ⟨rfl, fun hb => ⟨hb.1, hb.2⟩⟩
  · exact putFixed_keeps h fun _ _ _ => ⟨rfl, fun hb => ⟨hb.1, hb.2⟩⟩
  · exact putFixed_keeps h fun _ _ _ => ⟨rfl, fun hb => ⟨hb.1, hb.2⟩⟩

theorem putInto_steady (k : BankId) (sec : Nat) (body : List Byte) (s : State) : Steady s (putInto k sec body s).state := by
  unfold putInto
  split
  · rename_i hload
    split
    · exact Steady.refl s
    · rename_i f hf
      obtain ⟨hstate, hfits⟩ := putSection_keeps hf s.recipe.banks[k]
      exact mapBank_steady (mapBank_apart_of_loading (hstate.trans hload)) hfits
  · exact Steady.refl s

theorem putAnswer_steady (r : Request) (s : State) : Steady s (putAnswer r s).state := by
  unfold putAnswer
  split
  · exact Steady.refl s
  · split
    · exact Steady.refl s
    · split
      · exact Steady.refl s
      · split
        · exact Steady.refl s
        · exact putInto_steady _ _ _ s

theorem nextGeneration_ne (g : Nat) : nextGeneration g ≠ g := by
  unfold nextGeneration
  split <;> omega

theorem nextGeneration_twice_ne (g : Nat) : nextGeneration (nextGeneration g) ≠ g := by
  unfold nextGeneration
  split <;> split <;> omega

/-- The counter moves to a generation that neither the committed bank nor the other one holds (R197). -/
theorem advanceCounter_ne (other : Bank) (g : Nat) : advanceCounter other g ≠ g ∧ other.heldGeneration ≠ some (advanceCounter other g) := by
  unfold advanceCounter
  dsimp only
  split
  · rename_i h
    refine ⟨nextGeneration_twice_ne g, fun h' => ?_⟩
    rw [h, Option.some_inj] at h'
    exact nextGeneration_ne _ h'.symm
  · exact ⟨nextGeneration_ne g, ‹_›⟩

theorem commitBank_apart {k : BankId} {s : State} (h : BanksApart s) : BanksApart (commitBank k s) := by
  rw [banksApart_iff _ k] at h ⊢
  obtain ⟨_, _, _, hother⟩ := h
  obtain ⟨hne, hfree⟩ := advanceCounter_ne s.recipe.banks[otherBank k] s.recipe.counter
  have hk : (commitBank k s).recipe.banks[k] = { s.recipe.banks[k] with state := .valid, generation := some s.recipe.counter } :=
    mapBank_bank k (fun b => { b with state := .valid, generation := some s.recipe.counter }) s
  have ho : (commitBank k s).recipe.banks[otherBank k] = s.recipe.banks[otherBank k] :=
    mapBank_otherBank k (fun b => { b with state := .valid, generation := some s.recipe.counter }) s
  rw [hk, ho]
  refine ⟨fun ⟨x, _⟩ => BankState.noConfusion x, fun g hg => ?_, fun hg => ?_, hfree⟩
  · cases hg
    exact hother
  · have hheld : some s.recipe.counter = some (advanceCounter s.recipe.banks[otherBank k] s.recipe.counter) := hg
    exact hne (Option.some_inj.mp hheld).symm

theorem commitBank_steady (k : BankId) (s : State) : Steady s (commitBank k s) :=
  setRecipe_steady _ s commitBank_apart
    (mapBank_fits (k := k) (f := fun b => { b with state := .valid, generation := some s.recipe.counter }) fun h => ⟨h.1, h.2⟩)

theorem commitAnswer_steady (fs : List Int) (s : State) : Steady s (commitAnswer fs s).state := by
  unfold commitAnswer
  split
  · exact Steady.refl s
  · split
    · split
      · exact Steady.refl s
      · exact commitBank_steady _ s
    · exact Steady.refl s

theorem activeBank_eq_some {s : State} {k : BankId} (h : activeBank s = some k) : s.recipe.banks[k].state = .active := by
  simpa using List.find?_some h

theorem activeBank_eq_none {s : State} (h : activeBank s = none) (k : BankId) : s.recipe.banks[k].state ≠ .active := by
  have hk : k ∈ allBanks := by
    revert k
    decide
  simpa using List.find?_eq_none.mp h k hk

/-- A bank steps down to a state in which it holds the generation it held as ACTIVE (R199). -/
theorem stepDown_heldGeneration {b : Bank} (h : b.state = .active) : b.stepDown.heldGeneration = b.heldGeneration := by
  unfold Bank.stepDown Bank.heldGeneration
  rw [h]
  by_cases hr : 0 < b.references <;> simp [hr]

theorem stepDown_not_active (b : Bank) : b.stepDown.state ≠ .active := by
  unfold Bank.stepDown
  dsimp only
  split <;> exact BankState.noConfusion

/-- The banks after step 1 of a switch (R199): the one that was ACTIVE has stepped down. -/
def steppedDown (prev : Option BankId) (s : State) : State :=
  match prev with
  | none => s
  | some p => mapBank p Bank.stepDown s

theorem steppedDown_facts {s : State} {k : BankId} (hk : s.recipe.banks[k].state = .valid) :
    (steppedDown (activeBank s) s).recipe.banks[k] = s.recipe.banks[k] ∧
      (steppedDown (activeBank s) s).recipe.banks[otherBank k].heldGeneration = s.recipe.banks[otherBank k].heldGeneration ∧
      (steppedDown (activeBank s) s).recipe.banks[otherBank k].state ≠ .active ∧
      (steppedDown (activeBank s) s).recipe.counter = s.recipe.counter := by
  cases h : activeBank s with
  | none => exact ⟨rfl, rfl, activeBank_eq_none h _, rfl⟩
  | some p =>
    have hactive := activeBank_eq_some h
    have hpk : p ≠ k := fun e => by
      rw [e, hk] at hactive
      contradiction
    have hp : p = otherBank k := eq_otherBank p k hpk
    subst hp
    have hself : (steppedDown (some (otherBank k)) s).recipe.banks[otherBank k] = s.recipe.banks[otherBank k].stepDown := setAt_self _ _ _
    refine ⟨setAt_other _ _ hpk, ?_, ?_, rfl⟩
    · rw [hself, stepDown_heldGeneration hactive]
    · rw [hself]
      exact stepDown_not_active _

theorem heldGeneration_activate {b : Bank} (h : b.state = .valid) : { b with state := .active : Bank }.heldGeneration = b.heldGeneration := by
  unfold Bank.heldGeneration
  rw [h]

theorem steppedDown_fits (prev : Option BankId) {s : State} (h : SectionsFit s) : SectionsFit (steppedDown prev s) := by
  cases prev with
  | none => exact h
  | some p => exact mapBank_fits id h

/-- Steps 1 to 3 of a switch to a VALID bank (R199) keep the banks apart. -/
theorem activate_apart {s : State} {k : BankId} (hk : s.recipe.banks[k].state = .valid) (h : BanksApart s) :
    BanksApart (mapBank k (fun b => { b with state := .active }) (steppedDown (activeBank s) s)) := by
  obtain ⟨hself, hheld, hstate, hcounter⟩ := steppedDown_facts hk
  rw [banksApart_iff _ k] at h ⊢
  obtain ⟨_, hdiff, hk', ho'⟩ := h
  have hgen := heldGeneration_activate hk
  rw [mapBank_bank, mapBank_otherBank, mapBank_counter, hcounter, hself]
  refine ⟨fun ⟨_, x⟩ => hstate x, fun g hg => ?_, ?_, ?_⟩
  · rw [hgen] at hg
    rw [hheld]
    exact hdiff g hg
  · rw [hgen]
    exact hk'
  · rw [hheld]
    exact ho'

theorem switchBanks_steady {s : State} {k : BankId} (hk : s.recipe.banks[k].state = .valid) : Steady s (switchBanks k (activeBank s) s) := by
  have hstep : ∀ prev, steppedDown prev s = { s with recipe := (steppedDown prev s).recipe } := fun prev => by cases prev <;> rfl
  have hactivate : Steady s (mapBank k (fun b => { b with state := .active }) (steppedDown (activeBank s) s)) := by
    have heq : mapBank k (fun b => { b with state := .active }) (steppedDown (activeBank s) s) =
        { s with recipe := (mapBank k (fun b => { b with state := .active }) (steppedDown (activeBank s) s)).recipe } := by
      rw [hstep]
      rfl
    have ha := activate_apart hk
    have hf : SectionsFit s → SectionsFit (mapBank k (fun b => { b with state := .active }) (steppedDown (activeBank s) s)) :=
      fun h => mapBank_fits id (steppedDown_fits _ h)
    rw [heq] at ha hf ⊢
    exact setRecipe_steady _ s ha hf
  unfold switchBanks
  refine Steady.trans ?_ (offer_steady _ _)
  refine Steady.trans ?_ (emptyRing_steady _)
  exact hactivate

theorem openIdle_steady (s : State) (b : Bin) : Steady s (openIdle s b) := by
  unfold openIdle
  split
  · exact openBundle_steady b s
  · exact Steady.refl s

theorem takeSwitch_steady {s : State} {k : BankId} (hk : s.recipe.banks[k].state = .valid) : Steady s (takeSwitch k s) := by
  have hretire : ∀ (prev : Option BankId) (t : State), Steady t (retirePrev prev t) := by
    intro prev t
    cases prev with
    | none => exact Steady.refl t
    | some p => exact retireCheck_steady p t
  unfold takeSwitch
  refine Steady.trans ?_ (hretire _ _)
  refine Steady.trans ?_ (genClose_steady _)
  refine Steady.trans ?_ (foldl_steady _ openIdle_steady allBins _)
  exact (switchBanks_steady hk).trans (standbyTest_steady _)

theorem switchAnswer_steady (fs : List Int) (s : State) : Steady s (switchAnswer fs s).state := by
  unfold switchAnswer
  split
  · exact Steady.refl s
  · split
    · exact takeSwitch_steady ‹_›
    · exact Steady.refl s

/-! ### Every command -/

/-- In RESET only power-on and the RESET pin are taken (R214). -/
theorem exec_inReset {c : Instr} {s : State} (h : s.inReset = true) (hc : isResetCommand c = false) : exec c s = .next s := by
  unfold exec
  split
  all_goals first | contradiction | exact whenRunning_inReset _ h

/-- The commands that move a counter, enter RUN or leave ESTOP. -/
def movesMachine : Instr → Bool
  | .powerOn .. | .eStopInactive | .encForwardStep _ | .encReverseStep | .lugPulse .. | .start => true
  | _ => false

/-- Every other command is steady. -/
theorem exec_steady {c : Instr} {s : State} (h : s.inReset = false) (hc : movesMachine c = false) : ∃ t, exec c s = .next t ∧ Steady s t := by
  cases c with
  | powerOn | eStopInactive | encForwardStep | encReverseStep | lugPulse | start => contradiction
  | resetPinAsserted => exact ⟨_, rfl, assertReset_steady s⟩
  | resetLine =>
    exact ⟨_, exec_resetLine h, withFields_steady _ _ fun fs => resetAnswer_steady fs s⟩
  | eStopActive =>
    refine ⟨_, exec_eStopActive h, ?_⟩
    split
    · exact setEstop_steady true s
    · exact (setEstop_steady true s).trans (enterEstop_steady _)
  | ieLeadingEdge g =>
    refine ⟨_, exec_ieLeadingEdge g h, ?_⟩
    split
    · exact logFault_steady _ _ _ _ _ s
    · split
      · exact enterStrip_steady g s ‹_›
      · exact trackFull_steady s
  | ieTrailingEdge =>
    refine ⟨_, exec_ieTrailingEdge h, ?_⟩
    split
    · exact Steady.refl s
    · exact takeTrail_steady _ s
  | seLeadingEdge => exact ⟨_, exec_seLeadingEdge h, takeSeEdge_steady _ s⟩
  | seTrailingEdge => exact ⟨_, exec_seTrailingEdge h, Steady.refl s⟩
  | conversionComplete v =>
    refine ⟨_, exec_conversionComplete v h, ?_⟩
    split
    · exact Steady.refl s
    · exact completeConversion_steady _ _ s
  | processingComplete => exact ⟨_, exec_processingComplete h, completeProcessing_steady s⟩
  | resumptionRunEnd =>
    exact ⟨_, exec_resumptionRunEnd h, ((finishRun_gradingOnly s).trans (beginResumption_gradingOnly _)).steady
      fun x => beginResumption_inOrder (finishRun_inOrder x)⟩
  | landingEdge b => exact ⟨_, exec_landingEdge b h, takeLanding_steady b s⟩
  | binEmptyActive b =>
    refine ⟨_, exec_binEmptyActive b h, ?_⟩
    split
    · exact Steady.refl s
    · exact floorClears_steady b s
  | binEmptyInactive b => exact ⟨_, exec_binEmptyInactive b h, setEmptyLevel_steady b false s⟩
  | sawPulseEnd =>
    exact ⟨_, exec_sawPulseEnd h, Steady.of_facets (Sound.of_eq rfl rfl rfl) rfl ⟨rfl, rfl⟩ ⟨rfl, rfl, rfl⟩ id id id⟩
  | transferPulseEnd => exact ⟨_, exec_transferPulseEnd h, setChain_steady _ s id⟩
  | dumpPulseEnd b => exact ⟨_, exec_dumpPulseEnd b h, setLabel_steady _ s (Nat.le_refl _)⟩
  | ready f => exact ⟨_, exec_ready f h, (labelHunt_steady s).trans (takeReady_steady f _)⟩
  | printSent => exact ⟨_, exec_printSent h, printOut_steady s⟩
  | accept q => exact ⟨_, exec_accept q h, (labelHunt_steady s).trans (takeAccept_steady q _)⟩
  | applied q => exact ⟨_, exec_applied q h, (labelHunt_steady s).trans (takeApplied_steady q _)⟩
  | fault q code => exact ⟨_, exec_fault q code h, (labelHunt_steady s).trans (takeLabelFault_steady q code _)⟩
  | acceptTimerExpiry =>
    refine ⟨_, exec_acceptTimerExpiry h, ?_⟩
    split
    · exact faultHead_steady _ _ s
    · exact Steady.refl s
  | appliedTimerExpiry =>
    refine ⟨_, exec_appliedTimerExpiry h, ?_⟩
    split
    · exact faultHead_steady _ _ s
    · exact Steady.refl s
  | labelFrameError bytes => exact ⟨_, exec_labelFrameError bytes h, labelReceive_steady bytes s⟩
  | labelFrameGap bytes => exact ⟨_, exec_labelFrameGap bytes h, (labelReceive_steady bytes s).trans (labelHunt_steady _)⟩
  | linkFrameGap bytes => exact ⟨_, exec_linkFrameGap bytes h, (linkReceive_steady bytes s).trans (linkHunt_steady _)⟩
  | linkFrameError bytes => exact ⟨_, exec_linkFrameError bytes h, linkReceive_steady bytes s⟩
  | requestReceived kind tag body =>
    refine ⟨_, exec_requestReceived kind tag body h, ?_⟩
    split
    · exact (linkHunt_steady s).trans (logFault_steady _ _ _ _ _ _)
    · exact (linkHunt_steady s).trans (takeLinkFrame_steady _ _)
  | frameSent => exact ⟨_, exec_frameSent h, frameSent_steady s⟩
  | clockSecond => exact ⟨_, exec_clockSecond h, setLink_steady _ s rfl rfl⟩
  | unknownRequest => exact ⟨_, exec_unknownRequest h, takeUnknown_steady s⟩
  | identify => exact ⟨_, exec_identify h, withFields_steady _ _ fun _ => Steady.refl s⟩
  | status => exact ⟨_, exec_status h, withFields_steady _ _ fun fs => statusAnswer_steady fs s⟩
  | configure => exact ⟨_, exec_configure h, takeRequest_steady _ fun r => configureAnswer_steady r s⟩
  | readConfig => exact ⟨_, exec_readConfig h, withFields_steady _ _ fun fs => Steady.of_state_eq (readConfigAnswer_state fs s)⟩
  | drain => exact ⟨_, exec_drain h, withFields_steady _ _ fun fs => drainAnswer_steady fs s⟩
  | infeedHold => exact ⟨_, exec_infeedHold h, withFields_steady _ _ fun fs => infeedAnswer_steady fs s⟩
  | noticeMask => exact ⟨_, exec_noticeMask h, withFields_steady _ _ fun fs => maskAnswer_steady fs s⟩
  | setClock => exact ⟨_, exec_setClock h, withFields_steady _ _ fun _ => setLink_steady _ s rfl rfl⟩
  | setLot => exact ⟨_, exec_setLot h, withFields_steady _ _ fun fs => setLotAnswer_steady fs s⟩
  | recipeBegin => exact ⟨_, exec_recipeBegin h, withFields_steady _ _ fun fs => beginAnswer_steady fs s⟩
  | recipePut => exact ⟨_, exec_recipePut h, takeRequest_steady _ fun r => putAnswer_steady r s⟩
  | recipeCommit => exact ⟨_, exec_recipeCommit h, withFields_steady _ _ fun fs => commitAnswer_steady fs s⟩
  | recipeSwitch => exact ⟨_, exec_recipeSwitch h, withFields_steady _ _ fun fs => switchAnswer_steady fs s⟩
  | recipeRead => exact ⟨_, exec_recipeRead h, takeRequest_steady _ fun r => Steady.of_state_eq (readAnswer_state r s)⟩
  | answer => exact ⟨_, exec_answer h, withFields_steady _ _ fun fs => answerAnswer_steady fs s⟩
  | readStrip => exact ⟨_, exec_readStrip h, withFields_steady _ _ fun fs => Steady.of_state_eq (readStripAnswer_state fs s)⟩
  | readCutting => exact ⟨_, exec_readCutting h, withFields_steady _ _ fun fs => Steady.of_state_eq (readCuttingAnswer_state fs s)⟩
  | readBin => exact ⟨_, exec_readBin h, withFields_steady _ _ fun fs => Steady.of_state_eq (readBinAnswer_state fs s)⟩
  | binHold => exact ⟨_, exec_binHold h, withFields_steady _ _ fun fs => binHoldAnswer_steady fs s⟩
  | closeBundle => exact ⟨_, exec_closeBundle h, withFields_steady _ _ fun fs => closeBundleAnswer_steady fs s⟩
  | labelRetry => exact ⟨_, exec_labelRetry h, withFields_steady _ _ fun fs => judgeHead_steady fs (retryHead_steady s)⟩
  | labelVoid => exact ⟨_, exec_labelVoid h, withFields_steady _ _ fun fs => judgeHead_steady fs (headLeaves_steady _ s)⟩
  | readLabels => exact ⟨_, exec_readLabels h, withFields_steady _ _ fun fs => readLabelsAnswer_steady fs s⟩
  | profileResume => exact ⟨_, exec_profileResume h, withFields_steady _ _ fun fs => resumeAnswer_steady fs s⟩
  | toolSet => exact ⟨_, exec_toolSet h, withFields_steady _ _ fun fs => toolSetAnswer_steady fs s⟩
  | readTools => exact ⟨_, exec_readTools h, withFields_steady _ _ fun _ => Steady.refl s⟩
  | readFault => exact ⟨_, exec_readFault h, withFields_steady _ _ fun fs => Steady.of_state_eq (readFaultAnswer_state fs s)⟩
  | clearFault => exact ⟨_, exec_clearFault h, withFields_steady _ _ fun fs => clearFaultAnswer_steady fs s⟩
  | readReturns => exact ⟨_, exec_readReturns h, withFields_steady _ _ fun _ => Steady.refl s⟩

/-! ### The commands that move the machine -/

/-- Outside RUN and DRAIN the mark goes with the counter, either way (R2). -/
theorem stepForward_safe (s : State) : Safe s (stepForward s) := by
  refine ⟨⟨id, id, id, id, id, id, id⟩, id, fun _ hm => ?_⟩
  have hm' : s.line.state.moving = false := hm
  simp [stepForward, hm']

theorem stepReverse_safe (s : State) : Safe s (stepReverse s) := by
  refine ⟨⟨id, id, id, id, id, id, id⟩, id, fun _ hm => ?_⟩
  have hm' : s.line.state.moving = false := hm
  simp [stepReverse, hm']

/-- A jam takes its losses and then puts the mark at the counter (R24). -/
theorem jam_steady (s : State) : Steady s (jam s) := by
  have hflush : ∀ p q, Steady s (flushAt .jam .jam (jammable s) (logFault .belt 5 p .none q) q s) := fun p q =>
    flushAt_steady _ _ _ _ _ s fun t => logFault_steady _ _ _ _ _ t
  have hmark : ∀ t : State, Steady t { t with motion := { t.motion with mark := t.motion.travel } } := fun t =>
    ⟨⟨⟨id, id, id, id, id, id, id⟩, id, fun _ _ => rfl⟩, rfl, rfl, id, id⟩
  exact (hflush _ _).trans (hmark _)

/-- What a step of the moving commands keeps: the safe-state predicates, and, START and the end of ESTOP apart, the line's two rules. -/
structure Moved (c : Instr) (s t : State) : Prop where
  safe : Safe s t
  run : c ≠ .start → s.line.state ≠ .run → t.line.state ≠ .run
  estop : c ≠ .eStopInactive → (∀ e l, c ≠ .powerOn e l) → s.line.state = .estop → t.line.state = .estop

theorem Steady.moved {s u t : State} (h : Steady u t) (c : Instr) (hs : Safe s u) (hl : u.line = s.line) : Moved c s t :=
  ⟨hs.trans h.toSafe, fun _ hr => h.run (by rw [hl]; exact hr), fun _ _ he => h.estop (by rw [hl]; exact he)⟩

theorem startAnswer_moved (fs : List Int) (s : State) : Moved .start s (startAnswer fs s).state ∧
    (startAnswer fs s).state.motion.travel = s.motion.travel ∧ (startAnswer fs s).state.motion.lug = s.motion.lug := by
  have hrun : ∀ t : State, Safe s t → s.line.state ≠ .estop → Moved .start s t :=
    fun t ht he => ⟨ht, fun h => absurd rfl h, fun _ _ h => absurd h he⟩
  have hevent : Safe s (event (enterLine .run) s) ∧ (event (enterLine .run) s).motion.travel = s.motion.travel ∧
      (event (enterLine .run) s).motion.lug = s.motion.lug := by
    have hnote := lineNote_enterLine_safe s .run (Within.refl s)
    have hafter := drainAfter_steady s (lineNote s (enterLine .run s))
    refine ⟨hnote.trans hafter.toSafe, hafter.travel.trans ?_, hafter.lug.trans ?_⟩
    · rw [lineNote_motion, enterLine_travel]
    · rw [lineNote_motion, enterLine_lug]
  obtain ⟨hsafe, hmotion⟩ := hevent
  unfold startAnswer
  split
  · exact ⟨hrun _ hsafe (by simp_all), hmotion⟩
  · exact ⟨hrun _ hsafe (by simp_all), hmotion⟩
  all_goals exact ⟨⟨Safe.refl s, fun _ => id, fun _ _ => id⟩, rfl, rfl⟩

/-- START answers FRAME for a body, and otherwise as its rule says (R6, R206). -/
theorem takeStart_moved (s : State) : Moved .start s (takeRequest 0x05 (withFields [] startAnswer) s) ∧
    (takeRequest 0x05 (withFields [] startAnswer) s).motion.travel = s.motion.travel ∧
    (takeRequest 0x05 (withFields [] startAnswer) s).motion.lug = s.motion.lug := by
  have hreply : ∀ (r : Request) (st : Status) (d : ReplyData) (t : State), Moved .start s t ∧ t.motion.travel = s.motion.travel ∧
      t.motion.lug = s.motion.lug → Moved .start s (reply r st d t) ∧ (reply r st d t).motion.travel = s.motion.travel ∧
        (reply r st d t).motion.lug = s.motion.lug := by
    rintro r st d t ⟨⟨hsafe, hr, he⟩, hmotion⟩
    exact ⟨⟨hsafe.trans (reply_steady r st d t).toSafe, hr, he⟩, hmotion⟩
  have hself : Moved .start s s := ⟨Safe.refl s, fun _ => id, fun _ _ => id⟩
  obtain e | ⟨r, _, _, _, e⟩ := takeRequest_cases 0x05 (withFields [] startAnswer) s <;> rw [e]
  · exact ⟨hself, rfl, rfl⟩
  · refine hreply _ _ _ _ ?_
    obtain ⟨_, ew⟩ | ⟨fs, _, ew⟩ := withFields_cases [] startAnswer r s <;> rw [ew]
    · exact ⟨hself, rfl, rfl⟩
    · exact startAnswer_moved fs s

/-- The travel counter after a command (R1, R214). -/
def travelAfter (c : Instr) (p : Word) : Word :=
  match c with
  | .encForwardStep _ => p + 1
  | .encReverseStep => p - 1
  | .powerOn _ _ => 0
  | _ => p

/-- The lug counter after a command (R3, R214). -/
def lugAfter (c : Instr) (p : Word) : Word :=
  match c with
  | .lugPulse _ _ => p + 1
  | .powerOn _ _ => 0
  | _ => p

theorem travelAfter_of_steady {c : Instr} (h : movesMachine c = false) (p : Word) : travelAfter c p = p := by
  cases c <;> first | rfl | contradiction

theorem lugAfter_of_steady {c : Instr} (h : movesMachine c = false) (p : Word) : lugAfter c p = p := by
  cases c <;> first | rfl | contradiction

/-- What every command does to the safe-state predicates, the line state and the counters. -/
theorem exec_moved (c : Instr) {s : State} (h : s.inReset = false) : ∃ t, exec c s = .next t ∧ Moved c s t ∧
    t.motion.travel = travelAfter c s.motion.travel ∧ t.motion.lug = lugAfter c s.motion.lug := by
  cases hc : movesMachine c with
  | false =>
    obtain ⟨t, he, ht⟩ := exec_steady h hc
    refine ⟨t, he, ht.moved c (Safe.refl s) rfl, ?_, ?_⟩
    · rw [travelAfter_of_steady hc, ht.travel]
    · rw [lugAfter_of_steady hc, ht.lug]
  | true =>
    cases c with
    | powerOn e l =>
      obtain ⟨htravel, hlug, hrun⟩ := powerOn_facts e l s
      exact ⟨_, rfl, ⟨powerOn_safe e l s s, fun _ _ => hrun, fun _ hp => absurd rfl (hp e l)⟩, htravel, hlug⟩
    | eStopInactive =>
      refine ⟨_, exec_eStopInactive h, ?_⟩
      split
      · obtain ⟨hsafe, htravel, hlug, hrun⟩ := leaveEstop_facts (setEstop false s)
        exact ⟨⟨(setEstop_steady false s).toSafe.trans hsafe, fun _ _ => hrun, fun hne => absurd rfl hne⟩, htravel, hlug⟩
      · exact ⟨(setEstop_steady false s).moved _ (Safe.refl s) rfl, rfl, rfl⟩
    | encForwardStep g =>
      have hdue := takeDue_steady g s.motion.events.length (stepForward s)
      exact ⟨_, exec_encForwardStep g h, hdue.moved _ (stepForward_safe s) rfl, hdue.travel, hdue.lug⟩
    | encReverseStep =>
      refine ⟨_, exec_encReverseStep h, ?_⟩
      split
      · have hjam := jam_steady (stepReverse s)
        exact ⟨hjam.moved _ (stepReverse_safe s) rfl, hjam.travel, hjam.lug⟩
      · exact ⟨(Steady.refl _).moved _ (stepReverse_safe s) rfl, rfl, rfl⟩
    | lugPulse p f =>
      have hlug : Safe s { s with motion := { s.motion with lug := s.motion.lug + 1 } } := ⟨⟨id, id, id, id, id, id, id⟩, id, id⟩
      have hactions := takeLugPulse_steady p f s
      exact ⟨_, exec_lugPulse p f h, hactions.moved _ hlug rfl, hactions.travel, hactions.lug⟩
    | start =>
      obtain ⟨hmoved, hmotion⟩ := takeStart_moved s
      exact ⟨_, exec_start h, hmoved, hmotion⟩
    | _ => contradiction

/-- The same while RESET is asserted, when power-on and the RESET pin alone are taken (R214). -/
theorem exec_moved_any (c : Instr) (s : State) : ∃ t, exec c s = .next t ∧ Moved c s t := by
  cases h : s.inReset with
  | false =>
    obtain ⟨t, he, hm, _⟩ := exec_moved c h
    exact ⟨t, he, hm⟩
  | true =>
    cases hc : isResetCommand c with
    | false => exact ⟨s, exec_inReset h hc, (Steady.refl s).moved c (Safe.refl s) rfl⟩
    | true =>
      cases c with
      | powerOn e l =>
        exact ⟨_, rfl, ⟨powerOn_safe e l s s, fun _ _ => (powerOn_facts e l s).2.2, fun _ hp => absurd rfl (hp e l)⟩⟩
      | resetPinAsserted => exact ⟨_, rfl, (assertReset_steady s).moved _ (Safe.refl s) rfl⟩
      | _ => contradiction

theorem step_safe {s t : State} (h : step s = .next t) : Safe s t := by
  unfold step at h
  split at h
  · cases h
    exact Safe.refl s
  · rename_i c rest _
    obtain ⟨u, he, hm⟩ := exec_moved_any c { s with pending := rest }
    rw [he] at h
    cases h
    have hrest : Safe s { s with pending := rest } := ⟨⟨id, id, id, id, id, id, id⟩, id, id⟩
    exact hrest.trans hm.safe

/-! ### The rules -/

/-- Settles O4. -/
theorem onlyStartEntersRun : Obligations.OnlyStartEntersRun := by
  intro c s t h
  obtain ⟨u, he, hm⟩ := exec_moved_any c s
  rw [he] at h
  cases h
  constructor
  · intro hs ht
    by_contra hc
    exact hm.run hc hs ht
  · intro hs ht
    by_contra hc
    rw [not_or, not_exists] at hc
    obtain ⟨hin, hon⟩ := hc
    exact ht (hm.estop hin (fun e l hp => hon e ⟨l, hp⟩) hs)

/-- Settles O5. -/
theorem onlyTheirPulsesMoveTheCounters : Obligations.OnlyTheirPulsesMoveTheCounters := by
  intro c s t hr h
  obtain ⟨u, he, _, htravel, hlug⟩ := exec_moved c hr
  rw [he] at h
  cases h
  exact ⟨htravel, hlug⟩

/-- Settles O6. -/
theorem holdsAndMarkFollowTheLine : Obligations.HoldsAndMarkFollowTheLine :=
  fun _ _ ⟨hline, hmark⟩ h => ⟨(step_safe h).line hline, (step_safe h).mark hmark⟩

/-- Settles O7. -/
theorem tablesAndQueuesStayBounded : Obligations.TablesAndQueuesStayBounded :=
  fun _ _ ⟨hqueues, hlabels, htables⟩ h => ⟨(step_safe h).queues hqueues, (step_safe h).labels hlabels, (step_safe h).tables htables⟩

/-- Settles O8. -/
theorem noReferralWaitsBesideAFreeSlot : Obligations.NoReferralWaitsBesideAFreeSlot := fun _ _ hs h => (step_safe h).order hs

/-- Settles O9. -/
theorem bundlesStayWithinLimits : Obligations.BundlesStayWithinLimits := fun _ _ hs h => (step_safe h).limits hs

/-- Settles O10. -/
theorem banksKeepApart : Obligations.BanksKeepApart := fun _ _ h => ⟨(step_safe h).apart, (step_safe h).fit⟩

end Sys2Proof.Machine
end

