-- ==== Sys2Proof/Proofs/PowerOn.lean ====
section
/-! PROOFS. One step of the block, the power-on values, POWER_ON and the RESET pin (R205, R214). -/

namespace Sys2Proof.Machine

/-! ### The front of the queue -/

/-- Settles O1. -/
theorem stepTakesTheFrontCommand : Obligations.StepTakesTheFrontCommand := by
  refine ⟨fun c rest s h => ?_, fun s h => ?_⟩
  · unfold step
    rw [h]
  · unfold step
    rw [h]

/-! ### The power-on values -/

theorem reset_bin (b : Bin) : State.reset.bundles.bins[b] = { state := .idle, bundle := none, emptyLevel := true } := by
  simp [State.reset]

theorem reset_spindle (i : Spindle) : State.reset.profile.spindles[i] = SpindleRecord.unset := by
  simp [State.reset]

theorem reset_tagEntry (t : Nat) : State.reset.referral.entry t = none := by
  unfold ReferralUnit.entry State.reset
  rw [Vector.getElem?_replicate]
  split <;> rfl

theorem reset_mark (i : Fin 5) : State.reset.inForce.marks[i] = false := by
  revert i
  decide

theorem reset_mask (k : Fin 11) : State.reset.link.mask[k] = true := by
  revert k
  decide

theorem reset_record (b : FaultBook) : State.reset.link.record b = FaultRecord.empty := by
  cases b <;> rfl

theorem reset_window (b : Bin) : State.reset.chain.windows[b] = none := by
  simp [State.reset]

theorem reset_trackingCleared : TrackingCleared State.reset :=
  ⟨rfl, rfl, rfl, rfl, rfl, rfl, rfl, rfl, rfl, rfl, reset_window⟩

/-- Settles O2: the values one by one; the predicates as for POWER_ON. -/
theorem powerOnStateIsSafe : Obligations.PowerOnStateIsSafe := by
  refine ⟨rfl, rfl, rfl, rfl, reset_trackingCleared, reset_spindle, rfl, rfl, rfl, rfl, rfl, reset_tagEntry, fun b => ?bin, rfl, rfl, rfl, rfl,
    rfl, reset_bank, rfl, reset_mark, rfl, rfl, rfl, rfl, reset_mask, reset_record, rfl, ⟨rfl, rfl⟩, fun _ => rfl, ?queues, Nat.zero_le _, ?order,
    ?tables, ?limits, reset_banksApart, reset_sectionsFit⟩
  case bin =>
    rw [reset_bin]
    exact ⟨rfl, rfl⟩
  case queues => exact ⟨Nat.zero_le _, Nat.zero_le _⟩
  case order => exact ⟨Nat.zero_le _, Nat.zero_le _, fun _ => rfl⟩
  case tables => exact ⟨Nat.zero_le _, Nat.zero_le _, Nat.zero_le _, Nat.zero_le _, Nat.zero_le _⟩
  case limits =>
    intro b bu h
    rw [reset_bin] at h
    contradiction

/-! ### POWER_ON -/

theorem powerOnBase_eq (estop : Bool) (l : BitVec 8) (s : State) : powerOnBase estop l s = { State.reset with
    pending := s.pending
    freeCount := s.freeCount
    line := { State.reset.line with estopLevel := estop }
    bundles := { State.reset.bundles with
      bins := Vector.ofFn (fun b : Bin => { state := .idle, bundle := none, emptyLevel := l.getLsbD b.val }) } } := by
  unfold powerOnBase setBinLevels setEstop
  simp only [reset_bin]

theorem setAt_getElem {α : Type} {n : Nat} (v : Vector α n) (i : Fin n) : setAt v i v[i] = v := by
  simp [setAt]

/-- A bank that its change leaves as it is. -/
theorem mapBank_of_fixed {k : BankId} {f : Bank → Bank} {s : State} (h : f s.recipe.banks[k] = s.recipe.banks[k]) : mapBank k f s = s := by
  unfold mapBank
  rw [h, setAt_getElem]

theorem foldl_of_fixed {α β : Type} {f : β → α → β} {x : β} (h : ∀ a, f x a = x) (l : List α) : l.foldl f x = x := by
  induction l with
  | nil => rfl
  | cons a l ih => rw [List.foldl_cons, h a, ih]

theorem retireCheck_of_state {k : BankId} {s : State} (h : s.recipe.banks[k].state ≠ .retiring) : retireCheck k s = s := by
  unfold retireCheck
  rw [if_neg fun hr => h hr.1]

theorem reopenOrClose_of_none {b : Bin} {s : State} (h : s.bundles.bins[b].bundle = none) : reopenOrClose b s = s := by
  unfold reopenOrClose
  rw [h]

theorem genCloseBin_of_none {b : Bin} {s : State} (h : s.bundles.bins[b].bundle = none) : genCloseBin b s = s := by
  unfold genCloseBin
  rw [h]

/-- A reset of the bins finds nothing to do where there is no bundle, no record bound and no bank to retire. -/
theorem clearBins_of_empty {before s : State} (hc : before.cuttings = []) (hs : before.belt.strips = [])
    (hb : ∀ b : Bin, s.bundles.bins[b].bundle = none) (hk : ∀ k : BankId, s.recipe.banks[k].state ≠ .retiring) : clearBins before s = s := by
  have hrelease : releaseAll before.cuttings s = s := by
    rw [hc]
    rfl
  have hcounts : allBanks.foldl (dropCounts before) s = s := foldl_of_fixed (fun k => mapBank_of_fixed (by simp [hc, hs])) _
  have hreopen : allBins.foldl (fun s b => reopenOrClose b s) s = s := foldl_of_fixed (fun b => reopenOrClose_of_none (hb b)) _
  have hgen : genClose s = s := foldl_of_fixed (fun b => genCloseBin_of_none (hb b)) _
  have hretire : allBanks.foldl (fun s k => retireCheck k s) s = s := foldl_of_fixed (fun k => retireCheck_of_state (hk k)) _
  unfold clearBins
  dsimp only
  rw [hrelease, hcounts, hreopen, hgen, hretire]

/-! ### Notices that go out -/

/-- The LINE notice of an event that changed the line state (R12). -/
theorem lineNote_of_state_ne {before after : State} (h : after.line.state ≠ before.line.state) :
    lineNote before after = offer (.line after.line.state before.line.state after.line.holds after.motion.travel after.link.clock) after := by
  unfold lineNote
  rw [if_neg fun hs => h hs.1]

/-- A notice whose kind is not masked joins a queue with room (R207, R208). -/
theorem LinkPort.offer_of_room {n : Notice} {l : LinkPort} (hm : l.mask.getLsbD n.kindIndex = true)
    (hr : l.noticeCount < Config.noticeCapacity) : l.offer n = { l with tx := l.tx ++ [.notice n] } := by
  unfold LinkPort.offer
  rw [if_pos hm, if_pos hr]

/-- With E-STOP active power-on enters ESTOP (R214): the line, its notice and the FLUSH notice of no strip. -/
def powerOnEstop (l : BitVec 8) (s : State) : State :=
  { powerOnBase true l s with
    line := ⟨.estop, HoldSet.atPowerOn, true⟩
    link := { State.reset.link with
      tx := [.notice (.line .estop .standby HoldSet.atPowerOn 0 0), .notice (.flush .estop 0 0 none none)] } }

theorem powerOn_estop (l : BitVec 8) (s : State) : powerOn true l s = powerOnEstop l s := by
  have hbins : clearBins (powerOnBase true l s) (powerOnEstop l s) = powerOnEstop l s := by
    refine clearBins_of_empty rfl rfl (fun b => powerOnBase_bundle true l s b) (fun k => ?_)
    have hk : (powerOnEstop l s).recipe.banks[k] = Bank.empty := reset_bank k
    rw [hk]
    exact BankState.noConfusion
  have hlink : (State.reset.link.offer (.line .estop .standby HoldSet.atPowerOn 0 0)).offer (.flush .estop 0 0 none none) =
      (powerOnEstop l s).link := by
    rw [LinkPort.offer_of_room (by decide) (by decide), LinkPort.offer_of_room (by decide) (by decide)]
    rfl
  have howed : Vector.zipWith (fun o h => o || h) State.reset.label.owed State.reset.label.dumpHigh = State.reset.label.owed := by
    ext i hi
    simp [State.reset]
  have hblocks : resetNotice .estop (powerOnBase true l s)
      (holdDumps (lineNote (powerOnBase true l s) (enterLine .estop (clearBlocks (powerOnBase true l s))))) = powerOnEstop l s := by
    have hlabel : { State.reset.label with
        owed := Vector.zipWith (fun o h => o || h) State.reset.label.owed State.reset.label.dumpHigh } = State.reset.label := by
      rw [howed]
    have hline : lineNote (powerOnBase true l s) (enterLine .estop (clearBlocks (powerOnBase true l s))) =
        offer (.line .estop .standby HoldSet.atPowerOn 0 0) (enterLine .estop (clearBlocks (powerOnBase true l s))) :=
      lineNote_of_state_ne LineState.noConfusion
    have hflush : ∀ u : State, u.motion.travel = 0 → resetNotice .estop (powerOnBase true l s) u = offer (.flush .estop 0 0 none none) u := by
      intro u hu
      unfold resetNotice flushNotice
      rw [hu]
      rfl
    have hoffers : ∀ a b : Notice, offer b (holdDumps (offer a (enterLine .estop (clearBlocks (powerOnBase true l s))))) =
        { powerOnEstop l s with
          link := (State.reset.link.offer a).offer b
          label := { State.reset.label with
            owed := Vector.zipWith (fun o h => o || h) State.reset.label.owed State.reset.label.dumpHigh } } := fun _ _ => rfl
    rw [hline, hflush _ rfl, hoffers, hlink, hlabel]
    rfl
  rw [powerOn_eq, if_pos rfl]
  unfold enterEstop
  dsimp only
  rw [hblocks, hbins]

/-- Settles O3: POWER_ON from its base; the RESET pin lets every output fall and nothing in. -/
theorem powerOnAndTheResetPin : Obligations.PowerOnAndTheResetPin := by
  refine ⟨fun s l => ?low, fun s l => ⟨powerOnEstop l s, ?estop⟩, fun s => ⟨_, rfl, ?outputs, rfl⟩, fun c s h hc => exec_inReset h hc⟩
  case low =>
    rw [exec_powerOn, powerOn_eq, if_neg Bool.false_ne_true, powerOnBase_eq]
    rfl
  case estop =>
    refine ⟨by rw [exec_powerOn, powerOn_estop], rfl, rfl, rfl, rfl, rfl, rfl, rfl, rfl, rfl, rfl, rfl,
      ⟨rfl, rfl, rfl, rfl, rfl, rfl, rfl, rfl, rfl, rfl, reset_window⟩, fun b => ?_⟩
    unfold powerOnEstop
    rw [powerOnBase_eq]
    simp
  case outputs => exact ⟨rfl, rfl, rfl, fun _ => rfl, fun _ => rfl, rfl, rfl⟩

end Sys2Proof.Machine
end

