-- ==== Sys2Proof/Proofs/Settings.lean ====
section
/-! PROOFS. The ends of the part's own activities, the requests that read, and the settings that each change one value (chapter 11): each is its
command's rule with the fields of the body put in. -/

namespace Sys2Proof.Machine

/-! ### Fields and codes of requests -/

@[simp] theorem fld_head (v : Int) (vs : List Int) : fld (v :: vs) 0 = v := rfl

@[simp] theorem fld_next (v : Int) (vs : List Int) (i : Nat) : fld (v :: vs) (i + 1) = fld vs i := rfl

@[simp] theorem fld_second (v w : Int) (vs : List Int) : fld (v :: w :: vs) 1 = w := rfl

/-- A body of one byte is its one field (R203). -/
theorem parseFields_byte {r : Request} {n : Byte} (h : r.body = [n]) : parseFields [.u8] r.body = some [(n.toNat : Int)] := by
  rw [h]
  rfl

theorem parseFields_word {r : Request} {n : Word} (h : r.body = bytes32 n) : parseFields [.u32] r.body = some [(n.toNat : Int)] := by
  rw [h]
  exact parseFields_only32 n

theorem parseFields_empty {r : Request} (h : r.body = []) : parseFields [] r.body = some [] := by
  rw [h]
  rfl

theorem faultBook_ofCode_above {n : Nat} (h : 3 < n) : FaultBook.ofCode n = none := by
  unfold FaultBook.ofCode
  split <;> first | rfl | omega

theorem bankOfCode_above {n : Nat} (h : 1 < n) : bankOfCode n = none := by
  unfold bankOfCode
  split <;> first | rfl | omega

theorem bankOfCode_val : ∀ k : BankId, bankOfCode (BitVec.ofNat 8 k.val : Byte).toNat = some k := by decide

theorem binOfCode_outside {n : Nat} (h : n < 1 ∨ 8 < n) : binOfCode n = none := by
  unfold binOfCode
  split <;> first | rfl | omega

theorem binOfCode_val : ∀ b : Bin, binOfCode (b.val + 1 : Nat) = some b := by decide

theorem configView_above (c : Configuration) {n : Nat} (h : 4 < n) : configView c n = none := by
  unfold configView
  split <;> first | rfl | omega

end Sys2Proof.Machine

open Sys2Proof Sys2Proof.Machine

/-- Settles O52: each end is its command's own rule. -/
theorem activitiesEnd : Obligations.ActivitiesEnd := by
  unfold Obligations.ActivitiesEnd
  exact fun s h => ⟨exec_sawPulseEnd h, exec_transferPulseEnd h, fun b => exec_dumpPulseEnd b h, exec_frameSent h, exec_clockSecond h⟩

namespace Sys2Proof.Machine

/-! ### Identity and status -/

theorem exec_unknownRequest_of_unassigned {s : State} {r : Request} (ha : Asked s r) (hk : r.kind ∉ assignedKinds) :
    exec .unknownRequest s = .next (reply r .unknown .none s) := by
  rw [exec_unknownRequest ha.1]
  unfold takeUnknown
  obtain ⟨rest, hr⟩ : ∃ rest, s.link.requests = r :: rest := List.head?_eq_some_iff.mp ha.2
  simp [hr, hk]

/-- STATUS takes one byte (R206). -/
theorem parseFields_status_size {r : Request} (h : r.body.length ≠ 1) : parseFields [.u8] r.body = none := by
  match hb : r.body with
  | [] => rfl
  | [_] => simp [hb] at h
  | _ :: _ :: _ => rfl

/-- A body of another size is answered FRAME (R206). -/
theorem exec_answered_frame {c : Instr} {kind : Byte} {layout : List FieldSize} {f : List Int → State → Answer} {s : State} {r : Request}
    (ha : Asked s r) (he : s.inReset = false → exec c s = .next (takeRequest kind (withFields layout f) s)) (hk : r.kind = kind)
    (hp : parseFields layout r.body = none) : exec c s = .next (reply r .frame .none s) :=
  exec_answered ha he hk (withFields_none f hp)

end Sys2Proof.Machine

/-- Settles O53, request by request. -/
theorem unknownIdentifyAndStatus : Obligations.UnknownIdentifyAndStatus := by
  unfold Obligations.UnknownIdentifyAndStatus
  intro s r ha
  refine ⟨exec_unknownRequest_of_unassigned ha, fun hk hb => exec_answered_fields ha exec_identify hk (parseFields_empty hb) rfl, ?_,
    fun hk hb => exec_answered_frame ha exec_status hk (parseFields_status_size hb), ?_⟩
  · intro hk hb
    obtain ⟨b, bs, hb⟩ := List.exists_cons_of_ne_nil hb
    exact exec_answered_frame ha exec_identify hk (by rw [hb]; rfl)
  · intro f hk hb
    have hp := parseFields_byte hb
    refine ⟨fun hf => ?_, fun hf => ?_, fun hf => exec_answered_fields ha exec_status hk hp ?_⟩
    · subst hf
      exact ⟨statusData s, exec_answered_fields ha exec_status hk hp rfl, rfl, rfl, rfl, rfl, rfl, rfl, rfl, rfl, rfl, rfl, rfl, rfl, rfl⟩
    · subst hf
      exact ⟨statusData s, exec_answered_fields ha exec_status hk hp rfl, rfl⟩
    · have h0 : ¬(f.toNat : Int) = 0 := by omega
      have h1 : ¬(f.toNat : Int) = 1 := by omega
      rw [statusAnswer, fld_head, if_neg h0, if_neg h1]
      rfl

namespace Sys2Proof.Machine

/-! ### Reads of the tracking state -/

theorem readStripAnswer_outside {n : Nat} (s : State) (h : n < 1 ∨ 16777215 < n) : readStripAnswer [(n : Int)] s = refuse (.field 0) s := by
  unfold readStripAnswer
  rw [fld_head, if_pos]
  unfold Config.lastStripNumber
  omega

theorem readStripAnswer_none {n : Nat} {s : State} (h1 : 1 ≤ n) (h2 : n ≤ 16777215) (h : findStrip s n = none) :
    readStripAnswer [(n : Int)] s = refuse .notfound s := by
  unfold readStripAnswer
  rw [fld_head, if_neg (by unfold Config.lastStripNumber; omega), Int.toNat_natCast, h]

theorem readStripAnswer_some {n : Nat} {s : State} {x : Strip} (h1 : 1 ≤ n) (h2 : n ≤ 16777215) (h : findStrip s n = some x) :
    readStripAnswer [(n : Int)] s = okayWith (.strip x (x.zones.map (fun z => (passMm s z.start, passMm s z.stop)))) s := by
  unfold readStripAnswer
  rw [fld_head, if_neg (by unfold Config.lastStripNumber; omega), Int.toNat_natCast, h]

theorem readCuttingAnswer_outside {n i : Nat} (s : State) (h : n < 1 ∨ 16777215 < n) :
    readCuttingAnswer [(n : Int), (i : Int)] s = refuse (.field 0) s := by
  unfold readCuttingAnswer
  rw [fld_head, if_pos]
  unfold Config.lastStripNumber
  omega

theorem readCuttingAnswer_index {n i : Nat} {s : State} (h1 : 1 ≤ n) (h2 : n ≤ 16777215) (h : 15 < i) :
    readCuttingAnswer [(n : Int), (i : Int)] s = refuse (.field 1) s := by
  unfold readCuttingAnswer
  rw [fld_head, fld_second, if_neg (by unfold Config.lastStripNumber; omega), if_pos (by omega)]

theorem readCuttingAnswer_none {n i : Nat} {s : State} (h1 : 1 ≤ n) (h2 : n ≤ 16777215) (hi : i ≤ 15) (h : findCutting s ⟨n, i⟩ = none) :
    readCuttingAnswer [(n : Int), (i : Int)] s = refuse .notfound s := by
  unfold readCuttingAnswer
  rw [fld_head, fld_second, if_neg (by unfold Config.lastStripNumber; omega), if_neg (by omega), Int.toNat_natCast, Int.toNat_natCast, h]

theorem readCuttingAnswer_some {n i : Nat} {s : State} {c : Cutting} (h1 : 1 ≤ n) (h2 : n ≤ 16777215) (hi : i ≤ 15)
    (h : findCutting s ⟨n, i⟩ = some c) : readCuttingAnswer [(n : Int), (i : Int)] s =
      okayWith (.cutting c (keptContext s c.id) (referralView s c.id) (lugOffset s c)) s := by
  unfold readCuttingAnswer
  rw [fld_head, fld_second, if_neg (by unfold Config.lastStripNumber; omega), if_neg (by omega), Int.toNat_natCast, Int.toNat_natCast, h]

theorem binView_inFlight (s : State) (b : Bin) {bu : Bundle} (h : s.bundles.bins[b].bundle = some bu) :
    (binView s b).inFlight = bu.count - bu.landedCount := by
  simp only [binView, h]

end Sys2Proof.Machine

/-- Settles O54, request by request. -/
theorem trackingReadsChangeNothing : Obligations.TrackingReadsChangeNothing := by
  unfold Obligations.TrackingReadsChangeNothing
  intro s r ha
  refine ⟨fun n hk hb => ?_, fun n i hk hb => ?_, fun n hk hb => ?_, fun hk hb => exec_answered_fields ha exec_readReturns hk (parseFields_empty hb) rfl⟩
  · have answer {t : State} {st : Status} {d : ReplyData} (hf : readStripAnswer [(n.toNat : Int)] s = ⟨t, st, d⟩) :
        exec .readStrip s = .next (reply r st d t) := exec_answered_fields ha exec_readStrip hk (parseFields_word hb) hf
    exact ⟨fun h => answer (readStripAnswer_outside s h), fun h1 h2 =>
      ⟨fun h => answer (readStripAnswer_none h1 h2 h), fun x h => answer (readStripAnswer_some h1 h2 h)⟩⟩
  · have hp : parseFields [.u32, .u8] r.body = some [(n.toNat : Int), (i.toNat : Int)] := by simp [hb]
    have answer {t : State} {st : Status} {d : ReplyData} (hf : readCuttingAnswer [(n.toNat : Int), (i.toNat : Int)] s = ⟨t, st, d⟩) :
        exec .readCutting s = .next (reply r st d t) := exec_answered_fields ha exec_readCutting hk hp hf
    exact ⟨fun h => answer (readCuttingAnswer_outside s h), fun h1 h2 => ⟨fun hi => answer (readCuttingAnswer_index h1 h2 hi),
      fun hi h => answer (readCuttingAnswer_none h1 h2 hi h), fun c hi h => answer (readCuttingAnswer_some h1 h2 hi h)⟩⟩
  · have hp := parseFields_byte hb
    refine ⟨fun h => exec_answered_fields ha exec_readBin hk hp ?_, fun b h => ⟨binView s b, exec_answered_fields ha exec_readBin hk hp ?_,
      rfl, rfl, rfl, rfl, fun bu => binView_inFlight s b⟩⟩
    · rw [readBinAnswer, fld_head, binOfCode_outside h]
      rfl
    · rw [readBinAnswer, fld_head, ← h, binOfCode_val]
      rfl

namespace Sys2Proof.Machine

/-! ### Reads of the setup -/

theorem readConfigAnswer_above {n : Nat} (s : State) (h : 4 < n) : readConfigAnswer [(n : Int)] s = refuse (.field 0) s := by
  rw [readConfigAnswer, fld_head, configView_above _ h]

theorem readFaultAnswer_above {n : Nat} (s : State) (h : 3 < n) : readFaultAnswer [(n : Int)] s = refuse (.field 0) s := by
  rw [readFaultAnswer, fld_head, faultBook_ofCode_above h]

theorem readFaultAnswer_code {n : Nat} {b : FaultBook} (s : State) (h : FaultBook.ofCode n = some b) :
    readFaultAnswer [(n : Int)] s = okayWith (.fault (s.link.record b)) s := by
  rw [readFaultAnswer, fld_head, h]

theorem clearFaultAnswer_above {n : Nat} (s : State) (h : 3 < n) : clearFaultAnswer [(n : Int)] s = refuse (.field 0) s := by
  rw [clearFaultAnswer, fld_head, faultBook_ofCode_above h]

theorem clearFaultAnswer_code {n : Nat} {b : FaultBook} (s : State) (h : FaultBook.ofCode n = some b) :
    clearFaultAnswer [(n : Int)] s = okay { s with link := s.link.setRecord b FaultRecord.empty } := by
  rw [clearFaultAnswer, fld_head, h]

/-- The two body forms of RECIPE READ (R200, R206). -/
theorem readAnswer_pair {r : Request} {k sec : Byte} (h : r.body = [k, sec]) (s : State) :
    readAnswer r s = if sec = 3 then refuse .frame s else readSection k.toNat sec.toNat s := by
  unfold readAnswer
  rw [h]

theorem readAnswer_quad {r : Request} {k sec st n : Byte} (h : r.body = [k, sec, st, n]) (s : State) :
    readAnswer r s = if sec = 3 then readTests k.toNat st.toNat n.toNat s else refuse .frame s := by
  unfold readAnswer
  rw [h]

theorem readAnswer_size {r : Request} (h2 : r.body.length ≠ 2) (h4 : r.body.length ≠ 4) (s : State) : readAnswer r s = refuse .frame s := by
  unfold readAnswer
  split
  · simp_all
  · simp_all
  · rfl

theorem readSection_bank {c sec : Nat} {k : BankId} (s : State) (hk : bankOfCode c = some k) :
    readSection c sec s = if 6 < sec then refuse (.field 1) s
      else okayWith (.recipe (bankView s k) (sectionView s.recipe.banks[k] sec)) s := by
  rw [readSection, hk]

theorem readTests_bank {c st n : Nat} {k : BankId} (s : State) (hk : bankOfCode c = some k) :
    readTests c st n s = if 63 < st then refuse (.field 2) s else if n = 0 ∨ 64 < st + n then refuse (.field 3) s
      else okayWith (.recipe (bankView s k) (.tests ((s.recipe.banks[k].tests.toList.drop st).take n))) s := by
  rw [readTests, hk]

theorem bankOfCode_of_le {n : Nat} (h : n ≤ 1) : ∃ k, bankOfCode n = some k := by
  obtain rfl | rfl : n = 0 ∨ n = 1 := by omega
  · exact ⟨0, rfl⟩
  · exact ⟨1, rfl⟩

end Sys2Proof.Machine

/-- Settles O55, request by request. -/
theorem setupReadsChangeNothing : Obligations.SetupReadsChangeNothing := by
  unfold Obligations.SetupReadsChangeNothing
  intro s r ha
  refine ⟨fun n hk hb => ?_, fun hk hb => exec_answered_fields ha exec_readTools hk (parseFields_empty hb) rfl, fun n hk hb => ?_,
    fun n hk hb => ?_, fun k sec hk hb h6 h3 => ?_, fun k st n hk hb hst hn hsum => ?_, fun k sec hk hb => ?_, fun k sec st n hk hb => ?_,
    fun hk h2 h4 => exec_answered ha exec_recipeRead hk (readAnswer_size h2 h4 s)⟩
  · have answer {t : State} {st : Status} {d : ReplyData} (hf : readConfigAnswer [(n.toNat : Int)] s = ⟨t, st, d⟩) :
        exec .readConfig s = .next (reply r st d t) := exec_answered_fields ha exec_readConfig hk (parseFields_byte hb) hf
    refine ⟨fun h => answer (readConfigAnswer_above s h), ?_, ?_, ?_, ?_, ?_⟩ <;>
    · rintro rfl
      exact answer rfl
  · have hp := parseFields_byte hb
    exact ⟨fun h => exec_answered_fields ha exec_readFault hk hp (readFaultAnswer_above s h),
      fun b h => exec_answered_fields ha exec_readFault hk hp (readFaultAnswer_code s h)⟩
  · have hp := parseFields_byte hb
    exact ⟨fun h => exec_answered_fields ha exec_clearFault hk hp (clearFaultAnswer_above s h),
      fun b h => exec_answered_fields ha exec_clearFault hk hp (clearFaultAnswer_code s h)⟩
  · refine ⟨sectionView s.recipe.banks[k] sec.toNat, exec_answered ha exec_recipeRead hk ?_, ?_⟩
    · rw [readAnswer_pair hb, if_neg h3, readSection_bank s (bankOfCode_val k), if_neg (by omega)]
      rfl
    · refine ⟨?_, ?_, ?_, ?_, ?_, ?_⟩ <;>
      · rintro rfl
        rfl
  · refine ⟨bankView s k, exec_answered ha exec_recipeRead hk ?_⟩
    rw [readAnswer_quad hb, if_pos rfl, readTests_bank s (bankOfCode_val k), if_neg (by omega), if_neg (by omega)]
    rfl
  · have answer {t : State} {st : Status} {d : ReplyData} (hf : readAnswer r s = ⟨t, st, d⟩) :
        exec .recipeRead s = .next (reply r st d t) := exec_answered ha exec_recipeRead hk hf
    refine ⟨fun h => answer ?_, fun h h1 => answer ?_, fun h1 h6 => answer ?_⟩
    · rw [readAnswer_pair hb, if_pos h]
      rfl
    · rw [readAnswer_pair hb, if_neg h, readSection, bankOfCode_above h1]
      rfl
    · obtain ⟨b, hk⟩ := bankOfCode_of_le h1
      rw [readAnswer_pair hb, if_neg (by rintro rfl; exact absurd h6 (by decide)), readSection_bank s hk, if_pos h6]
      rfl
  · have answer {t : State} {stt : Status} {d : ReplyData} (hf : readAnswer r s = ⟨t, stt, d⟩) :
        exec .recipeRead s = .next (reply r stt d t) := exec_answered ha exec_recipeRead hk hf
    refine ⟨fun h => answer ?_, fun h h1 => answer ?_, fun h h1 hst => answer ?_, fun h h1 hst hn => answer ?_⟩
    · rw [readAnswer_quad hb, if_neg h]
      rfl
    · rw [readAnswer_quad hb, if_pos h, readTests, bankOfCode_above h1]
      rfl
    · obtain ⟨b, hk⟩ := bankOfCode_of_le h1
      rw [readAnswer_quad hb, if_pos h, readTests_bank s hk, if_pos hst]
      rfl
    · obtain ⟨b, hk⟩ := bankOfCode_of_le h1
      have hn : n.toNat = 0 ∨ 64 < st.toNat + n.toNat := hn.imp_left (congrArg BitVec.toNat)
      rw [readAnswer_quad hb, if_pos h, readTests_bank s hk, if_neg (by omega), if_pos hn]
      rfl

namespace Sys2Proof.Machine

/-! ### Settings -/

theorem lineNote_of_line_eq {before after : State} (h : after.line = before.line) : lineNote before after = after := by
  unfold lineNote
  rw [if_pos ⟨by rw [h], by rw [h]⟩]

theorem lineNote_of_holds_ne {before after : State} (h : after.line.holds ≠ before.line.holds) :
    lineNote before after = offer (.line after.line.state before.line.state after.line.holds after.motion.travel after.link.clock) after := by
  unfold lineNote
  rw [if_neg fun hs => h hs.2]

/-- An event that takes nothing out of the strip table, the deck or the lugs brings no drain test (R7). -/
theorem drainAfter_of_tables {before after : State} (hs : before.belt.strips.length ≤ after.belt.strips.length)
    (hd : before.chain.deck.length ≤ after.chain.deck.length) (hl : (lugOccupancy before).length ≤ (lugOccupancy after).length) :
    drainAfter before after = after := by
  unfold drainAfter
  rw [if_neg (by omega)]

theorem event_of_tables_eq {f : State → State} {s : State} (hb : (f s).belt = s.belt) (hc : (f s).chain = s.chain)
    (hcut : (f s).cuttings = s.cuttings) : event f s = lineNote s (f s) := by
  unfold event
  have hnote := lineNote_linkOnly s (f s)
  apply drainAfter_of_tables <;> rw [hnote.eq]
  · rw [hb]
  · rw [hc]
  · unfold lugOccupancy
    rw [hcut]

theorem event_mapHolds_eq {f : HoldSet → HoldSet} {s : State} (h : f s.line.holds = s.line.holds) : event (mapHolds f) s = s := by
  have hf : mapHolds f s = s := by
    unfold mapHolds
    rw [h]
  rw [event_of_tables_eq rfl rfl rfl, hf, lineNote_of_line_eq rfl]

theorem event_mapHolds_ne {f : HoldSet → HoldSet} {s : State} (h : f s.line.holds ≠ s.line.holds) :
    event (mapHolds f) s = { s with
      line := { s.line with holds := f s.line.holds }
      link := s.link.offer (.line s.line.state s.line.state (f s.line.holds) s.motion.travel s.link.clock) } := by
  rw [event_of_tables_eq rfl rfl rfl, lineNote_of_holds_ne h]
  rfl

theorem infeedAnswer_above {n : Nat} (s : State) (h : 1 < n) : infeedAnswer [(n : Int)] s = refuse (.field 0) s := by
  unfold infeedAnswer
  rw [fld_head, if_neg (by omega), if_neg (by omega)]

theorem infeedAnswer_flag (v : Bool) (s : State) :
    infeedAnswer [((if v then 1 else 0 : Byte).toNat : Int)] s = okay (event (mapHolds (fun h => { h with host := v })) s) := by
  cases v <;> rfl

/-- The eleven marks of NOTICE MASK are the low bits of its field (R208). -/
theorem ofInt_eq_extractLsb' (m : BitVec 16) : BitVec.ofInt 11 (m.toNat : Int) = m.extractLsb' 0 11 := by
  apply BitVec.eq_of_toNat_eq
  simp [BitVec.extractLsb'_toNat]

theorem ofInt_toNat (v : Word) : BitVec.ofInt 32 (v.toNat : Int) = v := by
  apply BitVec.eq_of_toNat_eq
  simp

end Sys2Proof.Machine

/-- Settles O56, request by request. -/
theorem settingsAreTaken : Obligations.SettingsAreTaken := by
  unfold Obligations.SettingsAreTaken
  intro s r ha
  refine ⟨fun h hk hb => ⟨fun h1 => ?_, fun v hv => ⟨fun he => ?_, fun he => ?_⟩⟩, fun m hk hb => ?_, fun v hk hb => ?_,
    fun lot n hk hb => ?_⟩
  · exact exec_answered_fields ha exec_infeedHold hk (parseFields_byte hb) (infeedAnswer_above s h1)
  · subst hv
    refine exec_answered_fields ha exec_infeedHold hk (parseFields_byte hb) ?_
    rw [infeedAnswer_flag, event_mapHolds_eq (by rw [← he])]
    rfl
  · subst hv
    refine exec_answered_fields ha exec_infeedHold hk (parseFields_byte hb) ?_
    rw [infeedAnswer_flag, event_mapHolds_ne fun h => he (congrArg HoldSet.host h).symm]
    rfl
  · have answer {t : State} {st : Status} {d : ReplyData} (hf : maskAnswer [(m.toNat : Int)] s = ⟨t, st, d⟩) :
        exec .noticeMask s = .next (reply r st d t) :=
      exec_answered_fields ha exec_noticeMask hk (by rw [hb]; exact parseFields_only16 m) hf
    refine ⟨fun h => answer ?_, fun h => answer ?_⟩
    · rw [maskAnswer, fld_head, if_pos (by omega)]
      rfl
    · rw [maskAnswer, fld_head, if_neg (by omega), ofInt_eq_extractLsb']
      rfl
  · refine exec_answered_fields ha exec_setClock hk (parseFields_word hb) ?_
    rw [setClockAnswer, fld_head, ofInt_toNat]
    rfl
  · have hp : parseFields [.u16, .u32] r.body = some [(lot.toNat : Int), (n.toNat : Int)] := by simp [hb]
    have hzero : (n.toNat : Int) = 0 ↔ n = 0 := by
      rw [Int.natCast_eq_zero, BitVec.toNat_eq]
      rfl
    refine ⟨fun h => exec_answered_fields ha exec_setLot hk hp ?_, fun h => exec_answered_fields ha exec_setLot hk hp ?_⟩
    · rw [setLotAnswer, fld_second, if_pos (hzero.mpr h)]
      rfl
    · rw [setLotAnswer, fld_second, if_neg fun e => h (hzero.mp e), fld_head, ofInt_toNat]
      rfl
end

