-- ==== Sys2Proof/Proofs/LineRequests.lean ====
section
/-! PROOFS. The fault records, the request queue, START and DRAIN, the requests of Profile Watch, and the encoder step at which nothing falls due. -/

namespace Sys2Proof.Machine

/-! ### Fault records (R211) -/

@[simp] theorem LinkPort.record_setRecord (b : FaultBook) (r : FaultRecord) (l : LinkPort) : (l.setRecord b r).record b = r := by
  cases b <;> rfl

theorem LinkPort.record_setRecord_ne {b b' : FaultBook} (h : b' ≠ b) (r : FaultRecord) (l : LinkPort) :
    (l.setRecord b r).record b' = l.record b' := by
  cases b <;> cases b' <;> first | rfl | contradiction

@[simp] theorem LinkPort.record_offer (b : FaultBook) (n : Notice) (l : LinkPort) : (l.offer n).record b = l.record b := by
  unfold LinkPort.offer
  split
  · split <;> cases b <;> rfl
  · rfl

@[simp] theorem LinkPort.offer_clock (n : Notice) (l : LinkPort) : (l.offer n).clock = l.clock := by
  unfold LinkPort.offer
  split
  · split <;> rfl
  · rfl

@[simp] theorem LinkPort.setRecord_tx (b : FaultBook) (r : FaultRecord) (l : LinkPort) : (l.setRecord b r).tx = l.tx := by
  cases b <;> rfl

@[simp] theorem LinkPort.setRecord_mask (b : FaultBook) (r : FaultRecord) (l : LinkPort) : (l.setRecord b r).mask = l.mask := by
  cases b <;> rfl

@[simp] theorem LinkPort.setRecord_noticeCount (b : FaultBook) (r : FaultRecord) (l : LinkPort) :
    (l.setRecord b r).noticeCount = l.noticeCount := by
  cases b <;> rfl

/-- A notice becomes ready when its kind is not masked and the queue has room (R207, R208). -/
theorem LinkPort.offer_tx (n : Notice) (l : LinkPort) :
    (l.offer n).tx = if l.mask.getLsbD n.kindIndex = true ∧ l.noticeCount < Config.noticeCapacity then l.tx ++ [.notice n] else l.tx := by
  unfold LinkPort.offer
  by_cases hm : l.mask.getLsbD n.kindIndex = true
  · by_cases hc : l.noticeCount < Config.noticeCapacity
    · rw [if_pos hm, if_pos hc, if_pos ⟨hm, hc⟩]
    · rw [if_pos hm, if_neg hc, if_neg fun h => hc h.2]
  · rw [if_neg hm, if_neg fun h => hm h.1]

/-- What becomes ready depends on the mask and the frames ready, not on the fault records. -/
theorem LinkPort.offer_setRecord_tx (n : Notice) (b : FaultBook) (r : FaultRecord) (l : LinkPort) :
    ((l.setRecord b r).offer n).tx = (l.offer n).tx := by
  rw [LinkPort.offer_tx, LinkPort.offer_tx, LinkPort.setRecord_mask, LinkPort.setRecord_noticeCount, LinkPort.setRecord_tx]

theorem logFault_record_ne {b b' : FaultBook} (h : b' ≠ b) (code : Nat) (detail : Option Nat) (o : FaultObject) (p : Word) (s : State) :
    (logFault b code detail o p s).link.record b' = s.link.record b' := by
  obtain ⟨_, e⟩ | ⟨f, _, e⟩ := logFault_cases b code detail o p s <;> rw [e]
  · rw [offer_link, LinkPort.record_offer, LinkPort.record_setRecord_ne h]
  · exact LinkPort.record_setRecord_ne h _ _

theorem logFault_of_empty {b : FaultBook} {s : State} (h : (s.link.record b).first = none) (code : Nat) (detail : Option Nat)
    (o : FaultObject) (p : Word) : logFault b code detail o p s = offer (.fault b ⟨code, detail, o, p, s.link.clock⟩)
      { s with link := s.link.setRecord b ⟨some ⟨code, detail, o, p, s.link.clock⟩, 0, false⟩ } := by
  obtain ⟨_, e⟩ | ⟨f, hf, _⟩ := logFault_cases b code detail o p s
  · exact e
  · exact absurd (h.symm.trans hf) nofun

theorem logFault_of_held {b : FaultBook} {s : State} {f : FaultEntry} (h : (s.link.record b).first = some f) (code : Nat) (detail : Option Nat)
    (o : FaultObject) (p : Word) :
    logFault b code detail o p s = { s with link := s.link.setRecord b ⟨some f, countUpTo 255 (s.link.record b).count, true⟩ } := by
  obtain ⟨hn, _⟩ | ⟨f', hf, e⟩ := logFault_cases b code detail o p s
  · exact absurd (h.symm.trans hn) nofun
  · rwa [Option.some.inj (hf.symm.trans h)] at e

end Sys2Proof.Machine

open Sys2Proof Sys2Proof.Machine

/-- Settles O16, by whether the record holds a fault. -/
theorem faultRecordsKeepTheFirstFault : Obligations.FaultRecordsKeepTheFirstFault := by
  unfold Obligations.FaultRecordsKeepTheFirstFault
  intro b code detail o p s
  refine ⟨fun b' h => logFault_record_ne h code detail o p s, fun f h hf => ?_, fun f h => ?_⟩
  · subst hf
    rw [logFault_of_empty h, offer_link, LinkPort.record_offer, LinkPort.record_setRecord, LinkPort.offer_setRecord_tx]
    exact ⟨rfl, rfl⟩
  · rw [logFault_of_held h]
    exact ⟨LinkPort.record_setRecord _ _ _, LinkPort.setRecord_tx _ _ _⟩

namespace Sys2Proof.Machine

/-! ### The request queue (R204, R205) -/

theorem isRequestKind_iff (k : Byte) : isRequestKind k = true ↔ 1 ≤ k.toNat ∧ k.toNat ≤ 63 := by
  unfold isRequestKind
  rw [decide_eq_true_eq]
  exact Iff.rfl

theorem takeLinkFrame_request {r : Request} (h1 : 1 ≤ r.kind.toNat) (h2 : r.kind.toNat ≤ 63) (s : State) :
    takeLinkFrame r s = joinQueue r s := by
  unfold takeLinkFrame
  rw [if_pos ((isRequestKind_iff r.kind).mpr ⟨h1, h2⟩)]

theorem takeLinkFrame_other {r : Request} (h : r.kind.toNat < 1 ∨ 63 < r.kind.toNat) (s : State) :
    takeLinkFrame r s = linkFrameFault 3 s := by
  unfold takeLinkFrame
  rw [if_neg fun hk => by have := (isRequestKind_iff r.kind).mp hk; omega]

theorem joinQueue_room {s : State} (h : s.link.requests.length < 4) (r : Request) :
    joinQueue r s = { s with link := { s.link with requests := s.link.requests ++ [r] } } := by
  unfold joinQueue
  rw [if_pos (show s.link.requests.length < Config.requestCapacity from h)]

theorem joinQueue_full {s : State} (h : 4 ≤ s.link.requests.length) (r : Request) :
    joinQueue r s = logFault .link 2 (some r.kind.toNat) .none 0 s := by
  unfold joinQueue
  rw [if_neg (show ¬s.link.requests.length < Config.requestCapacity from Nat.not_lt.mpr h)]

end Sys2Proof.Machine

/-- Settles O51. -/
theorem requestsJoinTheQueue : Obligations.RequestsJoinTheQueue := by
  unfold Obligations.RequestsJoinTheQueue
  refine ⟨fun s kind tag body hr hb => ?_, fun s kind tag body hr hb => ⟨fun h1 h2 => ⟨fun hq => ?_, fun hq => ?_⟩, fun hk => ?_⟩⟩
  · rw [exec_requestReceived kind tag body hr, if_pos hb]
    rfl
  · rw [exec_requestReceived kind tag body hr, if_neg (by omega), takeLinkFrame_request h1 h2]
    exact congrArg _ (joinQueue_room (s := linkHunt s) hq _)
  · rw [exec_requestReceived kind tag body hr, if_neg (by omega), takeLinkFrame_request h1 h2]
    exact congrArg _ (joinQueue_full (s := linkHunt s) hq _)
  · rw [exec_requestReceived kind tag body hr, if_neg (by omega), takeLinkFrame_other hk]
    rfl

namespace Sys2Proof.Machine

/-! ### START and DRAIN (R6, R7) -/

theorem startAnswer_taken {s : State} (fs : List Int) (h : s.line.state = .ready ∨ s.line.state = .drain) :
    startAnswer fs s = okay (event (enterLine .run) s) := by
  unfold startAnswer
  obtain h | h := h <;> rw [h]

theorem startAnswer_refused {s : State} (fs : List Int) (h : s.line.state = .standby ∨ s.line.state = .run ∨ s.line.state = .estop) :
    startAnswer fs s = refuse .state s := by
  unfold startAnswer
  obtain h | h | h := h <;> rw [h]

theorem drainAnswer_refused {s : State} (fs : List Int) (h : s.line.state = .standby ∨ s.line.state = .ready ∨ s.line.state = .estop) :
    drainAnswer fs s = refuse .state s := by
  unfold drainAnswer
  obtain h | h | h := h <;> rw [h]

theorem drainAnswer_run {s : State} (fs : List Int) (h : s.line.state = .run) :
    drainAnswer fs s = okay (drainTest (lineNote s (enterLine .drain s))) := by
  unfold drainAnswer
  rw [h]

theorem drainAnswer_drain {s : State} (fs : List Int) (h : s.line.state = .drain) : drainAnswer fs s = okay s := by
  unfold drainAnswer
  rw [h]

theorem drainTest_complete {s : State} (h : s.line.state = .drain) (he : trackingEmpty s = true) :
    drainTest s = { s with
      line := { s.line with state := .ready, holds := { s.line.holds with notRun := true, drain := false } }
      motion := { s.motion with mark := s.motion.travel }
      link := s.link.offer (.line .ready .drain { s.line.holds with notRun := true, drain := false } s.motion.travel s.link.clock) } := by
  unfold drainTest
  rw [if_pos ⟨h, he⟩, lineNote_of_state_ne (by rw [h]; nofun), h]
  rfl

theorem drainTest_of_tracked {s : State} (h : trackingEmpty s = false) : drainTest s = s := by
  unfold drainTest
  rw [if_neg (by simp [h])]

/-- Into RUN the set loses both causes of the line state and the mark stays (R2, Table 7). -/
theorem event_enterRun {s : State} (h : s.line.state ≠ .run) :
    event (enterLine .run) s = { s with
      line := { s.line with state := .run, holds := { s.line.holds with notRun := false, drain := false } }
      link := s.link.offer (.line .run s.line.state { s.line.holds with notRun := false, drain := false } s.motion.travel s.link.clock) } := by
  rw [event_of_tables_eq rfl rfl rfl, lineNote_of_state_ne fun e => h e.symm]
  rfl

/-- DRAIN entered from RUN, with its LINE notice (R12). -/
theorem lineNote_enterDrain {s : State} (h : s.line.state = .run) :
    lineNote s (enterLine .drain s) = { s with
      line := { s.line with state := .drain, holds := { s.line.holds with notRun := false, drain := true } }
      link := s.link.offer (.line .drain .run { s.line.holds with notRun := false, drain := true } s.motion.travel s.link.clock) } := by
  rw [lineNote_of_state_ne (by rw [h]; nofun), h]
  rfl

end Sys2Proof.Machine

/-- Settles O21, by the line state. -/
theorem startAndDrainByLineState : Obligations.StartAndDrainByLineState := by
  unfold Obligations.StartAndDrainByLineState
  intro s r ha hb
  have start {t : State} {st : Status} (hk : r.kind = 0x05) (hf : startAnswer [] s = ⟨t, st, .none⟩) :
      exec .start s = .next (reply r st .none t) := exec_answered_fields ha exec_start hk (parseFields_empty hb) hf
  have drain {t : State} {st : Status} (hk : r.kind = 0x06) (hf : drainAnswer [] s = ⟨t, st, .none⟩) :
      exec .drain s = .next (reply r st .none t) := exec_answered_fields ha exec_drain hk (parseFields_empty hb) hf
  refine ⟨fun hk h => start hk ?_, fun hk h => start hk (startAnswer_refused _ h), fun hk h ht => drain hk ?_, fun hk h ht => drain hk ?_,
    fun hk h => drain hk (drainAnswer_drain _ h), fun hk h => drain hk (drainAnswer_refused _ h)⟩
  · rw [startAnswer_taken _ h, event_enterRun (by obtain h | h := h <;> rw [h] <;> nofun)]
    rfl
  · rw [drainAnswer_run _ h, lineNote_enterDrain h]
    refine congrArg okay (drainTest_of_tracked ?_)
    exact ht
  · rw [drainAnswer_run _ h, lineNote_enterDrain h]
    refine congrArg okay ((drainTest_complete rfl ?_).trans ?_)
    · exact ht
    · simp only [LinkPort.offer_clock]

namespace Sys2Proof.Machine

/-! ### PROFILE RESUME and TOOL SET (R58, R66) -/

theorem event_clearStop_held {s : State} (h : s.line.holds.profile = true) :
    event clearStop s = { s with
      profile := { s.profile with limitCount := 0 }
      line := { s.line with holds := { s.line.holds with profile := false } }
      link := s.link.offer (.line s.line.state s.line.state { s.line.holds with profile := false } s.motion.travel s.link.clock) } := by
  rw [event_of_tables_eq rfl rfl rfl, lineNote_of_holds_ne fun e => ?_]
  · rfl
  · exact absurd ((congrArg HoldSet.profile e).trans h) nofun

theorem event_clearStop_free {s : State} (h : s.line.holds.profile = false) :
    event clearStop s = { s with profile := { s.profile with limitCount := 0 } } := by
  have hline : (clearStop s).line = s.line := by
    unfold clearStop mapHolds mapProfile
    rw [← h]
  rw [event_of_tables_eq rfl rfl rfl, lineNote_of_line_eq hline]
  unfold clearStop mapHolds mapProfile
  rw [← h]

theorem spindleOfCode_above {n : Nat} (h : 3 < n) : spindleOfCode n = none := by
  unfold spindleOfCode
  split <;> first | rfl | omega

theorem spindleOfCode_val : ∀ i : Spindle, spindleOfCode (i.val : Nat) = some i := by decide

theorem spindleOfCode_of_le {n : Nat} (h : n ≤ 3) : ∃ i, spindleOfCode n = some i := by
  obtain ⟨i, rfl⟩ : ∃ i : Spindle, i.val = n := ⟨⟨n, by omega⟩, rfl⟩
  exact ⟨i, spindleOfCode_val i⟩

theorem toolSetAnswer_spindle {c v w : Nat} {i : Spindle} (s : State) (h : spindleOfCode c = some i) :
    toolSetAnswer [(c : Int), (v : Int), (w : Int)] s = if v < 1 ∨ 65000 < v then refuse (.field 1) s
      else if v < w then refuse (.field 2) s
      else okay (emptyRing (mapProfile (fun p => { p with spindles := setAt p.spindles i (SpindleRecord.loaded v w) }) s)) := by
  unfold toolSetAnswer
  rw [fld_head, h]
  show (if (v : Int) < 1 ∨ 65000 < (v : Int) then refuse (.field 1) s
    else if (v : Int) < w then refuse (.field 2) s
    else okay (emptyRing (mapProfile (fun p => { p with spindles := setAt p.spindles i (SpindleRecord.loaded v w) }) s))) = _
  by_cases h1 : v < 1 ∨ 65000 < v
  · rw [if_pos h1, if_pos (by omega)]
  · rw [if_neg h1, if_neg (by omega)]
    by_cases h2 : v < w
    · rw [if_pos h2, if_pos (by omega)]
    · rw [if_neg h2, if_neg (by omega)]

end Sys2Proof.Machine

/-- Settles O28. -/
theorem profileResumeAndToolSet : Obligations.ProfileResumeAndToolSet := by
  unfold Obligations.ProfileResumeAndToolSet
  refine ⟨fun s r ha hk hb h => ?_, fun s r ha hk hb h => ?_, fun s r i v w ha hk hb => ?_⟩
  · refine exec_answered_fields ha exec_profileResume hk (parseFields_empty hb) ?_
    rw [← event_clearStop_held h]
    rfl
  · refine exec_answered_fields ha exec_profileResume hk (parseFields_empty hb) ?_
    rw [← event_clearStop_free h]
    rfl
  · have hp : parseFields [.u8, .u16, .u16] r.body = some [(i.toNat : Int), (v.toNat : Int), (w.toNat : Int)] := by simp [hb]
    have answer {t : State} {st : Status} (hf : toolSetAnswer [(i.toNat : Int), (v.toNat : Int), (w.toNat : Int)] s = ⟨t, st, .none⟩) :
        exec .toolSet s = .next (reply r st .none t) := exec_answered_fields ha exec_toolSet hk hp hf
    refine ⟨fun h => answer ?_, fun hi h => answer ?_, fun hi h1 h2 h => answer ?_, fun k hk h1 h2 h => answer ?_⟩
    · rw [toolSetAnswer, fld_head, spindleOfCode_above h]
      rfl
    · obtain ⟨k, hk⟩ := spindleOfCode_of_le hi
      rw [toolSetAnswer_spindle s hk, if_pos h]
      rfl
    · obtain ⟨k, hk⟩ := spindleOfCode_of_le hi
      rw [toolSetAnswer_spindle s hk, if_neg (by omega), if_pos h]
      rfl
    · rw [toolSetAnswer_spindle s (hk ▸ spindleOfCode_val k), if_neg (by omega), if_neg (by omega)]
      rfl

namespace Sys2Proof.Machine

/-! ### Encoder steps without an event (R1, R2, R24) -/

theorem takeDue_of_none (g : GateSample) (fuel : Nat) {s : State} (h : dueEvents s = []) : takeDue g fuel s = s := by
  cases fuel with
  | zero => rfl
  | succ n =>
    unfold takeDue
    rw [h]

theorem dueEvents_eq_nil {s : State} (h : ∀ e ∈ s.motion.events, isAfter e.pos s.motion.mark = true) : dueEvents s = [] := by
  unfold dueEvents
  rw [List.filter_eq_nil_iff]
  intro e he
  simp [reached, h e he]

theorem isJam_eq_false {s : State} (h : s.line.state.moving = true → ticksFrom s.motion.travel s.motion.mark ≤ s.config.motion.reverse) :
    isJam s = false := by
  unfold isJam
  cases hm : s.line.state.moving with
  | false => rfl
  | true => simpa using h hm

end Sys2Proof.Machine

/-- Settles O11: nothing is due at the mark reached, and the reverse travel is within the allowance. -/
theorem encoderStepsMoveTheCounter : Obligations.EncoderStepsMoveTheCounter := by
  unfold Obligations.EncoderStepsMoveTheCounter
  refine ⟨fun g s m hr hm he => ?_, fun s hr h => ?_⟩
  · subst hm
    rw [exec_encForwardStep g hr, takeDue_of_none g _ (dueEvents_eq_nil (s := stepForward s) he)]
    rfl
  · rw [exec_encReverseStep hr, if_neg]
    · rfl
    · rw [isJam_eq_false fun hm => ?_]
      · nofun
      · have hm : s.line.state.moving = true := hm
        simp only [stepReverse, hm, if_true]
        exact h hm
end

