-- ==== Sys2Proof/Proofs/CutPlan.lean ====
section
/-! PROOFS. The cut plan (R79 to R88): its limits, which every cutting placed keeps, and the distance between its lines, stage by stage: the
intervals left after stage 5 stand Dr apart from each other and from the ends, and each line of the fill stands Dr behind the one before. -/

namespace Sys2Proof.Machine

/-! ### Limits of the fill (R86, R87) -/

/-- The fill is within the limits of a plan: the lines a cap keeps, the cuttings, and their lengths. -/
structure Fill.WithinLimits (x : PlanInput) (f : Fill) : Prop where
  keep : f.keep ≤ Config.lineCapacity
  count : f.cuttings.length ≤ Config.planCuttings
  free : f.cuttings.length ≤ x.free
  lengths : ∀ c ∈ f.cuttings, x.lengths[c.cls]? = some c.nominal

theorem chooseLength_mem {ae dr n cls : Nat} {room : Int} {lengths : List Nat} (h : chooseLength ae dr room lengths = some (n, cls)) :
    lengths[cls]? = some n ∧ fits ae dr n room = true := by
  have hm := List.mem_of_getLast? h
  obtain ⟨hz, hf⟩ := List.mem_filter.mp hm
  exact ⟨List.mem_zipIdx_iff_getElem?.mp hz, hf⟩

theorem capTaken_eq_none {free upTo : Nat} {f : Fill} (h : capTaken free upTo f = none) :
    f.cuttings.length < Config.planCuttings ∧ upTo ≤ Config.lineCapacity ∧ f.cuttings.length < free := by
  unfold capTaken at h
  split at h
  · contradiction
  · split at h
    · contradiction
    · split at h
      · contradiction
      · omega

theorem Fill.WithinLimits.place {x : PlanInput} {f : Fill} {c : PlannedCutting} {sep : Option WorkLine} (hf : f.WithinLimits x)
    (hc : x.lengths[c.cls]? = some c.nominal) (hcap : capTaken x.free (f.lines.length + sep.toList.length) f = none) :
    (f.place c sep).WithinLimits x := by
  obtain ⟨hcount, hlines, hfree⟩ := capTaken_eq_none hcap
  refine ⟨?_, ?_, ?_, ?_⟩
  · show (f.lines ++ sep.toList).length ≤ _
    rwa [List.length_append]
  · show (f.cuttings ++ [c]).length ≤ _
    rwa [List.length_append]
  · show (f.cuttings ++ [c]).length ≤ _
    rwa [List.length_append]
  · intro d hd
    have hd : d ∈ f.cuttings ++ [c] := hd
    obtain hd | hd := List.mem_append.mp hd
    · exact hf.lengths d hd
    · rwa [List.mem_singleton.mp hd]

theorem fillWood_withinLimits (x : PlanInput) (seg : Segment) (fuel : Nat) {u : Int} {f : Fill} (hf : f.WithinLimits x) :
    (fillWood x seg fuel u f).WithinLimits x := by
  induction fuel generalizing u f with
  | zero => exact hf
  | succ fuel ih =>
    unfold fillWood
    split
    · exact ⟨hf.keep, hf.count, hf.free, hf.lengths⟩
    · rename_i n cls hlen
      dsimp only
      split
      · exact ⟨hf.keep, hf.count, hf.free, hf.lengths⟩
      · rename_i hcap
        have hplace := hf.place (c := { start := u, nominal := n, cls }) (chooseLength_mem hlen).1 hcap
        by_cases hstop : seg.q = u + n + x.cut.ae
        · rwa [if_pos hstop]
        · rw [if_neg hstop]
          exact ih hplace

theorem fillSegment_withinLimits {x : PlanInput} {f : Fill} (hf : f.WithinLimits x) (seg : Segment) :
    (fillSegment x f seg).WithinLimits x := by
  unfold fillSegment
  split
  · exact hf
  · exact fillWood_withinLimits x seg _ ⟨hf.keep, hf.count, hf.free, hf.lengths⟩

theorem fillSegments_withinLimits {x : PlanInput} (l : List Segment) {f : Fill} (hf : f.WithinLimits x) :
    (l.foldl (fillSegment x) f).WithinLimits x := by
  induction l generalizing f with
  | nil => exact hf
  | cons seg l ih => exact ih (fillSegment_withinLimits hf seg)

theorem Fill.start_withinLimits (x : PlanInput) (u : Usable) : (Fill.start u).WithinLimits x := by
  refine ⟨?_, Nat.zero_le _, Nat.zero_le _, fun c hc => absurd hc List.not_mem_nil⟩
  show (if u.leadFires then [(⟨u.lb, .trimLead⟩ : WorkLine)] else []).length ≤ _
  cases u.leadFires <;> exact Nat.le_of_ble_eq_true rfl

theorem fillAll_withinLimits (x : PlanInput) (u : Usable) (l : List Interval) : (fillAll x u l).WithinLimits x :=
  fillSegments_withinLimits _ (Fill.start_withinLimits x u)

theorem Fill.WithinLimits.kept_length {x : PlanInput} {f : Fill} (hf : f.WithinLimits x) : f.kept.length ≤ Config.lineCapacity := by
  unfold Fill.kept
  split
  · rw [List.length_take]
    exact (Nat.min_le_left _ _).trans hf.keep
  · rename_i h
    simp only [Bool.or_eq_true, decide_eq_true_eq, not_or, Nat.not_lt] at h
    exact h.2

/-! ### Limits of the plan -/

/-- The limits of a plan (R79, R87, R89). -/
structure CutPlan.WithinLimits (x : PlanInput) (p : CutPlan) : Prop where
  lines : p.lines.length ≤ Config.lineCapacity
  count : p.cuttings.length ≤ Config.planCuttings
  free : p.cuttings.length ≤ x.free
  lengths : ∀ c ∈ p.cuttings, x.lengths[c.cls]? = some c.nominal

theorem length_ite_singleton_le {α : Type} (c : Bool) (a : α) : (if c = true then [a] else []).length ≤ 1 := by
  cases c <;> exact Nat.le_of_ble_eq_true rfl

theorem bareLines_length (x : PlanInput) (u : Usable) : (bareLines x u).length ≤ 2 := by
  unfold bareLines
  rw [List.length_append]
  exact Nat.add_le_add (length_ite_singleton_le _ _) (length_ite_singleton_le _ _)

theorem barePlan_withinLimits (x : PlanInput) (u : Usable) : (barePlan x u).WithinLimits x := by
  refine ⟨?_, Nat.zero_le _, Nat.zero_le _, fun c hc => absurd hc List.not_mem_nil⟩
  unfold barePlan
  rw [List.length_map]
  exact (bareLines_length x u).trans (by decide)

theorem filledPlan_withinLimits {x : PlanInput} (u : Usable) {f : Fill} (hf : f.WithinLimits x) : (filledPlan x u f).WithinLimits x := by
  unfold filledPlan
  split
  · exact barePlan_withinLimits x u
  · refine ⟨?_, hf.count, hf.free, hf.lengths⟩
    rw [List.length_map]
    exact hf.kept_length

/-- Whatever holds of the plans without cuttings and of the plan after the fill holds of the plan (R80, R84, R88). -/
theorem cutPlan_cases (x : PlanInput) {P : CutPlan → Prop} (h1 : P (barePlan x (stage1 x)))
    (h2 : (stage1 x).tooShort x = false → (intervalsOf x (stage1 x)).1.tooShort x = true → P (barePlan x (intervalsOf x (stage1 x)).1))
    (h3 : (stage1 x).tooShort x = false → (intervalsOf x (stage1 x)).1.tooShort x = false →
      P (filledPlan x (intervalsOf x (stage1 x)).1 (fillAll x (intervalsOf x (stage1 x)).1 (intervalsOf x (stage1 x)).2))) :
    P (cutPlan x) := by
  unfold cutPlan
  dsimp only
  split
  · exact h1
  · rename_i hu
    split
    · exact h2 (Bool.eq_false_iff.mpr hu) ‹_›
    · rename_i hv
      exact h3 (Bool.eq_false_iff.mpr hu) (Bool.eq_false_iff.mpr hv)

end Sys2Proof.Machine

open Sys2Proof Sys2Proof.Machine

/-- Settles O31: every cutting placed keeps the limits. -/
theorem planStaysWithinItsLimits : Obligations.PlanStaysWithinItsLimits := by
  unfold Obligations.PlanStaysWithinItsLimits
  intro x
  have h : (cutPlan x).WithinLimits x := cutPlan_cases x (barePlan_withinLimits x _) (fun _ _ => barePlan_withinLimits x _)
    (fun _ _ => filledPlan_withinLimits _ (fillAll_withinLimits x _ _))
  exact ⟨h.lines, h.count, h.free, h.lengths⟩

namespace Sys2Proof.Machine

/-! ### Lines a distance apart -/

/-- The distance from one line to the next; a line of a plan is at no negative position. -/
def WorkLine.Before (dr : Nat) (a b : WorkLine) : Prop := 0 ≤ a.pos ∧ a.pos + dr ≤ b.pos

/-- Lines a distance apart, and as far before position p. -/
def Spaced (dr : Nat) (ls : List WorkLine) (p : Int) : Prop :=
  ls.IsChain (WorkLine.Before dr) ∧ ∀ l ∈ ls, 0 ≤ l.pos ∧ l.pos + dr ≤ p

theorem Spaced.mono {dr : Nat} {ls : List WorkLine} {p p' : Int} (h : Spaced dr ls p) (hp : p ≤ p') : Spaced dr ls p' :=
  ⟨h.1, fun l hl => ⟨(h.2 l hl).1, (h.2 l hl).2.trans hp⟩⟩

theorem Spaced.nil (dr : Nat) (p : Int) : Spaced dr [] p := ⟨List.isChain_nil, fun _ h => absurd h List.not_mem_nil⟩

/-- A line at p may follow. -/
theorem Spaced.append {dr : Nat} {ls : List WorkLine} {l : WorkLine} (h : Spaced dr ls l.pos) (hl : 0 ≤ l.pos) :
    Spaced dr (ls ++ [l]) (l.pos + dr) := by
  refine ⟨List.isChain_append.mpr ⟨h.1, List.isChain_singleton l, ?_⟩, fun m hm => ?_⟩
  · intro a ha b hb
    rw [List.head?_singleton, Option.mem_some_iff] at hb
    exact hb ▸ h.2 a (List.mem_of_getLast? ha)
  · obtain hm | hm := List.mem_append.mp hm
    · have := h.2 m hm
      omega
    · rw [List.mem_singleton.mp hm]
      exact ⟨hl, Int.le_refl _⟩

/-- So may the trailing line of a segment, if it fires. -/
theorem Spaced.append_option {dr : Nat} {ls : List WorkLine} {o : Option WorkLine} {q : Int} (h : Spaced dr ls q) (hq : 0 ≤ q)
    (ho : ∀ l ∈ o, l.pos = q) : Spaced dr (ls ++ o.toList) (q + dr) := by
  cases o with
  | none =>
    rw [Option.toList_none, List.append_nil]
    exact h.mono (by omega)
  | some l =>
    obtain rfl : l.pos = q := ho l rfl
    exact h.append hq

/-- Lines kept in ticks stand as far apart. -/
theorem isChain_map_finishLine {dr : Nat} {ls : List WorkLine} (x : PlanInput) (cs : List PlannedCutting)
    (h : ls.IsChain (WorkLine.Before dr)) : (ls.map (finishLine x cs)).IsChain (fun a b => a.pos + dr ≤ b.pos) := by
  rw [List.isChain_map]
  refine h.imp fun a b hab => ?_
  obtain ⟨h0, hd⟩ := hab
  show a.pos.toNat + dr ≤ b.pos.toNat
  omega

/-! ### Intervals a distance apart (R82 to R84) -/

/-- An interval after stage 3: within the usable span, and Dr wide unless it ends at Tb. -/
structure Interval.Good (dr : Nat) (lb tb : Int) (i : Interval) : Prop where
  lead : lb ≤ i.start
  order : i.start ≤ i.stop
  trail : i.stop ≤ tb
  wide : i.start + dr ≤ i.stop ∨ i.stop = tb

theorem zoneInterval_bounds {x : PlanInput} {u : Usable} {z : MmZone} {i : Interval} (hu : u.lb ≤ u.tb) (h : zoneInterval x u z = some i) :
    u.lb ≤ i.start ∧ i.start ≤ u.tb ∧ i.stop ≤ u.tb := by
  unfold zoneInterval at h
  split at h
  · contradiction
  · dsimp only at h
    split at h
    · contradiction
    · obtain rfl := Option.some.inj h
      refine ⟨Int.le_max_right _ _, ?_, Int.min_le_right _ _⟩
      show max _ _ ≤ _
      omega

theorem widen_good {dr : Nat} {lb tb : Int} {i : Interval} (h1 : lb ≤ i.start) (h2 : i.start ≤ tb) (h3 : i.stop ≤ tb) :
    (widen dr tb i).Good dr lb tb := by
  unfold widen
  split
  · refine ⟨h1, ?_, Int.min_le_right _ _, ?_⟩
    · show i.start ≤ min _ _
      omega
    · show i.start + dr ≤ min _ _ ∨ min _ _ = tb
      omega
  · exact ⟨h1, by omega, h3, .inl (by omega)⟩

theorem mem_insertInterval {i j : Interval} {l : List Interval} (h : j ∈ insertInterval i l) : j = i ∨ j ∈ l := by
  induction l with
  | nil => exact .inl (List.mem_singleton.mp h)
  | cons k l ih =>
    unfold insertInterval at h
    split at h
    · obtain rfl | h := List.mem_cons.mp h
      · exact .inr List.mem_cons_self
      · exact (ih h).imp_right (List.mem_cons_of_mem _)
    · exact List.mem_cons.mp h

theorem mem_sortIntervals {j : Interval} {l : List Interval} (h : j ∈ sortIntervals l) : j ∈ l := by
  induction l with
  | nil => exact h
  | cons i l ih =>
    obtain rfl | h := mem_insertInterval h
    · exact List.mem_cons_self
    · exact List.mem_cons_of_mem _ (ih h)

/-- The distance from one interval to the next. -/
def Interval.Apart (dr : Nat) (a b : Interval) : Prop := a.stop + dr ≤ b.start

/-- The merged list begins where its first interval begins. -/
theorem mergeFrom_head (dr : Nat) (kept : Interval) (l : List Interval) :
    ∃ j rest, mergeFrom dr kept l = j :: rest ∧ j.start = kept.start := by
  induction l generalizing kept with
  | nil => exact ⟨kept, [], rfl, rfl⟩
  | cons i l ih =>
    unfold mergeFrom
    split
    · exact ih _
    · exact ⟨kept, _, rfl, rfl⟩

theorem mergeFrom_good {dr : Nat} {lb tb : Int} (l : List Interval) {kept : Interval} (hk : kept.Good dr lb tb)
    (h : ∀ i ∈ l, i.Good dr lb tb) : ∀ i ∈ mergeFrom dr kept l, i.Good dr lb tb := by
  induction l generalizing kept with
  | nil => exact fun i hi => (List.mem_singleton.mp hi) ▸ hk
  | cons i l ih =>
    obtain ⟨hi, hl⟩ := List.forall_mem_cons.mp h
    unfold mergeFrom
    split
    · refine ih ?_ hl
      refine ⟨hk.lead, ?_, Int.max_le.mpr ⟨hk.trail, hi.trail⟩, ?_⟩
      · have := hk.order
        show kept.start ≤ max _ _
        omega
      · have := hk.wide
        have := hk.trail
        have := hi.trail
        show kept.start + dr ≤ max _ _ ∨ max _ _ = tb
        omega
    · exact List.forall_mem_cons.mpr ⟨hk, ih hi hl⟩

theorem mergeFrom_apart (dr : Nat) (l : List Interval) (kept : Interval) :
    (mergeFrom dr kept l).IsChain (Interval.Apart dr) := by
  induction l generalizing kept with
  | nil => exact List.isChain_singleton _
  | cons i l ih =>
    unfold mergeFrom
    split
    · exact ih _
    · rename_i hstart
      obtain ⟨j, rest, hj, hstart'⟩ := mergeFrom_head dr i l
      have := ih i
      rw [hj] at this ⊢
      exact List.isChain_cons_cons.mpr ⟨by show kept.stop + dr ≤ j.start; omega, this⟩

/-- Intervals a distance apart from p on, each Dr wide unless it ends at Tb. -/
def Runs (dr : Nat) (tb : Int) : Int → List Interval → Prop
  | _, [] => True
  | p, i :: is => p + dr ≤ i.start ∧ i.start ≤ i.stop ∧ i.stop ≤ tb ∧ (i.start + dr ≤ i.stop ∨ i.stop = tb) ∧ Runs dr tb i.stop is

/-- Intervals a distance apart from p on, from each other and from Tb, each Dr wide. -/
def Gaps (dr : Nat) (tb : Int) : Int → List Interval → Prop
  | p, [] => p + dr ≤ tb
  | p, i :: is => p + dr ≤ i.start ∧ i.start + dr ≤ i.stop ∧ Gaps dr tb i.stop is

theorem runs_of_apart {dr : Nat} {lb tb : Int} (l : List Interval) {p : Int} (h : ∀ i ∈ l, i.Good dr lb tb)
    (hc : l.IsChain (Interval.Apart dr)) (hp : ∀ i ∈ l.head?, p + dr ≤ i.start) : Runs dr tb p l := by
  induction l generalizing p with
  | nil => trivial
  | cons i l ih =>
    obtain ⟨hi, hl⟩ := List.forall_mem_cons.mp h
    obtain ⟨hn, hc⟩ := List.isChain_cons.mp hc
    exact ⟨hp i rfl, hi.order, hi.trail, hi.wide, ih hl hc hn⟩

theorem absorbLead_runs {dr : Nat} {u : Usable} {l : List Interval} (h : ∀ i ∈ l, i.Good dr u.lb u.tb)
    (hc : l.IsChain (Interval.Apart dr)) :
    (absorbLead dr u l).1.tb = u.tb ∧ u.lb ≤ (absorbLead dr u l).1.lb ∧ Runs dr u.tb (absorbLead dr u l).1.lb (absorbLead dr u l).2 := by
  cases l with
  | nil => exact ⟨rfl, Int.le_refl _, trivial⟩
  | cons i l =>
    unfold absorbLead
    dsimp only
    obtain ⟨hi, hl⟩ := List.forall_mem_cons.mp h
    split
    · refine ⟨rfl, ?_, runs_of_apart l hl (List.isChain_cons.mp hc).2 (List.isChain_cons.mp hc).1⟩
      have := hi.lead
      have := hi.order
      show u.lb ≤ i.stop
      omega
    · refine ⟨rfl, Int.le_refl _, runs_of_apart _ h hc fun j hj => ?_⟩
      obtain rfl : i = j := Option.some.inj hj
      show u.lb + dr ≤ i.start
      omega

theorem absorbTrail_lb (dr : Nat) (u : Usable) (l : List Interval) : (absorbTrail dr u l).1.lb = u.lb := by
  unfold absorbTrail
  split
  · rfl
  · split <;> rfl

/-- Stage 5 at the trailing end looks at the last interval alone. -/
theorem absorbTrail_cons (dr : Nat) (u : Usable) (i j : Interval) (l : List Interval) :
    absorbTrail dr u (i :: j :: l) = ((absorbTrail dr u (j :: l)).1, i :: (absorbTrail dr u (j :: l)).2) := by
  unfold absorbTrail
  rw [List.getLast?_cons_cons]
  split
  · rfl
  · split <;> rfl

theorem absorbTrail_gaps {dr : Nat} {u : Usable} (hdr : 0 < dr) (l : List Interval) {p : Int} (h : Runs dr u.tb p l)
    (he : p + dr ≤ (absorbTrail dr u l).1.tb ∨ l ≠ []) : Gaps dr (absorbTrail dr u l).1.tb p (absorbTrail dr u l).2 := by
  induction l generalizing p with
  | nil => exact he.resolve_right fun h => h rfl
  | cons i l ih =>
    obtain ⟨hp, ho, ht, hw, hr⟩ := h
    cases l with
    | nil =>
      unfold absorbTrail
      rw [List.getLast?_singleton]
      dsimp only
      split
      · exact hp
      · exact ⟨hp, by omega, by show i.stop + dr ≤ u.tb; omega⟩
    | cons j l =>
      rw [absorbTrail_cons]
      have hj := hr
      obtain ⟨hjp, hjo, hjt, _, _⟩ := hj
      exact ⟨hp, by omega, ih hr (.inr nofun)⟩

theorem PlanInput.dr_le_least {x : PlanInput} (hl : x.lengths ≠ []) (h : ∀ n ∈ x.lengths, x.dr ≤ n + x.cut.ae) : (x.dr : Int) ≤ x.least := by
  obtain ⟨n, l, hx⟩ := List.exists_cons_of_ne_nil hl
  have := h n (by rw [hx]; exact List.mem_cons_self)
  unfold PlanInput.least
  rw [hx, List.headD_cons]
  omega

theorem Usable.least_le {u : Usable} {x : PlanInput} (h : u.tooShort x = false) : u.lb + x.least ≤ u.tb := by
  unfold Usable.tooShort at h
  rw [decide_eq_false_iff_not] at h
  omega

/-- The intervals before stage 5 are good ones, a distance apart. -/
theorem merged_good {x : PlanInput} {u : Usable} (hu : u.lb ≤ u.tb) :
    ∀ i ∈ mergeIntervals x.dr (sortIntervals ((x.zones.filterMap (zoneInterval x u)).map (widen x.dr u.tb))), i.Good x.dr u.lb u.tb := by
  have hgood : ∀ i ∈ sortIntervals ((x.zones.filterMap (zoneInterval x u)).map (widen x.dr u.tb)), i.Good x.dr u.lb u.tb := by
    intro i hi
    obtain ⟨j, hj, rfl⟩ := List.mem_map.mp (mem_sortIntervals hi)
    obtain ⟨z, _, hz⟩ := List.mem_filterMap.mp hj
    obtain ⟨h1, h2, h3⟩ := zoneInterval_bounds hu hz
    exact widen_good h1 h2 h3
  cases hl : sortIntervals ((x.zones.filterMap (zoneInterval x u)).map (widen x.dr u.tb)) with
  | nil => exact fun i hi => absurd hi List.not_mem_nil
  | cons i l =>
    rw [hl] at hgood
    obtain ⟨hi, hl⟩ := List.forall_mem_cons.mp hgood
    exact mergeFrom_good l hi hl

theorem mergeIntervals_apart (dr : Nat) (l : List Interval) : (mergeIntervals dr l).IsChain (Interval.Apart dr) := by
  cases l with
  | nil => exact List.isChain_nil
  | cons i l => exact mergeFrom_apart dr l i

/-- After stage 5 the intervals stand Dr apart from each other and from the ends, unless too little is left (R82 to R84). -/
theorem intervalsOf_gaps {x : PlanInput} {u : Usable} (hdr : 0 < x.dr) (hl : (x.dr : Int) ≤ x.least) (hu : u.tooShort x = false) :
    u.lb ≤ (intervalsOf x u).1.lb ∧ ((intervalsOf x u).1.tooShort x = false →
      Gaps x.dr (intervalsOf x u).1.tb (intervalsOf x u).1.lb (intervalsOf x u).2) := by
  have hle := Usable.least_le hu
  obtain ⟨htb, hlb, hruns⟩ := absorbLead_runs (merged_good (x := x) (u := u) (by omega)) (mergeIntervals_apart x.dr _)
  unfold intervalsOf
  dsimp only
  rw [absorbTrail_lb]
  refine ⟨hlb, fun hv => absorbTrail_gaps hdr _ (by rwa [htb]) (.inl ?_)⟩
  have := Usable.least_le hv
  rw [absorbTrail_lb] at this
  omega

/-! ### The fill keeps the distance (R85 to R87) -/

theorem fits_room {ae dr n : Nat} {room : Int} (h : fits ae dr n room = true) :
    (n : Int) + ae ≤ room ∧ (room - n - ae = 0 ∨ (dr : Int) ≤ room - n - ae) := of_decide_eq_true h

/-- In one segment: lines Dr before its end, none after the wood position, and the trailing line at its end. -/
theorem fillWood_spaced {x : PlanInput} {seg : Segment} (hlen : ∀ n ∈ x.lengths, x.dr ≤ n + x.cut.ae) (htrail : ∀ l ∈ seg.trail, l.pos = seg.q)
    (fuel : Nat) {u : Int} {f : Fill} (hu : 0 ≤ u) (hq : 0 ≤ seg.q) (h1 : Spaced x.dr f.lines (u + x.dr)) (h2 : Spaced x.dr f.lines seg.q) :
    Spaced x.dr (fillWood x seg fuel u f).lines (seg.q + x.dr) := by
  have hend : Spaced x.dr f.lines (seg.q + x.dr) := h2.mono (by omega)
  induction fuel generalizing u f with
  | zero => exact hend
  | succ fuel ih =>
    unfold fillWood
    split
    · exact h2.append_option hq htrail
    · rename_i n cls hchoose
      obtain ⟨hget, hfits⟩ := chooseLength_mem hchoose
      obtain ⟨hroom, hrest⟩ := fits_room hfits
      have hn := hlen n (List.mem_of_getElem? hget)
      dsimp only
      split
      · exact hend
      · by_cases hstop : seg.q = u + n + x.cut.ae
        · rw [if_pos hstop, if_pos hstop]
          exact h2.append_option hq htrail
        · rw [if_neg hstop, if_neg hstop]
          have hsep : Spaced x.dr (f.lines ++ [{ pos := u + n + x.cut.ae, kind := .separation }]) (u + n + x.cut.ae + x.dr) :=
            (h1.mono (by show u + x.dr ≤ u + n + x.cut.ae; omega)).append (by show 0 ≤ u + n + x.cut.ae; omega)
          exact ih (by omega) (hsep.mono (by omega)) (hsep.mono (by omega)) (hsep.mono (by omega))

/-- The lines with the leading line of a segment, which is there already at the strip's own leading end. -/
def leadLines (seg : Segment) : List WorkLine :=
  match seg.lead with
  | some l => if l.kind = .trimLead then [] else [l]
  | none => []

theorem fillSegment_spaced {x : PlanInput} {seg : Segment} {f : Fill} (hlen : ∀ n ∈ x.lengths, x.dr ≤ n + x.cut.ae)
    (htrail : ∀ l ∈ seg.trail, l.pos = seg.q) (hu : 0 ≤ seg.u) (hq : 0 ≤ seg.q) (hf : Spaced x.dr f.lines seg.q)
    (h1 : Spaced x.dr (f.lines ++ leadLines seg) (seg.u + x.dr)) (h2 : Spaced x.dr (f.lines ++ leadLines seg) seg.q) :
    Spaced x.dr (fillSegment x f seg).lines (seg.q + x.dr) := by
  unfold fillSegment
  split
  · exact hf.mono (by omega)
  · exact fillWood_spaced hlen htrail _ hu hq h1 h2

/-- The segments that follow a leading line at p, each with its own lines. -/
theorem fillSegments_chain {x : PlanInput} {u : Usable} (hlen : ∀ n ∈ x.lengths, x.dr ≤ n + x.cut.ae) (l : List Interval) {lead : Option WorkLine}
    {wood p : Int} {f : Fill} (hp : 0 ≤ p) (hw : 0 ≤ wood) (hg : Gaps x.dr u.tb p l)
    (hf : Spaced x.dr f.lines (p + x.dr))
    (h1 : Spaced x.dr (f.lines ++ leadLines { lead, u := wood, q := 0, trail := none }) (wood + x.dr))
    (h2 : Spaced x.dr (f.lines ++ leadLines { lead, u := wood, q := 0, trail := none }) (p + x.dr)) :
    ((segmentsFrom x.cut.k u lead wood l).foldl (fillSegment x) f).lines.IsChain (WorkLine.Before x.dr) := by
  induction l generalizing lead wood p f with
  | nil =>
    have hg : p + x.dr ≤ u.tb := hg
    refine (fillSegment_spaced hlen ?_ hw (seg := { lead, u := wood, q := u.tb, trail := _ }) ?_ (hf.mono hg) h1 (h2.mono hg)).1
    · intro l hl
      dsimp only at hl
      split at hl
      · rw [← Option.some.inj hl]
      · contradiction
    · show 0 ≤ u.tb
      omega
  | cons i l ih =>
    obtain ⟨hi, hwide, hg⟩ := hg
    have hseg := fillSegment_spaced hlen (seg := { lead, u := wood, q := i.start, trail := some { pos := i.start, kind := .zoneStart } })
      (fun l hl => by rw [← Option.some.inj hl]) hw (by show 0 ≤ i.start; omega) (hf.mono hi) h1 (h2.mono hi)
    have hline := (hseg.mono hwide).append (l := { pos := i.stop, kind := .zoneEnd }) (by show 0 ≤ i.stop; omega)
    exact ih (by omega) (by omega) hg (hseg.mono (by show i.start + x.dr ≤ i.stop + x.dr; omega))
      (hline.mono (by show i.stop + x.dr ≤ i.stop + x.cut.k + x.dr; omega)) hline

theorem fillAll_chain {x : PlanInput} {u : Usable} {l : List Interval} (hlen : ∀ n ∈ x.lengths, x.dr ≤ n + x.cut.ae) (hlb : 0 ≤ u.lb)
    (hg : Gaps x.dr u.tb u.lb l) : (fillAll x u l).lines.IsChain (WorkLine.Before x.dr) := by
  unfold fillAll segmentsOf Fill.start
  cases u.leadFires with
  | false =>
    exact fillSegments_chain hlen l hlb (Int.le_refl 0) hg (Spaced.nil _ _) (Spaced.nil _ _) (Spaced.nil _ _)
  | true =>
    have hline : Spaced x.dr [{ pos := u.lb, kind := .trimLead }] (u.lb + x.dr) :=
      (Spaced.nil x.dr u.lb).append (l := { pos := u.lb, kind := .trimLead }) hlb
    exact fillSegments_chain hlen l hlb (by omega) hg hline (hline.mono (by show u.lb + x.dr ≤ u.lb + x.cut.k + x.dr; omega)) hline

theorem Fill.kept_isChain {dr : Nat} {f : Fill} (h : f.lines.IsChain (WorkLine.Before dr)) : f.kept.IsChain (WorkLine.Before dr) := by
  unfold Fill.kept
  split
  · exact h.take _
  · exact h

theorem bareLines_isChain {x : PlanInput} {u : Usable} (h : 0 ≤ u.lb) : (bareLines x u).IsChain (WorkLine.Before x.dr) := by
  unfold bareLines
  dsimp only
  split
  · split
    · rename_i ht
      simp only [Bool.and_eq_true, Bool.or_eq_true, decide_eq_true_eq, List.isEmpty_cons, Bool.false_eq_true, false_or] at ht
      exact List.isChain_pair.mpr ⟨h, ht.2⟩
    · exact List.isChain_singleton _
  · split
    · exact List.isChain_singleton _
    · exact List.isChain_nil

theorem barePlan_isChain {x : PlanInput} {u : Usable} (h : 0 ≤ u.lb) :
    (barePlan x u).lines.IsChain (fun a b => a.pos + x.dr ≤ b.pos) := isChain_map_finishLine x [] (bareLines_isChain h)

theorem filledPlan_isChain {x : PlanInput} {u : Usable} {f : Fill} (h : 0 ≤ u.lb) (hf : f.lines.IsChain (WorkLine.Before x.dr)) :
    (filledPlan x u f).lines.IsChain (fun a b => a.pos + x.dr ≤ b.pos) := by
  unfold filledPlan
  split
  · exact barePlan_isChain h
  · exact isChain_map_finishLine x f.cuttings (Fill.kept_isChain hf)

end Sys2Proof.Machine

/-- Settles O30, by the stages of the plan. -/
theorem planLinesKeepTheRecoveryDistance : Obligations.PlanLinesKeepTheRecoveryDistance := by
  unfold Obligations.PlanLinesKeepTheRecoveryDistance
  intro x hdr hne hlen
  have hlb : (0 : Int) ≤ (stage1 x).lb := Int.natCast_nonneg _
  have hgaps := fun hu => intervalsOf_gaps (u := stage1 x) hdr (PlanInput.dr_le_least hne hlen) hu
  refine cutPlan_cases x (P := fun p => p.lines.IsChain _) (barePlan_isChain hlb) (fun hu _ => ?_) (fun hu hv => ?_)
  · exact barePlan_isChain (hlb.trans (hgaps hu).1)
  · have hvlb := hlb.trans (hgaps hu).1
    exact filledPlan_isChain hvlb (fillAll_chain hlen hvlb ((hgaps hu).2 hv))
end

