-- ==== Sys2Proof/Proofs/FeaturesAndRuns.lean ====
section
/-! PROOFS. The zone list of a strip (R43, R44), the features of a cutting over its span (R45 to R51), and the run over a bank's grades (R103,
R104). -/

namespace Sys2Proof.Machine

/-! ### The zone list -/

theorem insertZone_length (z : Zone) (l : List Zone) : (insertZone z l).length = l.length + 1 := by
  induction l with
  | nil => rfl
  | cons y l ih =>
    unfold insertZone
    split
    · rw [List.length_cons, ih, List.length_cons]
    · rfl

theorem mem_insertZone {z y : Zone} {l : List Zone} : y ∈ insertZone z l ↔ y = z ∨ y ∈ l := by
  induction l with
  | nil => simp [insertZone]
  | cons x l ih =>
    unfold insertZone
    split
    · simp only [List.mem_cons, ih]
      tauto
    · simp only [List.mem_cons]

theorem insertZone_ordered {z : Zone} {l : List Zone} (h : l.Pairwise (fun a b => a.start ≤ b.start)) :
    (insertZone z l).Pairwise (fun a b => a.start ≤ b.start) := by
  induction l with
  | nil => exact List.pairwise_singleton _ _
  | cons y l ih =>
    obtain ⟨hy, hl⟩ := List.pairwise_cons.mp h
    unfold insertZone
    split
    · rename_i hle
      refine List.pairwise_cons.mpr ⟨fun x hx => ?_, ih hl⟩
      obtain rfl | hx := mem_insertZone.mp hx
      · exact hle
      · exact hy x hx
    · rename_i hlt
      refine List.pairwise_cons.mpr ⟨fun x hx => ?_, h⟩
      obtain rfl | hx := List.mem_cons.mp hx
      · exact Nat.le_of_not_le hlt
      · exact (Nat.le_of_not_le hlt).trans (hy x hx)

theorem enterZone_of_room {z : Zone} {r : Strip} (h : r.zones.length < Config.zoneCapacity) :
    r.enterZone z = { r with zones := insertZone z r.zones } := by
  unfold Strip.enterZone
  rw [if_pos h]

theorem enterZone_of_full {z : Zone} {r : Strip} (h : ¬r.zones.length < Config.zoneCapacity) :
    ∃ last ∈ r.zones, r.enterZone z =
      { r with zones := insertZone (last.absorb z) r.zones.dropLast, flags := { r.flags with zoneSat := true } } := by
  unfold Strip.enterZone
  rw [if_neg h]
  split
  · rename_i hn
    rw [List.getLast?_eq_none_iff.mp hn] at h
    exact absurd (by decide) h
  · rename_i last hl
    exact ⟨last, List.mem_of_getLast? hl, rfl⟩

theorem Zone.absorb_covers (last z : Zone) :
    (last.absorb z).start ≤ z.start ∧ z.stop ≤ (last.absorb z).stop ∧ z.severity ≤ (last.absorb z).severity :=
  ⟨Nat.min_le_right _ _, Nat.le_max_right _ _, Nat.le_max_right _ _⟩

end Sys2Proof.Machine

open Sys2Proof Sys2Proof.Machine

/-- Settles O26, by whether the list has room. -/
theorem zoneListStaysOrdered : Obligations.ZoneListStaysOrdered := by
  unfold Obligations.ZoneListStaysOrdered
  intro z r hlen hord
  by_cases hroom : r.zones.length < Config.zoneCapacity
  · rw [enterZone_of_room hroom]
    refine ⟨?_, insertZone_ordered hord, ⟨z, mem_insertZone.mpr (.inl rfl), Nat.le_refl _, Nat.le_refl _, Nat.le_refl _⟩, fun h => ?_⟩
    · rw [insertZone_length]
      exact hroom
    · exact absurd h (Nat.ne_of_lt hroom)
  · obtain ⟨last, _, he⟩ := enterZone_of_full (z := z) hroom
    rw [he]
    refine ⟨?_, insertZone_ordered (hord.sublist (List.dropLast_sublist _)),
      ⟨last.absorb z, mem_insertZone.mpr (.inl rfl), last.absorb_covers z⟩, fun _ => rfl⟩
    rw [insertZone_length, List.length_dropLast]
    have : 0 < Config.zoneCapacity := by decide
    omega

namespace Sys2Proof.Machine

/-! ### The run over the grades -/

/-- From index k on, a run that grades gives the first grade that passes (R103, R104). -/
theorem runGrades_first {b : Bank} {fs : Vector (Option Int) 14} (es : List GradeEntry) {k g code : Nat}
    (h : runGrades b fs es k = .graded g code) :
    ∃ i, g = k + i ∧ (∃ e p q, es[i]? = some e ∧ e.code = code ∧ runTests b fs (gradeRange e) true true = .done p q ∧
        verdictPasses e.verdict p q = true) ∧
      ∀ j < i, ∃ e p q, es[j]? = some e ∧ runTests b fs (gradeRange e) true true = .done p q ∧ verdictPasses e.verdict p q = false := by
  induction es generalizing k with
  | nil => exact absurd h nofun
  | cons e es ih =>
    unfold runGrades at h
    split at h
    · contradiction
    · rename_i p q hrun
      split at h
      · rename_i hv
        obtain ⟨rfl, rfl⟩ := RunEnd.graded.inj h
        exact ⟨0, rfl, ⟨e, p, q, rfl, rfl, hrun, hv⟩, fun j hj => absurd hj (Nat.not_lt_zero j)⟩
      · rename_i hv
        obtain ⟨i, rfl, hi, hj⟩ := ih h
        refine ⟨i + 1, by omega, hi, fun j hlt => ?_⟩
        cases j with
        | zero => exact ⟨e, p, q, rfl, hrun, Bool.eq_false_iff.mpr hv⟩
        | succ j => exact hj j (by omega)

end Sys2Proof.Machine

/-- Settles O35: the list from its first grade on. -/
theorem theFirstPassingGradeIsTaken : Obligations.TheFirstPassingGradeIsTaken := by
  unfold Obligations.TheFirstPassingGradeIsTaken
  intro b fs es g code h
  obtain ⟨i, rfl, hi, hj⟩ := runGrades_first es h
  rw [Nat.zero_add]
  exact ⟨hi, hj⟩

namespace Sys2Proof.Machine

/-! ### Features over a span -/

theorem roleValues_append (setup : Vector ChannelSetup 16) (p : Role → Bool) (xs ys : List PassSlot) :
    roleValues setup p (xs ++ ys) = roleValues setup p xs ++ roleValues setup p ys := List.flatMap_append

/-- The values the model takes from the passes in span are those of the statement (R45, R47). -/
theorem roleValues_inSpanFrom (s : State) (a b : Nat) (p : Role → Bool) (slots : List PassSlot) (i : Nat) :
    roleValues s.config.channels p (inSpanFrom s a b i slots) =
      ((slots.zipIdx i).filter (fun x => decide (a ≤ passMm s x.2 ∧ passMm s x.2 < b))).flatMap (fun x =>
        (x.1.samples.filter (fun m => p s.config.channels[m.channel].role && !m.saturated)).map Sample.value) := by
  induction slots generalizing i with
  | nil => rfl
  | cons t slots ih =>
    unfold inSpanFrom
    rw [roleValues_append, ih, List.zipIdx_cons]
    by_cases h : a ≤ passMm s i ∧ passMm s i < b
    · rw [if_pos h, List.filter_cons_of_pos (by exact decide_eq_true h), List.flatMap_cons]
      congr 1
      exact List.append_nil _
    · rw [if_neg h, List.filter_cons_of_neg (by rw [decide_eq_true_eq]; exact h)]
      rfl

theorem roleValues_eq_spanValues (s : State) (slots : List PassSlot) (a b : Nat) (p : Role → Bool) :
    roleValues s.config.channels p (inSpanFrom s a b 0 slots) = spanValues s slots a b p := roleValues_inSpanFrom s a b p slots 0

theorem zoneMm_overlaps (s : State) (a b : Nat) (z : Zone) : (zoneMm s z).overlaps a b = overlapsSpan s a b z := rfl

theorem lowest_eq_min? (l : List Int) : lowest l = l.min? := by
  cases l <;> rfl

theorem highest_eq_max? (l : List Int) : highest l = l.max? := by
  cases l <;> rfl

theorem lowest_isLowest (l : List Int) : IsLowest (lowest l) l := by
  rw [lowest_eq_min?]
  refine ⟨fun h => by rw [h]; rfl, fun h => ?_⟩
  obtain ⟨v, hv⟩ := Option.ne_none_iff_exists'.mp (mt List.min?_eq_none_iff.mp h)
  obtain ⟨hmem, hle⟩ := List.min?_eq_some_iff.mp hv
  exact ⟨v, hmem, hv, hle⟩

theorem highest_isHighest (l : List Int) : IsHighest (highest l) l := by
  rw [highest_eq_max?]
  refine ⟨fun h => by rw [h]; rfl, fun h => ?_⟩
  obtain ⟨v, hv⟩ := Option.ne_none_iff_exists'.mp (mt List.max?_eq_none_iff.mp h)
  obtain ⟨hmem, hle⟩ := List.max?_eq_some_iff.mp hv
  exact ⟨v, hmem, hv, hle⟩

theorem lowest_eq_none_iff {l : List Int} : lowest l = none ↔ l = [] := by
  rw [lowest_eq_min?]
  exact List.min?_eq_none_iff

/-- The highest of some numbers and a first one. -/
theorem foldl_max_spec (l : List Nat) (m : Nat) :
    m ≤ l.foldl max m ∧ (∀ x ∈ l, x ≤ l.foldl max m) ∧ (l.foldl max m = m ∨ l.foldl max m ∈ l) := by
  induction l generalizing m with
  | nil => exact ⟨Nat.le_refl m, fun x hx => absurd hx List.not_mem_nil, .inl rfl⟩
  | cons y l ih =>
    obtain ⟨hm, hl, he⟩ := ih (max m y)
    rw [List.foldl_cons]
    refine ⟨(Nat.le_max_left m y).trans hm, List.forall_mem_cons.mpr ⟨(Nat.le_max_right m y).trans hm, hl⟩, ?_⟩
    obtain he | he := he
    · rw [he]
      obtain h | h := Nat.le_total m y
      · exact .inr (by rw [Nat.max_eq_right h]; exact List.mem_cons_self)
      · exact .inl (Nat.max_eq_left h)
    · exact .inr (List.mem_cons_of_mem _ he)

/-- DSEVMAX over the DEFECT zones of a list (R49). -/
theorem defect_severity_spec (zones : List Zone) :
    (∀ z ∈ zones, z.source = .gate → z.severity ≤ ((zones.filter Zone.isDefect).map Zone.severity).foldl max 0) ∧
      (((zones.filter Zone.isDefect).map Zone.severity).foldl max 0 = 0 ∨
        ∃ z ∈ zones, z.source = .gate ∧ z.severity = ((zones.filter Zone.isDefect).map Zone.severity).foldl max 0) := by
  obtain ⟨_, hle, hmem⟩ := foldl_max_spec ((zones.filter Zone.isDefect).map Zone.severity) 0
  refine ⟨fun z hz hg => hle _ (List.mem_map_of_mem (List.mem_filter.mpr ⟨hz, ?_⟩)), hmem.imp_right fun h => ?_⟩
  · unfold Zone.isDefect
    rw [hg]
    rfl
  · obtain ⟨z, hz, he⟩ := List.mem_map.mp h
    obtain ⟨hz, hg⟩ := List.mem_filter.mp hz
    exact ⟨z, hz, eq_of_beq hg, he⟩

theorem Zone.isDefect_eq (z : Zone) : z.isDefect = decide (z.source = .gate) := by
  unfold Zone.isDefect
  exact beq_eq_decide _ _

theorem Zone.isGauge_eq (z : Zone) : (!z.isDefect && z.severity == 0) = decide (z.source ≠ .gate ∧ z.severity = 0) := by
  rw [Zone.isDefect_eq, beq_eq_decide, ← decide_not, ← Bool.decide_and]

theorem meanOf_of_ne {l : List Int} (h : l ≠ []) : meanOf l = some (l.sum.tdiv l.length) := by
  cases l with
  | nil => exact absurd rfl h
  | cons v l => rfl

/-- Every spindle is set exactly when none of the four is UNSET. -/
theorem toolKnown_iff (v : Vector SpindleRecord 4) :
    v.toList.all (fun p => p.state != .unset) = true ↔ ∀ i : Spindle, v[i].state ≠ .unset := by
  rw [List.all_eq_true]
  constructor
  · intro h i
    have := h v[i] (Vector.mem_toList_iff.mpr (Vector.getElem_mem i.isLt))
    simpa using this
  · intro h p hp
    obtain ⟨i, hi, rfl⟩ := Vector.mem_iff_getElem.mp (Vector.mem_toList_iff.mp hp)
    simpa using h ⟨i, hi⟩

/-- The features of a cutting over its span, in the terms of the statement (R45 to R51). -/
theorem reduceFeatures_eq {s : State} {r : Strip} {slots : List PassSlot} {c : Cutting} {k : CutSection} {a b : Nat} {zones : List Zone}
    (hk : s.recipe.banks[c.bank].cut = some k) (ha : a = c.spanStart) (hb : b = c.spanStart + c.nominal + k.ae)
    (hz : zones = r.zones.filter (overlapsSpan s a b)) :
    reduceFeatures s r slots c = (#v[some (c.nominal : Int), some (c.cls : Int), lowest (spanValues s slots a b Role.isThick),
      highest (spanValues s slots a b Role.isThick),
      (highest (spanValues s slots a b Role.isThick)).bind (fun hi => (lowest (spanValues s slots a b Role.isThick)).map (fun lo => hi - lo)),
      widthDeviation k.nominalWidth (spanValues s slots a b (fun x => x == .width)),
      some ((zones.filter Zone.isDefect).length : Int), some ((((zones.filter Zone.isDefect).map Zone.severity).foldl max 0 : Nat) : Int),
      some ((zones.filter (fun z => !z.isDefect && z.severity == 0)).length : Int), r.profile.map (fun p => (p.rank : Int)),
      if s.profile.spindles.toList.all (fun p => p.state != .unset) then some (r.tool.toNat : Int) else none,
      meanOf (spanValues s slots a b (fun x => x == .moist)), some ((r.length.getD 0 : Nat) : Int), some (c.id.index : Int)] :
        Vector (Option Int) 14) := by
  have hend : spanEnd s.recipe.banks[c.bank] c = b := by
    unfold spanEnd
    rw [hk, hb]
    rfl
  have hwidth : (s.recipe.banks[c.bank].cut.map CutSection.nominalWidth).getD 0 = k.nominalWidth := by
    rw [hk]
    rfl
  have hseen : r.zones.filter (fun z => (zoneMm s z).overlaps a b) = zones := hz.symm
  unfold reduceFeatures
  simp only [hend, hwidth, ← ha, roleValues_eq_spanValues, hseen]

/-- The places of a vector of 14. -/
theorem getElem_of_eq_14 {f : Vector (Option Int) 14} {a0 a1 a2 a3 a4 a5 a6 a7 a8 a9 a10 a11 a12 a13 : Option Int}
    (h : f = #v[a0, a1, a2, a3, a4, a5, a6, a7, a8, a9, a10, a11, a12, a13]) :
    f[0] = a0 ∧ f[1] = a1 ∧ f[2] = a2 ∧ f[3] = a3 ∧ f[4] = a4 ∧ f[5] = a5 ∧ f[6] = a6 ∧ f[7] = a7 ∧ f[8] = a8 ∧ f[9] = a9 ∧
      f[10] = a10 ∧ f[11] = a11 ∧ f[12] = a12 ∧ f[13] = a13 := by
  subst h
  exact ⟨rfl, rfl, rfl, rfl, rfl, rfl, rfl, rfl, rfl, rfl, rfl, rfl, rfl, rfl⟩

theorem profileRank_eq (p : Option ProfileStatus) :
    (p = none → p.map (fun x => (x.rank : Int)) = none) ∧ (p = some .ok → p.map (fun x => (x.rank : Int)) = some 0) ∧
      (p = some .warn → p.map (fun x => (x.rank : Int)) = some 1) ∧ (p = some .limit → p.map (fun x => (x.rank : Int)) = some 2) := by
  refine ⟨?_, ?_, ?_, ?_⟩ <;>
  · rintro rfl
    rfl

end Sys2Proof.Machine

/-- Settles O27, feature by feature. -/
theorem featuresReduceTheSpan : Obligations.FeaturesReduceTheSpan := by
  unfold Obligations.FeaturesReduceTheSpan
  intro s r slots c k a b f zones widths moist hk ha hb hf hz hw hm
  obtain ⟨h0, h1, h2, h3, h4, h5, h6, h7, h8, h9, h10, h11, h12, h13⟩ := getElem_of_eq_14 (hf.trans (reduceFeatures_eq hk ha hb hz))
  rw [h0, h1, h2, h3, h4, h5, h6, h7, h8, h9, h10, h11, h12, h13, ← hw, ← hm]
  refine ⟨rfl, rfl, rfl, rfl, lowest_isLowest _, highest_isHighest _, fun h => ?_, fun lo hi h h' => ?_, highest_isHighest _, ?_,
    ⟨_, rfl, defect_severity_spec zones⟩, ?_, profileRank_eq r.profile, fun ⟨i, hi⟩ => ?_, fun h => ?_, fun h => ?_, meanOf_of_ne⟩
  · rw [h]
    cases highest (spanValues s slots a b Role.isThick) <;> rfl
  · rw [h, h']
    rfl
  · rw [← List.countP_eq_length_filter]
    rw [funext Zone.isDefect_eq]
  · rw [← List.countP_eq_length_filter]
    simp only [Zone.isGauge_eq]
  · rw [if_neg fun h => (toolKnown_iff s.profile.spindles).mp h i hi]
  · rw [if_pos ((toolKnown_iff s.profile.spindles).mpr h)]
    cases r.tool <;> rfl
  · rw [h]
    rfl
end

