-- ==== Sys2Proof/Proofs/BundlesAndLabels.lean ====
section
/-! PROOFS. The opening of bundles, the labels and the messages of the labeller (chapter 9), and the dispatch of the head label. -/

namespace Sys2Proof.Machine

/-! ### What a change of the link alone leaves -/

theorem LinkOnly.motion {s t : State} (h : LinkOnly s t) : t.motion = s.motion := by
  rw [h.eq]

theorem LinkOnly.line {s t : State} (h : LinkOnly s t) : t.line = s.line := by
  rw [h.eq]

theorem LinkOnly.belt {s t : State} (h : LinkOnly s t) : t.belt = s.belt := by
  rw [h.eq]

theorem LinkOnly.scan {s t : State} (h : LinkOnly s t) : t.scan = s.scan := by
  rw [h.eq]

theorem LinkOnly.profile {s t : State} (h : LinkOnly s t) : t.profile = s.profile := by
  rw [h.eq]

theorem LinkOnly.planner {s t : State} (h : LinkOnly s t) : t.planner = s.planner := by
  rw [h.eq]

theorem LinkOnly.saw {s t : State} (h : LinkOnly s t) : t.saw = s.saw := by
  rw [h.eq]

theorem LinkOnly.grade {s t : State} (h : LinkOnly s t) : t.grade = s.grade := by
  rw [h.eq]

theorem LinkOnly.referral {s t : State} (h : LinkOnly s t) : t.referral = s.referral := by
  rw [h.eq]

theorem LinkOnly.cuttings {s t : State} (h : LinkOnly s t) : t.cuttings = s.cuttings := by
  rw [h.eq]

theorem LinkOnly.chain {s t : State} (h : LinkOnly s t) : t.chain = s.chain := by
  rw [h.eq]

theorem LinkOnly.bundles {s t : State} (h : LinkOnly s t) : t.bundles = s.bundles := by
  rw [h.eq]

theorem LinkOnly.label {s t : State} (h : LinkOnly s t) : t.label = s.label := by
  rw [h.eq]

theorem LinkOnly.recipe {s t : State} (h : LinkOnly s t) : t.recipe = s.recipe := by
  rw [h.eq]

theorem LinkOnly.config {s t : State} (h : LinkOnly s t) : t.config = s.config := by
  rw [h.eq]

theorem LinkOnly.inForce {s t : State} (h : LinkOnly s t) : t.inForce = s.inForce := by
  rw [h.eq]

theorem LinkOnly.inReset {s t : State} (h : LinkOnly s t) : t.inReset = s.inReset := by
  rw [h.eq]

theorem LinkOnly.freeCount {s t : State} (h : LinkOnly s t) : t.freeCount = s.freeCount := by
  rw [h.eq]

theorem LinkOnly.pending {s t : State} (h : LinkOnly s t) : t.pending = s.pending := by
  rw [h.eq]

/-! ### Bins and the opening of a bundle (R154) -/

@[simp] theorem mapBin_bin_self (b : Bin) (f : BinRecord → BinRecord) (s : State) : (mapBin b f s).bundles.bins[b] = f s.bundles.bins[b] :=
  setAt_self _ _ _

theorem mapBin_bin_other {b b' : Bin} (h : b' ≠ b) (f : BinRecord → BinRecord) (s : State) :
    (mapBin b f s).bundles.bins[b'] = s.bundles.bins[b'] := setAt_other _ _ h.symm

theorem setAt_setAt {α : Type} {n : Nat} (v : Vector α n) (i : Fin n) (x y : α) : setAt (setAt v i x) i y = setAt v i y := by
  unfold setAt
  exact Vector.set_set ..

theorem mapBin_mapBin (b : Bin) (f g : BinRecord → BinRecord) (s : State) : mapBin b g (mapBin b f s) = mapBin b (fun r => g (f r)) s := by
  unfold mapBin
  simp only [setAt_setAt, setAt_self]

/-- The plan for a bin is read from the recipes alone. -/
theorem planFor_congr {s t : State} (h : t.recipe = s.recipe) (b : Bin) : planFor t b = planFor s b := by
  unfold planFor activeBank
  rw [h]

@[simp] theorem planFor_mapBin (b b' : Bin) (f : BinRecord → BinRecord) (s : State) : planFor (mapBin b f s) b' = planFor s b' :=
  planFor_congr rfl b'

theorem openBundle_of_none {s : State} {b : Bin} (h : planFor s b = none) :
    openBundle b s = mapBin b (fun r => { r with state := .idle, bundle := none }) s := by
  unfold openBundle
  rw [h]

theorem openBundle_of_some {s : State} {b : Bin} {k : BankId} {e : BinPlan} (h : planFor s b = some (k, e)) :
    (openBundle b s).bundles = { s.bundles with
        bins := setAt s.bundles.bins b { s.bundles.bins[b] with state := .opened, bundle := some (newBundle s b k e) } } ∧
      (openBundle b s).label = { s.label with nextNumber := nextBundleNumber s.label.nextNumber } ∧
      (openBundle b s).recipe = { s.recipe with
        banks := setAt s.recipe.banks k { s.recipe.banks[k] with bundles := s.recipe.banks[k].bundles + 1 } } := by
  unfold openBundle
  rw [h]
  exact ⟨rfl, rfl, rfl⟩

/-- An opening touches no other bin, and of the labels the next number alone. -/
theorem openBundle_bin_other {b b' : Bin} (h : b' ≠ b) (s : State) : (openBundle b s).bundles.bins[b'] = s.bundles.bins[b'] := by
  cases hp : planFor s b with
  | none =>
    rw [openBundle_of_none hp]
    exact mapBin_bin_other h _ s
  | some p =>
    rw [(openBundle_of_some hp).1]
    exact setAt_other _ _ h.symm

theorem openBundle_label (b : Bin) (s : State) : ∃ n, (openBundle b s).label = { s.label with nextNumber := n } := by
  cases hp : planFor s b with
  | none =>
    rw [openBundle_of_none hp]
    exact ⟨_, rfl⟩
  | some p => exact ⟨_, (openBundle_of_some hp).2.1⟩

theorem openBundle_cuttings (b : Bin) (s : State) : (openBundle b s).cuttings = s.cuttings := by
  rw [(openBundle_binsOnly b s).eq]

theorem floorClears_waiting {s : State} {b : Bin} (h : s.bundles.bins[b].state ≠ .clearing) :
    floorClears b s = mapBin b (fun r => { r with emptyLevel := true }) s := by
  unfold floorClears
  rw [if_neg h]

theorem floorClears_clearing {s : State} {b : Bin} (h : s.bundles.bins[b].state = .clearing) :
    floorClears b s = openBundle b (mapBin b (fun r => { r with emptyLevel := true }) s) := by
  unfold floorClears
  rw [if_pos h]

end Sys2Proof.Machine

open Sys2Proof Sys2Proof.Machine

/-- Settles O41, by the bin's state and its plan. -/
theorem binEmptyOpensTheNextBundle : Obligations.BinEmptyOpensTheNextBundle := by
  unfold Obligations.BinEmptyOpensTheNextBundle
  refine ⟨fun s b hr => exec_binEmptyInactive b hr, fun s b hr hl => ?_⟩
  have hexec : exec (.binEmptyActive b) s = .next (floorClears b s) := by
    rw [exec_binEmptyActive b hr, if_neg (by rw [hl]; nofun)]
  rw [hexec]
  refine ⟨fun hc => by rw [floorClears_waiting hc]; rfl, fun hc hp => ?_, fun k e hc hp => ?_⟩
  · rw [floorClears_clearing hc, openBundle_of_none ((planFor_mapBin b b _ s).trans hp), mapBin_mapBin]
    rfl
  · obtain ⟨hbundles, hlabel, hrecipe⟩ := openBundle_of_some
      ((planFor_mapBin b b (fun r => { r with emptyLevel := true }) s).trans hp)
    rw [floorClears_clearing hc]
    refine ⟨_, newBundle (mapBin b (fun r => { r with emptyLevel := true }) s) b k e, rfl, ?_, rfl, rfl, rfl, rfl, rfl, rfl, rfl, rfl, rfl, rfl, rfl, rfl,
      hlabel, hrecipe⟩
    rw [hbundles, mapBin_bin_self]
    show ({ s.bundles with bins := setAt (setAt _ b _) b _ } : BundleTable) = _
    rw [setAt_setAt]

namespace Sys2Proof.Machine

/-! ### The PRINT (R179) -/

theorem tryPrint_of_empty {s : State} (h : s.label.queue = []) : tryPrint s = s := by
  unfold tryPrint
  rw [h]

theorem tryPrint_begins {s : State} {h : LabelRecord} {rest : List LabelRecord} (hq : s.label.queue = h :: rest)
    (hc : s.label.head = .waitReady ∧ s.label.readyFlag = true ∧ s.label.printing = none) :
    tryPrint s = { s with label := { s.label with printing := some { label := h, forHead := true }, readyFlag := false } } := by
  unfold tryPrint
  rw [hq]
  exact if_pos hc

theorem tryPrint_of_head {s : State} (h : s.label.head ≠ .waitReady) : tryPrint s = s := by
  unfold tryPrint
  split
  · rfl
  · rw [if_neg fun hc => h hc.1]

theorem tryPrint_of_not_ready {s : State} (h : s.label.readyFlag = false) : tryPrint s = s := by
  unfold tryPrint
  split
  · rfl
  · rw [if_neg fun hc => absurd (hc.2.1.symm.trans h) nofun]

theorem tryPrint_waits {s : State} (h : ¬(s.label.head = .waitReady ∧ s.label.readyFlag = true ∧ s.label.printing = none)) :
    tryPrint s = s := by
  unfold tryPrint
  split
  · rfl
  · rw [if_neg h]

/-- A PRINT that begins touches the transmitter and the ready flag alone. -/
theorem tryPrint_label (s : State) : ∃ p f, tryPrint s = { s with label := { s.label with printing := p, readyFlag := f } } := by
  cases hq : s.label.queue with
  | nil => exact ⟨_, _, tryPrint_of_empty hq⟩
  | cons h rest =>
    by_cases hc : s.label.head = .waitReady ∧ s.label.readyFlag = true ∧ s.label.printing = none
    · exact ⟨_, _, tryPrint_begins hq hc⟩
    · exact ⟨_, _, tryPrint_waits hc⟩

theorem takeReady_other {f : Byte} (h : 1 < f.toNat) (s : State) : takeReady f s = labelFrameFault 4 s := by
  unfold takeReady
  rw [if_neg, if_neg]
  · rintro rfl
    exact absurd h (by decide)
  · rintro rfl
    exact absurd h (by decide)

theorem printOut_head {s : State} {j : PrintJob} (hj : s.label.printing = some j) (hf : j.forHead = true) :
    printOut s = { s with label := { s.label with printing := none, head := .sent } } := by
  unfold printOut
  rw [hj]
  dsimp only
  rw [if_pos hf, tryPrint_of_head (show HeadState.sent ≠ .waitReady from nofun)]

/-! ### Messages about the head (R180 to R185) -/

theorem isHead_cons {s : State} {h : LabelRecord} {rest : List LabelRecord} (hq : s.label.queue = h :: rest) (q : Word) :
    isHead s q = (h.number == q) := by
  unfold isHead
  rw [hq]

theorem isHead_eq_false {s : State} {q : Word} (h : ∀ h rest, s.label.queue = h :: rest → h.number ≠ q) : isHead s q = false := by
  unfold isHead
  split
  · rfl
  · rename_i hq
    exact beq_eq_false_iff_ne.mpr (h _ _ hq)

theorem takeAccept_other {s : State} {q : Word} (h : isHead s q = false) : takeAccept q s = s := by
  unfold takeAccept
  rw [h]
  exact if_neg nofun

theorem takeAccept_passed {s : State} {q : Word} (h : s.label.head = .waitReady ∨ s.label.head = .accepted ∨
    (∃ cause code, s.label.head = .faulted cause code ∧ cause ≠ .acceptTimeout)) : takeAccept q s = s := by
  unfold takeAccept
  obtain h | h | ⟨cause, code, h, hc⟩ := h
  · rw [h]
    exact ite_self _
  · rw [h]
    exact ite_self _
  · rw [h]
    cases cause
    · contradiction
    · exact ite_self _
    · exact ite_self _

theorem takeAccept_taken {s : State} {q : Word} (hq : isHead s q = true)
    (h : s.label.head = .sent ∨ ∃ code, s.label.head = .faulted .acceptTimeout code) : takeAccept q s = acceptHead s := by
  unfold takeAccept
  rw [if_pos hq]
  obtain h | ⟨code, h⟩ := h <;> rw [h]

theorem acceptHead_cons {s : State} {h : LabelRecord} {rest : List LabelRecord} (hq : s.label.queue = h :: rest) :
    acceptHead s = giveDump h.bin { s with label := { s.label with head := .accepted } } := by
  unfold acceptHead headBin
  rw [hq]
  rfl

theorem giveDump_given {s : State} (b : Bin) (h : s.label.dumped = true) : giveDump b s = s := by
  unfold giveDump
  rw [if_pos h]

theorem giveDump_pulse {s : State} (b : Bin) (h : s.label.dumped = false) (he : s.line.state ≠ .estop) :
    giveDump b s = { s with label := { s.label with dumped := true, dumpHigh := setAt s.label.dumpHigh b true } } := by
  unfold giveDump
  rw [if_neg (by rw [h]; nofun), if_neg he]

theorem giveDump_owed {s : State} (b : Bin) (h : s.label.dumped = false) (he : s.line.state = .estop) :
    giveDump b s = { s with label := { s.label with dumped := true, owed := setAt s.label.owed b true } } := by
  unfold giveDump
  rw [if_neg (by rw [h]; nofun), if_pos he]

end Sys2Proof.Machine

/-- Settles O45, message by message. -/
theorem readyPrintsAndAcceptDumps : Obligations.ReadyPrintsAndAcceptDumps := by
  unfold Obligations.ReadyPrintsAndAcceptDumps
  refine ⟨fun s hr => exec_ready 0 hr, fun s hr hq => ?_, fun s h rest hr hq hh hp => ?_, fun s f hr hf => ?_, fun s j hr hj hf => ?_,
    fun s q h rest hr hq => ⟨fun hn => ?_, fun hn hh => ?_, fun hn hh => ?_⟩⟩
  · rw [exec_ready 1 hr]
    exact congrArg _ (tryPrint_of_empty (s := { labelHunt s with label := { s.label with readyFlag := true } }) hq)
  · rw [exec_ready 1 hr]
    exact congrArg _ (tryPrint_begins (s := { labelHunt s with label := { s.label with readyFlag := true } }) hq ⟨hh, rfl, hp⟩)
  · rw [exec_ready f hr, takeReady_other hf]
    rfl
  · rw [exec_printSent hr, printOut_head hj hf]
  · rw [exec_accept q hr, takeAccept_other]
    · rfl
    · exact (isHead_cons hq q).trans (beq_eq_false_iff_ne.mpr hn)
  · rw [exec_accept q hr]
    exact congrArg _ (takeAccept_passed (s := labelHunt s) hh)
  · have haccept : takeAccept q (labelHunt s) = giveDump h.bin { labelHunt s with label := { s.label with head := .accepted } } := by
      refine (takeAccept_taken (s := labelHunt s) ?_ hh).trans (acceptHead_cons hq)
      exact (isHead_cons hq q).trans (beq_iff_eq.mpr hn)
    rw [exec_accept q hr, haccept]
    exact ⟨fun hd => congrArg _ (giveDump_given h.bin hd), fun hd he => congrArg _ (giveDump_pulse h.bin hd he),
      fun hd he => congrArg _ (giveDump_owed h.bin hd he)⟩

namespace Sys2Proof.Machine

/-! ### The head FAULTED (R184) -/

theorem faultHead_cons {s : State} {h : LabelRecord} {rest : List LabelRecord} (hq : s.label.queue = h :: rest) (cause : LabelCause)
    (code : Byte) : faultHead cause code s = offer (.label (.faulted h.number h.bin cause code s.label.dumped) s.link.clock)
      (logFault .label cause.faultCode (cause.detail code) (.bundle h.number) 0
        { s with label := { s.label with head := .faulted cause code } }) := by
  unfold faultHead
  rw [hq]
  dsimp only
  rw [(logFault_linkOnly _ _ _ _ _ _).link.clock]

theorem takeLabelFault_taken {s : State} {q : Word} {code : Byte} (hc : code ≠ 0) (hq : isHead s q = true)
    (h : s.label.head = .sent ∨ s.label.head = .accepted) : takeLabelFault q code s = faultHead .labeller code s := by
  unfold takeLabelFault
  rw [if_neg hc, if_pos hq]
  obtain h | h := h <;> rw [h]

end Sys2Proof.Machine

/-- Settles O47, by what puts the head into FAULTED. -/
theorem headBecomesFaulted : Obligations.HeadBecomesFaulted := by
  unfold Obligations.HeadBecomesFaulted
  intro s h rest hr hq
  refine ⟨fun code hc hh => ?_, fun hh => ?_, fun hh => ?_, fun hh => ?_, fun hh => ?_⟩
  · rw [exec_fault h.number code hr]
    have hhead : isHead (labelHunt s) h.number = true := (isHead_cons hq _).trans (beq_self_eq_true _)
    exact congrArg _ ((takeLabelFault_taken hc hhead hh).trans (faultHead_cons (s := labelHunt s) hq .labeller code))
  · rw [exec_acceptTimerExpiry hr, if_pos hh, faultHead_cons hq]
    rfl
  · rw [exec_appliedTimerExpiry hr, if_pos hh, faultHead_cons hq]
    rfl
  · rw [exec_acceptTimerExpiry hr, if_neg hh]
  · rw [exec_appliedTimerExpiry hr, if_neg hh]

namespace Sys2Proof.Machine

/-! ### Requests of the Label Unit (R186, R187, R189) -/

theorem judgeHead_zero (f : State → State) (s : State) : judgeHead f [((0 : Word).toNat : Int)] s = refuse (.field 0) s := rfl

theorem natCast_toNat_ne_zero {n : Word} (h : n ≠ 0) : ¬(n.toNat : Int) = 0 := by
  rw [Int.natCast_eq_zero]
  exact fun e => h (BitVec.eq_of_toNat_eq e)

theorem judgeHead_of_ne {n : Word} (h : n ≠ 0) (f : State → State) (s : State) :
    judgeHead f [(n.toNat : Int)] s = if isHead s n then judgeHead f [(n.toNat : Int)] s else refuse .notfound s := by
  unfold judgeHead
  rw [fld_head, if_neg (natCast_toNat_ne_zero h), ofInt_toNat]
  by_cases hq : isHead s n = true
  · rw [if_pos hq, if_pos hq]
  · rw [if_neg hq, if_neg hq]

theorem judgeHead_other {n : Word} {s : State} (f : State → State) (hn : n ≠ 0) (hq : isHead s n = false) :
    judgeHead f [(n.toNat : Int)] s = refuse .notfound s := by
  rw [judgeHead_of_ne hn, if_neg (by rw [hq]; nofun)]

theorem judgeHead_state {n : Word} {s : State} (f : State → State) (hn : n ≠ 0) (hq : isHead s n = true)
    (hh : ∀ cause code, s.label.head ≠ .faulted cause code) : judgeHead f [(n.toNat : Int)] s = refuse .state s := by
  unfold judgeHead
  rw [fld_head, if_neg (natCast_toNat_ne_zero hn), ofInt_toNat, if_pos hq]
  split
  · rename_i hf
    exact absurd hf (hh _ _)
  all_goals rfl

theorem judgeHead_taken {n : Word} {s : State} {cause : LabelCause} {code : Byte} (f : State → State) (hn : n ≠ 0) (hq : isHead s n = true)
    (hh : s.label.head = .faulted cause code) : judgeHead f [(n.toNat : Int)] s = okay (f s) := by
  unfold judgeHead
  rw [fld_head, if_neg (natCast_toNat_ne_zero hn), ofInt_toNat, if_pos hq, hh]

theorem timeLeft_le {s : State} {x : Nat} (h : timeLeft s = some x) :
    s.label.head = .sent ∧ x ≤ 250 ∨ s.label.head = .accepted ∧ x ≤ 20000 := by
  unfold timeLeft at h
  split at h
  · contradiction
  · obtain ⟨m, hm, rfl⟩ := Option.map_eq_some_iff.mp h
    have hle : Config.timeLeftMs s.freeCount % (m + 1) ≤ m := Nat.le_of_lt_succ (Nat.mod_lt _ (Nat.succ_pos m))
    unfold HeadState.timerLimit at hm
    split at hm
    · exact .inl ⟨‹_›, by rw [Option.some.inj hm]; exact (Option.some.inj hm) ▸ hle⟩
    · exact .inr ⟨‹_›, by rw [Option.some.inj hm]; exact (Option.some.inj hm) ▸ hle⟩
    · contradiction
    · contradiction

theorem readLabelsAnswer_eq (fs : List Int) (s : State) : ∃ n, readLabelsAnswer fs s = okayWith (.labels (labelsView s)) { s with freeCount := n } := by
  unfold readLabelsAnswer
  split
  · exact ⟨_, rfl⟩
  · exact ⟨s.freeCount, rfl⟩

end Sys2Proof.Machine

/-- Settles O48. -/
theorem labelRetryAndReadLabels : Obligations.LabelRetryAndReadLabels := by
  unfold Obligations.LabelRetryAndReadLabels
  refine ⟨fun s r n ha hk hb => ?_, fun s r ha hk hb => ?_⟩
  · have answer {t : State} {st : Status} (hf : judgeHead retryHead [(n.toNat : Int)] s = ⟨t, st, .none⟩) :
        exec .labelRetry s = .next (reply r st .none t) := exec_answered_fields ha exec_labelRetry hk (parseFields_word hb) hf
    refine ⟨fun hn => answer (by rw [hn]; rfl), fun hn hq => answer (judgeHead_other _ hn (isHead_eq_false hq)), fun h rest hn hq he => ?_⟩
    have hhead : isHead s n = true := (isHead_cons hq n).trans (beq_iff_eq.mpr he)
    refine ⟨fun hh => answer (judgeHead_state _ hn hhead hh), fun cause code hh hf => answer ?_⟩
    rw [judgeHead_taken _ hn hhead hh]
    refine congrArg okay (tryPrint_of_not_ready ?_)
    exact hf
  · obtain ⟨n, hn⟩ := readLabelsAnswer_eq [] s
    refine ⟨labelsView s, n, exec_answered_fields ha exec_readLabels hk (parseFields_empty hb) hn, rfl, rfl, rfl, rfl, rfl, rfl,
      fun h rest hq => ?_, fun hq => ⟨?_, ?_⟩, fun x hx => timeLeft_le hx⟩
    · show s.label.queue.head?.map _ = _
      rw [hq]
      rfl
    · show s.label.queue.head?.map _ = _
      rw [hq]
      rfl
    · show timeLeft s = none
      unfold timeLeft
      rw [hq]
      rfl
end

