-- ==== Sys2Proof/Proofs/Dispatch.lean ====
section
/-! PROOFS. How the head label leaves the queue (R155, R163, R164, R181, R183, R187): its dump, its bin, and the oldest CLOSING bundle that takes
the place. -/

namespace Sys2Proof.Machine

/-! ### The bin of the label (R155, R164) -/

/-- The bin is CLEARING, with its notice, and with the floor clear already the next bundle opens. -/
theorem dispatchBin_eq (b : Bin) (o : Outcome) (s : State) : ∃ u, LinkOnly (mapBin b (fun r => { r with state := .clearing }) s) u ∧
    dispatchBin b o s = if s.bundles.bins[b].emptyLevel then openBundle b u else u := by
  cases hb : s.bundles.bins[b].bundle with
  | none =>
    refine ⟨mapBin b (fun r => { r with state := .clearing }) s, LinkOnly.refl _, ?_⟩
    have hb' : (mapBin b (fun r => { r with state := .clearing }) s).bundles.bins[b].bundle = none := by rw [mapBin_bin_self, hb]
    unfold dispatchBin
    dsimp only
    rw [hb', mapBin_bin_self]
  | some bu =>
    refine ⟨bundleNotice (.dispatched o) b bu .clearing (mapBin b (fun r => { r with state := .clearing }) s), bundleNotice_linkOnly _ _ _ _ _, ?_⟩
    have hb' : (mapBin b (fun r => { r with state := .clearing }) s).bundles.bins[b].bundle = some bu := by rw [mapBin_bin_self, hb]
    unfold dispatchBin
    dsimp only
    rw [hb']
    dsimp only
    unfold bundleNotice
    rw [offer_bundles, mapBin_bin_self]

theorem dispatchBin_waits {s : State} {b : Bin} (o : Outcome) (h : s.bundles.bins[b].emptyLevel = false) :
    (dispatchBin b o s).bundles.bins[b] = { s.bundles.bins[b] with state := .clearing } ∧ (dispatchBin b o s).recipe = s.recipe := by
  obtain ⟨u, hu, he⟩ := dispatchBin_eq b o s
  rw [he, h, if_neg nofun, hu.bundles, hu.recipe]
  exact ⟨mapBin_bin_self _ _ _, rfl⟩

theorem dispatchBin_idles {s : State} {b : Bin} (o : Outcome) (h : s.bundles.bins[b].emptyLevel = true) (hp : planFor s b = none) :
    (dispatchBin b o s).bundles.bins[b].state = .idle ∧ (dispatchBin b o s).bundles.bins[b].bundle = none := by
  obtain ⟨u, hu, he⟩ := dispatchBin_eq b o s
  have hpu : planFor u b = none := (planFor_congr (s := s) hu.recipe b).trans hp
  rw [he, if_pos h, openBundle_of_none hpu, mapBin_bin_self]
  exact ⟨rfl, rfl⟩

theorem dispatchBin_opens {s : State} {b : Bin} {k : BankId} {e : BinPlan} (o : Outcome) (h : s.bundles.bins[b].emptyLevel = true)
    (hp : planFor s b = some (k, e)) : (dispatchBin b o s).bundles.bins[b].state = .opened ∧
      ∃ bu, (dispatchBin b o s).bundles.bins[b].bundle = some bu ∧ bu.number = s.label.nextNumber ∧ bu.spec = e ∧ bu.count = 0 := by
  obtain ⟨u, hu, he⟩ := dispatchBin_eq b o s
  have hpu : planFor u b = some (k, e) := (planFor_congr (s := s) hu.recipe b).trans hp
  rw [he, if_pos h, (openBundle_of_some hpu).1, setAt_self]
  refine ⟨rfl, newBundle u b k e, rfl, ?_, rfl, rfl⟩
  show u.label.nextNumber = _
  rw [hu.label]
  rfl

theorem dispatchBin_bin_other {b b' : Bin} (h : b' ≠ b) (o : Outcome) (s : State) :
    (dispatchBin b o s).bundles.bins[b'] = s.bundles.bins[b'] := by
  obtain ⟨u, hu, he⟩ := dispatchBin_eq b o s
  have hother : u.bundles.bins[b'] = s.bundles.bins[b'] := by
    rw [hu.bundles]
    exact mapBin_bin_other h _ s
  rw [he]
  split
  · rw [openBundle_bin_other h, hother]
  · exact hother

theorem dispatchBin_label (b : Bin) (o : Outcome) (s : State) : ∃ n, (dispatchBin b o s).label = { s.label with nextNumber := n } := by
  obtain ⟨u, hu, he⟩ := dispatchBin_eq b o s
  have hlabel : u.label = s.label := hu.label
  rw [he]
  split
  · obtain ⟨n, hn⟩ := openBundle_label b u
    exact ⟨n, by rw [hn, hlabel]⟩
  · exact ⟨s.label.nextNumber, hlabel⟩

theorem dispatchBin_cuttings (b : Bin) (o : Outcome) (s : State) : (dispatchBin b o s).cuttings = s.cuttings := by
  obtain ⟨u, hu, he⟩ := dispatchBin_eq b o s
  have hcut : u.cuttings = s.cuttings := hu.cuttings
  rw [he]
  split
  · rw [openBundle_cuttings, hcut]
  · exact hcut

/-- The bin of a label that has left is not CLOSING. -/
theorem dispatchBin_not_closing (b : Bin) (o : Outcome) (s : State) : (dispatchBin b o s).bundles.bins[b].state ≠ .closing := by
  cases h : s.bundles.bins[b].emptyLevel with
  | false =>
    rw [(dispatchBin_waits o h).1]
    nofun
  | true =>
    cases hp : planFor s b with
    | none =>
      rw [(dispatchBin_idles o h hp).1]
      nofun
    | some p =>
      rw [(dispatchBin_opens o h hp).1]
      nofun

/-! ### The oldest CLOSING bundle (R163) -/

theorem closingSeq_eq_some {s : State} {b : Bin} {q : Nat} (h : closingSeq s b = some q) :
    s.bundles.bins[b].state = .closing ∧ ∃ bu, s.bundles.bins[b].bundle = some bu ∧ bu.closeSeq = some q := by
  unfold closingSeq at h
  split at h
  · rename_i hc
    obtain ⟨bu, hb, hq⟩ := Option.bind_eq_some_iff.mp h
    exact ⟨hc, bu, hb, hq⟩
  · contradiction

theorem closingSeq_of_closing {s : State} {b : Bin} {bu : Bundle} {q : Nat} (hc : s.bundles.bins[b].state = .closing)
    (hb : s.bundles.bins[b].bundle = some bu) (hq : bu.closeSeq = some q) : closingSeq s b = some q := by
  unfold closingSeq
  rw [if_pos hc, hb]
  exact hq

/-- The best so far holds its own close sequence, and none of the bins looked at has a lower one. -/
def BestClosing (s : State) (seen : List Bin) : Option (Bin × Nat) → Prop
  | none => ∀ b ∈ seen, closingSeq s b = none
  | some (c, p) => closingSeq s c = some p ∧ ∀ b ∈ seen, ∀ q, closingSeq s b = some q → p ≤ q

theorem olderClosing_best {s : State} {seen : List Bin} {best : Option (Bin × Nat)} (h : BestClosing s seen best) (b : Bin) :
    BestClosing s (seen ++ [b]) (olderClosing s best b) := by
  unfold olderClosing
  cases hq : closingSeq s b with
  | none =>
    cases best with
    | none =>
      intro x hx
      obtain hx | hx := List.mem_append.mp hx
      · exact h x hx
      · rwa [List.mem_singleton.mp hx]
    | some p =>
      refine ⟨h.1, fun x hx q hxq => ?_⟩
      obtain hx | hx := List.mem_append.mp hx
      · exact h.2 x hx q hxq
      · rw [List.mem_singleton.mp hx, hq] at hxq
        contradiction
  | some q =>
    cases best with
    | none =>
      refine ⟨hq, fun x hx p hxp => ?_⟩
      obtain hx | hx := List.mem_append.mp hx
      · rw [h x hx] at hxp
        contradiction
      · rw [List.mem_singleton.mp hx, hq] at hxp
        exact (Option.some.inj hxp).le
    | some c =>
      obtain ⟨c, p⟩ := c
      dsimp only
      split
      · refine ⟨hq, fun x hx r hxr => ?_⟩
        obtain hx | hx := List.mem_append.mp hx
        · have := h.2 x hx r hxr
          omega
        · rw [List.mem_singleton.mp hx, hq] at hxr
          exact (Option.some.inj hxr).le
      · refine ⟨h.1, fun x hx r hxr => ?_⟩
        obtain hx | hx := List.mem_append.mp hx
        · exact h.2 x hx r hxr
        · rw [List.mem_singleton.mp hx, hq] at hxr
          have := Option.some.inj hxr
          omega

theorem foldl_olderClosing_best {s : State} (l : List Bin) {seen : List Bin} {best : Option (Bin × Nat)} (h : BestClosing s seen best) :
    BestClosing s (seen ++ l) (l.foldl (olderClosing s) best) := by
  induction l generalizing seen best with
  | nil => rwa [List.append_nil]
  | cons b l ih =>
    have := ih (olderClosing_best h b)
    rwa [List.append_assoc, List.singleton_append] at this

theorem mem_allBins : ∀ b : Bin, b ∈ allBins := by decide

theorem oldestClosing_of_none {s : State} (h : ∀ b, closingSeq s b = none) : oldestClosing s = none := by
  have hbest : BestClosing s allBins (allBins.foldl (olderClosing s) none) :=
    foldl_olderClosing_best (seen := []) allBins fun _ hb => absurd hb List.not_mem_nil
  unfold oldestClosing
  cases hf : allBins.foldl (olderClosing s) none with
  | none => rfl
  | some p =>
    rw [hf] at hbest
    exact absurd ((h p.1).symm.trans hbest.1) nofun

theorem oldestClosing_closing {s : State} {b : Bin} (h : oldestClosing s = some b) : s.bundles.bins[b].state = .closing := by
  have hbest : BestClosing s allBins (allBins.foldl (olderClosing s) none) :=
    foldl_olderClosing_best (seen := []) allBins fun _ hb => absurd hb List.not_mem_nil
  obtain ⟨⟨c, p⟩, hf, rfl⟩ := Option.map_eq_some_iff.mp h
  rw [hf] at hbest
  exact (closingSeq_eq_some hbest.1).1

/-- The CLOSING bin whose sequence is below that of every other is the one chosen. -/
theorem oldestClosing_eq {s : State} {c : Bin} {q : Nat} (hc : closingSeq s c = some q)
    (h : ∀ b p, b ≠ c → closingSeq s b = some p → q < p) : oldestClosing s = some c := by
  have hbest : BestClosing s allBins (allBins.foldl (olderClosing s) none) :=
    foldl_olderClosing_best (seen := []) allBins fun _ hb => absurd hb List.not_mem_nil
  unfold oldestClosing
  cases hf : allBins.foldl (olderClosing s) none with
  | none =>
    rw [hf] at hbest
    exact absurd ((hbest c (mem_allBins c)).symm.trans hc) nofun
  | some p =>
    obtain ⟨b, p⟩ := p
    rw [hf] at hbest
    by_cases hbc : b = c
    · rw [hbc]
      rfl
    · have h1 := h b p hbc hbest.1
      have h2 := hbest.2 c (mem_allBins c) q hc
      omega

/-- A label that joins the queue behind a head at rest changes the queue alone (R177). -/
theorem enqueueLabel_resting {s : State} (hh : s.label.head = .waitReady) (hd : s.label.dumped = false) (l : LabelRecord) :
    enqueueLabel l s = { s with label := { s.label with queue := s.label.queue ++ [l] } } := by
  unfold enqueueLabel
  cases hq : s.label.queue with
  | nil =>
    rw [← hh, ← hd]
    rfl
  | cons x l => rfl

theorem enqueueLabel_bundles (l : LabelRecord) (s : State) : (enqueueLabel l s).bundles = s.bundles := by
  unfold enqueueLabel
  split <;> rfl

theorem closingEntry_of_none {s : State} (h : oldestClosing s = none) : closingEntry s = s := by
  unfold closingEntry
  rw [h]

theorem closingEntry_of_some {s : State} {c : Bin} {bu : Bundle} (h : oldestClosing s = some c) (hb : s.bundles.bins[c].bundle = some bu)
    (hroom : s.label.queue.length < Config.labelCapacity) :
    closingEntry s = enqueueLabel (labelOf c bu) (mapBin c (fun r => { r with state := .labelling }) s) := by
  unfold closingEntry
  rw [h]
  dsimp only
  rw [hb]
  exact if_pos (decide_eq_true hroom)

/-- The entry of a CLOSING bundle, or none: only the queue and the bundle's own bin change. -/
theorem closingEntry_cases (s : State) : closingEntry s = s ∨ ∃ c bu, s.bundles.bins[c].state = .closing ∧
    closingEntry s = enqueueLabel (labelOf c bu) (mapBin c (fun r => { r with state := .labelling }) s) := by
  unfold closingEntry
  split
  · exact .inl rfl
  · rename_i c hc
    split
    · exact .inl rfl
    · split
      · exact .inr ⟨c, _, oldestClosing_closing hc, rfl⟩
      · exact .inl rfl

theorem closingEntry_bin {s : State} {b : Bin} (h : s.bundles.bins[b].state ≠ .closing) :
    (closingEntry s).bundles.bins[b] = s.bundles.bins[b] := by
  obtain e | ⟨c, bu, hc, e⟩ := closingEntry_cases s <;> rw [e]
  have hne : b ≠ c := fun hbc => h (hbc ▸ hc)
  rw [enqueueLabel_bundles]
  exact mapBin_bin_other hne _ s

theorem closingEntry_rest {s : State} (hh : s.label.head = .waitReady) (hd : s.label.dumped = false) :
    (∃ q, (closingEntry s).label = { s.label with queue := q }) ∧ (closingEntry s).recipe = s.recipe ∧
      (closingEntry s).cuttings = s.cuttings := by
  obtain e | ⟨c, bu, _, e⟩ := closingEntry_cases s <;> rw [e]
  · exact ⟨⟨_, rfl⟩, rfl, rfl⟩
  · rw [enqueueLabel_resting (s := mapBin c _ s) hh hd]
    exact ⟨⟨_, rfl⟩, rfl, rfl⟩

/-! ### The head leaves -/

/-- The state without its head label: the dump given, the dispatch record written, and for VOIDED the LABEL notice sent (R183, R187). -/
def withoutHead (o : Outcome) (h : LabelRecord) (rest : List LabelRecord) (s : State) : State :=
  let s1 := giveDump h.bin s
  let s2 := { s1 with label := { s1.label with
      queue := rest, head := .waitReady, dumped := false,
      printing := s1.label.printing.map (fun j => { j with forHead := false }),
      dispatch := setAt s1.label.dispatch h.bin (some { number := h.number, outcome := o, clock := s1.link.clock }) } }
  if o = .voided then offer (.label (.voided h.number h.bin) s2.link.clock) s2 else s2

theorem headLeaves_cons {s : State} {h : LabelRecord} {rest : List LabelRecord} (hq : s.label.queue = h :: rest) (o : Outcome) :
    headLeaves o s = tryPrint (closingEntry (dispatchBin h.bin o (withoutHead o h rest s))) := by
  unfold headLeaves
  rw [hq]
  rfl

theorem giveDump_rest (b : Bin) (s : State) : ∃ d p w, giveDump b s = { s with label := { s.label with dumped := d, dumpHigh := p, owed := w } } := by
  unfold giveDump
  split
  · exact ⟨_, _, _, rfl⟩
  · split
    · exact ⟨_, _, _, rfl⟩
    · exact ⟨_, _, _, rfl⟩

/-- Without its head the queue starts anew, and only labels and the link have changed. -/
theorem withoutHead_rest (o : Outcome) (h : LabelRecord) (rest : List LabelRecord) (s : State) :
    (withoutHead o h rest s).bundles = s.bundles ∧ (withoutHead o h rest s).recipe = s.recipe ∧
      (withoutHead o h rest s).cuttings = s.cuttings ∧ (withoutHead o h rest s).label.queue = rest ∧
      (withoutHead o h rest s).label.head = .waitReady ∧ (withoutHead o h rest s).label.dumped = false ∧
      (withoutHead o h rest s).label.nextNumber = s.label.nextNumber ∧
      (withoutHead o h rest s).label.dispatch =
        setAt s.label.dispatch h.bin (some { number := h.number, outcome := o, clock := s.link.clock }) := by
  obtain ⟨d, p, w, hd⟩ := giveDump_rest h.bin s
  unfold withoutHead
  rw [hd]
  cases o <;> exact ⟨rfl, rfl, rfl, rfl, rfl, rfl, rfl, rfl⟩

theorem withoutHead_dumps (o : Outcome) (h : LabelRecord) (rest : List LabelRecord) (s : State) :
    (withoutHead o h rest s).label.dumpHigh = (giveDump h.bin s).label.dumpHigh ∧
      (withoutHead o h rest s).label.owed = (giveDump h.bin s).label.owed := by
  unfold withoutHead
  cases o <;> exact ⟨rfl, rfl⟩

/-- What the dispatch says does not speak of the PRINT that may follow it. -/
theorem HeadDispatched.tryPrint {s c : State} {h : LabelRecord} {rest : List LabelRecord} {o : Outcome} (hd : HeadDispatched s c h rest o) :
    HeadDispatched s (tryPrint c) h rest o := by
  obtain ⟨p, f, hp⟩ := tryPrint_label c
  rw [hp]
  exact hd

/-- The dump that goes with the head's dispatch (R181). -/
theorem giveDump_pulses (b : Bin) (s : State) :
    (s.label.dumped = true → (giveDump b s).label.dumpHigh = s.label.dumpHigh ∧ (giveDump b s).label.owed = s.label.owed) ∧
    (s.label.dumped = false → s.line.state ≠ .estop →
      (giveDump b s).label.dumpHigh = setAt s.label.dumpHigh b true ∧ (giveDump b s).label.owed = s.label.owed) ∧
    (s.label.dumped = false → s.line.state = .estop →
      (giveDump b s).label.dumpHigh = s.label.dumpHigh ∧ (giveDump b s).label.owed = setAt s.label.owed b true) := by
  refine ⟨fun hd => ?_, fun hd he => ?_, fun hd he => ?_⟩
  · rw [giveDump_given b hd]
    exact ⟨rfl, rfl⟩
  · rw [giveDump_pulse b hd he]
    exact ⟨rfl, rfl⟩
  · rw [giveDump_owed b hd he]
    exact ⟨rfl, rfl⟩

/-- The head label leaves the queue as R183 and R187 say. -/
theorem headLeaves_dispatched {s : State} {h : LabelRecord} {rest : List LabelRecord} (hq : s.label.queue = h :: rest) (o : Outcome) :
    HeadDispatched s (headLeaves o s) h rest o := by
  obtain ⟨hbundles, hrecipe, hcuttings, hqueue, hhead, hdumped, hnext, hdispatch⟩ := withoutHead_rest o h rest s
  obtain ⟨hhigh, howed⟩ := withoutHead_dumps o h rest s
  have hpulses := giveDump_pulses h.bin s
  rw [← hhigh, ← howed] at hpulses
  have hplan : planFor (withoutHead o h rest s) h.bin = planFor s h.bin := planFor_congr hrecipe h.bin
  rw [headLeaves_cons hq o]
  refine HeadDispatched.tryPrint ?_
  generalize withoutHead o h rest s = w at *
  obtain ⟨n, hlabel⟩ := dispatchBin_label h.bin o w
  have hwaits := dispatchBin_waits (s := w) (b := h.bin) o
  have hidles := dispatchBin_idles (s := w) (b := h.bin) o
  have hopens := fun k e => dispatchBin_opens (s := w) (b := h.bin) (k := k) (e := e) o
  rw [hbundles, hrecipe] at hwaits
  rw [hbundles, hplan] at hidles
  simp only [hbundles, hplan, hnext] at hopens
  have hclosing := dispatchBin_not_closing h.bin o w
  have hother {b : Bin} (hb : b ≠ h.bin) : (dispatchBin h.bin o w).bundles.bins[b] = s.bundles.bins[b] := by
    rw [dispatchBin_bin_other hb, hbundles]
  have hcut : (dispatchBin h.bin o w).cuttings = s.cuttings := (dispatchBin_cuttings h.bin o w).trans hcuttings
  generalize dispatchBin h.bin o w = d at *
  obtain ⟨⟨q, hentry⟩, herecipe, hecuttings⟩ :=
    closingEntry_rest (s := d) ((congrArg LabelUnit.head hlabel).trans hhead) ((congrArg LabelUnit.dumped hlabel).trans hdumped)
  have hbin := closingEntry_bin hclosing
  unfold HeadDispatched
  refine ⟨?_, ?_, hecuttings.trans hcut, ?_, ?_, ?_, ?_, fun hl => ?_, fun hl => ⟨fun hp => ?_, fun k e hp => ?_⟩, fun hn => ?_,
    fun c bu q' hc hstate hb hseq hmin hroom => ?_⟩
  · rw [hentry, hlabel]
    exact hhead
  · rw [hentry, hlabel]
    exact hdumped
  · rw [hentry, hlabel]
    exact hdispatch
  · rw [hentry, hlabel]
    exact hpulses.1
  · rw [hentry, hlabel]
    exact hpulses.2.1
  · rw [hentry, hlabel]
    exact hpulses.2.2
  · obtain ⟨hb, hr⟩ := hwaits hl
    rw [hbin, herecipe, hb, hr]
    exact ⟨rfl, rfl, rfl⟩
  · rw [hbin]
    exact hidles hl hp
  · rw [hbin]
    exact hopens k e hl hp
  · rw [closingEntry_of_none (oldestClosing_of_none fun b => ?_), hlabel]
    · exact hqueue
    · unfold closingSeq
      by_cases hb : b = h.bin
      · rw [hb, if_neg hclosing]
      · rw [hother hb, if_neg (hn b hb)]
  · have hold : oldestClosing d = some c := by
      refine oldestClosing_eq (closingSeq_of_closing (by rw [hother hc]; exact hstate) (by rw [hother hc]; exact hb) hseq) fun b p hbc hbp => ?_
      obtain ⟨hbstate, x, hx, hxp⟩ := closingSeq_eq_some hbp
      have hbh : b ≠ h.bin := fun e => hclosing (e ▸ hbstate)
      rw [hother hbh] at hbstate hx
      exact hmin b x p hbh hbc hbstate hx hxp
    have hdq : d.label.queue = rest := (congrArg LabelUnit.queue hlabel).trans hqueue
    rw [closingEntry_of_some hold (by rw [hother hc]; exact hb) (by rw [hdq]; exact hroom), enqueueLabel_bundles, mapBin_bin_self, hother hc,
      enqueueLabel_resting (s := mapBin c _ d) ((congrArg LabelUnit.head hlabel).trans hhead) ((congrArg LabelUnit.dumped hlabel).trans hdumped)]
    exact ⟨congrArg (· ++ _) hdq, rfl, hb⟩

end Sys2Proof.Machine

open Sys2Proof Sys2Proof.Machine

/-- Settles O46: both ways the head leaves are one operation. -/
theorem headLabelIsDispatched : Obligations.HeadLabelIsDispatched := by
  unfold Obligations.HeadLabelIsDispatched
  refine ⟨fun s r n ha hk hb => ?_, fun s h rest hr hq => ⟨?_, fun r cause code hreq hk hb hn hh => ?_⟩⟩
  · have answer {t : State} {st : Status} (hf : judgeHead (headLeaves .voided) [(n.toNat : Int)] s = ⟨t, st, .none⟩) :
        exec .labelVoid s = .next (reply r st .none t) := exec_answered_fields ha exec_labelVoid hk (parseFields_word hb) hf
    exact ⟨fun hn => answer (by rw [hn]; rfl), fun hn hq => answer (judgeHead_other _ hn (isHead_eq_false hq)),
      fun h rest hn hq he hh => answer (judgeHead_state _ hn ((isHead_cons hq n).trans (beq_iff_eq.mpr he)) hh)⟩
  · have htake : takeApplied h.number (labelHunt s) = headLeaves .applied (labelHunt s) :=
      if_pos ((isHead_cons (s := labelHunt s) hq _).trans (beq_self_eq_true _))
    rw [exec_applied h.number hr, htake]
    exact ⟨_, rfl, headLeaves_dispatched (s := labelHunt s) hq .applied⟩
  · have hvoid : exec .labelVoid s = .next (reply r .ok .none (headLeaves .voided s)) :=
      exec_answered_fields ⟨hr, hreq⟩ exec_labelVoid hk (parseFields_word hb)
        (judgeHead_taken _ hn ((isHead_cons hq _).trans (beq_self_eq_true _)) hh)
    refine ⟨_, hvoid, headLeaves_dispatched hq .voided, ?_⟩
    show (_ ++ [TxFrame.reply { kind := replyKind r.kind, tag := r.tag, status := .ok, data := .none }]).getLast? = _
    rw [List.getLast?_concat, hk]
    rfl
end

