-- ==== Sys2Proof/Proofs/BinRequests.lean ====
section
/-! PROOFS. The closing of a bundle (R162, R165), and the requests BIN HOLD and CLOSE BUNDLE. -/

namespace Sys2Proof.Machine

/-! ### The closing of a bundle (R162) -/

/-- From s to t bin b alone may have changed its state and its bundle; the notices apart, nothing that a closing reads has. -/
structure BinAlone (b : Bin) (s t : State) : Prop where
  other : ∀ b', b' ≠ b → t.bundles.bins[b'] = s.bundles.bins[b']
  level : t.bundles.bins[b].emptyLevel = s.bundles.bins[b].emptyLevel
  nextClose : t.bundles.nextClose = s.bundles.nextClose
  label : t.label = s.label
  recipe : t.recipe = s.recipe
  clock : t.link.clock = s.link.clock

theorem mapBin_alone {b : Bin} {f : BinRecord → BinRecord} {s : State} (h : (f s.bundles.bins[b]).emptyLevel = s.bundles.bins[b].emptyLevel) :
    BinAlone b s (mapBin b f s) := by
  refine ⟨fun b' hb => mapBin_bin_other hb f s, ?_, rfl, rfl, rfl, rfl⟩
  rw [mapBin_bin_self, h]

theorem BinAlone.link {b : Bin} {s t u : State} (h : BinAlone b s t) (hl : LinkOnly t u) : BinAlone b s u := by
  obtain ⟨other, level, nextClose, label, recipe, clock⟩ := h
  refine ⟨?_, ?_, ?_, hl.label.trans label, hl.recipe.trans recipe, hl.link.clock.trans clock⟩ <;> rwa [hl.bundles]

/-- The bundle as its closing leaves it: with its close sequence, its time and its label's copies (R162, R176). -/
def closedBundle (s : State) (bu : Bundle) : Bundle :=
  { bu with closeSeq := some s.bundles.nextClose, closeTime := some s.link.clock, closure := some (closureOf s bu) }

/-- From s to t bin b closes with the bundle bu (R162): the label queue takes the label, or the bin is CLOSING, and the bank loses the bundle. -/
structure Closes (b : Bin) (bu : Bundle) (s t : State) : Prop where
  bin : t.bundles.bins[b] = { s.bundles.bins[b] with
    state := if s.label.queue.length < Config.labelCapacity then .labelling else .closing
    bundle := some (closedBundle s bu) }
  other : ∀ b', b' ≠ b → t.bundles.bins[b'] = s.bundles.bins[b']
  nextClose : t.bundles.nextClose = s.bundles.nextClose + 1
  bank : t.recipe.banks[bu.bank].bundles = s.recipe.banks[bu.bank].bundles - 1
  queued : s.label.queue.length < Config.labelCapacity → t.label.queue = s.label.queue ++ [labelOf b (closedBundle s bu)]
  full : Config.labelCapacity ≤ s.label.queue.length → t.label.queue = s.label.queue

theorem closedBundle_alone {b : Bin} {s t : State} (h : BinAlone b s t) (bu : Bundle) : closedBundle t bu = closedBundle s bu := by
  unfold closedBundle closureOf
  rw [h.nextClose, h.clock, h.label, h.recipe]

theorem Closes.of_alone {b : Bin} {bu : Bundle} {s t u : State} (h : BinAlone b s t) (hc : Closes b bu t u) : Closes b bu s u := by
  obtain ⟨bin, other, nextClose, bank, queued, full⟩ := hc
  rw [closedBundle_alone h, h.label] at bin queued
  refine ⟨?_, fun b' hb => (other b' hb).trans (h.other b' hb), ?_, ?_, queued, ?_⟩
  · rw [bin]
    dsimp only
    rw [h.level]
  · rw [nextClose, h.nextClose]
  · rw [bank, h.recipe]
  · rwa [h.label] at full

theorem tryPrint_queue (s : State) : (tryPrint s).label.queue = s.label.queue := by
  obtain ⟨p, f, h⟩ := tryPrint_label s
  rw [h]

theorem tryPrint_bundles (s : State) : (tryPrint s).bundles = s.bundles := by
  obtain ⟨p, f, h⟩ := tryPrint_label s
  rw [h]

theorem tryPrint_recipe (s : State) : (tryPrint s).recipe = s.recipe := by
  obtain ⟨p, f, h⟩ := tryPrint_label s
  rw [h]

theorem enqueueLabel_recipe (l : LabelRecord) (s : State) : (enqueueLabel l s).recipe = s.recipe := by
  unfold enqueueLabel
  split <;> rfl

/-- The closing up to its label: the bin, the close number, the bank's count and the notice. -/
theorem closeBundle_eq {b : Bin} {bu : Bundle} {s : State} (h : s.bundles.bins[b].bundle = some bu) :
    ∃ u, closeBundle b s = (if labelRoom s then tryPrint (enqueueLabel (labelOf b (closedBundle s bu)) u) else u) ∧
      u.bundles.bins = setAt s.bundles.bins b { s.bundles.bins[b] with
        state := if labelRoom s then .labelling else .closing
        bundle := some (closedBundle s bu) } ∧
      u.bundles.nextClose = s.bundles.nextClose + 1 ∧
      u.recipe.banks = setAt s.recipe.banks bu.bank { s.recipe.banks[bu.bank] with bundles := s.recipe.banks[bu.bank].bundles - 1 } ∧
      u.label = s.label := by
  unfold closeBundle
  rw [h]
  exact ⟨_, rfl, rfl, rfl, rfl, rfl⟩

theorem closeBundle_closes {b : Bin} {bu : Bundle} {s : State} (h : s.bundles.bins[b].bundle = some bu) : Closes b bu s (closeBundle b s) := by
  obtain ⟨u, he, hbins, hnext, hbanks, hlabel⟩ := closeBundle_eq h
  by_cases hroom : s.label.queue.length < Config.labelCapacity
  · have hr : labelRoom s = true := decide_eq_true hroom
    rw [hr, if_pos rfl] at he
    rw [hr, if_pos rfl] at hbins
    rw [he]
    refine ⟨?_, fun b' hb => ?_, ?_, ?_, fun _ => ?_, fun hf => absurd hf (Nat.not_le_of_lt hroom)⟩
    · rw [tryPrint_bundles, enqueueLabel_bundles, hbins, setAt_self, if_pos hroom]
    · rw [tryPrint_bundles, enqueueLabel_bundles, hbins, setAt_other _ _ hb.symm]
    · rw [tryPrint_bundles, enqueueLabel_bundles, hnext]
    · rw [tryPrint_recipe, enqueueLabel_recipe, hbanks, setAt_self]
    · rw [tryPrint_queue, enqueueLabel_queue, hlabel]
  · have hr : labelRoom s = false := decide_eq_false hroom
    rw [hr, if_neg nofun] at he
    rw [hr, if_neg nofun] at hbins
    rw [he]
    refine ⟨?_, fun b' hb => ?_, hnext, ?_, fun hf => absurd hf hroom, fun _ => by rw [hlabel]⟩
    · rw [hbins, setAt_self, if_neg hroom]
    · rw [hbins, setAt_other _ _ hb.symm]
    · rw [hbanks, setAt_self]

/-- The retiring of a bank changes no bin, no label and no count (R198). -/
theorem retireCheck_rest (k : BankId) (s : State) : (retireCheck k s).bundles = s.bundles ∧ (retireCheck k s).label = s.label ∧
    ∀ j : BankId, ∃ st, (retireCheck k s).recipe.banks[j] = { s.recipe.banks[j] with state := st } := by
  unfold retireCheck
  split
  · refine ⟨rfl, rfl, fun j => ?_⟩
    by_cases h : k = j
    · subst h
      exact ⟨.valid, mapBank_bank k (fun r => { r with state := .valid }) s⟩
    · exact ⟨s.recipe.banks[j].state, setAt_other _ _ h⟩
  · exact ⟨rfl, rfl, fun j => ⟨_, rfl⟩⟩

theorem Closes.retireCheck {b : Bin} {bu : Bundle} {s t : State} (h : Closes b bu s t) (k : BankId) : Closes b bu s (retireCheck k t) := by
  obtain ⟨hbundles, hlabel, hbanks⟩ := retireCheck_rest k t
  obtain ⟨st, hst⟩ := hbanks bu.bank
  obtain ⟨bin, other, nextClose, bank, queued, full⟩ := h
  refine ⟨?_, ?_, ?_, ?_, ?_, ?_⟩
  · rwa [hbundles]
  · rwa [hbundles]
  · rwa [hbundles]
  · rw [hst]
    exact bank
  · rwa [hlabel]
  · rwa [hlabel]

theorem closeTest_closes {b : Bin} {bu : Bundle} {s : State} (h : s.bundles.bins[b].bundle = some bu) (hf : s.bundles.bins[b].state = .filled)
    (hc : bu.count = bu.landedCount) : closeTest b s = closeBundle b s := by
  unfold closeTest
  rw [h]
  exact if_pos ⟨hf, hc⟩

theorem closeTest_of_state {b : Bin} {s : State} (hf : s.bundles.bins[b].state ≠ .filled) : closeTest b s = s := by
  unfold closeTest
  split
  · rfl
  · exact if_neg fun h => hf h.1

theorem closeTest_of_count {b : Bin} {bu : Bundle} {s : State} (h : s.bundles.bins[b].bundle = some bu) (hc : bu.count ≠ bu.landedCount) :
    closeTest b s = s := by
  unfold closeTest
  rw [h]
  exact if_neg fun h => hc h.2

/-- The bundle SHORT and FILLED, before the closure condition (R165). -/
def markShort (b : Bin) (bu : Bundle) (s : State) : State :=
  bundleNotice .filled b { bu with short := true } .filled
    (mapBin b (fun r => { r with state := .filled, bundle := some { bu with short := true } }) s)

theorem markShort_bin (b : Bin) (bu : Bundle) (s : State) :
    (markShort b bu s).bundles.bins[b] = { s.bundles.bins[b] with state := .filled, bundle := some { bu with short := true } } :=
  mapBin_bin_self b (fun r => { r with state := .filled, bundle := some { bu with short := true } }) s

theorem markShort_alone (b : Bin) (bu : Bundle) (s : State) : BinAlone b s (markShort b bu s) :=
  BinAlone.link (mapBin_alone rfl) (bundleNotice_linkOnly _ _ _ _ _)

theorem closeShort_closes {b : Bin} {bu : Bundle} {s : State} (hc : bu.count = bu.landedCount) :
    Closes b { bu with short := true } s (closeShort b bu s) := by
  have hbin := markShort_bin b bu s
  have hb : (markShort b bu s).bundles.bins[b].bundle = some { bu with short := true } := by rw [hbin]
  have hs : (markShort b bu s).bundles.bins[b].state = .filled := by rw [hbin]
  have he : closeShort b bu s = closeBundle b (markShort b bu s) := closeTest_closes hb hs hc
  rw [he]
  exact Closes.of_alone (markShort_alone b bu s) (closeBundle_closes hb)

theorem closeShort_waits {b : Bin} {bu : Bundle} {s : State} (hc : bu.count ≠ bu.landedCount) : closeShort b bu s = markShort b bu s := by
  have hb : (markShort b bu s).bundles.bins[b].bundle = some { bu with short := true } := by rw [markShort_bin]
  exact closeTest_of_count hb hc

theorem retireAfter_of_some {b : Bin} {bu : Bundle} {s : State} (h : s.bundles.bins[b].bundle = some bu) (f : State → State) :
    retireAfter b f s = retireCheck bu.bank (f s) := by
  unfold retireAfter
  rw [h]

/-- A bank that is not RETIRING does not retire after an operation that leaves the recipes. -/
theorem retireAfter_of_state {b : Bin} {bu : Bundle} {s : State} {f : State → State} (h : s.bundles.bins[b].bundle = some bu)
    (hr : (f s).recipe = s.recipe) (hs : s.recipe.banks[bu.bank].state ≠ .retiring) : retireAfter b f s = f s := by
  rw [retireAfter_of_some h, retireCheck_of_state (by rwa [hr])]

end Sys2Proof.Machine

open Sys2Proof Sys2Proof.Machine

namespace Sys2Proof.Machine

/-! ### CLOSE BUNDLE (R165) -/

theorem closeBundleAnswer_bin {n : Nat} {b : Bin} (s : State) (h : b.val + 1 = n) :
    (s.bundles.bins[b].state ≠ .opened → s.bundles.bins[b].state ≠ .filled → closeBundleAnswer [(n : Int)] s = refuse .state s) ∧
      ∀ bu, s.bundles.bins[b].bundle = some bu → s.bundles.bins[b].state = .opened ∨ s.bundles.bins[b].state = .filled →
        closeBundleAnswer [(n : Int)] s = forceClose b bu s := by
  subst h
  unfold closeBundleAnswer
  rw [fld_head, binOfCode_val]
  dsimp only
  refine ⟨fun ho hf => ?_, fun bu hb hs => ?_⟩
  · split
    · exact absurd ‹_› ho
    · exact absurd ‹_› hf
    · rfl
  · rw [hb]
    obtain hs | hs := hs <;> rw [hs]

theorem forceClose_empty {b : Bin} {bu : Bundle} {s : State} (h : bu.landedCount = 0) : forceClose b bu s = refuse .state s := by
  unfold forceClose
  rw [if_pos h]

theorem forceClose_again {b : Bin} {bu : Bundle} {s : State} (hl : bu.landedCount ≠ 0) (hf : s.bundles.bins[b].state = .filled)
    (hs : bu.short = true) : forceClose b bu s = okay (retireAfter b (closeTest b) s) := by
  unfold forceClose
  rw [if_neg hl, if_pos ⟨hf, hs⟩]

theorem forceClose_short {b : Bin} {bu : Bundle} {s : State} (hl : bu.landedCount ≠ 0)
    (h : ¬(s.bundles.bins[b].state = .filled ∧ bu.short = true)) : forceClose b bu s = okay (retireAfter b (closeShort b bu) s) := by
  unfold forceClose
  rw [if_neg hl, if_neg h]

/-- With every piece landed the bundle closes as SHORT, whether it was so already or not. -/
theorem forceClose_closes {b : Bin} {bu : Bundle} {s : State} (hb : s.bundles.bins[b].bundle = some bu) (hl : bu.landedCount ≠ 0)
    (hc : bu.count = bu.landedCount) : ∃ t, forceClose b bu s = okay t ∧ Closes b { bu with short := true } s t := by
  by_cases h : s.bundles.bins[b].state = .filled ∧ bu.short = true
  · refine ⟨_, forceClose_again hl h.1 h.2, ?_⟩
    rw [retireAfter_of_some hb, closeTest_closes hb h.1 hc]
    have hbu : ({ bu with short := true } : Bundle) = bu := by rw [← h.2]
    rw [hbu]
    exact (closeBundle_closes hb).retireCheck bu.bank
  · refine ⟨_, forceClose_short hl h, ?_⟩
    rw [retireAfter_of_some hb]
    exact (closeShort_closes hc).retireCheck bu.bank

end Sys2Proof.Machine

/-- Settles O44, by the bin's state and what has landed. -/
theorem closeBundleByBinState : Obligations.CloseBundleByBinState := by
  unfold Obligations.CloseBundleByBinState
  intro s r n ha hk hb
  have answer {t : State} {st : Status} (hf : closeBundleAnswer [(n.toNat : Int)] s = ⟨t, st, .none⟩) :
      exec .closeBundle s = .next (reply r st .none t) := exec_answered_fields ha exec_closeBundle hk (parseFields_byte hb) hf
  refine ⟨fun h => answer ?_, fun b hbn => ?_⟩
  · rw [closeBundleAnswer, fld_head, binOfCode_outside h]
    rfl
  · obtain ⟨hother, htaken⟩ := closeBundleAnswer_bin s hbn
    refine ⟨fun ho hf => answer (hother ho hf), fun bu hbu hs => ⟨fun hl => answer ?_, fun hl hc hret => ⟨fun hsh => answer ?_, fun hf hsh => answer ?_⟩,
      fun hl hc => ?_⟩⟩
    · rw [htaken bu hbu hs, forceClose_empty hl]
      rfl
    · rw [htaken bu hbu hs, forceClose_short hl (by rintro ⟨hf, ht⟩; rw [hf, ht] at hsh; exact absurd hsh (by decide)),
        retireAfter_of_state hbu (by rw [closeShort_waits hc]; rfl) hret, closeShort_waits hc]
      rfl
    · rw [htaken bu hbu hs, forceClose_again hl hf hsh, retireAfter_of_state hbu (by rw [closeTest_of_count hbu hc]) hret,
        closeTest_of_count hbu hc]
      rfl
    · obtain ⟨t, ht, hclose⟩ := forceClose_closes hbu hl hc
      refine ⟨_, closedBundle s { bu with short := true }, answer ((htaken bu hbu hs).trans ht), ?_, rfl, rfl, rfl, hclose.nextClose, hclose.bank,
        fun hroom => ⟨?_, hclose.queued hroom⟩, fun hfull => ⟨?_, hclose.full hfull⟩⟩
      · rw [reply_bundles, hclose.bin]
      · rw [reply_bundles, hclose.bin, if_pos hroom]
      · rw [reply_bundles, hclose.bin, if_neg (Nat.not_lt_of_le hfull)]

namespace Sys2Proof.Machine

/-! ### BIN HOLD (R168, R169) -/

theorem enterBin_of_some {e : BundleEvent} {b : Bin} {st : BinState} {s : State} {bu : Bundle} (h : s.bundles.bins[b].bundle = some bu) :
    enterBin e b st s = bundleNotice e b bu st (mapBin b (fun r => { r with state := st }) s) := by
  unfold enterBin
  rw [h]

theorem enterBin_bin {e : BundleEvent} {b : Bin} {st : BinState} {s : State} {bu : Bundle} (h : s.bundles.bins[b].bundle = some bu) :
    (enterBin e b st s).bundles.bins[b] = { s.bundles.bins[b] with state := st } := by
  rw [enterBin_of_some h]
  exact mapBin_bin_self b (fun r => { r with state := st }) s

theorem enterBin_alone {e : BundleEvent} {b : Bin} {st : BinState} {s : State} {bu : Bundle} (h : s.bundles.bins[b].bundle = some bu) :
    BinAlone b s (enterBin e b st s) := by
  rw [enterBin_of_some h]
  exact BinAlone.link (mapBin_alone rfl) (bundleNotice_linkOnly _ _ _ _ _)

theorem closeDue_congr {s t : State} (h : t.recipe = s.recipe) (bu : Bundle) : closeDue t bu = closeDue s bu := by
  unfold closeDue activeBank
  rw [h]

theorem closeDue_of_active {s : State} {bu : Bundle} (h : activeBank s = some bu.bank) : closeDue s bu = false := by
  unfold closeDue
  rw [h]
  simp

theorem closeDue_of_unbound {s : State} {bu : Bundle} (h : activeBank s ≠ some bu.bank) (hs : s.recipe.banks[bu.bank].strips = 0)
    (hc : s.recipe.banks[bu.bank].cuttings = 0) : closeDue s bu = true := by
  unfold closeDue
  rw [hs, hc, bne_iff_ne.mpr h]
  rfl

theorem deferredTests_active {b : Bin} {bu : Bundle} {s : State} (h : s.bundles.bins[b].bundle = some bu) (hd : closeDue s bu = false) :
    deferredTests b s = closeTest b s := by
  unfold deferredTests
  rw [h]
  exact if_pos hd

/-- A bundle due for generation close with every piece landed closes as SHORT (R166, R169). -/
theorem deferredTests_closes {b : Bin} {bu : Bundle} {s : State} (h : s.bundles.bins[b].bundle = some bu) (hd : closeDue s bu = true)
    (h0 : bu.count ≠ 0) (hc : bu.count = bu.landedCount) : Closes b { bu with short := true } s (deferredTests b s) := by
  unfold deferredTests
  rw [h]
  dsimp only
  rw [if_neg (by rw [hd]; nofun), if_neg h0]
  split
  · rename_i hf
    rw [closeTest_closes h hf.1 hc]
    have hbu : ({ bu with short := true } : Bundle) = bu := by rw [← hf.2]
    rw [hbu]
    exact closeBundle_closes h
  · exact closeShort_closes hc

theorem deferredTests_discards {b : Bin} {bu : Bundle} {s : State} (h : s.bundles.bins[b].bundle = some bu) (hd : closeDue s bu = true)
    (h0 : bu.count = 0) : deferredTests b s = discardBundle b bu s := by
  unfold deferredTests
  rw [h]
  dsimp only
  rw [if_neg (by rw [hd]; nofun), if_pos h0]

/-- The plan for a bin is read from the states and the plans of the banks. -/
theorem planFor_of_banks {s t : State} (h : ∀ k : BankId, t.recipe.banks[k].state = s.recipe.banks[k].state ∧
    t.recipe.banks[k].bins = s.recipe.banks[k].bins) (b : Bin) : planFor t b = planFor s b := by
  have hactive : activeBank t = activeBank s := by
    unfold activeBank
    simp only [(h _).1]
  unfold planFor
  rw [hactive]
  split
  · rfl
  · rw [(h _).2]

theorem planFor_unbindBundle (k : BankId) (b : Bin) (s : State) :
    planFor (mapBank k (fun r => { r with bundles := r.bundles - 1 }) s) b = planFor s b := by
  refine planFor_of_banks (fun j => ?_) b
  by_cases h : k = j
  · subst h
    rw [mapBank_bank]
    exact ⟨rfl, rfl⟩
  · have hj : (mapBank k (fun r => { r with bundles := r.bundles - 1 }) s).recipe.banks[j] = s.recipe.banks[j] := setAt_other _ _ h
    rw [hj]
    exact ⟨rfl, rfl⟩

theorem discardBundle_idles {b : Bin} {s : State} (bu : Bundle) (h : planFor s b = none) :
    (discardBundle b bu s).bundles = { s.bundles with bins := setAt s.bundles.bins b { s.bundles.bins[b] with state := .idle, bundle := none } } := by
  have hp := (planFor_unbindBundle bu.bank b s).trans h
  unfold discardBundle
  dsimp only
  rw [openBundle_of_none ((planFor_congr (bundleNotice_linkOnly _ _ _ _ _).recipe b).trans hp)]
  rfl

theorem endHold_eq {b : Bin} {bu : Bundle} {s : State} (h : s.bundles.bins[b].bundle = some bu) (u : Underlying) :
    endHold b u s = retireCheck bu.bank (deferredTests b (enterBin .released b u.toState s)) := retireAfter_of_some h _

/-- A hold that brings no test leaves the underlying state with its notice. -/
theorem endHold_released {b : Bin} {bu : Bundle} {s : State} {u : Underlying} (h : s.bundles.bins[b].bundle = some bu)
    (ha : activeBank s = some bu.bank) (hu : u = .opened ∨ bu.count ≠ bu.landedCount) :
    endHold b u s = bundleNotice .released b bu u.toState (mapBin b (fun r => { r with state := u.toState }) s) := by
  have hbin := enterBin_bin (e := .released) (st := u.toState) h
  have halone := enterBin_alone (e := .released) (st := u.toState) h
  have hbu : (enterBin .released b u.toState s).bundles.bins[b].bundle = some bu := by rw [hbin, h]
  have htest : closeTest b (enterBin .released b u.toState s) = enterBin .released b u.toState s := by
    obtain rfl | hc := hu
    · exact closeTest_of_state (by rw [hbin]; nofun)
    · exact closeTest_of_count hbu hc
  rw [endHold_eq h, deferredTests_active hbu ((closeDue_congr halone.recipe bu).trans (closeDue_of_active ha)), htest, retireCheck_of_state,
    enterBin_of_some h]
  rw [halone.recipe, activeBank_eq_some ha]
  nofun

theorem endHold_closes {b : Bin} {bu : Bundle} {s : State} (h : s.bundles.bins[b].bundle = some bu) (ha : activeBank s = some bu.bank)
    (hc : bu.count = bu.landedCount) : Closes b bu s (endHold b .filled s) := by
  have hbin := enterBin_bin (e := .released) (st := .filled) h
  have halone := enterBin_alone (e := .released) (st := .filled) h
  have hbu : (enterBin .released b .filled s).bundles.bins[b].bundle = some bu := by rw [hbin, h]
  have htests : deferredTests b (enterBin .released b .filled s) = closeBundle b (enterBin .released b .filled s) :=
    (deferredTests_active hbu ((closeDue_congr halone.recipe bu).trans (closeDue_of_active ha))).trans
      (closeTest_closes hbu (by rw [hbin]) hc)
  rw [endHold_eq h]
  show Closes b bu s (retireCheck bu.bank (deferredTests b (enterBin .released b .filled s)))
  rw [htests]
  exact ((closeBundle_closes hbu).of_alone halone).retireCheck bu.bank

theorem endHold_closes_due {b : Bin} {bu : Bundle} {s : State} (u : Underlying) (h : s.bundles.bins[b].bundle = some bu) (hd : closeDue s bu = true)
    (h0 : bu.count ≠ 0) (hc : bu.count = bu.landedCount) : Closes b { bu with short := true } s (endHold b u s) := by
  have halone := enterBin_alone (e := .released) (st := u.toState) h
  have hbu : (enterBin .released b u.toState s).bundles.bins[b].bundle = some bu := by rw [enterBin_bin h, h]
  rw [endHold_eq h]
  exact ((deferredTests_closes hbu ((closeDue_congr halone.recipe bu).trans hd) h0 hc).of_alone halone).retireCheck bu.bank

theorem endHold_discards {b : Bin} {bu : Bundle} {s : State} (u : Underlying) (h : s.bundles.bins[b].bundle = some bu) (hd : closeDue s bu = true)
    (h0 : bu.count = 0) (hp : planFor s b = none) :
    (endHold b u s).bundles = { s.bundles with bins := setAt s.bundles.bins b { s.bundles.bins[b] with state := .idle, bundle := none } } := by
  have halone := enterBin_alone (e := .released) (st := u.toState) h
  have hbin := enterBin_bin (e := .released) (st := u.toState) h
  have hbu : (enterBin .released b u.toState s).bundles.bins[b].bundle = some bu := by rw [hbin, h]
  rw [endHold_eq h, (retireCheck_rest _ _).1, deferredTests_discards hbu ((closeDue_congr halone.recipe bu).trans hd) h0,
    discardBundle_idles bu ((planFor_congr halone.recipe b).trans hp), hbin, enterBin_of_some h]
  show ({ s.bundles with bins := setAt (setAt s.bundles.bins b _) b _ } : BundleTable) = _
  rw [setAt_setAt]

theorem holdBin_taken {b : Bin} {bu : Bundle} {s : State} (u : Underlying) (h : s.bundles.bins[b].bundle = some bu)
    (hs : s.bundles.bins[b].state = u.toState) :
    holdBin b s = okay (bundleNotice .held b bu (.held u) (mapBin b (fun r => { r with state := .held u }) s)) := by
  unfold holdBin
  cases u
  · rw [hs]
    exact congrArg okay (enterBin_of_some h)
  · rw [hs]
    exact congrArg okay (enterBin_of_some h)

theorem holdBin_held {b : Bin} {s : State} {u : Underlying} (hs : s.bundles.bins[b].state = .held u) : holdBin b s = okay s := by
  unfold holdBin
  rw [hs]

theorem holdBin_refused {b : Bin} {s : State} (hs : s.bundles.bins[b].state = .idle ∨ s.bundles.bins[b].state = .closing ∨
    s.bundles.bins[b].state = .labelling ∨ s.bundles.bins[b].state = .clearing) : holdBin b s = refuse .state s := by
  unfold holdBin
  obtain h | h | h | h := hs <;> rw [h]

theorem releaseBin_held {b : Bin} {s : State} {u : Underlying} (hs : s.bundles.bins[b].state = .held u) : releaseBin b s = okay (endHold b u s) := by
  unfold releaseBin
  rw [hs]

theorem releaseBin_other {b : Bin} {s : State} (hs : ∀ u, s.bundles.bins[b].state ≠ .held u) : releaseBin b s = okay s := by
  unfold releaseBin
  split
  · exact absurd ‹_› (hs _)
  · rfl

theorem binHoldAnswer_bin {n h : Nat} {b : Bin} (s : State) (hb : b.val + 1 = n) :
    (h = 1 → binHoldAnswer [(n : Int), (h : Int)] s = holdBin b s) ∧ (h = 0 → binHoldAnswer [(n : Int), (h : Int)] s = releaseBin b s) ∧
      (1 < h → binHoldAnswer [(n : Int), (h : Int)] s = refuse (.field 1) s) := by
  subst hb
  unfold binHoldAnswer
  rw [fld_head, binOfCode_val]
  dsimp only
  rw [fld_second]
  refine ⟨fun h1 => ?_, fun h0 => ?_, fun h2 => ?_⟩
  · rw [if_pos (by omega)]
  · rw [if_neg (by omega), if_pos (by omega)]
  · rw [if_neg (by omega), if_neg (by omega)]

end Sys2Proof.Machine

/-- Settles O43, by the bin's state. -/
theorem binHoldByBinState : Obligations.BinHoldByBinState := by
  unfold Obligations.BinHoldByBinState
  intro s r n h ha hk hb
  have hp : parseFields [.u8, .u8] r.body = some [(n.toNat : Int), (h.toNat : Int)] := by simp [hb]
  have answer {t : State} {st : Status} (hf : binHoldAnswer [(n.toNat : Int), (h.toNat : Int)] s = ⟨t, st, .none⟩) :
      exec .binHold s = .next (reply r st .none t) := exec_answered_fields ha exec_binHold hk hp hf
  refine ⟨fun hn => answer ?_, fun b hbn => ?_⟩
  · rw [binHoldAnswer, fld_head, binOfCode_outside hn]
    rfl
  obtain ⟨hhold, hrelease, habove⟩ := binHoldAnswer_bin (h := h.toNat) s hbn
  have hold {t : State} {st : Status} (h1 : h = 1) (hf : holdBin b s = ⟨t, st, .none⟩) : exec .binHold s = .next (reply r st .none t) :=
    answer ((hhold (congrArg BitVec.toNat h1)).trans hf)
  have free {t : State} {st : Status} (h0 : h = 0) (hf : releaseBin b s = ⟨t, st, .none⟩) : exec .binHold s = .next (reply r st .none t) :=
    answer ((hrelease (congrArg BitVec.toNat h0)).trans hf)
  refine ⟨fun h2 => answer (habove h2), fun bu h1 hs hbu => hold h1 (holdBin_taken .opened hbu hs),
    fun bu h1 hs hbu => hold h1 (holdBin_taken .filled hbu hs), fun u h1 hs => hold h1 (holdBin_held hs),
    fun h1 hs => hold h1 (holdBin_refused hs), fun h0 hs => free h0 (releaseBin_other hs), fun bu h0 hs hbu hact _ => free h0 ?_,
    fun bu h0 hs hbu hact _ hc => free h0 ?_, fun bu h0 hs hbu hact hc => ?_, fun bu u h0 hs hbu hact hst hcut => ⟨fun hn0 hc => ?_, fun hn0 hplan => ?_⟩⟩
  · rw [releaseBin_held hs, endHold_released hbu hact (.inl rfl)]
    rfl
  · rw [releaseBin_held hs, endHold_released hbu hact (.inr hc)]
    rfl
  · have hclose := endHold_closes hbu hact hc
    refine ⟨_, closedBundle s bu, free h0 (releaseBin_held hs), ?_, rfl, rfl, rfl, hclose.nextClose, ?_, hclose.other⟩ <;>
      rw [reply_bundles, hclose.bin]
  · have hclose := endHold_closes_due u hbu (closeDue_of_unbound hact hst hcut) hn0 hc
    refine ⟨_, closedBundle s { bu with short := true }, free h0 (releaseBin_held hs), ?_, rfl, rfl, rfl, hclose.nextClose, ?_, hclose.other⟩ <;>
      rw [reply_bundles, hclose.bin]
  · exact ⟨_, free h0 (releaseBin_held hs), endHold_discards u hbu (closeDue_of_unbound hact hst hcut) hn0 hplan⟩
end

