-- ==== Sys2Proof/Proofs/Receiver.lean ====
section
/-! PROOFS. The receiver of both serial lines (R203, R204): the bytes of a frame, of a bad frame, and of a frame cut short by a gap. -/

namespace Sys2Proof.Machine

/-! ### Runs of bytes -/

theorem rxBytes_cons (r : Receiver) (b : Byte) (bs : List Byte) :
    rxBytes r (b :: bs) = ((rxBytes (rxByte r b).1 bs).1, (rxByte r b).2.toList ++ (rxBytes (rxByte r b).1 bs).2) := rfl

theorem rxBytes_append (r : Receiver) (as bs : List Byte) :
    rxBytes r (as ++ bs) = ((rxBytes (rxBytes r as).1 bs).1, (rxBytes r as).2 ++ (rxBytes (rxBytes r as).1 bs).2) := by
  induction as generalizing r with
  | nil => rfl
  | cons a as ih =>
    rw [List.cons_append, rxBytes_cons, ih, rxBytes_cons, List.append_assoc]

/-- Bytes without a start mark leave a hunting receiver as it is. -/
theorem rxBytes_hunting {bs : List Byte} (h : ∀ x ∈ bs, x ≠ 0xA5) : rxBytes .hunting bs = (.hunting, []) := by
  induction bs with
  | nil => rfl
  | cons b bs ih =>
    obtain ⟨hb, hbs⟩ := List.forall_mem_cons.mp h
    have hone : rxByte .hunting b = (.hunting, none) := congrArg (·, none) (if_neg hb)
    rw [rxBytes_cons, hone, ih hbs]
    rfl

/-- A start mark and a length (R203). -/
theorem rxBytes_header (lo hi : Byte) : rxBytes .hunting [0xA5, lo, hi] =
    if (value16 lo hi).toNat < 2 ∨ 1024 < (value16 lo hi).toNat then (.hunting, [.badLength]) else (.collecting [lo, hi], []) := by
  have h : rxBytes .hunting [0xA5, lo, hi] =
      ((rxByte (.collecting [lo]) hi).1, (rxByte (.collecting [lo]) hi).2.toList ++ []) := rfl
  rw [h]
  unfold rxByte
  simp only [List.cons_append, List.nil_append]
  split <;> rfl

/-- One byte of the contents or of the CRC. -/
theorem rxByte_collecting (lo hi : Byte) (got : List Byte) (b : Byte) : rxByte (.collecting (lo :: hi :: got)) b =
    if (got ++ [b]).length < (value16 lo hi).toNat + 2 then (.collecting (lo :: hi :: (got ++ [b])), none)
    else (.hunting, some (frameVerdict lo hi ((got ++ [b]).take (value16 lo hi).toNat) ((got ++ [b]).drop (value16 lo hi).toNat))) := by
  cases got <;> rfl

/-- Bytes that do not complete the frame are collected. -/
theorem rxBytes_collecting {lo hi : Byte} (rest : List Byte) {got : List Byte} (h : got.length + rest.length < (value16 lo hi).toNat + 2) :
    rxBytes (.collecting (lo :: hi :: got)) rest = (.collecting (lo :: hi :: (got ++ rest)), []) := by
  induction rest generalizing got with
  | nil => rw [List.append_nil]; rfl
  | cons b rest ih =>
    rw [List.length_cons] at h
    have hone : rxByte (.collecting (lo :: hi :: got)) b = (.collecting (lo :: hi :: (got ++ [b])), none) := by
      rw [rxByte_collecting, if_pos]
      rw [List.length_append, List.length_singleton]
      omega
    rw [rxBytes_cons, hone, ih, List.append_assoc]
    · rfl
    · rw [List.length_append, List.length_singleton]
      omega

/-- The last byte of the CRC brings the verdict. -/
theorem rxBytes_complete {lo hi : Byte} {content crc : List Byte} (hc : content.length = (value16 lo hi).toNat) (hk : crc.length = 2) :
    rxBytes (.collecting [lo, hi]) (content ++ crc) = (.hunting, [frameVerdict lo hi content crc]) := by
  obtain ⟨c0, c1, rfl⟩ := List.length_eq_two.mp hk
  have hsplit : content ++ [c0, c1] = (content ++ [c0]) ++ [c1] := by rw [List.append_assoc]; rfl
  have hcoll := rxBytes_collecting (lo := lo) (hi := hi) (content ++ [c0]) (got := []) (by
    rw [List.length_append, List.length_singleton, List.length_nil]
    omega)
  have hlen : ((content ++ [c0]) ++ [c1]).length = (value16 lo hi).toNat + 2 := by
    rw [List.length_append, List.length_append, hc]
    rfl
  have hlast : rxByte (.collecting (lo :: hi :: (content ++ [c0]))) c1 = (.hunting, some (frameVerdict lo hi content [c0, c1])) := by
    rw [rxByte_collecting, if_neg (by rw [hlen]; omega), ← hsplit, ← hc, List.take_left, List.drop_left]
  rw [hsplit, rxBytes_append, hcoll]
  show ((rxBytes (rxByte (.collecting (lo :: hi :: (content ++ [c0]))) c1).1 []).1, _ ++ ((rxByte (.collecting (lo :: hi :: (content ++ [c0]))) c1).2.toList ++ [])) = _
  rw [hlast]
  rfl

/-- A whole frame of good length, from its start mark on. -/
theorem rxBytes_frame {n : BitVec 16} {content crc : List Byte} (h2 : 2 ≤ n.toNat) (h1024 : n.toNat ≤ 1024) (hc : content.length = n.toNat)
    (hk : crc.length = 2) : rxBytes .hunting (0xA5 :: (bytes16 n ++ content ++ crc)) =
      (.hunting, [frameVerdict (n.extractLsb' 0 8) (n.extractLsb' 8 8) content crc]) := by
  have hsplit : (0xA5 :: (bytes16 n ++ content ++ crc) : List Byte) = [0xA5, n.extractLsb' 0 8, n.extractLsb' 8 8] ++ (content ++ crc) := by
    unfold bytes16
    simp
  rw [hsplit, rxBytes_append, rxBytes_header, value16_bytes, if_neg (by omega), rxBytes_complete (by rw [value16_bytes, hc]) hk]
  rfl

theorem frameVerdict_good (n : BitVec 16) (kind tag : Byte) (body crc : List Byte) (h : crc = bytes16 (crc16 (bytes16 n ++ kind :: tag :: body))) :
    frameVerdict (n.extractLsb' 0 8) (n.extractLsb' 8 8) (kind :: tag :: body) crc = .frame kind tag body := by
  unfold frameVerdict
  rw [h]
  exact if_pos rfl

theorem frameVerdict_bad {n : BitVec 16} {content crc : List Byte} (h : crc ≠ bytes16 (crc16 (bytes16 n ++ content))) :
    frameVerdict (n.extractLsb' 0 8) (n.extractLsb' 8 8) content crc = .badCrc := by
  unfold frameVerdict
  exact if_neg fun e => h e.symm

end Sys2Proof.Machine

open Sys2Proof Sys2Proof.Machine

/-- Settles O49: the header, the contents and the CRC in turn. -/
theorem receiverReadsWhatTheFrameSays : Obligations.ReceiverReadsWhatTheFrameSays := by
  unfold Obligations.ReceiverReadsWhatTheFrameSays
  intro kind tag body hlen
  have hn : (BitVec.ofNat 16 (body.length + 2)).toNat = body.length + 2 := by
    rw [BitVec.toNat_ofNat]
    omega
  unfold frameBytes coveredBytes
  have hframe := rxBytes_frame (n := BitVec.ofNat 16 (body.length + 2)) (content := kind :: tag :: body) (by omega) (by omega) (by rw [hn]; rfl)
    (bytes16_length (crc16 (bytes16 (BitVec.ofNat 16 (body.length + 2)) ++ kind :: tag :: body)))
  exact hframe.trans (by rw [frameVerdict_good _ _ _ _ _ rfl])

namespace Sys2Proof.Machine

/-! ### Bad frames on either line (R185, R204) -/

theorem rxBytes_badLength {n : BitVec 16} (h : n.toNat < 2 ∨ 1024 < n.toNat) : rxBytes .hunting (0xA5 :: bytes16 n) = (.hunting, [.badLength]) := by
  show rxBytes .hunting [0xA5, n.extractLsb' 0 8, n.extractLsb' 8 8] = _
  rw [rxBytes_header, value16_bytes, if_pos h]

theorem rxBytes_partial {n : BitVec 16} {rest : List Byte} (h2 : 2 ≤ n.toNat) (h1024 : n.toNat ≤ 1024) (h : rest.length < n.toNat + 2) :
    ∃ r, rxBytes .hunting (0xA5 :: (bytes16 n ++ rest)) = (r, []) := by
  have hsplit : (0xA5 :: (bytes16 n ++ rest) : List Byte) = [0xA5, n.extractLsb' 0 8, n.extractLsb' 8 8] ++ rest := rfl
  rw [hsplit, rxBytes_append, rxBytes_header, value16_bytes, if_neg (by omega),
    rxBytes_collecting rest (got := []) (by rw [value16_bytes, List.length_nil]; omega)]
  exact ⟨_, rfl⟩

theorem setReceiver_self {s : State} (h : s.link.receiver = .hunting) : { s with link := { s.link with receiver := .hunting } } = s := by
  rw [← h]

theorem setLabelReceiver_self {s : State} (h : s.link.labelReceiver = .hunting) :
    { s with link := { s.link with labelReceiver := .hunting } } = s := by
  rw [← h]

/-- What a hunting line-link receiver makes of some bytes, by what the receiver reads. -/
theorem linkReceive_of_rxBytes {s : State} {bs : List Byte} {rs : List RxResult} (h : s.link.receiver = .hunting)
    (hr : rxBytes .hunting bs = (.hunting, rs)) : linkReceive bs s = rs.foldl linkResult s := by
  unfold linkReceive
  rw [h, hr]
  dsimp only
  rw [setReceiver_self h]

theorem labelReceive_of_rxBytes {s : State} {bs : List Byte} {rs : List RxResult} (h : s.link.labelReceiver = .hunting)
    (hr : rxBytes .hunting bs = (.hunting, rs)) : labelReceive bs s = rs.foldl labelResult s := by
  unfold labelReceive
  rw [h, hr]
  dsimp only
  rw [setLabelReceiver_self h]

/-- Bytes that end no frame leave the line-link receiver alone changed, and a gap then leaves it hunting. -/
theorem linkHunt_of_rxBytes {s : State} {bs : List Byte} {r : Receiver} (h : s.link.receiver = .hunting) (hr : rxBytes .hunting bs = (r, [])) :
    linkHunt (linkReceive bs s) = s := by
  unfold linkReceive
  rw [h, hr]
  exact setReceiver_self h

theorem labelHunt_of_rxBytes {s : State} {bs : List Byte} {r : Receiver} (h : s.link.labelReceiver = .hunting)
    (hr : rxBytes .hunting bs = (r, [])) : labelHunt (labelReceive bs s) = s := by
  unfold labelReceive
  rw [h, hr]
  exact setLabelReceiver_self h

end Sys2Proof.Machine

/-- Settles O50, by what the receiver reads of the bytes. -/
theorem badFramesAreDiscarded : Obligations.BadFramesAreDiscarded := by
  unfold Obligations.BadFramesAreDiscarded
  refine ⟨fun s bs hr h hbs => ⟨?_, ?_⟩, fun s bs hr h hbs => ⟨?_, ?_⟩, fun s n hr hn => ⟨fun h => ?_, fun h => ?_⟩,
    fun s n content crc hr h2 h1024 hc hk hcrc => ⟨fun h => ?_, fun h => ?_⟩, fun s n rest hr h2 h1024 hlen => ⟨fun h => ?_, fun h => ?_⟩⟩
  · rw [exec_linkFrameError bs hr, linkReceive_of_rxBytes h (rxBytes_hunting hbs)]
    rfl
  · rw [exec_linkFrameGap bs hr, linkHunt_of_rxBytes h (rxBytes_hunting hbs)]
  · rw [exec_labelFrameError bs hr, labelReceive_of_rxBytes h (rxBytes_hunting hbs)]
    rfl
  · rw [exec_labelFrameGap bs hr, labelHunt_of_rxBytes h (rxBytes_hunting hbs)]
  · rw [exec_linkFrameError _ hr, linkReceive_of_rxBytes h (rxBytes_badLength hn)]
    rfl
  · rw [exec_labelFrameError _ hr, labelReceive_of_rxBytes h (rxBytes_badLength hn)]
    rfl
  · rw [exec_linkFrameError _ hr, linkReceive_of_rxBytes h (rxBytes_frame h2 h1024 hc hk), frameVerdict_bad hcrc]
    rfl
  · rw [exec_labelFrameError _ hr, labelReceive_of_rxBytes h (rxBytes_frame h2 h1024 hc hk), frameVerdict_bad hcrc]
    rfl
  · obtain ⟨r, hrest⟩ := rxBytes_partial h2 h1024 hlen
    rw [exec_linkFrameGap _ hr, linkHunt_of_rxBytes h hrest]
  · obtain ⟨r, hrest⟩ := rxBytes_partial h2 h1024 hlen
    rw [exec_labelFrameGap _ hr, labelHunt_of_rxBytes h hrest]
end

