-- ==== Sys2Proof/Proofs/Referrals.lean ====
section
/-! PROOFS. Referrals: the tag that the next outstanding referral takes (R119), a referral raised at a run's end (R118), the end of a
resumption run (R109, R110), and ANSWER (R122). -/

namespace Sys2Proof.Machine

/-! ### The tag memory -/

@[simp] theorem ReferralUnit.setEntry_outstanding (u : ReferralUnit) (t : Nat) (e : TagEntry) :
    (u.setEntry t e).outstanding = u.outstanding := by
  unfold ReferralUnit.setEntry; split <;> rfl

@[simp] theorem ReferralUnit.setEntry_waiting (u : ReferralUnit) (t : Nat) (e : TagEntry) : (u.setEntry t e).waiting = u.waiting := by
  unfold ReferralUnit.setEntry; split <;> rfl

@[simp] theorem ReferralUnit.setEntry_lastTag (u : ReferralUnit) (t : Nat) (e : TagEntry) : (u.setEntry t e).lastTag = u.lastTag := by
  unfold ReferralUnit.setEntry; split <;> rfl

theorem ReferralUnit.tagOutstanding_of_open {u : ReferralUnit} {t : Nat} {e : TagEntry} (h : u.entry t = some e) (he : e.ended = false) :
    u.tagOutstanding t = true := by simp [ReferralUnit.tagOutstanding, h, he]

theorem ReferralUnit.tagOutstanding_of_free {u : ReferralUnit} {t : Nat} (h : ∀ e, u.entry t = some e → e.ended = true) :
    u.tagOutstanding t = false := by
  cases he : u.entry t with
  | none => simp [ReferralUnit.tagOutstanding, he]
  | some e => simp [ReferralUnit.tagOutstanding, he, h e he]

/-- Tags counted from 0 follow one another modulo 255. -/
theorem tagAfter_cyclic (m : Nat) : tagAfter (m % 255 + 1) = (m + 1) % 255 + 1 := by
  unfold tagAfter; split <;> omega

/-- The search for a tag passes over the tags that are OUTSTANDING and stops at the first that is not (R119). -/
theorem freeTagFrom_eq {u : ReferralUnit} {k fuel m : Nat} (hf : k < fuel)
    (hpass : ∀ j < k, u.tagOutstanding ((m + j) % 255 + 1) = true) (hstop : u.tagOutstanding ((m + k) % 255 + 1) = false) :
    freeTagFrom u fuel (m % 255 + 1) = (m + k) % 255 + 1 := by
  induction k generalizing fuel m with
  | zero =>
    obtain ⟨f, rfl⟩ := Nat.exists_eq_succ_of_ne_zero (by omega : fuel ≠ 0)
    simp only [Nat.add_zero] at hstop ⊢
    rw [freeTagFrom, hstop, if_neg Bool.false_ne_true]
  | succ k ih =>
    obtain ⟨f, rfl⟩ := Nat.exists_eq_succ_of_ne_zero (by omega : fuel ≠ 0)
    have h0 := hpass 0 (by omega)
    simp only [Nat.add_zero] at h0
    have hshift : ∀ j, m + 1 + j = m + (j + 1) := by omega
    rw [freeTagFrom, h0, if_pos rfl, tagAfter_cyclic, ih (m := m + 1) (by omega) (fun j hj => by rw [hshift]; exact hpass (j + 1) (by omega)) (by rw [hshift]; exact hstop), hshift]

theorem ReferralUnit.nextTag_of_fresh {u : ReferralUnit} (h : u.lastTag = none) : u.nextTag = freeTagFrom u 255 1 := by
  simp [ReferralUnit.nextTag, h]

theorem ReferralUnit.nextTag_of_last {u : ReferralUnit} {l : Nat} (h : u.lastTag = some l) :
    u.nextTag = freeTagFrom u 255 (tagAfter l) := by simp [ReferralUnit.nextTag, h]

theorem nextTag_of_tagNext {u : ReferralUnit} {t : Nat} (h : TagNext u t) : u.nextTag = t := by
  obtain ⟨first, k, hfresh, hlast, hk, rfl, hstop, hpass⟩ := h
  have hcycle : u.nextTag = freeTagFrom u 255 ((first - 1) % 255 + 1) := by
    cases hl : u.lastTag with
    | none =>
      rw [ReferralUnit.nextTag_of_fresh hl, hfresh hl]
    | some l =>
      have hfirst := hlast l hl
      have hafter : tagAfter l = (first - 1) % 255 + 1 := by
        unfold tagAfter
        split at hfirst <;> split <;> omega
      rw [ReferralUnit.nextTag_of_last hl, hafter]
  rw [hcycle]
  refine freeTagFrom_eq hk (fun j hj => ?_) (ReferralUnit.tagOutstanding_of_free hstop)
  obtain ⟨e, he, ho⟩ := hpass j hj
  exact ReferralUnit.tagOutstanding_of_open he ho

/-! ### A referral in a slot, in the waiting list, or overflowing -/

theorem makeOutstanding_eq {q : Referral} {t : Nat} {s : State} (h : TagNext s.referral t) :
    makeOutstanding q s = { s with
      referral := outstandingWith s.referral q t
      link := s.link.offer (.referral { q with tag := some t } s.link.clock) } := by
  unfold makeOutstanding outstandingWith
  simp only [nextTag_of_tagNext h, ReferralUnit.setEntry_outstanding, offer]

theorem raiseReferral_slot {q : Referral} {s : State} (h : s.referral.outstanding.length < 4) :
    raiseReferral q s = (true, makeOutstanding q s) := by
  unfold raiseReferral; rw [if_pos (show _ < Config.slotCapacity from h)]

theorem raiseReferral_waits {q : Referral} {s : State} (h : 4 ≤ s.referral.outstanding.length) (hw : s.referral.waiting.length < 4) :
    raiseReferral q s = (true, { s with referral := { s.referral with waiting := s.referral.waiting ++ [q] } }) := by
  unfold raiseReferral
  rw [if_neg (show ¬_ < Config.slotCapacity from Nat.not_lt.mpr h), if_pos (show _ < Config.waitingCapacity from hw)]

theorem raiseReferral_overflows {q : Referral} {s : State} (h : 4 ≤ s.referral.outstanding.length) (hw : 4 ≤ s.referral.waiting.length) :
    raiseReferral q s = (false, referralEnd 0 q.id .overflow .none s) := by
  unfold raiseReferral
  rw [if_neg (show ¬_ < Config.slotCapacity from Nat.not_lt.mpr h), if_neg (show ¬_ < Config.waitingCapacity from Nat.not_lt.mpr hw)]

theorem promote_of_empty (k : Nat) {s : State} (h : s.referral.waiting = []) : promote k s = s := by
  cases k with
  | zero => rfl
  | succ k => simp [promote, h]

theorem promote_of_full (k : Nat) {s : State} (h : 4 ≤ s.referral.outstanding.length) : promote k s = s := by
  have hcap : ¬s.referral.outstanding.length < Config.slotCapacity := Nat.not_lt.mpr h
  cases k with
  | zero => rfl
  | succ k => cases hw : s.referral.waiting <;> simp [promote, hw, hcap]

theorem promote_head (k : Nat) {s : State} {w : Referral} {rest : List Referral} (hw : s.referral.waiting = w :: rest)
    (h : s.referral.outstanding.length < 4) :
    promote (k + 1) s = promote k (makeOutstanding w { s with referral := { s.referral with waiting := rest } }) := by
  have hcap : s.referral.outstanding.length < Config.slotCapacity := h
  simp [promote, hw, hcap]

/-- The tag that is next does not turn on the waiting list. -/
theorem TagNext.of_waiting {u : ReferralUnit} {t : Nat} (ws : List Referral) (h : TagNext u t) : TagNext { u with waiting := ws } t := h

/-- The one free slot takes the oldest waiting referral (R121). -/
theorem promoteAll_one {s : State} {w : Referral} {rest : List Referral} {t : Nat} (hw : s.referral.waiting = w :: rest)
    (h : s.referral.outstanding.length = 3) (ht : TagNext s.referral t) :
    promoteAll s = { s with
      referral := { outstandingWith s.referral w t with waiting := rest }
      link := s.link.offer (.referral { w with tag := some t } s.link.clock) } := by
  have hfill : outstandingWith { s.referral with waiting := rest } w t = { outstandingWith s.referral w t with waiting := rest } := by
    unfold outstandingWith ReferralUnit.setEntry; split <;> rfl
  have hnext : makeOutstanding w { s with referral := { s.referral with waiting := rest } } = { s with
      referral := { outstandingWith s.referral w t with waiting := rest }
      link := s.link.offer (.referral { w with tag := some t } s.link.clock) } := by
    refine (makeOutstanding_eq (s := { s with referral := { s.referral with waiting := rest } }) (ht.of_waiting rest)).trans ?_
    rw [hfill]
  unfold promoteAll
  rw [show Config.slotCapacity = 3 + 1 from rfl, promote_head 3 hw (by omega), hnext]
  refine promote_of_full 3 ?_
  simp [outstandingWith, h]

/-! ### The resumption path -/

/-- An idle path takes the run at the head of its queue, if there is one (R109). -/
theorem beginResumption_idle {s : State} (h : s.grade.run = none) :
    beginResumption s = { s with grade := { run := s.grade.queue.head?, queue := s.grade.queue.drop 1 } } := by
  cases hq : s.grade.queue with
  | nil =>
    have hsame : s.grade = { run := none, queue := [] } := by rw [← h, ← hq]
    simp only [beginResumption, h, hq, List.head?_nil, List.drop_nil]
    rw [← hsame]
  | cons r rest => simp [beginResumption, h, hq]

theorem beginResumption_busy {s : State} {x : Resumption} (h : s.grade.run = some x) : beginResumption s = s := by
  simp [beginResumption, h]

theorem finishRun_idle {s : State} (h : s.grade.run = none) : finishRun s = s := by simp [finishRun, h]

theorem finishRun_gone {s : State} {r : Resumption} (h : s.grade.run = some r) (hc : findCutting s r.id = none) :
    finishRun s = { s with grade := { s.grade with run := none } } := by
  have hc' : findCutting { s with grade := { s.grade with run := none } } r.id = none := hc
  simp [finishRun, h, hc']

theorem finishRun_writes {s : State} {r : Resumption} {c : Cutting} (h : s.grade.run = some r) (hc : findCutting s r.id = some c) :
    finishRun s = writeRun c (resumeRun s.recipe.banks[c.bank] c r.context r.result) { s with grade := { s.grade with run := none } } := by
  have hc' : findCutting { s with grade := { s.grade with run := none } } r.id = some c := hc
  simp [finishRun, h, hc']

/-- A referral that is field by field what R117 says is the one the run hands over. -/
theorem ReferralRaised.eq {s : State} {c : Cutting} {k : EvalContext} {f : Nat} {q : Referral} (h : ReferralRaised s c k f q) :
    referralFor s c k f = q := by
  obtain ⟨hid, hctx, hf, hss, hse, hn, hsl, ht, ha⟩ := h
  cases q
  simp only at hid hctx hf hss hse hn hsl ht ha
  subst hid hctx hf hss hse hn hsl ht ha
  have hjoin : featureOf c.features 12 = c.features[12] := by simp [featureOf]
  simp [referralFor, spanEnd, hjoin]

theorem writeRun_suspended {c : Cutting} {k : EvalContext} {f : Nat} {q : Referral} {s : State} (h : ReferralRaised s c k f q) :
    writeRun c (.suspended k f) s = mapCutting c.id
      (fun c => if (raiseReferral q s).1 then { c with gradeStatus := .referred, referralCount := countUpTo 255 c.referralCount }
        else rejectAs .referralOverflow { c with referralCount := countUpTo 255 c.referralCount }) (raiseReferral q s).2 := by
  simp only [writeRun, h.eq]

/-- The end of the run in progress: its result is written on an idle path, which then takes the next queued run (R109, R110). -/
theorem exec_resumptionRunEnd_writes {s : State} {r : Resumption} {c : Cutting} (hs : s.inReset = false) (h : s.grade.run = some r)
    (hc : findCutting s r.id = some c) :
    exec .resumptionRunEnd s = .next (beginResumption
      (writeRun c (resumeRun s.recipe.banks[c.bank] c r.context r.result) { s with grade := { s.grade with run := none } })) := by
  rw [exec_resumptionRunEnd hs, finishRun_writes h hc]

end Sys2Proof.Machine

open Sys2Proof Sys2Proof.Machine

/-- Settles O36, by the end of the run: a result written, or a referral in a slot, in the waiting list, or overflowing. -/
theorem resumptionRunGradesTheCutting : Obligations.ResumptionRunGradesTheCutting := by
  refine ⟨fun s hrun hq => ?_, fun s r hs hrun hgone => ?_, fun s r c e hs hrun hc he => ⟨?_, ?_, ?_⟩⟩
  · cases hs : s.inReset with
    | true => exact exec_inReset hs rfl
    | false =>
      rw [exec_resumptionRunEnd hs, finishRun_idle hrun]
      simp [beginResumption, hrun, hq]
  · rw [exec_resumptionRunEnd hs, finishRun_gone hrun hgone, beginResumption_idle rfl]
  all_goals rw [exec_resumptionRunEnd_writes hs hrun hc, ← he]
  · rintro g code rfl
    rw [beginResumption_idle rfl]; rfl
  · rintro rfl
    rw [beginResumption_idle rfl]; rfl
  · rintro k f q rfl hq
    rw [writeRun_suspended (s := { s with grade := { s.grade with run := none } }) hq]
    refine ⟨fun tag hfree ht => ?_, fun hfull hroom => ?_, fun hfull hwait => ?_⟩
    · rw [raiseReferral_slot (s := { s with grade := { s.grade with run := none } }) hfree,
        makeOutstanding_eq (s := { s with grade := { s.grade with run := none } }) ht, beginResumption_idle rfl]; rfl
    · rw [raiseReferral_waits (s := { s with grade := { s.grade with run := none } }) hfull hroom, beginResumption_idle rfl]; rfl
    · rw [raiseReferral_overflows (s := { s with grade := { s.grade with run := none } }) hfull hwait, beginResumption_idle rfl]
      rw [show q.id = c.id from hq.1]; rfl

namespace Sys2Proof.Machine

/-! ### ANSWER -/

theorem answerAnswer_tag {fs : List Int} (s : State) (h : fld fs 0 < 1) : answerAnswer fs s = refuse (.field 0) s := if_pos h

theorem answerAnswer_strip {fs : List Int} (s : State) (h : ¬fld fs 0 < 1) (h1 : fld fs 1 < 1 ∨ Config.lastStripNumber < fld fs 1) :
    answerAnswer fs s = refuse (.field 1) s := (if_neg h).trans (if_pos h1)

theorem answerAnswer_index {fs : List Int} (s : State) (h : ¬fld fs 0 < 1) (h1 : ¬(fld fs 1 < 1 ∨ Config.lastStripNumber < fld fs 1))
    (h2 : 15 < fld fs 2) : answerAnswer fs s = refuse (.field 2) s := (if_neg h).trans ((if_neg h1).trans (if_pos h2))

theorem answerAnswer_result {fs : List Int} (s : State) (h : ¬fld fs 0 < 1) (h1 : ¬(fld fs 1 < 1 ∨ Config.lastStripNumber < fld fs 1))
    (h2 : ¬15 < fld fs 2) (h3 : 1 < fld fs 3) : answerAnswer fs s = refuse (.field 3) s :=
  (if_neg h).trans ((if_neg h1).trans ((if_neg h2).trans (if_pos h3)))

/-- ANSWER with every field in range is judged by its tag and its cutting (R122). -/
theorem answerAnswer_judges {fs : List Int} (s : State) (h : ¬fld fs 0 < 1)
    (h1 : ¬(fld fs 1 < 1 ∨ Config.lastStripNumber < fld fs 1)) (h2 : ¬15 < fld fs 2) (h3 : ¬1 < fld fs 3) :
    answerAnswer fs s = judgeAnswer (fld fs 0).toNat ⟨(fld fs 1).toNat, (fld fs 2).toNat⟩ (fld fs 3 == 1) s :=
  (if_neg h).trans ((if_neg h1).trans ((if_neg h2).trans (if_neg h3)))

theorem toNat_beq_one (v : Byte) : ((v.toNat : Int) == 1) = (v == 1) := by
  rw [Bool.eq_iff_iff, beq_iff_eq, beq_iff_eq]
  exact ⟨fun h => BitVec.eq_of_toNat_eq (by exact_mod_cast h), fun h => by simp [h]⟩

theorem judgeAnswer_noref {t : Nat} {id : CuttingId} (b : Bool) {s : State} (h : ∀ e, s.referral.entry t = some e → e.id ≠ id) :
    judgeAnswer t id b s = refuse .noref s := by
  cases he : s.referral.entry t with
  | none => simp [judgeAnswer, he]
  | some e => simp [judgeAnswer, he, h e he]

theorem judgeAnswer_late {t : Nat} {id : CuttingId} (b : Bool) {s : State} {e : TagEntry} (he : s.referral.entry t = some e)
    (hid : e.id = id) (hend : e.ended = true) : judgeAnswer t id b s = refuse .late s := by
  simp [judgeAnswer, he, hid, hend]

theorem judgeAnswer_taken {t : Nat} {id : CuttingId} (b : Bool) {s : State} {e : TagEntry} {q : Referral}
    (he : s.referral.entry t = some e) (hid : e.id = id) (hopen : e.ended = false)
    (hq : s.referral.outstanding.find? (fun x => decide (x.tag = some t)) = some q) :
    judgeAnswer t id b s = okay (takeAnswer q b s) := by
  simp [judgeAnswer, he, hid, hopen, hq]

/-- The Grade Engine after a resumption is put at the tail of its queue and an idle path takes the head (R109). -/
theorem startResumption_grade {s : State} {k : Resumption} {gr : GradeEngine}
    (hbusy : ∀ x, s.grade.run = some x → gr = { run := some x, queue := s.grade.queue ++ [k] })
    (hidle : s.grade.run = none → gr = { run := (s.grade.queue ++ [k]).head?, queue := (s.grade.queue ++ [k]).drop 1 }) :
    startResumption k s = { mapCutting k.id (fun c => { c with gradeStatus := .resuming }) s with grade := gr } := by
  cases hr : s.grade.run with
  | none => rw [hidle hr]; exact beginResumption_idle hr
  | some x => rw [hbusy x hr, ← hr]; exact beginResumption_busy (x := x) hr

theorem endOutstanding_tagged {q : Referral} {t : Nat} (s : State) (h : q.tag = some t) :
    endOutstanding q s = { s with referral := { s.referral.setEntry t { id := q.id, ended := true } with
      outstanding := s.referral.outstanding.filter (fun x => decide (x.id ≠ q.id)) } } := by
  unfold endOutstanding
  rw [h]
  simp only [ReferralUnit.setEntry_outstanding]

end Sys2Proof.Machine

/-- Settles O37, by the order of the checks of R122: the fields, the entry, and the referral that the answer ends. -/
theorem answersAreJudgedByTagAndCutting : Obligations.AnswersAreJudgedByTagAndCutting := by
  rintro s r tag i v n _ ha hk hb rfl
  have answered : ∀ {t : State} {st : Status}, answerAnswer [tag.toNat, n.toNat, i.toNat, v.toNat] s = ⟨t, st, .none⟩ →
      exec .answer s = .next (reply r st .none t) :=
    fun h => exec_answered_fields ha exec_answer hk (by simp [hb]) h
  have htag : tag ≠ 0 → ¬(tag.toNat : Int) < 1 := fun h h0 => h (BitVec.eq_of_toNat_eq (by simpa using h0))
  have hstrip : 1 ≤ n.toNat → n.toNat ≤ 16777215 → ¬((n.toNat : Int) < 1 ∨ (Config.lastStripNumber : Int) < n.toNat) := by
    unfold Config.lastStripNumber; omega
  refine ⟨?_, fun ht hn => ?_, fun ht hn hn' => ⟨fun hi => ?_, fun hi hv => ?_, fun hi hv => ?_⟩⟩
  · rintro rfl
    exact answered (answerAnswer_tag s (by simp))
  · refine answered (answerAnswer_strip s (htag ht) (show (n.toNat : Int) < 1 ∨ (Config.lastStripNumber : Int) < n.toNat from ?_))
    unfold Config.lastStripNumber; omega
  · exact answered (answerAnswer_index s (htag ht) (hstrip hn hn') (show (15 : Int) < i.toNat by omega))
  · exact answered (answerAnswer_result s (htag ht) (hstrip hn hn') (show ¬(15 : Int) < i.toNat by omega) (show (1 : Int) < v.toNat by omega))
  have judged : ∀ {t : State} {st : Status}, judgeAnswer tag.toNat ⟨n.toNat, i.toNat⟩ (v == 1) s = ⟨t, st, .none⟩ →
      exec .answer s = .next (reply r st .none t) := fun h => by
    refine answered ((answerAnswer_judges (fs := [tag.toNat, n.toNat, i.toNat, v.toNat]) s (htag ht) (hstrip hn hn') (show ¬(15 : Int) < i.toNat by omega)
      (show ¬(1 : Int) < v.toNat by omega)).trans (Eq.trans ?_ h))
    simp [toNat_beq_one]
  refine ⟨fun hnone => judged (judgeAnswer_noref _ hnone), fun e he hid hend => judged (judgeAnswer_late _ he hid hend), ?_⟩
  rintro e q u k gr he hid hopen hq hqid rfl rfl hbusy hidle
  have hqtag : q.tag = some tag.toNat := by simpa using List.find?_some hq
  have hended := endOutstanding_tagged s hqtag
  rw [hqid] at hended
  refine ⟨fun hw => ?_, fun w rest t hw hslots ht => ?_⟩
  · refine judged ((judgeAnswer_taken _ he hid hopen hq).trans (congrArg okay ?_))
    unfold takeAnswer promoteAll
    rw [hended, promote_of_empty _ (by simpa using hw), hqid]
    exact startResumption_grade hbusy hidle
  · refine judged ((judgeAnswer_taken _ he hid hopen hq).trans (congrArg okay ?_))
    unfold takeAnswer
    rw [hended, promoteAll_one (w := w) (rest := rest) (t := t) (by simpa using hw) hslots ht, hqid]
    exact startResumption_grade hbusy hidle

end

