-- ==== Sys2Proof/Proofs/RecipePut.lean ====
section
/-! PROOFS. RECIPE BEGIN and RECIPE PUT (R194, R195): what a body of repeated fields reads as, and what each section's body stores. -/

namespace Sys2Proof.Machine

/-! ### Bodies of several fields -/

theorem takeField_append {z : FieldSize} {b r : List Byte} {v : Int} (h : takeField z b = some (v, r)) (more : List Byte) :
    takeField z (b ++ more) = some (v, r ++ more) := by
  unfold takeField at h
  split at h
  case h_5 => contradiction
  all_goals
    cases h
    rfl

/-- A body of two parts reads as the fields of the one and then of the other (R203). -/
theorem parseFields_append {l l' : List FieldSize} {b b' : List Byte} {fs fs' : List Int} (h : parseFields l b = some fs)
    (h' : parseFields l' b' = some fs') : parseFields (l ++ l') (b ++ b') = some (fs ++ fs') := by
  induction l generalizing b fs with
  | nil =>
    cases b with
    | nil => cases h; exact h'
    | cons => contradiction
  | cons z zs ih =>
    unfold parseFields at h
    split at h
    · rename_i v r hz
      obtain ⟨vs, hvs, rfl⟩ := Option.map_eq_some_iff.mp h
      simp [parseFields, takeField_append hz, ih hvs]
    · contradiction

/-- A body of entries, each of one layout, reads as the fields of each in turn. -/
theorem parseFields_repeat {α : Type} {layout : List FieldSize} {enc : α → List Byte} {vals : α → List Int} {l : List α}
    (h : ∀ x ∈ l, parseFields layout (enc x) = some (vals x)) :
    parseFields (repeatLayout l.length layout) (l.flatMap enc) = some (l.flatMap vals) := by
  induction l with
  | nil => rfl
  | cons x xs ih =>
    have hx := h x (List.mem_cons_self ..)
    have hxs := ih fun y hy => h y (List.mem_cons_of_mem _ hy)
    simpa [repeatLayout, List.replicate_succ] using parseFields_append hx hxs

/-- The bytes of a field. -/
def FieldSize.size : FieldSize → Nat
  | .u8 => 1
  | .u16 => 2
  | .u32 | .s32 => 4

/-- The bytes of a layout. -/
def layoutSize (l : List FieldSize) : Nat := (l.map FieldSize.size).sum

theorem takeField_size {z : FieldSize} {b r : List Byte} {v : Int} (h : takeField z b = some (v, r)) : b.length = z.size + r.length := by
  unfold takeField at h
  split at h
  case h_5 => contradiction
  all_goals
    cases h
    simp only [FieldSize.size, List.length_cons]
    omega

theorem parseFields_size {l : List FieldSize} {b : List Byte} {fs : List Int} (h : parseFields l b = some fs) : b.length = layoutSize l := by
  induction l generalizing b fs with
  | nil =>
    cases b with
    | nil => rfl
    | cons => contradiction
  | cons z zs ih =>
    unfold parseFields at h
    split at h
    · rename_i v r hz
      obtain ⟨vs, hvs, -⟩ := Option.map_eq_some_iff.mp h
      rw [takeField_size hz, ih hvs]
      simp [layoutSize]
    · contradiction

/-- A body of another size has no fields (R206). -/
theorem parseFields_none {l : List FieldSize} {b : List Byte} (h : b.length ≠ layoutSize l) : parseFields l b = none := by
  cases hp : parseFields l b with
  | none => rfl
  | some fs => exact absurd (parseFields_size hp) h

theorem layoutSize_repeat (n : Nat) (l : List FieldSize) : layoutSize (repeatLayout n l) = layoutSize l * n := by
  induction n with
  | zero => rfl
  | succ n ih =>
    have hsplit : repeatLayout (n + 1) l = l ++ repeatLayout n l := by simp [repeatLayout, List.replicate_succ]
    have hsum : ∀ a b : List FieldSize, layoutSize (a ++ b) = layoutSize a + layoutSize b := by simp [layoutSize]
    rw [hsplit, hsum, ih, Nat.mul_succ, Nat.add_comm]

/-! ### Fields of entries -/

theorem fld_append_left {a : List Int} (b : List Int) {i : Nat} (h : i < a.length) : fld (a ++ b) i = fld a i := by
  simp [fld, List.getElem?_append_left h]

theorem fld_append_right (a b : List Int) (j : Nat) : fld (a ++ b) (a.length + j) = fld b j := by
  simp [fld, List.getElem?_append_right]

/-- Field j of the i-th entry, where every entry has m fields. -/
theorem fld_flatMap {α : Type} {vals : α → List Int} {m : Nat} (hm : ∀ x, (vals x).length = m) {l : List α} {i : Nat} {x : α}
    (hx : l[i]? = some x) {j : Nat} (hj : j < m) : fld (l.flatMap vals) (m * i + j) = fld (vals x) j := by
  induction l generalizing i with
  | nil => contradiction
  | cons y ys ih =>
    rw [List.flatMap_cons]
    cases i with
    | zero =>
      cases hx
      rw [Nat.mul_zero, Nat.zero_add]
      exact fld_append_left _ (by rw [hm]; exact hj)
    | succ i =>
      have hshift : m * (i + 1) + j = (vals y).length + (m * i + j) := by rw [hm, Nat.mul_succ]; omega
      rw [hshift, fld_append_right]
      exact ih hx

theorem flatMap_length {α : Type} {vals : α → List Int} {m : Nat} (hm : ∀ x, (vals x).length = m) (l : List α) :
    (l.flatMap vals).length = m * l.length := by
  induction l with
  | nil => rfl
  | cons x xs ih => rw [List.flatMap_cons, List.length_append, ih, hm, List.length_cons, Nat.mul_succ, Nat.add_comm]

/-! ### The entries of the sections -/

theorem toNat_ofNat8 {n : Nat} (h : n < 256) : (BitVec.ofNat 8 n).toNat = n := Nat.mod_eq_of_lt h
theorem toNat_ofNat16 {n : Nat} (h : n < 65536) : (BitVec.ofNat 16 n).toNat = n := Nat.mod_eq_of_lt h
theorem toNat_ofNat32 {n : Nat} (h : n < 4294967296) : (BitVec.ofNat 32 n).toNat = n := Nat.mod_eq_of_lt h

theorem toInt_ofInt32 {v : Int} (h : FitsS32 v) : (BitVec.ofInt 32 v).toInt = v := by
  obtain ⟨hlo, hhi⟩ := h
  rw [BitVec.toInt_ofInt, Int.bmod_eq_of_le] <;> omega

/-- The fields of a CUT section. -/
def CutSection.vals (c : CutSection) : List Int := [c.tl, c.tt, c.k, c.g, c.ae, c.tc, c.nominalWidth]

theorem parseFields_cut {c : CutSection} (h : c.Fits) :
    parseFields (repeatLayout 7 [.u16]) (w16 c.tl ++ w16 c.tt ++ w16 c.k ++ w16 c.g ++ w16 c.ae ++ w16 c.tc ++ w16 c.nominalWidth) =
      some c.vals := by
  obtain ⟨h1, h2, h3, h4, h5, h6, h7⟩ := h
  rw [show repeatLayout 7 [FieldSize.u16] = [.u16, .u16, .u16, .u16, .u16, .u16, .u16] from rfl]
  simp only [w16, List.append_assoc, parseFields_u16, parseFields_only16, Option.map_some, toNat_ofNat16, h1, h2, h3, h4, h5, h6, h7]
  rfl

theorem cutOf_vals (c : CutSection) : cutOf c.vals = c := rfl

theorem parseFields_w16 {n : Nat} (h : n < 65536) : parseFields [.u16] (w16 n) = some [(n : Int)] := by
  rw [w16, parseFields_only16, toNat_ofNat16 h]

/-- The fields of a grade. -/
def GradeEntry.vals (g : GradeEntry) : List Int := [g.code, g.first, g.count, g.verdict]

theorem parseFields_grade {g : GradeEntry} (h : g.Fits) :
    parseFields gradeLayout (w8 g.code ++ w8 g.first ++ w16 g.count ++ w8 g.verdict) = some g.vals := by
  obtain ⟨h1, h2, h3, h4⟩ := h
  simp only [gradeLayout, w8, w16, List.cons_append, List.nil_append, parseFields_u8, parseFields_u16, parseFields_nil,
    Option.map_some, toNat_ofNat8, toNat_ofNat16, h1, h2, h3, h4]
  rfl

theorem gradeOf_flatMap {gs : List GradeEntry} {i : Nat} {g : GradeEntry} (h : gs[i]? = some g) :
    gradeOf (gs.flatMap GradeEntry.vals) i = g := by
  have hf : ∀ j < 4, fld (gs.flatMap GradeEntry.vals) (4 * i + j) = fld g.vals j :=
    fun j hj => fld_flatMap (vals := GradeEntry.vals) (fun _ => rfl) h hj
  have h0 := hf 0 (by decide)
  simp only [Nat.add_zero] at h0
  simp only [gradeOf, natFld, h0, hf 1 (by decide), hf 2 (by decide), hf 3 (by decide)]
  rfl

theorem gradesOf_flatMap (gs : List GradeEntry) : (List.range gs.length).map (gradeOf (gs.flatMap GradeEntry.vals)) = gs := by
  refine List.ext_getElem (by simp) fun i h1 h2 => ?_
  rw [List.getElem_map, List.getElem_range]
  exact gradeOf_flatMap (List.getElem?_eq_getElem h2)

/-- The fields of a test entry. -/
def TestEntry.vals (e : TestEntry) : List Int := [e.feature, e.op, e.a, e.b, e.dest, e.combine, e.negate, e.absent]

theorem parseFields_test {e : TestEntry} (h : e.Fits) : parseFields testLayout e.bytes = some e.vals := by
  obtain ⟨h1, h2, h3, h4, h5, h6, h7, h8⟩ := h
  simp only [testLayout, TestEntry.bytes, w8, wS32, List.append_assoc, List.cons_append, List.nil_append, parseFields_u8, parseFields_s32,
    parseFields_nil, Option.map_some, toNat_ofNat8, toInt_ofInt32, h1, h2, h3, h4, h5, h6, h7, h8]
  rfl

theorem testOf_flatMap {es : List TestEntry} {i : Nat} {e : TestEntry} (h : es[i]? = some e) : testOf (es.flatMap TestEntry.vals) i = e := by
  have hf : ∀ j < 8, fld (es.flatMap TestEntry.vals) (8 * i + j) = fld e.vals j :=
    fun j hj => fld_flatMap (vals := TestEntry.vals) (fun _ => rfl) h hj
  have h0 := hf 0 (by decide)
  simp only [Nat.add_zero] at h0
  simp only [testOf, natFld, h0, hf 1 (by decide), hf 2 (by decide), hf 3 (by decide), hf 4 (by decide), hf 5 (by decide), hf 6 (by decide),
    hf 7 (by decide)]
  rfl

/-- The fields of a bin plan entry. -/
def BinPlan.vals (e : BinPlan) : List Int := [e.grade, e.classLow, e.classHigh, e.ct, e.tolLo, e.tolHi, e.s, e.pmax, e.nmax]

theorem parseFields_bin {e : BinPlan} (h : e.Fits) : parseFields binLayout e.bytes = some e.vals := by
  obtain ⟨h1, h2, h3, h4, h5, h6, h7, h8, h9⟩ := h
  simp only [binLayout, BinPlan.bytes, w8, w16, w32, List.append_assoc, List.cons_append, List.nil_append, parseFields_u8, parseFields_u16,
    parseFields_u32, parseFields_only16, Option.map_some, toNat_ofNat8, toNat_ofNat16, toNat_ofNat32, h1, h2, h3, h4, h5, h6, h7, h8, h9]
  rfl

theorem binPlanOf_flatMap {es : List BinPlan} {i : Nat} {e : BinPlan} (h : es[i]? = some e) : binPlanOf (es.flatMap BinPlan.vals) i = e := by
  have hf : ∀ j < 9, fld (es.flatMap BinPlan.vals) (9 * i + j) = fld e.vals j :=
    fun j hj => fld_flatMap (vals := BinPlan.vals) (fun _ => rfl) h hj
  have h0 := hf 0 (by decide)
  simp only [Nat.add_zero] at h0
  simp only [binPlanOf, natFld, h0, hf 1 (by decide), hf 2 (by decide), hf 3 (by decide), hf 4 (by decide), hf 5 (by decide), hf 6 (by decide),
    hf 7 (by decide), hf 8 (by decide)]
  rfl

theorem binPlansOf_flatMap (v : Vector BinPlan 8) :
    Vector.ofFn (fun i : Fin 8 => binPlanOf (v.toList.flatMap BinPlan.vals) i.val) = v := by
  refine Vector.ext fun i hi => ?_
  rw [Vector.getElem_ofFn]
  exact binPlanOf_flatMap (by simp [hi])

/-- The fields of a window. -/
def ProfileWindow.vals (w : ProfileWindow) : List Int := [w.w1, w.w2, w.m1, w.m2]

/-- The fields of a PROFILE section. -/
def ProfileSection.vals (p : ProfileSection) : List Int :=
  p.windows.toList.flatMap ProfileWindow.vals ++ [(p.tongueNominal : Int), p.driftLimit, p.stopCount]

theorem parseFields_window {w : ProfileWindow} (h1 : FitsS32 w.w1) (h2 : FitsS32 w.w2) (h3 : FitsS32 w.m1) (h4 : FitsS32 w.m2) :
    parseFields (repeatLayout 4 [.s32]) (wS32 w.w1 ++ wS32 w.w2 ++ wS32 w.m1 ++ wS32 w.m2) = some w.vals := by
  rw [show repeatLayout 4 [FieldSize.s32] = [.s32, .s32, .s32, .s32] from rfl]
  have hlast := parseFields_s32 (BitVec.ofInt 32 w.m2) [] []
  rw [List.append_nil] at hlast
  simp only [wS32, List.append_assoc, parseFields_s32, hlast, parseFields_nil, Option.map_some, toInt_ofInt32, h1, h2, h3, h4]
  rfl

theorem parseFields_profile {p : ProfileSection} (h : p.Fits) :
    parseFields (repeatLayout 16 [.s32] ++ [.u16, .u16, .u16]) p.bytes = some p.vals := by
  obtain ⟨hw, h1, h2, h3⟩ := h
  have hwindows := parseFields_repeat (layout := repeatLayout 4 [.s32]) (vals := ProfileWindow.vals) (l := p.windows.toList)
    (enc := fun w : ProfileWindow => wS32 w.w1 ++ wS32 w.w2 ++ wS32 w.m1 ++ wS32 w.m2) (by
      intro w hmem
      obtain ⟨i, hi, rfl⟩ := List.getElem_of_mem hmem
      have hi' : i < 4 := by simpa using hi
      obtain ⟨ha, hb, hc, hd⟩ := hw ⟨i, hi'⟩
      exact parseFields_window ha hb hc hd)
  have htail : parseFields [.u16, .u16, .u16] (w16 p.tongueNominal ++ (w16 p.driftLimit ++ w16 p.stopCount)) =
      some [(p.tongueNominal : Int), p.driftLimit, p.stopCount] := by
    simp only [w16, parseFields_u16, parseFields_only16, Option.map_some, toNat_ofNat16, h1, h2, h3]
  rw [ProfileSection.bytes, List.append_assoc, List.append_assoc]
  rw [Vector.length_toList] at hwindows
  exact parseFields_append hwindows htail

theorem profileOf_vals (p : ProfileSection) : profileOf p.vals = p := by
  have hlen : (p.windows.toList.flatMap ProfileWindow.vals).length = 16 := by
    rw [flatMap_length (vals := ProfileWindow.vals) (m := 4) fun _ => rfl, Vector.length_toList]
  have htail : ∀ j, fld p.vals (16 + j) = fld [(p.tongueNominal : Int), p.driftLimit, p.stopCount] j := fun j => by
    rw [← hlen]; exact fld_append_right _ _ j
  have hwin : ∀ i : Fin 4, ∀ j < 4, fld p.vals (4 * i.val + j) = fld p.windows[i].vals j := fun i j hj => by
    have hi := i.isLt
    rw [ProfileSection.vals, fld_append_left _ (by omega)]
    exact fld_flatMap (vals := ProfileWindow.vals) (fun _ => rfl) (by simp) hj
  have hwindows : (profileOf p.vals).windows = p.windows := by
    refine Vector.ext fun i hi => ?_
    have h0 := hwin ⟨i, hi⟩ 0 (by decide)
    simp only [Nat.add_zero] at h0
    simp only [profileOf, Vector.getElem_ofFn]
    rw [h0, hwin ⟨i, hi⟩ 1 (by decide), hwin ⟨i, hi⟩ 2 (by decide), hwin ⟨i, hi⟩ 3 (by decide)]
    rfl
  have htongue : (profileOf p.vals).tongueNominal = p.tongueNominal := congrArg Int.toNat (htail 0)
  have hdrift : (profileOf p.vals).driftLimit = p.driftLimit := congrArg Int.toNat (htail 1)
  have hstop : (profileOf p.vals).stopCount = p.stopCount := congrArg Int.toNat (htail 2)
  generalize profileOf p.vals = q at *
  cases p
  cases q
  simp_all only

/-! ### RECIPE PUT -/

theorem putFixed_reads {layout : List FieldSize} {body : List Byte} {fs : List Int} (f : List Int → Bank → Bank)
    (h : parseFields layout body = some fs) : putFixed layout body f = .store (f fs) := by simp only [putFixed, h]

theorem putFixed_misfit {layout : List FieldSize} {body : List Byte} (f : List Int → Bank → Bank) (h : body.length ≠ layoutSize layout) :
    putFixed layout body f = .bad 1 := by simp only [putFixed, parseFields_none h]

theorem putLengths_above {n : Byte} (rest : List Byte) (h : 12 < n.toNat) : putLengths (n :: rest) = .bad 2 := if_pos h

theorem putLengths_within {n : Byte} (rest : List Byte) (h : n.toNat ≤ 12) : putLengths (n :: rest) =
    putFixed (repeatLayout n.toNat [.u16]) rest (fun fs b => { b with lengths := some (fs.map Int.toNat) }) := if_neg (Nat.not_lt.mpr h)

theorem putGrades_above {n : Byte} (rest : List Byte) (h : 8 < n.toNat) : putGrades (n :: rest) = .bad 2 := if_pos h

theorem putGrades_within {n : Byte} (rest : List Byte) (h : n.toNat ≤ 8) : putGrades (n :: rest) =
    putFixed (repeatLayout n.toNat gradeLayout) rest (fun fs b => { b with grades := some ((List.range n.toNat).map (gradeOf fs)) }) :=
  if_neg (Nat.not_lt.mpr h)

theorem putTests_outside {st n : Byte} (rest : List Byte) (h : 63 < st.toNat ∨ n = 0 ∨ 64 < st.toNat + n.toNat) :
    putTests (st :: n :: rest) = .bad 3 := if_pos h

theorem putTests_within {st n : Byte} (rest : List Byte) (h : ¬(63 < st.toNat ∨ n = 0 ∨ 64 < st.toNat + n.toNat)) :
    putTests (st :: n :: rest) = putFixed (repeatLayout n.toNat testLayout) rest (putRun st.toNat n.toNat) := if_neg h

theorem putTests_short {body : List Byte} (h : body.length < 2) : putTests body = .bad 1 := by
  cases body with
  | nil => rfl
  | cons x xs =>
    cases xs with
    | nil => rfl
    | cons => simp at h

/-- RECIPE PUT of a bank in range and a section code in range is judged by the bank's state (R195). -/
theorem putAnswer_eq {r : Request} {k : BankId} {sec : Byte} {more : List Byte} (s : State)
    (hb : r.body = BitVec.ofNat 8 k.val :: sec :: more) (hsec : sec.toNat ≤ 6) : putAnswer r s = putInto k sec.toNat more s := by
  have hcode := bankOfCode_val k
  simp only [putAnswer, hb, hcode]
  rw [if_neg (Nat.not_lt.mpr hsec)]

theorem putAnswer_section {r : Request} {k : BankId} {sec : Byte} {more : List Byte} (s : State)
    (hb : r.body = BitVec.ofNat 8 k.val :: sec :: more) (hsec : 6 < sec.toNat) : putAnswer r s = refuse (.field 1) s := by
  have hcode := bankOfCode_val k
  simp only [putAnswer, hb, hcode]
  rw [if_pos hsec]

theorem putAnswer_bank {r : Request} {k : Byte} {more : List Byte} (s : State) (hb : r.body = k :: more) (hk : 1 < k.toNat) :
    putAnswer r s = refuse (.field 0) s := by
  have hcode := bankOfCode_above hk
  simp only [putAnswer, hb, hcode]

theorem putInto_otherState {k : BankId} {s : State} (sec : Nat) (body : List Byte) (h : s.recipe.banks[k].state ≠ .loading) :
    putInto k sec body s = refuse .state s := if_neg h

theorem putInto_bad {k : BankId} {s : State} {sec : Nat} {body : List Byte} {i : Nat} (h : s.recipe.banks[k].state = .loading)
    (hp : putSection sec body = .bad i) : putInto k sec body s = refuse (.field i) s := by
  rw [putInto, if_pos h, hp]

theorem putInto_store {k : BankId} {s : State} {sec : Nat} {body : List Byte} {f : Bank → Bank} (h : s.recipe.banks[k].state = .loading)
    (hp : putSection sec body = .store f) : putInto k sec body s = okay (mapBank k f s) := by
  rw [putInto, if_pos h, hp]

/-- The pool after a run of entries: the run in its place (R193). -/
theorem putRun_inside {start n : Nat} (fs : List Int) (b : Bank) {i : Nat} (hi : i < n) (hend : start + n ≤ 64) :
    (putRun start n fs b).tests[start + i]? = some (some (testOf fs i)) := by
  have hlt : start + i < 64 := by omega
  rw [Vector.getElem?_eq_getElem hlt]
  simp only [putRun, Vector.getElem_ofFn]
  rw [if_pos ⟨by omega, by omega⟩, Nat.add_sub_cancel_left]

theorem putRun_outside {start n : Nat} (fs : List Int) (b : Bank) {j : Fin 64} (hj : j.val < start ∨ start + n ≤ j.val) :
    (putRun start n fs b).tests[j] = b.tests[j] := by
  simp only [putRun, Fin.getElem_fin, Vector.getElem_ofFn]
  rw [if_neg (by omega)]

/-- A body of two-byte lengths reads as them. -/
theorem parseFields_lengths {ns : List Nat} (h : ∀ n ∈ ns, n < 65536) :
    parseFields (repeatLayout ns.length [.u16]) (ns.flatMap w16) = some (ns.map Int.ofNat) := by
  rw [parseFields_repeat (enc := w16) (vals := fun n : Nat => [(n : Int)]) fun n hn => parseFields_w16 (h n hn), List.map_eq_flatMap]
  rfl

/-- A list's count byte and the entries behind it. -/
theorem wList_eq {α : Type} (enc : α → List Byte) (l : List α) : wList enc l = BitVec.ofNat 8 l.length :: l.flatMap enc := rfl

/-! ### The request -/

section
variable {s : State} {r : Request} {k : BankId} {sec : Byte} {more : List Byte}

theorem exec_put_bad {i : Nat} (ha : Asked s r) (hk : r.kind = 0x11) (hb : r.body = BitVec.ofNat 8 k.val :: sec :: more)
    (hl : s.recipe.banks[k].state = .loading) (hsec : sec.toNat ≤ 6) (hp : putSection sec.toNat more = .bad i) :
    exec .recipePut s = .next (reply r (.field i) .none s) :=
  exec_answered ha exec_recipePut hk ((putAnswer_eq s hb hsec).trans (putInto_bad hl hp))

theorem putStores_of_store {f : Bank → Bank} (ha : Asked s r) (hk : r.kind = 0x11) (hb : r.body = BitVec.ofNat 8 k.val :: sec :: more)
    (hl : s.recipe.banks[k].state = .loading) (hsec : sec.toNat ≤ 6) (hp : putSection sec.toNat more = .store f) :
    PutStores r s k (f s.recipe.banks[k]) :=
  exec_answered ha exec_recipePut hk ((putAnswer_eq s hb hsec).trans (putInto_store hl hp))

end

theorem beginAnswer_loadable {k : BankId} {s : State} (h1 : s.recipe.banks[k].state ≠ .active) (h2 : s.recipe.banks[k].state ≠ .retiring) :
    beginAnswer [((BitVec.ofNat 8 k.val : Byte).toNat : Int)] s = okay (mapBank k Bank.begin s) := by
  have hload : s.recipe.banks[k].state.loadable = true := by
    cases hs : s.recipe.banks[k].state <;> simp_all [BankState.loadable]
  simp only [beginAnswer, fld_head, bankOfCode_val k]
  rw [if_pos hload]

theorem beginAnswer_inUse {k : BankId} {s : State} (h : s.recipe.banks[k].state = .active ∨ s.recipe.banks[k].state = .retiring) :
    beginAnswer [((BitVec.ofNat 8 k.val : Byte).toNat : Int)] s = refuse .inuse s := by
  have hload : ¬s.recipe.banks[k].state.loadable = true := by
    obtain h | h := h <;> rw [h] <;> decide
  simp only [beginAnswer, fld_head, bankOfCode_val k]
  rw [if_neg hload]

theorem beginAnswer_above {k : Byte} (s : State) (h : 1 < k.toNat) : beginAnswer [(k.toNat : Int)] s = refuse (.field 0) s := by
  simp only [beginAnswer, fld_head, bankOfCode_above h]

end Sys2Proof.Machine

open Sys2Proof Sys2Proof.Machine

/-- Settles O58, by the request and then, of a PUT in a LOADING bank, by the section. -/
theorem recipeBeginAndPut : Obligations.RecipeBeginAndPut := by
  refine ⟨fun s r k more ha hk => ⟨fun hkind hb => ?_, fun hkind hb => ?_⟩, fun s r k ha hkind hb => ⟨fun hstate => ?_, fun h1 h2 => ?_⟩, ?_⟩
  · exact exec_answered_fields ha exec_recipeBegin hkind (parseFields_byte hb) (beginAnswer_above s hk)
  · exact exec_answered ha exec_recipePut hkind (putAnswer_bank s hb hk)
  · exact exec_answered_fields ha exec_recipeBegin hkind (parseFields_byte hb) (beginAnswer_inUse hstate)
  · exact exec_answered_fields ha exec_recipeBegin hkind (parseFields_byte hb) (beginAnswer_loadable h1 h2)
  rintro s r k _ sec more ha hkind hb rfl
  refine ⟨fun h => exec_answered ha exec_recipePut hkind (putAnswer_section s hb h),
    fun h hstate => exec_answered ha exec_recipePut hkind ((putAnswer_eq s hb h).trans (putInto_otherState _ _ hstate)), fun hl => ?_⟩
  have bad : ∀ {i : Nat}, sec.toNat ≤ 6 → putSection sec.toNat more = .bad i → exec .recipePut s = .next (reply r (.field i) .none s) :=
    fun hsec hp => exec_put_bad ha hkind hb hl hsec hp
  have stores : ∀ {f : Bank → Bank}, sec.toNat ≤ 6 → putSection sec.toNat more = .store f → PutStores r s k (f s.recipe.banks[k]) :=
    fun hsec hp => putStores_of_store ha hkind hb hl hsec hp
  refine ⟨?cut, ?lengths, ?grades, ?tests, ?bins, ?profile, ?cover⟩
  case cut =>
    rintro rfl
    refine ⟨?_, fun hlen => bad (by decide) (putFixed_misfit _ hlen)⟩
    rintro c hc rfl
    exact stores (by decide) (putFixed_reads (fun fs b => { b with cut := some (cutOf fs) }) (parseFields_cut hc))
  case lengths =>
    rintro rfl
    refine ⟨?_, ?_, ?_⟩
    · rintro ns hn hfits rfl
      have hcount : (BitVec.ofNat 8 ns.length).toNat = ns.length := toNat_ofNat8 (by omega)
      have hput : putLengths (wList w16 ns) = .store fun b => { b with lengths := some ((ns.map Int.ofNat).map Int.toNat) } := by
        rw [wList_eq, putLengths_within _ (by omega), hcount]
        exact putFixed_reads _ (parseFields_lengths hfits)
      have hvals : (ns.map Int.ofNat).map Int.toNat = ns := by rw [List.map_map]; exact List.map_id ns
      rw [hvals] at hput
      exact stores (by decide) hput
    · rintro rfl
      exact bad (by decide) rfl
    · rintro n rest rfl
      refine ⟨fun h => bad (by decide) (putLengths_above rest h), fun h hlen => bad (by decide) ?_⟩
      refine (putLengths_within rest h).trans (putFixed_misfit _ ?_)
      rwa [layoutSize_repeat]
  case grades =>
    rintro rfl
    refine ⟨?_, ?_, ?_⟩
    · rintro gs hn hfits rfl
      have hcount : (BitVec.ofNat 8 gs.length).toNat = gs.length := toNat_ofNat8 (by omega)
      have hput : putGrades (wList (fun g : GradeEntry => w8 g.code ++ w8 g.first ++ w16 g.count ++ w8 g.verdict) gs) = .store fun b =>
          { b with grades := some ((List.range gs.length).map (gradeOf (gs.flatMap GradeEntry.vals))) } := by
        rw [wList_eq, putGrades_within _ (by omega), hcount]
        exact putFixed_reads _ (parseFields_repeat fun g hg => parseFields_grade (hfits g hg))
      rw [gradesOf_flatMap] at hput
      exact stores (by decide) hput
    · rintro rfl
      exact bad (by decide) rfl
    · rintro n rest rfl
      refine ⟨fun h => bad (by decide) (putGrades_above rest h), fun h hlen => bad (by decide) ?_⟩
      refine (putGrades_within rest h).trans (putFixed_misfit _ ?_)
      rwa [layoutSize_repeat]
  case tests =>
    rintro rfl
    refine ⟨fun h => bad (by decide) (putTests_short h), ?_⟩
    rintro st n rest rfl
    refine ⟨fun h => bad (by decide) (putTests_outside rest h), fun h1 h2 h3 => ?_⟩
    have hin : ¬(63 < st.toNat ∨ n = 0 ∨ 64 < st.toNat + n.toNat) := by rintro (h | h | h) <;> first | omega | contradiction
    refine ⟨fun hlen => bad (by decide) ((putTests_within rest hin).trans (putFixed_misfit _ ?_)), ?_⟩
    · rwa [layoutSize_repeat]
    · rintro es hn hfits rfl
      have hparse := parseFields_repeat fun e he => parseFields_test (hfits e he)
      rw [hn] at hparse
      refine ⟨_, stores (by decide) ((putTests_within _ hin).trans (putFixed_reads _ hparse)), fun i e he => ?_, fun j hj => ?_⟩
      · have hi : i < es.length := (List.getElem?_eq_some_iff.mp he).1
        exact (putRun_inside _ s.recipe.banks[k] (hn ▸ hi) h3).trans (congrArg (fun x => some (some x)) (testOf_flatMap he))
      · exact putRun_outside _ _ hj
  case bins =>
    rintro rfl
    refine ⟨?_, fun hlen => bad (by decide) (putFixed_misfit _ hlen)⟩
    rintro v hfits rfl
    have hparse := parseFields_repeat (layout := binLayout) (enc := BinPlan.bytes) (vals := BinPlan.vals) (l := v.toList) (by
      intro e he
      obtain ⟨i, hi, rfl⟩ := List.getElem_of_mem he
      exact parseFields_bin (hfits ⟨i, by simpa using hi⟩))
    rw [Vector.length_toList] at hparse
    have hput := putFixed_reads (fun fs b => { b with bins := some (Vector.ofFn (fun i : Fin 8 => binPlanOf fs i.val)) }) hparse
    simp only [binPlansOf_flatMap] at hput
    exact stores (by decide) hput
  case profile =>
    rintro rfl
    refine ⟨?_, fun hlen => bad (by decide) (putFixed_misfit _ hlen)⟩
    rintro p hfits rfl
    have hput := putFixed_reads (fun fs b => { b with profile := some (profileOf fs) }) (parseFields_profile hfits)
    simp only [profileOf_vals] at hput
    exact stores (by decide) hput
  case cover =>
    rintro rfl
    refine ⟨?_, fun hlen => bad (by decide) (putFixed_misfit _ hlen)⟩
    rintro w rfl
    exact stores (by decide) (putFixed_reads (fun fs b => { b with cover := some (natFld fs 0) }) (parseFields_only16 w))

end

