-- ==== Sys2Proof/Proofs/RecipeCommit.lean ====
section
/-! PROOFS. RECIPE COMMIT (R196, R197): the checks of each section list the items of Table 62 in order, so the first check that fails is the
first item that fails. -/

namespace Sys2Proof.Machine

/-! ### Checks of one section -/

/-- The checks of one section give its items in ascending order, each with its own result, and every item that fails is among them. -/
structure SectionChecks (sec : Nat) (P : Nat → Prop) (l : List CommitCheck) : Prop where
  sec : ∀ c ∈ l, c.sec = sec
  order : l.Pairwise (fun a b => a.item < b.item)
  ok : ∀ c ∈ l, c.ok = true ↔ P c.item
  all : ∀ i, (∀ c ∈ l, c.item ≠ i) → P i

/-- Where every item of the section passes, no check fails. -/
theorem SectionChecks.none {sec : Nat} {P : Nat → Prop} {l : List CommitCheck} (h : SectionChecks sec P l) (hp : ∀ i, P i) :
    firstFailure l = none := by
  refine List.find?_eq_none.mpr fun c hc => ?_
  simp [(h.ok c hc).mpr (hp c.item)]

/-- The first item that fails gives the first check that fails. -/
theorem SectionChecks.first {sec : Nat} {P : Nat → Prop} {l : List CommitCheck} (h : SectionChecks sec P l) {i : Nat} (hi : ¬P i)
    (hbefore : ∀ j < i, P j) : firstFailure l = some ⟨sec, i, false⟩ := by
  have hmem : ∃ c ∈ l, c.item = i := by
    by_contra hno
    exact hi (h.all i fun c hc hci => hno ⟨c, hc, hci⟩)
  obtain ⟨c, hc, hci⟩ := hmem
  have hbad : c.ok = false := by
    rw [Bool.eq_false_iff]
    exact fun hok => hi (hci ▸ (h.ok c hc).mp hok)
  have hceq : c = ⟨sec, i, false⟩ := by
    have := h.sec c hc
    cases c
    simp_all
  rw [← hceq]
  obtain ⟨l1, l2, rfl⟩ := List.append_of_mem hc
  refine List.find?_eq_some_iff_append.mpr ⟨by simp [hbad], l1, l2, rfl, fun a ha => ?_⟩
  have hlt : a.item < c.item := (List.pairwise_append.mp h.order).2.2 a ha c (List.mem_cons_self ..)
  have hok := (h.ok a (List.mem_append_left _ ha)).mpr (hbefore _ (hci ▸ hlt))
  simp [hok]

theorem firstFailure_append (a b : List CommitCheck) : firstFailure (a ++ b) = (firstFailure a).or (firstFailure b) :=
  List.find?_append ..

/-- The places of a list stand in ascending order in it. -/
theorem zipIdx_ascends {α : Type} (l : List α) : l.zipIdx.Pairwise (fun a b => a.2 < b.2) := by
  rw [List.pairwise_iff_getElem]
  intro i j hi hj hij
  simpa using hij

theorem within_iff {lo hi n : Nat} : within lo hi n = true ↔ lo ≤ n ∧ n ≤ hi := by simp [within]

/-- The checks of a list of entries, some of them left out, by their places from 1 on. -/
def entryChecks {α : Type} (sec : Nat) (ok : α → Option Bool) (l : List α) : List CommitCheck :=
  l.zipIdx.filterMap (fun p => (ok p.1).map (fun o => ⟨sec, p.2 + 1, o⟩))

theorem mem_entryChecks {α : Type} {sec : Nat} {ok : α → Option Bool} {l : List α} {c : CommitCheck} :
    c ∈ entryChecks sec ok l ↔ ∃ j x o, l[j]? = some x ∧ ok x = some o ∧ c = ⟨sec, j + 1, o⟩ := by
  simp only [entryChecks, List.mem_filterMap, Option.map_eq_some_iff]
  constructor
  · rintro ⟨⟨x, j⟩, hx, o, ho, rfl⟩
    exact ⟨j, x, o, List.mem_zipIdx_iff_getElem?.mp hx, ho, rfl⟩
  · rintro ⟨j, x, o, hx, ho, rfl⟩
    exact ⟨(x, j), List.mem_zipIdx_iff_getElem?.mpr hx, o, ho, rfl⟩

theorem entryChecks_ascend {α : Type} (sec : Nat) (ok : α → Option Bool) (l : List α) :
    (entryChecks sec ok l).Pairwise (fun a b => a.item < b.item) := by
  refine List.Pairwise.filterMap _ (fun a b hab c hc d hd => ?_) (zipIdx_ascends l)
  obtain ⟨o, -, rfl⟩ := Option.map_eq_some_iff.mp hc
  obtain ⟨o', -, rfl⟩ := Option.map_eq_some_iff.mp hd
  exact Nat.succ_lt_succ hab

/-- The items of a list of entries: item 0 passes, and an item past it turns on the entry at its place. -/
theorem entryChecks_items {α : Type} {sec : Nat} {P : Nat → Prop} {ok : α → Option Bool} {l : List α}
    (hok : ∀ j x o, l[j]? = some x → ok x = some o → (o = true ↔ P (j + 1)))
    (hrest : ∀ i, (∀ j x o, i = j + 1 → l[j]? = some x → ok x ≠ some o) → P i) : SectionChecks sec P (entryChecks sec ok l) := by
  refine ⟨fun c hc => ?_, entryChecks_ascend .., fun c hc => ?_, fun i hi => hrest i ?_⟩
  · obtain ⟨j, x, o, -, -, rfl⟩ := mem_entryChecks.mp hc
    rfl
  · obtain ⟨j, x, o, hx, ho, rfl⟩ := mem_entryChecks.mp hc
    exact hok j x o hx ho
  · rintro j x o rfl hx ho
    exact hi _ (mem_entryChecks.mpr ⟨j, x, o, hx, ho, rfl⟩) rfl

/-- A section that is not there is its item 0, which fails. -/
theorem missing_items {sec : Nat} {P : Nat → Prop} (h : ∀ i, P i ↔ i ≠ 0) : SectionChecks sec P [⟨sec, 0, false⟩] := by
  refine ⟨by simp, by simp, by simp [h], fun i hi => (h i).mpr ?_⟩
  rintro rfl
  exact hi _ (List.mem_singleton_self _) rfl

/-! ### The sections of Table 62 -/

theorem cutChecks_items (b : Bank) : SectionChecks 0 (CutItemPasses b) (cutChecks b.cut) := by
  cases hb : b.cut with
  | none =>
    exact missing_items fun i => by simp [CutItemPasses, hb]
  | some c =>
    refine ⟨by simp [cutChecks], by simp [cutChecks], by simp [cutChecks, CutItemPasses, hb, within_iff], fun i hi => ?_⟩
    simp only [cutChecks, List.forall_mem_cons] at hi
    obtain ⟨h1, h2, h3, h4, h5, h6, h7, -⟩ := hi
    simp [CutItemPasses, hb, h1.symm, h2.symm, h3.symm, h4.symm, h5.symm, h6.symm, h7.symm]

/-- The checks of a length table: the j-th length of it in range and above the one before. -/
theorem mem_lengthItems {i prev : Nat} {l : List Nat} {c : CommitCheck} :
    c ∈ lengthItems i prev l ↔ ∃ j p n, (prev :: l)[j]? = some p ∧ l[j]? = some n ∧
      c = ⟨1, i + j, within 150 3000 n && decide (p < n)⟩ := by
  induction l generalizing i prev with
  | nil => simp [lengthItems]
  | cons x xs ih =>
    rw [lengthItems, List.mem_cons, ih]
    constructor
    · rintro (rfl | ⟨j, p, n, hp, hn, rfl⟩)
      · exact ⟨0, prev, x, rfl, rfl, rfl⟩
      · exact ⟨j + 1, p, n, hp, hn, by rw [Nat.add_right_comm]; rfl⟩
    · rintro ⟨j, p, n, hp, hn, rfl⟩
      cases j with
      | zero => cases hp; cases hn; exact .inl rfl
      | succ j => exact .inr ⟨j, p, n, hp, hn, by rw [Nat.add_right_comm]; rfl⟩

theorem lengthItems_ascend (i prev : Nat) (l : List Nat) : (lengthItems i prev l).Pairwise (fun a b => a.item < b.item) := by
  induction l generalizing i prev with
  | nil => exact .nil
  | cons x xs ih =>
    refine List.pairwise_cons.mpr ⟨fun c hc => ?_, ih ..⟩
    obtain ⟨j, p, n, -, -, rfl⟩ := mem_lengthItems.mp hc
    show i < i + 1 + j
    omega

/-- The item of the j-th length: in range, and above the one before or above 0. -/
theorem lengthItem_iff {dr : Nat} {b : Bank} {l : List Nat} {j p m : Nat} (hb : b.lengths = some l) (hj : j < 12)
    (hp : (0 :: l)[j]? = some p) (hm : l[j]? = some m) :
    LengthItemPasses dr b (1 + j) ↔ 150 ≤ m ∧ m ≤ 3000 ∧ p < m := by
  have hm' : l[1 + j - 1]? = some m := by rwa [Nat.add_sub_cancel_left]
  constructor
  · rintro ⟨-, hitem, -⟩
    obtain ⟨hlo, hhi, habove⟩ := hitem l m hb (by omega) (by omega) hm'
    refine ⟨hlo, hhi, ?_⟩
    cases j with
    | zero => cases hp; omega
    | succ j => exact habove p (by omega) (by rwa [show 1 + (j + 1) - 2 = j by omega])
  · rintro ⟨hlo, hhi, habove⟩
    refine ⟨by omega, fun l' n hl' _ _ hn => ?_, by omega⟩
    obtain rfl : l = l' := Option.some.inj (hb.symm.trans hl')
    obtain rfl : m = n := Option.some.inj (hm'.symm.trans hn)
    refine ⟨hlo, hhi, fun q hq hq' => ?_⟩
    obtain ⟨i, rfl⟩ := Nat.exists_eq_succ_of_ne_zero (by omega : j ≠ 0)
    rw [show 1 + i.succ - 2 = i by omega] at hq'
    obtain rfl : p = q := Option.some.inj (hp.symm.trans hq')
    exact habove

theorem lengthChecks_items {dr : Nat} {b : Bank} {cut : CutSection} (hcut : b.cut = some cut)
    (hlen : ∀ l, b.lengths = some l → l.length ≤ 12) :
    SectionChecks 1 (LengthItemPasses dr b) (lengthChecks dr ((b.cut.map CutSection.ae).getD 0) b.lengths) := by
  rw [hcut, Option.map_some, Option.getD_some]
  cases hb : b.lengths with
  | none => exact missing_items fun i => by simp [LengthItemPasses, hb]
  | some l =>
    cases l with
    | nil => exact missing_items fun i => by simp +contextual [LengthItemPasses, hb, eq_comm]
    | cons n ns =>
      have hlt : ∀ {j m : Nat}, (n :: ns)[j]? = some m → j < 12 := fun h =>
        Nat.lt_of_lt_of_le (List.getElem?_eq_some_iff.mp h).1 (hlen _ hb)
      have hlast : LengthItemPasses dr b 13 ↔ dr ≤ n + cut.ae := by
        refine ⟨fun h => h.2.2 n ns cut rfl hb hcut, fun h => ⟨by omega, by omega, fun n' ns' c _ hl hc => ?_⟩⟩
        rw [hb] at hl
        rw [hcut] at hc
        cases hl
        cases hc
        exact h
      refine ⟨fun c hc => ?_, ?_, fun c hc => ?_, fun i hi => ⟨?_, ?_, ?_⟩⟩
      · obtain hc | hc := List.mem_append.mp hc
        · obtain ⟨j, p, m, -, -, rfl⟩ := mem_lengthItems.mp hc
          rfl
        · rw [List.mem_singleton.mp hc]
      · refine List.pairwise_append.mpr ⟨lengthItems_ascend .., List.pairwise_singleton _ _, fun a ha c hc => ?_⟩
        obtain ⟨j, p, m, -, hm, rfl⟩ := mem_lengthItems.mp ha
        rw [List.mem_singleton.mp hc]
        have := hlt hm
        show 1 + j < 13
        omega
      · obtain hc | hc := List.mem_append.mp hc
        · obtain ⟨j, p, m, hp, hm, rfl⟩ := mem_lengthItems.mp hc
          simp only [lengthItem_iff hb (hlt hm) hp hm, Bool.and_eq_true, within_iff, decide_eq_true_iff, and_assoc]
        · rw [List.mem_singleton.mp hc]
          simp only [hlast, decide_eq_true_iff]
      · rintro -
        exact ⟨n, ns, hb⟩
      · rintro l m hl h1 - hm
        obtain rfl : n :: ns = l := Option.some.inj (hb.symm.trans hl)
        have hprev : i - 1 < (0 :: n :: ns).length := Nat.lt_succ_of_lt (List.getElem?_eq_some_iff.mp hm).1
        exact absurd (by show 1 + (i - 1) = i; omega)
          (hi _ (List.mem_append_left _ (mem_lengthItems.mpr ⟨i - 1, _, m, List.getElem?_eq_getElem hprev, hm, rfl⟩)))
      · rintro n' ns' c rfl - -
        exact absurd rfl (hi _ (List.mem_append_right _ (List.mem_singleton_self _)))

theorem gradeOk_iff {tests : Vector (Option TestEntry) 64} {g : GradeEntry} : gradeOk tests g = true ↔
    1 ≤ g.code ∧ g.code ≤ 254 ∧ g.count ≤ 16 ∧ g.verdict ≤ 15 ∧ g.first + g.count ≤ 64 ∧
      ∀ j, g.first ≤ j → j < g.first + g.count → ∃ e, tests[j]? = some (some e) := by
  have hloaded : ∀ i : Nat, ((tests[i]?).join).isSome = true ↔ ∃ e, tests[i]? = some (some e) := fun i => by
    simp [Option.isSome_iff_exists, Option.join_eq_some_iff]
  simp only [gradeOk, Bool.and_eq_true, within_iff, decide_eq_true_iff, List.all_eq_true, gradeRange, List.mem_range'_1, hloaded, and_assoc,
    and_imp, Nat.zero_le, true_and]

theorem gradeChecks_items (b : Bank) : SectionChecks 2 (GradeItemPasses b) (gradeChecks b.tests b.grades) := by
  cases hb : b.grades with
  | none => exact missing_items fun i => by simp [GradeItemPasses, hb]
  | some l =>
    cases l with
    | nil => exact missing_items fun i => by simp +contextual [GradeItemPasses, hb, eq_comm]
    | cons g gs =>
      have hlist : gradeChecks b.tests (some (g :: gs)) = entryChecks 2 (fun x => some (gradeOk b.tests x)) (g :: gs) :=
        (congrFun List.filterMap_eq_map _).symm
      rw [hlist]
      refine entryChecks_items (fun j x o hx ho => ?_) fun i hi => ⟨fun _ => ⟨g, gs, hb⟩, fun l x hl h1 hx => ?_⟩
      · cases ho
        rw [gradeOk_iff]
        refine ⟨fun h => ⟨by omega, fun l y hl _ hy => ?_⟩, fun h => h.2 _ x hb (by omega) hx⟩
        obtain rfl : g :: gs = l := Option.some.inj (hb.symm.trans hl)
        obtain rfl : x = y := Option.some.inj (hx.symm.trans hy)
        exact h
      · obtain rfl : g :: gs = l := Option.some.inj (hb.symm.trans hl)
        exact absurd rfl (hi (i - 1) x _ (by omega) hx)

theorem testOk_iff {e : TestEntry} : testOk e = true ↔
    (e.feature ≤ 13 ∨ 16 ≤ e.feature ∧ e.feature ≤ 23) ∧ e.op ≤ 3 ∧ e.dest ≤ 1 ∧ e.combine ≤ 3 ∧ e.negate ≤ 1 ∧ e.absent ≤ 2 := by
  simp only [testOk, Bool.and_eq_true, Bool.or_eq_true, within_iff, Nat.zero_le, true_and, and_assoc]

theorem testChecks_items (b : Bank) : SectionChecks 3 (TestItemPasses b) (testChecks b.tests) := by
  have hlist : testChecks b.tests = entryChecks 3 (fun x => x.map testOk) b.tests.toList := by
    simp [testChecks, entryChecks, Function.comp_def]
  rw [hlist]
  refine entryChecks_items (fun j x o hx ho => ?_) fun i hi e h1 he => ?_
  · obtain ⟨e, rfl, rfl⟩ := Option.map_eq_some_iff.mp ho
    rw [Vector.getElem?_toList] at hx
    rw [testOk_iff]
    refine ⟨fun h e' _ he' => ?_, fun h => h e (by omega) hx⟩
    rw [Nat.add_sub_cancel, hx] at he'
    cases he'
    exact h
  · exact absurd rfl (hi (i - 1) (some e) _ (by omega) (by rwa [Vector.getElem?_toList]))

theorem binOk_iff {grades lengths : Nat} {e : BinPlan} : binOk grades lengths e = true ↔ (e.grade ≠ 8 →
    e.grade < grades ∧ e.classLow ≤ e.classHigh ∧ e.classHigh < lengths ∧ 100000 ≤ e.ct ∧ e.ct ≤ 5000000 ∧ e.tolLo < e.ct ∧
      e.tolHi ≤ 1000000 ∧ e.s ≤ 3000 ∧ e.pmax ≤ 100 ∧ 1 ≤ e.nmax ∧ e.nmax ≤ 1000) := by
  simp only [binOk, gradeNone, Bool.or_eq_true, beq_iff_eq, Bool.and_eq_true, within_iff, decide_eq_true_iff, and_assoc, ne_eq,
    or_iff_not_imp_left]

theorem binChecks_items (b : Bank) :
    SectionChecks 4 (BinItemPasses b) (binChecks (b.grades.getD []).length (b.lengths.getD []).length b.bins) := by
  cases hb : b.bins with
  | none => exact missing_items fun i => by simp [BinItemPasses, hb]
  | some v =>
    have hlist : binChecks (b.grades.getD []).length (b.lengths.getD []).length (some v) =
        entryChecks 4 (fun x => some (binOk (b.grades.getD []).length (b.lengths.getD []).length x)) v.toList :=
      (congrFun List.filterMap_eq_map _).symm
    rw [hlist]
    refine entryChecks_items (fun j x o hx ho => ?_) fun i hi => ⟨fun _ => by simp [hb], fun w x hw h1 hx => ?_⟩
    · cases ho
      rw [Vector.getElem?_toList] at hx
      rw [binOk_iff]
      refine ⟨fun h => ⟨by omega, fun w y hw _ hy => ?_⟩, fun h => h.2 _ x hb (by omega) hx⟩
      obtain rfl : v = w := Option.some.inj (hb.symm.trans hw)
      obtain rfl : x = y := Option.some.inj (hx.symm.trans hy)
      exact h
    · obtain rfl : v = w := Option.some.inj (hb.symm.trans hw)
      exact absurd rfl (hi (i - 1) x _ (by omega) (by rwa [Vector.getElem?_toList]))

theorem windowOk_iff {w : ProfileWindow} : windowOk w = true ↔ w.m1 ≤ w.w1 ∧ w.w1 ≤ w.w2 ∧ w.w2 ≤ w.m2 := by
  simp [windowOk]

theorem profileChecks_items (b : Bank) : SectionChecks 5 (ProfileItemPasses b) (profileChecks b.profile) := by
  cases hb : b.profile with
  | none => exact missing_items fun i => by simp [ProfileItemPasses, hb]
  | some p =>
    have hlist : profileChecks (some p) = entryChecks 5 (fun w => some (windowOk w)) p.windows.toList ++
        [⟨5, 5, within 0 10000 p.tongueNominal⟩, ⟨5, 6, within 0 1000 p.driftLimit⟩, ⟨5, 7, within 1 8 p.stopCount⟩] :=
      congrArg (· ++ _) (congrFun List.filterMap_eq_map _).symm
    have hwindow : ∀ {j w}, p.windows.toList[j]? = some w → j < 4 := fun h => by
      simpa using (List.getElem?_eq_some_iff.mp h).1
    rw [hlist]
    refine ⟨fun c hc => ?_, ?_, fun c hc => ?_, fun i hi => ?_⟩
    · obtain hc | hc := List.mem_append.mp hc
      · obtain ⟨j, x, o, -, -, rfl⟩ := mem_entryChecks.mp hc
        rfl
      · simp only [List.mem_cons, List.not_mem_nil, or_false] at hc
        obtain rfl | rfl | rfl := hc <;> rfl
    · refine List.pairwise_append.mpr ⟨entryChecks_ascend .., by simp, fun a ha c hc => ?_⟩
      obtain ⟨j, x, o, hx, -, rfl⟩ := mem_entryChecks.mp ha
      have hj := hwindow hx
      simp only [List.mem_cons, List.not_mem_nil, or_false] at hc
      obtain rfl | rfl | rfl := hc <;> simp only <;> omega
    · obtain hc | hc := List.mem_append.mp hc
      · obtain ⟨j, w, o, hw, ho, rfl⟩ := mem_entryChecks.mp hc
        cases ho
        have hj := hwindow hw
        rw [Vector.getElem?_toList] at hw
        show windowOk w = true ↔ ProfileItemPasses b (j + 1)
        rw [windowOk_iff]
        refine ⟨fun h => ⟨by omega, fun q hq => ⟨fun w' _ hw' => ?_, by omega, by omega, by omega⟩⟩, fun h => (h.2 p hb).1 w (by omega) hw⟩
        obtain rfl : p = q := Option.some.inj (hb.symm.trans hq)
        obtain rfl : w = w' := Option.some.inj (hw.symm.trans hw')
        exact h
      · simp only [List.mem_cons, List.not_mem_nil, or_false] at hc
        obtain rfl | rfl | rfl := hc <;> simp [ProfileItemPasses, hb, within_iff]
    · simp only [List.forall_mem_append, List.forall_mem_cons] at hi
      obtain ⟨hw, h5, h6, h7, -⟩ := hi
      refine ⟨fun _ => by simp [hb], fun q hq => ⟨fun w h1 hi => ?_, fun h => absurd h.symm h5, fun h => absurd h.symm h6,
        fun h => absurd h.symm h7⟩⟩
      obtain rfl : p = q := Option.some.inj (hb.symm.trans hq)
      exact absurd (by show i - 1 + 1 = i; omega)
        (hw _ (mem_entryChecks.mpr ⟨i - 1, w, _, by rwa [Vector.getElem?_toList], rfl, rfl⟩))

theorem coverChecks_items (b : Bank) : SectionChecks 6 (CoverItemPasses b) (coverChecks b.cover) := by
  cases hb : b.cover with
  | none => exact missing_items fun i => by simp [CoverItemPasses, hb]
  | some w =>
    refine ⟨by simp [coverChecks], by simp [coverChecks], by simp [coverChecks, CoverItemPasses, hb, within_iff], fun i hi => ?_⟩
    simp only [coverChecks, List.forall_mem_cons] at hi
    simp [CoverItemPasses, hb, hi.1.symm]

/-! ### The commit -/

/-- The first failure of a bank's checks lies in the first of the seven sections that has one. -/
theorem firstFailure_commitChecks (dr : Nat) (b : Bank) : firstFailure (commitChecks dr b) =
    (firstFailure (cutChecks b.cut)).or ((firstFailure (lengthChecks dr ((b.cut.map CutSection.ae).getD 0) b.lengths)).or
      ((firstFailure (gradeChecks b.tests b.grades)).or ((firstFailure (testChecks b.tests)).or
        ((firstFailure (binChecks (b.grades.getD []).length (b.lengths.getD []).length b.bins)).or
          ((firstFailure (profileChecks b.profile)).or (firstFailure (coverChecks b.cover))))))) := by
  simp only [commitChecks, firstFailure_append, Option.or_assoc]

/-- A bank whose items all pass has no check that fails (R197). -/
theorem commitChecks_none {dr : Nat} {b : Bank} (hlen : ∀ l, b.lengths = some l → l.length ≤ 12)
    (h : ∀ sec item, CommitItemPasses dr b sec item) : firstFailure (commitChecks dr b) = none := by
  obtain ⟨cut, hcut⟩ := Option.ne_none_iff_exists'.mp (((h 0 0).1 rfl).1 rfl)
  rw [firstFailure_commitChecks, (cutChecks_items b).none fun i => (h 0 i).1 rfl,
    (lengthChecks_items hcut hlen).none fun i => (h 1 i).2.1 rfl, (gradeChecks_items b).none fun i => (h 2 i).2.2.1 rfl,
    (testChecks_items b).none fun i => (h 3 i).2.2.2.1 rfl, (binChecks_items b).none fun i => (h 4 i).2.2.2.2.1 rfl,
    (profileChecks_items b).none fun i => (h 5 i).2.2.2.2.2.1 rfl, (coverChecks_items b).none fun i => (h 6 i).2.2.2.2.2.2 rfl]
  rfl

/-- The first item of Table 62 that fails is the first check that fails (R196). -/
theorem commitChecks_first {dr : Nat} {b : Bank} {sec item : Nat} (hlen : ∀ l, b.lengths = some l → l.length ≤ 12)
    (h : ¬CommitItemPasses dr b sec item)
    (hbefore : ∀ sec' item', sec' < sec ∨ sec' = sec ∧ item' < item → CommitItemPasses dr b sec' item') :
    firstFailure (commitChecks dr b) = some ⟨sec, item, false⟩ := by
  have earlier : ∀ {sec'}, sec' < sec → ∀ i, CommitItemPasses dr b sec' i := fun hs i => hbefore _ i (.inl hs)
  have lower : ∀ j < item, CommitItemPasses dr b sec j := fun j hj => hbefore _ j (.inr ⟨rfl, hj⟩)
  have hcut : 0 < sec → ∃ cut, b.cut = some cut := fun hs => Option.ne_none_iff_exists'.mp (((earlier hs 0).1 rfl).1 rfl)
  have c0 : 0 < sec → firstFailure (cutChecks b.cut) = none := fun hs => (cutChecks_items b).none fun i => (earlier hs i).1 rfl
  have c1 : 1 < sec → firstFailure (lengthChecks dr ((b.cut.map CutSection.ae).getD 0) b.lengths) = none := fun hs => by
    obtain ⟨cut, hc⟩ := hcut (by omega)
    exact (lengthChecks_items hc hlen).none fun i => (earlier hs i).2.1 rfl
  have c2 : 2 < sec → firstFailure (gradeChecks b.tests b.grades) = none :=
    fun hs => (gradeChecks_items b).none fun i => (earlier hs i).2.2.1 rfl
  have c3 : 3 < sec → firstFailure (testChecks b.tests) = none := fun hs => (testChecks_items b).none fun i => (earlier hs i).2.2.2.1 rfl
  have c4 : 4 < sec → firstFailure (binChecks (b.grades.getD []).length (b.lengths.getD []).length b.bins) = none :=
    fun hs => (binChecks_items b).none fun i => (earlier hs i).2.2.2.2.1 rfl
  have c5 : 5 < sec → firstFailure (profileChecks b.profile) = none :=
    fun hs => (profileChecks_items b).none fun i => (earlier hs i).2.2.2.2.2.1 rfl
  have hsec : sec ≤ 6 := by
    by_contra hgt
    exact h (by unfold CommitItemPasses; omega)
  rw [firstFailure_commitChecks]
  obtain rfl | rfl | rfl | rfl | rfl | rfl | rfl : sec = 0 ∨ sec = 1 ∨ sec = 2 ∨ sec = 3 ∨ sec = 4 ∨ sec = 5 ∨ sec = 6 := by omega
  · rw [(cutChecks_items b).first (fun hp => h (by simpa [CommitItemPasses] using hp)) fun j hj => (lower j hj).1 rfl]; rfl
  · obtain ⟨cut, hc⟩ := hcut (by omega)
    rw [c0 (by omega), (lengthChecks_items hc hlen).first (fun hp => h (by simpa [CommitItemPasses] using hp)) fun j hj =>
      (lower j hj).2.1 rfl]; rfl
  · rw [c0 (by omega), c1 (by omega), (gradeChecks_items b).first (fun hp => h (by simpa [CommitItemPasses] using hp)) fun j hj =>
      (lower j hj).2.2.1 rfl]; rfl
  · rw [c0 (by omega), c1 (by omega), c2 (by omega), (testChecks_items b).first (fun hp => h (by simpa [CommitItemPasses] using hp))
      fun j hj => (lower j hj).2.2.2.1 rfl]; rfl
  · rw [c0 (by omega), c1 (by omega), c2 (by omega), c3 (by omega), (binChecks_items b).first
      (fun hp => h (by simpa [CommitItemPasses] using hp)) fun j hj => (lower j hj).2.2.2.2.1 rfl]; rfl
  · rw [c0 (by omega), c1 (by omega), c2 (by omega), c3 (by omega), c4 (by omega), (profileChecks_items b).first
      (fun hp => h (by simpa [CommitItemPasses] using hp)) fun j hj => (lower j hj).2.2.2.2.2.1 rfl]; rfl
  · rw [c0 (by omega), c1 (by omega), c2 (by omega), c3 (by omega), c4 (by omega), c5 (by omega), (coverChecks_items b).first
      (fun hp => h (by simpa [CommitItemPasses] using hp)) fun j hj => (lower j hj).2.2.2.2.2.2 rfl]; rfl

theorem commitAnswer_above {k : Byte} (s : State) (h : 1 < k.toNat) : commitAnswer [(k.toNat : Int)] s = refuse (.field 0) s := by
  simp only [commitAnswer, fld_head, bankOfCode_above h]

theorem commitAnswer_otherState {k : BankId} {s : State} (h : s.recipe.banks[k].state ≠ .loading) :
    commitAnswer [((BitVec.ofNat 8 k.val : Byte).toNat : Int)] s = refuse .state s := by
  simp only [commitAnswer, fld_head, bankOfCode_val k]
  rw [if_neg h]

theorem commitAnswer_fails {k : BankId} {s : State} {c : CommitCheck} (h : s.recipe.banks[k].state = .loading)
    (hc : firstFailure (commitChecks s.inForce.motion.dr s.recipe.banks[k]) = some c) :
    commitAnswer [((BitVec.ofNat 8 k.val : Byte).toNat : Int)] s = refuse (.invalid c.sec c.item) s := by
  simp only [commitAnswer, fld_head, bankOfCode_val k]
  rw [if_pos h, hc]

theorem commitAnswer_passes {k : BankId} {s : State} (h : s.recipe.banks[k].state = .loading)
    (hc : firstFailure (commitChecks s.inForce.motion.dr s.recipe.banks[k]) = none) :
    commitAnswer [((BitVec.ofNat 8 k.val : Byte).toNat : Int)] s = okayWith (.generation s.recipe.counter) (commitBank k s) := by
  simp only [commitAnswer, fld_head, bankOfCode_val k]
  rw [if_pos h, hc]

/-- The counter moves on by one or two generations, and never to the one the other bank holds (R197). -/
theorem advanceCounter_cases (other : Bank) (g : Nat) :
    advanceCounter other g = nextGeneration g ∨ advanceCounter other g = nextGeneration (nextGeneration g) := by
  unfold advanceCounter
  dsimp only
  split
  · exact .inr rfl
  · exact .inl rfl

end Sys2Proof.Machine

open Sys2Proof Sys2Proof.Machine

/-- Settles O59, by the first failure of the checks of Table 62. -/
theorem recipeCommitValidatesTheBank : Obligations.RecipeCommitValidatesTheBank := by
  refine ⟨fun s r k ha hkind hb hk => exec_answered_fields ha exec_recipeCommit hkind (parseFields_byte hb) (commitAnswer_above s hk), ?_⟩
  rintro s r k _ ha hkind hb rfl
  have answered := fun {t : State} {st : Status} {d : ReplyData} =>
    exec_answered_fields (t := t) (st := st) (d := d) ha exec_recipeCommit hkind (parseFields_byte hb)
  refine ⟨fun hstate => answered (commitAnswer_otherState hstate), fun hload hlen => ⟨fun sec item hfail hbefore => ?_, fun hall => ?_⟩⟩
  · exact answered (commitAnswer_fails hload (commitChecks_first hlen hfail hbefore))
  · exact ⟨advanceCounter s.recipe.banks[otherBank k] s.recipe.counter, answered (commitAnswer_passes hload (commitChecks_none hlen hall)),
      advanceCounter_cases .., (advanceCounter_ne ..).2⟩

end

