-- ==== Sys2Proof/Proofs/Configure.lean ====
section
/-! PROOFS. CONFIGURE (R209): the checks of each section list the fields of Table 69 in order, so the first check that fails is the lowest
field that fails; a section that passes is in force, and the test of R5 follows. -/

namespace Sys2Proof.Machine

/-! ### The checks of a section -/

/-- A field's check as an item of one section. -/
def FieldCheck.asCheck (c : FieldCheck) : CommitCheck := ⟨0, c.1, c.2⟩

/-- The checks of a section of n fields give fields in ascending order, each with its own result, and every field that fails is among them. -/
structure FieldsChecked (n : Nat) (P : Nat → Prop) (l : List FieldCheck) : Prop where
  order : l.Pairwise (fun a b => a.1 < b.1)
  ok : ∀ c ∈ l, 1 ≤ c.1 ∧ c.1 ≤ n ∧ (c.2 = true ↔ P c.1)
  all : ∀ i, 1 ≤ i → i ≤ n → (∀ c ∈ l, c.1 ≠ i) → P i

/-- The field checks are the checks of one section, over its fields. -/
theorem FieldsChecked.items {n : Nat} {P : Nat → Prop} {l : List FieldCheck} (h : FieldsChecked n P l) :
    SectionChecks 0 (fun i => 1 ≤ i → i ≤ n → P i) (l.map FieldCheck.asCheck) := by
  refine ⟨fun c hc => ?_, List.pairwise_map.mpr h.order, fun c hc => ?_, fun i hi h1 hn => h.all i h1 hn fun c hc => ?_⟩
  · obtain ⟨a, -, rfl⟩ := List.mem_map.mp hc
    rfl
  · obtain ⟨a, ha, rfl⟩ := List.mem_map.mp hc
    obtain ⟨h1, hn, hok⟩ := h.ok a ha
    exact hok.trans ⟨fun hp _ _ => hp, fun hp => hp h1 hn⟩
  · exact hi _ (List.mem_map_of_mem hc)

theorem firstBad_eq (l : List FieldCheck) : firstBad l = (firstFailure (l.map FieldCheck.asCheck)).map CommitCheck.item := by
  unfold firstBad firstFailure
  rw [List.find?_map, Option.map_map]
  rfl

theorem FieldsChecked.none {n : Nat} {P : Nat → Prop} {l : List FieldCheck} (h : FieldsChecked n P l) (hp : ∀ i, 1 ≤ i → i ≤ n → P i) :
    firstBad l = none := by
  rw [firstBad_eq, h.items.none hp]; rfl

theorem FieldsChecked.first {n : Nat} {P : Nat → Prop} {l : List FieldCheck} (h : FieldsChecked n P l) {i : Nat} (h1 : 1 ≤ i) (hn : i ≤ n)
    (hi : ¬P i) (hbefore : ∀ j, 1 ≤ j → j < i → P j) : firstBad l = some i := by
  rw [firstBad_eq, h.items.first (i := i) (fun hp => hi (hp h1 hn)) fun j hj h1 _ => hbefore j h1 hj]; rfl

theorem inRange_iff {lo hi v : Int} : inRange lo hi v = true ↔ lo ≤ v ∧ v ≤ hi := by simp [inRange]

theorem tableField_eq (fs : List Int) (i : Nat) : tableField fs i = fld fs (i - 1) := rfl

/-! ### The sections of Table 69 -/

/-- Every bank in use allows a Dr (R201). -/
theorem banks_allowDr {s : State} {dr : Int} : s.recipe.banks.toList.all (Bank.allowsDr dr) = true ↔
    ∀ (k : BankId) (n : Nat) (ns : List Nat) (c : CutSection),
      s.recipe.banks[k].state = .valid ∨ s.recipe.banks[k].state = .active ∨ s.recipe.banks[k].state = .retiring →
      s.recipe.banks[k].lengths = some (n :: ns) → s.recipe.banks[k].cut = some c → dr ≤ (n : Int) + c.ae := by
  have hone : ∀ b : Bank, b.allowsDr dr = true ↔ ∀ (n : Nat) (ns : List Nat) (c : CutSection),
      b.state = .valid ∨ b.state = .active ∨ b.state = .retiring → b.lengths = some (n :: ns) → b.cut = some c → dr ≤ (n : Int) + c.ae := by
    intro b
    cases hs : b.state <;> rcases hl : b.lengths with _ | _ | ⟨n, ns⟩ <;> cases hc : b.cut <;> simp [Bank.allowsDr, hs, hl, hc]
  rw [List.all_eq_true]
  constructor
  · intro h k
    exact (hone _).mp (h _ (by simp))
  · intro h b hb
    obtain ⟨i, hi, rfl⟩ := List.getElem_of_mem hb
    exact (hone _).mpr (h ⟨i, by simpa using hi⟩)

theorem configLayout_above {n : Nat} (h : 4 < n) : configLayout n = none := by
  unfold configLayout
  split <;> first | rfl | omega

theorem configLayout_le {n : Nat} {layout : List FieldSize} (h : configLayout n = some layout) : n = 0 ∨ n = 1 ∨ n = 2 ∨ n = 3 ∨ n = 4 := by
  by_cases hn : 4 < n
  · rw [configLayout_above hn] at h
    contradiction
  · omega

theorem motionChecks_fields (s : State) (fs : List Int) : FieldsChecked 8 (MotionFieldPasses s (tableField fs)) (motionChecks s fs) := by
  refine ⟨by simp [motionChecks], ?_, fun i h1 hn hi => ?_⟩
  · simp only [motionChecks, List.forall_mem_cons, MotionFieldPasses, tableField_eq, inRange_iff, Bool.and_eq_true, decide_eq_true_iff,
      banks_allowDr]
    simp [and_assoc]
  · simp only [motionChecks, List.forall_mem_cons] at hi
    omega

theorem deckChecks_fields (fs : List Int) : FieldsChecked 2 (fun i => (i = 1 → 1 ≤ tableField fs 1 ∧ tableField fs 1 ≤ 12) ∧
    (i = 2 → tableField fs 2 < tableField fs 1)) (deckChecks fs) := by
  refine ⟨by simp [deckChecks], by simp [deckChecks, inRange_iff, tableField_eq], fun i h1 hn hi => ?_⟩
  simp only [deckChecks, List.forall_mem_cons] at hi
  omega

theorem scanChecks_fields (fs : List Int) : FieldsChecked 20 (ScanFieldPasses (tableField fs)) (scanChecks fs) := by
  refine ⟨?_, ?_, fun i h1 hn hi => ?_⟩
  · simp only [scanChecks, List.pairwise_cons, List.pairwise_append, List.pairwise_map, List.forall_mem_append, List.forall_mem_map,
      List.forall_mem_cons, List.mem_range]
    refine ⟨⟨by omega, by simp⟩, List.pairwise_lt_range.imp fun h => by omega, by simp, fun j hj => ⟨by omega, by omega, by omega, by simp⟩⟩
  · simp only [scanChecks, List.forall_mem_cons, List.forall_mem_append, List.forall_mem_map, List.mem_range, ScanFieldPasses, tableField_eq,
      inRange_iff, Bool.or_eq_true, decide_eq_true_iff]
    refine ⟨by simp, fun j hj => ⟨by omega, by omega, ?_⟩, by simp⟩
    rw [show j + 2 - 1 = j + 1 by omega, show 1 - 1 = 0 by omega]
    omega
  · simp only [scanChecks, List.forall_mem_cons, List.forall_mem_append, List.forall_mem_map, List.mem_range] at hi
    obtain ⟨hcount, hslots, hpitch, hlag, hend, -⟩ := hi
    refine ⟨by omega, fun h2 h17 => absurd ?_ (hslots (i - 2) (by omega)), by omega, by omega, by omega⟩
    omega

theorem chainChecks_fields (fs : List Int) : FieldsChecked 10 (ChainFieldPasses (tableField fs)) (chainChecks fs) := by
  refine ⟨?_, ?_, fun i h1 hn hi => ?_⟩
  · simp only [chainChecks, List.pairwise_cons, List.pairwise_map, List.forall_mem_map, List.forall_mem_cons, List.mem_range]
    exact ⟨⟨by omega, by omega⟩, by omega, List.pairwise_lt_range.imp fun h => by omega⟩
  · simp only [chainChecks, List.forall_mem_cons, List.forall_mem_map, List.mem_range, ChainFieldPasses, tableField_eq,
      inRange_iff, Bool.or_eq_true, Bool.and_eq_true, decide_eq_true_iff, bne_iff_ne]
    refine ⟨by simp, by simp, fun j hj => ⟨by omega, by omega, ?_⟩⟩
    rw [show j + 3 - 1 = j + 2 by omega, show j + 2 - 1 = j + 1 by omega, show 10 - 1 = 9 by omega, show 1 - 1 = 0 by omega]
    omega
  · simp only [chainChecks, List.forall_mem_cons, List.forall_mem_map, List.mem_range] at hi
    obtain ⟨hlen, htn, hoff⟩ := hi
    have h3 : ¬3 ≤ i := fun h => hoff (i - 3) (by omega) (by omega)
    exact ⟨by omega, by omega, by omega, by omega⟩

/-- Field j of channel c, as the checks of the channel read it. -/
theorem tableField_channel (fs : List Int) (c j : Nat) : tableField fs (j + 1 + 8 * c) = fld fs (8 * c + j) := by
  rw [tableField_eq]; congr 1; omega

/-- A channel's role is its own, or NONE (R28). -/
theorem roleCode_free {fs : List Int} {c : Nat} :
    (List.range c).all (fun d => (roleCode fs c).isNone || roleCode fs d != roleCode fs c) = true ↔
      (fld fs (8 * c + 3) ≠ 10 → ∀ d < c, fld fs (8 * d + 3) ≠ fld fs (8 * c + 3)) := by
  rw [List.all_eq_true]
  unfold roleCode
  by_cases hc : fld fs (8 * c + 3) = 10
  · simp [hc]
  · simp only [hc, if_false, Option.isNone_some, Bool.false_or, bne_iff_ne, List.mem_range, ne_eq, not_false_eq_true, true_imp_iff]
    refine forall₂_congr fun d _ => ?_
    split
    · simp_all [eq_comm]
    · simp

theorem channelChecks_fields (fs : List Int) (c : Nat) : ∀ x ∈ channelChecks fs c, ∃ j < 8, x.1 = j + 1 + 8 * c ∧
    (x.2 = true ↔ ChannelFieldPasses (tableField fs) c j) := by
  simp only [channelChecks, List.forall_mem_cons, inRange_iff, Bool.or_eq_true, Bool.and_eq_true, decide_eq_true_iff, beq_iff_eq,
    roleCode_free]
  have f0 : ∀ d, tableField fs (1 + 8 * d) = fld fs (8 * d) := fun d => tableField_channel fs d 0
  have f1 : ∀ d, tableField fs (2 + 8 * d) = fld fs (8 * d + 1) := fun d => tableField_channel fs d 1
  have f2 : ∀ d, tableField fs (3 + 8 * d) = fld fs (8 * d + 2) := fun d => tableField_channel fs d 2
  have f3 : ∀ d, tableField fs (4 + 8 * d) = fld fs (8 * d + 3) := fun d => tableField_channel fs d 3
  have f4 : ∀ d, tableField fs (5 + 8 * d) = fld fs (8 * d + 4) := fun d => tableField_channel fs d 4
  have f5 : ∀ d, tableField fs (6 + 8 * d) = fld fs (8 * d + 5) := fun d => tableField_channel fs d 5
  have f6 : ∀ d, tableField fs (7 + 8 * d) = fld fs (8 * d + 6) := fun d => tableField_channel fs d 6
  have f7 : ∀ d, tableField fs (8 + 8 * d) = fld fs (8 * d + 7) := fun d => tableField_channel fs d 7
  refine ⟨⟨0, by omega, by omega, ?_⟩, ⟨1, by omega, by omega, ?_⟩, ⟨2, by omega, by omega, ?_⟩, ⟨3, by omega, by omega, ?_⟩,
    ⟨4, by omega, by omega, ?_⟩, ⟨6, by omega, by omega, ?_⟩, ⟨7, by omega, by omega, ?_⟩, by simp⟩ <;>
    simp [ChannelFieldPasses, f0, f1, f2, f3, f4, f5, f6, f7, and_assoc, or_iff_not_imp_left]

/-- The checks of one channel stand in ascending order. -/
theorem channelChecks_ascend (fs : List Int) (c : Nat) : (channelChecks fs c).Pairwise (fun a b => a.1 < b.1) := by
  simp [channelChecks]

/-- A field of a channel other than its L1 has a check. -/
theorem channelChecks_mem (fs : List Int) (c : Nat) {j : Nat} (hj : j < 8) (h5 : j ≠ 5) : ∃ x ∈ channelChecks fs c, x.1 = j + 1 + 8 * c := by
  have hcases : j = 0 ∨ j = 1 ∨ j = 2 ∨ j = 3 ∨ j = 4 ∨ j = 6 ∨ j = 7 := by omega
  obtain rfl | rfl | rfl | rfl | rfl | rfl | rfl := hcases <;> simp [channelChecks]

theorem allChannelChecks_fields (fs : List Int) : FieldsChecked 128
    (fun i => ChannelFieldPasses (tableField fs) ((i - 1) / 8) ((i - 1) % 8)) ((List.range 16).flatMap (channelChecks fs)) := by
  have hplace : ∀ c j, j < 8 → (j + 1 + 8 * c - 1) / 8 = c ∧ (j + 1 + 8 * c - 1) % 8 = j := by omega
  refine ⟨?_, fun x hx => ?_, fun i h1 hn hi => ?_⟩
  · refine List.pairwise_flatMap.mpr ⟨fun c _ => channelChecks_ascend fs c, List.pairwise_lt_range.imp fun {c d} hcd x hx y hy => ?_⟩
    obtain ⟨i, hi, hxi, -⟩ := channelChecks_fields fs c x hx
    obtain ⟨j, hj, hyj, -⟩ := channelChecks_fields fs d y hy
    omega
  · obtain ⟨c, hc, hx⟩ := List.mem_flatMap.mp hx
    obtain ⟨j, hj, hxj, hok⟩ := channelChecks_fields fs c x hx
    have hc' := List.mem_range.mp hc
    obtain ⟨hdiv, hmod⟩ := hplace c j hj
    exact ⟨by omega, by omega, by rw [hxj, hdiv, hmod]; exact hok⟩
  · by_cases h5 : (i - 1) % 8 = 5
    · simp [ChannelFieldPasses, h5]
    · obtain ⟨x, hx, hxi⟩ := channelChecks_mem fs ((i - 1) / 8) (j := (i - 1) % 8) (by omega) h5
      exact absurd (by omega) (hi x (List.mem_flatMap.mpr ⟨(i - 1) / 8, List.mem_range.mpr (by omega), hx⟩))

/-- The checks of every section list its fields (Table 69). -/
theorem sectionChecks_fields {sec : Nat} {layout : List FieldSize} (h : configLayout sec = some layout) (s : State) (fs : List Int) :
    FieldsChecked layout.length (ConfigFieldPasses s sec (tableField fs)) (sectionChecks s sec fs) := by
  have congr : ∀ {n : Nat} {P Q : Nat → Prop} {l : List FieldCheck}, FieldsChecked n P l → (∀ i, P i ↔ Q i) → FieldsChecked n Q l :=
    fun hp hq => (funext fun i => propext (hq i)) ▸ hp
  obtain rfl | rfl | rfl | rfl | rfl : sec = 0 ∨ sec = 1 ∨ sec = 2 ∨ sec = 3 ∨ sec = 4 := configLayout_le h
  · cases h
    exact congr (motionChecks_fields s fs) fun i => by simp [ConfigFieldPasses]
  · cases h
    exact congr (allChannelChecks_fields fs) fun i => by simp [ConfigFieldPasses]
  · cases h
    exact congr (scanChecks_fields fs) fun i => by simp [ConfigFieldPasses]
  · cases h
    exact congr (deckChecks_fields fs) fun i => by simp [ConfigFieldPasses]
  · cases h
    exact congr (chainChecks_fields fs) fun i => by simp [ConfigFieldPasses]

/-! ### A section put in force -/

theorem setAt_true {n : Nat} (v : Vector Bool n) (k i : Fin n) : (setAt v k true)[i] = (v[i] || decide (i.val = k.val)) := by
  by_cases h : k = i
  · subst h
    rw [setAt_self]
    simp
  · rw [setAt_other v true h]
    simp [Fin.val_ne_of_ne (Ne.symm h)]

theorem roleCode_ofCode {v : Int} (h0 : 0 ≤ v) (h : v ≤ 10) : (((Role.ofCode v).getD .none).code : Int) = v := by
  interval_cases v <;> rfl

theorem modeCode_ofCode {v : Int} (h0 : 0 ≤ v) (h : v ≤ 4) : (((CompMode.ofCode v).getD .off).code : Int) = v := by
  interval_cases v <;> rfl

theorem actionCode_ofCode {v : Int} (h0 : 0 ≤ v) (h : v ≤ 1) : (((CompAction.ofCode v).getD .mark).code : Int) = v := by
  interval_cases v <;> rfl

/-- A channel of passing fields is set up as they say (Table 14). -/
theorem channelOf_fields {fs : List Int} {c : Nat} (hp : ∀ j < 8, ChannelFieldPasses (tableField fs) c j) :
    (channelOf fs c).range = (tableField fs (1 + 8 * c)).toNat ∧ (channelOf fs c).base = tableField fs (2 + 8 * c) ∧
      (channelOf fs c).span = tableField fs (3 + 8 * c) ∧ ((channelOf fs c).role.code : Int) = tableField fs (4 + 8 * c) ∧
      ((channelOf fs c).mode.code : Int) = tableField fs (5 + 8 * c) ∧ (channelOf fs c).l1 = tableField fs (6 + 8 * c) ∧
      (channelOf fs c).l2 = tableField fs (7 + 8 * c) ∧ ((channelOf fs c).action.code : Int) = tableField fs (8 + 8 * c) := by
  obtain ⟨hrole0, hrole, -⟩ := (hp 3 (by decide)).2.2.2.1 rfl
  obtain ⟨hmode0, hmode⟩ := (hp 4 (by decide)).2.2.2.2.1 rfl
  obtain ⟨haction0, haction⟩ := (hp 7 (by decide)).2.2.2.2.2.2 rfl
  have f0 := tableField_channel fs c 0
  have f1 := tableField_channel fs c 1
  have f2 := tableField_channel fs c 2
  have f3 := tableField_channel fs c 3
  have f4 := tableField_channel fs c 4
  have f5 := tableField_channel fs c 5
  have f6 := tableField_channel fs c 6
  have f7 := tableField_channel fs c 7
  simp only [Nat.zero_add, Nat.reduceAdd, Nat.add_zero] at f0 f1 f2 f3 f4 f5 f6 f7
  rw [f3] at hrole0 hrole
  rw [f4] at hmode0 hmode
  rw [f7] at haction0 haction
  rw [f0, f1, f2, f3, f4, f5, f6, f7]
  exact ⟨rfl, rfl, rfl, roleCode_ofCode hrole0 hrole, modeCode_ofCode hmode0 hmode, rfl, rfl, actionCode_ofCode haction0 haction⟩

theorem channelsLayout_length : (allChannels.flatMap (fun _ => channelLayout)).length = 128 := by
  simp [allChannels, channelLayout]

theorem installSection_installed {sec : Nat} {layout : List FieldSize} {fs : List Int} (h : configLayout sec = some layout) (s : State)
    (c : Configuration) (hp : ∀ i, 1 ≤ i → i ≤ layout.length → ConfigFieldPasses s sec (tableField fs) i) :
    SectionInstalled c (installSection sec fs c) sec (tableField fs) := by
  obtain rfl | rfl | rfl | rfl | rfl : sec = 0 ∨ sec = 1 ∨ sec = 2 ∨ sec = 3 ∨ sec = 4 := configLayout_le h
  · exact ⟨fun i => setAt_true c.marks 0 i, nofun, fun _ => rfl, fun _ => rfl, fun _ => rfl, fun _ => rfl, fun _ => rfl, nofun, nofun, nofun,
      nofun⟩
  · cases h
    rw [show installSection 1 fs c = { c with
      channels := Vector.ofFn (fun i : Fin 16 => channelOf fs i.val), marks := setAt c.marks 1 true } from rfl]
    have hsetup : ∀ d : Channel, (Vector.ofFn (fun i : Fin 16 => channelOf fs i.val))[d] = channelOf fs d.val := fun d => by simp
    generalize Vector.ofFn (fun i : Fin 16 => channelOf fs i.val) = v at hsetup ⊢
    refine ⟨fun i => setAt_true c.marks 1 i, fun _ => rfl, nofun, fun _ => rfl, fun _ => rfl, fun _ => rfl, nofun, fun _ d => ?_, nofun, nofun,
      nofun⟩
    have hd := d.isLt
    have passes : ∀ j < 8, ChannelFieldPasses (tableField fs) d.val j := fun j hj => by
      have hle : j + 1 + 8 * d.val ≤ (allChannels.flatMap (fun _ => channelLayout)).length := by rw [channelsLayout_length]; omega
      have hpass := (hp (j + 1 + 8 * d.val) (by omega) hle).2.1 rfl
      rwa [show (j + 1 + 8 * d.val - 1) / 8 = d.val by omega, show (j + 1 + 8 * d.val - 1) % 8 = j by omega] at hpass
    rw [show ({ c with channels := v, marks := setAt c.marks 1 true } : Configuration).channels[d] = channelOf fs d.val from hsetup d]
    exact channelOf_fields passes
  · refine ⟨fun i => setAt_true c.marks 2 i, fun _ => rfl, fun _ => rfl, nofun, fun _ => rfl, fun _ => rfl, nofun, nofun, fun _ =>
      ⟨rfl, fun i => ?_, rfl, rfl, rfl⟩, nofun, nofun⟩
    simp [installSection, scanOf, natFld, tableField_eq]
  · exact ⟨fun i => setAt_true c.marks 3 i, fun _ => rfl, fun _ => rfl, fun _ => rfl, nofun, fun _ => rfl, nofun, nofun, nofun, fun _ => rfl,
      nofun⟩
  · refine ⟨fun i => setAt_true c.marks 4 i, fun _ => rfl, fun _ => rfl, fun _ => rfl, fun _ => rfl, nofun, nofun, nofun, nofun, nofun,
      fun _ => ⟨rfl, rfl, fun i => ?_⟩⟩
    simp [installSection, chainOf, natFld, tableField_eq]

/-- The test of R5 on a state: STANDBY takes the state that rest allows, and the rest stays. -/
theorem standbyTest_facts (s : State) : (standbyTest s).line.state = (if s.line.state = .standby then restState s else s.line.state) ∧
    (standbyTest s).inForce = s.inForce ∧ (standbyTest s).config = s.config ∧ (standbyTest s).recipe = s.recipe ∧
    (standbyTest s).bundles = s.bundles ∧ (standbyTest s).profile = s.profile ∧
    (standbyTest s).motion.travel = s.motion.travel := by
  unfold standbyTest
  split
  case isTrue h =>
    have hl := lineNote_linkOnly s (enterLine .ready s)
    refine ⟨?_, hl.inForce, hl.config, hl.recipe, hl.bundles, hl.profile, by rw [hl.motion]; rfl⟩
    rw [lineNote_state, if_pos h.1, h.2]; rfl
  case isFalse h =>
    refine ⟨?_, rfl, rfl, rfl, rfl, rfl, rfl⟩
    split
    case isTrue hs =>
      obtain hr | hr := restState_cases s
      · exact absurd ⟨hs, hr⟩ h
      · rw [hs, hr]
    case isFalse => rfl

end Sys2Proof.Machine

open Sys2Proof Sys2Proof.Machine

namespace Sys2Proof.Machine

theorem configurable_of_rest {l : LineState} (h : l = .standby ∨ l = .ready) : l.configurable = true := by
  obtain rfl | rfl := h <;> rfl

theorem not_configurable_of_moving {l : LineState} (h : l = .run ∨ l = .drain ∨ l = .estop) : ¬l.configurable = true := by
  obtain rfl | rfl | rfl := h <;> decide

section
variable {s : State} {r : Request} {sec : Byte} {body : List Byte}

theorem configureAnswer_above (hb : r.body = sec :: body) (h : 4 < sec.toNat) :
    configureAnswer r s = if s.line.state.configurable then refuse (.field 0) s else refuse .state s := by
  simp only [configureAnswer, hb, configLayout_above h]

theorem configureAnswer_misfit {layout : List FieldSize} (hb : r.body = sec :: body) (hl : configLayout sec.toNat = some layout)
    (hp : parseFields layout body = none) : configureAnswer r s = refuse .frame s := by
  simp only [configureAnswer, hb, hl, hp]

theorem configureAnswer_fields {layout : List FieldSize} {fs : List Int} (hb : r.body = sec :: body)
    (hl : configLayout sec.toNat = some layout) (hp : parseFields layout body = some fs) :
    configureAnswer r s = if s.line.state.configurable then configureSection sec.toNat fs s else refuse .state s := by
  simp only [configureAnswer, hb, hl, hp]

end

theorem configureSection_bad {sec i : Nat} {fs : List Int} {s : State} (h : firstBad (sectionChecks s sec fs) = some i) :
    configureSection sec fs s = refuse (.field i) s := by simp only [configureSection, h]

theorem configureSection_good {sec : Nat} {fs : List Int} {s : State} (h : firstBad (sectionChecks s sec fs) = none) :
    configureSection sec fs s = okay (standbyTest { s with inForce := installSection sec fs s.inForce }) := by
  simp only [configureSection, h]

end Sys2Proof.Machine

/-- Settles O57, by the line state, the layout, and the first field that fails. -/
theorem configureJudgesTheSection : Obligations.ConfigureJudgesTheSection := by
  intro s r sec body ha hkind hb
  have answered : ∀ {t : State} {st : Status}, configureAnswer r s = ⟨t, st, .none⟩ → exec .configure s = .next (reply r st .none t) :=
    fun h => exec_answered ha exec_configure hkind h
  refine ⟨fun h => ⟨fun hl => answered ?_, fun hl => answered ?_⟩, fun layout hl hp => answered (configureAnswer_misfit hb hl hp), ?_⟩
  · rw [configureAnswer_above hb h, if_pos (configurable_of_rest hl)]; rfl
  · rw [configureAnswer_above hb h, if_neg (not_configurable_of_moving hl)]; rfl
  intro layout fs f hl hp hf
  obtain rfl : f = tableField fs := funext hf
  have hfields := sectionChecks_fields hl s fs
  refine ⟨fun hline => answered ?_, fun hline => ⟨fun hall => ?_, fun i h1 hn hi hbefore => answered ?_⟩⟩
  · rw [configureAnswer_fields hb hl hp, if_neg (not_configurable_of_moving hline)]; rfl
  · obtain ⟨hstate, hforce, hconfig, hrecipe, hbundles, hprofile, htravel⟩ :=
      standbyTest_facts { s with inForce := installSection sec.toNat fs s.inForce }
    refine ⟨standbyTest { s with inForce := installSection sec.toNat fs s.inForce }, answered ?_, ?_, hconfig, ?_, hrecipe, hbundles, hprofile,
      htravel⟩
    · rw [configureAnswer_fields hb hl hp, if_pos (configurable_of_rest hline), configureSection_good (hfields.none hall)]; rfl
    · rw [hforce]
      exact installSection_installed hl s _ hall
    · rw [hstate, hforce]
  · rw [configureAnswer_fields hb hl hp, if_pos (configurable_of_rest hline), configureSection_bad (hfields.first h1 hn hi hbefore)]; rfl

end

