-- ==== Sys2Proof/Proofs/BinWork.lean ====
section
/-! PROOFS. Work on the bins one after another (R154, R162, R166, R167): what an opening, a closing and the generation-close test of one bin
leave unchanged, and so what a pass over all the bins makes of each of them. -/

namespace Sys2Proof.Machine

/-! ### Banks kept and what is read of them -/

theorem activeBank_congr {s t : State} (h : ∀ k : BankId, t.recipe.banks[k].state = .active ↔ s.recipe.banks[k].state = .active) :
    activeBank t = activeBank s := by
  unfold activeBank
  congr 1
  funext k
  rw [Bool.eq_iff_iff, beq_iff_eq, beq_iff_eq]
  exact h k

theorem BinsKept.activeBank {s t : State} (h : BinsKept s t) : activeBank t = activeBank s :=
  activeBank_congr fun k => (h.banks k).active_iff

theorem planFor_of_active {s t : State} (ha : activeBank t = activeBank s) (hb : ∀ k : BankId, t.recipe.banks[k].bins = s.recipe.banks[k].bins)
    (b : Bin) : planFor t b = planFor s b := by
  unfold planFor
  rw [ha]
  split
  · rfl
  · rw [hb]

theorem BinsKept.planFor {s t : State} (h : BinsKept s t) (b : Bin) : planFor t b = planFor s b :=
  planFor_of_active h.activeBank (fun k => by rw [(h.banks k).eq]) b

/-- The plan's entries are those of the ACTIVE bank (R154). -/
theorem planFor_bank {s : State} {b : Bin} {k : BankId} {e : BinPlan} (h : planFor s b = some (k, e)) : activeBank s = some k := by
  unfold planFor at h
  split at h
  · contradiction
  · rename_i k' hk
    split at h
    · contradiction
    · split at h
      · contradiction
      · cases h
        exact hk

/-! ### Work on some bins -/

/-- From s to t the bins that B picks may have opened or closed bundles: the other bins stay, every bin keeps the level of its input, the banks
change in their bundle counts alone, only the ACTIVE bank gains bundles, and the dumps are not touched. -/
structure BinWork (B : Bin → Prop) (s t : State) : Prop where
  only : BinsOnly s t
  other : ∀ b, ¬B b → t.bundles.bins[b] = s.bundles.bins[b]
  level : ∀ b : Bin, t.bundles.bins[b].emptyLevel = s.bundles.bins[b].emptyLevel
  nextClose : s.bundles.nextClose ≤ t.bundles.nextClose
  banks : ∀ k : BankId, t.recipe.banks[k] = { s.recipe.banks[k] with bundles := t.recipe.banks[k].bundles }
  fewer : ∀ k : BankId, activeBank s ≠ some k → t.recipe.banks[k].bundles ≤ s.recipe.banks[k].bundles
  dumps : t.label.dumpHigh = s.label.dumpHigh ∧ t.label.owed = s.label.owed

section
variable {B C : Bin → Prop} {s t u : State}

theorem BinWork.refl (B : Bin → Prop) (s : State) : BinWork B s s :=
  ⟨BinsOnly.refl s, fun _ _ => rfl, fun _ => rfl, Nat.le_refl _, fun _ => rfl, fun _ _ => Nat.le_refl _, rfl, rfl⟩

theorem BinWork.activeBank (h : BinWork B s t) : activeBank t = activeBank s := activeBank_congr fun k => by rw [h.banks k]

theorem BinWork.planFor (h : BinWork B s t) (b : Bin) : planFor t b = planFor s b :=
  planFor_of_active h.activeBank (fun k => by rw [h.banks k]) b

theorem BinWork.trans (h : BinWork B s t) (k : BinWork B t u) : BinWork B s u := by
  refine ⟨h.only.trans k.only, fun b hb => (k.other b hb).trans (h.other b hb), fun b => (k.level b).trans (h.level b),
    h.nextClose.trans k.nextClose, fun i => by rw [k.banks i, h.banks i], fun i hi => ?_, k.dumps.1.trans h.dumps.1, k.dumps.2.trans h.dumps.2⟩
  exact (k.fewer i (by rwa [h.activeBank])).trans (h.fewer i hi)

theorem BinWork.mono (h : BinWork B s t) (hbc : ∀ b, B b → C b) : BinWork C s t :=
  { h with other := fun b hb => h.other b fun hB => hb (hbc b hB) }

theorem BinWork.clock (h : BinWork B s t) : t.link.clock = s.link.clock := h.only.link.clock

theorem BinWork.generation (h : BinWork B s t) (k : BankId) : t.recipe.banks[k].generation = s.recipe.banks[k].generation := by
  rw [h.banks k]

theorem BinWork.closeDue (h : BinWork B s t) (bu : Bundle) : closeDue t bu = closeDue s bu := by
  unfold Machine.closeDue
  rw [h.activeBank, h.banks bu.bank]

theorem LinkOnly.binWork (h : LinkOnly s t) (B : Bin → Prop) : BinWork B s t := by
  refine ⟨h.binsOnly, ?_, ?_, ?_, ?_, ?_, by rw [h.label], by rw [h.label]⟩
  · intro b _; rw [h.bundles]
  · intro b; rw [h.bundles]
  · rw [h.bundles]
  · intro k; rw [h.recipe]
  · intro k _; rw [h.recipe]

end

theorem mapBin_work {b : Bin} {f : BinRecord → BinRecord} {s : State} (h : (f s.bundles.bins[b]).emptyLevel = s.bundles.bins[b].emptyLevel) :
    BinWork (· = b) s (mapBin b f s) := by
  refine ⟨mapBin_binsOnly b f s, fun b' hb => mapBin_bin_other hb f s, fun b' => ?_, Nat.le_refl _, fun _ => rfl, fun _ _ => Nat.le_refl _,
    rfl, rfl⟩
  by_cases hb : b' = b
  · subst hb
    rw [mapBin_bin_self, h]
  · rw [mapBin_bin_other hb f s]

/-- A bank's bundle count written anew. -/
theorem mapBank_count (j k : BankId) (f : Nat → Nat) (s : State) :
    (mapBank j (fun r => { r with bundles := f r.bundles }) s).recipe.banks[k] =
      { s.recipe.banks[k] with bundles := if j = k then f s.recipe.banks[k].bundles else s.recipe.banks[k].bundles } := by
  by_cases h : j = k
  · subst h
    rw [mapBank_bank, if_pos rfl]
  · rw [if_neg h]
    exact setAt_other _ _ h

theorem dropBundle_work (B : Bin → Prop) (j : BankId) (s : State) : BinWork B s (mapBank j (fun r => { r with bundles := r.bundles - 1 }) s) := by
  have hbank := fun k => mapBank_count j k (· - 1) s
  refine ⟨mapBank_binsOnly _ _ _, fun _ _ => rfl, fun _ => rfl, Nat.le_refl _, fun k => by rw [hbank k], fun k _ => ?_, rfl, rfl⟩
  rw [hbank k]
  dsimp only
  split
  · exact Nat.sub_le _ _
  · exact Nat.le_refl _

theorem openBundle_work (b : Bin) (s : State) : BinWork (· = b) s (openBundle b s) := by
  cases hp : planFor s b with
  | none =>
    rw [openBundle_of_none hp]
    exact mapBin_work rfl
  | some p =>
    obtain ⟨k, e⟩ := p
    obtain ⟨hbundles, hlabel, hrecipe⟩ := openBundle_of_some hp
    have hbank : ∀ i : BankId, (openBundle b s).recipe.banks[i] = { s.recipe.banks[i] with
        bundles := if k = i then s.recipe.banks[i].bundles + 1 else s.recipe.banks[i].bundles } := fun i => by
      rw [hrecipe]
      exact mapBank_count k i (· + 1) s
    refine ⟨openBundle_binsOnly b s, fun b' hb => openBundle_bin_other hb s, fun b' => ?_, ?_, fun i => by rw [hbank i], fun i hi => ?_,
      by rw [hlabel], by rw [hlabel]⟩
    · by_cases hb : b' = b
      · subst hb
        rw [hbundles]
        show (setAt s.bundles.bins b' _)[b'].emptyLevel = _
        rw [setAt_self]
      · rw [openBundle_bin_other hb s]
    · rw [hbundles]
    · have hki : k ≠ i := fun h => hi (h ▸ planFor_bank hp)
      rw [hbank i, if_neg hki]

theorem tryPrint_dumps (s : State) : (tryPrint s).label.dumpHigh = s.label.dumpHigh ∧ (tryPrint s).label.owed = s.label.owed := by
  obtain ⟨p, f, h⟩ := tryPrint_label s
  rw [h]
  exact ⟨rfl, rfl⟩

theorem enqueueLabel_dumps (l : LabelRecord) (s : State) :
    (enqueueLabel l s).label.dumpHigh = s.label.dumpHigh ∧ (enqueueLabel l s).label.owed = s.label.owed := by
  unfold enqueueLabel
  split <;> exact ⟨rfl, rfl⟩

theorem closeBundle_work (b : Bin) (s : State) : BinWork (· = b) s (closeBundle b s) := by
  cases h : s.bundles.bins[b].bundle with
  | none =>
    have hid : closeBundle b s = s := by unfold closeBundle; rw [h]
    rw [hid]
    exact BinWork.refl _ s
  | some bu =>
    have hc := closeBundle_closes h
    obtain ⟨u, he, -, -, hbanks, hlabel⟩ := closeBundle_eq h
    have hrecipe : (closeBundle b s).recipe = u.recipe := by
      rw [he]
      split
      · rw [tryPrint_recipe, enqueueLabel_recipe]
      · rfl
    have hbank : ∀ k : BankId, (closeBundle b s).recipe.banks[k] = { s.recipe.banks[k] with
        bundles := if bu.bank = k then s.recipe.banks[k].bundles - 1 else s.recipe.banks[k].bundles } := fun k => by
      rw [hrecipe, hbanks]
      exact mapBank_count bu.bank k (· - 1) s
    have hdumps : (closeBundle b s).label.dumpHigh = s.label.dumpHigh ∧ (closeBundle b s).label.owed = s.label.owed := by
      rw [he, ← hlabel]
      split
      · exact ⟨(tryPrint_dumps _).1.trans (enqueueLabel_dumps _ u).1, (tryPrint_dumps _).2.trans (enqueueLabel_dumps _ u).2⟩
      · exact ⟨rfl, rfl⟩
    refine ⟨closeBundle_binsOnly b s, hc.other, fun b' => ?_, by rw [hc.nextClose]; exact Nat.le_succ _, fun k => by rw [hbank k], fun k _ => ?_,
      hdumps⟩
    · by_cases hb : b' = b
      · subst hb
        rw [hc.bin]
      · rw [hc.other b' hb]
    · rw [hbank k]
      dsimp only
      split
      · exact Nat.sub_le _ _
      · exact Nat.le_refl _

theorem closeTest_work (b : Bin) (s : State) : BinWork (· = b) s (closeTest b s) := by
  unfold closeTest
  split
  · exact BinWork.refl _ s
  · split
    · exact closeBundle_work b s
    · exact BinWork.refl _ s

theorem markShort_work (b : Bin) (bu : Bundle) (s : State) : BinWork (· = b) s (markShort b bu s) :=
  BinWork.trans (mapBin_work rfl) (LinkOnly.binWork (bundleNotice_linkOnly ..) _)

theorem closeShort_work (b : Bin) (bu : Bundle) (s : State) : BinWork (· = b) s (closeShort b bu s) :=
  (markShort_work b bu s).trans (closeTest_work b _)

/-- The state in which a discarded bundle's bin opens the next: the bundle unbound, the notice sent (R167). -/
theorem discardBundle_opens (b : Bin) (bu : Bundle) (s : State) :
    ∃ u, discardBundle b bu s = openBundle b u ∧ BinWork (fun _ => False) s u ∧ u.bundles = s.bundles := by
  refine ⟨_, rfl, BinWork.trans (dropBundle_work _ bu.bank s) (LinkOnly.binWork (bundleNotice_linkOnly ..) _), ?_⟩
  exact (bundleNotice_linkOnly ..).bundles

theorem discardBundle_work (b : Bin) (bu : Bundle) (s : State) : BinWork (· = b) s (discardBundle b bu s) := by
  obtain ⟨u, he, hu, -⟩ := discardBundle_opens b bu s
  rw [he]
  exact (hu.mono nofun).trans (openBundle_work b u)

theorem genCloseBin_work (b : Bin) (s : State) : BinWork (· = b) s (genCloseBin b s) := by
  unfold genCloseBin
  split
  · exact BinWork.refl _ s
  · split
    · split
      · exact discardBundle_work b _ s
      · exact closeShort_work b _ s
    · exact BinWork.refl _ s

theorem openIdle_work (s : State) (b : Bin) : BinWork (· = b) s (openIdle s b) := by
  unfold openIdle
  split
  · exact openBundle_work b s
  · exact BinWork.refl _ s

/-! ### Passes over the bins -/

/-- A pass over bins other than b leaves b as it is. -/
theorem foldl_work_other {f : State → Bin → State} (h : ∀ s b, BinWork (· = b) s (f s b)) {b : Bin} (l : List Bin) (hl : b ∉ l) (s : State) :
    BinWork (· ≠ b) s (l.foldl f s) := by
  induction l generalizing s with
  | nil => exact BinWork.refl _ s
  | cons x xs ih =>
    obtain ⟨hx, hxs⟩ := List.ne_and_not_mem_of_not_mem_cons hl
    exact ((h s x).mono fun c hc => hc ▸ Ne.symm hx).trans (ih hxs _)

/-- A pass over the bins comes to bin b once, in a state where b stands as it stood, and leaves b as it then is. -/
theorem foldl_work_at {f : State → Bin → State} (h : ∀ s b, BinWork (· = b) s (f s b)) (b : Bin) (s : State) :
    ∃ u, BinWork (· ≠ b) s u ∧ BinWork (· ≠ b) (f u b) (allBins.foldl f s) := by
  have hmem : b ∈ allBins := mem_allBins b
  obtain ⟨l, r, hlr⟩ := List.append_of_mem hmem
  have hnodup : (l ++ b :: r).Nodup := hlr ▸ (by decide : allBins.Nodup)
  obtain ⟨-, hbr, hdisj⟩ := List.nodup_append.mp hnodup
  have hl : b ∉ l := fun hbl => hdisj b hbl b (List.mem_cons_self ..) rfl
  have hr : b ∉ r := (List.nodup_cons.mp hbr).1
  rw [hlr, List.foldl_append, List.foldl_cons]
  exact ⟨l.foldl f s, foldl_work_other h l hl s, foldl_work_other h r hr _⟩

theorem foldl_work {f : State → Bin → State} (h : ∀ s b, BinWork (· = b) s (f s b)) (l : List Bin) (s : State) :
    BinWork (fun _ => True) s (l.foldl f s) := by
  induction l generalizing s with
  | nil => exact BinWork.refl _ s
  | cons x xs ih => exact ((h s x).mono fun _ _ => trivial).trans (ih _)

theorem genClose_work (s : State) : BinWork (fun _ => True) s (genClose s) := foldl_work (fun s b => genCloseBin_work b s) allBins s

/-- The generation close comes to bin b once (R166). -/
theorem genClose_at (b : Bin) (s : State) : ∃ u, BinWork (· ≠ b) s u ∧ BinWork (· ≠ b) (genCloseBin b u) (genClose s) :=
  foldl_work_at (fun s b => genCloseBin_work b s) b s

theorem BinWork.bin {b : Bin} {s t : State} (h : BinWork (· ≠ b) s t) : t.bundles.bins[b] = s.bundles.bins[b] := h.other b fun hb => hb rfl

/-! ### What one bin comes to -/

theorem genCloseBin_of_state {b : Bin} {s : State} (h : s.bundles.bins[b].state ≠ .opened) : genCloseBin b s = s := by
  unfold genCloseBin
  split
  · rfl
  · exact if_neg fun hc => h hc.1

theorem genCloseBin_not_due {b : Bin} {bu : Bundle} {s : State} (h : s.bundles.bins[b].bundle = some bu) (hd : closeDue s bu = false) :
    genCloseBin b s = s := by
  unfold genCloseBin
  rw [h]
  exact if_neg fun hc => by rw [hd] at hc; exact absurd hc.2 nofun

theorem genCloseBin_empty {b : Bin} {bu : Bundle} {s : State} (h : s.bundles.bins[b].bundle = some bu) (ho : s.bundles.bins[b].state = .opened)
    (hd : closeDue s bu = true) (hc : bu.count = 0) : genCloseBin b s = discardBundle b bu s := by
  unfold genCloseBin
  rw [h]
  dsimp only
  rw [if_pos ⟨ho, hd⟩, if_pos hc]

theorem genCloseBin_short {b : Bin} {bu : Bundle} {s : State} (h : s.bundles.bins[b].bundle = some bu) (ho : s.bundles.bins[b].state = .opened)
    (hd : closeDue s bu = true) (hc : bu.count ≠ 0) : genCloseBin b s = closeShort b bu s := by
  unfold genCloseBin
  rw [h]
  dsimp only
  rw [if_pos ⟨ho, hd⟩, if_neg hc]

/-- What an opening in state u makes of bin b is what the plan of p gives it, where p reads as u does (R154). -/
theorem nextBundleOpened_of {p s u t : State} {b : Bin} (hplan : planFor p b = planFor u b)
    (hgen : ∀ k : BankId, p.recipe.banks[k].generation = u.recipe.banks[k].generation)
    (hlevel : u.bundles.bins[b].emptyLevel = s.bundles.bins[b].emptyLevel) (hbin : t.bundles.bins[b] = (openBundle b u).bundles.bins[b]) :
    NextBundleOpened p s t b := by
  refine ⟨fun hn => ?_, fun k e hs => ?_⟩
  · rw [hbin, openBundle_of_none (hplan ▸ hn), ← hlevel]
    exact mapBin_bin_self b (fun r => { r with state := .idle, bundle := none }) u
  · refine ⟨newBundle u b k e, ?_, rfl, rfl, by rw [hgen k]; rfl, rfl, rfl, rfl, rfl, rfl, rfl, rfl, rfl⟩
    rw [hbin, (openBundle_of_some (hplan ▸ hs)).1, ← hlevel]
    exact setAt_self _ _ _

/-- What a discard in state u makes of bin b (R167). -/
theorem nextBundleOpened_of_discard {p s u t : State} {b : Bin} {bu : Bundle} (hplan : planFor p b = planFor u b)
    (hgen : ∀ k : BankId, p.recipe.banks[k].generation = u.recipe.banks[k].generation)
    (hlevel : u.bundles.bins[b].emptyLevel = s.bundles.bins[b].emptyLevel) (hbin : t.bundles.bins[b] = (discardBundle b bu u).bundles.bins[b]) :
    NextBundleOpened p s t b := by
  obtain ⟨v, he, hv, hbins⟩ := discardBundle_opens b bu u
  refine nextBundleOpened_of (u := v) (hplan.trans (hv.planFor b).symm) (fun k => (hgen k).trans (hv.generation k).symm) ?_ ?_
  · rw [hbins]
    exact hlevel
  · rw [hbin, he]

/-- A closing on the way from s to t closes the bin. -/
theorem binClosed_of_closes {b : Bin} {bu : Bundle} {s u v t : State} (h : Closes b bu u v) (hclock : u.link.clock = s.link.clock)
    (hnext : s.bundles.nextClose ≤ u.bundles.nextClose) (hlevel : u.bundles.bins[b].emptyLevel = s.bundles.bins[b].emptyLevel)
    (hbin : t.bundles.bins[b] = v.bundles.bins[b]) (hlater : v.bundles.nextClose ≤ t.bundles.nextClose) : BinClosed s t b bu := by
  refine ⟨closedBundle u bu, u.bundles.nextClose, ?_, ?_, hnext, ?_, ?_, ?_⟩
  · rw [hbin, h.bin]
  · rw [← hclock]; rfl
  · exact Nat.lt_of_lt_of_le (by rw [h.nextClose]; exact Nat.lt_succ_self _) hlater
  · rw [hbin, h.bin]
    exact hlevel
  · rw [hbin, h.bin]
    dsimp only
    split
    · exact .inl rfl
    · exact .inr rfl

/-- What the generation close makes of an OPEN bin that holds bu (R166): it stays while its bank is bound; due, it is discarded when empty, else it is
SHORT, and closed with nothing of it in flight. -/
structure GenCloses (s t : State) (b : Bin) (bu : Bundle) : Prop where
  stays : closeDue s bu = false → t.bundles.bins[b] = s.bundles.bins[b]
  empty : closeDue s bu = true → bu.count = 0 → NextBundleOpened s s t b
  waits : closeDue s bu = true → bu.count ≠ 0 → bu.count ≠ bu.landedCount →
    t.bundles.bins[b] = { s.bundles.bins[b] with state := .filled, bundle := some { bu with short := true } }
  closes : closeDue s bu = true → bu.count ≠ 0 → bu.count = bu.landedCount → BinClosed s t b { bu with short := true }

/-- A pass that comes to bin b as it stands in s and leaves it as its test does. -/
theorem genCloses_of_work {s v t : State} {b : Bin} {bu : Bundle} (hv : BinWork (· ≠ b) s v) (ht : BinWork (· ≠ b) (genCloseBin b v) t)
    (ho : s.bundles.bins[b].state = .opened) (hb : s.bundles.bins[b].bundle = some bu) : GenCloses s t b bu := by
  have hvo : v.bundles.bins[b].state = .opened := by rw [hv.bin]; exact ho
  have hvb : v.bundles.bins[b].bundle = some bu := by rw [hv.bin]; exact hb
  refine ⟨fun hd => ?_, fun hd hc => ?_, fun hd hc hl => ?_, fun hd hc hl => ?_⟩
  · rw [ht.bin, genCloseBin_not_due hvb ((hv.closeDue bu).trans hd), hv.bin]
  · have he := genCloseBin_empty hvb hvo ((hv.closeDue bu).trans hd) hc
    rw [he] at ht
    exact nextBundleOpened_of_discard (hv.planFor b).symm (fun k => (hv.generation k).symm) (hv.level b) ht.bin
  · have he := genCloseBin_short hvb hvo ((hv.closeDue bu).trans hd) hc
    rw [closeShort_waits hl] at he
    rw [ht.bin, he, markShort_bin, hv.bin]
  · have he := genCloseBin_short hvb hvo ((hv.closeDue bu).trans hd) hc
    rw [he] at ht
    exact binClosed_of_closes (closeShort_closes hl) hv.clock hv.nextClose (hv.level b) ht.bin ht.nextClose

theorem NextBundleOpened.congr {p s t p' s' t' : State} {b : Bin} (h : NextBundleOpened p s t b) (hplan : planFor p' b = planFor p b)
    (hgen : ∀ k : BankId, p'.recipe.banks[k].generation = p.recipe.banks[k].generation)
    (hlevel : s'.bundles.bins[b].emptyLevel = s.bundles.bins[b].emptyLevel) (hbin : t'.bundles.bins[b] = t.bundles.bins[b]) :
    NextBundleOpened p' s' t' b := by
  unfold NextBundleOpened at h ⊢
  simp only [hplan, hgen, hlevel, hbin]
  exact h

theorem BinClosed.congr {s t s' t' : State} {b : Bin} {x : Bundle} (h : BinClosed s t b x) (hs : s'.bundles = s.bundles)
    (hclock : s'.link.clock = s.link.clock) (ht : t'.bundles = t.bundles) : BinClosed s' t' b x := by
  unfold BinClosed at h ⊢
  rw [hs, hclock, ht]
  exact h

/-! ### The tests after a release -/

section
variable {b : Bin} {bu : Bundle} {s : State} (h : s.bundles.bins[b].bundle = some bu)
include h

/-- A FILLED bundle below its fill point and its piece limit reopens (R161). -/
theorem reopenOrClose_reopens (hf : s.bundles.bins[b].state = .filled) (hs : bu.short = false) (hb : bu.belowFill = true) :
    reopenOrClose b s = bundleNotice .reopened b bu .opened (mapBin b (fun r => { r with state := .opened }) s) := by
  unfold reopenOrClose
  rw [h]
  dsimp only
  rw [if_pos hf, if_pos ⟨hs, hb⟩]

/-- One that does not reopen is tested for closure (R162). -/
theorem reopenOrClose_tests (hf : s.bundles.bins[b].state = .filled) (hn : bu.short = true ∨ bu.belowFill = false) :
    reopenOrClose b s = closeTest b s := by
  unfold reopenOrClose
  rw [h]
  dsimp only
  rw [if_pos hf, if_neg]
  rintro ⟨hs, hb⟩
  obtain hn | hn := hn
  · rw [hs] at hn; contradiction
  · rw [hb] at hn; contradiction

/-- The state under a hold follows R161. -/
theorem reopenOrClose_held (hf : s.bundles.bins[b].state = .held .filled) (hs : bu.short = false) (hb : bu.belowFill = true) :
    reopenOrClose b s = bundleNotice .reopened b bu (.held .opened) (mapBin b (fun r => { r with state := .held .opened }) s) := by
  unfold reopenOrClose
  rw [h]
  dsimp only
  rw [if_neg (by rw [hf]; nofun), if_pos ⟨hf, hs, hb⟩]

theorem reopenOrClose_stays (hf : s.bundles.bins[b].state ≠ .filled)
    (hn : s.bundles.bins[b].state ≠ .held .filled ∨ bu.short = true ∨ bu.belowFill = false) : reopenOrClose b s = s := by
  unfold reopenOrClose
  rw [h]
  dsimp only
  rw [if_neg hf, if_neg]
  rintro ⟨hh, hs, hb⟩
  obtain hn | hn | hn := hn
  · exact hn hh
  · rw [hs] at hn; contradiction
  · rw [hb] at hn; contradiction

end

theorem reopenOrClose_work (b : Bin) (s : State) : BinWork (· = b) s (reopenOrClose b s) := by
  unfold reopenOrClose
  split
  · exact BinWork.refl _ s
  · split
    · split
      · exact BinWork.trans (mapBin_work rfl) (LinkOnly.binWork (bundleNotice_linkOnly ..) _)
      · exact closeTest_work b s
    · split
      · exact BinWork.trans (mapBin_work rfl) (LinkOnly.binWork (bundleNotice_linkOnly ..) _)
      · exact BinWork.refl _ s

end Sys2Proof.Machine

end

