-- ==== Sys2Proof/Proofs/RecipeSwitch.lean ====
section
/-! PROOFS. RECIPE SWITCH (R199): the banks and the notice, the test of R5, the IDLE bins that open, the generation close, and the bank left. -/

namespace Sys2Proof.Machine

/-! ### The banks after steps 1 to 3 -/

/-- The state of a bank after a switch leaves it (R199, step 1). -/
def leftState (b : Bank) : BankState := if b.state = .active then if 0 < b.references then .retiring else .valid else b.state

/-- The ACTIVE bank is the one that is, where no other is. -/
theorem activeBank_of_only {s : State} {k : BankId} (hk : s.recipe.banks[k].state = .active)
    (ho : s.recipe.banks[otherBank k].state ≠ .active) : activeBank s = some k := by
  cases h : activeBank s with
  | none => exact absurd hk (activeBank_eq_none h k)
  | some p =>
    by_cases hp : p = k
    · rw [hp]
    · rw [eq_otherBank p k hp] at h
      exact absurd (activeBank_eq_some h) ho

section
variable {s : State} {k : BankId} (hk : s.recipe.banks[k].state = .valid)
include hk

/-- With k VALID an ACTIVE bank is the other one. -/
theorem active_is_other {p : BankId} (h : s.recipe.banks[p].state = .active) : p ≠ k := fun e => by
  rw [e, hk] at h
  contradiction

theorem activeBank_of_active {p : BankId} (h : s.recipe.banks[p].state = .active) : activeBank s = some p := by
  refine activeBank_of_only h fun ho => ?_
  have h1 := active_is_other hk h
  have h2 := active_is_other hk ho
  exact otherBank_ne p ((eq_otherBank p k h1).trans (eq_otherBank _ k h2).symm)

theorem steppedDown_bank (p : BankId) :
    (steppedDown (activeBank s) s).recipe.banks[p] = { s.recipe.banks[p] with state := leftState s.recipe.banks[p] } := by
  by_cases ha : s.recipe.banks[p].state = .active
  · rw [activeBank_of_active hk ha]
    refine (mapBank_bank p Bank.stepDown s).trans ?_
    rw [leftState, if_pos ha]; rfl
  · rw [leftState, if_neg ha]
    cases h : activeBank s with
    | none => rfl
    | some q =>
      have hq : q ≠ p := fun e => ha (e ▸ activeBank_eq_some h)
      exact setAt_other _ _ hq

theorem switchBanks_self : (switchBanks k (activeBank s) s).recipe.banks[k] = { s.recipe.banks[k] with state := .active } := by
  refine (mapBank_bank k (fun b => { b with state := .active }) (steppedDown (activeBank s) s)).trans ?_
  rw [(steppedDown_facts hk).1]

theorem switchBanks_other {p : BankId} (hp : p ≠ k) :
    (switchBanks k (activeBank s) s).recipe.banks[p] = { s.recipe.banks[p] with state := leftState s.recipe.banks[p] } :=
  (setAt_other _ _ hp.symm).trans (steppedDown_bank hk p)

theorem switchBanks_active : activeBank (switchBanks k (activeBank s) s) = some k := by
  refine activeBank_of_only (by rw [switchBanks_self hk]) ?_
  rw [switchBanks_other hk (otherBank_ne k).symm, ← steppedDown_bank hk]
  exact (steppedDown_facts hk).2.2.1

/-- The SWITCHED notice names what became of the bank that was ACTIVE (R199, step 3). -/
theorem switchBanks_eq : ∃ banks, switchBanks k (activeBank s) s = { s with
    recipe := { s.recipe with banks := banks }
    profile := { s.profile with ring := [], drift := none, armed := true }
    link := s.link.offer (.recipe (.switched k (s.recipe.banks[k].generation.getD 0) (activeBank s)
      ((activeBank s).map (fun p => if 0 < s.recipe.banks[p].references then .retiring else .valid))) s.link.clock) } := by
  have hgen := congrArg Bank.generation (switchBanks_self hk)
  have hprev : (activeBank s).map (fun p => (switchBanks k (activeBank s) s).recipe.banks[p].state) =
      (activeBank s).map (fun p => if 0 < s.recipe.banks[p].references then .retiring else .valid) := by
    cases h : activeBank s with
    | none => rfl
    | some p =>
      have ha := activeBank_eq_some h
      rw [Option.map_some, Option.map_some, ← h, switchBanks_other hk (active_is_other hk ha)]
      dsimp only
      rw [leftState, if_pos ha]
  refine ⟨(switchBanks k (activeBank s) s).recipe.banks, ?_⟩
  rw [← hprev, ← hgen]
  cases activeBank s <;> rfl

end

/-! ### The test of R5 -/

theorem standbyTest_other {s : State} (h : s.line.state ≠ .standby) : standbyTest s = s := if_neg fun hc => h hc.1

/-- The test of R5 touches the line, the motion unit's mark and the link alone. -/
theorem standbyTest_eq (s : State) : ∃ m l k, standbyTest s = { s with motion := m, line := l, link := k } ∧ m.travel = s.motion.travel ∧
    LinkGrows s.link k := by
  unfold standbyTest
  split
  · have hl := lineNote_linkOnly s (enterLine .ready s)
    exact ⟨_, _, _, hl.eq, rfl, hl.link⟩
  · exact ⟨_, _, _, rfl, rfl, LinkGrows.refl _⟩

/-! ### The bins -/

/-- What steps 5 and 6 make of the bins (R199): from a, where bank k is ACTIVE, every IDLE bin opens, and then every bin is tested for generation
close. -/
def switchedBins (a : State) : State := genClose (allBins.foldl openIdle a)

theorem switchedBins_work (a : State) : BinWork (fun _ => True) a (switchedBins a) :=
  (foldl_work openIdle_work allBins a).trans (genClose_work _)

/-- The passes come to bin b at u and at v. -/
theorem switchedBins_at (a : State) (b : Bin) : ∃ u v, BinWork (· ≠ b) a u ∧ BinWork (· ≠ b) (openIdle u b) v ∧
    BinWork (· ≠ b) (genCloseBin b v) (switchedBins a) := by
  obtain ⟨u, hu, hu'⟩ := foldl_work_at openIdle_work b a
  obtain ⟨v, hv, hv'⟩ := genClose_at b (allBins.foldl openIdle a)
  exact ⟨u, v, hu, hu'.trans hv, hv'⟩

section
variable {a : State} {b : Bin}

theorem switchedBins_idle (h : a.bundles.bins[b].state = .idle) :
    NextBundleOpened a a (switchedBins a) b := by
  obtain ⟨u, v, hu, hv, ht⟩ := switchedBins_at a b
  have hidle : openIdle u b = openBundle b u := if_pos (by rw [hu.bin]; exact h)
  rw [hidle] at hv
  have hwork := (hu.mono (C := fun _ => True) fun _ _ => trivial).trans ((openBundle_work b u).mono fun _ _ => trivial) |>.trans
    (hv.mono fun _ _ => trivial)
  refine nextBundleOpened_of (hu.planFor b).symm (fun k => (hu.generation k).symm) (hu.level b) ?_
  suffices hstay : genCloseBin b v = v by rw [ht.bin, hstay, hv.bin]
  have hbin := hv.bin
  cases hp : planFor u b with
  | none =>
    rw [openBundle_of_none hp, mapBin_bin_self b (fun r => { r with state := .idle, bundle := none }) u] at hbin
    exact genCloseBin_of_state (by rw [hbin]; nofun)
  | some p =>
    obtain ⟨j, e⟩ := p
    rw [(openBundle_of_some hp).1] at hbin
    have hb : v.bundles.bins[b].bundle = some (newBundle u b j e) := by rw [hbin]; exact congrArg BinRecord.bundle (setAt_self _ _ _)
    refine genCloseBin_not_due hb (closeDue_of_active ?_)
    rw [hwork.activeBank, ← hu.activeBank]
    exact planFor_bank hp

theorem switchedBins_other (h1 : a.bundles.bins[b].state ≠ .idle) (h2 : a.bundles.bins[b].state ≠ .opened) :
    (switchedBins a).bundles.bins[b] = a.bundles.bins[b] := by
  obtain ⟨u, v, hu, hv, ht⟩ := switchedBins_at a b
  have hstay : openIdle u b = u := if_neg (by rw [hu.bin]; exact h1)
  rw [hstay] at hv
  rw [ht.bin, genCloseBin_of_state (by rw [hv.bin, hu.bin]; exact h2), hv.bin, hu.bin]

/-- An OPEN bin comes to its generation-close test as it stood. -/
theorem switchedBins_open (h : a.bundles.bins[b].state = .opened) :
    ∃ v, BinWork (· ≠ b) a v ∧ BinWork (· ≠ b) (genCloseBin b v) (switchedBins a) := by
  obtain ⟨u, v, hu, hv, ht⟩ := switchedBins_at a b
  have hstay : openIdle u b = u := if_neg (by rw [hu.bin, h]; nofun)
  rw [hstay] at hv
  exact ⟨v, hu.trans hv, ht⟩

end

theorem switchedBins_genCloses {a : State} {b : Bin} {bu : Bundle} (h : a.bundles.bins[b].state = .opened)
    (hb : a.bundles.bins[b].bundle = some bu) : GenCloses a (switchedBins a) b bu := by
  obtain ⟨v, hv, ht⟩ := switchedBins_open h
  exact genCloses_of_work hv ht h hb

/-! ### The bank that was left -/

theorem retirePrev_rest (prev : Option BankId) (s : State) : (retirePrev prev s).bundles = s.bundles ∧ BinsOnly s (retirePrev prev s) ∧
    BinsKept s (retirePrev prev s) := by
  cases prev with
  | none => exact ⟨rfl, BinsOnly.refl s, BinsKept.refl s⟩
  | some p => exact ⟨(retireCheck_rest p s).1, retireCheck_binsOnly p s, retireCheck_binsKept p s⟩

/-- A bank left RETIRING or VALID by its references retires when the last of them has gone (R198). -/
theorem retireCheck_left {p : BankId} {s : State} {n : Nat} (hs : s.recipe.banks[p].state = if 0 < n then .retiring else .valid)
    (hn : s.recipe.banks[p].references ≤ n) :
    (retireCheck p s).recipe.banks[p].state = if 0 < (retireCheck p s).recipe.banks[p].references then .retiring else .valid := by
  by_cases h0 : s.recipe.banks[p].references = 0
  · by_cases hr : s.recipe.banks[p].state = .retiring
    · have hbank : (retireCheck p s).recipe.banks[p] = { s.recipe.banks[p] with state := .valid } := by
        unfold retireCheck
        rw [if_pos ⟨hr, h0⟩]
        exact mapBank_bank p (fun r => { r with state := .valid }) s
      rw [hbank, if_neg]
      exact Nat.not_lt.mpr (Nat.le_of_eq h0)
    · have hid : retireCheck p s = s := if_neg fun h => hr h.1
      rw [hid, h0]
      rw [hs] at hr ⊢
      split at hr
      · exact absurd rfl hr
      · rename_i hn0
        rw [if_neg hn0]; rfl
  · have hid : retireCheck p s = s := if_neg fun h => h0 h.2
    rw [hid, hs, if_pos (by omega), if_pos (by omega)]

theorem switched_left {s a w : State} {k p : BankId} (hk : s.recipe.banks[k].state = .valid) (hp : s.recipe.banks[p].state = .active)
    (hother : ∀ p : BankId, p ≠ k → a.recipe.banks[p] = { s.recipe.banks[p] with state := leftState s.recipe.banks[p] })
    (hactive : activeBank a = some k) (hw : BinWork (fun _ => True) a w) :
    (retirePrev (activeBank s) w).recipe.banks[p].state =
      if 0 < (retirePrev (activeBank s) w).recipe.banks[p].references then .retiring else .valid := by
  have hpk := active_is_other hk hp
  rw [activeBank_of_active hk hp]
  refine retireCheck_left (n := s.recipe.banks[p].references) ?_ ?_
  · rw [hw.banks p, hother p hpk]
    exact if_pos hp
  · have hfewer := hw.fewer p (by rw [hactive]; exact fun e => hpk (Option.some.inj e).symm)
    rw [hother p hpk] at hfewer
    rw [hw.banks p, hother p hpk]
    exact Nat.add_le_add_left hfewer _

theorem switchAnswer_above {k : Byte} (s : State) (h : 1 < k.toNat) : switchAnswer [(k.toNat : Int)] s = refuse (.field 0) s := by
  simp only [switchAnswer, fld_head, bankOfCode_above h]

theorem switchAnswer_otherState {k : BankId} {s : State} (h : s.recipe.banks[k].state ≠ .valid) :
    switchAnswer [((BitVec.ofNat 8 k.val : Byte).toNat : Int)] s = refuse .state s := by
  simp only [switchAnswer, fld_head, bankOfCode_val k]
  rw [if_neg h]

theorem switchAnswer_taken {k : BankId} {s : State} (h : s.recipe.banks[k].state = .valid) :
    switchAnswer [((BitVec.ofNat 8 k.val : Byte).toNat : Int)] s = okay (takeSwitch k s) := by
  simp only [switchAnswer, fld_head, bankOfCode_val k]
  rw [if_pos h]

/-- A switch up to the bank left: from the state after the test of R5 the bins have been worked. -/
theorem takeSwitch_eq (k : BankId) (s : State) :
    takeSwitch k s = retirePrev (activeBank s) (switchedBins (standbyTest (switchBanks k (activeBank s) s))) := rfl

/-- What a switch to a VALID bank leaves of the state, the bins apart (R199). -/
structure Switched (k : BankId) (s a : State) : Prop where
  self : a.recipe.banks[k] = { s.recipe.banks[k] with state := .active }
  other : ∀ p : BankId, p ≠ k → a.recipe.banks[p] = { s.recipe.banks[p] with state := leftState s.recipe.banks[p] }
  active : activeBank a = some k
  rest : ∃ m l c, a = { s with
    motion := m, line := l, link := c, recipe := a.recipe, profile := { s.profile with ring := [], drift := none, armed := true } } ∧
    m.travel = s.motion.travel ∧ LinkGrows (s.link.offer (.recipe (.switched k (s.recipe.banks[k].generation.getD 0) (activeBank s)
      ((activeBank s).map (fun p => if 0 < s.recipe.banks[p].references then .retiring else .valid))) s.link.clock)) c
  counter : a.recipe.counter = s.recipe.counter
  standby : s.line.state = .standby → a.line.state = if configValid s then .ready else .standby
  line : s.line.state ≠ .standby → a.line = s.line

theorem switched_of_valid {s : State} {k : BankId} (hk : s.recipe.banks[k].state = .valid) :
    Switched k s (standbyTest (switchBanks k (activeBank s) s)) := by
  obtain ⟨banks, he⟩ := switchBanks_eq hk
  have hself := switchBanks_self hk
  have hother := fun p (hp : p ≠ k) => switchBanks_other hk hp
  have hactive := switchBanks_active hk
  generalize switchBanks k (activeBank s) s = a at *
  obtain ⟨m, l, c, hs, hm, hc⟩ := standbyTest_eq a
  have hrecipe : (standbyTest a).recipe = a.recipe := by rw [hs]
  refine ⟨by rw [hrecipe, hself], fun p hp => by rw [hrecipe, hother p hp], ?_, ⟨m, l, c, ?_, ?_, ?_⟩, ?_, fun h => ?_, fun h => ?_⟩
  · exact (activeBank_congr fun p => by rw [hrecipe]).trans hactive
  · rw [hs, he]
  · rw [hm, he]
  · rw [he] at hc
    exact hc
  · rw [hrecipe, he]
  · have ha : a.line.state = .standby := by rw [he]; exact h
    have hvalid : configValid a = configValid s := by rw [he]; rfl
    rw [(standbyTest_facts a).1, if_pos ha, restState, hactive, hvalid]
    simp
  · rw [standbyTest_other (by rw [he]; exact h), he]

/-- A bundle is due after the switch when its bank is not the new one and has no strip and no cutting bound (R166). -/
theorem Switched.closeDue_iff {k : BankId} {s a : State} (h : Switched k s a) (bu : Bundle) : closeDue a bu = true ↔
    bu.bank ≠ k ∧ s.recipe.banks[bu.bank].strips = 0 ∧ s.recipe.banks[bu.bank].cuttings = 0 := by
  have hactive : (activeBank a != some bu.bank) = true ↔ bu.bank ≠ k := by
    rw [h.active, bne_iff_ne]
    exact ⟨fun hne e => hne (by rw [e]), fun hne e => hne (Option.some.inj e).symm⟩
  have hcounts : ∀ j : BankId, a.recipe.banks[j].strips = s.recipe.banks[j].strips ∧
      a.recipe.banks[j].cuttings = s.recipe.banks[j].cuttings := fun j => by
    by_cases hb : j = k
    · subst hb
      rw [h.self]
      exact ⟨rfl, rfl⟩
    · rw [h.other _ hb]
      exact ⟨rfl, rfl⟩
  unfold closeDue
  rw [Bool.and_eq_true, Bool.and_eq_true, hactive, (hcounts _).1, (hcounts _).2, beq_iff_eq, beq_iff_eq, and_assoc]

theorem Switched.bundles {k : BankId} {s a : State} (h : Switched k s a) : a.bundles = s.bundles := by
  obtain ⟨m, l, c, hrest, -⟩ := h.rest
  rw [hrest]

theorem Switched.clock {k : BankId} {s a : State} (h : Switched k s a) : a.link.clock = s.link.clock := by
  obtain ⟨m, l, c, hrest, -, hlink⟩ := h.rest
  rw [hrest]
  exact hlink.clock.trans (LinkPort.offer_clock ..)

/-- What a switch makes of bin b (R199, steps 5 and 6), the notices and the reply apart. -/
structure BinSwitched (k : BankId) (s t : State) (b : Bin) : Prop where
  idle : s.bundles.bins[b].state = .idle → NextBundleOpened t s t b
  other : s.bundles.bins[b].state ≠ .idle → s.bundles.bins[b].state ≠ .opened → t.bundles.bins[b] = s.bundles.bins[b]
  stays : ∀ bu, s.bundles.bins[b].state = .opened → s.bundles.bins[b].bundle = some bu →
    bu.bank = k ∨ s.recipe.banks[bu.bank].strips ≠ 0 ∨ s.recipe.banks[bu.bank].cuttings ≠ 0 → t.bundles.bins[b] = s.bundles.bins[b]
  due : ∀ bu, s.bundles.bins[b].state = .opened → s.bundles.bins[b].bundle = some bu → bu.bank ≠ k →
    s.recipe.banks[bu.bank].strips = 0 → s.recipe.banks[bu.bank].cuttings = 0 →
    (bu.count = 0 → NextBundleOpened t s t b) ∧
      (bu.count ≠ 0 → bu.count ≠ bu.landedCount → t.bundles.bins[b] =
        { s.bundles.bins[b] with state := .filled, bundle := some { bu with short := true } }) ∧
      (bu.count ≠ 0 → bu.count = bu.landedCount → BinClosed s t b { bu with short := true })

theorem Switched.bin {k : BankId} {s a t : State} (h : Switched k s a) (hbins : t.bundles = (switchedBins a).bundles)
    (hplan : ∀ b, planFor t b = planFor (switchedBins a) b)
    (hgen : ∀ j : BankId, t.recipe.banks[j].generation = (switchedBins a).recipe.banks[j].generation) (b : Bin) : BinSwitched k s t b := by
  have hw := switchedBins_work a
  have hnext : NextBundleOpened a a (switchedBins a) b → NextBundleOpened t s t b := fun hn =>
    hn.congr ((hplan b).trans (hw.planFor b)) (fun j => (hgen j).trans (hw.generation j)) (by rw [h.bundles]) (by rw [hbins])
  have hclosed : ∀ x, BinClosed a (switchedBins a) b x → BinClosed s t b x := fun x hx => hx.congr h.bundles.symm h.clock.symm hbins
  have hidle := switchedBins_idle (a := a) (b := b)
  have hother := switchedBins_other (a := a) (b := b)
  have hopen := fun bu => switchedBins_genCloses (a := a) (b := b) (bu := bu)
  rw [h.bundles, ← hbins] at hother
  rw [h.bundles] at hidle hopen
  refine ⟨fun hs => hnext (hidle hs), hother, fun bu hs hb hbound => ?_, fun bu hs hb hne hstrips hcuttings => ?_⟩
  · have hd : closeDue a bu = false := by
      rw [Bool.eq_false_iff]
      intro hd
      obtain ⟨h1, h2, h3⟩ := (h.closeDue_iff bu).mp hd
      obtain hb | hb | hb := hbound <;> contradiction
    rw [hbins, (hopen bu hs hb).stays hd, h.bundles]
  · have hd := (h.closeDue_iff bu).mpr ⟨hne, hstrips, hcuttings⟩
    refine ⟨fun hc => hnext ((hopen bu hs hb).empty hd hc), fun hc hl => ?_, fun hc hl => hclosed _ ((hopen bu hs hb).closes hd hc hl)⟩
    rw [hbins, (hopen bu hs hb).waits hd hc hl, h.bundles]

/-- The last frame that became ready. -/
theorem getLast?_reply (r : Request) (st : Status) (d : ReplyData) (s : State) :
    (reply r st d s).link.tx.getLast? = some (.reply { kind := replyKind r.kind, tag := r.tag, status := st, data := d }) :=
  List.getLast?_concat ..

end Sys2Proof.Machine

open Sys2Proof Sys2Proof.Machine

/-- Settles O60, by the banks after the switch and then, bin by bin, the two passes. -/
theorem recipeSwitchActivatesTheBank : Obligations.RecipeSwitchActivatesTheBank := by
  refine ⟨fun s r k ha hkind hb hk => exec_answered_fields ha exec_recipeSwitch hkind (parseFields_byte hb) (switchAnswer_above s hk), ?_⟩
  intro s r k ha hkind hb
  refine ⟨fun hstate => exec_answered_fields ha exec_recipeSwitch hkind (parseFields_byte hb) (switchAnswer_otherState hstate), fun hk => ?_⟩
  have hexec := exec_answered_fields ha exec_recipeSwitch hkind (parseFields_byte hb) (switchAnswer_taken hk)
  rw [takeSwitch_eq] at hexec
  have hsw := switched_of_valid hk
  generalize standbyTest (switchBanks k (activeBank s) s) = a at hexec hsw
  have hw := switchedBins_work a
  have hleft := fun p hp => switched_left (p := p) hk hp hsw.other hsw.active hw
  have hbin := fun t h1 h2 h3 b => hsw.bin (t := t) h1 h2 h3 b
  generalize switchedBins a = w at hexec hw hleft hbin
  obtain ⟨hbins, honly, hkept⟩ := retirePrev_rest (activeBank s) w
  have hbin := hbin (reply r .ok .none (retirePrev (activeBank s) w)) hbins (fun b => (planFor_congr rfl b).trans (hkept.planFor b))
    fun j => (hkept.banks j).generation
  generalize retirePrev (activeBank s) w = u at hexec hbins honly hkept hleft hbin
  have hall : BinsOnly a u := hw.only.trans honly
  obtain ⟨m, l, c, hrest, htravel, hlink⟩ := hsw.rest
  have hu := hall.eq
  have hline : u.line = a.line := by rw [hu]
  rw [hrest] at hu
  refine ⟨reply r .ok .none u, hexec, ?_, ?_, ?_, ?_, fun h => ?_, fun h => ?_, ?_, ?_, ?_, ?_, ?_, ?_, ?_, fun p _ hp => hleft p hp,
    fun b => ⟨(hbin b).idle, (hbin b).other, fun bu h hb => ⟨(hbin b).stays bu h hb, (hbin b).due bu h hb⟩⟩⟩
  · show u.recipe.banks[k].state = .active
    rw [(hkept.banks k).active_iff, hw.banks k, hsw.self]
  · show u.recipe.banks[k].generation = _
    rw [(hkept.banks k).generation, hw.generation, hsw.self]
  · exact hall.counter.trans hsw.counter
  · show u.profile = _
    rw [hu]
  · show u.line.state = _
    rw [hline, hsw.standby h]
  · show u.line = _
    rw [hline, hsw.line h]
  · show u.motion.travel = _
    rw [hu]
    exact htravel
  · show u.belt = _
    rw [hu]
  · show u.cuttings = _
    rw [hu]
  · show u.config = _
    rw [hu]
  · show u.inForce = _
    rw [hu]
  · rw [getLast?_reply, hkind]; rfl
  · obtain ⟨ns, hns⟩ := hlink.tx
    obtain ⟨ms, hms⟩ := hall.link.tx
    have hac : a.link.tx = c.tx := by rw [hrest]
    refine ⟨ns.map TxFrame.notice ++ (ms.map TxFrame.notice ++
      [.reply { kind := replyKind r.kind, tag := r.tag, status := .ok, data := .none }]), ?_⟩
    show u.link.tx ++ _ = _
    rw [hms, hac, hns, List.append_assoc, List.append_assoc]

end

