-- ==== Sys2Proof/Proofs/Resets.lean ====
section
/-! PROOFS. RESET LINE and E-STOP (R8, R9, R149, R173, R202): the releases, the tests of every bin, the generation close, and the tracking state
cleared. -/

namespace Sys2Proof.Machine

/-! ### The releases and the counts -/

theorem withoutReservations_bank (s : State) (b : Bin) (bu : Bundle) : (withoutReservations s b bu).bank = bu.bank := by
  unfold withoutReservations
  induction s.cuttings.filter (fun c => c.state.onLugP && decide (c.reservedBin = some b)) generalizing bu with
  | nil => rfl
  | cons c cs ih => exact ih _

/-- The reservations of some cuttings taken out of a bundle of bin b. -/
def takenOut (cs : List Cutting) (b : Bin) (bu : Bundle) : Bundle :=
  (cs.filter (fun c => c.state.onLugP && decide (c.reservedBin = some b))).foldl (fun x c => x.releasePiece c.cls c.nominal) bu

theorem takenOut_cons (c : Cutting) (cs : List Cutting) (b : Bin) (bu : Bundle) :
    takenOut (c :: cs) b bu = takenOut cs b (if c.state.onLugP = true ∧ c.reservedBin = some b then bu.releasePiece c.cls c.nominal else bu) := by
  unfold takenOut
  by_cases h : c.state.onLugP = true ∧ c.reservedBin = some b
  · rw [if_pos h, List.filter_cons_of_pos (by simp [h])]; rfl
  · rw [if_neg h, List.filter_cons_of_neg (by simpa using h)]

/-- One step of the releases. -/
def releaseOne (s : State) (c : Cutting) : State :=
  match c.reservedBin with
  | some b => if c.state.onLugP then releaseTotals b c.cls c.nominal s else s
  | none => s

theorem releaseOne_free {c : Cutting} (h : ¬(c.state.onLugP = true ∧ ∃ b, c.reservedBin = some b)) (s : State) : releaseOne s c = s := by
  unfold releaseOne
  split
  · rename_i b hb
    exact if_neg fun ho => h ⟨ho, b, hb⟩
  · rfl

theorem releaseOne_held {c : Cutting} {b : Bin} (ho : c.state.onLugP = true) (hb : c.reservedBin = some b) (s : State) :
    releaseOne s c = releaseTotals b c.cls c.nominal s := by
  unfold releaseOne
  rw [hb]
  exact if_pos ho

theorem releaseAll_cons (c : Cutting) (cs : List Cutting) (s : State) : releaseAll (c :: cs) s = releaseAll cs (releaseOne s c) := rfl

/-- A release changes its bin's bundle alone. -/
theorem releaseOne_bin (s : State) (c : Cutting) (b : Bin) : (releaseOne s c).bundles.bins[b] = { s.bundles.bins[b] with
    bundle := s.bundles.bins[b].bundle.map (fun bu =>
      if c.state.onLugP = true ∧ c.reservedBin = some b then bu.releasePiece c.cls c.nominal else bu) } := by
  by_cases h : c.state.onLugP = true ∧ ∃ b, c.reservedBin = some b
  · obtain ⟨ho, b', hb'⟩ := h
    rw [releaseOne_held ho hb']
    unfold releaseTotals mapBundle
    by_cases hb : b = b'
    · subst hb
      rw [mapBin_bin_self]
      simp [ho, hb']
    · rw [mapBin_bin_other hb]
      simp [hb', Ne.symm hb]
  · rw [releaseOne_free h]
    have hno : ¬(c.state.onLugP = true ∧ c.reservedBin = some b) := fun hc => h ⟨hc.1, b, hc.2⟩
    simp [hno]

/-- The releases touch the bundles alone. -/
theorem releaseAll_eq (cs : List Cutting) (s : State) : ∃ bins, releaseAll cs s = { s with bundles := { s.bundles with bins := bins } } ∧
    ∀ b : Bin, bins[b] = { s.bundles.bins[b] with bundle := s.bundles.bins[b].bundle.map (takenOut cs b) } := by
  induction cs generalizing s with
  | nil =>
    refine ⟨s.bundles.bins, rfl, fun b => ?_⟩
    have hid : takenOut [] b = id := rfl
    simp [hid]
  | cons c cs ih =>
    have hone : ∃ bins, releaseOne s c = { s with bundles := { s.bundles with bins := bins } } := by
      unfold releaseOne
      split
      · split
        · exact ⟨_, rfl⟩
        · exact ⟨_, rfl⟩
      · exact ⟨_, rfl⟩
    obtain ⟨bins, he, hb⟩ := ih (releaseOne s c)
    obtain ⟨bins', he'⟩ := hone
    refine ⟨bins, by rw [releaseAll_cons, he, he'], fun b => ?_⟩
    rw [hb, releaseOne_bin]
    simp only [Option.map_map]
    congr 2
    funext bu
    exact (takenOut_cons c cs b bu).symm

/-- The counts after the tables' records are gone (R202). -/
def droppedBank (before : State) (k : BankId) (r : Bank) : Bank :=
  { r with
    strips := r.strips - before.belt.strips.countP (fun t => t.bank == k)
    cuttings := r.cuttings - before.cuttings.countP (fun c => c.bank == k) }

theorem dropCounts_bank (before s : State) (j k : BankId) :
    (dropCounts before s j).recipe.banks[k] = if j = k then droppedBank before k s.recipe.banks[k] else s.recipe.banks[k] := by
  by_cases h : j = k
  · subst h
    rw [if_pos rfl]
    exact mapBank_bank j (droppedBank before j) s
  · rw [if_neg h]
    exact setAt_other _ _ h

theorem dropAll_eq (before s : State) : ∃ banks, allBanks.foldl (dropCounts before) s = { s with recipe := { s.recipe with banks := banks } } ∧
    ∀ k : BankId, banks[k] = droppedBank before k s.recipe.banks[k] := by
  refine ⟨(dropCounts before (dropCounts before s 0) 1).recipe.banks, rfl, fun k => ?_⟩
  rw [dropCounts_bank, dropCounts_bank]
  have hk : k = 0 ∨ k = 1 := by revert k; decide
  obtain rfl | rfl := hk <;> rfl

/-! ### The tests of every bin -/

/-- Each bin is tested once, and then for generation close (R173). -/
def resetBins (a : State) : State := genClose (allBins.foldl (fun s b => reopenOrClose b s) a)

theorem resetBins_work (a : State) : BinWork (fun _ => True) a (resetBins a) :=
  (foldl_work (fun s b => reopenOrClose_work b s) allBins a).trans (genClose_work _)

/-- The two passes come to bin b as it stands in a. -/
theorem resetBins_at (a : State) (b : Bin) : ∃ u v, BinWork (· ≠ b) a u ∧ BinWork (· ≠ b) (reopenOrClose b u) v ∧
    BinWork (· ≠ b) (genCloseBin b v) (resetBins a) := by
  obtain ⟨u, hu, hu'⟩ := foldl_work_at (fun s b => reopenOrClose_work b s) b a
  obtain ⟨v, hv, hv'⟩ := genClose_at b (allBins.foldl (fun s b => reopenOrClose b s) a)
  exact ⟨u, v, hu, hu'.trans hv, hv'⟩

theorem BinClosed.earlier {s u t : State} {b : Bin} {x : Bundle} (h : BinClosed u t b x) (hclock : u.link.clock = s.link.clock)
    (hnext : s.bundles.nextClose ≤ u.bundles.nextClose) (hlevel : u.bundles.bins[b].emptyLevel = s.bundles.bins[b].emptyLevel) :
    BinClosed s t b x := by
  obtain ⟨y, q, hy, heq, hlo, hhi, hl, hst⟩ := h
  exact ⟨y, q, hy, by rw [← hclock]; exact heq, hnext.trans hlo, hhi, hl.trans hlevel, hst⟩

/-- What the tests of a reset make of bin b with the bundle x (R161, R162, R166, R173). -/
structure BinTested (a t : State) (b : Bin) (x : Bundle) : Prop where
  stays : a.bundles.bins[b].state = .opened ∧ closeDue a x = false ∨ a.bundles.bins[b].state = .held .opened ∨
      a.bundles.bins[b].state = .held .filled ∧ (x.short = true ∨ x.belowFill = false) ∨ a.bundles.bins[b].state = .closing ∨
      a.bundles.bins[b].state = .labelling ∨ a.bundles.bins[b].state = .clearing →
    t.bundles.bins[b] = a.bundles.bins[b]
  held : a.bundles.bins[b].state = .held .filled → x.short = false → x.belowFill = true →
    t.bundles.bins[b] = { a.bundles.bins[b] with state := .held .opened }
  reopens : a.bundles.bins[b].state = .filled → x.short = false → x.belowFill = true → closeDue a x = false →
    t.bundles.bins[b] = { a.bundles.bins[b] with state := .opened }
  closes : a.bundles.bins[b].state = .filled → x.short = true ∨ x.belowFill = false → x.count = x.landedCount → BinClosed a t b x
  due : a.bundles.bins[b].state = .opened ∨ a.bundles.bins[b].state = .filled ∧ x.short = false ∧ x.belowFill = true →
    closeDue a x = true → (x.count = 0 → NextBundleOpened a a t b) ∧
      (x.count ≠ 0 → x.count = x.landedCount → BinClosed a t b { x with short := true })

/-- An OPEN bin stays OPEN at its test, and a FILLED one whose bundle reopens becomes so (R161). -/
theorem reopenOrClose_opens {u : State} {b : Bin} {x : Bundle} (hb : u.bundles.bins[b].bundle = some x)
    (h : u.bundles.bins[b].state = .opened ∨ u.bundles.bins[b].state = .filled ∧ x.short = false ∧ x.belowFill = true) :
    (reopenOrClose b u).bundles.bins[b] = { u.bundles.bins[b] with state := .opened } := by
  obtain h | ⟨hf, hs, hbelow⟩ := h
  · rw [reopenOrClose_stays hb (by rw [h]; nofun) (.inl (by rw [h]; nofun)), ← h]
  · rw [reopenOrClose_reopens hb hf hs hbelow, (bundleNotice_linkOnly ..).bundles]
    exact mapBin_bin_self b (fun r => { r with state := .opened }) u

theorem resetBins_tested {a : State} {b : Bin} {x : Bundle} (hb : a.bundles.bins[b].bundle = some x) : BinTested a (resetBins a) b x := by
  obtain ⟨u, v, hu, hv, ht⟩ := resetBins_at a b
  have hub : u.bundles.bins[b].bundle = some x := by rw [hu.bin]; exact hb
  have hr := reopenOrClose_work b u
  have hwork : BinWork (fun _ => True) a (reopenOrClose b u) := (hu.mono fun _ _ => trivial).trans (hr.mono fun _ _ => trivial)
  have hopen : a.bundles.bins[b].state = .opened ∨ a.bundles.bins[b].state = .filled ∧ x.short = false ∧ x.belowFill = true →
      (reopenOrClose b u).bundles.bins[b] = { a.bundles.bins[b] with state := .opened } ∧
        GenCloses (reopenOrClose b u) (resetBins a) b x := fun h => by
    rw [← hu.bin] at h ⊢
    have ho := reopenOrClose_opens hub h
    exact ⟨ho, genCloses_of_work hv ht (by rw [ho]) (by rw [ho]; exact hub)⟩
  have hdone : (reopenOrClose b u).bundles.bins[b].state ≠ .opened → (resetBins a).bundles.bins[b] = (reopenOrClose b u).bundles.bins[b] :=
    fun h => by rw [ht.bin, genCloseBin_of_state (by rw [hv.bin]; exact h), hv.bin]
  have hstay : a.bundles.bins[b].state ≠ .opened → a.bundles.bins[b].state ≠ .filled →
      (a.bundles.bins[b].state ≠ .held .filled ∨ x.short = true ∨ x.belowFill = false) →
      (resetBins a).bundles.bins[b] = a.bundles.bins[b] := fun ho hf hn => by
    rw [← hu.bin] at ho hf hn ⊢
    rw [hdone (by rwa [reopenOrClose_stays hub hf hn]), reopenOrClose_stays hub hf hn]
  refine ⟨?_, fun hs hsh hbelow => ?_, fun hs hsh hbelow hd => ?_, fun hs hn hl => ?_, fun hs hd => ?_⟩
  · rintro (⟨hs, hd⟩ | hs | ⟨hs, hn⟩ | hs | hs | hs)
    · obtain ⟨hbin, hgen⟩ := hopen (.inl hs)
      rw [hgen.stays ((hwork.closeDue x).trans hd), hbin, ← hs]
    · exact hstay (by rw [hs]; nofun) (by rw [hs]; nofun) (.inl (by rw [hs]; nofun))
    · exact hstay (by rw [hs]; nofun) (by rw [hs]; nofun) (.inr hn)
    · exact hstay (by rw [hs]; nofun) (by rw [hs]; nofun) (.inl (by rw [hs]; nofun))
    · exact hstay (by rw [hs]; nofun) (by rw [hs]; nofun) (.inl (by rw [hs]; nofun))
    · exact hstay (by rw [hs]; nofun) (by rw [hs]; nofun) (.inl (by rw [hs]; nofun))
  · rw [← hu.bin] at hs ⊢
    have hbin : (reopenOrClose b u).bundles.bins[b] = { u.bundles.bins[b] with state := .held .opened } := by
      rw [reopenOrClose_held hub hs hsh hbelow, (bundleNotice_linkOnly ..).bundles]
      exact mapBin_bin_self b (fun r => { r with state := .held .opened }) u
    rw [hdone (by rw [hbin]; nofun), hbin]
  · obtain ⟨hbin, hgen⟩ := hopen (.inr ⟨hs, hsh, hbelow⟩)
    rw [hgen.stays ((hwork.closeDue x).trans hd), hbin]
  · rw [← hu.bin] at hs
    have he := (reopenOrClose_tests hub hs hn).trans (closeTest_closes hub hs hl)
    have hc : Closes b x u (reopenOrClose b u) := he ▸ closeBundle_closes hub
    have hne : (reopenOrClose b u).bundles.bins[b].state ≠ .opened := by
      rw [hc.bin]
      dsimp only
      split <;> nofun
    exact binClosed_of_closes hc hu.clock hu.nextClose (hu.level b) (hdone hne) 
      (hv.nextClose.trans ((genCloseBin_work b v).nextClose.trans ht.nextClose))
  · obtain ⟨hbin, hgen⟩ := hopen hs
    have hd' := (hwork.closeDue x).trans hd
    refine ⟨fun hc => ?_, fun hc hl => ?_⟩
    · exact (hgen.empty hd' hc).congr (hwork.planFor b).symm (fun k => (hwork.generation k).symm) (hwork.level b).symm rfl
    · exact (hgen.closes hd' hc hl).earlier hwork.clock hwork.nextClose (hwork.level b)

theorem resetBins_none {a : State} {b : Bin} (hb : a.bundles.bins[b].bundle = none) : (resetBins a).bundles.bins[b] = a.bundles.bins[b] := by
  obtain ⟨u, v, hu, hv, ht⟩ := resetBins_at a b
  have hub : u.bundles.bins[b].bundle = none := by rw [hu.bin]; exact hb
  rw [reopenOrClose_of_none hub] at hv
  rw [ht.bin, genCloseBin_of_none (by rw [hv.bin]; exact hub), hv.bin, hu.bin]

/-! ### The bins' part of a reset -/

/-- The state of the bins and banks from which a reset tests the bins: reservations and counts gone (R202). -/
def releasedState (before s : State) : State := allBanks.foldl (dropCounts before) (releaseAll before.cuttings s)

theorem clearBins_eq (before s : State) :
    clearBins before s = allBanks.foldl (fun s k => retireCheck k s) (resetBins (releasedState before s)) := rfl

theorem releasedState_eq (before s : State) : ∃ bins banks, releasedState before s = { s with
      bundles := { s.bundles with bins := bins }
      recipe := { s.recipe with banks := banks } } ∧
    (∀ b : Bin, bins[b] = { s.bundles.bins[b] with bundle := s.bundles.bins[b].bundle.map (takenOut before.cuttings b) }) ∧
    ∀ k : BankId, banks[k] = droppedBank before k s.recipe.banks[k] := by
  obtain ⟨bins, he, hbins⟩ := releaseAll_eq before.cuttings s
  obtain ⟨banks, hd, hbanks⟩ := dropAll_eq before (releaseAll before.cuttings s)
  refine ⟨bins, banks, ?_, hbins, fun k => ?_⟩
  · rw [releasedState, hd, he]
  · rw [hbanks, he]

theorem foldl_retireCheck_rest (l : List BankId) (s : State) : (l.foldl (fun s k => retireCheck k s) s).bundles = s.bundles ∧
    (l.foldl (fun s k => retireCheck k s) s).label = s.label ∧ BinsOnly s (l.foldl (fun s k => retireCheck k s) s) ∧
    BinsKept s (l.foldl (fun s k => retireCheck k s) s) ∧
    ∀ j : BankId, ∃ st, (l.foldl (fun s k => retireCheck k s) s).recipe.banks[j] = { s.recipe.banks[j] with state := st } := by
  induction l generalizing s with
  | nil => exact ⟨rfl, rfl, BinsOnly.refl s, BinsKept.refl s, fun j => ⟨_, rfl⟩⟩
  | cons k ks ih =>
    obtain ⟨hb, hl, ho, hk, hbanks⟩ := ih (retireCheck k s)
    obtain ⟨hb', hl', hbanks'⟩ := retireCheck_rest k s
    refine ⟨hb.trans hb', hl.trans hl', (retireCheck_binsOnly k s).trans ho, (retireCheck_binsKept k s).trans hk, fun j => ?_⟩
    obtain ⟨st, hst⟩ := hbanks j
    obtain ⟨st', hst'⟩ := hbanks' j
    exact ⟨st, by rw [List.foldl_cons, hst, hst']⟩

/-- Whether a bundle is due turns on its bank alone (R166). -/
theorem closeDue_of_bank {x y : Bundle} (h : x.bank = y.bank) (s : State) : closeDue s x = closeDue s y := by
  unfold closeDue
  simp only [h]

theorem releasedState_bin {s s0 : State} (hbundles : s0.bundles = s.bundles) (b : Bin) : (releasedState s s0).bundles.bins[b] =
    { s.bundles.bins[b] with bundle := s.bundles.bins[b].bundle.map (withoutReservations s b) } := by
  obtain ⟨bins, banks, he, hbins, -⟩ := releasedState_eq s s0
  rw [he]
  show bins[b] = _
  rw [hbins, hbundles]; rfl

section
variable {s s0 : State} (hrecipe : s0.recipe = s.recipe)
include hrecipe

theorem releasedState_bank (k : BankId) : (releasedState s s0).recipe.banks[k] = droppedBank s k s.recipe.banks[k] := by
  obtain ⟨bins, banks, he, -, hbanks⟩ := releasedState_eq s s0
  rw [he]
  show banks[k] = _
  rw [hbanks, hrecipe]

theorem releasedState_active : activeBank (releasedState s s0) = activeBank s :=
  activeBank_congr fun k => by rw [releasedState_bank hrecipe k]; rfl

/-- A bundle's bank has nothing bound after the reset where the tables held all that was bound (R202). -/
theorem releasedState_due {b : Bin} {bu : Bundle} (ha : activeBank s ≠ some bu.bank) (hbound : BoundByTables s bu.bank) :
    closeDue (releasedState s s0) (withoutReservations s b bu) = true := by
  obtain ⟨hstrips, hcuttings⟩ := hbound
  have hbank := releasedState_bank hrecipe bu.bank
  rw [closeDue_of_bank (withoutReservations_bank s b bu)]
  refine closeDue_of_unbound ?_ ?_ ?_
  · rw [releasedState_active hrecipe]
    exact ha
  · rw [hbank]
    exact Nat.sub_eq_zero_of_le hstrips
  · rw [hbank]
    exact Nat.sub_eq_zero_of_le hcuttings

theorem releasedState_not_due {b : Bin} {bu : Bundle} (ha : activeBank s = some bu.bank) :
    closeDue (releasedState s s0) (withoutReservations s b bu) = false := by
  rw [closeDue_of_bank (withoutReservations_bank s b bu)]
  refine closeDue_of_active ?_
  rw [releasedState_active hrecipe]
  exact ha

end

/-- The bins and the banks after a reset (R149, R173, R202). -/
theorem clearBins_reset {s s0 t : State} (hbundles : s0.bundles = s.bundles) (hrecipe : s0.recipe = s.recipe) (hclock : s0.link.clock = s.link.clock) (ht : t.bundles = (clearBins s s0).bundles)
    (htr : t.recipe = (clearBins s s0).recipe) (htransfer : t.chain.transferHigh = false) : BinsReset s t := by
  have hbin := releasedState_bin (s0 := s0) hbundles
  have hplan : ∀ b, planFor s b = planFor (releasedState s s0) b := fun b =>
    (planFor_of_active (releasedState_active hrecipe) (fun k => by rw [releasedState_bank hrecipe k]; rfl) b).symm
  have hgen : ∀ k : BankId, s.recipe.banks[k].generation = (releasedState s s0).recipe.banks[k].generation := fun k => by
    rw [releasedState_bank hrecipe k]; rfl
  have hclock' : (releasedState s s0).link.clock = s.link.clock := by
    obtain ⟨bins, banks, he, -⟩ := releasedState_eq s s0
    rw [he]
    exact hclock
  have hnext : (releasedState s s0).bundles.nextClose = s.bundles.nextClose := by
    obtain ⟨bins, banks, he, -⟩ := releasedState_eq s s0
    rw [he]
    show s0.bundles.nextClose = _
    rw [hbundles]
  have hdue := fun b bu => releasedState_due (b := b) (bu := bu) hrecipe
  have hnot := fun b bu => releasedState_not_due (b := b) (bu := bu) hrecipe
  have hbank := releasedState_bank hrecipe
  rw [clearBins_eq] at ht htr
  generalize releasedState s s0 = a at *
  have htested := fun b x hx => resetBins_tested (a := a) (b := b) (x := x) hx
  have hnone := fun b hx => resetBins_none (a := a) (b := b) hx
  have hw := resetBins_work a
  generalize resetBins a = w at *
  obtain ⟨hwb, -, -, -, hwbanks⟩ := foldl_retireCheck_rest allBanks w
  rw [hwb] at ht
  refine ⟨htransfer, fun b hb => ?_, fun b bu hb => ?_, fun k => ?_⟩
  · have ha : a.bundles.bins[b] = s.bundles.bins[b] := by rw [hbin b, hb, Option.map_none, ← hb]
    rw [ht, hnone b (by rw [ha]; exact hb), ha]
  · have ha : a.bundles.bins[b] = { s.bundles.bins[b] with bundle := some (withoutReservations s b bu) } := by rw [hbin b, hb]; rfl
    have hlevel : a.bundles.bins[b].emptyLevel = s.bundles.bins[b].emptyLevel := by rw [ha]
    have hstate : a.bundles.bins[b].state = s.bundles.bins[b].state := by rw [ha]
    have htest := htested b _ (congrArg BinRecord.bundle ha)
    have hdue := hdue b bu
    have hnot := hnot b bu
    generalize withoutReservations s b bu = x at *
    have hclosed : ∀ y, BinClosed a w b y → BinClosed s t b y := fun y hy =>
      (hy.earlier hclock' (Nat.le_of_eq hnext.symm) hlevel).congr rfl rfl ht
    obtain ⟨hstays, hheld, hreopens, hcloses, hdues⟩ := htest
    rw [hstate] at hstays hheld hreopens hcloses hdues
    refine ⟨fun h => ?_, fun h1 h2 h3 => ?_, fun h1 h2 h3 h4 => ?_, fun h1 h2 h3 => hclosed _ (hcloses h1 h2 h3), fun h1 h2 h3 => ?_⟩
    · rw [ht, hstays (h.imp_left fun ho => ⟨ho.1, hnot ho.2⟩), ha]
    · rw [ht, hheld h1 h2 h3, ha]
    · rw [ht, hreopens h1 h2 h3 (hnot h4), ha]
    · obtain ⟨hempty, hshort⟩ := hdues h1 (hdue h2 h3)
      exact ⟨fun hc => (hempty hc).congr (hplan b) hgen hlevel.symm (by rw [ht]), fun hc hl => hclosed _ (hshort hc hl)⟩
  · obtain ⟨st, hst⟩ := hwbanks k
    rw [htr, hst, hw.banks k, hbank k]
    exact ⟨rfl, rfl⟩

theorem releasedState_only (before s : State) : BinsOnly s (releasedState before s) := by
  obtain ⟨bins, banks, he, -⟩ := releasedState_eq before s
  rw [he]
  exact ⟨rfl, rfl, id, LinkGrows.refl _⟩

theorem clearBins_only (before s : State) : BinsOnly s (clearBins before s) := by
  rw [clearBins_eq]
  exact ((releasedState_only before s).trans (resetBins_work _).only).trans (foldl_retireCheck_rest allBanks _).2.2.1

/-- The bins' part of a reset gives no dump and owes none (R181). -/
theorem clearBins_dumps (before s : State) :
    (clearBins before s).label.dumpHigh = s.label.dumpHigh ∧ (clearBins before s).label.owed = s.label.owed := by
  obtain ⟨bins, banks, he, -⟩ := releasedState_eq before s
  have hlabel : (releasedState before s).label = s.label := by rw [he]
  have hw := (resetBins_work (releasedState before s)).dumps
  rw [clearBins_eq, (foldl_retireCheck_rest allBanks _).2.1]
  rw [hlabel] at hw
  exact hw

/-! ### The tracking state -/

/-- The state of a reset, the line, the bins, the labels, the banks and the link apart, is the cleared one (R9). -/
structure Reset (s t : State) : Prop where
  eq : t = { clearBlocks s with
    motion := t.motion, line := t.line, bundles := t.bundles, label := t.label, recipe := t.recipe, link := t.link }
  motion : t.motion = { travel := s.motion.travel, mark := s.motion.travel, lug := s.motion.lug, events := [] }
  holds : t.line.holds = s.line.holds.afterReset
  estop : t.line.estopLevel = s.line.estopLevel
  bins : BinsReset s t
  link : LinkGrows s.link t.link

theorem Reset.tracking {s t : State} (h : Reset s t) : TrackingCleared t ∧ t.belt.nextNumber = s.belt.nextNumber ∧
    t.chain.preFlush = s.chain.lastReturn ∧ t.profile = s.profile ∧ t.config = s.config ∧ t.inForce = s.inForce := by
  have hevents : t.motion.events = [] := by rw [h.motion]
  have heq := h.eq
  have hchain : t.chain = s.chain.cleared := by rw [heq]; rfl
  refine ⟨⟨hevents, by rw [heq]; rfl, by rw [heq]; rfl, by rw [heq]; rfl, by rw [heq]; rfl, by rw [heq]; rfl, by rw [heq]; rfl,
    by rw [heq]; rfl, by rw [heq]; rfl, by rw [hchain]; rfl, fun b => ?_⟩, by rw [heq]; rfl, by rw [hchain]; rfl, by rw [heq]; rfl,
    by rw [heq]; rfl, by rw [heq]; rfl⟩
  rw [hchain]
  simp [Chain.cleared]

theorem restState_congr {s t : State} (hi : t.inForce = s.inForce) (hr : t.recipe = s.recipe) : restState t = restState s := by
  unfold restState configValid activeBank
  rw [hi, hr]

theorem resetTracking_reset (s : State) : Reset s (resetTracking s) ∧ (resetTracking s).line.state = restState (resetTracking s) := by
  have hs0 : LinkOnly (clearBlocks s) (resetNotice .reset s (clearBlocks s)) := offer_linkOnly _ _
  have honly := clearBins_only s (resetNotice .reset s (clearBlocks s))
  have hbins := fun t => clearBins_reset (t := t) (s := s) hs0.bundles hs0.recipe hs0.link.clock
  unfold resetTracking
  generalize resetNotice .reset s (clearBlocks s) = s0 at *
  generalize clearBins s s0 = s1 at *
  have hl := lineNote_linkOnly s (enterLine (restState s1) s1)
  have heq : s1 = { clearBlocks s with bundles := s1.bundles, label := s1.label, recipe := s1.recipe, link := s1.link } := by
    rw [honly.eq, hs0.eq]
  have hrest : restState s1 = .ready ∨ restState s1 = .standby := restState_cases s1
  have hmoving : (restState s1).moving = false ∧ (restState s1 == .drain) = false := by
    obtain h | h := hrest <;> rw [h] <;> exact ⟨rfl, rfl⟩
  dsimp only
  have hmotion : s1.motion = { s.motion with events := [] } := by rw [heq]; rfl
  have hline : s1.line = { s.line with holds := s.line.holds.afterReset } := by rw [heq]; rfl
  refine ⟨⟨?_, ?_, ?_, ?_, ?_, ?_⟩, ?_⟩
  · rw [hl.eq]
    unfold enterLine
    rw [heq]
  · rw [hl.motion]
    simp only [enterLine, hmoving, hmotion]
    rfl
  · rw [hl.line]
    simp only [enterLine, hmoving, hline]
    rfl
  · rw [hl.line]
    simp only [enterLine, hline]
  · refine hbins _ hl.bundles hl.recipe ?_
    rw [hl.chain, enterLine_chain, heq]; rfl
  · exact (hs0.link.trans honly.link).trans hl.link
  · rw [hl.line]
    exact (restState_congr hl.inForce hl.recipe).symm

theorem enterEstop_reset (s : State) : Reset s (enterEstop s) ∧ (enterEstop s).line.state = .estop ∧
    (enterEstop s).label.dumpHigh = Vector.replicate 8 false ∧
    (enterEstop s).label.owed = Vector.zipWith (fun o h => o || h) s.label.owed s.label.dumpHigh := by
  unfold enterEstop
  have hl := lineNote_linkOnly s (enterLine .estop (clearBlocks s))
  generalize lineNote s (enterLine .estop (clearBlocks s)) = s1 at *
  have hn : LinkOnly (holdDumps s1) (resetNotice .estop s (holdDumps s1)) := offer_linkOnly _ _
  dsimp only
  generalize resetNotice .estop s (holdDumps s1) = s0 at *
  have hbundles : s0.bundles = s.bundles := hn.bundles.trans hl.bundles
  have hrecipe : s0.recipe = s.recipe := hn.recipe.trans hl.recipe
  have hlink : LinkGrows s.link s0.link := LinkGrows.trans (b := s1.link) hl.link hn.link
  have hlabel : s0.label = (holdDumps s1).label := hn.label
  have honly := clearBins_only s s0
  have hdumps := clearBins_dumps s s0
  have hbins := clearBins_reset (s := s) hbundles hrecipe hlink.clock (t := clearBins s s0) rfl rfl
  have heq : s0 = { clearBlocks s with motion := s0.motion, line := s0.line, label := s0.label, link := s0.link } := by
    rw [hn.eq]
    unfold holdDumps
    rw [hl.eq]; rfl
  have hmotion : s0.motion = (enterLine .estop (clearBlocks s)).motion := hn.motion.trans hl.motion
  have hline : s0.line = (enterLine .estop (clearBlocks s)).line := hn.line.trans hl.line
  generalize clearBins s s0 = t at *
  have ht : t = { clearBlocks s with
      motion := t.motion, line := t.line, bundles := t.bundles, label := t.label, recipe := t.recipe, link := t.link } := by
    rw [honly.eq, heq]
  have htm : t.motion = s0.motion := by rw [honly.eq]
  have htl : t.line = s0.line := by rw [honly.eq]
  refine ⟨⟨ht, ?_, ?_, ?_, hbins ?_, hlink.trans honly.link⟩, ?_, ?_, ?_⟩
  · rw [htm, hmotion]; rfl
  · rw [htl, hline]; rfl
  · rw [htl, hline]; rfl
  · rw [ht]; rfl
  · rw [htl, hline]; rfl
  · rw [hdumps.1, hlabel]; rfl
  · rw [hdumps.2, hlabel]
    show Vector.zipWith _ s1.label.owed s1.label.dumpHigh = _
    rw [hl.label]; rfl

/-- The bins of a reset read nothing of the level of E-STOP. -/
theorem BinsReset.of_level {s t : State} {v : Bool} (h : BinsReset (setEstop v s) t) : BinsReset s t := h

/-- Leaving ESTOP (R8, R181): the line with its mark and notice, and the dumps that were owed. -/
theorem leaveEstop_eq (s : State) : ∃ k, leaveEstop s = { s with
    line := { s.line with state := restState s, holds := { s.line.holds with notRun := true, drain := false } }
    motion := { s.motion with mark := s.motion.travel }
    label := { s.label with
      dumpHigh := Vector.zipWith (fun h o => h || o) s.label.dumpHigh s.label.owed
      owed := Vector.replicate 8 false }
    link := k } := by
  have hl := lineNote_linkOnly s (enterLine (restState s) s)
  have hmoving : (restState s).moving = false ∧ (restState s == .drain) = false := by
    obtain h | h := restState_cases s <;> rw [h] <;> exact ⟨rfl, rfl⟩
  have henter : enterLine (restState s) s = { s with
      line := { s.line with state := restState s, holds := { s.line.holds with notRun := true, drain := false } }
      motion := { s.motion with mark := s.motion.travel } } := by
    simp only [enterLine, hmoving]; rfl
  refine ⟨(lineNote s (enterLine (restState s) s)).link, ?_⟩
  unfold leaveEstop giveOwedDumps
  rw [hl.eq, henter]

end Sys2Proof.Machine

open Sys2Proof Sys2Proof.Machine

/-- Settles O22, by the reset that RESET LINE and entry to ESTOP share, and by the leaving of ESTOP. -/
theorem resetLineAndEStop : Obligations.ResetLineAndEStop := by
  refine ⟨fun s r ha hkind hb hline => ?_, fun s r ha hkind hb hline => ?_, fun s hs hline => ?_, fun s hs hline => ?_⟩
  · have hexec : exec .resetLine s = .next (reply r .ok .none (resetTracking s)) :=
      exec_answered_fields ha exec_resetLine hkind (parseFields_empty hb) (if_neg hline)
    obtain ⟨hreset, hstate⟩ := resetTracking_reset s
    generalize resetTracking s = u at *
    obtain ⟨htracking, hnumber, hpre, hprofile, hconfig, hforce⟩ := hreset.tracking
    refine ⟨reply r .ok .none u, hexec, htracking, hstate.trans (restState_congr rfl rfl).symm, hreset.estop, hreset.holds, hreset.motion,
      hnumber, hpre, hprofile, hconfig, hforce, hreset.bins, congrArg (List.drop 1) hreset.link.requests, ?_⟩
    rw [getLast?_reply, hkind]; rfl
  · exact exec_answered_fields ha exec_resetLine hkind (parseFields_empty hb) (if_pos hline)
  · have hexec : exec .eStopActive s = .next (enterEstop (setEstop true s)) := by rw [exec_eStopActive hs, if_neg hline]
    obtain ⟨hreset, hstate, hdump, howed⟩ := enterEstop_reset (setEstop true s)
    generalize enterEstop (setEstop true s) = t at *
    obtain ⟨htracking, hnumber, hpre, hprofile, hconfig, hforce⟩ := hreset.tracking
    refine ⟨t, hexec, htracking, hstate, hreset.estop, hreset.holds, hreset.motion, hnumber, hpre, hprofile, hconfig, hforce,
      hreset.bins.of_level, hreset.link.requests, fun b => ?_, fun b hb => ?_⟩
    · simp [dumpOut, hdump]
    · rw [howed]
      show (Vector.zipWith (fun o h => o || h) s.label.owed s.label.dumpHigh)[b] = true
      simpa using .inr hb
  · obtain ⟨k, he⟩ := leaveEstop_eq (setEstop false s)
    have hexec : exec .eStopInactive s = .next (leaveEstop (setEstop false s)) := by rw [exec_eStopInactive hs, if_pos hline]
    rw [he] at hexec
    refine ⟨_, hexec, (restState_congr rfl rfl), rfl, fun b => ⟨?_, ?_⟩, rfl, rfl⟩
    · simp
    · simp [setEstop]

end

