-- ==== Sys2Proof/Proofs/FaultBooks.lean ====
section
/-! PROOFS. The fault books through the bins' and the referrals' work: none of it logs a fault (R211), and a notice once ready stays ready. -/

namespace Sys2Proof.Machine

/-- The step from s to t logs no fault: each fault record stands (R211). -/
def BooksKept (s t : State) : Prop := ∀ b : FaultBook, t.link.record b = s.link.record b

theorem BooksKept.refl (s : State) : BooksKept s s := fun _ => rfl

theorem BooksKept.trans {a b c : State} (h : BooksKept a b) (k : BooksKept b c) : BooksKept a c := fun x => (k x).trans (h x)

theorem BooksKept.of_link {s t : State} (h : t.link = s.link) : BooksKept s t := fun b => by rw [h]

theorem BooksKept.belt {s t : State} (h : BooksKept s t) : t.link.belt = s.link.belt := h .belt

theorem BooksKept.chain {s t : State} (h : BooksKept s t) : t.link.chain = s.link.chain := h .chain

theorem offer_books (n : Notice) (s : State) : BooksKept s (offer n s) := fun b => by simp

theorem lineNote_books (before s : State) : BooksKept s (lineNote before s) := by
  unfold lineNote
  split
  · exact .refl s
  · exact offer_books _ s

theorem foldl_books {α : Type} {f : State → α → State} (h : ∀ s x, BooksKept s (f s x)) (l : List α) (s : State) :
    BooksKept s (l.foldl f s) := by
  induction l generalizing s with
  | nil => exact .refl s
  | cons x l ih => exact (h s x).trans (ih _)

theorem drainAfter_books (before s : State) : BooksKept s (drainAfter before s) := by
  obtain h | h := drainAfter_cases before s
  · rw [h]
    exact .refl s
  · rw [h]
    unfold drainTest
    split
    · exact lineNote_books s (enterLine .ready s)
    · exact .refl s

/-- An event logs the faults of its effects alone. -/
theorem event_books (f : State → State) (s : State) : BooksKept (f s) (event f s) :=
  (lineNote_books s (f s)).trans (drainAfter_books s _)

/-! ### Bundles and banks -/

theorem retireCheck_books (k : BankId) (s : State) : BooksKept s (retireCheck k s) := by
  unfold retireCheck
  split
  · exact offer_books _ _
  · exact .refl s

theorem retireAfter_books {f : State → State} {s : State} (b : Bin) (h : BooksKept s (f s)) : BooksKept s (retireAfter b f s) := by
  unfold retireAfter
  split
  · exact h
  · exact h.trans (retireCheck_books _ _)

theorem bundleNotice_books {s u : State} (e : BundleEvent) (b : Bin) (bu : Bundle) (st : BinState) (h : u.link = s.link) :
    BooksKept s (bundleNotice e b bu st u) := (BooksKept.of_link h).trans (offer_books _ u)

theorem openBundle_books (b : Bin) (s : State) : BooksKept s (openBundle b s) := by
  unfold openBundle
  split
  · exact .refl s
  · exact bundleNotice_books _ _ _ _ rfl

theorem tryPrint_books (s : State) : BooksKept s (tryPrint s) := by
  unfold tryPrint
  split
  · exact .refl s
  · split <;> exact .refl s

theorem enqueueLabel_books (l : LabelRecord) (s : State) : BooksKept s (enqueueLabel l s) := by
  unfold enqueueLabel
  split <;> exact .refl s

theorem closeBundle_books (b : Bin) (s : State) : BooksKept s (closeBundle b s) := by
  unfold closeBundle
  split
  · exact .refl s
  · dsimp only
    split
    · refine BooksKept.trans (BooksKept.trans ?_ (enqueueLabel_books _ _)) (tryPrint_books _)
      exact bundleNotice_books _ _ _ _ rfl
    · exact bundleNotice_books _ _ _ _ rfl

theorem closeTest_books (b : Bin) (s : State) : BooksKept s (closeTest b s) := by
  unfold closeTest
  split
  · exact .refl s
  · split
    · exact closeBundle_books b s
    · exact .refl s

theorem genCloseBin_books (b : Bin) (s : State) : BooksKept s (genCloseBin b s) := by
  unfold genCloseBin
  split
  · exact .refl s
  · split
    · split
      · exact (bundleNotice_books _ _ _ _ rfl).trans (openBundle_books b _)
      · exact (bundleNotice_books _ _ _ _ rfl).trans (closeTest_books b _)
    · exact .refl s

theorem reportUnbound_books (k : BankId) (s : State) : BooksKept s (reportUnbound k s) := by
  unfold reportUnbound
  refine BooksKept.trans ?_ (retireCheck_books k _)
  split
  · exact foldl_books (fun s b => genCloseBin_books b s) _ s
  · exact .refl s

theorem unbindStrip_books (k : BankId) (s : State) : BooksKept s (unbindStrip k s) := reportUnbound_books k (mapBank k _ s)

theorem unbindCutting_books (k : BankId) (s : State) : BooksKept s (unbindCutting k s) := reportUnbound_books k (mapBank k _ s)

theorem reopenOrClose_books (b : Bin) (s : State) : BooksKept s (reopenOrClose b s) := by
  unfold reopenOrClose
  split
  · exact .refl s
  · split
    · split
      · exact bundleNotice_books _ _ _ _ rfl
      · exact closeTest_books b s
    · split
      · exact bundleNotice_books _ _ _ _ rfl
      · exact .refl s

theorem release_books (b : Bin) (c n : Nat) (s : State) : BooksKept s (release b c n s) := by
  unfold release
  have h : BooksKept s (releaseTotals b c n s) := .refl s
  exact h.trans (retireAfter_books b (reopenOrClose_books b _))

theorem releaseReservation_books (c : Cutting) (landed : Bool) (s : State) : BooksKept s (releaseReservation c landed s) := by
  unfold releaseReservation
  split
  · split
    · exact .refl s
    · exact release_books _ _ _ s
  · exact .refl s

theorem landPiece_books (b : Bin) (n : Nat) (s : State) : BooksKept s (landPiece b n s) :=
  retireAfter_books b (closeTest_books b (mapBundle b _ s))

/-! ### Referrals and runs -/

theorem promote_books (k : Nat) (s : State) : BooksKept s (promote k s) := by
  induction k generalizing s with
  | zero => exact .refl s
  | succ k ih =>
    unfold promote
    split
    · exact .refl s
    · split
      · refine BooksKept.trans ?_ (ih _)
        exact fun b => LinkPort.record_offer b _ _
      · exact .refl s

theorem endReferral_books (id : CuttingId) (why : ReferralEndReason) (s : State) : BooksKept s (endReferral id why s) := by
  unfold endReferral
  split
  · exact fun b => LinkPort.record_offer b _ _
  · split
    · exact fun b => LinkPort.record_offer b _ _
    · exact .refl s

theorem beginResumption_link (s : State) : (beginResumption s).link = s.link := by
  unfold beginResumption
  split <;> rfl

theorem abandonRuns_link (id : CuttingId) (s : State) : (abandonRuns id s).link = s.link := beginResumption_link _

/-- The end of the runs of a cutting is the grade engine's alone (R131). -/
theorem abandonRuns_eq (id : CuttingId) (s : State) : abandonRuns id s = { s with grade := (abandonRuns id s).grade } := by
  unfold abandonRuns beginResumption
  split <;> rfl

/-! ### Notices ready -/

/-- A link that only grows keeps every ready frame, and its notice count does not fall. -/
theorem LinkGrows.mem_tx {l l' : LinkPort} (h : LinkGrows l l') {f : TxFrame} (hf : f ∈ l.tx) : f ∈ l'.tx := by
  obtain ⟨ns, hns⟩ := h.tx
  rw [hns]
  exact List.mem_append_left _ hf

theorem LinkGrows.noticeCount_le {l l' : LinkPort} (h : LinkGrows l l') : l.noticeCount ≤ l'.noticeCount := by
  obtain ⟨ns, hns⟩ := h.tx
  unfold LinkPort.noticeCount
  rw [hns, List.countP_append]
  exact Nat.le_add_right _ _

/-- A notice offered unmasked is ready if the queue, as it stands then or later, has room (R207, R208). -/
theorem LinkPort.mem_offer {n : Notice} {l l' : LinkPort} (hm : l.mask.getLsbD n.kindIndex = true) (hg : LinkGrows (l.offer n) l')
    (hr : l'.noticeCount < Config.noticeCapacity) : TxFrame.notice n ∈ l'.tx := by
  have hroom : l.noticeCount < Config.noticeCapacity :=
    Nat.lt_of_le_of_lt ((LinkPort.offer_grows n l).trans hg).noticeCount_le hr
  refine hg.mem_tx ?_
  rw [LinkPort.offer_of_room hm hroom]
  simp

end Sys2Proof.Machine
end

