-- ==== Sys2Proof/Proofs/Freeing.lean ====
section
/-! PROOFS. What an event's LINE notice and drain test leave alone (R7, R12), and what the freeing of cuttings and the leaving of strips do
(R17, R126, R131). -/

namespace Sys2Proof.Machine

/-! ### The LINE notice and the drain test of an event -/

/-- From s to t only an event's LINE notice and its drain test came (R7, R12): a DRAIN that they complete goes to READY, where the mark stands at the
counter. -/
structure LineFollows (s t : State) : Prop where
  eq : t = { s with line := t.line, motion := { s.motion with mark := t.motion.mark }, link := t.link }
  line : t.line = s.line ∧ t.motion.mark = s.motion.mark ∨
    s.line.state = .drain ∧ t.motion.mark = s.motion.travel ∧
      t.line = { s.line with state := .ready, holds := { s.line.holds with notRun := true, drain := false } }
  link : LinkGrows s.link t.link
  books : BooksKept s t

namespace LineFollows
variable {s t : State} (h : LineFollows s t)
include h

theorem belt : t.belt = s.belt := by rw [h.eq]

theorem cuttings : t.cuttings = s.cuttings := by rw [h.eq]

theorem chain : t.chain = s.chain := by rw [h.eq]

theorem saw : t.saw = s.saw := by rw [h.eq]

theorem scan : t.scan = s.scan := by rw [h.eq]

theorem planner : t.planner = s.planner := by rw [h.eq]

theorem recipe : t.recipe = s.recipe := by rw [h.eq]

theorem bundles : t.bundles = s.bundles := by rw [h.eq]

theorem config : t.config = s.config := by rw [h.eq]

theorem profile : t.profile = s.profile := by rw [h.eq]

theorem events : t.motion.events = s.motion.events := by rw [h.eq]

theorem travel : t.motion.travel = s.motion.travel := by rw [h.eq]

theorem lug : t.motion.lug = s.motion.lug := by rw [h.eq]

theorem findStrip (n : Nat) : findStrip t n = Machine.findStrip s n := by rw [h.eq]; rfl

theorem findCutting (id : CuttingId) : findCutting t id = Machine.findCutting s id := by rw [h.eq]; rfl

theorem beltCuttings (n : Nat) : beltCuttings n t = Machine.beltCuttings n s := by rw [h.eq]; rfl

theorem trackFull : t.line.holds.trackFull = s.line.holds.trackFull := by
  obtain ⟨hl, _⟩ | ⟨_, _, hl⟩ := h.line <;> rw [hl]

theorem flush : t.line.holds.flush = s.line.holds.flush := by
  obtain ⟨hl, _⟩ | ⟨_, _, hl⟩ := h.line <;> rw [hl]

/-- Where the mark stands at the counter it stays there. -/
theorem mark (hm : s.motion.mark = s.motion.travel) : t.motion.mark = s.motion.mark := by
  obtain ⟨_, he⟩ | ⟨_, he, _⟩ := h.line
  · exact he
  · exact he.trans hm.symm

end LineFollows

theorem LinkOnly.lineFollows {s t : State} (h : LinkOnly s t) (hb : BooksKept s t) : LineFollows s t :=
  ⟨by rw [h.eq], .inl ⟨h.line, by rw [h.motion]⟩, h.link, hb⟩

theorem drainTest_follows (s : State) : LineFollows s (drainTest s) := by
  by_cases h : s.line.state = .drain ∧ trackingEmpty s = true
  · have he := drainTest_complete h.1 h.2
    refine ⟨by rw [he], .inr ⟨h.1, by rw [he], by rw [he]⟩, by rw [he]; exact LinkPort.offer_grows _ _, ?_⟩
    intro b
    rw [he]
    exact LinkPort.record_offer b _ _
  · have he : drainTest s = s := if_neg h
    rw [he]
    exact (LinkOnly.refl s).lineFollows (.refl s)

theorem drainAfter_follows (before s : State) : LineFollows s (drainAfter before s) := by
  obtain h | h := drainAfter_cases before s
  · rw [h]
    exact (LinkOnly.refl s).lineFollows (.refl s)
  · rw [h]
    exact drainTest_follows s

theorem LinkOnly.trans_lineFollows {a b c : State} (h : LinkOnly a b) (hb : BooksKept a b) (k : LineFollows b c) : LineFollows a c :=
  ⟨by rw [k.eq, h.eq], by rw [← h.line, ← h.motion]; exact k.line, h.link.trans k.link, hb.trans k.books⟩

/-- An event is its effects, then its LINE notice and drain test. -/
theorem event_follows (f : State → State) (s : State) : LineFollows (f s) (event f s) :=
  (lineNote_linkOnly s (f s)).trans_lineFollows (lineNote_books s (f s)) (drainAfter_follows s _)

/-- An event whose effects keep the lengths of the tables and the line's set ends with its effects. -/
theorem event_of_quiet {f : State → State} {s : State} (hl : (f s).line = s.line)
    (hs : s.belt.strips.length ≤ (f s).belt.strips.length) (hd : s.chain.deck.length ≤ (f s).chain.deck.length)
    (hc : (f s).cuttings = s.cuttings) : event f s = f s := by
  unfold event
  rw [lineNote_of_line_eq hl]
  refine drainAfter_of_tables hs hd ?_
  unfold lugOccupancy
  rw [hc]

/-! ### Tables -/

theorem findStrip_mapStrip (m n : Nat) {f : Strip → Strip} (s : State) (hf : ∀ r : Strip, (f r).number = r.number) :
    findStrip (mapStrip n f s) m = if m = n then (findStrip s m).map f else findStrip s m := by
  unfold findStrip mapStrip
  dsimp only
  rw [List.find?_map]
  have hp : ((fun r : Strip => r.number == m) ∘ fun r => if r.number = n then f r else r) = fun r => r.number == m := by
    funext r
    simp only [Function.comp]
    split
    · rw [hf]
    · rfl
  rw [hp]
  cases h : List.find? (fun r : Strip => r.number == m) s.belt.strips with
  | none => simp
  | some r =>
    have hr : r.number = m := by simpa using List.find?_some h
    by_cases hmn : m = n
    · simp [hr, hmn]
    · simp [hr, hmn]

/-- A strip found has the number looked for. -/
theorem findStrip_number {s : State} {n : Nat} {r : Strip} (h : findStrip s n = some r) : r.number = n := by
  simpa using List.find?_some h

theorem findCutting_id {s : State} {id : CuttingId} {c : Cutting} (h : findCutting s id = some c) : c.id = id := by
  simpa using List.find?_some h

theorem findCutting_mem {s : State} {id : CuttingId} {c : Cutting} (h : findCutting s id = some c) : c ∈ s.cuttings :=
  List.mem_of_find?_eq_some h

theorem findStrip_mem {s : State} {n : Nat} {r : Strip} (h : findStrip s n = some r) : r ∈ s.belt.strips :=
  List.mem_of_find?_eq_some h

/-- Without the strips of some numbers the others are found as before, and those no more. -/
theorem findStrip_filter {s t : State} {p : Nat → Bool} (h : t.belt.strips = s.belt.strips.filter (fun r => p r.number)) (n : Nat) :
    findStrip t n = if p n = true then findStrip s n else none := by
  unfold findStrip
  rw [h, List.find?_filter]
  split
  · rename_i hn
    refine congrArg (fun q => List.find? q s.belt.strips) (funext fun r => ?_)
    by_cases hr : r.number = n
    · simp [hr, hn]
    · simp [hr]
  · rename_i hn
    rw [List.find?_eq_none]
    intro r _
    by_cases hr : r.number = n
    · simp [hr, hn]
    · simp [hr]

theorem mem_beltCuttings {n : Nat} {s : State} {id : CuttingId} :
    id ∈ beltCuttings n s ↔ ∃ c ∈ s.cuttings, c.id = id ∧ id.strip = n ∧ c.state.onBelt = true := by
  unfold beltCuttings
  simp only [List.mem_map, List.mem_filter, Bool.and_eq_true, beq_iff_eq]
  constructor
  · rintro ⟨c, ⟨hc, hn, hb⟩, rfl⟩
    exact ⟨c, hc, rfl, hn, hb⟩
  · rintro ⟨c, hc, rfl, hn, hb⟩
    exact ⟨c, ⟨hc, hn, hb⟩, rfl⟩

theorem beltCuttings_congr {s t : State} (h : t.cuttings = s.cuttings) (n : Nat) : beltCuttings n t = beltCuttings n s := by
  unfold beltCuttings
  rw [h]

/-! ### The leaving of a strip -/

/-- The stores after strip record r has let go of its own (R38). -/
def storesWithout (r : Strip) (u : ScanUnit) : ScanUnit :=
  match r.store with
  | none => u
  | some .a => { u with storeA := Store.free }
  | some .b => { u with storeB := Store.free }

theorem storesWithout_none {r : Strip} (h : r.store = none) (u : ScanUnit) : storesWithout r u = u := by
  unfold storesWithout
  rw [h]

theorem storesWithout_store (r : Strip) (u : ScanUnit) (i : StoreId) :
    (storesWithout r u).store i = if r.store = some i then Store.free else u.store i := by
  cases hr : r.store with
  | none =>
    rw [storesWithout_none hr]
    simp
  | some j => cases j <;> cases i <;> simp [storesWithout, hr, ScanUnit.store]

theorem storesWithout_converter (r : Strip) (u : ScanUnit) : (storesWithout r u).converter = u.converter := by
  unfold storesWithout
  split <;> rfl

/-- The freeing of a store, as a change of the strip table and the stores. -/
theorem freeStore_eq {n : Nat} {s : State} {r : Strip} (h : findStrip s n = some r) :
    freeStore n s = { s with
      scan := storesWithout r s.scan
      belt := { s.belt with
        strips := if r.store = none then s.belt.strips
          else s.belt.strips.map (fun x => if x.number = n then { x with store := none } else x) } } := by
  unfold freeStore storesWithout
  rw [h]
  cases hr : r.store with
  | none => simp [hr]
  | some j => cases j <;> simp [hr, mapStrip, mapStore]

theorem freeStore_none {n : Nat} {s : State} (h : findStrip s n = none) : freeStore n s = s := by
  unfold freeStore
  rw [h]
  rfl

theorem findStrip_freeStore (m n : Nat) (s : State) :
    findStrip (freeStore n s) m = if m = n then (findStrip s m).map (fun x => { x with store := none }) else findStrip s m := by
  cases h : findStrip s n with
  | none =>
    rw [freeStore_none h]
    by_cases hm : m = n
    · simp [hm, h]
    · simp [hm]
  | some r =>
    by_cases hr : r.store = none
    · rw [freeStore_eq h, if_pos hr]
      show findStrip s m = _
      by_cases hm : m = n
      · subst hm
        obtain ⟨⟩ := r
        simp only at hr
        simp [h, hr]
      · simp [hm]
    · rw [freeStore_eq h, if_neg hr]
      exact findStrip_mapStrip m n s (fun _ => rfl)

/-- A strip record's return as the last-return record holds it, if it goes to return (R146, R147). -/
def returnOf (s : State) (r : Strip) : Option ReturnRecord := (returnStrip r s).chain.lastReturn

theorem returnStrip_eq (r : Strip) (s : State) : returnStrip r s = { s with chain := { s.chain with lastReturn := returnOf s r } } := by
  unfold returnOf returnStrip
  split
  · split <;> rfl
  · rfl

theorem returnOf_congr {s t : State} (hc : t.chain = s.chain) (hg : t.config = s.config) (hl : t.link = s.link) (r : Strip) :
    returnOf t r = returnOf s r := by
  unfold returnOf returnStrip writeReturn removalPos
  split
  · split <;> simp only [hc, hg, hl]
  · rw [hc]

theorem returnOf_left {s : State} {r : Strip} {why : StripReason} (h : r.state = .unplanned ∨ r.state = .lost) (hr : r.reason = some why) :
    returnOf s r = some { object := .strip r.number, reason := why.toReturn, place := .tick (removalPos s r), clock := s.link.clock } := by
  unfold returnOf returnStrip
  rw [if_pos h, hr]
  rfl

theorem returnOf_kept {s : State} {r : Strip} (h : r.state ≠ .unplanned ∧ r.state ≠ .lost) : returnOf s r = s.chain.lastReturn := by
  unfold returnOf returnStrip
  rw [if_neg (by simp [h.1, h.2])]

/-- The tables without strip record r of number n, ahead of the report to its bank (R17). -/
def stripGone (n : Nat) (r : Strip) (s : State) : State :=
  { s with
    motion := { s.motion with events := s.motion.events.filter (fun e => !EventKind.ofStrip n e.what) }
    line := { s.line with holds := { s.line.holds with trackFull := false } }
    belt := { s.belt with strips := s.belt.strips.filter (fun x => x.number != n) }
    scan := storesWithout r s.scan
    chain := { s.chain with lastReturn := returnOf s r } }

theorem dropStrip_eq {n : Nat} {s : State} {r : Strip} (h : findStrip s n = some r) :
    dropStrip n s = unbindStrip r.bank (stripGone n r s) := by
  have hf : (if r.store = none then s.belt.strips else
      s.belt.strips.map (fun x => if x.number = n then { x with store := none } else x)).filter (fun x => x.number != n) =
      s.belt.strips.filter (fun x => x.number != n) := by
    split
    · rfl
    · rw [List.filter_map]
      induction s.belt.strips with
      | nil => rfl
      | cons x l ih =>
        by_cases hx : x.number = n
        · simp [hx, ih]
        · simp [hx, ih]
  unfold dropStrip
  rw [h]
  dsimp only
  refine congrArg (unbindStrip r.bank) ?_
  rw [freeStore_eq h, returnStrip_eq, returnOf_congr (s := s)]
  · simp only [withdraw, mapHolds, hf, stripGone]
  all_goals rfl

/-! ### The freeing of cuttings -/

/-- The step from s to t frees the cuttings ids (R131) and, with them, the strips whose numbers stand in gone, each one whose removal position was
taken and that has no cutting left on the belt (R17). -/
structure FreesWith (ids : List CuttingId) (gone : List Nat) (s t : State) : Prop where
  tracking : TrackingOnly s t
  books : BooksKept s t
  cuttings : t.cuttings = s.cuttings.filter (fun c => decide (c.id ∉ ids))
  saw : t.saw = s.saw
  planner : t.planner = s.planner
  chain : t.chain = { s.chain with lastReturn := t.chain.lastReturn }
  converter : t.scan.converter = s.scan.converter
  stores : ∀ i, t.scan.store i = s.scan.store i ∨ t.scan.store i = Store.free
  strips : t.belt.strips = s.belt.strips.filter (fun r => decide (r.number ∉ gone))
  left : ∀ n ∈ gone, n ∈ ids.map CuttingId.strip ∧ beltCuttings n t = [] ∧ ∃ r, findStrip s n = some r ∧ r.removalTaken = true
  events : ∀ e ∈ t.motion.events, e ∈ s.motion.events
  kept : ∀ e ∈ s.motion.events, (∀ id ∈ ids, e.what ≠ .transfer id) → (∀ n ∈ gone, EventKind.ofStrip n e.what = false) →
    e ∈ t.motion.events
  withdrawn : ∀ c ∈ s.cuttings, c.id ∈ ids → ∀ e ∈ t.motion.events, e.what ≠ .transfer c.id

/-- The step from s to t frees the cuttings ids, and the strips that this leaves without a cutting. -/
def Frees (ids : List CuttingId) (s t : State) : Prop := ∃ gone, FreesWith ids gone s t

namespace FreesWith
variable {ids : List CuttingId} {gone : List Nat} {s t : State}

theorem findStrip (h : FreesWith ids gone s t) (n : Nat) :
    findStrip t n = if n ∈ gone then none else Machine.findStrip s n := by
  rw [findStrip_filter (p := fun n => decide (n ∉ gone)) h.strips n]
  by_cases hn : n ∈ gone <;> simp [hn]

theorem findStrip_some (h : FreesWith ids gone s t) {n : Nat} {r : Strip} (hr : Machine.findStrip t n = some r) :
    Machine.findStrip s n = some r := by
  rw [h.findStrip] at hr
  split at hr
  · cases hr
  · exact hr

theorem beltCuttings (h : FreesWith ids gone s t) (n : Nat) :
    beltCuttings n t = (Machine.beltCuttings n s).filter (fun id => decide (id ∉ ids)) := by
  unfold Machine.beltCuttings
  rw [h.cuttings, List.filter_filter, List.filter_map, List.filter_filter]
  refine congrArg _ (List.filter_congr fun c _ => ?_)
  simp [Function.comp, Bool.and_comm]

/-- Freeings one after another are the freeing of all. -/
theorem trans {ids' : List CuttingId} {gone' : List Nat} {u : State} (h : FreesWith ids gone s t) (k : FreesWith ids' gone' t u) :
    FreesWith (ids ++ ids') (gone ++ gone') s u where
  tracking := h.tracking.trans k.tracking
  books := h.books.trans k.books
  cuttings := by
    rw [k.cuttings, h.cuttings, List.filter_filter]
    refine List.filter_congr fun c _ => ?_
    simp [not_or, Bool.and_comm]
  saw := k.saw.trans h.saw
  planner := k.planner.trans h.planner
  chain := by
    have hk := k.chain
    rw [h.chain] at hk
    exact hk
  converter := k.converter.trans h.converter
  stores i := by
    obtain hk | hk := k.stores i
    · rw [hk]
      exact h.stores i
    · exact .inr hk
  strips := by
    rw [k.strips, h.strips, List.filter_filter]
    refine List.filter_congr fun c _ => ?_
    simp [not_or, Bool.and_comm]
  left n hn := by
    obtain hn | hn := List.mem_append.mp hn
    · obtain ⟨hid, hb, hr⟩ := h.left n hn
      refine ⟨by rw [List.map_append]; exact List.mem_append_left _ hid, ?_, hr⟩
      rw [k.beltCuttings, hb]
      rfl
    · obtain ⟨hid, hb, r, hr, ht⟩ := k.left n hn
      exact ⟨by rw [List.map_append]; exact List.mem_append_right _ hid, hb, r, h.findStrip_some hr, ht⟩
  events e he := h.events e (k.events e he)
  kept e he hid hg :=
    k.kept e (h.kept e he (fun id h => hid id (List.mem_append_left _ h)) (fun n h => hg n (List.mem_append_left _ h)))
      (fun id h => hid id (List.mem_append_right _ h)) (fun n h => hg n (List.mem_append_right _ h))
  withdrawn c hc hid e he := by
    by_cases h1 : c.id ∈ ids
    · exact h.withdrawn c hc h1 e (k.events e he)
    · have h2 : c.id ∈ ids' := (List.mem_append.mp hid).resolve_left h1
      refine k.withdrawn c ?_ h2 e he
      rw [h.cuttings, List.mem_filter]
      exact ⟨hc, by simpa using h1⟩

end FreesWith

theorem Frees.trans {ids ids' : List CuttingId} {s t u : State} (h : Frees ids s t) (k : Frees ids' t u) : Frees (ids ++ ids') s u := by
  obtain ⟨g, h⟩ := h
  obtain ⟨g', k⟩ := k
  exact ⟨g ++ g', h.trans k⟩

/-- A step that frees nothing and leaves the belt, the saw, the planner and the chain alone. -/
theorem FreesWith.of_eq {s t : State} (h : TrackingOnly s t) (hk : BooksKept s t) (hb : t.belt = s.belt) (hm : t.motion = s.motion)
    (hc : t.cuttings = s.cuttings) (hs : t.saw = s.saw) (hp : t.planner = s.planner) (hch : t.chain = s.chain) (hsc : t.scan = s.scan) :
    FreesWith [] [] s t where
  tracking := h
  books := hk
  cuttings := by simp [hc]
  saw := hs
  planner := hp
  chain := by rw [hch]
  converter := by rw [hsc]
  stores i := .inl (by rw [hsc])
  strips := by simp [hb]
  left n hn := by cases hn
  events e he := by rwa [hm] at he
  kept e he _ _ := by rwa [hm]
  withdrawn c _ hid := by cases hid

theorem BinsOnly.freesWith {s t : State} (h : BinsOnly s t) (hb : BooksKept s t) : FreesWith [] [] s t := by
  refine .of_eq h.trackingOnly hb ?_ ?_ ?_ ?_ ?_ ?_ ?_ <;> rw [h.eq]

theorem ReferralsOnly.freesWith {s t : State} (h : ReferralsOnly s t) (hb : BooksKept s t) : FreesWith [] [] s t := by
  refine .of_eq h.trackingOnly hb ?_ ?_ ?_ ?_ ?_ ?_ ?_ <;> rw [h.eq]

/-- The leaving of a strip with its removal position taken and no cutting left on the belt (R17). -/
theorem dropStrip_frees {n : Nat} {s : State} {r : Strip} (h : findStrip s n = some r) (hr : r.removalTaken = true)
    (hb : beltCuttings n s = []) {id : CuttingId} (hid : id.strip = n) (hc : ∀ c ∈ s.cuttings, c.id ≠ id)
    : FreesWith [id] [n] s (dropStrip n s) := by
  have hbins := unbindStrip_binsOnly r.bank (stripGone n r s)
  have hbooks := unbindStrip_books r.bank (stripGone n r s)
  have heq := dropStrip_eq h
  refine ⟨dropStrip_trackingOnly n s, ?_, ?_, ?_, ?_, ?_, ?_, ?_, ?_, ?_, ?_, ?_, ?_⟩ <;> try rw [heq]
  · exact hbooks
  · rw [hbins.eq]
    refine (List.filter_eq_self.mpr fun c hc' => ?_).symm
    simpa using hc c hc'
  · rw [hbins.eq]; rfl
  · rw [hbins.eq]; rfl
  · rw [hbins.eq]; rfl
  · rw [hbins.eq]
    exact storesWithout_converter r s.scan
  · intro i
    rw [hbins.eq]
    show (storesWithout r s.scan).store i = _ ∨ (storesWithout r s.scan).store i = _
    rw [storesWithout_store]
    split
    · exact .inr rfl
    · exact .inl rfl
  · rw [hbins.eq]
    show s.belt.strips.filter (fun x => x.number != n) = _
    refine List.filter_congr fun x _ => ?_
    by_cases hx : x.number = n <;> simp [hx]
  · intro m hm
    obtain rfl : m = n := by simpa using hm
    refine ⟨by simp [hid], ?_, r, h, hr⟩
    rw [beltCuttings_congr (by rw [hbins.eq]; rfl : _ = s.cuttings), hb]
  · intro e he
    rw [hbins.eq] at he
    exact (List.mem_filter.mp he).1
  · intro e he _ hg
    rw [hbins.eq]
    exact List.mem_filter.mpr ⟨he, by simpa using hg n (by simp)⟩
  · intro c hc' hci
    exact absurd (by simpa using hci) (hc c hc')

/-- The strip of a freed cutting leaves if the cutting was the last it waited for (R17, R131). -/
theorem leaveIfLast_frees {s : State} {id : CuttingId} (hc : ∀ c ∈ s.cuttings, c.id ≠ id) :
    ∃ gone, FreesWith [id] gone s (leaveIfLast id.strip s) := by
  have stays : FreesWith [id] [] s s := by
    refine ⟨.refl s, .refl s, ?_, rfl, rfl, rfl, rfl, fun _ => .inl rfl, by simp, nofun, fun _ h => h, fun _ h _ _ => h, ?_⟩
    · exact (List.filter_eq_self.mpr fun c h => by simpa using hc c h).symm
    · exact fun c h hid => absurd (by simpa using hid) (hc c h)
  unfold leaveIfLast
  split
  · exact ⟨[], stays⟩
  · rename_i r hr
    split
    · rename_i h
      exact ⟨[id.strip], dropStrip_frees hr h.1 h.2 rfl hc⟩
    · exact ⟨[], stays⟩

/-- The cutting's record is gone, and the cause RECORDS with it when the free count is back at its floor (R131, R132). -/
def recordGone (id : CuttingId) (s : State) : State :=
  let t := { s with cuttings := s.cuttings.filter (fun x => decide (x.id ≠ id)) }
  if Config.recordsFloor ≤ freeRecords t then mapHolds (fun h => { h with records := false }) t else t

theorem recordGone_eq (id : CuttingId) (s : State) : recordGone id s = { s with
    cuttings := s.cuttings.filter (fun x => decide (x.id ≠ id))
    line := { s.line with holds := { s.line.holds with records := (recordGone id s).line.holds.records } } } := by
  unfold recordGone
  dsimp only
  split <;> rfl

theorem recordGone_trackingOnly (id : CuttingId) (s : State) : TrackingOnly s (recordGone id s) := by
  unfold recordGone
  dsimp only
  split
  · exact (keepCuttings_trackingOnly _ _).trans (mapHolds_trackingOnly _ _ fun _ => ⟨rfl, rfl, rfl, rfl⟩)
  · exact keepCuttings_trackingOnly _ _

/-- The cutting's evaluation ends and its transfer is withdrawn; then its reservation goes, and its record (R131). -/
def withoutCutting (landed : Bool) (c : Cutting) (s : State) : State :=
  recordGone c.id (releaseReservation c landed (withdraw (fun k => k == .transfer c.id) (abandonRuns c.id s)))

theorem freeRecord_eq {landed : Bool} {id : CuttingId} {s : State} {c : Cutting} (h : findCutting s id = some c) :
    freeRecord landed id s = leaveIfLast id.strip (unbindCutting c.bank (withoutCutting landed c s)) := by
  unfold freeRecord withoutCutting
  rw [h, findCutting_id h]
  rfl

theorem freeRecord_none {landed : Bool} {id : CuttingId} {s : State} (h : findCutting s id = none) : freeRecord landed id s = s := by
  unfold freeRecord
  rw [h]

/-- The record goes with its transfer and the bundles' part of it; nothing else of the belt, the saw, the planner, the scan and the deck changes. -/
theorem withoutCutting_eq (landed : Bool) (c : Cutting) (s : State) : withoutCutting landed c s =
    let t := withoutCutting landed c s
    { s with
      motion := { s.motion with events := s.motion.events.filter (fun e => !(e.what == .transfer c.id)) }
      line := { s.line with holds := { s.line.holds with records := t.line.holds.records } }
      cuttings := s.cuttings.filter (fun x => decide (x.id ≠ c.id))
      grade := t.grade, bundles := t.bundles, label := t.label, recipe := t.recipe, link := t.link } := by
  have hb := (releaseReservation_binsOnly c landed (withdraw (fun k => k == .transfer c.id) (abandonRuns c.id s))).eq
  rw [abandonRuns_eq] at hb
  unfold withoutCutting
  dsimp only
  rw [recordGone_eq, abandonRuns_eq, hb]
  rfl

theorem withoutCutting_books (landed : Bool) (c : Cutting) (s : State) : BooksKept s (withoutCutting landed c s) := by
  have h := releaseReservation_books c landed (withdraw (fun k => k == .transfer c.id) (abandonRuns c.id s))
  have h0 : BooksKept s (withdraw (fun k => k == .transfer c.id) (abandonRuns c.id s)) := .of_link (abandonRuns_link c.id s)
  refine (h0.trans h).trans (.of_link ?_)
  unfold withoutCutting
  rw [recordGone_eq]

theorem withoutCutting_trackingOnly (landed : Bool) (c : Cutting) (s : State) : TrackingOnly s (withoutCutting landed c s) := by
  refine ((abandonRuns_gradingOnly c.id s).trackingOnly.trans (withdraw_trackingOnly (fun k => k == .transfer c.id) _)).trans
    ((releaseReservation_binsOnly c landed _).trackingOnly.trans (recordGone_trackingOnly c.id _))

theorem withoutCutting_frees (landed : Bool) (c : Cutting) (s : State) : FreesWith [c.id] [] s (withoutCutting landed c s) := by
  have heq := withoutCutting_eq landed c s
  refine ⟨withoutCutting_trackingOnly landed c s, withoutCutting_books landed c s, ?_, ?_, ?_, ?_, ?_, ?_, ?_, nofun, ?_, ?_, ?_⟩
  · rw [heq]
    refine List.filter_congr fun x _ => ?_
    simp
  · rw [heq]
  · rw [heq]
  · rw [heq]
  · rw [heq]
  · intro i
    rw [heq]
    exact .inl rfl
  · rw [heq]
    simp
  · intro e he
    rw [heq] at he
    exact (List.mem_filter.mp he).1
  · intro e he hid _
    rw [heq]
    exact List.mem_filter.mpr ⟨he, by simpa using hid c.id (by simp)⟩
  · intro x _ hx e he
    rw [heq] at he
    have hx : x.id = c.id := by simpa using hx
    rw [hx]
    simpa using (List.mem_filter.mp he).2

theorem FreesWith.weaken {ids ids' : List CuttingId} {gone gone' : List Nat} {s t : State} (h : FreesWith ids gone s t)
    (hi : ∀ id, id ∈ ids ↔ id ∈ ids') (hg : ∀ n, n ∈ gone ↔ n ∈ gone') : FreesWith ids' gone' s t where
  tracking := h.tracking
  books := h.books
  cuttings := by
    rw [h.cuttings]
    simp only [hi]
  saw := h.saw
  planner := h.planner
  chain := h.chain
  converter := h.converter
  stores := h.stores
  strips := by
    rw [h.strips]
    simp only [hg]
  left n hn := by
    obtain ⟨hm, hrest⟩ := h.left n ((hg n).mpr hn)
    refine ⟨?_, hrest⟩
    obtain ⟨id, hid, rfl⟩ := List.mem_map.mp hm
    exact List.mem_map.mpr ⟨id, (hi id).mp hid, rfl⟩
  events := h.events
  kept e he hid hgone := h.kept e he (fun id h => hid id ((hi id).mp h)) (fun n h => hgone n ((hg n).mp h))
  withdrawn c hc hid := h.withdrawn c hc ((hi _).mpr hid)

/-- The freeing of one record (R131). -/
theorem freeRecord_frees (landed : Bool) (id : CuttingId) (s : State) : Frees [id] s (freeRecord landed id s) := by
  cases h : findCutting s id with
  | none =>
    rw [freeRecord_none h]
    have hn : ∀ c ∈ s.cuttings, c.id ≠ id := by simpa [findCutting] using h
    refine ⟨[], .refl s, .refl s, ?_, rfl, rfl, rfl, rfl, fun _ => .inl rfl, by simp, nofun, fun _ h => h, fun _ h _ _ => h, ?_⟩
    · exact (List.filter_eq_self.mpr fun c h => by simpa using hn c h).symm
    · exact fun c h hid => absurd (by simpa using hid) (hn c h)
  | some c =>
    have hid := findCutting_id h
    rw [freeRecord_eq h]
    have h1 := withoutCutting_frees landed c s
    rw [hid] at h1
    have h2 := (unbindCutting_binsOnly c.bank (withoutCutting landed c s)).freesWith (unbindCutting_books _ _)
    obtain ⟨gone, h3⟩ := leaveIfLast_frees (id := id) (s := unbindCutting c.bank (withoutCutting landed c s)) (by
      intro x hx
      rw [h2.cuttings, h1.cuttings] at hx
      simpa using (List.mem_filter.mp (List.mem_filter.mp hx).1).2)
    exact ⟨gone, ((h1.trans h2).trans h3).weaken (by simp) (by simp)⟩

theorem Frees.nil {s t : State} (h : FreesWith [] [] s t) : Frees [] s t := ⟨[], h⟩

theorem foldl_frees {f : State → CuttingId → State} (h : ∀ s id, Frees [id] s (f s id)) (ids : List CuttingId) (s : State) :
    Frees ids s (ids.foldl f s) := by
  induction ids generalizing s with
  | nil => exact .nil ((BinsOnly.refl s).freesWith (.refl s))
  | cons id ids ih => exact (h s id).trans (ih _)

/-- The freeing of several cuttings in one event (R126, R131). -/
theorem freeCuttings_frees (ids : List CuttingId) (s : State) : Frees ids s (freeCuttings ids s) := by
  have h1 : ReferralsOnly s (ids.foldl (fun s id => endReferral id .withdrawn s) s) := by
    induction ids generalizing s with
    | nil => exact .refl s
    | cons id ids ih => exact (endReferral_referralsOnly id _ s).trans (ih _)
  have b1 : BooksKept s (ids.foldl (fun s id => endReferral id .withdrawn s) s) :=
    foldl_books (fun s id => endReferral_books id .withdrawn s) ids s
  have h2 := h1.trans (promoteAll_referralsOnly _)
  have h3 := foldl_frees (fun s id => freeRecord_frees false id s) ids
    (promoteAll (ids.foldl (fun s id => endReferral id .withdrawn s) s))
  exact (Frees.nil (h2.freesWith (b1.trans (promote_books _ _)))).trans h3

end Sys2Proof.Machine
end

