-- ==== Sys2Proof/Proofs/Losses.lean ====
section
/-! PROOFS. The loss of strips (R22): what it takes of each, and what of the others stays. -/

namespace Sys2Proof.Machine

theorem freeStore_only (n : Nat) (s : State) : freeStore n s = { s with
    scan := (freeStore n s).scan
    belt := { s.belt with strips := (freeStore n s).belt.strips } } := by
  cases h : findStrip s n with
  | none => rw [freeStore_none h]
  | some r => rw [freeStore_eq h]

/-- The freeing of a strip's store reads and changes the strip table and the stores alone. -/
theorem freeStore_congr {s t : State} (n : Nat) (hb : t.belt = s.belt) (hs : t.scan = s.scan) :
    (freeStore n t).scan = (freeStore n s).scan ∧ (freeStore n t).belt = (freeStore n s).belt := by
  have hf : findStrip t n = findStrip s n := by
    unfold findStrip
    rw [hb]
  cases h : findStrip s n with
  | none => rw [freeStore_none h, freeStore_none (hf.trans h), hb, hs]; exact ⟨rfl, rfl⟩
  | some r => rw [freeStore_eq h, freeStore_eq (hf.trans h)]; simp [hb, hs]

theorem freeStore_store (n : Nat) (s : State) (i : StoreId) :
    (freeStore n s).scan.store i = if (findStrip s n).bind Strip.store = some i then Store.free else s.scan.store i := by
  cases h : findStrip s n with
  | none => rw [freeStore_none h]; simp
  | some r =>
    rw [freeStore_eq h]
    exact storesWithout_store r s.scan i

theorem freeStore_converter (n : Nat) (s : State) : (freeStore n s).scan.converter = s.scan.converter := by
  cases h : findStrip s n with
  | none => rw [freeStore_none h]
  | some r =>
    rw [freeStore_eq h]
    exact storesWithout_converter r s.scan

/-- A record after the freeing is of the number it was of, and the record it was if that number is another. -/
theorem mem_freeStore {n : Nat} {s : State} {x : Strip} (hx : x ∈ (freeStore n s).belt.strips) (hn : x.number ≠ n) :
    x ∈ s.belt.strips := by
  cases h : findStrip s n with
  | none => rwa [freeStore_none h] at hx
  | some r =>
    rw [freeStore_eq h] at hx
    by_cases hr : r.store = none
    · simpa [hr] using hx
    · simp only [if_neg hr] at hx
      obtain ⟨y, hy, rfl⟩ := List.mem_map.mp hx
      split at hn
      · rename_i he
        exact absurd he hn
      · rename_i he
        rwa [if_neg he]

/-- A strip record as a loss leaves it (R22). -/
def Strip.lostFor (why : StripReason) (r : Strip) : Strip :=
  { r with state := .lost, reason := some why, windowOpen := false, store := none }

/-- The step from s to t takes the strips ns, their cuttings apart (R22). -/
structure LosesMarks (why : StripReason) (ns : List Nat) (s t : State) : Prop where
  tracking : TrackingOnly s t
  line : t.line = s.line
  link : t.link = s.link
  cuttings : t.cuttings = s.cuttings
  chain : t.chain = s.chain
  saw : t.saw = { s.saw with entries := s.saw.entries.filter (fun e => decide (e.strip ∉ ns)) }
  planner : t.planner = { s.planner with queue := s.planner.queue.filter (fun m => decide (m ∉ ns)) }
  events : ∀ e, e ∈ t.motion.events ↔ e ∈ s.motion.events ∧ ∀ n ∈ ns, EventKind.fireOf n e.what = false ∧ EventKind.lostWith n e.what = false
  converter : t.scan.converter = s.scan.converter
  stores : ∀ i, t.scan.store i = s.scan.store i ∨ t.scan.store i = Store.free
  freed : ∀ n ∈ ns, ∀ r i, findStrip s n = some r → r.store = some i → t.scan.store i = Store.free
  found : ∀ m, findStrip t m = if m ∈ ns then (findStrip s m).map (Strip.lostFor why) else findStrip s m
  strips : ∀ r ∈ t.belt.strips, r.number ∈ ns ∧ r.state = .lost ∨ r.number ∉ ns ∧ r ∈ s.belt.strips

theorem LosesMarks.nil (why : StripReason) (s : State) : LosesMarks why [] s s where
  tracking := .refl s
  line := rfl
  link := rfl
  cuttings := rfl
  chain := rfl
  saw := by simp
  planner := by simp
  events := by simp
  converter := rfl
  stores _ := .inl rfl
  freed := nofun
  found := by simp
  strips r hr := .inr ⟨by simp, hr⟩

theorem LosesMarks.trans {why : StripReason} {ns ms : List Nat} {s t u : State} (h : LosesMarks why ns s t) (k : LosesMarks why ms t u) :
    LosesMarks why (ns ++ ms) s u where
  tracking := h.tracking.trans k.tracking
  line := k.line.trans h.line
  link := k.link.trans h.link
  cuttings := k.cuttings.trans h.cuttings
  chain := k.chain.trans h.chain
  saw := by
    rw [k.saw, h.saw]
    simp only [List.filter_filter]
    congr 1
    refine List.filter_congr fun e _ => ?_
    simp [not_or, Bool.and_comm]
  planner := by
    rw [k.planner, h.planner]
    simp only [List.filter_filter]
    congr 1
    refine List.filter_congr fun e _ => ?_
    simp [not_or, Bool.and_comm]
  events e := by
    rw [k.events, h.events]
    simp only [List.mem_append, or_imp, forall_and]
    tauto
  converter := k.converter.trans h.converter
  stores i := by
    obtain hk | hk := k.stores i
    · rw [hk]
      exact h.stores i
    · exact .inr hk
  freed n hn r i hr hi := by
    by_cases h1 : n ∈ ns
    · obtain hk | hk := k.stores i
      · rw [hk]
        exact h.freed n h1 r i hr hi
      · exact hk
    · refine k.freed n ((List.mem_append.mp hn).resolve_left h1) r i ?_ hi
      rw [h.found, if_neg h1, hr]
  found m := by
    rw [k.found, h.found]
    by_cases h1 : m ∈ ns
    · rw [if_pos h1, if_pos (List.mem_append_left _ h1)]
      split
      · rw [Option.map_map]
        rfl
      · rfl
    · simp [h1]
  strips r hr := by
    obtain ⟨hm, hl⟩ | ⟨hm, hr⟩ := k.strips r hr
    · exact .inl ⟨List.mem_append_right _ hm, hl⟩
    · obtain ⟨hn, hl⟩ | ⟨hn, hr⟩ := h.strips r hr
      · exact .inl ⟨List.mem_append_left _ hn, hl⟩
      · exact .inr ⟨by simp [hn, hm], hr⟩

/-- The loss of one strip, its cuttings apart (R22). -/
theorem loseMark_eq (why : StripReason) (n : Nat) (s : State) : loseMark why s n = { s with
    motion := { s.motion with
      events := s.motion.events.filter (fun e => !EventKind.lostWith n e.what && !EventKind.fireOf n e.what) }
    saw := { s.saw with entries := s.saw.entries.filter (fun e => e.strip != n) }
    planner := { s.planner with queue := s.planner.queue.filter (fun m => m != n) }
    scan := (freeStore n s).scan
    belt := { s.belt with strips := (freeStore n s).belt.strips.map (fun r => if r.number = n then
      { r with state := .lost, reason := some why, windowOpen := false } else r) } } := by
  have h := freeStore_congr n (s := s) (t := leavePlannerQueue n
    (setEntries (s.saw.entries.filter (fun e => e.strip != n)) (withdraw (EventKind.fireOf n) s))) rfl rfl
  unfold loseMark
  dsimp only
  rw [freeStore_only, h.1, h.2]
  simp only [mapStrip, withdraw, leavePlannerQueue, setEntries, List.filter_filter]

theorem loseMark_loses (why : StripReason) (n : Nat) (s : State) : LosesMarks why [n] s (loseMark why s n) := by
  have heq := loseMark_eq why n s
  refine ⟨loseMark_trackingOnly why s n, ?_, ?_, ?_, ?_, ?_, ?_, ?_, ?_, ?_, ?_, ?_, ?_⟩
  · rw [heq]
  · rw [heq]
  · rw [heq]
  · rw [heq]
  · rw [heq]
    dsimp only
    congr 1
    refine List.filter_congr fun e _ => ?_
    by_cases h : e.strip = n <;> simp [h]
  · rw [heq]
    dsimp only
    congr 1
    refine List.filter_congr fun e _ => ?_
    by_cases h : e = n <;> simp [h]
  · intro e
    rw [heq]
    simp [List.mem_filter, and_comm]
  · rw [heq]
    exact freeStore_converter n s
  · intro i
    rw [heq]
    dsimp only
    rw [freeStore_store]
    split
    · exact .inr rfl
    · exact .inl rfl
  · intro m hm r i hr hi
    obtain rfl : m = n := by simpa using hm
    rw [heq]
    dsimp only
    rw [freeStore_store, hr, if_pos]
    exact hi
  · intro m
    rw [heq]
    have h := findStrip_mapStrip m n (f := fun r => { r with state := .lost, reason := some why, windowOpen := false })
      (freeStore n s) (fun _ => rfl)
    refine Eq.trans (show _ = findStrip (mapStrip n _ (freeStore n s)) m from rfl) (h.trans ?_)
    rw [findStrip_freeStore]
    by_cases hm : m = n
    · rw [if_pos hm, if_pos hm, if_pos (by simp [hm]), Option.map_map]
      rfl
    · rw [if_neg hm, if_neg hm, if_neg (by simp [hm])]
  · intro r hr
    rw [heq] at hr
    obtain ⟨x, hx, rfl⟩ := List.mem_map.mp hr
    split
    · rename_i hn
      exact .inl ⟨by simp [hn], rfl⟩
    · rename_i hn
      exact .inr ⟨by simpa using hn, mem_freeStore hx hn⟩

theorem foldl_loseMark (why : StripReason) (ns : List Nat) (s : State) : LosesMarks why ns s (ns.foldl (loseMark why) s) := by
  induction ns generalizing s with
  | nil => exact .nil why s
  | cons n ns ih => exact (loseMark_loses why n s).trans (ih _)

/-- The loss of strips in one event (R22): their marks, then their cuttings on the belt. -/
theorem loseStrips_loses (why : StripReason) (ns : List Nat) (s : State) :
    ∃ u, LosesMarks why ns s u ∧ Frees (ns.flatMap (fun n => beltCuttings n s)) u (loseStrips why ns s) :=
  ⟨_, foldl_loseMark why ns s, freeCuttings_frees _ _⟩

/-- What a loss takes, the clearing event apart that a flush registers later (R22, R23). -/
structure Loses (why : StripReason) (ns : List Nat) (s t : State) : Prop where
  tracking : TrackingOnly s t
  books : BooksKept s t
  cuttings : t.cuttings = s.cuttings.filter (fun c => decide (∀ n ∈ ns, c.id ∉ beltCuttings n s))
  saw : t.saw = { s.saw with entries := s.saw.entries.filter (fun e => decide (e.strip ∉ ns)) }
  planner : t.planner = { s.planner with queue := s.planner.queue.filter (fun m => decide (m ∉ ns)) }
  chain : t.chain = { s.chain with lastReturn := t.chain.lastReturn }
  events : ∀ e ∈ t.motion.events, e ∈ s.motion.events ∧ ∀ n ∈ ns, EventKind.fireOf n e.what = false ∧
    EventKind.lostWith n e.what = false ∧ ∀ i, ⟨n, i⟩ ∈ beltCuttings n s → e.what ≠ .transfer ⟨n, i⟩
  kept : ∀ e ∈ s.motion.events, (∀ n ∈ ns, ¬e.what.concerns n) → e ∈ t.motion.events
  freed : ∀ n ∈ ns, ∀ r i, findStrip s n = some r → r.store = some i → t.scan.store i = Store.free
  lost : ∀ n ∈ ns, ∀ x, findStrip t n = some x → ∃ r, findStrip s n = some r ∧ x = r.lostFor why
  stays : ∀ n r, findStrip s n = some r → n ∉ ns → findStrip t n = some r
  remains : ∀ n ∈ ns, ∀ r, findStrip s n = some r → r.removalTaken = false → findStrip t n = some (r.lostFor why)
  strips : ∀ r ∈ t.belt.strips, r.number ∈ ns ∧ r.state = .lost ∨ r.number ∉ ns ∧ r ∈ s.belt.strips

theorem strip_of_mem_beltCuttings {n : Nat} {s : State} {id : CuttingId} (h : id ∈ beltCuttings n s) : id.strip = n := by
  obtain ⟨_, _, _, hn, _⟩ := mem_beltCuttings.mp h
  exact hn

theorem concerns_transfer (id : CuttingId) : (EventKind.transfer id).concerns id.strip := .inr (.inr ⟨id.index, rfl⟩)

/-- What a loss withdraws concerns its strip. -/
theorem concerns_of_fireOf {n : Nat} {k : EventKind} (h : EventKind.fireOf n k = true) : k.concerns n := .inr (.inl h)

theorem concerns_of_ofStrip {n : Nat} {k : EventKind} (h : EventKind.ofStrip n k = true) : k.concerns n := .inl h

theorem ofStrip_of_lostWith {n : Nat} {k : EventKind} (h : EventKind.lostWith n k = true) : EventKind.ofStrip n k = true := by
  cases k <;> simp_all [EventKind.lostWith, EventKind.ofStrip]

theorem loses_of_frees {why : StripReason} {ns : List Nat} {s u t : State} (h : LosesMarks why ns s u)
    (k : Frees (ns.flatMap (fun n => beltCuttings n s)) u t) : Loses why ns s t := by
  obtain ⟨gone, k⟩ := k
  have hgone : ∀ n ∈ gone, n ∈ ns := by
    intro n hn
    obtain ⟨id, hid, rfl⟩ := List.mem_map.mp (k.left n hn).1
    obtain ⟨m, hm, hid⟩ := List.mem_flatMap.mp hid
    rwa [strip_of_mem_beltCuttings hid]
  refine ⟨h.tracking.trans k.tracking, (BooksKept.of_link h.link).trans k.books, ?_, k.saw.trans h.saw, k.planner.trans h.planner,
    ?_, ?_, ?_, ?_, ?_, ?_, ?_, ?_⟩
  · rw [k.cuttings, h.cuttings]
    refine List.filter_congr fun c _ => ?_
    simp
  · rw [← h.chain]
    exact k.chain
  · intro e he
    obtain ⟨hs, hl⟩ := (h.events e).mp (k.events e he)
    refine ⟨hs, fun n hn => ⟨(hl n hn).1, (hl n hn).2, fun i hi => ?_⟩⟩
    obtain ⟨c, hc, hid, _, _⟩ := mem_beltCuttings.mp hi
    rw [← hid]
    exact k.withdrawn c (by rwa [h.cuttings]) (List.mem_flatMap.mpr ⟨n, hn, by rwa [hid]⟩) e he
  · intro e he hn
    refine k.kept e ((h.events e).mpr ⟨he, fun n hm => ?_⟩) (fun id hid hw => ?_) fun n hm => ?_
    · constructor
      · exact Bool.eq_false_iff.mpr fun hf => hn n hm (concerns_of_fireOf hf)
      · exact Bool.eq_false_iff.mpr fun hf => hn n hm (concerns_of_ofStrip (ofStrip_of_lostWith hf))
    · obtain ⟨m, hm, hid⟩ := List.mem_flatMap.mp hid
      have hs := strip_of_mem_beltCuttings hid
      refine hn m hm ?_
      rw [hw, ← hs]
      exact concerns_transfer id
    · exact Bool.eq_false_iff.mpr fun hf => hn n (hgone n hm) (concerns_of_ofStrip hf)
  · intro n hn r i hr hi
    obtain hk | hk := k.stores i
    · rw [hk]
      exact h.freed n hn r i hr hi
    · exact hk
  · intro n hn x hx
    have hx := k.findStrip_some hx
    rw [h.found, if_pos hn] at hx
    obtain ⟨r, hr, rfl⟩ := Option.map_eq_some_iff.mp hx
    exact ⟨r, hr, rfl⟩
  · intro n r hr hn
    rw [k.findStrip, if_neg fun hg => hn (hgone n hg), h.found, if_neg hn, hr]
  · intro n hn r hr ht
    have hu : findStrip u n = some (r.lostFor why) := by
      rw [h.found, if_pos hn, hr]
      rfl
    rw [k.findStrip, if_neg, hu]
    intro hg
    obtain ⟨_, _, x, hx, hxt⟩ := k.left n hg
    rw [hu] at hx
    obtain rfl := Option.some.inj hx
    rw [show (r.lostFor why).removalTaken = r.removalTaken from rfl, ht] at hxt
    cases hxt
  · intro r hr
    rw [k.strips] at hr
    exact h.strips r (List.mem_filter.mp hr).1

theorem loseStrips_spec (why : StripReason) (ns : List Nat) (s : State) : Loses why ns s (loseStrips why ns s) := by
  obtain ⟨u, h, k⟩ := loseStrips_loses why ns s
  exact loses_of_frees h k

/-- No cutting of a lost strip stays on the belt (R22). -/
theorem Loses.beltCuttings {why : StripReason} {ns : List Nat} {s t : State} (h : Loses why ns s t) {n : Nat} (hn : n ∈ ns) :
    beltCuttings n t = [] := by
  refine List.eq_nil_iff_forall_not_mem.mpr fun id hid => ?_
  obtain ⟨c, hc, rfl, hs, hb⟩ := mem_beltCuttings.mp hid
  rw [h.cuttings, List.mem_filter] at hc
  have := of_decide_eq_true hc.2
  exact this n hn (mem_beltCuttings.mpr ⟨c, hc.1, rfl, hs, hb⟩)

/-- A loss takes what R22 says, and what comes after it keeps that so as far as the tables stay and the events grow by others' only. -/
theorem Loses.lossTaken {why : StripReason} {ns : List Nat} {s u t : State} (h : Loses why ns s u) {n : Nat} (hn : n ∈ ns)
    (hb : t.belt = u.belt) (hsaw : t.saw = u.saw) (hc : t.cuttings = u.cuttings) (hp : t.planner = u.planner) (hsc : t.scan = u.scan)
    (he : ∀ e ∈ t.motion.events, e ∈ u.motion.events ∨ e.what = .flushClear) : LossTaken s t n := by
  have hf : findStrip t n = findStrip u n := by
    unfold findStrip
    rw [hb]
  refine ⟨fun e hm => ?_, ?_, ?_, fun e hm => ?_, fun x hx => ?_, fun r i hr hi => ?_⟩
  · rw [hsaw, h.saw] at hm
    have := of_decide_eq_true (List.mem_filter.mp hm).2
    exact fun hs => this (hs ▸ hn)
  · rw [beltCuttings_congr hc, h.beltCuttings hn]
  · rw [hp, h.planner]
    intro hm
    exact of_decide_eq_true (List.mem_filter.mp hm).2 hn
  · obtain hm | hm := he e hm
    · exact (h.events e hm).2 n hn
    · rw [hm]
      exact ⟨rfl, rfl, fun _ _ => nofun⟩
  · rw [hf] at hx
    obtain ⟨r, _, rfl⟩ := h.lost n hn x hx
    exact ⟨rfl, rfl, rfl⟩
  · rw [hsc]
    exact h.freed n hn r i hr hi

end Sys2Proof.Machine
end

