-- ==== Sys2Proof/Proofs/Flushes.lean ====
section
/-! PROOFS. The track flush and the jam (R23, R24): the losses, the fault, the cause FLUSH with its clearing event, and the copies and notices. -/

namespace Sys2Proof.Machine

/-- A ready notice stands last when it was just offered, unmasked, to a queue with room. -/
theorem LinkPort.getLast_offer {n : Notice} {l : LinkPort} (hm : l.mask.getLsbD n.kindIndex = true)
    (hr : (l.offer n).noticeCount < Config.noticeCapacity) : (l.offer n).tx.getLast? = some (.notice n) := by
  have hroom : l.noticeCount < Config.noticeCapacity := Nat.lt_of_le_of_lt (LinkPort.offer_grows n l).noticeCount_le hr
  rw [LinkPort.offer_of_room hm hroom]
  simp

/-- The registration of the clearing event of FLUSH at c: it stays pending when the mark has not reached c, and passes when it has (R2, R10). -/
theorem regFlushClear_pending {c : Word} {s : State} (hc : isAfter c s.motion.mark = true) (hf : s.line.holds.flush = true)
    (he : ∀ e ∈ s.motion.events, e.what ≠ .flushClear) :
    regSimple c .flushClear s = addEvent c .flushClear s ∧ FlushPending (addEvent c .flushClear s) c := by
  refine ⟨?_, hf, fun e hw => ?_⟩
  · unfold regSimple reached
    rw [hc]
    rfl
  · simp only [addEvent_events, List.mem_append, List.mem_singleton]
    constructor
    · rintro (h | h)
      · exact absurd hw (he e h)
      · rw [h]
    · intro h
      obtain ⟨q, k⟩ := e
      dsimp only at h hw
      exact .inr (by rw [h, hw])

theorem regFlushClear_passed {c : Word} {s : State} (hc : isAfter c s.motion.mark = false) (hf : s.line.holds.flush = true)
    (he : ∀ e ∈ s.motion.events, e.what ≠ .flushClear) :
    regSimple c .flushClear s = { s with
      line := { s.line with holds := { s.line.holds with flush := false } }
      link := s.link.offer (.line s.line.state s.line.state { s.line.holds with flush := false } s.motion.travel s.link.clock) } ∧
    FlushPassed (regSimple c .flushClear s) := by
  have h : regSimple c .flushClear s = { s with
      line := { s.line with holds := { s.line.holds with flush := false } }
      link := s.link.offer (.line s.line.state s.line.state { s.line.holds with flush := false } s.motion.travel s.link.clock) } := by
    unfold regSimple reached
    rw [hc]
    refine event_mapHolds_ne (f := fun h => { h with flush := false }) fun h => ?_
    have := congrArg HoldSet.flush h
    rw [hf] at this
    cases this
  refine ⟨h, ?_⟩
  rw [h]
  refine ⟨rfl, he, fun hm hr => ?_⟩
  rw [(LinkPort.offer_grows _ _).mask] at hm
  rw [LinkPort.getLast_offer (by exact hm) hr]
  simp only [LinkPort.offer_clock]

/-- What a flush at p over the strips ns makes of the state, logIt logging its fault after the losses that end in u. -/
structure Flushed (reason : FlushReason) (ns : List Nat) (p c : Word) (s u v t : State) : Prop where
  belt : t.belt = u.belt
  saw : t.saw = u.saw
  cuttings : t.cuttings = u.cuttings
  planner : t.planner = u.planner
  scan : t.scan = u.scan
  events : ∀ e ∈ t.motion.events, e ∈ u.motion.events ∨ e.what = .flushClear
  books : BooksKept v t
  line : t.line.state = s.line.state ∧ t.motion.mark = s.motion.mark ∨
    s.line.state = .drain ∧ t.line.state = .ready ∧ t.motion.mark = s.motion.travel
  travel : t.motion.travel = s.motion.travel
  preFlush : t.chain.preFlush = t.chain.lastReturn
  notice : s.link.mask.getLsbD 2 = true → t.link.noticeCount < Config.noticeCapacity →
    TxFrame.notice (.flush reason s.motion.travel ns.length ns.head? ns.getLast?) ∈ t.link.tx
  pending : isAfter c s.motion.mark = true ∨ t.line.state = .ready → FlushPending t c
  passed : isAfter c s.motion.mark = false → t.line.state = s.line.state → FlushPassed t

/-- The flush before its clearing event is registered: the cause FLUSH, the copies and the notices, and the drain test (R23). -/
theorem flushBody_follows (reason : FlushReason) (ns : List Nat) (s v : State) :
    let x := flushNotice reason ns (copyPreFlush (lineNote s (withdraw (fun k => k == .flushClear)
      (mapHolds (fun h => { h with flush := true }) v))))
    ∃ l, x = { v with
        motion := { v.motion with events := v.motion.events.filter (fun e => !(e.what == .flushClear)) }
        line := { v.line with holds := { v.line.holds with flush := true } }
        chain := { v.chain with preFlush := v.chain.lastReturn }
        link := l.offer (.flush reason v.motion.travel ns.length ns.head? ns.getLast?) } ∧ LinkGrows v.link l ∧
      ∀ b, l.record b = v.link.record b := by
  have hl := lineNote_linkOnly s (withdraw (fun k => k == .flushClear) (mapHolds (fun h => { h with flush := true }) v))
  refine ⟨_, ?_, hl.link, lineNote_books s _⟩
  dsimp only
  rw [hl.eq]
  rfl

theorem flushAt_flushed (reason : FlushReason) (why : StripReason) (ns : List Nat) {logIt : State → State} {p : Word} {s : State}
    (hm : s.line.state.moving = true) (hlog : LinkOnly (loseStrips why ns s) (logIt (loseStrips why ns s)))
    (hc : isAfter (clearPos s p) s.motion.travel = true) :
    Loses why ns s (loseStrips why ns s) ∧
      Flushed reason ns p (clearPos s p) s (loseStrips why ns s) (logIt (loseStrips why ns s)) (flushAt reason why ns logIt p s) := by
  have hloses := loseStrips_spec why ns s
  refine ⟨hloses, ?_⟩
  unfold flushAt
  dsimp only
  generalize loseStrips why ns s = u at *
  generalize logIt u = v at *
  obtain ⟨l, hx, hl, hlb⟩ := flushBody_follows reason ns s v
  dsimp only at hx
  rw [hx]
  generalize hxe : ({ v with
        motion := { v.motion with events := v.motion.events.filter (fun e => !(e.what == .flushClear)) }
        line := { v.line with holds := { v.line.holds with flush := true } }
        chain := { v.chain with preFlush := v.chain.lastReturn }
        link := l.offer (.flush reason v.motion.travel ns.length ns.head? ns.getLast?) } : State) = x
  have hy := drainAfter_follows s x
  generalize drainAfter s x = y at *
  have xbelt : x.belt = u.belt := by rw [← hxe]; exact hlog.belt
  have xsaw : x.saw = u.saw := by rw [← hxe]; exact hlog.saw
  have xcuttings : x.cuttings = u.cuttings := by rw [← hxe]; exact hlog.cuttings
  have xplanner : x.planner = u.planner := by rw [← hxe]; exact hlog.planner
  have xscan : x.scan = u.scan := by rw [← hxe]; exact hlog.scan
  have xchain : x.chain.preFlush = x.chain.lastReturn := by rw [← hxe]
  have xevents : ∀ e ∈ x.motion.events, e ∈ u.motion.events ∧ e.what ≠ .flushClear := by
    intro e he
    rw [← hxe] at he
    obtain ⟨he, hw⟩ := List.mem_filter.mp he
    rw [hlog.motion] at he
    exact ⟨he, by simpa using hw⟩
  have xbooks : BooksKept v x := by
    intro b
    rw [← hxe]
    exact (LinkPort.record_offer b _ l).trans (hlb b)
  have xflush : x.line.holds.flush = true := by rw [← hxe]
  have xmotion : x.motion.travel = s.motion.travel ∧ x.motion.mark = s.motion.mark := by
    rw [← hxe]
    dsimp only
    rw [hlog.motion, hloses.tracking.eq]
    exact ⟨rfl, rfl⟩
  have xstate : x.line.state = s.line.state := by
    rw [← hxe]
    dsimp only
    rw [hlog.line, hloses.tracking.eq]
  have xlink : x.link = l.offer (.flush reason s.motion.travel ns.length ns.head? ns.getLast?) := by
    rw [← hxe]
    dsimp only
    rw [hlog.motion, hloses.tracking.eq]
  have lmask : l.mask = s.link.mask := by rw [hl.mask, hlog.link.mask, hloses.tracking.link.mask]
  clear hxe hx
  have yflush : y.line.holds.flush = true := hy.flush.trans xflush
  have yclear : ∀ e ∈ y.motion.events, e.what ≠ .flushClear := by
    intro e he
    rw [hy.events] at he
    exact (xevents e he).2
  have yline : y.line.state = s.line.state ∧ y.motion.mark = s.motion.mark ∨
      s.line.state = .drain ∧ y.line.state = .ready ∧ y.motion.mark = s.motion.travel := by
    obtain ⟨h1, h2⟩ | ⟨h1, h2, h3⟩ := hy.line
    · exact .inl ⟨by rw [h1, xstate], by rw [h2, xmotion.2]⟩
    · exact .inr ⟨by rw [← xstate]; exact h1, by rw [h3], by rw [h2, xmotion.1]⟩
  have ynotice : ∀ k : LinkPort, LinkGrows y.link k → s.link.mask.getLsbD 2 = true → k.noticeCount < Config.noticeCapacity →
      TxFrame.notice (.flush reason s.motion.travel ns.length ns.head? ns.getLast?) ∈ k.tx := by
    intro k hk hmask hroom
    have hg := hy.link.trans hk
    rw [xlink] at hg
    exact LinkPort.mem_offer (by rw [lmask]; exact hmask) hg hroom
  by_cases hr : isAfter (clearPos s p) y.motion.mark = true
  · obtain ⟨hreg, hpend⟩ := regFlushClear_pending hr yflush yclear
    rw [hreg]
    refine ⟨?_, ?_, ?_, ?_, ?_, ?_, ?_, yline, ?_, ?_, ?_, fun _ => hpend, ?_⟩
    · exact hy.belt.trans xbelt
    · exact hy.saw.trans xsaw
    · exact hy.cuttings.trans xcuttings
    · exact hy.planner.trans xplanner
    · exact hy.scan.trans xscan
    · intro e he
      rw [addEvent_events, hy.events] at he
      obtain he | he := List.mem_append.mp he
      · exact .inl (xevents e he).1
      · exact .inr (by rw [List.mem_singleton.mp he])
    · exact xbooks.trans hy.books
    · exact hy.travel.trans xmotion.1
    · show y.chain.preFlush = y.chain.lastReturn
      rw [hy.chain, xchain]
    · exact ynotice _ (.refl _)
    · intro hn hs
      obtain ⟨_, h2⟩ | ⟨_, h2, _⟩ := yline
      · rw [h2, hn] at hr
        cases hr
      · have hs : y.line.state = s.line.state := hs
        rw [← hs, h2] at hm
        cases hm
  · have hr : isAfter (clearPos s p) y.motion.mark = false := Bool.eq_false_iff.mpr hr
    obtain ⟨hreg, hpass⟩ := regFlushClear_passed hr yflush yclear
    have hline : y.line.state = s.line.state ∧ y.motion.mark = s.motion.mark := by
      obtain h | ⟨_, _, h2⟩ := yline
      · exact h
      · rw [h2, hc] at hr
        cases hr
    refine ⟨?_, ?_, ?_, ?_, ?_, ?_, ?_, ?_, ?_, ?_, ?_, ?_, fun _ _ => hpass⟩ <;> try rw [hreg]
    · exact hy.belt.trans xbelt
    · exact hy.saw.trans xsaw
    · exact hy.cuttings.trans xcuttings
    · exact hy.planner.trans xplanner
    · exact hy.scan.trans xscan
    · intro e he
      exact .inl (xevents e (by rw [← hy.events]; exact he)).1
    · exact (xbooks.trans hy.books).trans fun b => LinkPort.record_offer b _ _
    · exact .inl hline
    · exact hy.travel.trans xmotion.1
    · show y.chain.preFlush = y.chain.lastReturn
      rw [hy.chain, xchain]
    · exact ynotice _ (LinkPort.offer_grows _ _)
    · rintro (h | h)
      · rw [hline.2, h] at hr
        cases hr
      · have h : y.line.state = .ready := h
        rw [← hline.1, h] at hm
        cases hm

/-- The BELT record after a fault that is logged to it, whatever else logs none (R211). -/
theorem beltFault_logged {s u t : State} {code : Nat} {detail : Option Nat} {o : FaultObject} {p : Word} (hu : BooksKept s u)
    (hclock : u.link.clock = s.link.clock) (ht : BooksKept (logFault .belt code detail o p u) t) :
    (s.link.belt.first = none → t.link.belt.first = some { code, detail, object := o, position := p, clock := s.link.clock }) ∧
    ∀ f, s.link.belt.first = some f → t.link.belt = ⟨some f, min 255 (s.link.belt.count + 1), true⟩ := by
  have hb : u.link.record .belt = s.link.belt := hu.belt
  constructor
  · intro h
    rw [ht.belt, logFault_of_empty (by rw [hb, h]), ← hclock]
    exact congrArg FaultRecord.first (LinkPort.record_offer .belt _ _)
  · intro f h
    rw [ht.belt, logFault_of_held (by rw [hb, h]), hb]
    rfl

/-- A jam is the flush of every strip not LOST, the mark put back to the counter after it (R24). -/
theorem jam_flushed {s : State} {ns : List Nat} (hm : s.line.state.moving = true) (hns : ns = jammable s)
    (hc : isAfter (clearPos s s.motion.travel) s.motion.travel = true) :
    ∃ u f, Loses .jam ns s u ∧
      Flushed .jam ns s.motion.travel (clearPos s s.motion.travel) s u
        (logFault .belt 5 (some s.motion.mark.toNat) .none s.motion.travel u) f ∧
      jam s = { f with motion := { f.motion with mark := f.motion.travel } } := by
  subst hns
  obtain ⟨h1, h2⟩ := flushAt_flushed .jam .jam (jammable s) (p := s.motion.travel) hm
    (logFault_linkOnly .belt 5 (some s.motion.mark.toNat) .none s.motion.travel _) hc
  exact ⟨_, _, h1, h2, rfl⟩

theorem isJam_of {s : State} (hm : s.line.state.moving = true)
    (h : (s.config.motion.reverse : Int) < ticksFrom (s.motion.travel - 1) s.motion.mark) : isJam (stepReverse s) = true := by
  have hmark : (stepReverse s).motion.mark = s.motion.mark := if_pos hm
  unfold isJam
  rw [hmark]
  exact Bool.and_eq_true_iff.mpr ⟨hm, decide_eq_true h⟩

theorem mem_flushable {s : State} {r : Strip} (hr : r ∈ s.belt.strips) : r.state = .cutting ∨ r.state = .lost ∨ r.number ∈ flushable s := by
  by_cases h : r.state = .cutting ∨ r.state = .lost
  · exact h.imp_right .inl
  · refine .inr (.inr (List.mem_map.mpr ⟨r, List.mem_filter.mpr ⟨hr, ?_⟩, rfl⟩))
    simpa using h

theorem mem_jammable {s : State} {r : Strip} (hr : r ∈ s.belt.strips) : r.state = .lost ∨ r.number ∈ jammable s := by
  by_cases h : r.state = .lost
  · exact .inl h
  · exact .inr (List.mem_map.mpr ⟨r, List.mem_filter.mpr ⟨hr, by simpa using h⟩, rfl⟩)

/-- The lowest number of a list stands in it, and no number of it is lower (R26). -/
theorem lowestNumber_spec (n : Nat) (ns : List Nat) : lowestNumber (n :: ns) ∈ n :: ns ∧ ∀ m ∈ n :: ns, lowestNumber (n :: ns) ≤ m := by
  unfold lowestNumber
  dsimp only
  induction ns generalizing n with
  | nil => simp
  | cons x ns ih =>
    obtain ⟨h1, h2⟩ := ih (min n x)
    rw [List.foldl_cons]
    constructor
    · obtain h | h := List.mem_cons.mp h1
      · rw [h]
        obtain h | h := min_choice n x <;> rw [h] <;> simp
      · exact List.mem_cons_of_mem _ (List.mem_cons_of_mem _ h)
    · have h0 := h2 _ List.mem_cons_self
      intro m hm
      obtain rfl | hm := List.mem_cons.mp hm
      · omega
      · obtain rfl | hm := List.mem_cons.mp hm
        · omega
        · exact h2 m (List.mem_cons_of_mem _ hm)

end Sys2Proof.Machine

open Sys2Proof Sys2Proof.Machine

/-- Settles O12: a jam is the flush of every strip not LOST, with the mark put back after it. -/
theorem jamLosesEveryStrip : Obligations.JamLosesEveryStrip := by
  intro s p ns hr hm hj hp hc hns
  subst hp
  have hexec : exec .encReverseStep s = .next (jam (stepReverse s)) := by rw [exec_encReverseStep hr, if_pos (isJam_of hm hj)]
  obtain ⟨u, f, hu, hf, he⟩ := jam_flushed (s := stepReverse s) (ns := ns) hm hns hc
  have hmark : (stepReverse s).motion.mark = s.motion.mark := if_pos hm
  have hline := hf.line
  rw [hmark] at hline
  have hpending := hf.pending
  have hpassed := hf.passed
  rw [hmark] at hpending hpassed
  obtain ⟨hfirst, hheld⟩ := beltFault_logged hu.books hu.tracking.link.clock hf.books
  rw [hmark] at hfirst
  refine ⟨_, hexec, ?_⟩
  rw [he]
  refine ⟨?_, fun n hn => ?_, ?_, hpending, hpassed, hfirst, hheld, hf.notice, hf.preFlush, hf.travel, hf.travel⟩
  · intro r hmem
    have hmem : r ∈ f.belt.strips := hmem
    rw [hf.belt] at hmem
    obtain ⟨_, h⟩ | ⟨hn, h⟩ := hu.strips r hmem
    · exact h
    · exact (mem_jammable h).resolve_right fun hj => hn (hns ▸ hj)
  · exact hu.lossTaken hn hf.belt hf.saw hf.cuttings hf.planner hf.scan hf.events
  · obtain ⟨h, _⟩ | ⟨h, h', _⟩ := hline
    · exact .inl h
    · exact .inr ⟨h, h'⟩

/-- Settles O20: a track flush is the flush of every strip that is neither CUTTING nor LOST. -/
theorem ambiguousEdgeFlushesTheTrack : Obligations.AmbiguousEdgeFlushesTheTrack := by
  intro s r1 r2 rs p ns hr hm hw hp hc hns
  subst hp
  have hns : ns = flushable s := hns
  subst hns
  have hexec : exec .seLeadingEdge s = .next (trackFlush (r1 :: r2 :: rs) s.motion.travel s) := by
    rw [exec_seLeadingEdge hr]
    unfold takeSeEdge
    rw [hw]
  obtain ⟨hu, hf⟩ := flushAt_flushed .ambiguous .ambiguous (flushable s) (p := s.motion.travel) hm
    (logFault_linkOnly .belt 3 (some (r1 :: r2 :: rs).length)
      (.strip (lowestNumber ((r1 :: r2 :: rs).map Strip.number))) s.motion.travel _) hc
  obtain ⟨hfirst, hheld⟩ := beltFault_logged hu.books hu.tracking.link.clock hf.books
  obtain ⟨hlow, hleast⟩ := lowestNumber_spec r1.number ((r2 :: rs).map Strip.number)
  refine ⟨_, hexec, ?_⟩
  unfold trackFlush
  refine ⟨?_, fun n hn => ?_, ?_, ?_, hf.pending, hf.passed, hf.preFlush, fun h => ⟨_, hlow, hleast, hfirst h⟩, hheld, hf.notice, hf.travel,
    hf.line⟩
  · intro r hmem
    rw [hf.belt] at hmem
    obtain ⟨_, h⟩ | ⟨hn, h⟩ := hu.strips r hmem
    · exact .inr h
    · obtain h | h | h := mem_flushable h
      · exact .inl h
      · exact .inr h
      · exact absurd h hn
  · exact hu.lossTaken hn hf.belt hf.saw hf.cuttings hf.planner hf.scan hf.events
  · intro e he hn
    rw [hf.saw, hu.saw]
    exact List.mem_filter.mpr ⟨he, by simpa using hn⟩
  · intro n r hn hs
    rw [← hu.stays n r hs hn]
    unfold findStrip
    rw [hf.belt]

end

