-- ==== Sys2Proof/Proofs/ForwardSteps.lean ====
section
/-! PROOFS. A forward step that reaches one registered event (R2): what it takes, for a fire entry, the clearing of FLUSH, a removal, a window end, a
window opening and a transfer. -/

namespace Sys2Proof.Machine

/-- The state at a forward step in RUN or DRAIN that has reached the one event due and dropped it: the mark stands at the counter (R2). -/
def steppedOn (s : State) (others : List PosEvent) : State :=
  { s with motion := { s.motion with travel := s.motion.travel + 1, mark := s.motion.travel + 1, events := others } }

theorem isAfter_succ (p : Word) : isAfter (p + 1) p = true := by
  unfold isAfter ticksFrom
  have h : p + 1 - p = 1#32 := by bv_omega
  rw [h]
  decide

/-- A forward step that reaches one event and no other takes it, and nothing more when what it leaves registered lies ahead (R2). -/
theorem exec_forward_one {g : GateSample} {s t : State} {k : EventKind} {others : List PosEvent} (hr : s.inReset = false)
    (hm : s.line.state.moving = true) (hmark : s.motion.mark = s.motion.travel) (hd : OnlyDue s ⟨s.motion.travel + 1, k⟩ others)
    (ht : takeKind g (s.motion.travel + 1) k (steppedOn s others) = t)
    (hn : ∀ e ∈ t.motion.events, isAfter e.pos t.motion.mark = true) : exec (.encForwardStep g) s = .next t := by
  have hstep : stepForward s = { s with motion := { s.motion with travel := s.motion.travel + 1, mark := s.motion.travel + 1 } } := by
    unfold stepForward
    simp only [hm, hmark, isAfter_succ, if_true]
  have hdue : dueEvents (stepForward s) = [⟨s.motion.travel + 1, k⟩] := by
    rw [hstep]
    exact hd.due rfl rfl
  have hlen : ∃ n, s.motion.events.length = n + 1 := by
    obtain ⟨before, after, he, _, _⟩ := hd
    exact ⟨before.length + after.length, by rw [he]; simp; omega⟩
  obtain ⟨n, hlen⟩ := hlen
  have hdrop : dropEvent ⟨s.motion.travel + 1, k⟩ (stepForward s) = steppedOn s others := by
    rw [hstep]
    unfold dropEvent steppedOn
    dsimp only
    rw [hd.erase]
  rw [exec_encForwardStep g hr, hlen]
  unfold takeDue
  rw [hdue]
  dsimp only [chooseEvent]
  rw [hdrop, ht, takeDue_of_none g n (dueEvents_eq_nil hn)]

/-- The events that lie after the one due lie after the mark of the step. -/
theorem OnlyDue.ahead {s : State} {e : PosEvent} {others : List PosEvent} (h : OnlyDue s e others) :
    ∀ x ∈ others, isAfter x.pos e.pos = true := by
  obtain ⟨_, _, _, _, h⟩ := h
  exact h

/-! ### A fire entry -/

theorem toCut_id (c : Cutting) : c.toCut.id = c.id := by
  unfold Cutting.toCut
  split <;> rfl

theorem toCut_of_ne {c : Cutting} (h : c.state ≠ .planned) : c.toCut = c := by
  unfold Cutting.toCut
  split
  · rename_i hs
    exact absurd hs h
  · rfl

theorem toCut_of_planned {c : Cutting} (h : c.state = .planned) : c.toCut = { c with state := .cut } := by
  unfold Cutting.toCut
  rw [h]

theorem toCut_toCut (c : Cutting) : c.toCut.toCut = c.toCut := by
  by_cases h : c.state = .planned
  · rw [toCut_of_planned h]
    rfl
  · rw [toCut_of_ne h, toCut_of_ne h]

theorem findCutting_mapCutting (i id : CuttingId) {f : Cutting → Cutting} (s : State) (hf : ∀ c : Cutting, (f c).id = c.id) :
    findCutting (mapCutting id f s) i = if i = id then (findCutting s i).map f else findCutting s i := by
  unfold findCutting mapCutting
  dsimp only
  rw [List.find?_map]
  have hp : ((fun c : Cutting => decide (c.id = i)) ∘ fun c => if c.id = id then f c else c) = fun c => decide (c.id = i) := by
    funext c
    simp only [Function.comp]
    split
    · rw [hf]
    · rfl
  rw [hp]
  cases h : List.find? (fun c : Cutting => decide (c.id = i)) s.cuttings with
  | none => simp
  | some c =>
    have hc : c.id = i := by simpa using List.find?_some h
    by_cases hi : i = id
    · simp [hc, hi]
    · simp [hc, hi]

theorem findCutting_foldl_toCut (ids : List CuttingId) (s : State) (i : CuttingId) :
    findCutting (ids.foldl (fun s id => mapCutting id Cutting.toCut s) s) i =
      if i ∈ ids then (findCutting s i).map Cutting.toCut else findCutting s i := by
  induction ids generalizing s with
  | nil => simp
  | cons id ids ih =>
    rw [List.foldl_cons, ih, findCutting_mapCutting i id s toCut_id]
    by_cases h1 : i = id <;> by_cases h2 : i ∈ ids <;> simp [h1, h2, Option.map_map, Function.comp_def, toCut_toCut]

/-- Cuttings made CUT one after another change the Cutting Table alone. -/
theorem foldl_toCut_eq (ids : List CuttingId) (s : State) :
    ids.foldl (fun s id => mapCutting id Cutting.toCut s) s =
      { s with cuttings := (ids.foldl (fun s id => mapCutting id Cutting.toCut s) s).cuttings } := by
  induction ids generalizing s with
  | nil => rfl
  | cons id ids ih =>
    rw [List.foldl_cons]
    exact (ih _).trans rfl

/-- The state with entry e fired (R94). -/
def firedEntry (n l : Nat) (e : FireEntry) (s : State) : State :=
  setLine n l .fired { s with saw := { entries := s.saw.entries.erase e, lastFire := some e.tick, high := true } }

theorem takeFire_eq {n l : Nat} {s : State} {e : FireEntry} (h : findEntry s n l = some e) :
    takeFire n l s = { firedEntry n l e s with
      cuttings := ((cutBy e s).foldl (fun s id => mapCutting id Cutting.toCut s) (firedEntry n l e s)).cuttings } := by
  unfold takeFire
  rw [h]
  exact foldl_toCut_eq _ _

theorem mem_cutBy {e : FireEntry} {s : State} {id : CuttingId} : id ∈ cutBy e s ↔ id.strip = e.strip ∧
    (e.ends = some id.index ∨ e.starts = some id.index ∧ ∃ r, findStrip s e.strip = some r ∧ r.hasEnd id.index = false) := by
  unfold cutBy idsOf
  obtain ⟨n, i⟩ := id
  cases h : findStrip s e.strip with
  | none =>
    simp only [List.append_nil, List.mem_map, Option.mem_toList, CuttingId.mk.injEq]
    constructor
    · rintro ⟨j, hj, rfl, rfl⟩
      exact ⟨rfl, .inl hj⟩
    · rintro ⟨rfl, hj | ⟨_, r, hr, _⟩⟩
      · exact ⟨i, hj, rfl, rfl⟩
      · cases hr
  | some r =>
    simp only [List.mem_map, List.mem_append, Option.mem_toList, List.mem_filter, CuttingId.mk.injEq, Bool.not_eq_true']
    constructor
    · rintro ⟨j, hj | ⟨hj, he⟩, rfl, rfl⟩
      · exact ⟨rfl, .inl hj⟩
      · exact ⟨rfl, .inr ⟨hj, r, rfl, he⟩⟩
    · rintro ⟨rfl, hj | ⟨hj, x, hx, he⟩⟩
      · exact ⟨i, .inl hj, rfl, rfl⟩
      · obtain rfl := Option.some.inj hx
        exact ⟨i, .inr ⟨hj, he⟩, rfl, rfl⟩

theorem findEntry_strip {s : State} {n l : Nat} {e : FireEntry} (h : findEntry s n l = some e) : e.strip = n := by
  have := List.find?_some h
  simp only [Bool.and_eq_true, beq_iff_eq] at this
  exact this.1

end Sys2Proof.Machine

open Sys2Proof Sys2Proof.Machine

/-- Settles O13: the step takes the one event due, a fire entry or the clearing of FLUSH. -/
theorem forwardStepTakesTheEventDue : Obligations.ForwardStepTakesTheEventDue := by
  refine ⟨fun g s n l e others hr hm hmark hd he => ?_, fun g s others hr hm hmark hd hf => ?_⟩
  · have hfind : findEntry (steppedOn s others) n l = some e := he
    have hn := findEntry_strip he
    have heq := takeFire_eq hfind
    have hcut : ∀ i, findCutting (takeFire n l (steppedOn s others)) i =
        if i ∈ cutBy e s then (findCutting s i).map Cutting.toCut else findCutting s i := by
      intro i
      rw [heq]
      exact findCutting_foldl_toCut (cutBy e s) (firedEntry n l e (steppedOn s others)) i
    have hstrip : ∀ m, findStrip (takeFire n l (steppedOn s others)) m = if m = n then (findStrip s m).map
        (fun r => { r with lines := r.lines.modify l (fun q => { q with status := .fired }) }) else findStrip s m := by
      intro m
      rw [heq]
      exact findStrip_mapStrip m n _ (fun _ => rfl)
    refine ⟨takeFire n l (steppedOn s others), exec_forward_one hr hm hmark hd rfl ?_, ?_, ?_, ?_, ?_, ?_, ?_, ?_, ?_, ?_, ?_, ?_, ?_, ?_,
      ?_, ?_, ?_⟩
    · intro x hx
      rw [heq] at hx
      rw [heq]
      exact hd.ahead x hx
    · rw [heq]; rfl
    · rw [heq]; rfl
    · intro r hr
      rw [hstrip, if_pos rfl, hr]
      rfl
    · intro m hmn
      rw [hstrip, if_neg hmn]
    · intro i c hi hc
      rw [hcut, if_pos (mem_cutBy.mpr ⟨hn.symm, .inl hi⟩), hc]
      rfl
    · intro r i c hi hs hend hc
      rw [hcut, if_pos (mem_cutBy.mpr ⟨hn.symm, .inr ⟨hi, r, by rw [hn]; exact hs, hend⟩⟩), hc]
      rfl
    · intro id hid
      rw [hcut, if_neg]
      intro hmem
      obtain ⟨hs, hi⟩ := mem_cutBy.mp hmem
      obtain hid | ⟨h1, h2⟩ := hid
      · exact hid (hs.trans hn)
      · obtain hi | ⟨hi, _⟩ := hi
        · exact h1 hi
        · exact h2 hi
    all_goals
      rw [heq]
      rfl
  · refine exec_forward_one hr hm hmark hd ?_ (fun x hx => hd.ahead x hx)
    refine (event_mapHolds_ne (f := fun h => { h with flush := false }) (s := steppedOn s others) fun h => ?_).trans rfl
    have := congrArg HoldSet.flush h
    have hf : (steppedOn s others).line.holds.flush = true := hf
    rw [hf] at this
    cases this

end

