-- ==== Sys2Proof/Proofs/PlannerNext.lean ====
section
/-! PROOFS. What the processing of a strip leaves of the other strips' cuttings (R70 to R72), and the planner's next strip (R71). -/

namespace Sys2Proof.Machine

/-- The cuttings of the strips other than n are the same in s and t, in the same order. -/
def OthersKept (n : Nat) (s t : State) : Prop :=
  t.cuttings.filter (fun c => c.id.strip != n) = s.cuttings.filter (fun c => c.id.strip != n)

theorem OthersKept.of_eq {n : Nat} {s t : State} (h : t.cuttings = s.cuttings) : OthersKept n s t := by
  unfold OthersKept
  rw [h]

theorem OthersKept.trans {n : Nat} {a b c : State} (h : OthersKept n a b) (k : OthersKept n b c) : OthersKept n a c := Eq.trans k h

/-- A cutting of another strip is found as before. -/
theorem OthersKept.findCutting {n : Nat} {s t : State} (h : OthersKept n s t) {id : CuttingId} (hid : id.strip ≠ n) :
    findCutting t id = Machine.findCutting s id := by
  have hf : ∀ u : State, Machine.findCutting u id = (u.cuttings.filter (fun c => c.id.strip != n)).find? (fun c => decide (c.id = id)) := by
    intro u
    unfold Machine.findCutting
    rw [List.find?_filter]
    refine congrArg (fun q => List.find? q u.cuttings) (funext fun c => ?_)
    by_cases hc : c.id = id
    · simp [hc, hid]
    · simp [hc]
  rw [hf, hf, h]

theorem OthersKept.beltCuttings {n m : Nat} {s t : State} (h : OthersKept n s t) (hm : m ≠ n) :
    beltCuttings m t = Machine.beltCuttings m s := by
  have hf : ∀ u : State, Machine.beltCuttings m u =
      ((u.cuttings.filter (fun c => c.id.strip != n)).filter (fun c => c.id.strip == m && c.state.onBelt)).map Cutting.id := by
    intro u
    unfold Machine.beltCuttings
    rw [List.filter_filter]
    refine congrArg _ (List.filter_congr fun c _ => ?_)
    by_cases hc : c.id.strip = m
    · simp [hc, hm]
    · simp [hc]
  rw [hf, hf, h]

theorem mapCutting_othersKept (id : CuttingId) {f : Cutting → Cutting} (s : State) (hf : ∀ c : Cutting, (f c).id = c.id) :
    OthersKept id.strip s (mapCutting id f s) := by
  unfold OthersKept mapCutting
  dsimp only
  induction s.cuttings with
  | nil => rfl
  | cons c l ih =>
    rw [List.map_cons, List.filter_cons, List.filter_cons, ih]
    by_cases hc : c.id = id
    · rw [if_pos hc, hf]
      simp [hc]
    · rw [if_neg hc]

theorem allocate_othersKept (id : CuttingId) (nominal cls start : Nat) (k : BankId) (s : State) :
    OthersKept id.strip s (allocate id nominal cls start k s) := by
  unfold allocate
  split
  · exact .of_eq rfl
  · dsimp only
    have h : ∀ x : Cutting, x.id = id →
        (s.cuttings ++ [x]).filter (fun c => c.id.strip != id.strip) = s.cuttings.filter (fun c => c.id.strip != id.strip) := by
      intro x hx
      simp [List.filter_append, hx]
    split <;> exact h _ rfl

theorem LinkOnly.othersKept {s t : State} (h : LinkOnly s t) (n : Nat) : OthersKept n s t := .of_eq h.cuttings

theorem allocateAll_othersKept (r : Strip) (l : List (PlannedCutting × Nat)) (s : State) : OthersKept r.number s (allocateAll r l s) := by
  induction l generalizing s with
  | nil => exact .of_eq rfl
  | cons x l ih =>
    obtain ⟨c, i⟩ := x
    unfold allocateAll
    rw [event_allocate]
    exact ((allocate_othersKept ⟨r.number, i⟩ _ _ _ _ s).trans ((lineNote_linkOnly s _).othersKept _)).trans (ih _)

theorem writeRun_othersKept (c : Cutting) (e : RunEnd) (s : State) : OthersKept c.id.strip s (writeRun c e s) := by
  unfold writeRun
  split
  · exact mapCutting_othersKept c.id s fun _ => rfl
  · exact mapCutting_othersKept c.id s fun _ => rfl
  · rename_i k f
    have h : (raiseReferral (referralFor s c k f) s).2.cuttings = s.cuttings := by rw [(raiseReferral_referralsOnly _ s).eq]
    refine (OthersKept.of_eq h).trans (mapCutting_othersKept c.id _ fun x => ?_)
    split <;> rfl

theorem planningRun_othersKept (id : CuttingId) (s : State) : OthersKept id.strip s (planningRun id s) := by
  unfold planningRun
  split
  · exact .of_eq rfl
  · rename_i c h
    rw [← findCutting_id h]
    exact writeRun_othersKept c _ s

theorem foldl_othersKept {α : Type} {n : Nat} {f : State → α → State} (l : List α) (h : ∀ s, ∀ x ∈ l, OthersKept n s (f s x)) (s : State) :
    OthersKept n s (l.foldl f s) := by
  induction l generalizing s with
  | nil => exact .of_eq rfl
  | cons x l ih => exact (h s x (by simp)).trans (ih (fun s y hy => h s y (by simp [hy])) _)

theorem workUpTo_othersKept (r : Strip) (p : CutPlan) (w : Nat) (s : State) : OthersKept r.number s (workUpTo r p w s) := by
  have hw : ∀ (l : List Nat) (t : State), OthersKept r.number t (l.foldl (writeFeatures r (slotsOf s r)) t) :=
    fun l t => foldl_othersKept l (fun u i _ => by
      unfold writeFeatures
      exact mapCutting_othersKept ⟨r.number, i⟩ u fun _ => rfl) t
  have hg : ∀ (l : List CuttingId) (t : State), (∀ id ∈ l, id.strip = r.number) →
      OthersKept r.number t (l.foldl (fun s id => planningRun id s) t) := by
    intro l t hl
    refine foldl_othersKept l (fun u id hid => ?_) t
    rw [← hl id hid]
    exact planningRun_othersKept id u
  have hids : ∀ k d, ∀ id ∈ ((idsOf r.number (List.range p.cuttings.length)).take k).drop d, id.strip = r.number := by
    intro k d id hid
    obtain ⟨i, _, rfl⟩ := List.mem_map.mp (List.mem_of_mem_take (List.mem_of_mem_drop hid))
    rfl
  unfold workUpTo
  dsimp only
  refine OthersKept.trans ?_ ((hg _ _ (hids _ _)).trans (.of_eq rfl))
  split
  · exact (allocateAll_othersKept r _ s).trans (hw _ _)
  · exact allocateAll_othersKept r _ s

/-- A processing that begins works on the cuttings of its own strip, and on none unless that strip is WAITING_PLAN (R70). -/
theorem beginProcessing_othersKept (n : Nat) (s : State) : OthersKept n s (beginProcessing n s) := by
  unfold beginProcessing
  dsimp only
  split
  · exact .of_eq rfl
  · rename_i r h
    split
    · have hr : r.number = n := findStrip_number h
      have hw := fun p w t => workUpTo_othersKept r p w t
      rw [hr] at hw
      exact hw _ _ _
    · exact .of_eq rfl

theorem beginProcessing_idle {n : Nat} {s : State} (h : ∀ r, findStrip s n = some r → r.state ≠ .waitingPlan) :
    beginProcessing n s = { s with planner := { s.planner with inFlight := some n, placed := 0, graded := 0 } } := by
  unfold beginProcessing
  dsimp only
  split
  · rfl
  · rename_i r hr
    rw [if_neg (h r hr)]

/-- What of the state the planner's next processing leaves alone (R71): all but the planner, the new strip's cuttings, its bank, the cause RECORDS,
the referrals and the link. -/
structure PlannerMoves (s t : State) : Prop where
  eq : t = { s with
    line := { s.line with holds := { s.line.holds with records := t.line.holds.records } }
    planner := t.planner, referral := t.referral, cuttings := t.cuttings, recipe := t.recipe, link := t.link, freeCount := t.freeCount }
  link : LinkGrows s.link t.link
  inFlight : t.planner.inFlight = s.planner.queue.head?
  queue : t.planner.queue = s.planner.queue.drop 1
  belts : ∀ n r, findStrip s n = some r → r.state ≠ .waitingPlan → beltCuttings n t = beltCuttings n s

theorem plannerNext_moves (s : State) : PlannerMoves s (plannerNext s) := by
  unfold plannerNext
  split
  · rename_i h
    exact ⟨rfl, .refl _, by rw [h]; rfl, by rw [h]; rfl, fun _ _ _ _ => rfl⟩
  · rename_i n rest h
    have hp := beginProcessing_planningOnly n { s with planner := { s.planner with queue := rest } }
    obtain ⟨hf, hq⟩ := beginProcessing_planner n { s with planner := { s.planner with queue := rest } }
    refine ⟨hp.eq, hp.link, by rw [hf, h]; rfl, by rw [hq, h]; rfl, fun m r hr hs => ?_⟩
    by_cases hm : m = n
    · subst hm
      rw [beginProcessing_idle]
      · rfl
      · intro x hx
        obtain rfl := Option.some.inj (hx.symm.trans hr)
        exact hs
    · exact (beginProcessing_othersKept n { s with planner := { s.planner with queue := rest } }).beltCuttings hm

end Sys2Proof.Machine
end

