-- ==== Sys2Proof/Proofs/Eyes.lean ====
section
/-! PROOFS. The edges of the two eyes (R15, R20): a strip's creation, its match without a cut, and the edges that give nothing. -/

namespace Sys2Proof.Machine

theorem register_ahead {g : GateSample} {p : Word} {k : EventKind} {s : State} (h : isAfter p s.motion.mark = true) :
    register g p k s = addEvent p k s := by
  unfold register reached
  rw [h]
  rfl

theorem regSimple_ahead {p : Word} {k : EventKind} {s : State} (h : isAfter p s.motion.mark = true) :
    regSimple p k s = addEvent p k s := by
  unfold regSimple reached
  rw [h]
  rfl

theorem regSimple_reached {p : Word} {k : EventKind} {s : State} (h : isAfter p s.motion.mark = false) :
    regSimple p k s = takeSimple p k s := by
  unfold regSimple reached
  rw [h]
  rfl

theorem registerStrip_ahead (g : GateSample) {r : Strip} {s : State} (hw : isAfter (windowStart s r) s.motion.mark = true)
    (hs : isAfter (passDue s r 0) s.motion.mark = true) :
    registerStrip g r s = addEvent (passDue s r 0) (.scanOpen r.number) (addEvent (windowStart s r) (.seOpen r.number) s) := by
  unfold registerStrip
  rw [register_ahead hw, register_ahead (by exact hs)]

theorem logFault_mapHolds (b : FaultBook) (code : Nat) (detail : Option Nat) (o : FaultObject) (p : Word) (f : HoldSet → HoldSet)
    (s : State) : logFault b code detail o p (mapHolds f s) = mapHolds f (logFault b code detail o p s) := by
  cases h : (s.link.record b).first with
  | none => rw [logFault_of_empty h, logFault_of_empty (s := mapHolds f s) h]; rfl
  | some e => rw [logFault_of_held h, logFault_of_held (s := mapHolds f s) h]; rfl

/-- An edge that finds the strip table full (R15). -/
theorem trackFull_eq {s : State} (hf : s.line.holds.trackFull = false) : trackFull s =
    { logFault .belt 4 none .none s.motion.travel s with
      line := { s.line with holds := { s.line.holds with trackFull := true } }
      link := (logFault .belt 4 none .none s.motion.travel s).link.offer
        (.line s.line.state s.line.state { s.line.holds with trackFull := true } s.motion.travel s.link.clock) } := by
  have hl := logFault_linkOnly .belt 4 none .none s.motion.travel s
  have hc := hl.link.clock
  unfold trackFull
  rw [event_of_tables_eq]
  all_goals rw [logFault_mapHolds]
  · generalize logFault .belt 4 none .none s.motion.travel s = a at *
    rw [lineNote_of_holds_ne]
    · simp only [offer, mapHolds, hl.line, hl.motion, hc]
    · intro h
      have := congrArg HoldSet.trackFull h
      rw [hf] at this
      cases this
  · exact hl.belt
  · exact hl.chain
  · exact hl.cuttings

/-- A strip record as an SE match leaves it, its line and cut apart (R20). -/
def Strip.matchedBy (shift : Int) (r : Strip) : Strip := { r with shift := some shift, windowOpen := false }

/-- An UNPLANNED strip's match records the shift and closes the window (R20). -/
theorem event_matchStrip_unplanned {s : State} {r : Strip} (hr : r.state = .unplanned) (p : Word) :
    event (matchStrip r p) s =
      withdraw (fun k => k == .seEnd r.number) (mapStrip r.number (Strip.matchedBy (ticksFrom (predictedLead s r) p)) s) := by
  have h : matchStrip r p s =
      withdraw (fun k => k == .seEnd r.number) (mapStrip r.number (Strip.matchedBy (ticksFrom (predictedLead s r) p)) s) := by
    unfold matchStrip
    rw [if_neg (by rw [hr]; nofun)]
    rfl
  have hq := event_of_quiet (f := matchStrip r p) (s := s) (by rw [h]; rfl) (by rw [h]; simp) (by rw [h]; exact Nat.le_refl _) (by rw [h]; rfl)
  exact hq.trans h

theorem moveRemoval_of_none {n : Nat} {s : State} (h : ∀ e ∈ s.motion.events, e.what ≠ .removal n) : moveRemoval n s = s := by
  unfold moveRemoval
  split
  · rfl
  · rw [if_neg]
    simpa using h

theorem moveRemoval_of_some {n : Nat} {s : State} {r : Strip} (hr : findStrip s n = some r) (h : ∃ e ∈ s.motion.events, e.what = .removal n) :
    moveRemoval n s = regSimple (removalPos s r) (.removal n) (withdraw (fun k => k == .removal n) s) := by
  unfold moveRemoval
  rw [hr]
  dsimp only
  rw [if_pos (by simpa using h)]

/-- From s to t strip record r of number n leaves the table at its removal position (R17). -/
structure RemovalLeaves (n : Nat) (r : Strip) (s t : State) : Prop where
  gone : findStrip t n = none
  others : ∀ m, m ≠ n → findStrip t m = findStrip s m
  events : t.motion.events = s.motion.events.filter (fun e => !EventKind.ofStrip n e.what)
  travel : t.motion.travel = s.motion.travel
  mark : s.motion.mark = s.motion.travel → t.motion.mark = s.motion.mark
  trackFull : t.line.holds.trackFull = false
  saw : t.saw = s.saw
  cuttings : t.cuttings = s.cuttings
  planner : t.planner = s.planner
  lastReturn : t.chain.lastReturn = returnOf s r

/-- The removal of a strip with no cutting on the belt (R17): it leaves the table with its events, and goes to return if UNPLANNED or LOST. -/
theorem takeRemoval_leaves {n : Nat} {s : State} {r : Strip} (p : Word) (hr : findStrip s n = some r) (hb : beltCuttings n s = []) :
    RemovalLeaves n r s (takeSimple p (.removal n) s) := by
  have hf : LineFollows (unbindStrip r.bank (stripGone n r s)) (takeSimple p (.removal n) s) := by
    have h : takeRemoval n s = unbindStrip r.bank (stripGone n r s) := (if_pos hb).trans (dropStrip_eq hr)
    rw [← h]
    exact event_follows (takeRemoval n) s
  have hu := (unbindStrip_binsOnly r.bank (stripGone n r s)).eq
  have hm : (unbindStrip r.bank (stripGone n r s)).motion = (stripGone n r s).motion := by rw [hu]
  have hfind : ∀ m, findStrip (takeSimple p (.removal n) s) m = if m = n then none else findStrip s m := by
    intro m
    rw [hf.findStrip, findStrip_filter (s := s) (p := fun x => x != n) (by rw [hu]; rfl)]
    by_cases h : m = n <;> simp [h]
  refine ⟨by rw [hfind, if_pos rfl], fun m h => by rw [hfind, if_neg h], ?_, ?_, fun h => ?_, ?_, ?_, ?_, ?_, ?_⟩
  · rw [hf.events, hm]
    rfl
  · rw [hf.travel, hm]
    rfl
  · exact (hf.mark (by rw [hm]; exact h)).trans (by rw [hm]; rfl)
  · rw [hf.trackFull, hu]
    rfl
  · rw [hf.saw, hu]
    rfl
  · rw [hf.cuttings, hu]
    rfl
  · rw [hf.planner, hu]
    rfl
  · rw [hf.chain, hu]
    rfl

/-- The removal of a strip with cuttings on the belt (R17): it stays for them. -/
theorem takeRemoval_waits {n : Nat} {s : State} (p : Word) (hb : beltCuttings n s ≠ []) :
    takeSimple p (.removal n) s = mapStrip n (fun r => { r with removalTaken := true }) s := by
  have h : takeRemoval n s = mapStrip n (fun r => { r with removalTaken := true }) s := if_neg hb
  have hq := event_of_quiet (f := takeRemoval n) (s := s) (by rw [h]; rfl) (by rw [h]; simp) (by rw [h]; exact Nat.le_refl _) (by rw [h]; rfl)
  exact hq.trans h

/-- The state of an UNPLANNED strip's match, with every removal event of it withdrawn to be moved (R20). -/
def matchedUnplanned (n : Nat) (shift : Int) (s : State) : State :=
  withdraw (fun k => k == .removal n) (withdraw (fun k => k == .seEnd n) (mapStrip n (Strip.matchedBy shift) s))

theorem findStrip_matched {n : Nat} {s : State} {r : Strip} (h : findStrip s n = some r) (shift : Int) :
    findStrip (matchedUnplanned n shift s) n = some (r.matchedBy shift) := by
  refine (findStrip_mapStrip n n (f := Strip.matchedBy shift) s fun _ => rfl).trans ?_
  rw [if_pos rfl, h]
  rfl

/-- A registered removal position moves by the shift of the match (R20). -/
theorem moveRemoval_matched {n : Nat} {s : State} {r : Strip} {tr : Word} (h : findStrip s n = some r) (htr : r.trail = some tr)
    (hreg : ∃ e ∈ s.motion.events, e.what = .removal n) (shift : Int) :
    moveRemoval n (withdraw (fun k => k == .seEnd n) (mapStrip n (Strip.matchedBy shift) s)) =
      regSimple (moveBy (plusTicks tr (s.config.motion.offSE + s.config.motion.dXE)) shift) (.removal n) (matchedUnplanned n shift s) := by
  have hfind : findStrip (withdraw (fun k => k == .seEnd n) (mapStrip n (Strip.matchedBy shift) s)) n = some (r.matchedBy shift) :=
    findStrip_matched h shift
  rw [moveRemoval_of_some hfind]
  · have hp : removalPos (withdraw (fun k => k == .seEnd n) (mapStrip n (Strip.matchedBy shift) s)) (r.matchedBy shift) =
        moveBy (plusTicks tr (s.config.motion.offSE + s.config.motion.dXE)) shift := by
      unfold removalPos
      rw [show (r.matchedBy shift).trail = some tr from htr]
      rfl
    rw [hp]
    rfl
  · obtain ⟨e, he, hw⟩ := hreg
    exact ⟨e, List.mem_filter.mpr ⟨he, by rw [hw]; rfl⟩, hw⟩

end Sys2Proof.Machine

open Sys2Proof Sys2Proof.Machine

/-- Settles O15, by the line state and the room in the strip table. -/
theorem ieLeadingEdgeByLineAndTable : Obligations.IeLeadingEdgeByLineAndTable := by
  refine ⟨fun g s k hr hm hl hk hw hs => ?_, fun g s hr hm => ?_, fun g s hr hm hl hf => ?_⟩
  · rw [exec_ieLeadingEdge g hr, hm]
    simp only [Bool.not_true, Bool.false_eq_true, if_false, if_pos hl]
    unfold enterStrip
    rw [hk]
    have hreg := registerStrip_ahead g (r := newStrip s.belt.nextNumber k s.motion.travel)
      (s := createStrip (newStrip s.belt.nextNumber k s.motion.travel) s) hw (by rw [passDue, Nat.zero_mul, Nat.add_zero]; exact hs)
    refine congrArg _ (Eq.trans hreg ?_)
    simp [addEvent, createStrip, mapBank, newStrip, nextStripNumber, windowStart, predictedLead, passDue, StripFlags.clear, Config.lastStripNumber]
    rfl
  · rw [exec_ieLeadingEdge g hr, hm]
    rfl
  · rw [exec_ieLeadingEdge g hr, hm]
    simp only [Bool.not_true, Bool.false_eq_true, if_false, if_neg (Nat.not_lt.mpr hl)]
    rw [trackFull_eq hf]

/-- Settles O18, by the open windows; a removal position registered for the one UNPLANNED strip moves by the shift. -/
theorem seEdgesWithoutACut : Obligations.SeEdgesWithoutACut := by
  refine ⟨fun s => ?_, fun s hr hw => ?_, fun s r shift hr hw hs hshift => ?_⟩
  · show whenRunning (fun s => s) s = .next s
    rw [whenRunning_eq, ite_self]
  · rw [exec_seLeadingEdge hr]
    unfold takeSeEdge
    rw [hw]
  · subst hshift
    have hexec : exec .seLeadingEdge s = .next (moveRemoval r.number (event (matchStrip r s.motion.travel) s)) := by
      rw [exec_seLeadingEdge hr]
      unfold takeSeEdge takeMatch
      rw [hw]
      dsimp only
      rw [if_neg (by rw [hs]; nofun)]
    rw [hexec, event_matchStrip_unplanned hs]
    refine ⟨fun hn => ?_, fun tr q hfind htr hq hreg => ?_⟩
    · rw [moveRemoval_of_none]
      · rfl
      · exact fun e he => hn e (List.mem_filter.mp he).1
    · have hmove := moveRemoval_matched hfind htr hreg (ticksFrom (predictedLead s r) s.motion.travel)
      have hq : q = moveBy (plusTicks tr (s.config.motion.offSE + s.config.motion.dXE)) (ticksFrom (predictedLead s r) s.motion.travel) := hq
      rw [← hq] at hmove
      rw [hmove]
      refine ⟨fun ha => ?_, fun ha hb => ?_, fun ha hb => ?_⟩
      · rw [regSimple_ahead (by exact ha)]
        simp only [addEvent, matchedUnplanned, withdraw, mapStrip, List.filter_filter, Bool.and_comm]
        rfl
      · rw [regSimple_reached (by exact ha)]
        have hleft := takeRemoval_leaves q (r := r.matchedBy (ticksFrom (predictedLead s r) s.motion.travel))
          (findStrip_matched hfind _) (by exact hb)
        refine ⟨_, rfl, hleft.gone, fun m hm => ?_, ?_, hleft.trackFull, hleft.cuttings, hleft.travel, fun why hwhy => ?_⟩
        · rw [hleft.others m hm]
          exact (findStrip_mapStrip m r.number (f := Strip.matchedBy _) s fun _ => rfl).trans (if_neg hm)
        · rw [hleft.events]
          simp only [matchedUnplanned, withdraw, mapStrip, List.filter_filter]
          refine List.filter_congr fun e _ => ?_
          cases he : e.what <;> simp [EventKind.ofStrip]
        · rw [hleft.lastReturn, returnOf_left (r := r.matchedBy _) (why := why) (.inl hs) hwhy, hq]
          unfold removalPos
          rw [show (r.matchedBy (ticksFrom (predictedLead s r) s.motion.travel)).trail = some tr from htr]
          rfl
      · rw [regSimple_reached (by exact ha), takeRemoval_waits _ (by exact hb)]
        simp only [matchedUnplanned, withdraw, mapStrip, List.filter_filter, List.map_map, Bool.and_comm]
        refine congrArg _ ?_
        congr 2
        refine List.map_congr_left fun x _ => ?_
        by_cases hx : x.number = r.number
        · simp [hx, Strip.matchedBy, predictedLead]
        · simp [hx]

end

