-- ==== Sys2Proof/Proofs/SeMatch.lean ====
section
/-! PROOFS. The SE match of a PLANNED strip (R20, R93, R94, R96): its entries moved, its transfers and its removal registered anew. -/

namespace Sys2Proof.Machine

/-! ### What the steps after a match leave of its strip -/

/-- From s to t the strips of number n keep their state, shift and window, and no fire entry joins the list. -/
structure MatchKept (n : Nat) (s t : State) : Prop where
  strips : ∀ x ∈ t.belt.strips, x.number = n →
    ∃ y ∈ s.belt.strips, y.number = n ∧ x.state = y.state ∧ x.shift = y.shift ∧ x.windowOpen = y.windowOpen
  entries : ∀ e ∈ t.saw.entries, e ∈ s.saw.entries

namespace MatchKept
variable {n : Nat} {a b c s t : State}

theorem of_mem (hs : ∀ x ∈ t.belt.strips, x ∈ s.belt.strips) (he : ∀ e ∈ t.saw.entries, e ∈ s.saw.entries) : MatchKept n s t :=
  ⟨fun x hx hn => ⟨x, hs x hx, hn, rfl, rfl, rfl⟩, he⟩

theorem refl (s : State) : MatchKept n s s := .of_mem (fun _ h => h) fun _ h => h

theorem of_eq (hb : t.belt = s.belt) (hs : t.saw = s.saw) : MatchKept n s t := .of_mem (by simp [hb]) (by simp [hs])

theorem trans (h : MatchKept n a b) (k : MatchKept n b c) : MatchKept n a c := by
  refine ⟨fun x hx hn => ?_, fun e he => h.entries e (k.entries e he)⟩
  obtain ⟨y, hy, hyn, h1, h2, h3⟩ := k.strips x hx hn
  obtain ⟨z, hz, hzn, g1, g2, g3⟩ := h.strips y hy hyn
  exact ⟨z, hz, hzn, h1.trans g1, h2.trans g2, h3.trans g3⟩

end MatchKept

theorem mapStrip_matchKept (n m : Nat) {f : Strip → Strip} (s : State) (hn : ∀ r, (f r).number = r.number) (hs : ∀ r, (f r).state = r.state)
    (hd : ∀ r, (f r).shift = r.shift) (hw : ∀ r, (f r).windowOpen = r.windowOpen) : MatchKept n s (mapStrip m f s) := by
  refine ⟨fun x hx hxn => ?_, fun _ h => h⟩
  obtain ⟨y, hy, rfl⟩ := List.mem_map.mp hx
  refine ⟨y, hy, ?_⟩
  split at hxn
  · rename_i hm
    rw [if_pos hm]
    exact ⟨(hn y).symm.trans hxn, hs y, hd y, hw y⟩
  · rename_i hm
    rw [if_neg hm]
    exact ⟨hxn, rfl, rfl, rfl⟩

theorem LineFollows.matchKept {s t : State} (h : LineFollows s t) (n : Nat) : MatchKept n s t := .of_eq h.belt h.saw

theorem Frees.matchKept {ids : List CuttingId} {s t : State} (h : Frees ids s t) (n : Nat) : MatchKept n s t := by
  obtain ⟨gone, h⟩ := h
  refine .of_mem (fun x hx => ?_) (by simp [h.saw])
  rw [h.strips] at hx
  exact (List.mem_filter.mp hx).1

theorem dropStrip_matchKept (n m : Nat) (s : State) : MatchKept n s (dropStrip m s) := by
  cases h : findStrip s m with
  | none =>
    have he : dropStrip m s = s := by
      unfold dropStrip
      rw [h]
    rw [he]
    exact .refl s
  | some r =>
    rw [dropStrip_eq h]
    refine .of_mem (fun x hx => ?_) fun e he => ?_
    · rw [(unbindStrip_binsOnly r.bank (stripGone m r s)).eq] at hx
      exact (List.mem_filter.mp hx).1
    · rw [(unbindStrip_binsOnly r.bank (stripGone m r s)).eq] at he
      exact he

theorem takeFire_matchKept (n m l : Nat) (s : State) : MatchKept n s (takeFire m l s) := by
  cases h : findEntry s m l with
  | none =>
    have he : takeFire m l s = s := by
      unfold takeFire
      rw [h]
    rw [he]
    exact .refl s
  | some e =>
    rw [takeFire_eq h]
    refine MatchKept.trans (b := firedEntry m l e s) ?_ (.of_eq rfl rfl)
    refine MatchKept.trans (b := { s with saw := { entries := s.saw.entries.erase e, lastFire := some e.tick, high := true } }) ?_
      (mapStrip_matchKept n m _ (fun _ => rfl) (fun _ => rfl) (fun _ => rfl) fun _ => rfl)
    exact .of_mem (fun _ h => h) fun _ h => List.mem_of_mem_erase h

theorem leaveAfterTransfer_matchKept (n m : Nat) (s : State) : MatchKept n s (leaveAfterTransfer m s) := by
  unfold leaveAfterTransfer
  split
  · exact dropStrip_matchKept n m s
  · exact .refl s

theorem takeTransfer_matchKept (n : Nat) (id : CuttingId) (p : Word) (s : State) : MatchKept n s (takeTransfer id p s) := by
  unfold takeTransfer
  split
  · exact .refl s
  · rename_i c _
    split
    · unfold deckArrive
      refine MatchKept.trans (b := leaveAfterTransfer id.strip
        { mapCutting id (fun c => { c with state := .onDeck }) s with
          chain := { s.chain with transferHigh := true, deck := s.chain.deck ++ [id] } }) ?_ ?_
      · refine MatchKept.trans (b := { mapCutting id (fun c => { c with state := .onDeck }) s with
          chain := { s.chain with transferHigh := true, deck := s.chain.deck ++ [id] } }) (.of_eq rfl rfl)
          (leaveAfterTransfer_matchKept n _ _)
      · unfold deckRises
        split
        · exact .of_eq rfl rfl
        · exact .refl _
    · unfold deckRefuse
      have h0 : MatchKept n s (returnCutting c .deckFull none (.tick p) s) := .of_eq rfl rfl
      exact (h0.trans ((freeCuttings_frees _ _).matchKept n)).trans (leaveAfterTransfer_matchKept n _ _)

theorem takeRemoval_matchKept (n m : Nat) (s : State) : MatchKept n s (takeRemoval m s) := by
  unfold takeRemoval
  split
  · exact dropStrip_matchKept n m s
  · exact mapStrip_matchKept n m s (fun _ => rfl) (fun _ => rfl) (fun _ => rfl) fun _ => rfl

theorem event_matchKept {n : Nat} {f : State → State} {s : State} (h : MatchKept n s (f s)) : MatchKept n s (event f s) :=
  h.trans ((event_follows f s).matchKept n)

theorem foldl_matchKept {α : Type} {n : Nat} {f : State → α → State} (l : List α) (h : ∀ s x, MatchKept n s (f s x)) (s : State) :
    MatchKept n s (l.foldl f s) := by
  induction l generalizing s with
  | nil => exact .refl s
  | cons x l ih => exact (h s x).trans (ih _)

theorem regSimple_matchKept {n : Nat} {p : Word} {k : EventKind} {s : State} (h : MatchKept n s (takeSimple p k s)) :
    MatchKept n s (regSimple p k s) := by
  unfold regSimple
  split
  · exact h
  · exact .of_eq rfl rfl

theorem registerFires_matchKept (n m : Nat) (s : State) : MatchKept n s (registerFires m s) :=
  foldl_matchKept _ (fun u e => regSimple_matchKept (takeFire_matchKept n m e.line u)) s

theorem registerTransfers_matchKept (n m : Nat) (s : State) : MatchKept n s (registerTransfers m s) := by
  unfold registerTransfers
  split
  · exact .refl s
  · exact foldl_matchKept _ (fun u x => regSimple_matchKept (event_matchKept (takeTransfer_matchKept n x.1 x.2 u))) s

theorem moveRemoval_matchKept (n m : Nat) (s : State) : MatchKept n s (moveRemoval m s) := by
  unfold moveRemoval
  split
  · exact .refl s
  · split
    · refine MatchKept.trans (b := withdraw (fun k => k == .removal m) s) (.of_eq rfl rfl) ?_
      exact regSimple_matchKept (event_matchKept (takeRemoval_matchKept n m _))
    · exact .refl s

/-! ### The re-latch -/

theorem mem_insertEntry {e x : FireEntry} {l : List FireEntry} : x ∈ insertEntry e l ↔ x = e ∨ x ∈ l := by
  induction l with
  | nil => simp [insertEntry]
  | cons y l ih =>
    unfold insertEntry
    split
    · simp
    · simp only [List.mem_cons, ih]
      tauto

theorem mem_foldl_insertEntry {x : FireEntry} (l acc : List FireEntry) :
    x ∈ l.foldl (fun l e => insertEntry e l) acc ↔ x ∈ l ∨ x ∈ acc := by
  induction l generalizing acc with
  | nil => simp
  | cons y l ih =>
    rw [List.foldl_cons, ih, mem_insertEntry, List.mem_cons]
    tauto

/-- The entries a re-latch keeps: the strip's own, moved, that keep their spacing to those of other strips and to the last fire (R93). -/
theorem mem_foldl_relatch (s : State) (n : Nat) (d : Int) (others l : List FireEntry) (x : Relatch) (e : FireEntry) :
    e ∈ (l.foldl (relatchEntry s n d others) x).kept ↔ e ∈ x.kept ∨ ∃ e0 ∈ l,
      tooClose (drTicks s) s.saw.lastFire others (moveBy e0.tick d) = false ∧ e = { e0 with tick := moveBy e0.tick d } := by
  induction l generalizing x with
  | nil => simp
  | cons y l ih =>
    rw [List.foldl_cons, ih]
    unfold relatchEntry
    dsimp only
    cases ht : tooClose (drTicks s) s.saw.lastFire others (moveBy y.tick d) with
    | true => simp [ht]
    | false => simp [ht, or_assoc]

theorem mem_relatchEntries {s : State} {n : Nat} {d : Int} {e : FireEntry} :
    e ∈ relatchEntries s n (relatch s n d) ↔ e ∈ s.saw.entries ∧ e.strip ≠ n ∨ ∃ e0 ∈ s.saw.entries, e0.strip = n ∧
      tooClose (drTicks s) s.saw.lastFire (s.saw.entries.filter (fun o => o.strip != n)) (moveBy e0.tick d) = false ∧
      e = { e0 with tick := moveBy e0.tick d } := by
  unfold relatchEntries relatch
  rw [mem_foldl_insertEntry, mem_foldl_relatch]
  simp [and_assoc, or_comm]

theorem mapStrip_mapStrip (n : Nat) (f g : Strip → Strip) (s : State) (hg : ∀ r, (g r).number = r.number) :
    mapStrip n f (mapStrip n g s) = mapStrip n (fun r => f (g r)) s := by
  unfold mapStrip
  simp only [List.map_map]
  congr 2
  refine List.map_congr_left fun x _ => ?_
  by_cases hx : x.number = n
  · simp [hx, hg]
  · simp [hx]

/-- A strip record with its plan's lines changed. -/
def Strip.withLines (g : List PlanLine → List PlanLine) (r : Strip) : Strip := { r with lines := g r.lines }

/-- The SPACING faults of the removed entries change the strip's lines and the link (R93). -/
theorem foldl_spacingFault (n : Nat) (l : List (FireEntry × Option Nat)) (s : State) :
    ∃ g k, l.foldl (spacingFault n) s = { mapStrip n (Strip.withLines g) s with link := k } ∧ LinkGrows s.link k := by
  induction l generalizing s with
  | nil =>
    refine ⟨id, s.link, ?_, .refl _⟩
    have h : (fun r : Strip => if r.number = n then Strip.withLines id r else r) = id := by
      funext r
      split <;> rfl
    simp [mapStrip, h]
  | cons x l ih =>
    rw [List.foldl_cons]
    obtain ⟨g, k, he, hg⟩ := ih (spacingFault n s x)
    have hl : LinkOnly (setLine n x.1.line .dropped s) (spacingFault n s x) := logFault_linkOnly _ _ _ _ _ _
    refine ⟨fun q => g (q.modify x.1.line (fun l => { l with status := .dropped })), k, ?_, hl.link.trans hg⟩
    rw [he, hl.eq]
    have hm := mapStrip_mapStrip n (Strip.withLines g) (fun r => { r with lines := r.lines.modify x.1.line (fun l => { l with status := .dropped }) }) s
      (fun _ => rfl)
    exact congrArg (fun u : State => { u with link := k }) hm

/-! ### The match -/

/-- A strip record as it becomes CUTTING at its match (R20). -/
def Strip.cuttingBy (d : Int) (r : Strip) : Strip := { r.matchedBy d with state := .cutting }

/-- The strip matched, its fire entries still where they were (R20). -/
def matchBase (n : Nat) (d : Int) (s : State) : State := withdraw (fun k => k == .seEnd n) (mapStrip n (Strip.cuttingBy d) s)

theorem matchStrip_planned {s : State} {r : Strip} (hr : r.state = .planned) (p : Word) :
    matchStrip r p s = cutUnbounded r.number (relatchSaw r.number (ticksFrom (predictedLead s r) p)
      (matchBase r.number (ticksFrom (predictedLead s r) p) s)) := by
  have hcomm : ∀ (q : EventKind → Bool) (f : Strip → Strip) (u : State),
      mapStrip r.number f (withdraw q u) = withdraw q (mapStrip r.number f u) := fun _ _ _ => rfl
  unfold matchStrip matchBase
  dsimp only
  rw [if_pos hr, hcomm, mapStrip_mapStrip]
  · rfl
  · exact fun _ => rfl

theorem cutUnbounded_eq (n : Nat) (s : State) : ∃ ids : List CuttingId,
    cutUnbounded n s = ids.foldl (fun s id => mapCutting id Cutting.toCut s) s := by
  unfold cutUnbounded
  split
  · exact ⟨[], rfl⟩
  · exact ⟨_, rfl⟩

/-- A cutting with its place on the strip and its bank kept: at most its state has changed. -/
def Cutting.SamePlace (c c0 : Cutting) : Prop :=
  c.id = c0.id ∧ c.spanStart = c0.spanStart ∧ c.nominal = c0.nominal ∧ c.bank = c0.bank

theorem foldl_toCut_samePlace (ids : List CuttingId) (s : State) :
    ∀ c ∈ (ids.foldl (fun s id => mapCutting id Cutting.toCut s) s).cuttings, ∃ c0 ∈ s.cuttings, c.SamePlace c0 := by
  induction ids generalizing s with
  | nil => exact fun c hc => ⟨c, hc, rfl, rfl, rfl, rfl⟩
  | cons id ids ih =>
    intro c hc
    obtain ⟨c1, hc1, h1, h2, h3, h4⟩ := ih _ c hc
    obtain ⟨c0, hc0, rfl⟩ := List.mem_map.mp hc1
    refine ⟨c0, hc0, ?_⟩
    have hsame : (if c0.id = id then c0.toCut else c0).SamePlace c0 := by
      split
      · unfold Cutting.toCut
        split <;> exact ⟨rfl, rfl, rfl, rfl⟩
      · exact ⟨rfl, rfl, rfl, rfl⟩
    obtain ⟨g1, g2, g3, g4⟩ := hsame
    exact ⟨h1.trans g1, h2.trans g2, h3.trans g3, h4.trans g4⟩

/-- What the match of the PLANNED strip n with shift d makes of the state, the registrations apart (R20, R93). -/
structure PlannedMatch (n : Nat) (d : Int) (s t : State) : Prop where
  strips : ∀ x ∈ t.belt.strips, x.number = n → x.state = .cutting ∧ x.shift = some d ∧ x.windowOpen = false
  moved : ∀ e ∈ t.saw.entries, e.strip = n → ∃ e0 ∈ s.saw.entries, e0.strip = n ∧ e0.line = e.line ∧ e.tick = moveBy e0.tick d
  kept : ∀ e ∈ s.saw.entries, e.strip = n →
    tooClose (drTicks s) s.saw.lastFire (s.saw.entries.filter (fun o => o.strip != n)) (moveBy e.tick d) = false →
    { e with tick := moveBy e.tick d } ∈ t.saw.entries
  tracking : TrackingOnly s t
  cuttings : ∀ c ∈ t.cuttings, ∃ c0 ∈ s.cuttings, c.SamePlace c0
  banks : ∀ k : BankId, t.recipe.banks[k].cut = s.recipe.banks[k].cut
  events : ∀ e ∈ t.motion.events, e ∈ s.motion.events
  found : ∀ r, findStrip s n = some r → r.removalTaken = false →
    (∃ x, findStrip t n = some x ∧ x.lead = r.lead ∧ x.trail = r.trail ∧ x.shift = some d ∧ x.removalTaken = false) ∧
      ∀ e ∈ s.motion.events, e.what = .removal n → e ∈ t.motion.events

/-- The match before its cuttings are freed: the strip CUTTING, its lines marked, its entries moved (R20, R93). -/
def matchMoved (n : Nat) (d : Int) (g : List PlanLine → List PlanLine) (k : LinkPort) (s : State) : State :=
  { mapStrip n (fun r => (r.cuttingBy d).withLines g) s with
    motion := { s.motion with events := s.motion.events.filter (fun e => !(e.what == .seEnd n)) }
    saw := { s.saw with entries := relatchEntries (matchBase n d s) n (relatch (matchBase n d s) n d) }
    link := k }

/-- A re-latch is the match moved, then the freeing of what the removed entries took. -/
theorem relatchSaw_moved (n : Nat) (d : Int) (s : State) :
    ∃ g k ids, relatchSaw n d (matchBase n d s) = freeCuttings ids (matchMoved n d g k s) ∧ LinkGrows s.link k := by
  obtain ⟨g, k, hsp, hlink⟩ := foldl_spacingFault n (relatch (matchBase n d s) n d).removed
    (setEntries (relatchEntries (matchBase n d s) n (relatch (matchBase n d s) n d)) (matchBase n d s))
  refine ⟨g, k, idsOf n ((List.range Config.planCuttings).filter
    (fun i => (relatch (matchBase n d s) n d).freed.contains i)), ?_, hlink⟩
  have hm := mapStrip_mapStrip n (Strip.withLines g) (Strip.cuttingBy d) s fun _ => rfl
  unfold relatchSaw
  dsimp only
  rw [hsp]
  refine congrArg (freeCuttings _) ?_
  unfold matchMoved
  generalize relatchEntries (matchBase n d s) n (relatch (matchBase n d s) n d) = l
  exact congrArg (fun u : State => { u with
    motion := { s.motion with events := s.motion.events.filter (fun e => !(e.what == EventKind.seEnd n)) }
    saw := { s.saw with entries := l }
    link := k }) hm

theorem matchMoved_trackingOnly {n : Nat} {d : Int} {g : List PlanLine → List PlanLine} {k : LinkPort} {s : State} (hk : LinkGrows s.link k) :
    TrackingOnly s (matchMoved n d g k s) :=
  ⟨rfl, rfl, id, hk, by simp [matchMoved, mapStrip], Nat.le_refl _, Nat.le_refl _, relatchEntries_length (matchBase n d s) n d⟩

theorem matchStrip_plannedMatch {s : State} {r : Strip} (hr : r.state = .planned) (p : Word) :
    PlannedMatch r.number (ticksFrom (predictedLead s r) p) s (matchStrip r p s) := by
  rw [matchStrip_planned hr]
  generalize ticksFrom (predictedLead s r) p = d
  generalize r.number = n
  obtain ⟨g, k, ids, hlatch, hlink⟩ := relatchSaw_moved n d s
  obtain ⟨cuts, hcut⟩ := cutUnbounded_eq n (relatchSaw n d (matchBase n d s))
  obtain ⟨gone, hfree⟩ := freeCuttings_frees ids (matchMoved n d g k s)
  have hsound := (freeCuttings_sound ids (matchMoved n d g k s)).bins.banks
  have htrack := (matchMoved_trackingOnly (n := n) (d := d) (g := g) hlink).trans hfree.tracking
  have heq := foldl_toCut_eq cuts (freeCuttings ids (matchMoved n d g k s))
  have hsame := foldl_toCut_samePlace cuts (freeCuttings ids (matchMoved n d g k s))
  have hcuts : TrackingOnly (freeCuttings ids (matchMoved n d g k s))
      (cuts.foldl (fun s id => mapCutting id Cutting.toCut s) (freeCuttings ids (matchMoved n d g k s))) :=
    foldl_trackingOnly _ (fun s id => mapCutting_trackingOnly id _ s) cuts _
  rw [hcut, hlatch]
  generalize freeCuttings ids (matchMoved n d g k s) = f at *
  generalize cuts.foldl (fun s id => mapCutting id Cutting.toCut s) f = t at *
  have hentries : t.saw.entries = relatchEntries (matchBase n d s) n (relatch (matchBase n d s) n d) := by
    rw [heq]
    show f.saw.entries = _
    rw [hfree.saw]
    rfl
  have hmem := fun e => mem_relatchEntries (s := matchBase n d s) (n := n) (d := d) (e := e)
  rw [← hentries] at hmem
  refine ⟨fun x hx hn => ?_, fun e he hn => ?_, fun e he hn ht => ?_, htrack.trans hcuts, fun c hc => ?_, fun b => ?_, fun e he => ?_,
    fun x hx htaken => ?_⟩
  · rw [heq] at hx
    have hx : x ∈ f.belt.strips := hx
    rw [hfree.strips] at hx
    obtain ⟨y, _, rfl⟩ := List.mem_map.mp (List.mem_filter.mp hx).1
    split at hn
    · rename_i hy
      rw [if_pos hy]
      exact ⟨rfl, rfl, rfl⟩
    · rename_i hy
      exact absurd hn hy
  · obtain ⟨_, h⟩ | ⟨e0, he0, hn0, _, rfl⟩ := (hmem e).mp he
    · exact absurd hn h
    · exact ⟨e0, he0, hn0, rfl, rfl⟩
  · exact (hmem _).mpr (.inr ⟨e, he, hn, ht, rfl⟩)
  · obtain ⟨c0, hc0, hs⟩ := hsame c hc
    rw [hfree.cuttings] at hc0
    exact ⟨c0, (List.mem_filter.mp hc0).1, hs⟩
  · rw [heq]
    show f.recipe.banks[b].cut = _
    rw [(hsound b).eq]
    rfl
  · rw [heq] at he
    exact (List.mem_filter.mp (hfree.events e he)).1
  · have hu : findStrip (matchMoved n d g k s) n = some ((x.cuttingBy d).withLines g) := by
      refine (findStrip_mapStrip n n (f := fun r => (r.cuttingBy d).withLines g) s fun _ => rfl).trans ?_
      rw [if_pos rfl, hx]
      rfl
    have hgone : n ∉ gone := by
      intro hg
      obtain ⟨_, _, y, hy, hyt⟩ := hfree.left n hg
      obtain rfl := Option.some.inj (hu.symm.trans hy)
      rw [show ((x.cuttingBy d).withLines g).removalTaken = x.removalTaken from rfl, htaken] at hyt
      cases hyt
    constructor
    · refine ⟨(x.cuttingBy d).withLines g, ?_, rfl, rfl, rfl, htaken⟩
      rw [heq]
      show findStrip f n = _
      rw [hfree.findStrip, if_neg hgone, hu]
    · intro e he hw
      rw [heq]
      refine hfree.kept e (List.mem_filter.mpr ⟨he, by rw [hw]; rfl⟩) (fun _ _ => by rw [hw]; nofun) fun m hm => ?_
      rw [hw]
      exact beq_false_of_ne fun h => hgone (h ▸ hm)

/-! ### The registrations -/

/-- An event that leaves a strip in the table completes no DRAIN: the counters and the mark are those of its effects (R7). -/
theorem event_motion_of_strips {f : State → State} {s : State} (h : (f s).belt.strips ≠ []) : (event f s).motion = (f s).motion := by
  have hn := lineNote_linkOnly s (f s)
  have ht : trackingEmpty (lineNote s (f s)) = false := by
    unfold trackingEmpty
    rw [hn.belt]
    simp [h]
  unfold event
  obtain hd | hd := drainAfter_cases s (lineNote s (f s))
  · rw [hd, hn.motion]
  · rw [hd, drainTest_of_tracked ht, hn.motion]

/-- Registrations that all lie ahead of the mark join the registered events (R2). -/
theorem foldl_regSimple_ahead {α : Type} (pos : α → Word) (kind : α → EventKind) (l : List α) (s : State)
    (h : ∀ x ∈ l, isAfter (pos x) s.motion.mark = true) : l.foldl (fun s x => regSimple (pos x) (kind x) s) s =
      { s with motion := { s.motion with events := s.motion.events ++ l.map (fun x => ⟨pos x, kind x⟩) } } := by
  induction l generalizing s with
  | nil => simp
  | cons x l ih =>
    rw [List.foldl_cons, regSimple_ahead (h x (by simp)), ih]
    · simp [addEvent]
    · exact fun y hy => h y (by simp [hy])

theorem transferPos_congr {s t : State} {r x : Strip} {c c0 : Cutting} (hg : t.config = s.config)
    (hb : ∀ k : BankId, t.recipe.banks[k].cut = s.recipe.banks[k].cut) (hl : x.lead = r.lead) (hs : x.shift = r.shift)
    (hc : c.SamePlace c0) : transferPos t x c = transferPos s r c0 := by
  obtain ⟨_, h1, h2, h3⟩ := hc
  have hbank : ∀ k : BankId, k = c0.bank → t.recipe.banks[k].cut = s.recipe.banks[c0.bank].cut := by
    rintro _ rfl
    exact hb _
  unfold transferPos predictedLead spanEnd
  rw [hg, hl, hs, h1, h2, hbank c.bank h3]

/-- The transfer position of a matched strip counts from the edge just seen (R96). -/
theorem transferPos_matched {s : State} {r : Strip} {c : Cutting} {k : CutSection} {p : Word}
    (hs : r.shift = some (ticksFrom (predictedLead s r) p)) (hk : s.recipe.banks[c.bank].cut = some k) :
    transferPos s r c = plusTicks p (s.config.motion.dXE + mmToTicks s.config.motion.k (c.spanStart + c.nominal + k.ae)) := by
  unfold transferPos spanEnd moveBy
  rw [hs, hk]
  unfold ticksFrom plusTicks
  simp only [Option.getD_some, Option.map_some, BitVec.ofInt_toInt]
  bv_omega

/-- What the registrations of a match make of the state u it leaves, all of them ahead of the mark (R20, R93, R96). -/
structure MatchRegistered (n : Nat) (x : Strip) (q : Word) (u t : State) : Prop where
  belt : t.belt = u.belt
  saw : t.saw = u.saw
  cuttings : t.cuttings = u.cuttings
  removal : ∀ e ∈ t.motion.events, e.what = .removal n → e.pos = q
  moved : (∃ e ∈ u.motion.events, e.what = .removal n) → ⟨q, .removal n⟩ ∈ t.motion.events
  fires : ∀ e ∈ u.saw.entries, e.strip = n → ⟨e.tick, .fire n e.line⟩ ∈ t.motion.events
  transfers : ∀ c ∈ u.cuttings, c.id.strip = n → c.state.onBelt = true → ⟨transferPos u x c, .transfer c.id⟩ ∈ t.motion.events

theorem match_registered {n : Nat} {u : State} {x : Strip} {q : Word} (hx : findStrip u n = some x) (hq : removalPos u x = q)
    (hr : (∃ e ∈ u.motion.events, e.what = .removal n) → isAfter q u.motion.mark = true)
    (hf : ∀ e ∈ u.saw.entries, e.strip = n → isAfter e.tick u.motion.mark = true)
    (ht : ∀ c ∈ u.cuttings, c.id.strip = n → isAfter (transferPos u x c) u.motion.mark = true) :
    MatchRegistered n x q u (moveRemoval n (registerTransfers n (registerFires n u))) := by
  have h1 : registerFires n u = { u with motion := { u.motion with
      events := u.motion.events ++ (u.saw.entries.filter (fun e => e.strip == n)).map (fun e => ⟨e.tick, .fire n e.line⟩) } } := by
    refine foldl_regSimple_ahead (fun e : FireEntry => e.tick) (fun e => .fire n e.line) _ u fun e he => ?_
    obtain ⟨hm, hn⟩ := List.mem_filter.mp he
    exact hf e hm (by simpa using hn)
  generalize hv : registerFires n u = v at *
  have hvx : findStrip v n = some x := by
    rw [h1]
    exact hx
  have h2 : registerTransfers n v = { v with motion := { v.motion with
      events := v.motion.events ++
        ((v.cuttings.filter (fun c => c.id.strip == n && c.state.onBelt)).map (fun c => (c.id, transferPos v x c))).map
          (fun y => ⟨y.2, .transfer y.1⟩) } } := by
    unfold registerTransfers
    rw [hvx]
    refine foldl_regSimple_ahead (fun y : CuttingId × Word => y.2) (fun y => .transfer y.1) _ v fun y hy => ?_
    obtain ⟨c, hc, rfl⟩ := List.mem_map.mp hy
    obtain ⟨hm, hn⟩ := List.mem_filter.mp hc
    rw [h1] at hm ⊢
    exact ht c hm (by simpa using (Bool.and_eq_true_iff.mp hn).1)
  generalize registerTransfers n v = w at *
  have hw : w = { u with motion := { u.motion with events := w.motion.events } } := by
    rw [h2, h1]
  have hwe : ∀ e ∈ w.motion.events, e ∈ u.motion.events ∨ e.what ≠ .removal n := by
    intro e he
    rw [h2, h1] at he
    obtain he | he := List.mem_append.mp he
    · obtain he | he := List.mem_append.mp he
      · exact .inl he
      · obtain ⟨_, _, rfl⟩ := List.mem_map.mp he
        exact .inr nofun
    · obtain ⟨_, _, rfl⟩ := List.mem_map.mp he
      exact .inr nofun
  have hwu : ∀ e ∈ u.motion.events, e ∈ w.motion.events := by
    intro e he
    rw [h2, h1]
    exact List.mem_append_left _ (List.mem_append_left _ he)
  have hwf : ∀ e ∈ u.saw.entries, e.strip = n → ⟨e.tick, .fire n e.line⟩ ∈ w.motion.events := by
    intro e he hn
    rw [h2, h1]
    exact List.mem_append_left _ (List.mem_append_right _ (List.mem_map.mpr ⟨e, List.mem_filter.mpr ⟨he, by simpa using hn⟩, rfl⟩))
  have hwt : ∀ c ∈ u.cuttings, c.id.strip = n → c.state.onBelt = true → ⟨transferPos u x c, .transfer c.id⟩ ∈ w.motion.events := by
    intro c hc hn hb
    rw [h2]
    refine List.mem_append_right _ (List.mem_map.mpr ⟨(c.id, transferPos v x c), List.mem_map.mpr ⟨c, ?_, rfl⟩, ?_⟩)
    · rw [h1]
      exact List.mem_filter.mpr ⟨hc, by simp [hn, hb]⟩
    · rw [h1]
      rfl
  have hwx : findStrip w n = some x := by
    rw [hw]
    exact hx
  have hwq : removalPos w x = q := by
    rw [hw]
    exact hq
  clear h1 h2 hv hvx
  by_cases hreg : ∃ e ∈ w.motion.events, e.what = .removal n
  · have hregu : ∃ e ∈ u.motion.events, e.what = .removal n := by
      obtain ⟨e, he, hk⟩ := hreg
      exact ⟨e, (hwe e he).resolve_right fun h => h hk, hk⟩
    have hahead : isAfter q (withdraw (fun k => k == .removal n) w).motion.mark = true := by
      rw [hw]
      exact hr hregu
    rw [moveRemoval_of_some hwx hreg, hwq, regSimple_ahead hahead]
    have hkeep : ∀ e ∈ w.motion.events, e.what ≠ .removal n →
        e ∈ (addEvent q (.removal n) (withdraw (fun k => k == .removal n) w)).motion.events := fun e he hk =>
      List.mem_append_left _ (List.mem_filter.mpr ⟨he, by simpa using hk⟩)
    refine ⟨by rw [hw]; rfl, by rw [hw]; rfl, by rw [hw]; rfl, fun e he hk => ?_, fun _ => ?_, fun e he hn => ?_, fun c hc hn hb => ?_⟩
    · obtain he | he := List.mem_append.mp he
      · exact absurd hk (by simpa using (List.mem_filter.mp he).2)
      · rw [List.mem_singleton.mp he]
    · exact List.mem_append_right _ (by simp)
    · exact hkeep _ (hwf e he hn) nofun
    · exact hkeep _ (hwt c hc hn hb) nofun
  · rw [moveRemoval_of_none (by simpa using hreg)]
    refine ⟨by rw [hw], by rw [hw], by rw [hw], fun e he hk => absurd ⟨e, he, hk⟩ hreg, fun h => ?_, hwf, hwt⟩
    obtain ⟨e, he, hk⟩ := h
    exact absurd ⟨e, hwu e he, hk⟩ hreg

end Sys2Proof.Machine

open Sys2Proof Sys2Proof.Machine

/-- Settles O19: the match moves the entries, and with everything ahead of the mark its registrations are added. -/
theorem seEdgeMatchesAPlannedStrip : Obligations.SeEdgeMatchesAPlannedStrip := by
  intro s r d hr hw hs hd
  subst hd
  have hexec : exec .seLeadingEdge s = .next (moveRemoval r.number (registerTransfers r.number (registerFires r.number
      (event (matchStrip r s.motion.travel) s)))) := by
    rw [exec_seLeadingEdge hr]
    unfold takeSeEdge takeMatch
    rw [hw]
    dsimp only
    rw [if_pos hs]
  have hm := matchStrip_plannedMatch (s := s) hs s.motion.travel
  have he := event_follows (matchStrip r s.motion.travel) s
  have hkept := (he.matchKept r.number).trans (((registerFires_matchKept r.number r.number _).trans
    (registerTransfers_matchKept r.number r.number _)).trans (moveRemoval_matchKept r.number r.number _))
  refine ⟨_, hexec, fun x hx => ?_, fun e hmem hn => hm.moved e (hkept.entries e hmem) hn, ?_⟩
  · obtain ⟨y, hy, hyn, h1, h2, h3⟩ := hkept.strips x (findStrip_mem hx) (findStrip_number hx)
    obtain ⟨g1, g2, g3⟩ := hm.strips y hy hyn
    exact ⟨h1.trans g1, h2.trans g2, h3.trans g3⟩
  · intro q hfind htaken hq hahead hfires htransfers
    obtain ⟨⟨x, hx, hlead, htrail, hshift, _⟩, hremoval⟩ := hm.found r hfind htaken
    have hmotion := event_motion_of_strips (f := matchStrip r s.motion.travel) (s := s)
      (List.ne_nil_of_mem (findStrip_mem hx))
    have hmark : (event (matchStrip r s.motion.travel) s).motion.mark = s.motion.mark := by
      rw [hmotion, hm.tracking.eq]
    have hconfig : (event (matchStrip r s.motion.travel) s).config = s.config := by
      rw [he.config, hm.tracking.eq]
    have hbanks : ∀ k : BankId, (event (matchStrip r s.motion.travel) s).recipe.banks[k].cut = s.recipe.banks[k].cut := by
      intro k
      rw [he.recipe]
      exact hm.banks k
    have hposq : removalPos (event (matchStrip r s.motion.travel) s) x = q := by
      unfold removalPos
      rw [hconfig, htrail, hlead, hshift, hq]
      rfl
    have hpos : ∀ c c0, Cutting.SamePlace c c0 → transferPos (event (matchStrip r s.motion.travel) s) x c =
        transferPos s { r with shift := some (ticksFrom (predictedLead s r) s.motion.travel) } c0 :=
      fun c c0 hc => transferPos_congr hconfig hbanks hlead hshift hc
    have hreg := match_registered (u := event (matchStrip r s.motion.travel) s) (n := r.number) (x := x) (q := q)
      ((he.findStrip _).trans hx) hposq ?_ ?_ ?_
    rotate_left
    · rintro ⟨e, hmem, hk⟩
      rw [hmark]
      rw [he.events] at hmem
      exact hahead ⟨e, hm.events e hmem, hk⟩
    · intro e hmem hn
      rw [hmark]
      rw [he.saw] at hmem
      obtain ⟨e0, h0, hn0, _, ht⟩ := hm.moved e hmem hn
      rw [ht]
      exact hfires e0 h0 hn0
    · intro c hc hn
      rw [hmark]
      rw [he.cuttings] at hc
      obtain ⟨c0, hc0, hsame⟩ := hm.cuttings c hc
      rw [hpos c c0 hsame]
      exact htransfers c0 hc0 (by rw [← hsame.1]; exact hn)
    refine ⟨⟨x, ?_⟩, hreg.removal, fun hex => hreg.moved ?_, fun e hmem hn htoo => ?_, fun c k hc hn hb hk => ?_⟩
    · rw [← (he.findStrip r.number).trans hx]
      unfold findStrip
      rw [hreg.belt]
    · obtain ⟨e, hmem, hk⟩ := hex
      refine ⟨e, ?_, hk⟩
      rw [he.events]
      exact hremoval e hmem hk
    · have hin := hm.kept e hmem hn htoo
      refine ⟨by rw [hreg.saw, he.saw]; exact hin, ?_⟩
      exact hreg.fires { e with tick := _ } (by rw [he.saw]; exact hin) hn
    · rw [hreg.cuttings] at hc
      have htr := hreg.transfers c hc hn hb
      rw [hpos c c ⟨rfl, rfl, rfl, rfl⟩, transferPos_matched rfl hk] at htr
      exact htr

end

