-- ==== Sys2Proof/Proofs/Scanning.lean ====
section
/-! PROOFS. A scan in progress (R31 to R44): what the window comparators, the gate and the closing of runs make of the strip, its slots and its runs. -/

namespace Sys2Proof.Machine

/-! ### Strips and zones -/

/-- From r to u a strip record changes in its zones and flags alone, as its scan goes on. -/
def Strip.ScanKept (r u : Strip) : Prop := u = { r with zones := u.zones, flags := u.flags }

theorem Strip.ScanKept.refl (r : Strip) : r.ScanKept r := rfl

theorem Strip.ScanKept.trans {a b c : Strip} (h : a.ScanKept b) (k : b.ScanKept c) : a.ScanKept c := by
  unfold Strip.ScanKept at *
  rw [k, h]

namespace Strip.ScanKept
variable {r u : Strip} (h : r.ScanKept u)
include h

theorem number : u.number = r.number := by rw [h]
theorem state : u.state = r.state := by rw [h]
theorem store : u.store = r.store := by rw [h]
theorem trail : u.trail = r.trail := by rw [h]
theorem lead : u.lead = r.lead := by rw [h]
theorem bank : u.bank = r.bank := by rw [h]
theorem ticks : u.ticks = r.ticks := by rw [h]; rfl
theorem bodyPasses (pitch : Nat) : u.bodyPasses pitch = r.bodyPasses pitch := by rw [h]; rfl
theorem finalPass (c : ScanConfig) : u.finalPass c = r.finalPass c := by rw [h]; rfl
theorem isBody (pitch j : Nat) : u.isBody pitch j = r.isBody pitch j := by rw [h]; rfl

end Strip.ScanKept

/-- A zone entered changes the zone list and the flag ZONE_SAT alone (R43, R44). -/
theorem enterZone_eq (z : Zone) (r : Strip) : r.enterZone z = { r with
    zones := (r.enterZone z).zones
    flags := { r.flags with zoneSat := (r.enterZone z).flags.zoneSat } } := by
  unfold Strip.enterZone
  split
  · rfl
  · split <;> rfl

theorem enterZone_scanKept (z : Zone) (r : Strip) : r.ScanKept (r.enterZone z) := by
  unfold Strip.ScanKept
  rw [enterZone_eq]

/-! ### The GAUGE runs -/

/-- Channel c's open run, if any. -/
def runAt (runs : Vector (Option Nat) 16) (c : Channel) : Option Nat := runs[c]

theorem runAt_setAt (runs : Vector (Option Nat) 16) (c d : Channel) (v : Option Nat) :
    runAt (setAt runs c v) d = if d = c then v else runAt runs d := by
  split
  · rename_i h
    subst h
    exact setAt_self runs d v
  · rename_i h
    exact setAt_other runs v (Ne.symm h)

/-- One channel at a pass or at the end of the runs: one that fails opens its run or keeps it, one that does not has it closed (R42). -/
def gaugeStep (setup : Vector ChannelSetup 16) (stop : Nat) (fails : Channel → Bool) (x : Scanning) (c : Channel) : Scanning :=
  if fails c then
    match x.scan.gauge[c] with
    | none => { x with scan := { x.scan with gauge := setAt x.scan.gauge c (some stop) } }
    | some _ => x
  else x.closeGauge setup stop c

/-- The zone that channel c's run becomes as it closes (R42). -/
def gaugeZone (setup : Vector ChannelSetup 16) (runs : Vector (Option Nat) 16) (stop : Nat) (c : Channel) : Zone :=
  ⟨.channel c, runs[c].getD 0, stop, if setup[c].action = .cut then 8 else 0⟩

theorem gaugeSeverity_eq (c : ChannelSetup) : gaugeSeverity c = if c.action = .cut then 8 else 0 := by
  unfold gaugeSeverity
  cases c.action <;> rfl

theorem compare_eq (setup : Vector ChannelSetup 16) (samples : List Sample) (i : Nat) :
    Scanning.compare setup samples i = gaugeStep setup i (channelFails setup samples) := rfl

section
variable {setup : Vector ChannelSetup 16} {stop : Nat} {fails : Channel → Bool} {x y z : Scanning} {c : Channel} {l : List Channel}

theorem gaugeStep_opens (hf : fails c = true) (hg : runAt x.scan.gauge c = none) :
    gaugeStep setup stop fails x c = { x with scan := { x.scan with gauge := setAt x.scan.gauge c (some stop) } } := by
  unfold gaugeStep
  unfold runAt at hg
  rw [if_pos hf, hg]

theorem gaugeStep_keeps {a : Nat} (hf : fails c = true) (hg : runAt x.scan.gauge c = some a) : gaugeStep setup stop fails x c = x := by
  unfold gaugeStep
  unfold runAt at hg
  rw [if_pos hf, hg]

theorem gaugeStep_quiet (hf : fails c = false) (hg : runAt x.scan.gauge c = none) : gaugeStep setup stop fails x c = x := by
  unfold gaugeStep Scanning.closeGauge
  unfold runAt at hg
  rw [if_neg (by simp [hf]), hg]

theorem gaugeStep_closes {a : Nat} (hf : fails c = false) (hg : runAt x.scan.gauge c = some a) :
    gaugeStep setup stop fails x c = { x with
      strip := x.strip.enterZone (gaugeZone setup x.scan.gauge stop c)
      scan := { x.scan with gauge := setAt x.scan.gauge c none } } := by
  unfold gaugeStep Scanning.closeGauge gaugeZone
  unfold runAt at hg
  rw [if_neg (by simp [hf]), hg, gaugeSeverity_eq]
  rfl

/-- What the channels of a list make of the runs, one after another in its order: the zones that close enter the strip in that order. -/
structure GaugeWork (setup : Vector ChannelSetup 16) (stop : Nat) (fails : Channel → Bool) (l : List Channel) (x y : Scanning) : Prop where
  slots : y.slots = x.slots
  scan : y.scan = { x.scan with gauge := y.scan.gauge }
  failed : ∀ c ∈ l, fails c = true → runAt y.scan.gauge c = some ((runAt x.scan.gauge c).getD stop)
  passed : ∀ c ∈ l, fails c = false → runAt y.scan.gauge c = none
  others : ∀ c, c ∉ l → runAt y.scan.gauge c = runAt x.scan.gauge c
  strip : y.strip = (l.filter (fun c => (runAt x.scan.gauge c).isSome && !fails c)).foldl
    (fun r c => r.enterZone (gaugeZone setup x.scan.gauge stop c)) x.strip

theorem gaugeStep_work (setup : Vector ChannelSetup 16) (stop : Nat) (fails : Channel → Bool) (x : Scanning) (c : Channel) :
    GaugeWork setup stop fails [c] x (gaugeStep setup stop fails x c) := by
  cases hf : fails c with
  | true =>
    cases hg : runAt x.scan.gauge c with
    | none =>
      rw [gaugeStep_opens hf hg]
      refine ⟨rfl, rfl, ?_, ?_, fun d hd => ?_, ?_⟩
      · simp [runAt_setAt, hg]
      · simp [hf]
      · simp only [runAt_setAt, if_neg (show d ≠ c by simpa using hd)]
      · simp [hf]
    | some a =>
      rw [gaugeStep_keeps hf hg]
      refine ⟨rfl, rfl, ?_, ?_, fun _ _ => rfl, ?_⟩ <;> simp [hf, hg]
  | false =>
    cases hg : runAt x.scan.gauge c with
    | none =>
      rw [gaugeStep_quiet hf hg]
      refine ⟨rfl, rfl, ?_, ?_, fun _ _ => rfl, ?_⟩ <;> simp [hf, hg]
    | some a =>
      rw [gaugeStep_closes hf hg]
      refine ⟨rfl, rfl, ?_, ?_, fun d hd => ?_, ?_⟩
      · simp [hf]
      · simp [runAt_setAt]
      · simp only [runAt_setAt, if_neg (show d ≠ c by simpa using hd)]
      · simp [hf, hg]

theorem GaugeWork.cons (hc : c ∉ l) (h : GaugeWork setup stop fails [c] x y) (k : GaugeWork setup stop fails l y z) :
    GaugeWork setup stop fails (c :: l) x z := by
  have hsame : ∀ d ∈ l, runAt y.scan.gauge d = runAt x.scan.gauge d := fun d hd => h.others d (by
    intro hm
    exact hc (List.mem_singleton.mp hm ▸ hd))
  refine ⟨k.slots.trans h.slots, ?_, fun d hd hf => ?_, fun d hd hf => ?_, fun d hd => ?_, ?_⟩
  · rw [k.scan, h.scan]
  · obtain rfl | hd := List.mem_cons.mp hd
    · rw [k.others d hc]
      exact h.failed d (by simp) hf
    · rw [k.failed d hd hf, hsame d hd]
  · obtain rfl | hd := List.mem_cons.mp hd
    · rw [k.others d hc]
      exact h.passed d (by simp) hf
    · exact k.passed d hd hf
  · rw [k.others d (fun hm => hd (List.mem_cons_of_mem _ hm)), h.others d (fun hm => hd (List.mem_cons.mpr (.inl (List.mem_singleton.mp hm))))]
  · have hfilter : l.filter (fun c => (runAt y.scan.gauge c).isSome && !fails c) = l.filter (fun c => (runAt x.scan.gauge c).isSome && !fails c) :=
      List.filter_congr fun d hd => by rw [hsame d hd]
    have hfold : ∀ (l' : List Channel) (r : Strip), (∀ d ∈ l', d ∈ l) →
        l'.foldl (fun r c => r.enterZone (gaugeZone setup y.scan.gauge stop c)) r =
          l'.foldl (fun r c => r.enterZone (gaugeZone setup x.scan.gauge stop c)) r := by
      intro l' r hl
      refine List.foldl_ext _ _ _ fun r d hd => ?_
      have hrun : y.scan.gauge[d] = x.scan.gauge[d] := hsame d (hl d hd)
      unfold gaugeZone
      rw [hrun]
    rw [k.strip, h.strip, hfilter, hfold _ _ fun d hd => (List.mem_filter.mp hd).1, ← List.foldl_append, ← List.filter_append]
    rfl

theorem foldl_gaugeStep (setup : Vector ChannelSetup 16) (stop : Nat) (fails : Channel → Bool) (l : List Channel) (hl : l.Nodup) (x : Scanning) :
    GaugeWork setup stop fails l x (l.foldl (gaugeStep setup stop fails) x) := by
  induction l generalizing x with
  | nil => exact ⟨rfl, rfl, nofun, nofun, fun _ _ => rfl, rfl⟩
  | cons c l ih =>
    obtain ⟨hc, hl⟩ := List.nodup_cons.mp hl
    exact (gaugeStep_work setup stop fails x c).cons hc (ih hl _)

end

theorem mem_allChannels (c : Channel) : c ∈ allChannels := by
  revert c
  decide

theorem allChannels_ascending : allChannels.Pairwise (fun a b => a < b) := by decide

theorem allChannels_nodup : allChannels.Nodup := by decide

/-- All channels at a pass: each zone that closes enters in ascending channel order (R42; log 18). -/
theorem GaugeWork.runsClosed {setup : Vector ChannelSetup 16} {stop : Nat} {fails : Channel → Bool} {x y : Scanning}
    (h : GaugeWork setup stop fails allChannels x y) {p : Channel → Prop} (hp : ∀ c, fails c = false ↔ p c) :
    RunsClosed setup x.scan.gauge stop p x.strip y.strip := by
  refine ⟨_, allChannels_ascending.filter _, fun c => ?_, h.strip⟩
  rw [List.mem_filter, Bool.and_eq_true, Option.isSome_iff_ne_none, Bool.not_eq_true', hp]
  exact ⟨fun hm => hm.2, fun hm => ⟨mem_allChannels c, hm⟩⟩

theorem foldl_enterZone_scanKept {α : Type} (z : α → Zone) (l : List α) (r : Strip) :
    r.ScanKept (l.foldl (fun r c => r.enterZone (z c)) r) := by
  induction l generalizing r with
  | nil => exact .refl r
  | cons c l ih => exact (enterZone_scanKept (z c) r).trans (ih _)

theorem GaugeWork.scanKept {setup : Vector ChannelSetup 16} {stop : Nat} {fails : Channel → Bool} {l : List Channel} {x y : Scanning}
    (h : GaugeWork setup stop fails l x y) : x.strip.ScanKept y.strip := by
  rw [h.strip]
  exact foldl_enterZone_scanKept _ _ _

/-! ### Channels that fail -/

theorem valueFails_iff (mode : CompMode) (l1 l2 v : Int) : valueFails mode l1 l2 v = true ↔
    mode = .below ∧ v < l1 ∨ mode = .above ∧ l2 < v ∨ mode = .outside ∧ (v < l1 ∨ l2 < v) ∨ mode = .inside ∧ l1 ≤ v ∧ v ≤ l2 := by
  unfold valueFails
  cases mode <;> simp

theorem isProfile_eq_false (r : Role) : r.isProfile = false ↔ r ≠ .tongueT ∧ r ≠ .tongueL ∧ r ≠ .grooveW ∧ r ≠ .grooveD := by
  cases r <;> simp [Role.isProfile]

theorem channelFails_iff (setup : Vector ChannelSetup 16) (samples : List Sample) (c : Channel) :
    channelFails setup samples c = true ↔ ChannelFailsAt setup samples c := by
  unfold channelFails ChannelFailsAt
  rw [Bool.and_eq_true, Bool.not_eq_true', isProfile_eq_false, List.any_eq_true]
  refine and_congr_right fun _ => exists_congr fun m => ?_
  rw [Bool.and_eq_true, Bool.and_eq_true, Bool.not_eq_true', beq_iff_eq, valueFails_iff, and_assoc]

theorem channelFails_eq_false (setup : Vector ChannelSetup 16) (samples : List Sample) (c : Channel) :
    channelFails setup samples c = false ↔ ¬ChannelFailsAt setup samples c := by
  rw [← channelFails_iff, Bool.not_eq_true]

theorem GaugeWork.runsAt {setup : Vector ChannelSetup 16} {stop : Nat} {samples : List Sample} {x y : Scanning}
    (h : GaugeWork setup stop (channelFails setup samples) allChannels x y) :
    GaugeRunsAt setup samples stop x.scan.gauge y.scan.gauge := fun c =>
  ⟨fun hf => h.failed c (mem_allChannels c) ((channelFails_iff setup samples c).mpr hf),
    fun hf => h.passed c (mem_allChannels c) ((channelFails_eq_false setup samples c).mpr hf)⟩

/-! ### Slots filled -/

/-- A slot filled: the comparators test its samples (R32, R42). -/
theorem file_work (setup : Vector ChannelSetup 16) (slot : PassSlot) (x : Scanning) :
    GaugeWork setup x.slots.length (channelFails setup slot.samples) allChannels { x with slots := x.slots ++ [slot] } (x.file setup slot) :=
  foldl_gaugeStep setup _ _ allChannels allChannels_nodup _

theorem file_slots (setup : Vector ChannelSetup 16) (slot : PassSlot) (x : Scanning) : (x.file setup slot).slots = x.slots ++ [slot] :=
  (file_work setup slot x).slots

/-- The runs stand as a pass with some samples leaves them: a channel has one exactly if it fails there. -/
def RunsStand (setup : Vector ChannelSetup 16) (samples : List Sample) (runs : Vector (Option Nat) 16) : Prop :=
  ∀ c, (runAt runs c).isSome = channelFails setup samples c

theorem GaugeWork.runsStand {setup : Vector ChannelSetup 16} {stop : Nat} {samples : List Sample} {x y : Scanning}
    (h : GaugeWork setup stop (channelFails setup samples) allChannels x y) : RunsStand setup samples y.scan.gauge := by
  intro c
  cases hf : channelFails setup samples c with
  | true => rw [h.failed c (mem_allChannels c) hf]; rfl
  | false => rw [h.passed c (mem_allChannels c) hf]; rfl

/-- A pass with the samples of the one before changes neither runs nor strip. -/
theorem foldl_gaugeStep_stand {setup : Vector ChannelSetup 16} {samples : List Sample} {x : Scanning} (h : RunsStand setup samples x.scan.gauge)
    (stop : Nat) (l : List Channel) : l.foldl (gaugeStep setup stop (channelFails setup samples)) x = x := by
  induction l with
  | nil => rfl
  | cons c l ih =>
    have hstep : gaugeStep setup stop (channelFails setup samples) x c = x := by
      have hc := h c
      cases hg : runAt x.scan.gauge c with
      | none => exact gaugeStep_quiet (by rw [← hc, hg]; rfl) hg
      | some a => exact gaugeStep_keeps (by rw [← hc, hg]; rfl) hg
    rw [List.foldl_cons, hstep, ih]

theorem file_stand {setup : Vector ChannelSetup 16} {slot : PassSlot} {x : Scanning} (h : RunsStand setup slot.samples x.scan.gauge) :
    x.file setup slot = { x with slots := x.slots ++ [slot] } :=
  foldl_gaugeStep_stand (x := { x with slots := x.slots ++ [slot] }) h _ _

/-- The held passes filled behind a pass are copies of it and change neither runs nor strip (R33). -/
theorem fillHeld_stand {cfg : Configuration} {x : Scanning} {z : PassSlot} (hz : x.slots.getLast? = some z)
    (h : RunsStand cfg.channels z.samples x.scan.gauge) (n : Nat) :
    x.fillHeld cfg n = { x with slots := x.slots ++ List.replicate n { z with held := true } } := by
  induction n generalizing x z with
  | zero => simp [Scanning.fillHeld]
  | succ n ih =>
    have hs : heldSlot cfg x.slots = { z with held := true } := by
      unfold heldSlot
      rw [hz]
    unfold Scanning.fillHeld
    rw [hs, file_stand (slot := { z with held := true }) h]
    have hrest := ih (x := { x with slots := x.slots ++ [{ z with held := true }] }) (z := { z with held := true }) (by simp) h
    rw [hrest, List.replicate_succ]
    simp

/-- A conversion's samples filed, and the held passes behind them (R32, R33). -/
theorem convert_spec (cfg : Configuration) (samples : List Sample) (x : Scanning) :
    ∃ y k, GaugeWork cfg.channels x.slots.length (channelFails cfg.channels samples) allChannels
        { x with slots := x.slots ++ [⟨samples, false⟩] } y ∧
      x.convert cfg samples = { y with slots := x.slots ++ ⟨samples, false⟩ :: List.replicate k ⟨samples, true⟩ } := by
  have hw := file_work cfg.channels ⟨samples, false⟩ x
  have hslots := file_slots cfg.channels ⟨samples, false⟩ x
  have hheld := fillHeld_stand (cfg := cfg) (z := ⟨samples, false⟩) (by rw [hslots]; simp) hw.runsStand
    ((x.file cfg.channels ⟨samples, false⟩).scan.owed - (x.file cfg.channels ⟨samples, false⟩).slots.length)
  refine ⟨x.file cfg.channels ⟨samples, false⟩,
    (x.file cfg.channels ⟨samples, false⟩).scan.owed - (x.file cfg.channels ⟨samples, false⟩).slots.length, hw, hheld.trans ?_⟩
  rw [hslots]
  simp

/-! ### The gate -/

theorem closeDefect_none {x : Scanning} (h : x.scan.defect = none) (stop : Nat) : x.closeDefect stop = x := by
  unfold Scanning.closeDefect
  rw [h]

theorem closeDefect_some {x : Scanning} {d : DefectRun} (h : x.scan.defect = some d) (stop : Nat) : x.closeDefect stop = { x with
    strip := x.strip.enterZone ⟨.gate, d.start, stop, d.severity⟩
    scan := { x.scan with defect := none } } := by
  unfold Scanning.closeDefect
  rw [h]

/-- The closing of a DEFECT run leaves slots and GAUGE runs alone, and no DEFECT run open (R40). -/
theorem closeDefect_eq (x : Scanning) (stop : Nat) : x.closeDefect stop = { x with
    strip := (x.closeDefect stop).strip
    scan := { x.scan with defect := none } } := by
  cases h : x.scan.defect with
  | none =>
    rw [closeDefect_none h]
    cases x with
    | mk strip slots scan =>
      cases scan
      simp only at h
      rw [h]
  | some d => rw [closeDefect_some h]

theorem closeDefect_scanKept (x : Scanning) (stop : Nat) : x.strip.ScanKept (x.closeDefect stop).strip := by
  cases h : x.scan.defect with
  | none => rw [closeDefect_none h]; exact .refl _
  | some d => rw [closeDefect_some h]; exact enterZone_scanKept _ _

/-- What the gate sample of pass j makes of a scan in progress (R39, R40); pass_tail and pass_body tie it to the model's passes. -/
def Scanning.takeGate (lag j : Nat) (g : GateSample) (x : Scanning) : Scanning :=
  if j < lag then x
  else if Config.storePasses ≤ j - lag then x.closeDefect Config.storePasses
  else if g.active then { x with scan := { x.scan with defect := some (extendDefect (j - lag) g x.scan.defect) } }
  else x.closeDefect (j - lag)

section
variable {lag j : Nat} {g : GateSample} {x : Scanning}

theorem takeGate_early (h : j < lag) : x.takeGate lag j g = x := if_pos h

theorem takeGate_late (h : lag ≤ j) (h2 : 2048 ≤ j - lag) : x.takeGate lag j g = x.closeDefect 2048 := by
  unfold Scanning.takeGate
  rw [if_neg (Nat.not_lt.mpr h), if_pos (show Config.storePasses ≤ j - lag from h2)]
  rfl

theorem takeGate_active (h : lag ≤ j) (h2 : j - lag < 2048) (hg : g.active = true) :
    x.takeGate lag j g = { x with scan := { x.scan with defect := some (extendDefect (j - lag) g x.scan.defect) } } := by
  unfold Scanning.takeGate
  rw [if_neg (Nat.not_lt.mpr h), if_neg (show ¬Config.storePasses ≤ j - lag from Nat.not_le.mpr h2), if_pos hg]

theorem takeGate_clear (h : lag ≤ j) (h2 : j - lag < 2048) (hg : g.active = false) : x.takeGate lag j g = x.closeDefect (j - lag) := by
  unfold Scanning.takeGate
  rw [if_neg (Nat.not_lt.mpr h), if_neg (show ¬Config.storePasses ≤ j - lag from Nat.not_le.mpr h2), if_neg (by simp [hg])]

/-- The gate sample leaves slots and GAUGE runs alone (R39, R40). -/
theorem takeGate_eq (lag j : Nat) (g : GateSample) (x : Scanning) : x.takeGate lag j g = { x with
    strip := (x.takeGate lag j g).strip
    scan := { x.scan with defect := (x.takeGate lag j g).scan.defect } } := by
  unfold Scanning.takeGate
  split
  · rfl
  · split
    · rw [closeDefect_eq]
    · split
      · rfl
      · rw [closeDefect_eq]

theorem takeGate_scanKept (lag j : Nat) (g : GateSample) (x : Scanning) : x.strip.ScanKept (x.takeGate lag j g).strip := by
  unfold Scanning.takeGate
  split
  · exact .refl _
  · split
    · exact closeDefect_scanKept x _
    · split
      · exact .refl _
      · exact closeDefect_scanKept x _

/-- Without a DEFECT run open or the gate active, the gate sample does nothing (R40). -/
theorem takeGate_nothing (h : j < lag ∨ x.scan.defect = none ∧ g.active = false) : x.takeGate lag j g = x := by
  by_cases hl : j < lag
  · exact takeGate_early hl
  · obtain ⟨hd, hg⟩ := h.resolve_left hl
    have hl := Nat.not_lt.mp hl
    by_cases h2 : 2048 ≤ j - lag
    · rw [takeGate_late hl h2, closeDefect_none hd]
    · rw [takeGate_clear hl (Nat.not_le.mp h2) hg, closeDefect_none hd]

end

/-! ### Passes -/

/-- All GAUGE runs closed at an end pass (R42). -/
theorem closeGauges_work (setup : Vector ChannelSetup 16) (stop : Nat) (x : Scanning) :
    GaugeWork setup stop (fun _ => false) allChannels x (x.closeGauges setup stop) :=
  foldl_gaugeStep setup stop (fun _ => false) allChannels allChannels_nodup x

/-- A strip record with its flag SPARSE set (R33). -/
def Strip.sparsely (r : Strip) : Strip := { r with flags := { r.flags with sparse := true } }

/-- A strip record with its flag OVERLENGTH set (R37). -/
def Strip.overlong (r : Strip) : Strip := { r with flags := { r.flags with overlength := true } }

section
variable {cfg : Configuration} {busy : Bool} {j : Nat} {x : Scanning}

theorem body_free (h : j < 2048) (hb : busy = false) : x.body cfg busy j = { x with scan := { x.scan with owed := x.scan.owed + 1 } } := by
  unfold Scanning.body
  rw [if_neg (show ¬Config.storePasses ≤ j from Nat.not_le.mpr h), if_neg (by simp [hb])]

theorem body_held_waits (h : j < 2048) (hb : busy = true) (hs : x.slots.length ≠ j) :
    x.body cfg busy j = { x with strip := x.strip.sparsely, scan := { x.scan with owed := x.scan.owed + 1 } } := by
  unfold Scanning.body Scanning.hold
  rw [if_neg (show ¬Config.storePasses ≤ j from Nat.not_le.mpr h), if_pos hb, if_neg hs]
  rfl

theorem body_held_copied (h : j < 2048) (hb : busy = true) (hs : x.slots.length = j) :
    x.body cfg busy j = Scanning.file cfg.channels (heldSlot cfg x.slots)
      { x with strip := x.strip.sparsely, scan := { x.scan with owed := x.scan.owed + 1 } } := by
  unfold Scanning.body Scanning.hold
  rw [if_neg (show ¬Config.storePasses ≤ j from Nat.not_le.mpr h), if_pos hb, if_pos hs]
  rfl

theorem body_overlength (h : 2048 < j) : x.body cfg busy j = { x with strip := x.strip.overlong } := by
  unfold Scanning.body Scanning.overlength
  rw [if_pos (show Config.storePasses ≤ j from Nat.le_of_lt h), if_neg (show ¬j = Config.storePasses from Nat.ne_of_gt h)]
  rfl

theorem body_last (h : j = 2048) : x.body cfg busy j = Scanning.closeGauges cfg.channels 2048 { x with strip := x.strip.overlong } := by
  unfold Scanning.body Scanning.overlength
  rw [if_pos (show Config.storePasses ≤ j from Nat.le_of_eq h.symm), if_pos (show j = Config.storePasses from h)]
  rfl

end

theorem sparsely_scanKept (r : Strip) : r.ScanKept r.sparsely := rfl

theorem overlong_scanKept (r : Strip) : r.ScanKept r.overlong := rfl

end Sys2Proof.Machine
end

