-- ==== Sys2Proof/Proofs/ScanStates.lean ====
section
/-! PROOFS. Scans in the state (R30 to R34): the scan in progress of a strip and its store, Profile Watch's judgement (R55 to R60), the hand-over to
the planner (R70), and the scan end made of them. -/

namespace Sys2Proof.Machine

/-! ### The scan in progress of a strip -/

theorem findStrip_replace (m n : Nat) {x : Strip} (s : State) (hx : x.number = n) :
    findStrip (mapStrip n (fun _ => x) s) m = if m = n then (findStrip s m).map (fun _ => x) else findStrip s m := by
  unfold findStrip mapStrip
  dsimp only
  rw [List.find?_map]
  have hp : ((fun r : Strip => r.number == m) ∘ fun r => if r.number = n then x else r) = fun r => r.number == m := by
    funext r
    simp only [Function.comp]
    split
    · rename_i h
      rw [hx, h]
    · rfl
  rw [hp]
  cases h : List.find? (fun r : Strip => r.number == m) s.belt.strips with
  | none => simp
  | some r =>
    have hr : r.number = m := by simpa using List.find?_some h
    by_cases hmn : m = n
    · simp [hr, hmn]
    · simp [hr, hmn]

theorem scanningOf_iff {s : State} {n : Nat} {i : StoreId} {x : Scanning} : scanningOf s n = some (i, x) ↔
    findStrip s n = some x.strip ∧ x.strip.state = .scanning ∧ x.strip.store = some i ∧ (s.scan.store i).slots = x.slots ∧
      (s.scan.store i).scan = some x.scan := by
  constructor
  · intro h
    unfold scanningOf at h
    cases hf : findStrip s n with
    | none => rw [hf] at h; simp at h
    | some r =>
      rw [hf] at h
      dsimp only at h
      split at h
      · rename_i k hst hk
        cases hp : (s.scan.store k).scan with
        | none => rw [hp] at h; simp at h
        | some p =>
          rw [hp] at h
          simp only [Option.some.injEq, Prod.mk.injEq] at h
          obtain ⟨rfl, rfl⟩ := h
          exact ⟨rfl, hst, hk, rfl, hp⟩
      · simp at h
  · rintro ⟨hf, hst, hi, hslots, hscan⟩
    unfold scanningOf
    rw [hf]
    dsimp only
    rw [hst, hi]
    dsimp only
    rw [hscan, hslots]

theorem scanningOf_none {s : State} {n : Nat} (h : ∀ r, findStrip s n = some r → r.state ≠ .scanning) : scanningOf s n = none := by
  cases hs : scanningOf s n with
  | none => rfl
  | some q =>
    obtain ⟨i, x⟩ := q
    obtain ⟨hf, hst, _⟩ := scanningOf_iff.mp hs
    exact absurd hst (h _ hf)

/-- The scan of a strip is the same in states with the same strips and stores. -/
theorem scanningOf_congr {s t : State} {n : Nat} (hf : findStrip t n = findStrip s n) (hs : ∀ i, t.scan.store i = s.scan.store i) :
    scanningOf t n = scanningOf s n := by
  unfold scanningOf
  rw [hf]
  simp only [hs]

section
variable {s : State} {n : Nat} {i : StoreId} {x : Scanning}

theorem scanningOf_findStrip (h : scanningOf s n = some (i, x)) : findStrip s n = some x.strip := (scanningOf_iff.mp h).1

theorem scanningOf_number (h : scanningOf s n = some (i, x)) : x.strip.number = n := findStrip_number (scanningOf_findStrip h)

end

/-! ### Work on a scan in progress -/

section
variable (s : State) (i : StoreId) (x : Scanning) (keep : Bool)

/-- Work on a scan changes its strip's record and its store alone. -/
theorem putScanning_eq : putScanning i x keep s = { s with
    belt := (putScanning i x keep s).belt
    scan := { s.scan with storeA := (putScanning i x keep s).scan.storeA, storeB := (putScanning i x keep s).scan.storeB } } := by
  unfold putScanning mapStrip mapStore
  cases i <;> rfl

theorem putScanning_belt : (putScanning i x keep s).belt = (mapStrip x.strip.number (fun _ => x.strip) s).belt := by
  unfold putScanning mapStrip mapStore
  cases i <;> rfl

theorem putScanning_store : (putScanning i x keep s).scan.store i =
    { s.scan.store i with slots := x.slots, scan := if keep then some x.scan else none } := by
  unfold putScanning mapStrip mapStore ScanUnit.store
  cases i <;> rfl

theorem putScanning_otherStore {k : StoreId} (h : k ≠ i) : (putScanning i x keep s).scan.store k = s.scan.store k := by
  unfold putScanning mapStrip mapStore ScanUnit.store
  cases i <;> cases k <;> first | rfl | exact absurd rfl h

theorem putScanning_findStrip (m : Nat) : findStrip (putScanning i x keep s) m =
    if m = x.strip.number then (findStrip s m).map (fun _ => x.strip) else findStrip s m := by
  rw [← findStrip_replace m x.strip.number s rfl]
  unfold findStrip
  rw [putScanning_belt]

end

section
variable {s : State} {n : Nat} {i : StoreId} {x y : Scanning}

theorem putScanning_findStrip_self {keep : Bool} {r : Strip} (h : findStrip s n = some r) (hn : y.strip.number = n) :
    findStrip (putScanning i y keep s) n = some y.strip := by
  rw [putScanning_findStrip, if_pos hn.symm, h]
  rfl

theorem putScanning_findStrip_other {keep : Bool} {m : Nat} (hn : y.strip.number = n) (hm : m ≠ n) :
    findStrip (putScanning i y keep s) m = findStrip s m := by
  rw [putScanning_findStrip, if_neg (by rw [hn]; exact hm)]

/-- Work on a scan in progress, which goes on. -/
theorem scanningOf_putScanning (h : scanningOf s n = some (i, x)) (k : x.strip.ScanKept y.strip) :
    scanningOf (putScanning i y true s) n = some (i, y) := by
  obtain ⟨hf, hst, hi, -, -⟩ := scanningOf_iff.mp h
  refine scanningOf_iff.mpr ⟨putScanning_findStrip_self hf (k.number.trans (scanningOf_number h)), k.state.trans hst, k.store.trans hi, ?_, ?_⟩
  · rw [putScanning_store]
  · rw [putScanning_store]
    rfl

end

/-! ### Profile Watch -/

/-- Profile Watch's work at a scan end: its own counts, the cause PROFILE and the notices; the spindles stand. -/
structure ProfileOnly (s t : State) : Prop where
  eq : t = { s with
    profile := t.profile
    line := { s.line with holds := { s.line.holds with profile := t.line.holds.profile } }
    link := t.link }
  spindles : t.profile.spindles = s.profile.spindles
  link : LinkGrows s.link t.link

theorem ProfileOnly.refl (s : State) : ProfileOnly s s := ⟨rfl, rfl, .refl _⟩

theorem ProfileOnly.trans {a b c : State} (h : ProfileOnly a b) (k : ProfileOnly b c) : ProfileOnly a c :=
  ⟨by rw [k.eq, h.eq], k.spindles.trans h.spindles, h.link.trans k.link⟩

theorem profileOnly_of_watch (s : State) (f : ProfileWatch → ProfileWatch) (h : (f s.profile).spindles = s.profile.spindles) :
    ProfileOnly s (mapProfile f s) := ⟨rfl, h, .refl _⟩

theorem LinkOnly.profileOnly {s t : State} (h : LinkOnly s t) : ProfileOnly s t := by
  refine ⟨?_, by rw [h.eq], h.link⟩
  rw [h.eq]

theorem profileNotice_linkOnly (e : ProfileEvent) (s : State) : LinkOnly s (profileNotice e s) := offer_linkOnly _ s

/-- The stop (R57), when the count has reached it and PROFILE is not yet in the set. -/
theorem profileStop_stops {n stopCount : Nat} {classes : Vector (Option ProfileStatus) 4} {s : State}
    (h : stopCount ≤ s.profile.limitCount) (hp : s.line.holds.profile = false) :
    profileStop n stopCount classes s = lineNote s (profileNotice (.stop n s.profile.limitCount stopCount classes)
      (mapHolds (fun h => { h with profile := true }) s)) := if_pos ⟨h, hp⟩

theorem profileStop_passes {n stopCount : Nat} {classes : Vector (Option ProfileStatus) 4} {s : State}
    (h : ¬stopCount ≤ s.profile.limitCount ∨ s.line.holds.profile = true) : profileStop n stopCount classes s = s := by
  unfold profileStop
  rw [if_neg]
  rintro ⟨h1, h2⟩
  rcases h with h | h
  · exact h h1
  · rw [h] at h2
    exact absurd h2 (by decide)

theorem profileStop_only (n stopCount : Nat) (classes : Vector (Option ProfileStatus) 4) (s : State) :
    ProfileOnly s (profileStop n stopCount classes s) := by
  unfold profileStop
  split
  · have h : ProfileOnly s (mapHolds (fun h => { h with profile := true }) s) := ⟨rfl, rfl, .refl _⟩
    exact (h.trans (profileNotice_linkOnly _ _).profileOnly).trans (lineNote_linkOnly s _).profileOnly
  · exact .refl s

theorem countStatus_only (n : Nat) (p : ProfileSection) (classes : Vector (Option ProfileStatus) 4) (st : ProfileStatus) (s : State) :
    ProfileOnly s (countStatus n p classes st s) := by
  unfold countStatus
  split
  · exact (profileOnly_of_watch s _ rfl).trans (profileStop_only _ _ _ _)
  · exact profileOnly_of_watch s _ rfl

theorem driftAlarm_only (n limit : Nat) (d : Int) (s : State) : ProfileOnly s (driftAlarm n limit d s) := by
  unfold driftAlarm
  split
  · split
    · exact (profileOnly_of_watch s (fun w => { w with armed := false }) rfl).trans (profileNotice_linkOnly _ _).profileOnly
    · exact .refl s
  · split
    · exact profileOnly_of_watch s _ rfl
    · exact .refl s

/-- The alarm moves the arming alone of Profile Watch's record (R60). -/
theorem driftAlarm_profile (n limit : Nat) (d : Int) (s : State) : (driftAlarm n limit d s).profile = { s.profile with
    armed := if s.profile.armed then decide (d.natAbs ≤ limit) else decide (d.natAbs ≤ limit / 2) } := by
  unfold driftAlarm
  cases ha : s.profile.armed with
  | true =>
    rw [if_pos rfl]
    by_cases hd : limit < d.natAbs
    · rw [if_pos hd, if_pos rfl, decide_eq_false (Nat.not_le.mpr hd)]
      rfl
    · rw [if_neg hd, if_pos rfl, decide_eq_true (Nat.not_lt.mp hd), ← ha]
  | false =>
    rw [if_neg Bool.false_ne_true, if_neg Bool.false_ne_true]
    by_cases hd : d.natAbs ≤ limit / 2
    · rw [if_pos hd, decide_eq_true hd]
      rfl
    · rw [if_neg hd, decide_eq_false hd, ← ha]

theorem driftAlarm_holds (n limit : Nat) (d : Int) (s : State) : (driftAlarm n limit d s).line = s.line := by
  unfold driftAlarm
  split
  · split <;> rfl
  · split <;> rfl

theorem enterDrift_only (n v : Nat) (active : ProfileSection) (s : State) : ProfileOnly s (enterDrift n v active s) := by
  unfold enterDrift
  dsimp only
  have h := profileOnly_of_watch s (fun w => { w with ring := pushRing v w.ring }) rfl
  split
  · exact (h.trans (profileOnly_of_watch _ _ rfl)).trans (driftAlarm_only _ _ _ _)
  · exact h

theorem driftStep_only (r : Strip) (slots : List PassSlot) (p : ProfileSection) (s : State) : ProfileOnly s (driftStep r slots p s) := by
  unfold driftStep
  split
  · split
    · exact .refl s
    · exact enterDrift_only _ _ _ _
  · exact .refl s

theorem enterDrift_line (n v : Nat) (active : ProfileSection) (s : State) : (enterDrift n v active s).line = s.line := by
  unfold enterDrift
  dsimp only
  split
  · exact driftAlarm_holds _ _ _ _
  · rfl

theorem enterDrift_limitCount (n v : Nat) (active : ProfileSection) (s : State) :
    (enterDrift n v active s).profile.limitCount = s.profile.limitCount := by
  unfold enterDrift
  dsimp only
  split
  · rw [driftAlarm_profile]
    rfl
  · rfl

/-- The drift step of a strip of another bank, or without a classified tongue sample (R59). -/
theorem driftStep_passes {r : Strip} {slots : List PassSlot} {s : State}
    (h : activeBank s ≠ some r.bank ∨ classifiedValues s.config r slots .tongueT = []) (p : ProfileSection) : driftStep r slots p s = s := by
  unfold driftStep
  rcases h with h | h
  · rw [if_neg h]
  · split
    · rw [h]
    · rfl

theorem driftStep_enters {r : Strip} {slots : List PassSlot} {s : State} {vs : List Int} (h : activeBank s = some r.bank)
    (hv : vs = classifiedValues s.config r slots .tongueT) (hne : vs ≠ []) (p : ProfileSection) :
    driftStep r slots p s = enterDrift r.number (tongueMean vs) p s := by
  unfold driftStep
  rw [if_pos h, ← hv]
  split
  · exact absurd rfl hne
  · rfl

theorem driftStep_line (r : Strip) (slots : List PassSlot) (p : ProfileSection) (s : State) : (driftStep r slots p s).line = s.line := by
  unfold driftStep
  split
  · split
    · rfl
    · exact enterDrift_line _ _ _ _
  · rfl

theorem driftStep_limitCount (r : Strip) (slots : List PassSlot) (p : ProfileSection) (s : State) :
    (driftStep r slots p s).profile.limitCount = s.profile.limitCount := by
  unfold driftStep
  split
  · split
    · rfl
    · exact enterDrift_limitCount _ _ _ _
  · rfl

/-- A strip judged (R55): its record has a profile status of its own, and the rest is Profile Watch's work. -/
structure Judged (n : Nat) (s t : State) : Prop where
  eq : t = { s with
    belt := { strips := t.belt.strips, nextNumber := s.belt.nextNumber }
    profile := t.profile
    line := { s.line with holds := { s.line.holds with profile := t.line.holds.profile } }
    link := t.link }
  spindles : t.profile.spindles = s.profile.spindles
  link : LinkGrows s.link t.link
  strips : ∃ pr : Option ProfileStatus → Option ProfileStatus, t.belt = (mapStrip n (fun r => { r with profile := pr r.profile }) s).belt

theorem ProfileOnly.judged {s t : State} (h : ProfileOnly s t) (n : Nat) : Judged n s t := by
  refine ⟨?_, h.spindles, h.link, id, ?_⟩
  · rw [h.eq]
  · rw [h.eq]
    have hid : (fun x : Strip => if x.number = n then { x with profile := id x.profile } else x) = id := by
      funext x
      split <;> rfl
    unfold mapStrip
    dsimp only
    rw [hid, List.map_id]

/-- The judgement of a strip with a status (R55, R56, R59). -/
def judgedAs (r : Strip) (slots : List PassSlot) (p : ProfileSection) (st : ProfileStatus) (s : State) : State :=
  driftStep r slots p (countStatus r.number p (roleClasses s.config p r slots) st
    (mapStrip r.number (fun x => { x with profile := some st }) s))

theorem judgeStrip_none {n : Nat} {slots : List PassSlot} {s : State} {r : Strip} (h : findStrip s n = some r)
    (hj : s.recipe.banks[r.bank].profile = none ∨
      ∃ p, s.recipe.banks[r.bank].profile = some p ∧ statusOf (roleClasses s.config p r slots) = none) : judgeStrip n slots s = s := by
  unfold judgeStrip
  rw [h]
  dsimp only
  rcases hj with hj | ⟨p, hj, hs⟩
  · rw [hj]
  · rw [hj]
    dsimp only
    rw [hs]

theorem judgeStrip_some {n : Nat} {slots : List PassSlot} {s : State} {r : Strip} {p : ProfileSection} {st : ProfileStatus}
    (h : findStrip s n = some r) (hj : s.recipe.banks[r.bank].profile = some p)
    (hs : statusOf (roleClasses s.config p r slots) = some st) : judgeStrip n slots s = judgedAs r slots p st s := by
  unfold judgeStrip judgedAs
  rw [h]
  dsimp only
  rw [hj]
  dsimp only
  rw [hs, findStrip_number h]

theorem judgedAs_only (r : Strip) (slots : List PassSlot) (p : ProfileSection) (st : ProfileStatus) (s : State) :
    ProfileOnly (mapStrip r.number (fun x => { x with profile := some st }) s) (judgedAs r slots p st s) :=
  (countStatus_only _ _ _ _ _).trans (driftStep_only _ _ _ _)

theorem judgeStrip_judged (n : Nat) (slots : List PassSlot) (s : State) : Judged n s (judgeStrip n slots s) := by
  cases h : findStrip s n with
  | none =>
    have hs : judgeStrip n slots s = s := by
      unfold judgeStrip
      rw [h]
    rw [hs]
    exact (ProfileOnly.refl s).judged n
  | some r =>
    cases hp : s.recipe.banks[r.bank].profile with
    | none =>
      rw [judgeStrip_none h (.inl hp)]
      exact (ProfileOnly.refl s).judged n
    | some p =>
      cases hs : statusOf (roleClasses s.config p r slots) with
      | none =>
        rw [judgeStrip_none h (.inr ⟨p, hp, hs⟩)]
        exact (ProfileOnly.refl s).judged n
      | some st =>
        rw [judgeStrip_some h hp hs]
        have hj := judgedAs_only r slots p st s
        rw [findStrip_number h] at hj
        refine ⟨?_, hj.spindles, hj.link, fun _ => some st, ?_⟩
        · rw [hj.eq]
          rfl
        · rw [hj.eq]

theorem Judged.findStrip_other {n m : Nat} {s t : State} (h : Judged n s t) (hm : m ≠ n) : findStrip t m = findStrip s m := by
  obtain ⟨pr, hb⟩ := h.strips
  have hf : findStrip t m = findStrip (mapStrip n (fun r => { r with profile := pr r.profile }) s) m := by
    unfold findStrip
    rw [hb]
  rw [hf, findStrip_mapStrip m n (f := fun r => { r with profile := pr r.profile }) s fun _ => rfl, if_neg hm]

theorem Judged.findStrip_self {n : Nat} {s t : State} {r : Strip} (h : Judged n s t) (hr : findStrip s n = some r) :
    ∃ pr, findStrip t n = some { r with profile := pr } := by
  obtain ⟨pr, hb⟩ := h.strips
  have hf : findStrip t n = findStrip (mapStrip n (fun r => { r with profile := pr r.profile }) s) n := by
    unfold findStrip
    rw [hb]
  rw [hf, findStrip_mapStrip n n (f := fun r => { r with profile := pr r.profile }) s fun _ => rfl, if_pos rfl, hr]
  exact ⟨_, rfl⟩

/-! ### The hand-over to the planner -/

theorem handToPlanner_idle {n : Nat} {s : State} (h : s.planner.inFlight = none) : handToPlanner n s = beginProcessing n s := by
  unfold handToPlanner
  rw [h]

theorem handToPlanner_busy {n : Nat} {s : State} (h : s.planner.inFlight ≠ none) :
    handToPlanner n s = { s with planner := { s.planner with queue := s.planner.queue ++ [n] } } := by
  unfold handToPlanner
  split
  · rename_i hn
    exact absurd hn h
  · rfl

theorem handToPlanner_planningOnly (n : Nat) (s : State) : PlanningOnly n s (handToPlanner n s) := by
  unfold handToPlanner
  split
  · exact beginProcessing_planningOnly n s
  · exact ⟨rfl, rfl, .refl _, fun _ h _ => h, id, Nat.le_refl _⟩

/-! ### The scan end -/

/-- The state after the strip and store part of a scan end, before Profile Watch and the planner (R34). -/
def scanClosed (n : Nat) (i : StoreId) (x : Scanning) (s : State) : State :=
  putScanning i (x.finish s.config) false (withdraw (fun k => k == .pass n) s)

theorem endScanTest_ended {s : State} {n : Nat} {i : StoreId} {x : Scanning} (h : scanningOf s n = some (i, x))
    (he : x.ended s.config.scan = true) : endScanTest n s = handToPlanner n (judgeStrip n x.slots (scanClosed n i x s)) := by
  unfold endScanTest
  rw [h]
  exact if_pos he

theorem endScanTest_goesOn {s : State} {n : Nat} {i : StoreId} {x : Scanning} (h : scanningOf s n = some (i, x))
    (he : x.ended s.config.scan = false) : endScanTest n s = s := by
  unfold endScanTest
  rw [h]
  exact if_neg (by simp [he])

theorem endScanTest_idle {s : State} {n : Nat} (h : scanningOf s n = none) : endScanTest n s = s := by
  unfold endScanTest
  rw [h]

theorem finish_slots (cfg : Configuration) (x : Scanning) : (x.finish cfg).slots = x.slots := by
  unfold Scanning.finish
  dsimp only
  rw [(closeGauges_work _ _ _).slots, closeDefect_eq]

/-- The strip of a scan that ends, but for its state: its runs closed (R40, R42). -/
theorem finish_strip (cfg : Configuration) (x : Scanning) : ∃ w, x.strip.ScanKept w ∧ (x.finish cfg).strip = { w with state := .waitingPlan } ∧
    RunsClosed cfg.channels x.scan.gauge x.slots.length (fun _ => True) (x.closeDefect (x.scan.next - cfg.scan.lag)).strip w := by
  have hw := closeGauges_work cfg.channels x.slots.length (x.closeDefect (x.scan.next - cfg.scan.lag))
  refine ⟨_, (closeDefect_scanKept x _).trans hw.scanKept, rfl, ?_⟩
  have hr := hw.runsClosed (p := fun _ => True) (fun _ => by simp)
  have hg : (x.closeDefect (x.scan.next - cfg.scan.lag)).scan.gauge = x.scan.gauge := by rw [closeDefect_eq]
  rw [hg] at hr
  exact hr

theorem finish_number (cfg : Configuration) (x : Scanning) : (x.finish cfg).strip.number = x.strip.number := by
  obtain ⟨w, hw, he, -⟩ := finish_strip cfg x
  rw [he]
  exact hw.number

section
variable {s : State} {n : Nat} {i : StoreId} {x : Scanning}

/-- What a scan end leaves of the state (R34): its passes withdrawn, its strip WAITING_PLAN with the samples of its store, and beside that Profile
Watch's and the planner's work alone. -/
structure ScanEnds (n : Nat) (i : StoreId) (x : Scanning) (s t : State) : Prop where
  eq : t = { s with
    belt := { strips := t.belt.strips, nextNumber := s.belt.nextNumber }
    scan := { s.scan with storeA := t.scan.storeA, storeB := t.scan.storeB }
    motion := { s.motion with events := s.motion.events.filter (fun e => !(e.what == .pass n)) }
    profile := t.profile
    line := { s.line with holds := { s.line.holds with profile := t.line.holds.profile, records := t.line.holds.records } }
    planner := t.planner, referral := t.referral, cuttings := t.cuttings, recipe := t.recipe, link := t.link, freeCount := t.freeCount }
  store : t.scan.store i = { s.scan.store i with slots := x.slots, scan := none }
  otherStore : ∀ k, k ≠ i → t.scan.store k = s.scan.store k
  strip : ∃ pr, findStrip t n = some { (x.finish s.config).strip with profile := pr }
  strips : ∀ m, m ≠ n → findStrip t m = findStrip s m
  others : ∀ c ∈ s.cuttings, c.id.strip ≠ n → c ∈ t.cuttings
  idle : s.planner.inFlight = none → t.planner.inFlight = some n ∧ t.planner.queue = s.planner.queue
  busy : s.planner.inFlight ≠ none → t.planner = { s.planner with queue := s.planner.queue ++ [n] } ∧ t.cuttings = s.cuttings ∧
    t.recipe = s.recipe
  spindles : t.profile.spindles = s.profile.spindles
  link : LinkGrows s.link t.link

theorem scanEnds_of_parts {b c t : State} (hf : scanningOf s n = some (i, x)) (hb : b = scanClosed n i x s) (hj : Judged n b c)
    (ht : t = handToPlanner n c) : ScanEnds n i x s t := by
  have hbe : b = { s with
      belt := b.belt
      scan := { s.scan with storeA := b.scan.storeA, storeB := b.scan.storeB }
      motion := { s.motion with events := s.motion.events.filter (fun e => !(e.what == .pass n)) } } := by
    rw [hb]
    unfold scanClosed
    rw [putScanning_eq]
    rfl
  have hbelt : b.belt.nextNumber = s.belt.nextNumber := by
    rw [hb]
    unfold scanClosed
    rw [putScanning_belt]
    rfl
  have hnum : (x.finish s.config).strip.number = n := (finish_number _ _).trans (scanningOf_number hf)
  have hself : findStrip b n = some (x.finish s.config).strip := by
    rw [hb]
    exact putScanning_findStrip_self (s := withdraw (fun k => k == .pass n) s) (scanningOf_findStrip hf) hnum
  have hother : ∀ m, m ≠ n → findStrip b m = findStrip s m := by
    intro m hm
    rw [hb]
    exact putScanning_findStrip_other (s := withdraw (fun k => k == .pass n) s) hnum hm
  have hstore : b.scan.store i = { s.scan.store i with slots := x.slots, scan := none } := by
    rw [hb]
    unfold scanClosed
    rw [putScanning_store, finish_slots]
    rfl
  have hstores : ∀ k, k ≠ i → b.scan.store k = s.scan.store k := by
    intro k hk
    rw [hb]
    exact putScanning_otherStore _ _ _ _ hk
  clear hb
  have hp := handToPlanner_planningOnly n c
  rw [← ht] at hp
  have hfind : ∀ m, findStrip t m = findStrip c m := fun m => by
    unfold findStrip
    rw [hp.eq]
  have hscan : t.scan = b.scan := by
    rw [hp.eq, hj.eq]
  have hplanner : c.planner = s.planner := by rw [hj.eq, hbe]
  have hcut : c.cuttings = s.cuttings := by rw [hj.eq, hbe]
  have hrec : c.recipe = s.recipe := by rw [hj.eq, hbe]
  have hlink : b.link = s.link := by rw [hbe]
  refine ⟨?_, by rw [hscan]; exact hstore, fun k hk => by rw [hscan]; exact hstores k hk, ?_, fun m hm => ?_, fun k hk hn => ?_, fun hi => ?_,
    fun hi => ?_, ?_, ?_⟩
  · rw [hp.eq, hj.eq, hbelt, hbe]
  · obtain ⟨pr, hpr⟩ := hj.findStrip_self hself
    exact ⟨pr, (hfind n).trans hpr⟩
  · rw [hfind, hj.findStrip_other hm, hother m hm]
  · exact hp.others k (hcut ▸ hk) hn
  · have hb := beginProcessing_planner n c
    rw [ht, handToPlanner_idle (by rw [hplanner]; exact hi)]
    rwa [hplanner] at hb
  · rw [ht, handToPlanner_busy (by rw [hplanner]; exact hi)]
    exact ⟨by dsimp only; rw [hplanner], hcut, hrec⟩
  · rw [hp.eq, hj.spindles, hbe]
  · exact hlink ▸ hj.link.trans hp.link

theorem endScanTest_ends (h : scanningOf s n = some (i, x)) (he : x.ended s.config.scan = true) : ScanEnds n i x s (endScanTest n s) :=
  scanEnds_of_parts h rfl (judgeStrip_judged n x.slots _) (endScanTest_ended h he)

end

end Sys2Proof.Machine
end

