-- ==== Sys2Proof/Proofs/Conversions.lean ====
section
/-! PROOFS. A finished conversion: its samples filed, its runs carried on, and the scan end it may bring (R32, R33, R42). -/

namespace Sys2Proof.Machine

/-! ### Conversions -/

theorem passesDone_congr {x y : Scanning} (c : ScanConfig) (hk : x.strip.ScanKept y.strip) (hn : y.scan.next = x.scan.next) :
    y.passesDone c = x.passesDone c := by
  unfold Scanning.passesDone
  rw [hk.trail, hk.finalPass, hn]

theorem ended_eq_false {c : ScanConfig} {x : Scanning} (hc : x.scan.cut = false) (hp : x.passesDone c = false) : x.ended c = false := by
  unfold Scanning.ended
  rw [hc, hp]
  rfl

theorem ended_iff {c : ScanConfig} {x : Scanning} :
    x.ended c = true ↔ (x.scan.cut = true ∨ x.passesDone c = true) ∧ x.scan.owed ≤ x.slots.length := by
  unfold Scanning.ended
  rw [Bool.and_eq_true, Bool.or_eq_true, decide_eq_true_eq]

/-- What a scan end or none makes of a scan in progress: its strip and the rest of the state, by whether it ends (R34). -/
theorem endScanTest_cases {s : State} {n : Nat} {i : StoreId} {x : Scanning} (h : scanningOf s n = some (i, x)) :
    x.ended s.config.scan = false ∧ endScanTest n s = s ∨ x.ended s.config.scan = true ∧ ScanEnds n i x s (endScanTest n s) := by
  cases he : x.ended s.config.scan with
  | false => exact .inl ⟨rfl, endScanTest_goesOn h he⟩
  | true => exact .inr ⟨rfl, endScanTest_ends h he⟩

/-- A conversion's samples filed (R32): the store keeps its slots and has the new one behind them, and the scan goes on as before but for its
GAUGE runs. -/
theorem convert_filed (cfg : Configuration) (samples : List Sample) (x : Scanning) :
    x.strip.ScanKept (x.convert cfg samples).strip ∧ (∃ k, (x.convert cfg samples).slots = x.slots ++ ⟨samples, false⟩ :: List.replicate k ⟨samples, true⟩) ∧
      (x.convert cfg samples).scan = { x.scan with gauge := (x.convert cfg samples).scan.gauge } ∧
      GaugeRunsAt cfg.channels samples x.slots.length x.scan.gauge (x.convert cfg samples).scan.gauge ∧
      RunsClosed cfg.channels x.scan.gauge x.slots.length (fun c => ¬ChannelFailsAt cfg.channels samples c) x.strip (x.convert cfg samples).strip := by
  obtain ⟨y, k, hy, he⟩ := convert_spec cfg samples x
  have hr := hy.runsClosed (p := fun c => ¬ChannelFailsAt cfg.channels samples c) (channelFails_eq_false cfg.channels samples)
  have hs := hy.scan
  have hk := hy.scanKept
  have hg := hy.runsAt
  rw [he]
  exact ⟨hk, ⟨k, rfl⟩, hs, hg, hr⟩

theorem completeConversion_eq {s : State} {c : Conversion} {i : StoreId} {x : Scanning} (v : Vector Int 16)
    (h : scanningOf (setConverter none s) c.strip = some (i, x)) (hl : x.slots.length = c.pass) :
    completeConversion v c s =
      endScanTest c.strip (putScanning i (x.convert s.config (convertList s.config v)) true (setConverter none s)) := by
  unfold completeConversion
  dsimp only
  rw [h]
  exact if_pos hl

/-- What a conversion's completion leaves of the state, its scan ending or not (R32). -/
structure ConversionFiled (c : Conversion) (i : StoreId) (y : Scanning) (s t : State) : Prop where
  converter : t.scan.converter = none
  slots : (t.scan.store i).slots = y.slots
  goesOn : y.ended s.config.scan = false → scanningOf t c.strip = some (i, y)
  travel : t.motion.travel = s.motion.travel
  others : ∀ k ∈ s.cuttings, k.id.strip ≠ c.strip → k ∈ t.cuttings
  busy : s.planner.inFlight ≠ none → t.cuttings = s.cuttings ∧ t.recipe = s.recipe
  rest : t.saw = s.saw ∧ t.chain = s.chain ∧ t.bundles = s.bundles

theorem endScanTest_filed {s u : State} {c : Conversion} {i : StoreId} {y : Scanning} (h : scanningOf u c.strip = some (i, y))
    (hu : u = { setConverter none s with belt := u.belt, scan := u.scan }) (hc : u.scan.converter = none) :
    ConversionFiled c i y s (endScanTest c.strip u) := by
  have hslots : (u.scan.store i).slots = y.slots := (scanningOf_iff.mp h).2.2.2.1
  have hcfg : u.config = s.config := by rw [hu]; rfl
  have hcut : u.cuttings = s.cuttings := by rw [hu]; rfl
  have hrec : u.recipe = s.recipe := by rw [hu]; rfl
  have hpl : u.planner = s.planner := by rw [hu]; rfl
  have htr : u.motion = s.motion := by rw [hu]; rfl
  have hrest : u.saw = s.saw ∧ u.chain = s.chain ∧ u.bundles = s.bundles := by rw [hu]; exact ⟨rfl, rfl, rfl⟩
  obtain ⟨-, ht⟩ | ⟨he, ht⟩ := endScanTest_cases h
  · rw [ht]
    exact ⟨hc, hslots, fun _ => h, by rw [htr], fun k hk _ => hcut ▸ hk, fun _ => ⟨hcut, hrec⟩, hrest⟩
  · generalize endScanTest c.strip u = t at ht
    rw [hcfg] at he
    refine ⟨?_, by rw [ht.store], fun hn => absurd he (by simp [hn]), ?_, fun k hk hn => ht.others k (hcut ▸ hk) hn, fun hi => ?_, ?_⟩
    · rw [ht.eq]
      exact hc
    · rw [ht.eq]
      show u.motion.travel = s.motion.travel
      rw [htr]
    · obtain ⟨-, h1, h2⟩ := ht.busy (by rw [hpl]; exact hi)
      exact ⟨h1.trans hcut, h2.trans hrec⟩
    · rw [ht.eq]
      exact hrest

theorem putScanning_keeps_others (s : State) (i : StoreId) (x : Scanning) :
    putScanning i x true (setConverter none s) = { setConverter none s with
      belt := (putScanning i x true (setConverter none s)).belt, scan := (putScanning i x true (setConverter none s)).scan } := by
  rw [putScanning_eq]

end Sys2Proof.Machine

open Sys2Proof Sys2Proof.Machine

/-- Settles O23: the filing of the samples is a fold of the comparators over the channels, the held passes behind are copies that change neither
runs nor strip, and a scan that ends there keeps its store. -/
theorem conversionFillsTheSlot : Obligations.ConversionFillsTheSlot := by
  refine ⟨fun v s hc => ?_, fun v s c i x samples hr hc hx hl hsam => ?_⟩
  · cases hr : s.inReset with
    | false =>
      rw [exec_conversionComplete v hr, hc]
    | true => exact exec_inReset hr rfl
  · have hexec : exec (.conversionComplete v) s = .next (completeConversion v c s) := by
      rw [exec_conversionComplete v hr, hc]
    have hlist : convertList s.config v = samples := by rw [hsam]; rfl
    obtain ⟨hk, ⟨k, hslots⟩, hscan, hruns, hclosed⟩ := convert_filed s.config samples x
    have hput := scanningOf_putScanning hx hk
    have hdone := passesDone_congr s.config.scan hk (by rw [hscan])
    have hf := endScanTest_filed (s := s) hput (putScanning_keeps_others s i _) (by rw [putScanning_eq]; rfl)
    rw [completeConversion_eq v hx hl, hlist] at hexec
    generalize x.convert s.config samples = y at *
    rw [hl] at hruns hclosed
    refine ⟨_, hexec, hf.converter, ?_, fun hcut hp => ?_, ?_, hf.travel, hf.others, hf.busy, hf.rest⟩
    · rw [hf.slots, hslots, ← hl]
      simp
    · refine ⟨y, hf.goesOn (ended_eq_false ?_ (hdone.trans hp)), hscan, hruns, hclosed⟩
      rw [hscan]
      exact hcut
    · rw [hf.slots, hslots, ← hl]
      simp
end

