-- ==== Sys2Proof/Proofs/TrailingEdge.lean ====
section
/-! PROOFS. The trailing edge at IE: the strip measured, the spindles charged, the removal registered, and the scan end it may bring (R16, R34, R63
to R65). -/

namespace Sys2Proof.Machine

/-! ### Tool life -/

/-- From l to l' the transmitter is offered PROFILE notices alone (R67). -/
def ProfileNotices (l l' : LinkPort) : Prop :=
  ∃ more : List TxFrame, l' = { l with tx := l.tx ++ more, dropped := l'.dropped } ∧ ∀ f ∈ more, ∃ n k, f = .notice (.profile n k)

theorem ProfileNotices.refl (l : LinkPort) : ProfileNotices l l := ⟨[], by rw [List.append_nil], List.forall_mem_nil _⟩

theorem ProfileNotices.trans {a b c : LinkPort} (h : ProfileNotices a b) (k : ProfileNotices b c) : ProfileNotices a c := by
  obtain ⟨m1, e1, n1⟩ := h
  obtain ⟨m2, e2, n2⟩ := k
  refine ⟨m1 ++ m2, ?_, fun f hf => (List.mem_append.mp hf).elim (n1 f) (n2 f)⟩
  rw [e2, e1, List.append_assoc]

theorem profileNotices_offer (e : ProfileEvent) (k : Word) (l : LinkPort) : ProfileNotices l (l.offer (.profile e k)) := by
  unfold LinkPort.offer
  split
  · split
    · exact ⟨[.notice (.profile e k)], rfl, fun f hf => ⟨e, k, List.mem_singleton.mp hf⟩⟩
    · exact ⟨[], by rw [List.append_nil], List.forall_mem_nil _⟩
  · exact .refl l

/-- From s to t the link alone changes, with PROFILE notices. -/
structure ProfileTold (s t : State) : Prop where
  eq : t = { s with link := t.link }
  link : ProfileNotices s.link t.link

theorem ProfileTold.refl (s : State) : ProfileTold s s := ⟨rfl, .refl _⟩

theorem ProfileTold.trans {a b c : State} (h : ProfileTold a b) (k : ProfileTold b c) : ProfileTold a c :=
  ⟨by rw [k.eq, h.eq], h.link.trans k.link⟩

theorem profileNotice_told (e : ProfileEvent) (s : State) : ProfileTold s (profileNotice e s) := ⟨rfl, profileNotices_offer e _ s.link⟩

theorem toolNotices_told (n : Nat) (i : Spindle) (before after : SpindleRecord) (s : State) : ProfileTold s (toolNotices n i before after s) := by
  have hw : ProfileTold s (if 1 ≤ before.warnLevel ∧ before.warnLevel < before.remaining ∧ after.remaining ≤ before.warnLevel then
      profileNotice (.toolWarn i after.remaining n s.motion.travel) s else s) := by
    split
    · exact profileNotice_told _ s
    · exact .refl s
  unfold toolNotices
  dsimp only
  split
  · exact hw.trans (profileNotice_told _ _)
  · exact hw

/-- The spindles of a list charged (R63). -/
structure Charges (mm : Nat) (l : List Spindle) (s t : State) : Prop where
  eq : t = { s with profile := { s.profile with spindles := t.profile.spindles }, link := t.link }
  charged : ∀ j, t.profile.spindles[j] = if j ∈ l then (s.profile.spindles[j]).charge mm else s.profile.spindles[j]
  link : ProfileNotices s.link t.link

theorem foldl_chargeSpindle (n mm : Nat) (l : List Spindle) (hl : l.Nodup) (s : State) : Charges mm l s (l.foldl (chargeSpindle n mm) s) := by
  induction l generalizing s with
  | nil => exact ⟨rfl, fun j => rfl, .refl _⟩
  | cons i l ih =>
    obtain ⟨hi, hl⟩ := List.nodup_cons.mp hl
    rw [List.foldl_cons]
    obtain ⟨he, hn⟩ := toolNotices_told n i s.profile.spindles[i] ((s.profile.spindles[i]).charge mm)
      (mapProfile (fun w => { w with spindles := setAt w.spindles i ((s.profile.spindles[i]).charge mm) }) s)
    have h := ih hl (chargeSpindle n mm s i)
    have hc : chargeSpindle n mm s i = { s with
        profile := { s.profile with spindles := setAt s.profile.spindles i ((s.profile.spindles[i]).charge mm) }
        link := (chargeSpindle n mm s i).link } := he
    have hn : ProfileNotices s.link (chargeSpindle n mm s i).link := hn
    generalize chargeSpindle n mm s i = u at h hc hn
    refine ⟨?_, fun j => ?_, hn.trans h.link⟩
    · rw [h.eq, hc]
    · rw [h.charged, hc]
      by_cases hj : j = i
      · subst hj
        rw [if_neg hi, if_pos (by simp)]
        exact setAt_self _ _ _
      · rw [setAt_other s.profile.spindles _ (Ne.symm hj)]
        simp [hj]

theorem mem_allSpindles (i : Spindle) : i ∈ allSpindles := by
  revert i
  decide

/-- The strip of number n has its flag TOOL as the spindles stand after its charge (R65). -/
def toolMarked (n : Nat) (b : Bool) (s : State) : State := mapStrip n (fun r => { r with tool := b }) s

theorem chargeTools_eq (n mm : Nat) (s : State) : ∃ l, ProfileNotices s.link l ∧ chargeTools n mm s =
    toolMarked n ((s.profile.spindles.map (SpindleRecord.charge mm)).toList.any (fun x => x.state == .expired)) { s with
      profile := { s.profile with spindles := s.profile.spindles.map (SpindleRecord.charge mm) }
      link := l } := by
  have h := foldl_chargeSpindle n mm allSpindles (by decide) s
  have hs : (allSpindles.foldl (chargeSpindle n mm) s).profile.spindles = s.profile.spindles.map (SpindleRecord.charge mm) := by
    refine Vector.ext fun j hj => ?_
    have hc := h.charged ⟨j, hj⟩
    rw [if_pos (mem_allSpindles _)] at hc
    simpa using hc
  refine ⟨_, h.link, ?_⟩
  unfold chargeTools toolMarked
  dsimp only
  rw [hs]
  conv_lhs => rw [h.eq, hs]

/-! ### The trailing edge -/

/-- A strip record with its flag TOOL written (R65). -/
def Strip.toolMark (b : Bool) (r : Strip) : Strip := { r with tool := b }

/-- A scan in progress whose strip has passed IE (R16, R65). -/
def trailScanning (k : Nat) (t : Word) (b : Bool) (y : Scanning) : Scanning := { y with strip := (y.strip.clearIe k t).toolMark b }

/-- The strip measured and the spindles charged at its trailing edge, before its scan end and the registration of its removal (R16, R63, R65). -/
structure TrailMeasured (r done : Strip) (mm : Nat) (s u : State) : Prop where
  eq : u = { s with
    belt := { strips := u.belt.strips, nextNumber := s.belt.nextNumber }
    profile := { s.profile with spindles := s.profile.spindles.map (SpindleRecord.charge mm) }
    link := u.link }
  link : ProfileNotices s.link u.link
  strip : findStrip u r.number = some (done.toolMark (u.profile.spindles.toList.any (fun x => x.state == .expired)))
  strips : ∀ m, m ≠ r.number → findStrip u m = findStrip s m

theorem trail_measured {r done : Strip} {s : State} (mm : Nat) (hf : findStrip s r.number = some r) (hd : done.number = r.number) :
    TrailMeasured r done mm s (chargeTools r.number mm (mapStrip r.number (fun _ => done) s)) := by
  obtain ⟨l, hl, he⟩ := chargeTools_eq r.number mm (mapStrip r.number (fun _ => done) s)
  have hfind : ∀ m, findStrip (chargeTools r.number mm (mapStrip r.number (fun _ => done) s)) m =
      if m = r.number then (findStrip (mapStrip r.number (fun _ => done) s) m).map (fun x => { x with
        tool := (s.profile.spindles.map (SpindleRecord.charge mm)).toList.any (fun x => x.state == .expired) })
      else findStrip (mapStrip r.number (fun _ => done) s) m := by
    intro m
    rw [he]
    exact findStrip_mapStrip m r.number { mapStrip r.number (fun _ => done) s with
      profile := { s.profile with spindles := s.profile.spindles.map (SpindleRecord.charge mm) }, link := l } fun _ => rfl
  have hprof : (chargeTools r.number mm (mapStrip r.number (fun _ => done) s)).profile.spindles =
      s.profile.spindles.map (SpindleRecord.charge mm) := by rw [he]; rfl
  refine ⟨?_, ?_, ?_, fun m hm => ?_⟩
  · rw [he]
    rfl
  · rw [he]
    exact hl
  · rw [hfind, if_pos rfl, findStrip_replace _ _ s hd, if_pos rfl, hf, hprof]
    rfl
  · rw [hfind, if_neg hm, findStrip_replace _ _ s hd, if_neg hm]

theorem clearIe_number (k : Nat) (t : Word) (r : Strip) : (r.clearIe k t).number = r.number := rfl

theorem clearIe_scanning {k : Nat} {t : Word} {r : Strip} (h : r.state = .scanning) : (r.clearIe k t).state = .scanning := by
  unfold Strip.clearIe
  rw [h]
  rfl

theorem clearIe_not_scanning {k : Nat} {t : Word} {r : Strip} (h : r.state ≠ .scanning) : (r.clearIe k t).state ≠ .scanning := by
  unfold Strip.clearIe
  dsimp only
  split
  · decide
  · exact h

/-- What a scan end test leaves alone, whether or not the scan ends. -/
structure ScanRest (n : Nat) (s t : State) : Prop where
  strips : ∀ m, m ≠ n → findStrip t m = findStrip s m
  spindles : t.profile.spindles = s.profile.spindles
  travel : t.motion.travel = s.motion.travel
  mark : t.motion.mark = s.motion.mark
  lineState : t.line.state = s.line.state
  saw : t.saw = s.saw
  chain : t.chain = s.chain
  bundles : t.bundles = s.bundles
  label : t.label = s.label
  config : t.config = s.config
  inForce : t.inForce = s.inForce

theorem ScanRest.refl (n : Nat) (s : State) : ScanRest n s s := ⟨fun _ _ => rfl, rfl, rfl, rfl, rfl, rfl, rfl, rfl, rfl, rfl, rfl⟩

theorem ScanEnds.rest {n : Nat} {i : StoreId} {x : Scanning} {s t : State} (h : ScanEnds n i x s t) : ScanRest n s t := by
  have hs := h.strips
  have hp := h.spindles
  have he := h.eq
  constructor
  · exact hs
  · exact hp
  all_goals rw [he]

theorem endScanTest_rest (n : Nat) (s : State) : ScanRest n s (endScanTest n s) := by
  cases h : scanningOf s n with
  | none =>
    rw [endScanTest_idle h]
    exact .refl n s
  | some q =>
    obtain ⟨-, ht⟩ | ⟨-, ht⟩ := endScanTest_cases h
    · rw [ht]
      exact .refl n s
    · exact ht.rest

/-- The strip of a scan after the test of its end (R34): but for its zones, flags and profile status it stays, and its state tells whether the scan
ended. -/
theorem trail_scanEnd {n : Nat} {u : State} {i : StoreId} {x : Scanning} (h : scanningOf u n = some (i, x)) :
    ∃ z, findStrip (endScanTest n u) n = some z ∧ z.trail = x.strip.trail ∧ z.length = x.strip.length ∧ z.shift = x.strip.shift ∧
      z.store = some i ∧ z.tool = x.strip.tool ∧ z.state = if x.ended u.config.scan = true then .waitingPlan else .scanning := by
  obtain ⟨hf, hst, hi, -, -⟩ := scanningOf_iff.mp h
  obtain ⟨he, ht⟩ | ⟨he, ht⟩ := endScanTest_cases h
  · rw [ht, he]
    exact ⟨x.strip, hf, rfl, rfl, rfl, hi, rfl, hst⟩
  · obtain ⟨pr, hp⟩ := ht.strip
    obtain ⟨w, hw, hfin, -⟩ := finish_strip u.config x
    rw [he]
    refine ⟨_, hp, ?_⟩
    rw [hfin, hw]
    exact ⟨rfl, rfl, rfl, hi, rfl, rfl⟩

/-- The trail's removal position lies ahead: it is registered (R16). -/
theorem registerRemoval_ahead {n : Nat} {s : State} {r : Strip} {p : Word} (h : findStrip s n = some r) (hp : removalPos s r = p)
    (ha : isAfter p s.motion.mark = true) : registerRemoval n s = addEvent p (.removal n) s := by
  unfold registerRemoval
  rw [h]
  dsimp only
  rw [hp]
  exact regSimple_ahead ha

end Sys2Proof.Machine

open Sys2Proof Sys2Proof.Machine

/-- Settles O17: the strip is measured and the spindles are charged in one lemma; what is left is the scan end, if the strip scans, and its removal
registered ahead. -/
theorem ieTrailingEdgeMeasuresTheStrip : Obligations.IeTrailingEdgeMeasuresTheStrip := by
  refine ⟨fun s hr hw => ?_, fun s r mm p hr hw hf hmm hp ha => ?_⟩
  · rw [exec_ieTrailingEdge hr, hw]
  have hm := trail_measured (done := r.clearIe s.config.motion.k s.motion.travel) mm hf (clearIe_number _ _ _)
  have hexec : exec .ieTrailingEdge s = .next (registerRemoval r.number (endScanTest r.number
      (chargeTools r.number mm (mapStrip r.number (fun _ => r.clearIe s.config.motion.k s.motion.travel) s)))) := by
    rw [exec_ieTrailingEdge hr, hw, hmm]
    rfl
  generalize chargeTools r.number mm (mapStrip r.number (fun _ => r.clearIe s.config.motion.k s.motion.travel) s) = u at hexec hm
  have hmotion : u.motion = s.motion := by rw [hm.eq]
  have hcfg : u.config = s.config := by rw [hm.eq]
  refine ⟨fun hst => ?_, fun i y hy => ?_⟩
  · have hidle : endScanTest r.number u = u := endScanTest_idle (scanningOf_none fun x hx => by
      rw [hm.strip] at hx
      obtain rfl := Option.some.inj hx
      exact clearIe_not_scanning (k := s.config.motion.k) (t := s.motion.travel) hst)
    have hpos : removalPos u ((r.clearIe s.config.motion.k s.motion.travel).toolMark
        (u.profile.spindles.toList.any (fun x => x.state == .expired))) = p := by
      rw [hp]
      unfold removalPos Strip.toolMark Strip.clearIe
      rw [hcfg]
      rfl
    rw [hidle, registerRemoval_ahead hm.strip hpos (by rw [hmotion]; exact ha)] at hexec
    refine ⟨_, hexec, ?_, ?_, fun m hmn => hm.strips m hmn, hm.link, ?_⟩
    · show u.profile = _
      rw [hm.eq]
    · refine hm.strip.trans ?_
      rw [hmm]
      rfl
    · have hprof : u.profile = { s.profile with spindles := s.profile.spindles.map (SpindleRecord.charge mm) } := by rw [hm.eq]
      unfold addEvent
      dsimp only
      rw [hprof]
      conv_lhs => rw [hm.eq]
  · obtain ⟨hfy, hsty, hiy, hsl, hsc⟩ := scanningOf_iff.mp hy
    obtain rfl : r = y.strip := Option.some.inj (hf.symm.trans hfy)
    have hscan : u.scan = s.scan := by rw [hm.eq]
    have hspin : u.profile.spindles = s.profile.spindles.map (SpindleRecord.charge mm) := by rw [hm.eq]
    have hu : scanningOf u y.strip.number = some (i, trailScanning s.config.motion.k s.motion.travel
        (u.profile.spindles.toList.any (fun x => x.state == .expired)) y) :=
      scanningOf_iff.mpr ⟨hm.strip, clearIe_scanning (k := s.config.motion.k) (t := s.motion.travel) hsty, hiy, by rw [hscan]; exact hsl, by rw [hscan]; exact hsc⟩
    have ht := trail_scanEnd hu
    have hrest : ScanRest y.strip.number u (endScanTest y.strip.number u) := endScanTest_rest _ _
    generalize endScanTest y.strip.number u = v at hexec ht hrest
    obtain ⟨x, hx, htrail, hlen, hshift, hstore, htool, hstate⟩ := ht
    have hpos : removalPos v x = p := by
      rw [hp]
      unfold removalPos
      rw [htrail, hshift, hrest.config, hcfg]
      rfl
    rw [registerRemoval_ahead hx hpos (by rw [hrest.mark, hmotion]; exact ha)] at hexec
    refine ⟨_, x, hexec, hx, htrail, hlen.trans (by rw [hmm]; rfl), hstore, ?_, ?_, hrest.spindles.trans hspin, ?_, fun m hmn => ?_, ?_, ?_, ?_⟩
    · rw [htool]
      show _ = v.profile.spindles.toList.any _
      rw [hrest.spindles]
      rfl
    · rw [hstate, hcfg]
      refine if_congr ?_ rfl rfl
      rw [ended_iff]
      unfold Scanning.passesDone
      rw [Bool.and_eq_true, decide_eq_true_eq]
      show (_ ∨ true = true ∧ _) ∧ _ ↔ _
      rw [eq_self_iff_true, true_and]
      rfl
    · exact List.mem_append_right _ (List.mem_singleton_self _)
    · exact (hrest.strips m hmn).trans (hm.strips m hmn)
    · exact hrest.travel.trans (by rw [hmotion])
    · exact hrest.mark.trans (by rw [hmotion])
    · refine ⟨hrest.lineState.trans ?_, hrest.saw.trans ?_, hrest.chain.trans ?_, hrest.bundles.trans ?_, hrest.label.trans ?_,
        hrest.config.trans hcfg, hrest.inForce.trans ?_⟩ <;> rw [hm.eq]
end

