-- ==== Sys2Proof/Proofs/ScanEnds.lean ====
section
/-! PROOFS. Passes and the scan end at the final one: the judgement of the strip by Profile Watch (R31, R34, R40, R42, R55 to R60). -/

namespace Sys2Proof.Machine

/-! ### The judgement -/

theorem profileStop_profile (n stopCount : Nat) (classes : Vector (Option ProfileStatus) 4) (s : State) :
    (profileStop n stopCount classes s).profile = s.profile := by
  unfold profileStop
  split
  · rw [(lineNote_linkOnly s _).eq]
    rfl
  · rfl

theorem profileStop_holds (n stopCount : Nat) (classes : Vector (Option ProfileStatus) 4) (s : State) :
    (profileStop n stopCount classes s).line.holds.profile = (s.line.holds.profile || decide (stopCount ≤ s.profile.limitCount)) := by
  cases hp : s.line.holds.profile with
  | true => rw [profileStop_passes (.inr hp), hp, Bool.true_or]
  | false =>
    by_cases hc : stopCount ≤ s.profile.limitCount
    · rw [profileStop_stops hc hp, (lineNote_linkOnly s _).eq, decide_eq_true hc, Bool.or_true]
      rfl
    · rw [profileStop_passes (.inl hc), hp, decide_eq_false hc, Bool.or_false]

/-- The STOP notice is offered first (R57; log 10). -/
theorem profileStop_grows {n stopCount : Nat} {classes : Vector (Option ProfileStatus) 4} {s : State}
    (hc : stopCount ≤ s.profile.limitCount) (hp : s.line.holds.profile = false) :
    LinkGrows (s.link.offer (.profile (.stop n s.profile.limitCount stopCount classes) s.link.clock)) (profileStop n stopCount classes s).link := by
  rw [profileStop_stops hc hp]
  exact (lineNote_linkOnly s (profileNotice (.stop n s.profile.limitCount stopCount classes)
    (mapHolds (fun h => { h with profile := true }) s))).link

theorem countStatus_other {st : ProfileStatus} (h : st ≠ .limit) (n : Nat) (p : ProfileSection) (classes : Vector (Option ProfileStatus) 4)
    (s : State) : countStatus n p classes st s = mapProfile (fun w => { w with limitCount := 0 }) s := by
  unfold countStatus
  split
  · exact absurd rfl h
  · rfl

theorem countStatus_config (n : Nat) (p : ProfileSection) (classes : Vector (Option ProfileStatus) 4) (st : ProfileStatus) (s : State) :
    (countStatus n p classes st s).config = s.config ∧ activeBank (countStatus n p classes st s) = activeBank s := by
  rw [(countStatus_only n p classes st s).eq]
  exact ⟨rfl, rfl⟩

/-- The count of a status changes the consecutive-limit count alone of Profile Watch's record (R56). -/
theorem countStatus_profile (n : Nat) (p : ProfileSection) (classes : Vector (Option ProfileStatus) 4) (st : ProfileStatus) (s : State) :
    (countStatus n p classes st s).profile = { s.profile with limitCount := (countStatus n p classes st s).profile.limitCount } := by
  unfold countStatus
  split
  · rw [profileStop_profile]
    rfl
  · rfl

/-- Profile Watch's judgement st of strip f, whose classes are those of section sec (R55 to R60). -/
structure ProfileJudged (n : Nat) (f : Strip) (slots : List PassSlot) (sec : ProfileSection) (st : ProfileStatus) (s c : State) : Prop where
  strip : findStrip c n = some { f with profile := some st }
  other : st ≠ .limit → c.profile.limitCount = 0 ∧ c.line.holds.profile = s.line.holds.profile
  limit : ∀ k, st = .limit → k = min 255 (s.profile.limitCount + 1) → c.profile.limitCount = k ∧
    c.line.holds.profile = (s.line.holds.profile || decide (sec.stopCount ≤ k)) ∧
    (s.line.holds.profile = false → sec.stopCount ≤ k →
      LinkGrows (s.link.offer (.profile (.stop n k sec.stopCount (roleClasses s.config sec f slots)) s.link.clock)) c.link)
  noDrift : activeBank s ≠ some f.bank ∨ classifiedValues s.config f slots .tongueT = [] →
    c.profile.ring = s.profile.ring ∧ c.profile.drift = s.profile.drift ∧ c.profile.armed = s.profile.armed
  drift : ∀ (vs : List Int) (ring : List Nat), activeBank s = some f.bank → vs = classifiedValues s.config f slots .tongueT → vs ≠ [] →
    ring = (if s.profile.ring.length < 16 then s.profile.ring else s.profile.ring.drop 1) ++ [(vs.sum.tdiv vs.length).toNat] →
    c.profile.ring = ring ∧
    (ring.length ≠ 16 → c.profile.drift = s.profile.drift ∧ c.profile.armed = s.profile.armed) ∧
    ∀ d : Int, ring.length = 16 → d = (ring.sum / 16 : Nat) - (sec.tongueNominal : Int) →
      c.profile.drift = some d ∧
      c.profile.armed = (if s.profile.armed then decide (d.natAbs ≤ sec.driftLimit) else decide (d.natAbs ≤ sec.driftLimit / 2))

/-- A value entered into the drift ring (R59), which gives the drift and its alarm when full (R60). -/
theorem enterDrift_ring {n v : Nat} {sec : ProfileSection} {s : State} {ring : List Nat}
    (hr : ring = (if s.profile.ring.length < 16 then s.profile.ring else s.profile.ring.drop 1) ++ [v]) :
    (enterDrift n v sec s).profile.ring = ring ∧
    (ring.length ≠ 16 → (enterDrift n v sec s).profile.drift = s.profile.drift ∧ (enterDrift n v sec s).profile.armed = s.profile.armed) ∧
    ∀ d : Int, ring.length = 16 → d = (ring.sum / 16 : Nat) - (sec.tongueNominal : Int) →
      (enterDrift n v sec s).profile.drift = some d ∧
      (enterDrift n v sec s).profile.armed =
        (if s.profile.armed then decide (d.natAbs ≤ sec.driftLimit) else decide (d.natAbs ≤ sec.driftLimit / 2)) := by
  have hpush : pushRing v s.profile.ring = ring := hr.symm
  unfold enterDrift
  dsimp only
  have hring : (mapProfile (fun w => { w with ring := pushRing v w.ring }) s).profile.ring = ring := hpush
  by_cases hl : ring.length = 16
  · rw [if_pos (by rw [hring]; exact hl), driftAlarm_profile, hring]
    exact ⟨hpush, fun h => absurd hl h, fun d _ hd => by rw [hd]; exact ⟨rfl, rfl⟩⟩
  · rw [if_neg (by rw [hring]; exact hl)]
    exact ⟨hpush, fun _ => ⟨rfl, rfl⟩, fun d h => absurd h hl⟩

theorem judgedAs_judged {n : Nat} {f : Strip} {slots : List PassSlot} {sec : ProfileSection} {st : ProfileStatus} {s : State}
    (hf : findStrip s n = some f) : ProfileJudged n f slots sec st s (judgedAs f slots sec st s) := by
  obtain rfl := findStrip_number hf
  have hd := driftStep_only f slots sec (countStatus f.number sec (roleClasses s.config sec f slots) st
    (mapStrip f.number (fun x => { x with profile := some st }) s))
  obtain ⟨hcfg, hbank⟩ := countStatus_config f.number sec (roleClasses s.config sec f slots) st
    (mapStrip f.number (fun x => { x with profile := some st }) s)
  have hprof := countStatus_profile f.number sec (roleClasses s.config sec f slots) st
    (mapStrip f.number (fun x => { x with profile := some st }) s)
  have hline := driftStep_line f slots sec (countStatus f.number sec (roleClasses s.config sec f slots) st
    (mapStrip f.number (fun x => { x with profile := some st }) s))
  have hholds := congrArg (fun l => l.holds.profile) hline
  have hcount := driftStep_limitCount f slots sec (countStatus f.number sec (roleClasses s.config sec f slots) st
    (mapStrip f.number (fun x => { x with profile := some st }) s))
  refine ⟨?_, fun hst => ?_, fun k hst hk => ?_, fun hno => ?_, fun vs ring ha hv hne hr => ?_⟩
  · have h : findStrip (judgedAs f slots sec st s) f.number = findStrip (mapStrip f.number (fun x => { x with profile := some st }) s) f.number := by
      unfold findStrip
      rw [(judgedAs_only f slots sec st s).eq]
    rw [h, findStrip_mapStrip f.number f.number (f := fun x => { x with profile := some st }) s fun _ => rfl, if_pos rfl, hf]
    rfl
  · refine ⟨hcount.trans ?_, hholds.trans ?_⟩ <;> rw [countStatus_other hst] <;> rfl
  · subst hst
    have hstop := profileStop_holds f.number sec.stopCount (roleClasses s.config sec f slots)
      (mapProfile (fun w => { w with limitCount := countUpTo 255 w.limitCount }) (mapStrip f.number (fun x => { x with profile := some .limit }) s))
    refine ⟨hcount.trans ?_, hholds.trans ?_, fun hp hc => ?_⟩
    · unfold countStatus
      dsimp only
      rw [profileStop_profile, hk]
      rfl
    · rw [hk]
      exact hstop
    · refine LinkGrows.trans ?_ hd.link
      have hg := profileStop_grows (n := f.number) (classes := roleClasses s.config sec f slots)
        (s := mapProfile (fun w => { w with limitCount := countUpTo 255 w.limitCount })
          (mapStrip f.number (fun x => { x with profile := some .limit }) s))
        (show sec.stopCount ≤ countUpTo 255 s.profile.limitCount by rw [hk] at hc; exact hc) hp
      rw [hk]
      exact hg
  · have hid := driftStep_passes (r := f) (slots := slots) (s := countStatus f.number sec (roleClasses s.config sec f slots) st
      (mapStrip f.number (fun x => { x with profile := some st }) s)) (by rw [hbank, hcfg]; exact hno) sec
    unfold judgedAs
    rw [hid, hprof]
    exact ⟨rfl, rfl, rfl⟩
  · have hen := driftStep_enters (r := f) (slots := slots) (s := countStatus f.number sec (roleClasses s.config sec f slots) st
      (mapStrip f.number (fun x => { x with profile := some st }) s)) (by rw [hbank]; exact ha) (by rw [hcfg]; exact hv) hne sec
    unfold judgedAs
    rw [hen]
    have hall := enterDrift_ring (n := f.number) (v := tongueMean vs) (sec := sec) (ring := ring) (s := countStatus f.number sec
      (roleClasses s.config sec f slots) st (mapStrip f.number (fun x => { x with profile := some st }) s)) (by rw [hprof]; exact hr)
    rw [hprof] at hall
    exact hall

/-! ### Passes -/

theorem passFuel_at {s : State} {p : Word} (h : s.motion.mark = p) : passFuel s p = 1 := by
  have h0 : p - p = 0#32 := by bv_omega
  unfold passFuel ticksFrom
  rw [h, h0]
  rfl

theorem takePass_eq {s : State} {n : Nat} {i : StoreId} {x : Scanning} (g : GateSample) (h : scanningOf s n = some (i, x)) :
    takePass n g s = endScanTest n (registerPass x.strip x.scan.next (beginConversion x.strip x.scan.next
      (putScanning i (x.pass s.config (converterBusy s) g) true s))) := by
  unfold takePass
  rw [h]

/-- A pass taken at the mark, with nothing registered behind it, is the one pass taken (R31). -/
theorem takePasses_one {s t : State} {n : Nat} {g : GateSample} {p : Word} (hm : s.motion.mark = p) (ht : takePass n g s = t)
    (ha : ∀ e ∈ t.motion.events, isAfter e.pos t.motion.mark = true) : takePasses n g (passFuel s p) s = t := by
  rw [passFuel_at hm]
  unfold takePasses
  rw [ht]
  have hd : duePass n t = none := by
    unfold duePass
    rw [List.find?_eq_none]
    intro e he
    simp [reached, ha e he]
  dsimp only
  rw [hd]

/-- A scan in progress with the gate sample of its next pass taken, and no more (R39). -/
def Scanning.gated (lag : Nat) (g : GateSample) (x : Scanning) : Scanning :=
  { x.takeGate lag x.scan.next g with scan := { (x.takeGate lag x.scan.next g).scan with next := x.scan.next + 1 } }

/-- A pass past the body of its strip: its gate sample alone (R31, R39). -/
theorem pass_tail {cfg : Configuration} {busy : Bool} {g : GateSample} {x : Scanning} (h : x.strip.isBody cfg.scan.pitch x.scan.next = false) :
    x.pass cfg busy g = x.gated cfg.scan.lag g := by
  unfold Scanning.pass
  dsimp only
  rw [if_neg (by simp [h])]
  rfl

section
variable (lag : Nat) (g : GateSample) (x : Scanning)

theorem gated_scanKept : x.strip.ScanKept (x.gated lag g).strip := takeGate_scanKept lag x.scan.next g x

theorem gated_slots : (x.gated lag g).slots = x.slots := by
  unfold Scanning.gated
  rw [takeGate_eq]

theorem gated_scan : (x.gated lag g).scan = { x.scan with next := x.scan.next + 1, defect := (x.gated lag g).scan.defect } := by
  unfold Scanning.gated
  dsimp only
  conv_lhs => rw [takeGate_eq]

theorem gated_closeDefect (stop : Nat) :
    ((x.gated lag g).closeDefect stop).strip = ((x.takeGate lag x.scan.next g).closeDefect stop).strip := by
  unfold Scanning.gated Scanning.closeDefect
  cases (x.takeGate lag x.scan.next g).scan.defect <;> rfl

end

theorem beginConversion_tail {r : Strip} {j : Nat} {s : State} (h : r.isBody s.config.scan.pitch j = false) : beginConversion r j s = s :=
  if_neg fun hc => by simp [h] at hc

theorem registerPass_last {r : Strip} {j : Nat} {s : State} (h : r.trail.isSome = true) (hf : r.finalPass s.config.scan ≤ (j : Int)) :
    registerPass r j s = s := if_pos ⟨h, hf⟩

/-- The final pass of a strip past its body (R34): the gate sample, and the scan ends. -/
theorem takePass_final {s : State} {n : Nat} {i : StoreId} {x : Scanning} (g : GateSample) (h : scanningOf s n = some (i, x))
    (hb : x.strip.isBody s.config.scan.pitch x.scan.next = false) (ht : x.strip.trail.isSome = true)
    (hf : x.strip.finalPass s.config.scan ≤ (x.scan.next : Int)) (ho : x.scan.owed ≤ x.slots.length) :
    takePass n g s = endScanTest n (putScanning i (x.gated s.config.scan.lag g) true s) ∧
      (x.gated s.config.scan.lag g).ended s.config.scan = true := by
  constructor
  · have hcfg : (putScanning i (x.gated s.config.scan.lag g) true s).config = s.config := by rw [putScanning_eq]
    rw [takePass_eq g h, pass_tail hb, beginConversion_tail (by rw [hcfg]; exact hb), registerPass_last ht (by rw [hcfg]; exact hf)]
  · have hk := gated_scanKept s.config.scan.lag g x
    have hs := gated_scan s.config.scan.lag g x
    rw [ended_iff, gated_slots]
    refine ⟨.inr ?_, by rw [hs]; exact ho⟩
    unfold Scanning.passesDone
    rw [Bool.and_eq_true, decide_eq_true_eq, hk.trail, hk.finalPass, hs]
    exact ⟨ht, by push_cast; omega⟩

/-- The classes of a strip's roles look at its ticks alone (R54, R55). -/
theorem classifiedValues_congr {r u : Strip} (h : u.ticks = r.ticks) (cfg : Configuration) (slots : List PassSlot) (role : Role) :
    classifiedValues cfg u slots role = classifiedValues cfg r slots role := by
  unfold classifiedValues Strip.bodyPasses
  rw [h]

theorem roleClasses_congr {r u : Strip} (h : u.ticks = r.ticks) (cfg : Configuration) (p : ProfileSection) (slots : List PassSlot) :
    roleClasses cfg p u slots = roleClasses cfg p r slots := by
  unfold roleClasses
  simp only [classifiedValues_congr h]

/-- The open DEFECT run that the last gate sample leaves is closed after the pass it was attributed to (R40). -/
theorem takeGate_closeDefect {lag j : Nat} {g : GateSample} {x : Scanning} {u : Strip}
    (h : (x.scan.defect = none ∧ g.active = false ∧ u = x.strip) ∨
      (x.scan.defect = none ∧ g.active = true ∧ lag ≤ j ∧ j - lag < 2048 ∧
        u = x.strip.enterZone ⟨.gate, j - lag, j + 1 - lag, max 1 g.severity.toNat⟩) ∨
      (∃ d, x.scan.defect = some d ∧ lag ≤ j ∧ j - lag < 2048 ∧
        (g.active = false ∧ u = x.strip.enterZone ⟨.gate, d.start, j - lag, d.severity⟩ ∨
          g.active = true ∧ u = x.strip.enterZone ⟨.gate, d.start, j + 1 - lag, max d.severity (max 1 g.severity.toNat)⟩))) :
    ((x.takeGate lag j g).closeDefect (j + 1 - lag)).strip = u := by
  obtain ⟨hd, hg, rfl⟩ | ⟨hd, hg, hl, h2, rfl⟩ | ⟨d, hd, hl, h2, ⟨hg, rfl⟩ | ⟨hg, rfl⟩⟩ := h
  · rw [takeGate_nothing (.inr ⟨hd, hg⟩), closeDefect_none hd]
  · rw [takeGate_active hl h2 hg, hd, closeDefect_some rfl]
    rfl
  · rw [takeGate_clear hl h2 hg, closeDefect_some hd, closeDefect_none rfl]
  · rw [takeGate_active hl h2 hg, hd, closeDefect_some rfl]
    rfl

theorem scanClosed_findStrip {s : State} {n : Nat} {i : StoreId} {x : Scanning} (h : scanningOf s n = some (i, x)) :
    findStrip (scanClosed n i x s) n = some (x.finish s.config).strip :=
  putScanning_findStrip_self (s := withdraw (fun k => k == .pass n) s) (scanningOf_findStrip h)
    ((finish_number _ _).trans (scanningOf_number h))

/-- A scan that ends with its profile judged: the planner's part and the strip's own leave Profile Watch's verdict as it is (R55 to R60). -/
theorem endScanTest_verdict {s : State} {n : Nat} {i : StoreId} {x : Scanning} (h : scanningOf s n = some (i, x))
    (he : x.ended s.config.scan = true) {f : Strip} (hf : findStrip (scanClosed n i x s) n = some f) {sec : ProfileSection}
    (hsec : s.recipe.banks[f.bank].profile = some sec) :
    (statusOf (roleClasses s.config sec f x.slots) = none → findStrip (endScanTest n s) n = some f ∧
      (endScanTest n s).profile = s.profile ∧ (endScanTest n s).line.holds.profile = s.line.holds.profile) ∧
    ∀ st, statusOf (roleClasses s.config sec f x.slots) = some st → ProfileJudged n f x.slots sec st s (endScanTest n s) := by
  have hb : scanClosed n i x s = { s with
      belt := (scanClosed n i x s).belt, scan := (scanClosed n i x s).scan, motion := (scanClosed n i x s).motion } := by
    unfold scanClosed
    rw [putScanning_eq]
    rfl
  have hends := endScanTest_ended h he
  have hp := handToPlanner_planningOnly n (judgeStrip n x.slots (scanClosed n i x s))
  rw [← hends] at hp
  generalize scanClosed n i x s = b at hf hb hp
  have hcfg : b.config = s.config := by rw [hb]
  have hrec : b.recipe = s.recipe := by rw [hb]
  have hprof : b.profile = s.profile := by rw [hb]
  have hline : b.line = s.line := by rw [hb]
  have hlink : b.link = s.link := by rw [hb]
  have hbank : activeBank b = activeBank s := by rw [hb]; rfl
  have hsecb : b.recipe.banks[f.bank].profile = some sec := by rw [hrec]; exact hsec
  have hfind : findStrip (endScanTest n s) n = findStrip (judgeStrip n x.slots b) n := by
    unfold findStrip
    rw [hp.eq]
  have hprofile : (endScanTest n s).profile = (judgeStrip n x.slots b).profile := by rw [hp.eq]
  have hholds : (endScanTest n s).line.holds.profile = (judgeStrip n x.slots b).line.holds.profile := by rw [hp.eq]
  have hgrow := hp.link
  clear hp hends hb
  generalize endScanTest n s = t at *
  refine ⟨fun hst => ?_, fun st hst => ?_⟩
  · have hj := judgeStrip_none hf (.inr ⟨sec, hsecb, by rw [hcfg]; exact hst⟩)
    rw [hfind, hprofile, hholds, hj, hprof, hline]
    exact ⟨hf, rfl, rfl⟩
  · rw [judgeStrip_some hf hsecb (by rw [hcfg]; exact hst)] at hfind hprofile hholds hgrow
    obtain ⟨hstrip, hother, hlimit, hno, hdrift⟩ := judgedAs_judged (slots := x.slots) (sec := sec) (st := st) hf
    rw [hprof, hline, hlink, hcfg] at hlimit
    rw [hline] at hother
    rw [hprof, hbank, hcfg] at hno hdrift
    rw [← hprofile, ← hholds] at hlimit hother
    rw [← hprofile] at hno hdrift
    exact ⟨hfind.trans hstrip, hother, fun k h1 h2 => ⟨(hlimit k h1 h2).1, (hlimit k h1 h2).2.1, fun h3 h4 => ((hlimit k h1 h2).2.2 h3 h4).trans hgrow⟩,
      hno, hdrift⟩

/-! ### The worst class -/

theorem worst_mem (c d : ProfileStatus) : c.worst d = c ∨ c.worst d = d := by
  cases c <;> cases d <;> decide

theorem rank_le_worst (c d : ProfileStatus) : c.rank ≤ (c.worst d).rank ∧ d.rank ≤ (c.worst d).rank := by
  cases c <;> cases d <;> decide

theorem foldl_worst (cs : List ProfileStatus) (c : ProfileStatus) :
    cs.foldl ProfileStatus.worst c ∈ c :: cs ∧ ∀ d ∈ c :: cs, d.rank ≤ (cs.foldl ProfileStatus.worst c).rank := by
  induction cs generalizing c with
  | nil => exact ⟨List.mem_singleton_self c, fun d hd => by rw [List.mem_singleton.mp hd]; exact Nat.le_refl _⟩
  | cons e cs ih =>
    rw [List.foldl_cons]
    obtain ⟨hm, hr⟩ := ih (c.worst e)
    obtain ⟨hc, he⟩ := rank_le_worst c e
    have hself := hr _ List.mem_cons_self
    refine ⟨?_, fun d hd => ?_⟩
    · obtain h | h := List.mem_cons.mp hm
      · rw [h]
        obtain hw | hw := worst_mem c e <;> simp [hw]
      · exact List.mem_cons_of_mem _ (List.mem_cons_of_mem _ h)
    · obtain rfl | hd := List.mem_cons.mp hd
      · exact Nat.le_trans hc hself
      · obtain rfl | hd := List.mem_cons.mp hd
        · exact Nat.le_trans he hself
        · exact hr d (List.mem_cons_of_mem _ hd)

end Sys2Proof.Machine

open Sys2Proof Sys2Proof.Machine

/-- Settles O25: the final pass is past the body, so the step is its gate sample and the scan end; the judgement reads the classes of the strip as it
scanned, which its closing zones do not touch. -/
theorem scanEndJudgesTheStrip : Obligations.ScanEndJudgesTheStrip := by
  refine ⟨fun l => ?_, fun g s n i x j lag p others hr hmov hmark hp hdue hj hlag hx htrail hbody hfin howed => ?_⟩
  · cases l with
    | nil => exact ⟨⟨fun _ => rfl, fun _ => rfl⟩, nofun⟩
    | cons c cs =>
      refine ⟨⟨nofun, nofun⟩, fun d hd => ?_⟩
      obtain rfl := Option.some.inj hd
      exact foldl_worst cs c
  subst hj hlag hp
  have hnum := scanningOf_number hx
  have hx1 : scanningOf (steppedOn s others) n = some (i, x) := (scanningOf_congr rfl fun _ => rfl).trans hx
  obtain ⟨htake, hended⟩ := takePass_final g hx1 hbody htrail hfin howed
  have hk := gated_scanKept s.config.scan.lag g x
  have hslots := gated_slots s.config.scan.lag g x
  have hscan := gated_scan s.config.scan.lag g x
  have hclose := gated_closeDefect s.config.scan.lag g x (x.scan.next + 1 - s.config.scan.lag)
  have hput := scanningOf_putScanning hx1 hk
  have hu := putScanning_eq (steppedOn s others) i (x.gated s.config.scan.lag g) true
  have hothers := fun m hm => putScanning_findStrip_other (s := steppedOn s others) (i := i) (keep := true) (m := m) (hk.number.trans hnum) hm
  obtain ⟨w, hkw, hfinish, hruns⟩ := finish_strip s.config (x.gated s.config.scan.lag g)
  have hruns' := hruns
  have hcfg : (putScanning i (x.gated s.config.scan.lag g) true (steppedOn s others)).config = s.config := by rw [putScanning_eq]; rfl
  have hself := (scanClosed_findStrip hput).trans (congrArg some ((congrArg (fun c => ((x.gated s.config.scan.lag g).finish c).strip) hcfg).trans hfinish))
  change takePass n g (steppedOn s others) = endScanTest n (putScanning i (x.gated s.config.scan.lag g) true (steppedOn s others)) at htake
  change (x.gated s.config.scan.lag g).ended s.config.scan = true at hended
  generalize x.gated s.config.scan.lag g = y at *
  generalize putScanning i y true (steppedOn s others) = u at *
  have hmotion : u.motion = (steppedOn s others).motion := by rw [hu]
  have hends := endScanTest_ends hput (by rw [hcfg]; exact hended)
  have hverdict := fun sec => endScanTest_verdict hput (by rw [hcfg]; exact hended) hself (sec := sec)
  generalize endScanTest n u = t at *
  have hevents : t.motion.events = others.filter (fun e => e.what != .pass n) := by rw [hends.eq, hmotion]; rfl
  have hmark1 : t.motion.mark = s.motion.travel + 1 := by rw [hends.eq, hmotion]; rfl
  have hahead : ∀ e ∈ t.motion.events, isAfter e.pos t.motion.mark = true := by
    rw [hevents, hmark1]
    exact fun e he => hdue.ahead e (List.mem_of_mem_filter he)
  obtain ⟨pr, hstrip⟩ := hends.strip
  rw [hcfg, hfinish] at hstrip
  refine ⟨t, _, exec_forward_one hr hmov hmark hdue (takePasses_one rfl htake hahead) hahead, hstrip, rfl, ?_, ?_, hevents, ?_, fun m hm => ?_, fun v hv => ?_,
    fun hi => ?_, fun hi => ?_, fun sec cs hsec hcs => ?_⟩
  · exact hkw.store.trans (hk.store.trans (scanningOf_iff.mp hx).2.2.1)
  · rw [hends.store]
    exact hslots
  · rw [hends.eq, hu]
    rfl
  · exact (hends.strips m hm).trans (hothers m hm)
  · refine ⟨w, ?_, rfl, rfl⟩
    have hnext : y.scan.next = x.scan.next + 1 := by rw [hscan]
    have hgauge : y.scan.gauge = x.scan.gauge := by rw [hscan]
    rw [hslots, hgauge, hnext, hclose, takeGate_closeDefect hv] at hruns
    exact hruns
  · have hidle := hends.idle (by rw [hu]; exact hi)
    rw [hu] at hidle
    exact hidle
  · have hbusy := (hends.busy (by rw [hu]; exact hi)).1
    rw [hu] at hbusy
    exact hbusy
  · have hticks : { w with state := StripState.waitingPlan }.ticks = x.strip.ticks := hkw.ticks.trans hk.ticks
    have hbank : w.bank = x.strip.bank := hkw.bank.trans hk.bank
    have hsecu : u.recipe.banks[{ w with state := StripState.waitingPlan }.bank].profile = some sec := by
      have hall : ∀ b, b = x.strip.bank → u.recipe.banks[b].profile = some sec := by
        rintro _ rfl
        rw [hu]
        exact hsec
      exact hall _ hbank
    have hactive : activeBank u = activeBank s := by rw [hu]; rfl
    obtain ⟨hnone, hsome⟩ := hverdict sec hsecu
    rw [hcfg, hslots, roleClasses_congr hticks, ← hcs] at hnone hsome
    have hprof : u.profile = s.profile := by rw [hu]; rfl
    have hline : u.line = s.line := by rw [hu]; rfl
    have hlink : u.link = s.link := by rw [hu]; rfl
    rw [hprof, hline] at hnone
    refine ⟨fun hst => ?_, fun st hst => ?_⟩
    · obtain ⟨hfind, hrest⟩ := hnone hst
      refine ⟨?_, hrest⟩
      rw [Option.some.inj (hstrip.symm.trans hfind), hkw, hk]
    · obtain ⟨hfind, hother, hlimit, hno, hdrift⟩ := hsome st hst
      rw [hprof, hline, hlink, hcfg, roleClasses_congr hticks, ← hcs] at hlimit
      rw [hline] at hother
      rw [hprof, hactive, hcfg, classifiedValues_congr hticks] at hno hdrift
      refine ⟨by rw [Option.some.inj (hstrip.symm.trans hfind)], hother, fun k h1 h2 => ?_, ?_, ?_⟩
      · obtain ⟨hc, hh, hn⟩ := hlimit k h1 h2
        refine ⟨hc, hh, fun h3 h4 => ?_⟩
        obtain ⟨more, hmore⟩ := (hn h3 h4).tx
        exact ⟨_, hmore⟩
      · rw [← hbank]
        exact hno
      · rw [← hbank]
        exact hdrift
end

