-- ==== Sys2Proof/Proofs/Passes.lean ====
section
/-! PROOFS. A pass on the body of a strip under the head (R31 to R33, R37, R39 to R42): its slot or copy, its gate sample, its conversion and the
registration of the next. -/

namespace Sys2Proof.Machine

/-! ### What the zone list leaves of a strip -/

/-- From r to u a strip record changes in its zones and the flag ZONE_SAT alone (R43, R44). -/
def Strip.ZonesOnly (r u : Strip) : Prop := u = { r with zones := u.zones, flags := { r.flags with zoneSat := u.flags.zoneSat } }

theorem Strip.ZonesOnly.refl (r : Strip) : r.ZonesOnly r := rfl

theorem Strip.ZonesOnly.trans {a b c : Strip} (h : a.ZonesOnly b) (k : b.ZonesOnly c) : a.ZonesOnly c := by
  unfold Strip.ZonesOnly at *
  rw [k, h]

theorem Strip.ZonesOnly.flags {r u : Strip} (h : r.ZonesOnly u) :
    u.flags.sparse = r.flags.sparse ∧ u.flags.overlength = r.flags.overlength ∧ u.flags.tailCut = r.flags.tailCut := by
  rw [h]
  exact ⟨rfl, rfl, rfl⟩

theorem enterZone_zonesOnly (z : Zone) (r : Strip) : r.ZonesOnly (r.enterZone z) := by
  unfold Strip.ZonesOnly
  rw [enterZone_eq]

theorem foldl_enterZone_zonesOnly {α : Type} (z : α → Zone) (l : List α) (r : Strip) :
    r.ZonesOnly (l.foldl (fun r c => r.enterZone (z c)) r) := by
  induction l generalizing r with
  | nil => exact .refl r
  | cons c l ih => exact (enterZone_zonesOnly (z c) r).trans (ih _)

theorem GaugeWork.zonesOnly {setup : Vector ChannelSetup 16} {stop : Nat} {fails : Channel → Bool} {l : List Channel} {x y : Scanning}
    (h : GaugeWork setup stop fails l x y) : x.strip.ZonesOnly y.strip := by
  rw [h.strip]
  exact foldl_enterZone_zonesOnly _ _ _

theorem closeDefect_zonesOnly (x : Scanning) (stop : Nat) : x.strip.ZonesOnly (x.closeDefect stop).strip := by
  cases h : x.scan.defect with
  | none => rw [closeDefect_none h]; exact .refl _
  | some d => rw [closeDefect_some h]; exact enterZone_zonesOnly _ _

theorem gated_zonesOnly (lag : Nat) (g : GateSample) (x : Scanning) : x.strip.ZonesOnly (x.gated lag g).strip := by
  unfold Scanning.gated Scanning.takeGate
  dsimp only
  split
  · exact .refl _
  · split
    · exact closeDefect_zonesOnly x _
    · split
      · exact .refl _
      · exact closeDefect_zonesOnly x _

/-! ### The body work of a pass -/

section
variable (cfg : Configuration) (busy : Bool) (j : Nat) (x : Scanning)

/-- The body work of a pass moves the samples owed and the GAUGE runs alone of the scan in progress (R31, R33, R37). -/
theorem body_scan : (x.body cfg busy j).scan =
    { x.scan with owed := (x.body cfg busy j).scan.owed, gauge := (x.body cfg busy j).scan.gauge } := by
  rcases Nat.lt_trichotomy j 2048 with h | h | h
  · cases busy with
    | false => rw [body_free h rfl]
    | true =>
      by_cases hs : x.slots.length = j
      · rw [body_held_copied h rfl hs, (file_work _ _ _).scan]
      · rw [body_held_waits h rfl hs]
  · rw [body_last h, (closeGauges_work _ _ _).scan]
  · rw [body_overlength h]

theorem body_scanKept : x.strip.ScanKept (x.body cfg busy j).strip := by
  rcases Nat.lt_trichotomy j 2048 with h | h | h
  · cases busy with
    | false => rw [body_free h rfl]; exact .refl _
    | true =>
      by_cases hs : x.slots.length = j
      · rw [body_held_copied h rfl hs]
        exact (sparsely_scanKept x.strip).trans (file_work _ _ _).scanKept
      · rw [body_held_waits h rfl hs]
        exact sparsely_scanKept x.strip
  · rw [body_last h]
    exact (overlong_scanKept x.strip).trans (closeGauges_work _ _ _).scanKept
  · rw [body_overlength h]
    exact overlong_scanKept x.strip

end

/-- A pass on the body of its strip: its body work, then its gate sample (R31, R39; log 18). -/
theorem pass_body {cfg : Configuration} {busy : Bool} {g : GateSample} {x : Scanning} (h : x.strip.isBody cfg.scan.pitch x.scan.next = true) :
    x.pass cfg busy g = (x.body cfg busy x.scan.next).gated cfg.scan.lag g := by
  have hn : (x.body cfg busy x.scan.next).scan.next = x.scan.next := by rw [body_scan]
  unfold Scanning.pass Scanning.gated
  dsimp only
  rw [if_pos h, hn]
  rfl

theorem isBody_of_untrailed {r : Strip} (h : r.trail = none) (pitch j : Nat) : r.isBody pitch j = true := by
  unfold Strip.isBody
  rw [h]
  rfl

/-! ### A pass under the head -/

section
variable {s : State} {n : Nat} {i : StoreId} {x : Scanning} {g : GateSample}

/-- The conversion that a body pass below 2048 begins with the converter idle (R32). -/
def converterAfter (n j : Nat) (c : Option Conversion) : Option Conversion := if j < 2048 ∧ c = none then some ⟨n, j⟩ else c

theorem converterAfter_begins {n j : Nat} {c : Option Conversion} (h : j < 2048) (hc : c = none) : converterAfter n j c = some ⟨n, j⟩ :=
  if_pos ⟨h, hc⟩

theorem converterAfter_busy {n j : Nat} {c : Option Conversion} (hc : c ≠ none) : converterAfter n j c = c := if_neg fun h => hc h.2

theorem converterAfter_late {n j : Nat} {c : Option Conversion} (h : 2048 ≤ j) : converterAfter n j c = c :=
  if_neg fun k => Nat.not_lt.mpr h k.1

theorem beginConversion_eq {r : Strip} {j : Nat} (h : r.isBody s.config.scan.pitch j = true) :
    beginConversion r j s = setConverter (converterAfter r.number j s.scan.converter) s := by
  unfold beginConversion converterAfter converterBusy
  by_cases hc : j < 2048 ∧ s.scan.converter = none
  · rw [if_pos ⟨h, hc.1, by rw [hc.2]; rfl⟩, if_pos hc]
  · rw [if_neg, if_neg hc]
    · rfl
    · rintro ⟨-, hj, hb⟩
      exact hc ⟨hj, by simpa using hb⟩

theorem registerPass_next {r : Strip} {j : Nat} (h : r.trail = none) :
    registerPass r j s = addEvent (passDue s r (j + 1)) (.pass r.number) s := by
  unfold registerPass
  rw [if_neg (by simp [h])]

/-- The scan in progress after a pass on the body of its strip. -/
def Scanning.passed (cfg : Configuration) (busy : Bool) (g : GateSample) (x : Scanning) : Scanning :=
  (x.body cfg busy x.scan.next).gated cfg.scan.lag g

theorem passed_scanKept (cfg : Configuration) (busy : Bool) (g : GateSample) (x : Scanning) : x.strip.ScanKept (x.passed cfg busy g).strip :=
  (body_scanKept cfg busy x.scan.next x).trans (gated_scanKept _ _ _)

theorem passed_next (cfg : Configuration) (busy : Bool) (g : GateSample) (x : Scanning) : (x.passed cfg busy g).scan.next = x.scan.next + 1 := by
  unfold Scanning.passed
  rw [gated_scan, body_scan]

theorem passed_cut (cfg : Configuration) (busy : Bool) (g : GateSample) (x : Scanning) : (x.passed cfg busy g).scan.cut = x.scan.cut := by
  unfold Scanning.passed
  rw [gated_scan, body_scan]

/-- A pass of a strip that still covers IE (R31): its work, its conversion, and the next pass registered; its scan goes on. -/
theorem takePass_covered (h : scanningOf s n = some (i, x)) (ht : x.strip.trail = none) (hc : x.scan.cut = false) :
    takePass n g s = addEvent (passDue s x.strip (x.scan.next + 1)) (.pass n)
        (setConverter (converterAfter n x.scan.next s.scan.converter) (putScanning i (x.passed s.config (converterBusy s) g) true s)) ∧
      scanningOf (takePass n g s) n = some (i, x.passed s.config (converterBusy s) g) := by
  have hbody := fun pitch => isBody_of_untrailed ht pitch x.scan.next
  have hk := passed_scanKept s.config (converterBusy s) g x
  have hput := scanningOf_putScanning h hk
  have hu := putScanning_eq s i (x.passed s.config (converterBusy s) g) true
  have hend := ended_eq_false (c := s.config.scan) ((passed_cut s.config (converterBusy s) g x).trans hc)
    (show (x.passed s.config (converterBusy s) g).passesDone s.config.scan = false by
      unfold Scanning.passesDone
      rw [hk.trail, ht]
      rfl)
  rw [takePass_eq g h, pass_body (hbody _), beginConversion_eq (hbody _), registerPass_next ht, scanningOf_number h]
  change endScanTest n (addEvent (passDue (putScanning i (x.passed s.config (converterBusy s) g) true s) x.strip (x.scan.next + 1)) (.pass n)
    (setConverter (converterAfter n x.scan.next (putScanning i (x.passed s.config (converterBusy s) g) true s).scan.converter)
      (putScanning i (x.passed s.config (converterBusy s) g) true s))) = _ ∧ scanningOf (endScanTest n (addEvent
        (passDue (putScanning i (x.passed s.config (converterBusy s) g) true s) x.strip (x.scan.next + 1)) (.pass n)
    (setConverter (converterAfter n x.scan.next (putScanning i (x.passed s.config (converterBusy s) g) true s).scan.converter)
      (putScanning i (x.passed s.config (converterBusy s) g) true s)))) n = _
  generalize x.passed s.config (converterBusy s) g = y at *
  have hcfg : (putScanning i y true s).config = s.config := by rw [hu]
  have hconv : (putScanning i y true s).scan.converter = s.scan.converter := by rw [hu]
  have hdue : passDue (putScanning i y true s) x.strip (x.scan.next + 1) = passDue s x.strip (x.scan.next + 1) := by
    unfold passDue
    rw [hcfg]
  rw [hconv, hdue]
  generalize putScanning i y true s = u at *
  have hv : scanningOf (addEvent (passDue s x.strip (x.scan.next + 1)) (.pass n)
      (setConverter (converterAfter n x.scan.next s.scan.converter) u)) n = some (i, y) :=
    (scanningOf_congr rfl fun k => by cases k <;> rfl).trans hput
  have hstays := endScanTest_goesOn hv (by
    show y.ended u.config.scan = false
    rw [hcfg]
    exact hend)
  rw [hstays]
  exact ⟨rfl, hv⟩

theorem converterBusy_iff : converterBusy s = true ↔ s.scan.converter ≠ none := by
  unfold converterBusy
  rw [Option.isSome_iff_ne_none]

end

/-! ### The gate sample of a pass -/

section
variable {lag : Nat} {g : GateSample} {x : Scanning}

theorem gated_strip_nothing (h : x.scan.next < lag ∨ x.scan.defect = none ∧ g.active = false) : (x.gated lag g).strip = x.strip := by
  unfold Scanning.gated
  dsimp only
  rw [takeGate_nothing h]

theorem gated_early (h : x.scan.next < lag) : (x.gated lag g).scan.defect = x.scan.defect := by
  unfold Scanning.gated
  dsimp only
  rw [takeGate_early h]

theorem gated_active (h : lag ≤ x.scan.next) (h2 : x.scan.next - lag < 2048) (hg : g.active = true) :
    (x.gated lag g).scan.defect = some (extendDefect (x.scan.next - lag) g x.scan.defect) ∧ (x.gated lag g).strip = x.strip := by
  unfold Scanning.gated
  dsimp only
  rw [takeGate_active h h2 hg]
  exact ⟨rfl, rfl⟩

theorem gated_closes (h : lag ≤ x.scan.next) (hc : g.active = false ∨ 2048 ≤ x.scan.next - lag) : (x.gated lag g).scan.defect = none := by
  unfold Scanning.gated
  dsimp only
  by_cases h2 : 2048 ≤ x.scan.next - lag
  · rw [takeGate_late h h2, closeDefect_eq]
  · rw [takeGate_clear h (Nat.not_le.mp h2) (hc.resolve_right h2), closeDefect_eq]

theorem gated_clear {d : DefectRun} (h : lag ≤ x.scan.next) (h2 : x.scan.next - lag < 2048) (hg : g.active = false)
    (hd : x.scan.defect = some d) : (x.gated lag g).strip = x.strip.enterZone ⟨.gate, d.start, x.scan.next - lag, d.severity⟩ := by
  unfold Scanning.gated
  dsimp only
  rw [takeGate_clear h h2 hg, closeDefect_some hd]

theorem gated_gauge (lag : Nat) (g : GateSample) (x : Scanning) : (x.gated lag g).scan.gauge = x.scan.gauge := by rw [gated_scan]

theorem gated_owed (lag : Nat) (g : GateSample) (x : Scanning) : (x.gated lag g).scan.owed = x.scan.owed := by rw [gated_scan]

/-- Without a DEFECT run open the gate sample leaves the strip as it is (R40). -/
theorem gated_strip_closed (h : x.scan.defect = none) : (x.gated lag g).strip = x.strip := by
  by_cases hl : x.scan.next < lag
  · exact gated_strip_nothing (.inl hl)
  · have hl := Nat.not_lt.mp hl
    cases hg : g.active with
    | false => exact gated_strip_nothing (.inr ⟨h, hg⟩)
    | true =>
      by_cases h2 : x.scan.next - lag < 2048
      · exact (gated_active hl h2 hg).2
      · unfold Scanning.gated
        dsimp only
        rw [takeGate_late hl (Nat.not_lt.mp h2), closeDefect_none h]

end

/-! ### A pass, by what its body work does -/

section
variable {cfg : Configuration} {busy : Bool} {g : GateSample} {x : Scanning}

/-- The gate sample finds the DEFECT run as the pass before left it (R39, R40). -/
theorem passed_gate : (x.body cfg busy x.scan.next).scan.next = x.scan.next ∧ (x.body cfg busy x.scan.next).scan.defect = x.scan.defect := by
  rw [body_scan]
  exact ⟨rfl, rfl⟩

theorem passed_early (h : x.scan.next < cfg.scan.lag) : (x.passed cfg busy g).scan.defect = x.scan.defect := by
  obtain ⟨hn, hd⟩ := passed_gate (cfg := cfg) (busy := busy) (x := x)
  exact (gated_early (by rw [hn]; exact h)).trans hd

theorem passed_active (h : cfg.scan.lag ≤ x.scan.next) (h2 : x.scan.next - cfg.scan.lag < 2048) (hg : g.active = true) :
    (x.passed cfg busy g).scan.defect = some (extendDefect (x.scan.next - cfg.scan.lag) g x.scan.defect) := by
  obtain ⟨hn, hd⟩ := passed_gate (cfg := cfg) (busy := busy) (x := x)
  have hall := (gated_active (lag := cfg.scan.lag) (x := x.body cfg busy x.scan.next) (by rw [hn]; exact h) (by rw [hn]; exact h2) hg).1
  rw [hn, hd] at hall
  exact hall

theorem passed_closes (h : cfg.scan.lag ≤ x.scan.next) (hc : g.active = false ∨ 2048 ≤ x.scan.next - cfg.scan.lag) :
    (x.passed cfg busy g).scan.defect = none := by
  obtain ⟨hn, -⟩ := passed_gate (cfg := cfg) (busy := busy) (x := x)
  exact gated_closes (by rw [hn]; exact h) (by rw [hn]; exact hc)

/-- With the gate quiet and no DEFECT run open, or before the lag, the strip is as the body work leaves it (R39). -/
theorem passed_quiet (h : x.scan.next < cfg.scan.lag ∨ x.scan.defect = none ∧ g.active = false) :
    (x.passed cfg busy g).strip = (x.body cfg busy x.scan.next).strip := by
  obtain ⟨hn, hd⟩ := passed_gate (cfg := cfg) (busy := busy) (x := x)
  exact gated_strip_nothing (by rw [hn, hd]; exact h)

theorem passed_flags : (x.passed cfg busy g).strip.flags.sparse = (x.body cfg busy x.scan.next).strip.flags.sparse ∧
    (x.passed cfg busy g).strip.flags.overlength = (x.body cfg busy x.scan.next).strip.flags.overlength := by
  obtain ⟨h1, h2, -⟩ := (gated_zonesOnly cfg.scan.lag g (x.body cfg busy x.scan.next)).flags
  exact ⟨h1, h2⟩

theorem passed_slots : (x.passed cfg busy g).slots = (x.body cfg busy x.scan.next).slots := gated_slots _ _ _

theorem passed_gauge : (x.passed cfg busy g).scan.gauge = (x.body cfg busy x.scan.next).scan.gauge := gated_gauge _ _ _

theorem passed_owed : (x.passed cfg busy g).scan.owed = (x.body cfg busy x.scan.next).scan.owed := gated_owed _ _ _

/-- With the converter idle the pass is owed its samples (R32). -/
theorem passed_free (h : x.scan.next < 2048) (hb : busy = false) : (x.passed cfg busy g).slots = x.slots ∧
    (x.passed cfg busy g).scan.owed = x.scan.owed + 1 ∧ (x.passed cfg busy g).scan.gauge = x.scan.gauge ∧
    (x.passed cfg busy g).strip.flags.sparse = x.strip.flags.sparse := by
  rw [passed_slots, passed_owed, passed_gauge, passed_flags.1, body_free h hb]
  exact ⟨rfl, rfl, rfl, rfl⟩

/-- A DEFECT run closed by the gate sample of a pass with the converter idle (R40). -/
theorem passed_free_clear {d : DefectRun} (h : x.scan.next < 2048) (hb : busy = false) (hl : cfg.scan.lag ≤ x.scan.next)
    (hg : g.active = false ∨ 2048 ≤ x.scan.next - cfg.scan.lag) (hd : x.scan.defect = some d) :
    (x.passed cfg busy g).strip = x.strip.enterZone ⟨.gate, d.start, x.scan.next - cfg.scan.lag, d.severity⟩ := by
  have h2 : x.scan.next - cfg.scan.lag < 2048 := by omega
  obtain ⟨hn, hde⟩ := passed_gate (cfg := cfg) (busy := busy) (x := x)
  have hall := gated_clear (lag := cfg.scan.lag) (x := x.body cfg busy x.scan.next) (by rw [hn]; exact hl) (by rw [hn]; exact h2)
    (hg.resolve_right (Nat.not_le.mpr h2)) (hde.trans hd)
  rw [hn] at hall
  unfold Scanning.passed
  rw [hall, body_free h hb]

/-- With the converter busy the pass is held, SPARSE (R33). -/
theorem passed_held (h : x.scan.next < 2048) (hb : busy = true) : (x.passed cfg busy g).scan.owed = x.scan.owed + 1 ∧
    (x.passed cfg busy g).strip.flags.sparse = true := by
  rw [passed_owed, passed_flags.1]
  by_cases hs : x.slots.length = x.scan.next
  · rw [body_held_copied h hb hs]
    have hw := file_work cfg.channels (heldSlot cfg x.slots)
      { x with strip := x.strip.sparsely, scan := { x.scan with owed := x.scan.owed + 1 } }
    exact ⟨by rw [hw.scan], hw.zonesOnly.flags.1⟩
  · rw [body_held_waits h hb hs]
    exact ⟨rfl, rfl⟩

/-- A held pass behind passes still owed their samples waits for them (R33). -/
theorem passed_waits (h : x.scan.next < 2048) (hb : busy = true) (hs : x.slots.length ≠ x.scan.next) :
    (x.passed cfg busy g).slots = x.slots ∧ (x.passed cfg busy g).scan.gauge = x.scan.gauge := by
  rw [passed_slots, passed_gauge, body_held_waits h hb hs]
  exact ⟨rfl, rfl⟩

/-- A held pass right behind its samples is their copy, which the window comparators test (R33, R41, R42). -/
theorem passed_copied (h : x.scan.next < 2048) (hb : busy = true) (hs : x.slots.length = x.scan.next) :
    (x.passed cfg busy g).slots = x.slots ++ [heldSlot cfg x.slots] ∧
    GaugeRunsAt cfg.channels (heldSlot cfg x.slots).samples x.scan.next x.scan.gauge (x.passed cfg busy g).scan.gauge ∧
    (x.scan.next < cfg.scan.lag ∨ x.scan.defect = none ∧ g.active = false →
      RunsClosed cfg.channels x.scan.gauge x.scan.next (fun k => ¬ChannelFailsAt cfg.channels (heldSlot cfg x.slots).samples k)
        x.strip.sparsely (x.passed cfg busy g).strip) := by
  have hw := file_work cfg.channels (heldSlot cfg x.slots)
    { x with strip := x.strip.sparsely, scan := { x.scan with owed := x.scan.owed + 1 } }
  rw [passed_slots, passed_gauge]
  refine ⟨?_, ?_, fun hq => ?_⟩
  · rw [body_held_copied h hb hs]
    exact hw.slots
  · rw [body_held_copied h hb hs, ← hs]
    exact hw.runsAt
  · rw [passed_quiet hq, body_held_copied h hb hs, ← hs]
    exact hw.runsClosed (channelFails_eq_false cfg.channels (heldSlot cfg x.slots).samples)

/-- Pass 2048 closes every GAUGE run (R37, R42). -/
theorem passed_last (h : x.scan.next = 2048) : (∀ c : Channel, (x.passed cfg busy g).scan.gauge[c] = none) ∧
    (x.scan.next < cfg.scan.lag ∨ x.scan.defect = none ∧ g.active = false →
      RunsClosed cfg.channels x.scan.gauge 2048 (fun _ => True) x.strip.overlong (x.passed cfg busy g).strip) := by
  have hw := closeGauges_work cfg.channels 2048 { x with strip := x.strip.overlong }
  refine ⟨fun c => ?_, fun hq => ?_⟩
  · rw [passed_gauge, body_last h]
    exact hw.passed c (mem_allChannels c) rfl
  · rw [passed_quiet hq, body_last h]
    exact hw.runsClosed (fun _ => by simp)

theorem passed_beyond (h : 2048 < x.scan.next) : (x.passed cfg busy g).scan.gauge = x.scan.gauge := by
  rw [passed_gauge, body_overlength h]

/-- From pass 2048 on no slot is filled, and the strip is OVERLENGTH (R37). -/
theorem passed_overlength (h : 2048 ≤ x.scan.next) : (x.passed cfg busy g).slots = x.slots ∧
    (x.passed cfg busy g).strip.flags.overlength = true := by
  rw [passed_slots, passed_flags.2]
  obtain h | h := Nat.eq_or_lt_of_le h
  · have hw := closeGauges_work cfg.channels 2048 { x with strip := x.strip.overlong }
    rw [body_last h.symm]
    exact ⟨hw.slots, hw.zonesOnly.flags.2.1⟩
  · rw [body_overlength h]
    exact ⟨rfl, rfl⟩

end

end Sys2Proof.Machine
end

