-- ==== Sys2Proof/Proofs/ScanWindows.lean ====
section
/-! PROOFS. A scan window opening (R30, R39): the tails it cuts, the passes it withdraws, and the scan it starts. -/

namespace Sys2Proof.Machine

/-! ### A tail cut -/

/-- A scan in progress whose tail is cut (R39). -/
def Scanning.tailCut (x : Scanning) : Scanning :=
  { x with strip := { x.strip with flags := { x.strip.flags with tailCut := true } }, scan := { x.scan with cut := true } }

theorem tailCut_tailCut (x : Scanning) : x.tailCut.tailCut = x.tailCut := rfl

theorem tailCut_scanKept (x : Scanning) : x.strip.ScanKept x.tailCut.strip := rfl

theorem tailCut_ended_iff {c : ScanConfig} {x : Scanning} : x.tailCut.ended c = true ↔ x.scan.owed ≤ x.slots.length := by
  rw [ended_iff]
  exact ⟨fun h => h.2, fun h => ⟨.inl rfl, h⟩⟩

theorem cutTail_eq {s : State} {n : Nat} {i : StoreId} {x : Scanning} (h : scanningOf s n = some (i, x)) :
    cutTail s n = endScanTest n (putScanning i x.tailCut true (withdraw (fun k => k == .pass n) s)) := by
  unfold cutTail
  rw [h]
  rfl

theorem cutTail_idle {s : State} {n : Nat} (h : scanningOf s n = none) : cutTail s n = s := by
  unfold cutTail
  rw [h]

/-- The strip of a scan that ends keeps the flag TAIL_CUT, as the zones that close leave it. -/
theorem finish_tailCut (cfg : Configuration) (x : Scanning) : (x.finish cfg).strip.flags.tailCut = x.strip.flags.tailCut := by
  have h := (closeDefect_zonesOnly x (x.scan.next - cfg.scan.lag)).trans
    (closeGauges_work cfg.channels x.slots.length (x.closeDefect (x.scan.next - cfg.scan.lag))).zonesOnly
  unfold Scanning.finish
  dsimp only
  generalize (x.closeDefect (x.scan.next - cfg.scan.lag)).closeGauges cfg.channels x.slots.length = y at h
  exact h.flags.2.2

/-- The events that are no passes. -/
def passFree (l : List PosEvent) : List PosEvent := l.filter (fun e => !e.what.isPass)

theorem passFree_withdraw (n : Nat) (l : List PosEvent) : passFree (l.filter (fun e => !(e.what == .pass n))) = passFree l := by
  unfold passFree
  rw [List.filter_filter]
  refine List.filter_congr fun e _ => ?_
  by_cases h : e.what = .pass n
  · simp [h, EventKind.isPass]
  · simp [h]

theorem passFree_passFree (l : List PosEvent) : passFree (passFree l) = passFree l := by
  unfold passFree
  simp

/-- From s to t the tail of strip n, scanning as x with store i, is cut (R30, R39): with samples still owed it scans on for them, and otherwise its
scan has ended. -/
structure TailCut (n : Nat) (i : StoreId) (x : Scanning) (s t : State) : Prop where
  goesOn : x.slots.length < x.scan.owed → scanningOf t n = some (i, x.tailCut) ∧ t.planner = s.planner ∧ t.cuttings = s.cuttings ∧ t.line = s.line
  ended : x.scan.owed ≤ x.slots.length → ∃ y, findStrip t n = some y ∧ y.state = .waitingPlan ∧ y.store = some i ∧ y.flags.tailCut = true
  strips : ∀ m, m ≠ n → findStrip t m = findStrip s m
  stores : ∀ k, k ≠ i → t.scan.store k = s.scan.store k
  holder : (t.scan.store i).holder = (s.scan.store i).holder
  converter : t.scan.converter = s.scan.converter
  config : t.config = s.config
  motion : t.motion = { s.motion with events := t.motion.events }
  events : passFree t.motion.events = passFree s.motion.events

theorem TailCut.trans {n : Nat} {i : StoreId} {x : Scanning} {s t u : State} (h : TailCut n i x s t) (k : TailCut n i x.tailCut t u) :
    TailCut n i x s u where
  goesOn hl := by
    obtain ⟨-, h1, h2, h3⟩ := h.goesOn hl
    obtain ⟨k0, k1, k2, k3⟩ := k.goesOn hl
    exact ⟨k0, k1.trans h1, k2.trans h2, k3.trans h3⟩
  ended := k.ended
  strips m hm := (k.strips m hm).trans (h.strips m hm)
  stores j hj := (k.stores j hj).trans (h.stores j hj)
  holder := k.holder.trans h.holder
  converter := k.converter.trans h.converter
  config := k.config.trans h.config
  motion := by rw [k.motion, h.motion]
  events := k.events.trans h.events

theorem cutTail_cuts {s : State} {n : Nat} {i : StoreId} {x : Scanning} (h : scanningOf s n = some (i, x)) :
    TailCut n i x s (cutTail s n) := by
  have hnum : x.tailCut.strip.number = n := scanningOf_number (x := x) h
  have hput := scanningOf_putScanning (s := withdraw (fun k => k == .pass n) s) ((scanningOf_congr rfl fun _ => rfl).trans h) (tailCut_scanKept x)
  have hu := putScanning_eq (withdraw (fun k => k == .pass n) s) i x.tailCut true
  have hstrips := fun m hm => putScanning_findStrip_other (s := withdraw (fun k => k == .pass n) s) (i := i) (keep := true) (m := m) hnum hm
  have hstores := fun k hk => putScanning_otherStore (withdraw (fun k => k == .pass n) s) i x.tailCut true (k := k) hk
  have hstore := putScanning_store (withdraw (fun k => k == .pass n) s) i x.tailCut true
  rw [cutTail_eq h]
  generalize putScanning i x.tailCut true (withdraw (fun k => k == .pass n) s) = u at *
  have hholder : (u.scan.store i).holder = (s.scan.store i).holder := by rw [hstore]; rfl
  have hconv : u.scan.converter = s.scan.converter := by rw [hu]; rfl
  have hcfg : u.config = s.config := by rw [hu]; rfl
  have hmotion : u.motion = { s.motion with events := s.motion.events.filter (fun e => !(e.what == .pass n)) } := by rw [hu]; rfl
  obtain ⟨he, ht⟩ | ⟨he, ht⟩ := endScanTest_cases hput
  · rw [ht]
    exact {
      goesOn := fun _ => ⟨hput, by rw [hu]; rfl, by rw [hu]; rfl, by rw [hu]; rfl⟩
      ended := fun hl => absurd ((tailCut_ended_iff (c := u.config.scan)).mpr hl) (by rw [he]; decide)
      strips := hstrips
      stores := hstores
      holder := hholder
      converter := hconv
      config := hcfg
      motion := by rw [hmotion]
      events := by rw [hmotion]; exact passFree_withdraw n _ }
  · generalize endScanTest n u = t at ht
    obtain ⟨pr, hp⟩ := ht.strip
    have hev : t.motion = { u.motion with events := u.motion.events.filter (fun e => !(e.what == .pass n)) } := by rw [ht.eq]
    exact {
      goesOn := fun hl => absurd (tailCut_ended_iff.mp he) (Nat.not_le.mpr hl)
      ended := fun _ => by
        obtain ⟨w, hw, hfin, -⟩ := finish_strip u.config x.tailCut
        have htail := finish_tailCut u.config x.tailCut
        rw [hfin] at hp htail
        exact ⟨_, hp, rfl, hw.store.trans (scanningOf_iff.mp h).2.2.1, htail⟩
      strips := fun m hm => (ht.strips m hm).trans (hstrips m hm)
      stores := fun k hk => (ht.otherStore k hk).trans (hstores k hk)
      holder := by rw [ht.store]; exact hholder
      converter := by rw [ht.eq]; exact hconv
      config := by rw [ht.eq]; exact hcfg
      motion := by rw [hev, hmotion]
      events := by rw [hev, hmotion]; exact (passFree_withdraw n _).trans (passFree_withdraw n _) }

/-- A tail already cut stays as it is. -/
theorem TailCut.again {n : Nat} {i : StoreId} {x : Scanning} {s t : State} (h : TailCut n i x s t) : TailCut n i x s (cutTail t n) := by
  by_cases hl : x.slots.length < x.scan.owed
  · exact h.trans (cutTail_cuts (h.goesOn hl).1)
  · obtain ⟨y, hy, hst, -⟩ := h.ended (Nat.not_lt.mp hl)
    rw [cutTail_idle (scanningOf_none fun r hr => ?_)]
    · exact h
    · rw [Option.some.inj (hr.symm.trans hy), hst]
      decide

theorem foldl_cutTail {n : Nat} {i : StoreId} {x : Scanning} {s : State} (h : scanningOf s n = some (i, x)) {l : List Nat} (hne : l ≠ [])
    (hl : ∀ m ∈ l, m = n) : TailCut n i x s (l.foldl cutTail s) := by
  have hmore : ∀ (l : List Nat) (t : State), (∀ m ∈ l, m = n) → TailCut n i x s t → TailCut n i x s (l.foldl cutTail t) := by
    intro l
    induction l with
    | nil => exact fun _ _ ht => ht
    | cons m l ih =>
      intro t hl ht
      obtain rfl := hl m (by simp)
      exact ih _ (fun k hk => hl k (by simp [hk])) ht.again
  cases l with
  | nil => exact absurd rfl hne
  | cons m l =>
    obtain rfl := hl m (by simp)
    exact hmore l _ (fun k hk => hl k (by simp [hk])) (cutTail_cuts h)

/-- The scan window of another strip cuts the one tail that still scans and withdraws every pass (R30, R39). -/
theorem cutTails_cuts {n : Nat} {i : StoreId} {x : Scanning} {s : State} (h : scanningOf s n = some (i, x)) (hc : x.scan.cut = false)
    (hp : x.passesDone s.config.scan = false) (ho : ∀ y ∈ s.belt.strips, y.number ≠ n → passesGoOn s y = false) :
    TailCut n i x s (cutTails s) ∧ (cutTails s).motion.events = passFree s.motion.events := by
  have hgo : passesGoOn s x.strip = true := by
    unfold passesGoOn
    rw [scanningOf_number h, h]
    dsimp only
    rw [hc, hp]
    rfl
  have hcut := foldl_cutTail h (l := (s.belt.strips.filter (passesGoOn s)).map Strip.number)
    (List.ne_nil_of_mem (List.mem_map_of_mem (List.mem_filter.mpr ⟨findStrip_mem (scanningOf_findStrip h), hgo⟩)))
    (fun m hm => by
      obtain ⟨y, hy, rfl⟩ := List.mem_map.mp hm
      obtain ⟨hmem, hgoes⟩ := List.mem_filter.mp hy
      by_contra hne
      exact absurd hgoes (by simp [ho y hmem hne]))
  unfold cutTails
  generalize ((s.belt.strips.filter (passesGoOn s)).map Strip.number).foldl cutTail s = t at hcut
  refine ⟨{ hcut with motion := ?_, events := ?_ }, hcut.events⟩
  · unfold withdraw
    rw [hcut.motion]
  · exact (passFree_passFree _).trans hcut.events

/-! ### A scan started -/

/-- The one store that is free is the one a strip takes (R30). -/
theorem freeStoreId_of_one {s : State} {i : StoreId} (h : ∀ k : StoreId, (s.scan.store k).holder = none ↔ k ≠ i) :
    ∃ k, k ≠ i ∧ freeStoreId s = some k := by
  have ha : s.scan.storeA.holder = none ↔ StoreId.a ≠ i := h .a
  have hb : s.scan.storeB.holder = none ↔ StoreId.b ≠ i := h .b
  unfold freeStoreId
  cases i with
  | a => exact ⟨.b, by decide, by rw [if_neg (fun k => absurd rfl (ha.mp k)), if_pos (hb.mpr (by decide))]⟩
  | b => exact ⟨.a, by decide, if_pos (ha.mpr (by decide))⟩

/-- A strip record as its scan starts (R30). -/
def Strip.scanStarted (i : StoreId) (r : Strip) : Strip := { r with state := .scanning, store := some i }

/-- A scan in progress as it starts (R30). -/
def freshScanning (i : StoreId) (r : Strip) : Scanning := ⟨r.scanStarted i, [], .fresh⟩

section
variable {s : State} {n : Nat} {i : StoreId} {r : Strip}

theorem startScan_eq (n : Nat) (i : StoreId) (s : State) : startScan n i s = { s with
    belt := (startScan n i s).belt, scan := { s.scan with storeA := (startScan n i s).scan.storeA, storeB := (startScan n i s).scan.storeB } } := by
  unfold startScan mapStrip mapStore
  cases i <;> rfl

theorem startScan_findStrip (m : Nat) : findStrip (startScan n i s) m =
    if m = n then (findStrip s m).map (Strip.scanStarted i) else findStrip s m := by
  have h : (startScan n i s).belt = (mapStrip n (Strip.scanStarted i) s).belt := by
    unfold startScan mapStrip mapStore
    cases i <;> rfl
  rw [← findStrip_mapStrip m n (f := Strip.scanStarted i) s fun _ => rfl]
  unfold findStrip
  rw [h]

theorem startScan_store : (startScan n i s).scan.store i = { holder := some n, slots := [], scan := some .fresh } := by
  unfold startScan mapStrip mapStore ScanUnit.store
  cases i <;> rfl

theorem startScan_otherStore {k : StoreId} (h : k ≠ i) : (startScan n i s).scan.store k = s.scan.store k := by
  unfold startScan mapStrip mapStore ScanUnit.store
  cases i <;> cases k <;> first | rfl | exact absurd rfl h

theorem startScan_scans (h : findStrip s n = some r) : scanningOf (startScan n i s) n = some (i, freshScanning i r) := by
  refine scanningOf_iff.mpr ⟨?_, rfl, rfl, ?_, ?_⟩
  · rw [startScan_findStrip, if_pos rfl, h]
    rfl
  · rw [startScan_store]
    rfl
  · rw [startScan_store]
    rfl

end

/-- The placeholder's channels never fail, being saturated (R33, R41). -/
theorem placeholder_stand (cfg : Configuration) : RunsStand cfg.channels (placeholder cfg).samples ScanProgress.fresh.gauge := by
  intro c
  have hf : channelFails cfg.channels (placeholder cfg).samples c = false := by
    rw [channelFails_eq_false]
    rintro ⟨-, m, hm, hc, hs, -⟩
    obtain ⟨d, -, rfl⟩ := List.mem_map.mp hm
    exact absurd (show true = false from hs) (by decide)
  have hr : runAt ScanProgress.fresh.gauge c = none := by
    unfold runAt ScanProgress.fresh
    exact Vector.getElem_replicate _
  rw [hf, hr]
  rfl

/-- The first pass of a scan (R31 to R33): with the converter idle it is owed its samples, and with it busy the placeholder fills its slot. -/
theorem freshScanning_passed (cfg : Configuration) (busy : Bool) (g : GateSample) (i : StoreId) (r : Strip) :
    (busy = false → ((freshScanning i r).passed cfg busy g).slots = [] ∧ ((freshScanning i r).passed cfg busy g).strip = r.scanStarted i) ∧
    (busy = true → ((freshScanning i r).passed cfg busy g).slots = [placeholder cfg] ∧
      ((freshScanning i r).passed cfg busy g).strip = (r.scanStarted i).sparsely) ∧
    ((freshScanning i r).passed cfg busy g).scan.owed = 1 := by
  have hj : (freshScanning i r).scan.next < 2048 := Nat.zero_lt_succ 2047
  have hd : ((freshScanning i r).body cfg busy 0).scan.defect = none := by
    rw [body_scan]
    rfl
  have hstrip : ((freshScanning i r).passed cfg busy g).strip = ((freshScanning i r).body cfg busy 0).strip := gated_strip_closed hd
  rw [hstrip, passed_slots, passed_owed]
  refine ⟨fun hb => ?_, fun hb => ?_, ?_⟩
  · rw [body_free hj hb, body_free (Nat.zero_lt_succ _) hb]
    exact ⟨rfl, rfl⟩
  · have hfile : Scanning.file cfg.channels (heldSlot cfg (freshScanning i r).slots) { freshScanning i r with
        strip := (freshScanning i r).strip.sparsely
        scan := { (freshScanning i r).scan with owed := (freshScanning i r).scan.owed + 1 } } = { freshScanning i r with
        strip := (freshScanning i r).strip.sparsely, slots := [placeholder cfg]
        scan := { (freshScanning i r).scan with owed := (freshScanning i r).scan.owed + 1 } } := file_stand (placeholder_stand cfg)
    rw [body_held_copied hj hb rfl, body_held_copied (Nat.zero_lt_succ _) hb rfl, hfile]
    exact ⟨rfl, rfl⟩
  · cases busy with
    | false => rw [body_free hj rfl]; rfl
    | true =>
      rw [body_held_copied hj rfl rfl, (file_work _ _ _).scan]
      rfl

/-- From s to t the scan of strip m, which still covers IE, starts in store k with its pass 0 taken and pass 1 registered at q (R30, R31). -/
structure ScanStarted (m : Nat) (k : StoreId) (y : Scanning) (q : Word) (s t : State) : Prop where
  scan : scanningOf t m = some (k, y)
  holder : (t.scan.store k).holder = some m
  converter : t.scan.converter = converterAfter m 0 s.scan.converter
  motion : t.motion = { s.motion with events := s.motion.events ++ [⟨q, .pass m⟩] }
  strips : ∀ n, n ≠ m → findStrip t n = findStrip s n
  stores : ∀ i, i ≠ k → t.scan.store i = s.scan.store i
  rest : t.planner = s.planner ∧ t.cuttings = s.cuttings ∧ t.line = s.line

theorem takePass_started {s : State} {m : Nat} {r : Strip} (g : GateSample) (k : StoreId) (hf : findStrip s m = some r) (ht : r.trail = none) :
    ScanStarted m k ((freshScanning k r).passed s.config (converterBusy s) g)
      (plusTicks r.lead (s.config.motion.offSH + s.config.scan.pitch)) s (takePass m g (startScan m k s)) := by
  have hu := startScan_eq m k s
  have hfresh := startScan_scans (i := k) hf
  have hnum : (freshScanning k r).strip.number = m := scanningOf_number hfresh
  have hstrips : ∀ n, n ≠ m → findStrip (startScan m k s) n = findStrip s n := fun n hn => by rw [startScan_findStrip, if_neg hn]
  have hstores := fun i hi => startScan_otherStore (s := s) (n := m) (i := k) (k := i) hi
  have hstore := startScan_store (s := s) (n := m) (i := k)
  obtain ⟨heq, hscan⟩ := takePass_covered (g := g) hfresh ht rfl
  generalize startScan m k s = u at *
  have hcfg : u.config = s.config := by rw [hu]
  have hconv : u.scan.converter = s.scan.converter := by rw [hu]
  have hbusy : converterBusy u = converterBusy s := by
    unfold converterBusy
    rw [hconv]
  have hdue : passDue u (freshScanning k r).strip ((freshScanning k r).scan.next + 1) =
      plusTicks r.lead (s.config.motion.offSH + s.config.scan.pitch) := by
    unfold passDue
    rw [hcfg]
    show plusTicks r.lead (s.config.motion.offSH + (0 + 1) * s.config.scan.pitch) = _
    rw [Nat.zero_add, Nat.one_mul]
  have hk := passed_scanKept s.config (converterBusy s) g (freshScanning k r)
  rw [hcfg, hbusy] at hscan heq
  rw [hdue, hconv] at heq
  rw [heq] at hscan ⊢
  generalize (freshScanning k r).passed s.config (converterBusy s) g = y at *
  have hp := putScanning_eq u k y true
  have hpstore := putScanning_store u k y true
  have hpstores := fun i hi => putScanning_otherStore u k y true (k := i) hi
  have hpstrips := fun n hn => putScanning_findStrip_other (s := u) (i := k) (keep := true) (m := n) (hk.number.trans hnum) hn
  generalize putScanning k y true u = v at *
  have hsame : ∀ (q : Word) (e : EventKind) (c : Option Conversion) (i : StoreId),
      (addEvent q e (setConverter c v)).scan.store i = v.scan.store i := fun _ _ _ i => by cases i <;> rfl
  refine ⟨hscan, ?_, rfl, ?_, fun n hn => (hpstrips n hn).trans (hstrips n hn), fun i hi => ?_, ?_⟩
  · rw [hsame, hpstore, hstore]
  · unfold addEvent setConverter
    rw [hp, hu]
  · rw [hsame]
    exact (hpstores i hi).trans (hstores i hi)
  · show v.planner = s.planner ∧ v.cuttings = s.cuttings ∧ v.line = s.line
    rw [hp, hu]
    exact ⟨rfl, rfl, rfl⟩

theorem openScan_covered {s : State} {m : Nat} {r : Strip} {k : StoreId} {p : Word} {g : GateSample} (hk : freeStoreId s = some k)
    (ht : r.trail = none) (hn : r.number = m) (hm : s.motion.mark = p)
    (ha : ∀ e ∈ (takePass m g (startScan m k s)).motion.events, isAfter e.pos (takePass m g (startScan m k s)).motion.mark = true) :
    openScan r p g s = takePass m g (startScan m k s) := by
  have hmark : (startScan m k s).motion.mark = p := by
    rw [startScan_eq]
    exact hm
  unfold openScan
  rw [hk]
  dsimp only
  rw [if_neg (by simp [ht]), hn]
  exact takePasses_one hmark rfl ha

theorem takeScanOpen_shut {s : State} {m : Nat} {r : Strip} {p : Word} {g : GateSample} (hf : findStrip (cutTails s) m = some r)
    (h1 : r.state ≠ .entering) (h2 : r.state ≠ .clearedIe) : takeScanOpen m p g s = cutTails s := by
  unfold takeScanOpen
  dsimp only
  rw [hf]
  dsimp only
  split
  · rename_i h
    exact absurd h h1
  · rename_i h
    exact absurd h h2
  · rfl

theorem takeScanOpen_opens {s : State} {m : Nat} {r : Strip} {p : Word} {g : GateSample} (hf : findStrip (cutTails s) m = some r)
    (h1 : r.state = .entering) : takeScanOpen m p g s = openScan r p g (cutTails s) := by
  unfold takeScanOpen
  dsimp only
  rw [hf]
  dsimp only
  rw [h1]

/-! ### The events a scan window leaves -/

/-- From s to t no event is registered, and the mark stands. -/
structure EventsFall (s t : State) : Prop where
  events : t.motion.events.Sublist s.motion.events
  mark : t.motion.mark = s.motion.mark

theorem EventsFall.refl (s : State) : EventsFall s s := ⟨List.Sublist.refl _, rfl⟩

theorem EventsFall.trans {a b c : State} (h : EventsFall a b) (k : EventsFall b c) : EventsFall a c :=
  ⟨k.events.trans h.events, k.mark.trans h.mark⟩

theorem withdraw_falls (p : EventKind → Bool) (s : State) : EventsFall s (withdraw p s) := ⟨List.filter_sublist, rfl⟩

theorem putScanning_falls (i : StoreId) (x : Scanning) (keep : Bool) (s : State) : EventsFall s (putScanning i x keep s) := by
  rw [putScanning_eq]
  exact ⟨List.Sublist.refl _, rfl⟩

theorem endScanTest_falls (n : Nat) (s : State) : EventsFall s (endScanTest n s) := by
  cases h : scanningOf s n with
  | none =>
    rw [endScanTest_idle h]
    exact .refl s
  | some q =>
    obtain ⟨-, ht⟩ | ⟨-, ht⟩ := endScanTest_cases h
    · rw [ht]
      exact .refl s
    · rw [ht.eq]
      exact ⟨List.filter_sublist, rfl⟩

theorem cutTail_falls (s : State) (n : Nat) : EventsFall s (cutTail s n) := by
  cases h : scanningOf s n with
  | none =>
    rw [cutTail_idle h]
    exact .refl s
  | some q =>
    rw [cutTail_eq h]
    exact ((withdraw_falls _ s).trans (putScanning_falls _ _ _ _)).trans (endScanTest_falls _ _)

/-- After the tails have ended no pass is registered (R30; log 38). -/
theorem cutTails_falls (s : State) : EventsFall s (cutTails s) ∧ ∀ e ∈ (cutTails s).motion.events, e.what.isPass = false := by
  have hfold : ∀ (l : List Nat) (t : State), EventsFall t (l.foldl cutTail t) := by
    intro l
    induction l with
    | nil => exact fun t => .refl t
    | cons m l ih => exact fun t => (cutTail_falls t m).trans (ih _)
  refine ⟨(hfold _ s).trans (withdraw_falls _ _), fun e he => ?_⟩
  simpa using (List.mem_filter.mp he).2

/-- A pass taken registers the next at most (R31). -/
theorem takePass_events (n : Nat) (g : GateSample) (s : State) :
    (takePass n g s).motion.mark = s.motion.mark ∧ ∃ q, (takePass n g s).motion.events.Sublist (s.motion.events ++ [⟨q, .pass n⟩]) := by
  cases h : scanningOf s n with
  | none =>
    have ht : takePass n g s = s := by
      unfold takePass
      rw [h]
    rw [ht]
    exact ⟨rfl, 0, List.sublist_append_left _ _⟩
  | some x =>
    obtain ⟨i, x⟩ := x
    rw [takePass_eq g h]
    have hb := putScanning_falls i (x.pass s.config (converterBusy s) g) true s
    generalize putScanning i (x.pass s.config (converterBusy s) g) true s = u at hb
    have hc : ∀ j, (beginConversion x.strip j u).motion = u.motion := by
      intro j
      unfold beginConversion
      split <;> rfl
    have hr : ∀ j (v : State), (registerPass x.strip j v).motion.mark = v.motion.mark ∧
        ∃ q, (registerPass x.strip j v).motion.events.Sublist (v.motion.events ++ [⟨q, .pass n⟩]) := by
      intro j v
      unfold registerPass
      split
      · exact ⟨rfl, 0, List.sublist_append_left _ _⟩
      · rw [scanningOf_number h]
        exact ⟨rfl, _, List.Sublist.refl _⟩
    obtain ⟨hm, q, hq⟩ := hr x.scan.next (beginConversion x.strip x.scan.next u)
    have he := endScanTest_falls n (registerPass x.strip x.scan.next (beginConversion x.strip x.scan.next u))
    rw [hc] at hm hq
    exact ⟨he.mark.trans (hm.trans hb.mark), q, he.events.trans (hq.trans (hb.events.append (List.Sublist.refl _)))⟩

/-- What lies behind a pass taken at the mark among events that are no passes: those, and the pass of its own strip registered ahead. -/
theorem takePasses_events {s : State} {n : Nat} {g : GateSample} {p : Word} (hm : s.motion.mark = p)
    (hp : ∀ e ∈ s.motion.events, e.what.isPass = false) (ha : ∀ e ∈ s.motion.events, isAfter e.pos p = true) :
    (takePasses n g (passFuel s p) s).motion.mark = p ∧ ∀ e ∈ (takePasses n g (passFuel s p) s).motion.events,
      isAfter e.pos p = true ∧ (e.what.isPass = true → e.what = .pass n) := by
  obtain ⟨hmark, q, hq⟩ := takePass_events n g s
  rw [hm] at hmark
  have hold : ∀ e ∈ s.motion.events, isAfter e.pos p = true ∧ (e.what.isPass = true → e.what = .pass n) :=
    fun e he => ⟨ha e he, fun h => absurd h (by simp [hp e he])⟩
  rw [passFuel_at hm]
  unfold takePasses
  dsimp only
  generalize takePass n g s = t at hmark hq
  have hall : ∀ e ∈ t.motion.events, isAfter e.pos p = true ∨ e = ⟨q, .pass n⟩ := fun e he =>
    (List.mem_append.mp (hq.subset he)).imp (fun h => ha e h) List.mem_singleton.mp
  have hkind : ∀ e ∈ t.motion.events, e.what.isPass = true → e.what = .pass n := by
    intro e he hpass
    obtain h | h := List.mem_append.mp (hq.subset he)
    · exact absurd hpass (by simp [hp e h])
    · rw [List.mem_singleton.mp h]
  cases hd : duePass n t with
  | none =>
    refine ⟨hmark, fun e he => ⟨(hall e he).elim id fun heq => ?_, hkind e he⟩⟩
    have hno := List.find?_eq_none.mp hd e he
    rw [heq] at hno ⊢
    simpa [reached, hmark] using hno
  | some e =>
    have hsome := List.find?_some hd
    have hmem := List.mem_of_find?_eq_some hd
    simp only [reached, hmark, Bool.and_eq_true, beq_iff_eq, Bool.not_eq_true'] at hsome
    have hnew : e = ⟨q, .pass n⟩ := (hall e hmem).resolve_left (by simp [hsome.2])
    have hnot : (⟨q, .pass n⟩ : PosEvent) ∉ s.motion.events := fun h => absurd (hp _ h) (by simp [EventKind.isPass])
    have hsub : (t.motion.events.erase e).Sublist s.motion.events := by
      have h := hq.erase e
      rw [hnew] at h ⊢
      rwa [List.erase_append_right _ hnot, List.erase_cons_head, List.append_nil] at h
    exact ⟨hmark, fun x hx => hold x (hsub.subset hx)⟩

/-- A scan window opening taken at the mark, with the other events ahead: the events left are ahead, and the passes among them are the strip's own
(R30). -/
theorem takeScanOpen_events {s : State} {n : Nat} {g : GateSample} {p : Word} (hm : s.motion.mark = p)
    (ha : ∀ e ∈ s.motion.events, isAfter e.pos p = true) :
    (takeScanOpen n p g s).motion.mark = p ∧ ∀ e ∈ (takeScanOpen n p g s).motion.events,
      isAfter e.pos p = true ∧ (e.what.isPass = true → e.what = .pass n) := by
  obtain ⟨hfall, hfree⟩ := cutTails_falls s
  have hmark : (cutTails s).motion.mark = p := hfall.mark.trans hm
  have hahead : ∀ e ∈ (cutTails s).motion.events, isAfter e.pos p = true := fun e he => ha e (hfall.events.subset he)
  unfold takeScanOpen
  dsimp only
  generalize cutTails s = u at hmark hfree hahead
  have hstay : ∀ v : State, EventsFall u v → v.motion.mark = p ∧ ∀ e ∈ v.motion.events,
      isAfter e.pos p = true ∧ (e.what.isPass = true → e.what = .pass n) := fun v hv =>
    ⟨hv.mark.trans hmark, fun e he => ⟨hahead e (hv.events.subset he), fun h => absurd h (by simp [hfree e (hv.events.subset he)])⟩⟩
  have hopen : ∀ r : Strip, r.number = n → (openScan r p g u).motion.mark = p ∧ ∀ e ∈ (openScan r p g u).motion.events,
      isAfter e.pos p = true ∧ (e.what.isPass = true → e.what = .pass n) := by
    intro r hr
    unfold openScan
    split
    · exact hstay _ ⟨List.Sublist.refl _, rfl⟩
    · rename_i i _
      have hs : EventsFall u (startScan r.number i u) := by
        rw [startScan_eq]
        exact ⟨List.Sublist.refl _, rfl⟩
      dsimp only
      split
      · exact hstay _ (hs.trans (endScanTest_falls _ _))
      · rw [hr] at hs ⊢
        exact takePasses_events (hs.mark.trans hmark) (fun e he => hfree e (hs.events.subset he)) (fun e he => hahead e (hs.events.subset he))
  split
  · exact hstay u (.refl u)
  · rename_i r hr
    split
    · exact hopen r (findStrip_number hr)
    · exact hopen r (findStrip_number hr)
    · exact hstay u (.refl u)

end Sys2Proof.Machine
end

