-- ==== Sys2Proof/Proofs/PassesInOrder.lean ====
section
/-! PROOFS. The passes of a strip under the head in the obligation's terms (R30 to R33, R39 to R42). -/

namespace Sys2Proof.Machine

/-- A forward step that reaches the pass of a strip that still covers IE (R31). -/
theorem exec_pass_covered {s : State} {n : Nat} {i : StoreId} {x : Scanning} {q : Word} {g : GateSample} {others : List PosEvent}
    (hr : s.inReset = false) (hmov : s.line.state.moving = true) (hmark : s.motion.mark = s.motion.travel)
    (hdue : OnlyDue s ⟨s.motion.travel + 1, .pass n⟩ others) (hx : scanningOf s n = some (i, x)) (ht : x.strip.trail = none)
    (hc : x.scan.cut = false) (hq : q = plusTicks x.strip.lead (s.config.motion.offSH + (x.scan.next + 1) * s.config.scan.pitch))
    (ha : isAfter q (s.motion.travel + 1) = true) :
    ∃ t, exec (.encForwardStep g) s = .next t ∧ scanningOf t n = some (i, x.passed s.config (converterBusy s) g) ∧
      t.scan.converter = converterAfter n x.scan.next s.scan.converter ∧
      (∀ m, m ≠ n → findStrip t m = findStrip s m) ∧ t = { s with
        belt := t.belt, scan := t.scan
        motion := { s.motion with travel := s.motion.travel + 1, mark := s.motion.travel + 1, events := others ++ [⟨q, .pass n⟩] } } := by
  have hx1 : scanningOf (steppedOn s others) n = some (i, x) := (scanningOf_congr rfl fun _ => rfl).trans hx
  obtain ⟨heq, hscan⟩ := takePass_covered (g := g) hx1 ht hc
  have hdueq : passDue (steppedOn s others) x.strip (x.scan.next + 1) = q := hq.symm
  rw [hdueq] at heq
  have hu := putScanning_eq (steppedOn s others) i (x.passed s.config (converterBusy s) g) true
  have hstrips := fun m hm => putScanning_findStrip_other (s := steppedOn s others) (i := i) (y := x.passed s.config (converterBusy s) g) (keep := true) (m := m)
    ((passed_scanKept s.config (converterBusy s) g x).number.trans (scanningOf_number hx)) hm
  change takePass n g (steppedOn s others) = addEvent q (.pass n) (setConverter (converterAfter n x.scan.next s.scan.converter)
    (putScanning i (x.passed s.config (converterBusy s) g) true (steppedOn s others))) at heq
  change scanningOf (takePass n g (steppedOn s others)) n = some (i, x.passed s.config (converterBusy s) g) at hscan
  rw [heq] at hscan
  generalize x.passed s.config (converterBusy s) g = y at *
  generalize putScanning i y true (steppedOn s others) = u at *
  have hmotion : u.motion = (steppedOn s others).motion := by rw [hu]
  have hev : (addEvent q (.pass n) (setConverter (converterAfter n x.scan.next s.scan.converter) u)).motion =
      { s.motion with travel := s.motion.travel + 1, mark := s.motion.travel + 1, events := others ++ [⟨q, .pass n⟩] } := by
    unfold addEvent setConverter
    dsimp only
    rw [hmotion]
    rfl
  have hahead : ∀ e ∈ (addEvent q (.pass n) (setConverter (converterAfter n x.scan.next s.scan.converter) u)).motion.events,
      isAfter e.pos (addEvent q (.pass n) (setConverter (converterAfter n x.scan.next s.scan.converter) u)).motion.mark = true := by
    rw [hev]
    intro e he
    obtain he | he := List.mem_append.mp he
    · exact hdue.ahead e he
    · rw [List.mem_singleton.mp he]
      exact ha
  refine ⟨_, exec_forward_one hr hmov hmark hdue (takePasses_one rfl heq hahead) hahead, hscan, rfl, fun m hm => (hstrips m hm).trans rfl, ?_⟩
  rw [← hev]
  unfold addEvent setConverter
  dsimp only
  rw [hu]
  rfl

/-- A held pass behind samples is their copy (R33). -/
theorem heldSlot_some {cfg : Configuration} {slots : List PassSlot} {z : PassSlot} (h : slots.getLast? = some z) :
    heldSlot cfg slots = { z with held := true } := by
  unfold heldSlot
  rw [h]

/-- A scan in progress stays where its strip and its store do. -/
theorem scanningOf_keeps {s t : State} {n : Nat} {i : StoreId} {x : Scanning} (hf : findStrip t n = findStrip s n)
    (h : scanningOf s n = some (i, x)) (hs : t.scan.store i = s.scan.store i) : scanningOf t n = some (i, x) := by
  obtain ⟨h1, h2, h3, h4, h5⟩ := scanningOf_iff.mp h
  exact scanningOf_iff.mpr ⟨hf.trans h1, h2, h3, by rw [hs]; exact h4, by rw [hs]; exact h5⟩

end Sys2Proof.Machine

open Sys2Proof Sys2Proof.Machine

/-- Settles O24: a pass is its body work and its gate sample; a scan window's opening cuts the one tail there is, once however often its strip is
listed, and starts the next scan with a pass that is a pass like the others; and what it leaves registered is ahead, its own passes alone. -/
theorem passesAreTakenInOrder : Obligations.PassesAreTakenInOrder := by
  refine ⟨?_, ?_, ?_⟩
  · intro g s n i x p q j lag others hr hmov hmark hp hdue hx ht hc hj hlag hq ha
    subst hp hj hlag
    obtain ⟨t, hexec, hscan, hconv, hstrips, ht'⟩ := exec_pass_covered (g := g) hr hmov hmark hdue hx ht hc hq ha
    have hidle : s.scan.converter = none → converterBusy s = false := fun h => by rw [converterBusy, h]; rfl
    refine ⟨t, _, hexec, hscan, passed_next _ _ _ _, (passed_cut _ _ _ _).trans hc, by rw [ht'], hstrips, fun h hb => ?_, fun h hb => ?_,
      fun h => ?_, fun h hb => ?_, fun z h hb hs hz => ?_, fun h => ?_, fun h => passed_beyond h, fun h => passed_early h, fun hl h2 hg => ?_,
      fun hl hg => ⟨passed_closes hl hg, fun d h hb hd => ?_⟩, ?_⟩
    · obtain ⟨h1, h2, -, h4⟩ := passed_free (cfg := s.config) (g := g) h (hidle hb)
      exact ⟨hconv.trans (converterAfter_begins h hb), h1, h2, h4⟩
    · obtain ⟨h1, h2⟩ := passed_held (cfg := s.config) (g := g) h (converterBusy_iff.mpr hb)
      refine ⟨hconv.trans (converterAfter_busy hb), h1, h2, fun hs => (passed_waits h (converterBusy_iff.mpr hb) hs).1, fun z hs hz => ?_,
        fun h0 hs => ?_⟩
      · rw [(passed_copied h (converterBusy_iff.mpr hb) hs).1, heldSlot_some hz]
      · rw [(passed_copied h (converterBusy_iff.mpr hb) (by rw [hs, h0]; rfl)).1, hs]
        rfl
    · obtain ⟨h1, h2⟩ := passed_overlength (cfg := s.config) (busy := converterBusy s) (g := g) h
      exact ⟨hconv.trans (converterAfter_late h), h1, h2⟩
    · by_cases hc : s.scan.converter = none
      · exact (passed_free h (hidle hc)).2.2.1
      · exact (passed_waits h (converterBusy_iff.mpr hc) (hb.resolve_left hc)).2
    · obtain ⟨h1, h2, h3⟩ := passed_copied (cfg := s.config) (g := g) h (converterBusy_iff.mpr hb) hs
      obtain rfl : z = heldSlot s.config x.slots := by simpa using hz.symm.trans h1
      exact ⟨h2, h3⟩
    · exact passed_last h
    · rw [passed_active hl h2 hg]
      exact ⟨fun hd => by rw [hd]; rfl, fun d hd => by rw [hd]; rfl⟩
    · exact passed_free_clear h (hidle hb) hl hg hd
    · rw [ht']
      exact ⟨rfl, rfl, rfl, rfl, rfl, rfl, rfl, rfl, rfl⟩
  · intro g s n m i x r p q others ahead hr hmov hmark hp hdue hah hf hne hx hc hd ho hq hst
    subst hp hah
    have hx1 : scanningOf (steppedOn s others) n = some (i, x) := (scanningOf_congr rfl fun _ => rfl).trans hx
    obtain ⟨htail, hevs⟩ := cutTails_cuts hx1 hc hd ho
    have hf1 : findStrip (cutTails (steppedOn s others)) m = some r := (htail.strips m (Ne.symm hne)).trans hf
    by_cases hent : r.state = .entering
    · obtain ⟨-, ht, ha, hfree⟩ := hst.resolve_left (fun h => h.1 hent)
      have hone : ∀ k : StoreId, ((cutTails (steppedOn s others)).scan.store k).holder = none ↔ k ≠ i := by
        intro k
        by_cases hk : k = i
        · rw [hk, htail.holder]
          exact hfree i
        · rw [htail.stores k hk]
          exact hfree k
      obtain ⟨k, hki, hk⟩ := freeStoreId_of_one hone
      have hs := takePass_started g k hf1 ht
      have hopens := takeScanOpen_opens (p := s.motion.travel + 1) (g := g) hf1 hent
      have hcov := openScan_covered (g := g) hk ht (findStrip_number hf) (p := s.motion.travel + 1) (by rw [htail.motion]; rfl)
      have hcfg : (cutTails (steppedOn s others)).config = s.config := htail.config
      have hconv : (cutTails (steppedOn s others)).scan.converter = s.scan.converter := htail.converter
      have hbusy : converterBusy (cutTails (steppedOn s others)) = converterBusy s := by
        unfold converterBusy
        rw [hconv]
      obtain ⟨hidle, hheld, howed⟩ := freshScanning_passed s.config (converterBusy s) g k r
      have hnext := passed_next s.config (converterBusy s) g (freshScanning k r)
      rw [hcfg, hbusy, ← hq] at hs
      generalize (freshScanning k r).passed s.config (converterBusy s) g = z at hs hidle hheld howed hnext
      generalize takePass m g (startScan m k (cutTails (steppedOn s others))) = t at hs hcov
      have hev : t.motion.events = others.filter (fun e => !e.what.isPass) ++ [⟨q, .pass m⟩] := by
        rw [hs.motion, hevs]
        rfl
      have hmk : t.motion.mark = s.motion.travel + 1 := by
        rw [hs.motion, htail.motion]
        rfl
      have hahead : ∀ e ∈ t.motion.events, isAfter e.pos t.motion.mark = true := by
        rw [hev, hmk]
        intro e he
        obtain he | he := List.mem_append.mp he
        · exact hdue.ahead e (List.mem_of_mem_filter he)
        · rw [List.mem_singleton.mp he]
          exact ha
      obtain ⟨hpl, hcut, hline⟩ := hs.rest
      refine ⟨t, exec_forward_one hr hmov hmark hdue (hopens.trans (hcov hahead)) hahead, fun hl => ?_, fun hl => ?_, fun h => absurd hent h,
        fun _ => ⟨hev, k, z, hki, hs.scan, hs.holder, hnext, howed, fun hc => ?_, fun hc => ?_⟩⟩
      · obtain ⟨h0, h1, h2, h3⟩ := htail.goesOn hl
        exact ⟨x.tailCut, (scanningOf_keeps (hs.strips n hne) h0 (hs.stores i (Ne.symm hki))), rfl, rfl, rfl, hpl.trans h1, hcut.trans h2, hline.trans h3⟩
      · obtain ⟨y, hy, hrest⟩ := htail.ended hl
        exact ⟨y, (hs.strips n hne).trans hy, hrest⟩
      · obtain ⟨h1, h2⟩ := hidle (by rw [converterBusy, hc]; rfl)
        exact ⟨hs.converter.trans ((congrArg _ hconv).trans (converterAfter_begins (Nat.zero_lt_succ _) hc)), h1, h2⟩
      · obtain ⟨h1, h2⟩ := hheld (converterBusy_iff.mpr hc)
        exact ⟨hs.converter.trans ((congrArg _ hconv).trans (converterAfter_busy hc)), h2, h1⟩
    · obtain ⟨h1, h2⟩ := hst.resolve_right (fun h => hent h.1)
      have hshut := takeScanOpen_shut (p := s.motion.travel + 1) (g := g) hf1 h1 h2
      have hahead : ∀ e ∈ (cutTails (steppedOn s others)).motion.events, isAfter e.pos (cutTails (steppedOn s others)).motion.mark = true := by
        rw [hevs, htail.motion]
        exact fun e he => hdue.ahead e (List.mem_of_mem_filter he)
      exact ⟨_, exec_forward_one hr hmov hmark hdue hshut hahead, fun hl => ⟨x.tailCut, (htail.goesOn hl).1, rfl, rfl, rfl, (htail.goesOn hl).2⟩,
        htail.ended, fun _ => ⟨hf1, hevs⟩, fun h => absurd h hent⟩
  · intro g s m p others hr hmov hmark hp hdue
    subst hp
    obtain ⟨hmk, hev⟩ := takeScanOpen_events (s := steppedOn s others) (n := m) (g := g) (p := s.motion.travel + 1) rfl hdue.ahead
    exact ⟨_, exec_forward_one hr hmov hmark hdue rfl (fun e he => by rw [takeKind, hmk]; exact (hev e he).1), fun e he => (hev e he).2⟩
end

