-- ==== Sys2Proof/Proofs/Windows.lean ====
section
/-! PROOFS. The SE window's opening, and the planning deadline that a strip not yet planned misses there (R19, R75). -/

namespace Sys2Proof.Machine

/-! ### The window opens -/

/-- A strip's window opens with its end ahead (R19). -/
theorem openWindow_ahead {r : Strip} {s : State} {n : Nat} {q : Word} (hn : r.number = n) (hq : windowEnd s r = q)
    (ha : isAfter q s.motion.mark = true) :
    openWindow r s = addEvent q (.seEnd n) (mapStrip n (fun t => { t with windowOpen := true }) s) := by
  subst hn
  have he : windowEnd (mapStrip r.number (fun t => { t with windowOpen := true }) s) r = q := hq
  unfold openWindow
  rw [← he] at ha ⊢
  exact regSimple_ahead ha

theorem takeSeOpen_planned {s : State} {n : Nat} {r : Strip} (h : findStrip s n = some r) (hs : r.state = .planned ∨ r.state = .unplanned) :
    takeSeOpen n s = openWindow r s := by
  unfold takeSeOpen
  rw [h]
  dsimp only
  obtain hs | hs := hs <;> rw [hs]

theorem takeSeOpen_late {s : State} {n : Nat} {r : Strip} (h : findStrip s n = some r)
    (hs : r.state = .entering ∨ r.state = .clearedIe ∨ r.state = .scanning ∨ r.state = .waitingPlan) :
    takeSeOpen n s = openWindow r (latePlan n s) := by
  unfold takeSeOpen
  rw [h]
  dsimp only
  obtain hs | hs | hs | hs := hs <;> rw [hs]

/-! ### The deadline missed -/

/-- A strip record at its missed planning deadline, before its store is freed (R75). -/
def Strip.missedPlan (r : Strip) : Strip := { r with state := .unplanned, reason := some .latePlan }

/-- From s to t the planner has let go of strip n, which stays in the table (R75). -/
structure PlanningLeft (n : Nat) (s t : State) : Prop where
  strip : findStrip t n = findStrip s n
  mark : t.motion.mark = s.motion.mark ∧ t.motion.travel = s.motion.travel
  config : t.config = s.config
  events : ∀ e ∈ t.motion.events, e ∈ s.motion.events
  kept : ∀ e ∈ s.motion.events, (∀ i, e.what ≠ .transfer ⟨n, i⟩) → e ∈ t.motion.events
  inFlight : s.planner.inFlight = some n → beltCuttings n t = [] ∧ t.planner = s.planner
  waits : s.planner.inFlight ≠ some n → t.planner = { s.planner with queue := s.planner.queue.filter (fun m => m != n) } ∧
    t.cuttings = s.cuttings

theorem abandonPlanning_left {n : Nat} {s : State} {r : Strip} (h : findStrip s n = some r) (hr : r.removalTaken = false) :
    PlanningLeft n s (abandonPlanning n s) := by
  by_cases hf : s.planner.inFlight = some n
  · have ha : abandonPlanning n s = freeCuttings (beltCuttings n s) s := if_pos hf
    obtain ⟨gone, hg⟩ := freeCuttings_frees (beltCuttings n s) s
    rw [ha]
    generalize freeCuttings (beltCuttings n s) s = t at hg
    have hgone : ∀ m, m ∉ gone := by
      intro m hm
      obtain ⟨hm, -, x, hx, hrem⟩ := hg.left m hm
      obtain ⟨id, hid, rfl⟩ := List.mem_map.mp hm
      rw [strip_of_mem_beltCuttings hid, h] at hx
      rw [← Option.some.inj hx, hr] at hrem
      cases hrem
    refine ⟨?_, ?_, ?_, hg.events, fun e he hi => hg.kept e he (fun id hid hw => ?_) fun m hm => absurd hm (hgone m), fun _ => ⟨?_, hg.planner⟩,
      fun hn => absurd hf hn⟩
    · rw [hg.findStrip, if_neg (hgone n)]
    · rw [hg.tracking.eq]
      exact ⟨rfl, rfl⟩
    · rw [hg.tracking.eq]
    · obtain rfl := strip_of_mem_beltCuttings hid
      exact hi id.index hw
    · rw [hg.beltCuttings]
      exact List.filter_eq_nil_iff.mpr fun id hid => by simp [hid]
  · have ha : abandonPlanning n s = leavePlannerQueue n s := if_neg hf
    rw [ha]
    exact ⟨rfl, ⟨rfl, rfl⟩, rfl, fun _ he => he, fun _ he _ => he, fun hn => absurd hn hf, fun _ => ⟨rfl, rfl⟩⟩

/-- From s to t strip n, whose record was r, has missed its planning deadline (R75). -/
structure DeadlineMissed (n : Nat) (r : Strip) (s t : State) : Prop where
  strip : findStrip t n = some { r.missedPlan with store := none }
  stores : ∀ i, r.store = some i → t.scan.store i = Store.free
  mark : t.motion.mark = s.motion.mark ∧ t.motion.travel = s.motion.travel
  config : t.config = s.config
  events : ∀ e ∈ t.motion.events, e ∈ s.motion.events ∧ e.what ≠ .pass n
  kept : ∀ e ∈ s.motion.events, e.what ≠ .pass n → (∀ i, e.what ≠ .transfer ⟨n, i⟩) → e ∈ t.motion.events
  inFlight : s.planner.inFlight = some n → beltCuttings n t = [] ∧ t.planner = s.planner
  waits : s.planner.inFlight ≠ some n → t.planner = { s.planner with queue := s.planner.queue.filter (fun m => m != n) } ∧
    t.cuttings = s.cuttings

theorem missDeadline_missed {n : Nat} {s : State} {r : Strip} (h : findStrip s n = some r) (hr : r.removalTaken = false) :
    DeadlineMissed n r s (missDeadline n s) := by
  have hfind : findStrip (stripNotice n .latePlan .unplanned (mapStrip n Strip.missedPlan s)) n = some r.missedPlan := by
    refine (findStrip_mapStrip n n (f := Strip.missedPlan) s fun _ => rfl).trans ?_
    rw [if_pos rfl, h]
    rfl
  have hl := abandonPlanning_left hfind hr
  have he : missDeadline n s = freeStore n (withdraw (fun k => k == .pass n)
      (abandonPlanning n (stripNotice n .latePlan .unplanned (mapStrip n Strip.missedPlan s)))) := rfl
  rw [he]
  generalize abandonPlanning n (stripNotice n .latePlan .unplanned (mapStrip n Strip.missedPlan s)) = u at hl
  have hu : findStrip (withdraw (fun k => k == .pass n) u) n = some r.missedPlan := hl.strip.trans hfind
  have hfree := freeStore_eq hu
  refine ⟨?_, fun i hi => ?_, ?_, ?_, fun e hm => ?_, fun e hm hp hi => ?_, ?_, ?_⟩
  · rw [findStrip_freeStore, if_pos rfl, hu]
    rfl
  · rw [hfree]
    exact (storesWithout_store _ _ i).trans (if_pos hi)
  · rw [hfree]
    exact hl.mark
  · rw [hfree]
    exact hl.config
  · rw [hfree] at hm
    obtain ⟨hm, hp⟩ := List.mem_filter.mp hm
    exact ⟨hl.events e hm, by simpa using hp⟩
  · rw [hfree]
    exact List.mem_filter.mpr ⟨hl.kept e hm hi, by simpa using hp⟩
  · rw [hfree]
    exact hl.inFlight
  · rw [hfree]
    exact hl.waits

/-- From s to t the window of strip n, whose record was r, is open with its end at q, and the strip has missed its planning deadline: the planner
takes its next strip if it had this one in flight (R71, R75). -/
structure WindowLate (n : Nat) (r : Strip) (q : Word) (s t : State) : Prop where
  strip : findStrip t n = some { r.missedPlan with store := none, windowOpen := true }
  stores : ∀ i, r.store = some i → t.scan.store i = Store.free
  mark : t.motion.mark = s.motion.mark
  registered : ⟨q, .seEnd n⟩ ∈ t.motion.events
  events : ∀ e ∈ t.motion.events, e.what ≠ .pass n ∧ (e ∈ s.motion.events ∨ e = ⟨q, .seEnd n⟩)
  kept : ∀ e ∈ s.motion.events, e.what ≠ .pass n → (∀ i, e.what ≠ .transfer ⟨n, i⟩) → e ∈ t.motion.events
  inFlight : s.planner.inFlight = some n → beltCuttings n t = [] ∧ t.planner.inFlight = s.planner.queue.head? ∧
    t.planner.queue = s.planner.queue.drop 1
  waits : s.planner.inFlight ≠ some n → t.planner.inFlight = s.planner.inFlight ∧
    t.planner.queue = s.planner.queue.filter (fun m => m != n) ∧ t.cuttings = s.cuttings

/-- The window opens over a state with the same strips, stores and motion as the missed deadline left. -/
theorem windowLate_of_missed {n : Nat} {r : Strip} {q : Word} {s u v : State} (hn : r.number = n)
    (hu : DeadlineMissed n r s u) (hb : v.belt = u.belt) (hs : v.scan = u.scan) (he : v.motion = u.motion) (hc : v.config = u.config)
    (hq : windowEnd s r = q) (ha : isAfter q s.motion.mark = true)
    (hin : s.planner.inFlight = some n → beltCuttings n v = [] ∧ v.planner.inFlight = s.planner.queue.head? ∧
      v.planner.queue = s.planner.queue.drop 1)
    (hw : s.planner.inFlight ≠ some n → v.planner.inFlight = s.planner.inFlight ∧
      v.planner.queue = s.planner.queue.filter (fun m => m != n) ∧ v.cuttings = s.cuttings) : WindowLate n r q s (openWindow r v) := by
  have hmark : v.motion.mark = s.motion.mark := by rw [he]; exact hu.mark.1
  have hend : windowEnd v r = q := by
    rw [← hq]
    unfold windowEnd predictedLead
    rw [hc, hu.config]
  rw [openWindow_ahead hn hend (by rw [hmark]; exact ha)]
  refine ⟨?_, fun i hi => ?_, hmark, List.mem_append_right _ (List.mem_singleton_self _), fun e hm => ?_, fun e hm hp hi => ?_, hin, hw⟩
  · have hv : findStrip v n = some { r.missedPlan with store := none } := by
      rw [← hu.strip]
      unfold findStrip
      rw [hb]
    refine (findStrip_mapStrip n n (f := fun t => { t with windowOpen := true }) v fun _ => rfl).trans ?_
    rw [if_pos rfl, hv]
    rfl
  · show v.scan.store i = _
    rw [hs]
    exact hu.stores i hi
  · obtain hm | hm := List.mem_append.mp hm
    · obtain ⟨h1, h2⟩ := hu.events e (by rw [← he]; exact hm)
      exact ⟨h2, .inl h1⟩
    · rw [List.mem_singleton.mp hm]
      exact ⟨nofun, .inr rfl⟩
  · exact List.mem_append_left _ (he ▸ hu.kept e hm hp hi)

theorem DeadlineMissed.follows {n : Nat} {r : Strip} {s u t : State} (h : DeadlineMissed n r s u) (k : LineFollows u t)
    (hm : s.motion.mark = s.motion.travel) : DeadlineMissed n r s t where
  strip := (k.findStrip n).trans h.strip
  stores i hi := by
    rw [k.scan]
    exact h.stores i hi
  mark := ⟨(k.mark (by rw [h.mark.1, h.mark.2, hm])).trans h.mark.1, k.travel.trans h.mark.2⟩
  config := k.config.trans h.config
  events e he := h.events e (by rw [← k.events]; exact he)
  kept e he hp hi := by
    rw [k.events]
    exact h.kept e he hp hi
  inFlight hi := by
    obtain ⟨h1, h2⟩ := h.inFlight hi
    exact ⟨(k.beltCuttings n).trans h1, k.planner.trans h2⟩
  waits hi := by
    obtain ⟨h1, h2⟩ := h.waits hi
    exact ⟨k.planner.trans h1, k.cuttings.trans h2⟩

/-- A strip not yet planned at its window's opening (R19, R75). -/
theorem takeSeOpen_windowLate {n : Nat} {r : Strip} {q : Word} {s : State} (h : findStrip s n = some r)
    (hs : r.state = .entering ∨ r.state = .clearedIe ∨ r.state = .scanning ∨ r.state = .waitingPlan) (hr : r.removalTaken = false)
    (hm : s.motion.mark = s.motion.travel) (hq : windowEnd s r = q) (ha : isAfter q s.motion.mark = true) :
    WindowLate n r q s (takeSeOpen n s) := by
  have hmissed := (missDeadline_missed h hr).follows (event_follows (missDeadline n) s) hm
  have hlate : latePlan n s = if s.planner.inFlight = some n then plannerNext (event (missDeadline n) s) else event (missDeadline n) s := rfl
  rw [takeSeOpen_late h hs, hlate]
  generalize event (missDeadline n) s = u at hmissed
  have hn := findStrip_number h
  by_cases hf : s.planner.inFlight = some n
  · rw [if_pos hf]
    have hp := plannerNext_moves u
    obtain ⟨hb, hpl⟩ := hmissed.inFlight hf
    refine windowLate_of_missed hn hmissed ?_ ?_ ?_ ?_ hq ha (fun _ => ⟨?_, ?_, ?_⟩) fun hne => absurd hf hne
    · rw [hp.eq]
    · rw [hp.eq]
    · rw [hp.eq]
    · rw [hp.eq]
    · rw [hp.belts n _ hmissed.strip (show StripState.unplanned ≠ .waitingPlan by decide)]
      exact hb
    · rw [hp.inFlight, hpl]
    · rw [hp.queue, hpl]
  · rw [if_neg hf]
    obtain ⟨hpl, hc⟩ := hmissed.waits hf
    exact windowLate_of_missed hn hmissed rfl rfl rfl rfl hq ha (fun hy => absurd hy hf) fun _ => ⟨by rw [hpl], by rw [hpl], hc⟩

end Sys2Proof.Machine
end

