-- ==== Sys2Proof/Proofs/StripEvents.lean ====
section
/-! PROOFS. The forward step that reaches one event of a strip: its window end, its removal, the transfer of a cutting and its scan window (R17, R21,
R30, R134, R135). -/

namespace Sys2Proof.Machine

/-! ### The window end -/

/-- A strip whose window end is taken unmatched (R21): it is LOST, with the fault logged. -/
structure EdgeMissed (n : Nat) (p : Word) (s t : State) : Prop where
  taken : LossTaken s t n
  remains : ∀ r, findStrip s n = some r → r.removalTaken = false → findStrip t n = some (r.lostFor .missingEdge)
  cuttings : t.cuttings = s.cuttings.filter (fun c => decide (c.id ∉ beltCuttings n s))
  inFlight : t.planner.inFlight = s.planner.inFlight
  events : ∀ e ∈ t.motion.events, e ∈ s.motion.events
  kept : ∀ e ∈ s.motion.events, ¬e.what.concerns n → e ∈ t.motion.events
  mark : s.motion.mark = s.motion.travel → t.motion.mark = s.motion.mark
  logged : s.link.belt.first = none → t.link.belt.first =
    some { code := 2, detail := none, object := .strip n, position := p, clock := s.link.clock }

theorem event_missEdge (n : Nat) (p : Word) (s : State) : EdgeMissed n p s (event (missEdge n p) s) := by
  have hf := event_follows (missEdge n p) s
  have hl := loseStrips_spec .missingEdge [n] s
  have hn := stripNotice_linkOnly n .missingEdge .lost (loseStrips .missingEdge [n] s)
  have hb : BooksKept (loseStrips .missingEdge [n] s) (stripNotice n .missingEdge .lost (loseStrips .missingEdge [n] s)) := offer_books _ _
  have hlog := logFault_linkOnly .belt 2 none (.strip n) p (stripNotice n .missingEdge .lost (loseStrips .missingEdge [n] s))
  have he : missEdge n p s =
      logFault .belt 2 none (.strip n) p (stripNotice n .missingEdge .lost (loseStrips .missingEdge [n] s)) := rfl
  rw [← he] at hlog
  generalize event (missEdge n p) s = t at hf
  generalize loseStrips .missingEdge [n] s = u at *
  generalize stripNotice n .missingEdge .lost u = v at *
  have hall : LinkOnly u (missEdge n p s) := hn.trans hlog
  have hbelt : t.belt = u.belt := hf.belt.trans hall.belt
  have hmem : n ∈ [n] := List.mem_singleton_self n
  refine ⟨hl.lossTaken hmem hbelt (hf.saw.trans hall.saw) (hf.cuttings.trans hall.cuttings) (hf.planner.trans hall.planner)
    (hf.scan.trans hall.scan) (fun e hm => .inl (by rw [hf.events, hall.motion] at hm; exact hm)), fun r hr hrem => ?_, ?_, ?_, fun e hm => ?_,
    fun e hm hc => ?_, fun hm => ?_, ?_⟩
  · rw [← hl.remains n hmem r hr hrem]
    unfold findStrip
    rw [hbelt]
  · rw [hf.cuttings, hall.cuttings, hl.cuttings]
    exact List.filter_congr fun c _ => by simp
  · rw [hf.planner, hall.planner, hl.planner]
  · rw [hf.events, hall.motion] at hm
    exact (hl.events e hm).1
  · rw [hf.events, hall.motion]
    exact hl.kept e hm (fun m hx => by rw [List.mem_singleton.mp hx]; exact hc)
  · have hmo : (missEdge n p s).motion.mark = s.motion.mark ∧ (missEdge n p s).motion.travel = s.motion.travel := by
      rw [hall.motion, hl.tracking.eq]
      exact ⟨rfl, rfl⟩
    exact (hf.mark (by rw [hmo.1, hmo.2, hm])).trans hmo.1
  · have hclock : v.link.clock = s.link.clock := hn.link.clock.trans hl.tracking.link.clock
    have hkept := hf.books
    rw [he] at hkept
    exact (beltFault_logged (hl.books.trans hb) hclock hkept).1

/-! ### The transfer -/

/-- From s to t a strip may leave with its events, as the transfer of its last cutting is taken (R17). -/
structure TransferLeaves (n : Nat) (s t : State) : Prop where
  cuttings : t.cuttings = s.cuttings
  chain : t.chain = { s.chain with lastReturn := t.chain.lastReturn }
  motion : t.motion = { s.motion with events := t.motion.events }
  events : ∀ e ∈ t.motion.events, e ∈ s.motion.events
  kept : ∀ e ∈ s.motion.events, ¬e.what.concerns n → e ∈ t.motion.events
  config : t.config = s.config

theorem TransferLeaves.refl (n : Nat) (s : State) : TransferLeaves n s s := ⟨rfl, rfl, rfl, fun _ h => h, fun _ h _ => h, rfl⟩

theorem leaveAfterTransfer_leaves (n : Nat) (s : State) : TransferLeaves n s (leaveAfterTransfer n s) := by
  unfold leaveAfterTransfer
  split
  · cases h : findStrip s n with
    | none =>
      have hd : dropStrip n s = s := by
        unfold dropStrip
        rw [h]
      rw [hd]
      exact .refl n s
    | some r =>
      rw [dropStrip_eq h, (unbindStrip_binsOnly r.bank (stripGone n r s)).eq]
      exact ⟨rfl, rfl, rfl, fun e he => List.mem_of_mem_filter he,
        fun e he hc => List.mem_filter.mpr ⟨he, by simpa using fun ho => hc (concerns_of_ofStrip ho)⟩, rfl⟩
  · exact .refl n s

/-- From s to t the transfer of cutting id, whose record was c, is taken (R134, R135). -/
structure TransferTaken (id : CuttingId) (c : Cutting) (s t : State) : Prop where
  events : ∀ e ∈ t.motion.events, e ∈ s.motion.events
  kept : ∀ e ∈ s.motion.events, ¬e.what.concerns id.strip → e ∈ t.motion.events
  mark : t.motion.mark = s.motion.mark ∧ t.motion.travel = s.motion.travel
  arrives : s.chain.deck.length < Config.deckCapacity →
    t.chain.deck = s.chain.deck ++ [id] ∧ t.chain.transferHigh = true ∧ findCutting t id = some { c with state := .onDeck }
  refused : Config.deckCapacity ≤ s.chain.deck.length → t.chain.deck = s.chain.deck ∧ findCutting t id = none

theorem deckRises_eq (s : State) : deckRises s = { s with line := (deckRises s).line } := by
  unfold deckRises
  split <;> rfl

theorem deckArrive_taken {id : CuttingId} {c : Cutting} {s : State} (h : findCutting s id = some c)
    (hd : s.chain.deck.length < Config.deckCapacity) : TransferTaken id c s (deckArrive id s) := by
  have hcut := findCutting_mapCutting id id (f := fun c => { c with state := .onDeck }) s fun _ => rfl
  rw [if_pos rfl, h] at hcut
  have hl := leaveAfterTransfer_leaves id.strip { mapCutting id (fun c => { c with state := .onDeck }) s with
    chain := { s.chain with transferHigh := true, deck := s.chain.deck ++ [id] } }
  unfold deckArrive
  rw [deckRises_eq]
  generalize leaveAfterTransfer id.strip _ = u at hl
  refine ⟨fun e he => hl.events e he, fun e he hc => hl.kept e he hc, ?_, fun _ => ⟨?_, ?_, ?_⟩, fun hn => absurd hd (Nat.not_lt.mpr hn)⟩
  · dsimp only
    rw [hl.motion]
    exact ⟨rfl, rfl⟩
  · dsimp only
    rw [hl.chain]
  · dsimp only
    rw [hl.chain]
  · refine Eq.trans ?_ hcut
    unfold findCutting
    dsimp only
    rw [hl.cuttings]

theorem deckRefuse_taken {id : CuttingId} {c : Cutting} {s : State} (p : Word) (h : findCutting s id = some c)
    (hd : Config.deckCapacity ≤ s.chain.deck.length) : TransferTaken id c s (deckRefuse c p s) := by
  obtain rfl := findCutting_id h
  obtain ⟨gone, hf⟩ := freeCuttings_frees [c.id] (returnCutting c .deckFull none (.tick p) s)
  unfold deckRefuse
  generalize freeCuttings [c.id] (returnCutting c .deckFull none (.tick p) s) = u at hf
  have hl := leaveAfterTransfer_leaves c.id.strip u
  generalize leaveAfterTransfer c.id.strip u = t at hl
  have hgone : ∀ n ∈ gone, n = c.id.strip := fun n hn => by simpa using (hf.left n hn).1
  refine ⟨fun e he => hf.events e (hl.events e he), fun e he hc => hl.kept e (hf.kept e he (fun id hid hw => ?_) fun n hn => ?_) hc, ?_,
    fun hn => absurd hn (Nat.not_lt.mpr hd), fun _ => ⟨?_, ?_⟩⟩
  · rw [List.mem_singleton.mp hid] at hw
    exact hc (hw ▸ concerns_transfer c.id)
  · rw [hgone n hn]
    exact Bool.eq_false_iff.mpr fun ho => hc (concerns_of_ofStrip ho)
  · rw [hl.motion, hf.tracking.eq]
    exact ⟨rfl, rfl⟩
  · rw [hl.chain, hf.chain]
    rfl
  · unfold findCutting
    rw [hl.cuttings, hf.cuttings, List.find?_eq_none]
    intro x hx hid
    exact of_decide_eq_true (List.mem_filter.mp hx).2 (by simpa using hid)

theorem takeTransfer_taken {id : CuttingId} {c : Cutting} {s : State} (p : Word) (h : findCutting s id = some c) :
    TransferTaken id c s (takeTransfer id p s) := by
  unfold takeTransfer
  rw [h]
  dsimp only
  split
  · rename_i hd
    exact deckArrive_taken h hd
  · rename_i hd
    exact deckRefuse_taken p h (Nat.not_lt.mp hd)

theorem TransferTaken.follows {id : CuttingId} {c : Cutting} {s u t : State} (h : TransferTaken id c s u) (k : LineFollows u t)
    (hm : s.motion.mark = s.motion.travel) : TransferTaken id c s t where
  events e he := h.events e (by rw [← k.events]; exact he)
  kept e he hc := by
    rw [k.events]
    exact h.kept e he hc
  mark := ⟨(k.mark (by rw [h.mark.1, h.mark.2, hm])).trans h.mark.1, k.travel.trans h.mark.2⟩
  arrives hd := by
    obtain ⟨h1, h2, h3⟩ := h.arrives hd
    exact ⟨by rw [k.chain]; exact h1, by rw [k.chain]; exact h2, (k.findCutting id).trans h3⟩
  refused hd := by
    obtain ⟨h1, h2⟩ := h.refused hd
    exact ⟨by rw [k.chain]; exact h1, (k.findCutting id).trans h2⟩

/-! ### The scan window -/

/-- From s to t tails have ended (R30): strips that do not scan, the holders of the stores and the events that are no passes stay. -/
structure TailsEnd (s t : State) : Prop where
  strips : ∀ m r, findStrip s m = some r → r.state ≠ .scanning → findStrip t m = some r
  holders : ∀ k, (t.scan.store k).holder = (s.scan.store k).holder
  events : passFree t.motion.events = passFree s.motion.events
  mark : t.motion.mark = s.motion.mark

theorem TailsEnd.refl (s : State) : TailsEnd s s := ⟨fun _ _ h _ => h, fun _ => rfl, rfl, rfl⟩

theorem TailsEnd.trans {a b c : State} (h : TailsEnd a b) (k : TailsEnd b c) : TailsEnd a c :=
  ⟨fun m r hr hs => k.strips m r (h.strips m r hr hs) hs, fun i => (k.holders i).trans (h.holders i), k.events.trans h.events,
    k.mark.trans h.mark⟩

theorem cutTail_tailsEnd (s : State) (n : Nat) : TailsEnd s (cutTail s n) := by
  cases h : scanningOf s n with
  | none =>
    rw [cutTail_idle h]
    exact .refl s
  | some q =>
    obtain ⟨i, x⟩ := q
    have hc := cutTail_cuts h
    refine ⟨fun m r hr hs => ?_, fun k => ?_, hc.events, by rw [hc.motion]⟩
    · have hm : m ≠ n := by
        rintro rfl
        obtain ⟨hf, hst, -⟩ := scanningOf_iff.mp h
        rw [hf] at hr
        exact hs (Option.some.inj hr ▸ hst)
      exact (hc.strips m hm).trans hr
    · by_cases hk : k = i
      · rw [hk]
        exact hc.holder
      · rw [hc.stores k hk]

theorem cutTails_tailsEnd (s : State) : TailsEnd s (cutTails s) := by
  have hfold : ∀ (l : List Nat) (t : State), TailsEnd t (l.foldl cutTail t) := by
    intro l
    induction l with
    | nil => exact fun t => .refl t
    | cons m l ih => exact fun t => (cutTail_tailsEnd t m).trans (ih _)
  have h := hfold ((s.belt.strips.filter (passesGoOn s)).map Strip.number) s
  exact ⟨h.strips, h.holders, (passFree_passFree _).trans h.events, h.mark⟩

/-- What the scan window of strip n, which covers IE, makes of it (R30), and that it leaves the events that are no passes. -/
structure ScanOpened (n : Nat) (s t : State) : Prop where
  kept : ∀ e ∈ s.motion.events, e.what.isPass = false → e ∈ t.motion.events
  strip : ∃ x, findStrip t n = some x ∧
    (∀ k, freeStoreId s = some k → x.state = .scanning ∧ x.store = some k) ∧
    (freeStoreId s = none → x.state = .unplanned ∧ x.reason = some .unscanned ∧ x.flags.unscanned = true)

/-- The first pass of a scan that starts, whether the next is registered ahead of the mark or behind it. -/
theorem openScan_opened {s : State} {n : Nat} {r : Strip} {p : Word} {g : GateSample} (hf : findStrip s n = some r) (ht : r.trail = none)
    (hm : s.motion.mark = p) : ScanOpened n s (openScan r p g s) := by
  have hn := findStrip_number hf
  cases hk : freeStoreId s with
  | none =>
    have ho : openScan r p g s = unscanned r.number s := by
      unfold openScan
      rw [hk]
    rw [ho, hn]
    refine ⟨fun e he _ => he, { r with state := .unplanned, reason := some .unscanned, flags := { r.flags with unscanned := true } }, ?_,
      fun k h => absurd (hk.symm.trans h) (by simp), fun _ => ⟨rfl, rfl, rfl⟩⟩
    · refine (findStrip_mapStrip n n (f := fun r => { r with
        state := .unplanned, reason := some .unscanned, flags := { r.flags with unscanned := true } }) s fun _ => rfl).trans ?_
      rw [if_pos rfl, hf]
      rfl
  | some k =>
    have hs := takePass_started g k hf ht
    have ho : openScan r p g s = takePasses n g 1 (startScan n k s) := by
      have hmark : (startScan n k s).motion.mark = p := by
        rw [startScan_eq]
        exact hm
      unfold openScan
      rw [hk]
      dsimp only
      rw [if_neg (by simp [ht]), hn, passFuel_at hmark]
    rw [ho]
    unfold takePasses
    dsimp only
    generalize takePass n g (startScan n k s) = t at hs
    have hkept : ∀ e ∈ s.motion.events, e ∈ t.motion.events := fun e he => by
      rw [hs.motion]
      exact List.mem_append_left _ he
    obtain ⟨hfind, hstate, hstore, -⟩ := scanningOf_iff.mp hs.scan
    have hstrip : ∀ j, freeStoreId s = some j → ((freshScanning k r).passed s.config (converterBusy s) g).strip.state = .scanning ∧
        ((freshScanning k r).passed s.config (converterBusy s) g).strip.store = some j := by
      intro j hj
      rw [hk] at hj
      rw [← Option.some.inj hj]
      exact ⟨hstate, hstore⟩
    have hno : freeStoreId s ≠ none := by simp [hk]
    cases hd : duePass n t with
    | none => exact ⟨fun e he _ => hkept e he, _, hfind, hstrip, fun h => absurd h hno⟩
    | some d =>
      have hpass : d.what = .pass n := by
        have h := List.find?_some hd
        simp only [Bool.and_eq_true, beq_iff_eq] at h
        exact h.1
      refine ⟨fun e he hp => ?_, _, hfind, hstrip, fun h => absurd h hno⟩
      exact (List.mem_erase_of_ne (fun h => by rw [h, hpass] at hp; cases hp)).mpr (hkept e he)

theorem takeScanOpen_opened {s : State} {n : Nat} {r : Strip} {p : Word} {g : GateSample} (hf : findStrip s n = some r)
    (hs : r.state = .entering ∨ r.state = .clearedIe) (ht : r.trail = none) (hm : s.motion.mark = p) :
    ScanOpened n s (takeScanOpen n p g s) := by
  have htail := cutTails_tailsEnd s
  have hf1 : findStrip (cutTails s) n = some r := htail.strips n r hf (by obtain h | h := hs <;> rw [h] <;> decide)
  have ho : takeScanOpen n p g s = openScan r p g (cutTails s) := by
    unfold takeScanOpen
    dsimp only
    rw [hf1]
    dsimp only
    obtain h | h := hs <;> rw [h]
  have hfree : freeStoreId (cutTails s) = freeStoreId s := by
    have ha : (cutTails s).scan.storeA.holder = s.scan.storeA.holder := htail.holders .a
    have hb : (cutTails s).scan.storeB.holder = s.scan.storeB.holder := htail.holders .b
    unfold freeStoreId
    rw [ha, hb]
  obtain ⟨hkept, x, hx, h1, h2⟩ := openScan_opened (g := g) hf1 ht (htail.mark.trans hm)
  rw [ho]
  refine ⟨fun e he hp => hkept e ?_ hp, x, hx, by rw [← hfree]; exact h1, by rw [← hfree]; exact h2⟩
  have hmem : e ∈ passFree (cutTails s).motion.events := by
    rw [htail.events]
    exact List.mem_filter.mpr ⟨he, by simp [hp]⟩
  exact List.mem_of_mem_filter hmem

end Sys2Proof.Machine

open Sys2Proof Sys2Proof.Machine

/-- Settles O14, event kind by event kind: each takes the event in the state stepped on and leaves only events ahead. -/
theorem forwardStepMovesAStripOn : Obligations.ForwardStepMovesAStripOn := by
  intro g s n r p q others hr hmov hmark hf hp hq
  subst hp
  have hf1 : findStrip (steppedOn s others) n = some r := hf
  have hnum := findStrip_number hf
  refine ⟨fun hdue ha => ⟨fun hs => ?_, fun hs hrem => ?_⟩, fun hdue => ?_, fun hdue => ⟨fun hb => ?_, fun hb => ?_⟩, fun id c hdue hc => ?_,
    fun hdue hs ht => ?_⟩
  · have hopen := (takeSeOpen_planned hf1 hs).trans (openWindow_ahead hnum (q := q) hq.symm ha)
    refine exec_forward_one hr hmov hmark hdue hopen fun e he => ?_
    obtain he | he := List.mem_append.mp he
    · exact hdue.ahead e he
    · rw [List.mem_singleton.mp he]
      exact ha
  · have hw := takeSeOpen_windowLate hf1 hs hrem rfl (q := q) hq.symm ha
    refine ⟨_, _, exec_forward_one hr hmov hmark hdue rfl fun e he => ?_, hw.strip, rfl, rfl, rfl, rfl, hw.stores, hw.registered, hw.events,
      hw.kept, hw.inFlight, hw.waits⟩
    have hmk : (takeKind g (s.motion.travel + 1) (.seOpen n) (steppedOn s others)).motion.mark = s.motion.travel + 1 := hw.mark
    rw [hmk]
    obtain h | h := (hw.events e he).2
    · exact hdue.ahead e h
    · rw [h]
      exact ha
  · have hm := event_missEdge n (s.motion.travel + 1) (steppedOn s others)
    refine ⟨_, exec_forward_one hr hmov hmark hdue rfl fun e he => ?_, hm.taken, hm.remains r hf1, hm.cuttings, hm.inFlight, hm.events, hm.kept,
      hm.logged⟩
    have hmk : (takeKind g (s.motion.travel + 1) (.seEnd n) (steppedOn s others)).motion.mark = s.motion.travel + 1 := hm.mark rfl
    rw [hmk]
    exact hdue.ahead e (hm.events e he)
  · have hl := takeRemoval_leaves (s.motion.travel + 1) hf1 hb
    refine ⟨_, exec_forward_one hr hmov hmark hdue rfl fun e he => ?_, hl.gone, hl.others, hl.trackFull, hl.events, hl.saw, hl.cuttings, hl.planner⟩
    have hmk : (takeKind g (s.motion.travel + 1) (.removal n) (steppedOn s others)).motion.mark = s.motion.travel + 1 := hl.mark rfl
    have hev : (takeKind g (s.motion.travel + 1) (.removal n) (steppedOn s others)).motion.events =
      others.filter (fun e => !EventKind.ofStrip n e.what) := hl.events
    rw [hmk]
    rw [hev] at he
    exact hdue.ahead e (List.mem_of_mem_filter he)
  · exact exec_forward_one hr hmov hmark hdue (takeRemoval_waits (s.motion.travel + 1) hb) hdue.ahead
  · have ht := (takeTransfer_taken (s.motion.travel + 1) (s := steppedOn s others) hc).follows (event_follows _ _) rfl
    refine ⟨_, exec_forward_one hr hmov hmark hdue rfl fun e he => ?_, ht.events, ht.kept, ht.arrives, ht.refused⟩
    have hmk : (takeKind g (s.motion.travel + 1) (.transfer id) (steppedOn s others)).motion.mark = s.motion.travel + 1 := ht.mark.1
    rw [hmk]
    exact hdue.ahead e (ht.events e he)
  · obtain ⟨hmk, hev⟩ := takeScanOpen_events (s := steppedOn s others) (n := n) (g := g) (p := s.motion.travel + 1) rfl hdue.ahead
    obtain ⟨hkept, x, hx, hstart, hnone⟩ := takeScanOpen_opened (g := g) hf1 hs ht (p := s.motion.travel + 1) rfl
    refine ⟨_, x, exec_forward_one hr hmov hmark hdue rfl fun e he => ?_, hx, hkept, fun ha => ?_, fun ha hb => ?_, fun ha hb => ?_⟩
    · have hmk' : (takeKind g (s.motion.travel + 1) (.scanOpen n) (steppedOn s others)).motion.mark = s.motion.travel + 1 := hmk
      rw [hmk']
      exact (hev e he).1
    · exact hstart .a (if_pos ha)
    · exact hstart .b ((if_neg ha).trans (if_pos hb))
    · exact hnone ((if_neg ha).trans (if_neg hb))
end

