-- ==== Sys2Proof/Proofs/FreedRecords.lean ====
section
/-! PROOFS. The freeing of one cutting's record (R131): what its bank's report makes of the bins (R166, R198), and when its strip leaves with it
(R17). -/

namespace Sys2Proof.Machine

/-! ### The report that a strip or a cutting of a bank is gone (R198) -/

/-- The step from s to t is a report to the banks that closes no bundle: bins, labels and bundle counts stay. -/
structure QuietReport (s t : State) : Prop where
  bundles : t.bundles = s.bundles
  label : t.label = s.label
  counts : ∀ j : BankId, t.recipe.banks[j].bundles = s.recipe.banks[j].bundles

theorem QuietReport.refl (s : State) : QuietReport s s := ⟨rfl, rfl, fun _ => rfl⟩

theorem QuietReport.trans {s t u : State} (h : QuietReport s t) (k : QuietReport t u) : QuietReport s u :=
  ⟨k.bundles.trans h.bundles, k.label.trans h.label, fun j => (k.counts j).trans (h.counts j)⟩

theorem retireCheck_quiet (k : BankId) (s : State) : QuietReport s (retireCheck k s) := by
  obtain ⟨hb, hl, hbanks⟩ := retireCheck_rest k s
  refine ⟨hb, hl, fun j => ?_⟩
  obtain ⟨st, hst⟩ := hbanks j
  rw [hst]

theorem reportUnbound_quiet {k : BankId} {s : State}
    (h : s.recipe.banks[k].state = .active ∨ s.recipe.banks[k].strips ≠ 0 ∨ s.recipe.banks[k].cuttings ≠ 0) :
    reportUnbound k s = retireCheck k s := by
  unfold reportUnbound
  rw [if_neg]
  rintro ⟨ha, hs, hc⟩
  obtain h | h | h := h
  · exact ha h
  · exact h hs
  · exact h hc

/-- A cutting of a bank that keeps something bound, or is ACTIVE, is unbound without a generation close. -/
theorem unbindCutting_quiet {k : BankId} {s : State}
    (h : s.recipe.banks[k].state = .active ∨ s.recipe.banks[k].strips ≠ 0 ∨ 2 ≤ s.recipe.banks[k].cuttings) :
    QuietReport s (unbindCutting k s) ∧ (unbindCutting k s).recipe.banks[k].cuttings = s.recipe.banks[k].cuttings - 1 := by
  have hself := mapBank_bank k (fun r => { r with cuttings := r.cuttings - 1 }) s
  have hq : unbindCutting k s = retireCheck k (mapBank k (fun r => { r with cuttings := r.cuttings - 1 }) s) := by
    refine reportUnbound_quiet ?_
    rw [hself]
    obtain h | h | h := h
    · exact .inl h
    · exact .inr (.inl h)
    · exact .inr (.inr (by dsimp only; omega))
  have hmap : QuietReport s (mapBank k (fun r => { r with cuttings := r.cuttings - 1 }) s) := by
    refine ⟨rfl, rfl, fun j => ?_⟩
    by_cases hj : k = j
    · subst hj
      rw [hself]
    · rw [show (mapBank k _ s).recipe.banks[j] = s.recipe.banks[j] from setAt_other _ _ hj]
  rw [hq]
  refine ⟨hmap.trans (retireCheck_quiet k _), ?_⟩
  obtain ⟨st, hst⟩ := (retireCheck_rest k (mapBank k (fun r => { r with cuttings := r.cuttings - 1 }) s)).2.2 k
  rw [hst, hself]

/-- A strip of the ACTIVE bank is unbound without a generation close. -/
theorem unbindStrip_quiet {k : BankId} {s : State} (h : s.recipe.banks[k].state = .active) :
    QuietReport s (unbindStrip k s) ∧ ∀ j : BankId, (unbindStrip k s).recipe.banks[j].cuttings = s.recipe.banks[j].cuttings := by
  have hself := mapBank_bank k (fun r => { r with strips := r.strips - 1 }) s
  have hq : unbindStrip k s = retireCheck k (mapBank k (fun r => { r with strips := r.strips - 1 }) s) :=
    reportUnbound_quiet (.inl (by rw [hself]; exact h))
  have hmap : ∀ j : BankId, (mapBank k (fun r => { r with strips := r.strips - 1 }) s).recipe.banks[j].bundles = s.recipe.banks[j].bundles ∧
      (mapBank k (fun r => { r with strips := r.strips - 1 }) s).recipe.banks[j].cuttings = s.recipe.banks[j].cuttings := by
    intro j
    by_cases hj : k = j
    · subst hj
      rw [hself]
      exact ⟨rfl, rfl⟩
    · rw [show (mapBank k _ s).recipe.banks[j] = s.recipe.banks[j] from setAt_other _ _ hj]
      exact ⟨rfl, rfl⟩
  rw [hq]
  have hquiet : QuietReport s (mapBank k (fun r => { r with strips := r.strips - 1 }) s) := ⟨rfl, rfl, fun j => (hmap j).1⟩
  refine ⟨hquiet.trans (retireCheck_quiet k _), fun j => ?_⟩
  obtain ⟨st, hst⟩ := (retireCheck_rest k (mapBank k (fun r => { r with strips := r.strips - 1 }) s)).2.2 j
  rw [hst]
  exact (hmap j).2

/-- The step from s to t leaves every bin that is not OPEN alone. -/
structure OpenBinsAlone (s t : State) : Prop where
  bin : ∀ b : Bin, s.bundles.bins[b].state ≠ .opened → t.bundles.bins[b] = s.bundles.bins[b]
  nextClose : s.bundles.nextClose ≤ t.bundles.nextClose

theorem OpenBinsAlone.of_bundles {s t : State} (h : t.bundles = s.bundles) : OpenBinsAlone s t :=
  ⟨fun b _ => by rw [h], by rw [h]⟩

theorem OpenBinsAlone.trans {s t u : State} (h : OpenBinsAlone s t) (k : OpenBinsAlone t u) : OpenBinsAlone s u :=
  ⟨fun b hb => by rw [k.bin b (by rw [h.bin b hb]; exact hb), h.bin b hb], h.nextClose.trans k.nextClose⟩

/-- The generation close acts on OPEN bins alone (R166). -/
theorem genClose_openBins (s : State) : OpenBinsAlone s (genClose s) := by
  refine ⟨fun b hb => ?_, (genClose_work s).nextClose⟩
  obtain ⟨u, hu, ht⟩ := genClose_at b s
  rw [ht.bin, genCloseBin_of_state (by rw [hu.bin]; exact hb), hu.bin]

theorem reportUnbound_openBins (k : BankId) (s : State) : OpenBinsAlone s (reportUnbound k s) := by
  unfold reportUnbound
  split
  · exact (genClose_openBins s).trans (.of_bundles (retireCheck_rest k _).1)
  · exact .of_bundles (retireCheck_rest k _).1

theorem unbindCutting_openBins (k : BankId) (s : State) : OpenBinsAlone s (unbindCutting k s) :=
  OpenBinsAlone.trans (t := mapBank k (fun r => { r with cuttings := r.cuttings - 1 }) s) (.of_bundles rfl) (reportUnbound_openBins k _)

theorem unbindStrip_openBins (k : BankId) (s : State) : OpenBinsAlone s (unbindStrip k s) :=
  OpenBinsAlone.trans (t := mapBank k (fun r => { r with strips := r.strips - 1 }) s) (.of_bundles rfl) (reportUnbound_openBins k _)

/-! ### The strip of a freed cutting (R17) -/

theorem leaveIfLast_stays {n : Nat} {s : State}
    (h : ∀ r, findStrip s n = some r → r.removalTaken = true → beltCuttings n s ≠ []) : leaveIfLast n s = s := by
  unfold leaveIfLast
  split
  · rfl
  · rename_i r hr
    exact if_neg fun hc => h r hr hc.1 hc.2

theorem leaveIfLast_leaves {n : Nat} {s : State} {r : Strip} (h : findStrip s n = some r) (ht : r.removalTaken = true)
    (hb : beltCuttings n s = []) : leaveIfLast n s = unbindStrip r.bank (stripGone n r s) := by
  unfold leaveIfLast
  rw [h]
  dsimp only
  rw [if_pos ⟨ht, hb⟩, dropStrip_eq h]

theorem leaveIfLast_openBins (n : Nat) (s : State) : OpenBinsAlone s (leaveIfLast n s) := by
  unfold leaveIfLast
  split
  · exact .of_bundles rfl
  · rename_i r hr
    split
    · rw [dropStrip_eq hr]
      exact OpenBinsAlone.trans (t := stripGone n r s) (.of_bundles rfl) (unbindStrip_openBins r.bank (stripGone n r s))
    · exact .of_bundles rfl

/-- A strip record not UNPLANNED and not LOST leaves without a return of its own (R146). -/
theorem leaveIfLast_chain {n : Nat} {s : State} (h : ∀ r, findStrip s n = some r → r.state ≠ .unplanned ∧ r.state ≠ .lost) :
    (leaveIfLast n s).chain = s.chain := by
  unfold leaveIfLast
  split
  · rfl
  · rename_i r hr
    split
    · rw [dropStrip_eq hr, (unbindStrip_binsOnly r.bank (stripGone n r s)).eq]
      show { s.chain with lastReturn := returnOf s r } = s.chain
      rw [returnOf_kept (h r hr)]
    · rfl

theorem leaveIfLast_referral (n : Nat) (s : State) : (leaveIfLast n s).referral = s.referral := by
  unfold leaveIfLast
  split
  · rfl
  · rename_i r hr
    split
    · rw [dropStrip_eq hr, (unbindStrip_binsOnly r.bank (stripGone n r s)).eq]
      rfl
    · rfl

theorem StripStays.congr {s t : State} {c : Cutting} (hb : t.belt = s.belt) (hc : t.cuttings = s.cuttings) :
    StripStays t c ↔ StripStays s c := by
  unfold StripStays findStrip
  rw [hb, beltCuttings_congr hc]

/-! ### The freed record -/

/-- From s to t the record of cutting c is freed (R131), and its strip leaves the table when c was the last it waited for (R17). -/
structure RecordFreed (c : Cutting) (s t : State) : Prop where
  tracking : TrackingOnly s t
  books : BooksKept s t
  cuttings : t.cuttings = s.cuttings.filter (fun x => decide (x.id ≠ c.id))
  deck : t.chain = { s.chain with lastReturn := t.chain.lastReturn }
  belt : StripStays s c → t.belt = s.belt
  leaves : StripLeaves s t c
  chain : StripStays s c ∨ (∀ r, findStrip s c.id.strip = some r → r.state ≠ .unplanned ∧ r.state ≠ .lost) → t.chain = s.chain
  referral : t.referral = s.referral

/-- The state as the Cutting Table reports the free of c: its record is gone and its bank told of it (R131). -/
def unboundCutting (landed : Bool) (c : Cutting) (s : State) : State := unbindCutting c.bank (withoutCutting landed c s)

theorem unboundCutting_eq (landed : Bool) (c : Cutting) (s : State) :
    let t := unboundCutting landed c s
    t.belt = s.belt ∧ t.chain = s.chain ∧ t.cuttings = s.cuttings.filter (fun x => decide (x.id ≠ c.id)) ∧ t.referral = s.referral := by
  have hb := (unbindCutting_binsOnly c.bank (withoutCutting landed c s)).eq
  dsimp only
  unfold unboundCutting
  rw [hb, withoutCutting_eq]
  exact ⟨rfl, rfl, rfl, rfl⟩

theorem beltCuttings_unboundCutting (landed : Bool) (c : Cutting) (s : State) (n : Nat) :
    beltCuttings n (unboundCutting landed c s) = (beltCuttings n s).filter (fun id => decide (id ≠ c.id)) := by
  unfold beltCuttings
  rw [(unboundCutting_eq landed c s).2.2.1, List.filter_filter, List.filter_map, List.filter_filter]
  refine congrArg _ (List.filter_congr fun x _ => ?_)
  simp [Function.comp, Bool.and_comm]

theorem freeRecord_freed {landed : Bool} {s : State} {c : Cutting} (h : findCutting s c.id = some c) :
    freeRecord landed c.id s = leaveIfLast c.id.strip (unboundCutting landed c s) := freeRecord_eq h

/-- A strip that stays for another cutting stays when c is freed. -/
theorem freeRecord_of_stays {landed : Bool} {s : State} {c : Cutting} (h : findCutting s c.id = some c) (hs : StripStays s c) :
    freeRecord landed c.id s = unboundCutting landed c s := by
  rw [freeRecord_freed h]
  refine leaveIfLast_stays fun r hr ht => ?_
  unfold findStrip at hr
  rw [(unboundCutting_eq landed c s).1] at hr
  obtain ⟨id, hid, hne⟩ := hs r hr ht
  rw [beltCuttings_unboundCutting]
  exact List.ne_nil_of_mem (List.mem_filter.mpr ⟨hid, decide_eq_true hne⟩)

theorem freeRecord_of_leaves {landed : Bool} {s : State} {c : Cutting} {r : Strip} (h : findCutting s c.id = some c)
    (hr : findStrip s c.id.strip = some r) (ht : r.removalTaken = true) (hb : ∀ id ∈ beltCuttings c.id.strip s, id = c.id) :
    freeRecord landed c.id s = unbindStrip r.bank (stripGone c.id.strip r (unboundCutting landed c s)) := by
  rw [freeRecord_freed h]
  refine leaveIfLast_leaves ?_ ht ?_
  · unfold findStrip
    rw [(unboundCutting_eq landed c s).1]
    exact hr
  · rw [beltCuttings_unboundCutting, List.filter_eq_nil_iff]
    intro id hid
    simpa using hb id hid

theorem freeRecord_recordFreed {landed : Bool} {s : State} {c : Cutting} (h : findCutting s c.id = some c) :
    RecordFreed c s (freeRecord landed c.id s) := by
  obtain ⟨gone, hf⟩ := freeRecord_frees landed c.id s
  obtain ⟨hbelt, hchain, hcuttings, hreferral⟩ := unboundCutting_eq landed c s
  have hstays : StripStays s c → (freeRecord landed c.id s).belt = s.belt ∧ (freeRecord landed c.id s).chain = s.chain := fun hs => by
    rw [freeRecord_of_stays h hs]
    exact ⟨hbelt, hchain⟩
  refine ⟨hf.tracking, hf.books, ?_, hf.chain, fun hs => (hstays hs).1, fun r hr ht hb => ?_, fun hk => ?_, ?_⟩
  · simpa using hf.cuttings
  · have hgone : ∀ m, m ∈ gone → m = c.id.strip := fun m hm => by simpa using (hf.left m hm).1
    refine ⟨?_, fun m hm => ?_⟩
    · rw [freeRecord_of_leaves h hr ht hb]
      have hstrips : (unbindStrip r.bank (stripGone c.id.strip r (unboundCutting landed c s))).belt =
          (stripGone c.id.strip r (unboundCutting landed c s)).belt := by
        rw [(unbindStrip_binsOnly r.bank (stripGone c.id.strip r (unboundCutting landed c s))).eq]
      unfold findStrip
      rw [hstrips, List.find?_eq_none]
      intro x hx
      have hx := (List.mem_filter.mp hx).2
      simpa using hx
    · rw [hf.findStrip, if_neg fun hg => hm (hgone m hg)]
  · obtain hs | hs := hk
    · exact (hstays hs).2
    · rw [freeRecord_freed h, leaveIfLast_chain, hchain]
      intro r hr
      refine hs r ?_
      unfold findStrip at hr ⊢
      rwa [hbelt] at hr
  · rw [freeRecord_freed h, leaveIfLast_referral, hreferral]

/-! ### The bins behind a freed record -/

/-- From s to t every bank keeps what is bound to it of strips and cuttings, and the ACTIVE bank stays the one it is. -/
def BoundKept (s t : State) : Prop := ∀ k : BankId, (t.recipe.banks[k].state = .active ↔ s.recipe.banks[k].state = .active) ∧
  t.recipe.banks[k].strips = s.recipe.banks[k].strips ∧ t.recipe.banks[k].cuttings = s.recipe.banks[k].cuttings

theorem BoundKept.of_recipe {s t : State} (h : t.recipe = s.recipe) : BoundKept s t := fun k => by rw [h]; exact ⟨.rfl, rfl, rfl⟩

theorem BoundKept.trans {s t u : State} (h : BoundKept s t) (k : BoundKept t u) : BoundKept s u := fun j =>
  ⟨(k j).1.trans (h j).1, (k j).2.1.trans (h j).2.1, (k j).2.2.trans (h j).2.2⟩

theorem BinWork.boundKept {B : Bin → Prop} {s t : State} (h : BinWork B s t) : BoundKept s t := fun k => by
  rw [h.banks k]
  exact ⟨.rfl, rfl, rfl⟩

theorem retireCheck_boundKept (k : BankId) (s : State) : BoundKept s (retireCheck k s) := fun j => by
  have hactive := ((retireCheck_binsKept k s).banks j).active_iff
  obtain ⟨st, hst⟩ := (retireCheck_rest k s).2.2 j
  rw [hst] at hactive ⊢
  exact ⟨hactive, rfl, rfl⟩

theorem retireAfter_boundKept {b : Bin} {f : State → State} {s : State} (h : BoundKept s (f s)) : BoundKept s (retireAfter b f s) := by
  unfold retireAfter
  split
  · exact h
  · exact h.trans (retireCheck_boundKept _ _)

theorem release_boundKept (b : Bin) (c n : Nat) (s : State) : BoundKept s (release b c n s) :=
  BoundKept.trans (t := releaseTotals b c n s) (.of_recipe rfl) (retireAfter_boundKept (reopenOrClose_work b _).boundKept)

theorem landPiece_boundKept (b : Bin) (n : Nat) (s : State) : BoundKept s (landPiece b n s) :=
  BoundKept.trans (s := s) (.of_recipe rfl) (retireAfter_boundKept (closeTest_work b _).boundKept)

theorem releaseReservation_boundKept (c : Cutting) (landed : Bool) (s : State) : BoundKept s (releaseReservation c landed s) := by
  unfold releaseReservation
  split
  · split
    · exact .of_recipe rfl
    · exact release_boundKept _ _ _ _
  · exact .of_recipe rfl

/-- What a record takes along of its bundle is its reservation (R131, R160). -/
theorem withoutCutting_bins (landed : Bool) (c : Cutting) (s : State) :
    let u := withdraw (fun k => k == .transfer c.id) (abandonRuns c.id s)
    (withoutCutting landed c s).bundles = (releaseReservation c landed u).bundles ∧
      (withoutCutting landed c s).label = (releaseReservation c landed u).label ∧
      (withoutCutting landed c s).recipe = (releaseReservation c landed u).recipe ∧
      (withoutCutting landed c s).link = (releaseReservation c landed u).link := by
  dsimp only
  unfold withoutCutting
  rw [recordGone_eq]
  exact ⟨rfl, rfl, rfl, rfl⟩

theorem withoutCutting_boundKept (landed : Bool) (c : Cutting) (s : State) : BoundKept s (withoutCutting landed c s) := by
  have hr := (withoutCutting_bins landed c s).2.2.1
  have h0 : BoundKept s (withdraw (fun k => k == .transfer c.id) (abandonRuns c.id s)) := .of_recipe (by rw [abandonRuns_eq]; rfl)
  exact (h0.trans (releaseReservation_boundKept c landed _)).trans (.of_recipe hr)

/-- A freed record reaches no bundle but its own: no strip leaves with it and its bank is not left without strips and cuttings, or the bank is the
ACTIVE one and a strip that leaves is of that bank too. -/
def FreeStandsAlone (s : State) (c : Cutting) : Prop :=
  StripStays s c ∧ (s.recipe.banks[c.bank].state = .active ∨ s.recipe.banks[c.bank].strips ≠ 0 ∨ 2 ≤ s.recipe.banks[c.bank].cuttings) ∨
    s.recipe.banks[c.bank].state = .active ∧ ∀ r, findStrip s c.id.strip = some r → r.bank = c.bank

theorem freeStandsAlone_of_active {s : State} {c : Cutting} (h : ReleaseStandsAlone s c) (ha : s.recipe.banks[c.bank].state = .active) :
    FreeStandsAlone s c := by
  obtain h | h := h
  · exact .inl ⟨h, .inl ha⟩
  · exact .inr ⟨ha, h⟩

theorem FreeStandsAlone.congr {s t : State} {c : Cutting} (h : FreeStandsAlone s c) (hb : t.belt = s.belt) (hc : t.cuttings = s.cuttings)
    (hk : BoundKept s t) : FreeStandsAlone t c := by
  obtain ⟨hactive, hstrips, hcuttings⟩ := hk c.bank
  unfold FreeStandsAlone findStrip
  rw [StripStays.congr hb hc, hactive, hstrips, hcuttings, hb]
  exact h

theorem freeRecord_quiet {landed : Bool} {s : State} {c : Cutting} (h : findCutting s c.id = some c) (ha : FreeStandsAlone s c) :
    QuietReport (withoutCutting landed c s) (freeRecord landed c.id s) ∧
      (freeRecord landed c.id s).recipe.banks[c.bank].cuttings = s.recipe.banks[c.bank].cuttings - 1 := by
  obtain ⟨hactive, hstrips, hcuttings⟩ := withoutCutting_boundKept landed c s c.bank
  have hbound : s.recipe.banks[c.bank].state = .active ∨ s.recipe.banks[c.bank].strips ≠ 0 ∨ 2 ≤ s.recipe.banks[c.bank].cuttings := by
    obtain ⟨_, h⟩ | ⟨h, _⟩ := ha
    · exact h
    · exact .inl h
  obtain ⟨hquiet, hcount⟩ := unbindCutting_quiet (s := withoutCutting landed c s) (k := c.bank) (by rwa [hactive, hstrips, hcuttings])
  rw [hcuttings] at hcount
  by_cases hs : StripStays s c
  · rw [freeRecord_of_stays h hs]
    exact ⟨hquiet, hcount⟩
  · obtain ⟨hs', _⟩ | ⟨hact, hbank⟩ := ha
    · exact absurd hs' hs
    unfold StripStays at hs
    push Not at hs
    obtain ⟨r, hr, ht, hb⟩ := hs
    rw [freeRecord_of_leaves h hr ht hb, hbank r hr]
    have hstill := ((unbindCutting_binsKept c.bank (withoutCutting landed c s)).banks c.bank).active_iff.mpr (hactive.mpr hact)
    unfold unboundCutting
    generalize unbindCutting c.bank (withoutCutting landed c s) = u at *
    obtain ⟨hq, hc⟩ := unbindStrip_quiet (s := stripGone c.id.strip r u) (k := c.bank) hstill
    have hgone : QuietReport u (stripGone c.id.strip r u) := ⟨rfl, rfl, fun _ => rfl⟩
    refine ⟨hquiet.trans (hgone.trans hq), ?_⟩
    rw [hc]
    exact hcount

/-! ### A bundle written back (R159, R160) -/

/-- The state with bundle x in bin b. -/
def withBundle (b : Bin) (x : Bundle) (s : State) : State :=
  { s with bundles := { s.bundles with bins := setAt s.bundles.bins b { s.bundles.bins[b] with bundle := some x } } }

theorem withBundle_bin (b : Bin) (x : Bundle) (s : State) :
    (withBundle b x s).bundles.bins[b] = { s.bundles.bins[b] with bundle := some x } := setAt_self _ _ _

theorem withBundle_other {b b' : Bin} (h : b' ≠ b) (x : Bundle) (s : State) : (withBundle b x s).bundles.bins[b'] = s.bundles.bins[b'] :=
  setAt_other _ _ h.symm

theorem withBundle_work (b : Bin) (x : Bundle) (s : State) : BinWork (· = b) s (withBundle b x s) :=
  mapBin_work (f := fun r => { r with bundle := some x }) rfl

theorem mapBundle_eq {b : Bin} {bu : Bundle} {s : State} (h : s.bundles.bins[b].bundle = some bu) (f : Bundle → Bundle) :
    mapBundle b f s = withBundle b (f bu) s := by
  have hr : { s.bundles.bins[b] with bundle := s.bundles.bins[b].bundle.map f } = { s.bundles.bins[b] with bundle := some (f bu) } := by
    rw [h]
    rfl
  exact congrArg (fun r : BinRecord => { s with bundles := { s.bundles with bins := setAt s.bundles.bins b r } }) hr

/-- The bundle bu with a piece of length n landed (R159). -/
def Bundle.landPiece (bu : Bundle) (n : Nat) : Bundle :=
  { bu with landedCount := bu.landedCount + 1, landedCoverage := bu.landedCoverage + n * bu.w }

theorem landPiece_eq {b : Bin} {bu : Bundle} {n : Nat} {s : State} (h : s.bundles.bins[b].bundle = some bu) :
    landPiece b n s = retireCheck bu.bank (closeTest b (withBundle b (bu.landPiece n) s)) := by
  unfold landPiece
  rw [mapBundle_eq h]
  exact retireAfter_of_some (bu := bu.landPiece n) (congrArg BinRecord.bundle (withBundle_bin b _ s)) _

theorem release_eq {b : Bin} {bu : Bundle} {c n : Nat} {s : State} (h : s.bundles.bins[b].bundle = some bu) :
    release b c n s = retireCheck bu.bank (reopenOrClose b (withBundle b (bu.releasePiece c n) s)) := by
  unfold release releaseTotals
  rw [mapBundle_eq h]
  exact retireAfter_of_some (bu := bu.releasePiece c n) (congrArg BinRecord.bundle (withBundle_bin b _ s)) _

theorem releaseReservation_landed (c : Cutting) (s : State) : releaseReservation c true s = s := by
  unfold releaseReservation
  split <;> rfl

theorem releaseReservation_of_bin {c : Cutting} {b : Bin} (h : c.dest = some (.bin b)) (s : State) :
    releaseReservation c false s = release b c.cls c.nominal s := by
  unfold releaseReservation
  rw [h]
  rfl

end Sys2Proof.Machine
end

