-- ==== Sys2Proof/Proofs/Landings.lean ====
section
/-! PROOFS. The landings (R142, R159) with the closures that they bring. -/

namespace Sys2Proof.Machine

/-! ### The bundle that a piece lands in -/

section
variable {s : State} {b : Bin} {bu : Bundle} {n : Nat} (h : s.bundles.bins[b].bundle = some bu)
include h

/-- A bundle not FILLED, or with pieces in flight, closes not. -/
theorem landPiece_waits (hw : s.bundles.bins[b].state ≠ .filled ∨ bu.count ≠ bu.landedCount + 1) :
    QuietReport (withBundle b (bu.landPiece n) s) (landPiece b n s) := by
  have hbin := withBundle_bin b (bu.landPiece n) s
  have htest : closeTest b (withBundle b (bu.landPiece n) s) = withBundle b (bu.landPiece n) s := by
    obtain hw | hw := hw
    · exact closeTest_of_state (by rw [hbin]; exact hw)
    · exact closeTest_of_count (bu := bu.landPiece n) (by rw [hbin]) hw
  rw [landPiece_eq h, htest]
  exact retireCheck_quiet _ _

/-- The last piece in flight of a FILLED bundle closes it (R162). -/
theorem landPiece_closes (hf : s.bundles.bins[b].state = .filled) (hc : bu.count = bu.landedCount + 1) :
    Closes b (bu.landPiece n) (withBundle b (bu.landPiece n) s) (landPiece b n s) := by
  have hbin := withBundle_bin b (bu.landPiece n) s
  have hbundle : (withBundle b (bu.landPiece n) s).bundles.bins[b].bundle = some (bu.landPiece n) := by rw [hbin]
  rw [landPiece_eq h, closeTest_closes hbundle (by rw [hbin]; exact hf) hc]
  exact (closeBundle_closes hbundle).retireCheck bu.bank

end

/-! ### The event of a landing -/

section
variable {s : State} {b : Bin} {c : Cutting}

/-- The state in which the record of the landed cutting is freed (R142). -/
def pieceLanded (b : Bin) (c : Cutting) (s : State) : State := landPiece b c.nominal (setWindow b none s)

theorem pieceLanded_eq (b : Bin) (c : Cutting) (s : State) : pieceLanded b c s = { s with
    chain := { s.chain with windows := setAt s.chain.windows b none }
    bundles := (pieceLanded b c s).bundles
    label := (pieceLanded b c s).label
    recipe := (pieceLanded b c s).recipe
    link := (pieceLanded b c s).link } := (landPiece_binsOnly b c.nominal (setWindow b none s)).eq

theorem pieceLanded_boundKept (b : Bin) (c : Cutting) (s : State) : BoundKept s (pieceLanded b c s) :=
  BoundKept.trans (t := setWindow b none s) (.of_recipe rfl) (landPiece_boundKept b c.nominal _)

theorem pieceLanded_findCutting (b : Bin) (c : Cutting) (s : State) (id : CuttingId) :
    findCutting (pieceLanded b c s) id = findCutting s id := by
  unfold findCutting
  rw [pieceLanded_eq]

theorem exec_landed (hreset : s.inReset = false) (hw : s.chain.windows[b] = some c.id) (hc : findCutting s c.id = some c) :
    exec (.landingEdge b) s = .next (event (land b c) s) := by
  rw [exec_landingEdge b hreset]
  unfold takeLanding
  rw [hw]
  dsimp only
  rw [hc]

/-- What a landing makes of the tables: the window, the record and the strip (R17, R142). -/
theorem landed_tables (hc : findCutting s c.id = some c) :
    (event (land b c) s).chain.windows = setAt s.chain.windows b none ∧ (event (land b c) s).chain.deck = s.chain.deck ∧
      (event (land b c) s).cuttings = s.cuttings.filter (fun x => decide (x.id ≠ c.id)) ∧
      (StripStays s c → (event (land b c) s).belt = s.belt) ∧ StripLeaves s (event (land b c) s) c := by
  have heq := pieceLanded_eq b c s
  have hf : RecordFreed c (pieceLanded b c s) (land b c s) :=
    freeRecord_recordFreed (landed := true) ((pieceLanded_findCutting b c s c.id).trans hc)
  have he := event_follows (land b c) s
  have hbelt : (pieceLanded b c s).belt = s.belt := by rw [heq]
  have hcut : (pieceLanded b c s).cuttings = s.cuttings := by rw [heq]
  have hchain : (pieceLanded b c s).chain = { s.chain with windows := setAt s.chain.windows b none } := by rw [heq]
  have hfind : ∀ n, findStrip (pieceLanded b c s) n = findStrip s n := fun n => by unfold findStrip; rw [hbelt]
  refine ⟨?_, ?_, ?_, fun hs => ?_, fun r hr ht hb => ?_⟩
  · rw [he.chain, hf.deck, hchain]
  · rw [he.chain, hf.deck, hchain]
  · rw [he.cuttings, hf.cuttings, hcut]
  · rw [he.belt, hf.belt ((StripStays.congr hbelt hcut).mpr hs), hbelt]
  · obtain ⟨hgone, hother⟩ := hf.leaves r (by rw [hfind]; exact hr) ht (by rw [beltCuttings_congr hcut]; exact hb)
    exact ⟨(he.findStrip _).trans hgone, fun m hm => by rw [he.findStrip, hother m hm, hfind]⟩

/-- What a landing that reaches no other bundle makes of the bins is what it makes of its own. -/
theorem landed_quiet (hc : findCutting s c.id = some c) (ha : FreeStandsAlone s c) :
    QuietReport (pieceLanded b c s) (event (land b c) s) ∧
      (event (land b c) s).recipe.banks[c.bank].cuttings = s.recipe.banks[c.bank].cuttings - 1 ∧
      (event (land b c) s).referral = s.referral := by
  have heq := pieceLanded_eq b c s
  have hfound := (pieceLanded_findCutting b c s c.id).trans hc
  have hf : RecordFreed c (pieceLanded b c s) (land b c s) := freeRecord_recordFreed (landed := true) hfound
  have he := event_follows (land b c) s
  have hbound := pieceLanded_boundKept b c s
  have halone : FreeStandsAlone (pieceLanded b c s) c := ha.congr (by rw [heq]) (by rw [heq]) hbound
  obtain ⟨hq, hcount⟩ := freeRecord_quiet (landed := true) hfound halone
  obtain ⟨hbundles, hlabel, hrecipe, -⟩ := withoutCutting_bins true c (pieceLanded b c s)
  rw [releaseReservation_landed] at hbundles hlabel hrecipe
  have hgrade : QuietReport (pieceLanded b c s) (withoutCutting true c (pieceLanded b c s)) := by
    refine ⟨hbundles.trans ?_, hlabel.trans ?_, fun j => ?_⟩
    · rw [abandonRuns_eq]; rfl
    · rw [abandonRuns_eq]; rfl
    · rw [hrecipe, abandonRuns_eq]; rfl
  have hevent : QuietReport (land b c s) (event (land b c) s) := by
    refine ⟨he.bundles, by rw [he.eq], fun j => by rw [he.recipe]⟩
  refine ⟨hgrade.trans (QuietReport.trans hq hevent), ?_, ?_⟩
  · rw [he.recipe]
    exact hcount.trans (by rw [(hbound c.bank).2.2])
  · rw [he.eq]
    exact hf.referral.trans (by rw [heq])

end

/-! ### A landing that leaves its bank without strips and cuttings (R166) -/

/-- The report of the last cutting of a bank that is not ACTIVE and has no strip brings the generation close of an OPEN bundle of that bank. -/
theorem unbindCutting_genCloses {k : BankId} {s : State} {b : Bin} {bu : Bundle} (ha : s.recipe.banks[k].state ≠ .active)
    (hs : s.recipe.banks[k].strips = 0) (hc : s.recipe.banks[k].cuttings ≤ 1) (ho : s.bundles.bins[b].state = .opened)
    (hb : s.bundles.bins[b].bundle = some bu) (hk : bu.bank = k) (hn : bu.count ≠ 0) :
    (bu.count ≠ bu.landedCount → (unbindCutting k s).bundles.bins[b] =
        { s.bundles.bins[b] with state := .filled, bundle := some { bu with short := true } }) ∧
      (bu.count = bu.landedCount → BinClosed s (unbindCutting k s) b { bu with short := true }) := by
  have hself := mapBank_bank k (fun r => { r with cuttings := r.cuttings - 1 }) s
  unfold unbindCutting reportUnbound
  have hbundles : (mapBank k (fun r => { r with cuttings := r.cuttings - 1 }) s).bundles = s.bundles := rfl
  have hlink : (mapBank k (fun r => { r with cuttings := r.cuttings - 1 }) s).link = s.link := rfl
  generalize mapBank k (fun r => { r with cuttings := r.cuttings - 1 }) s = v at *
  have hact : v.recipe.banks[k].state ≠ .active := by rw [hself]; exact ha
  have hstrips : v.recipe.banks[k].strips = 0 := by rw [hself]; exact hs
  have hcut : v.recipe.banks[k].cuttings = 0 := by rw [hself]; exact Nat.sub_eq_zero_of_le hc
  rw [if_pos ⟨hact, hstrips, hcut⟩, ← hbundles]
  obtain ⟨u, hu, ht⟩ := genClose_at b v
  have hg := genCloses_of_work hu ht (by rw [hbundles]; exact ho) (by rw [hbundles]; exact hb)
  have hdue : closeDue v bu = true := by
    subst hk
    exact closeDue_of_unbound (fun h => hact (activeBank_eq_some h)) hstrips hcut
  have hret := (retireCheck_rest k (genClose v)).1
  refine ⟨fun hl => ?_, fun hl => ?_⟩
  · rw [hret]
    exact hg.waits hdue hn hl
  · exact (hg.closes hdue hn hl).congr hbundles.symm (by rw [hlink]) hret

section
variable {s : State} {b : Bin} {c : Cutting}

/-- The bins as the Cutting Table frees the landed record. -/
theorem withoutLanded_bundles (b : Bin) (c : Cutting) (s : State) :
    (withoutCutting true c (pieceLanded b c s)).bundles = (pieceLanded b c s).bundles := by
  rw [(withoutCutting_bins true c (pieceLanded b c s)).1, releaseReservation_landed, abandonRuns_eq]
  rfl

/-- After the report to the bank a landing acts on OPEN bins alone. -/
theorem landed_openBins (hc : findCutting s c.id = some c) :
    OpenBinsAlone (unboundCutting true c (pieceLanded b c s)) (event (land b c) s) := by
  have hland : land b c s = leaveIfLast c.id.strip (unboundCutting true c (pieceLanded b c s)) :=
    freeRecord_freed ((pieceLanded_findCutting b c s c.id).trans hc)
  refine OpenBinsAlone.trans ?_ (.of_bundles (event_follows (land b c) s).bundles)
  rw [hland]
  exact leaveIfLast_openBins _ _

/-- A bin not OPEN that the piece closes not holds the bundle with the piece landed. -/
theorem landed_stays {bu : Bundle} (hc : findCutting s c.id = some c) (hb : s.bundles.bins[b].bundle = some bu)
    (ho : s.bundles.bins[b].state ≠ .opened) (hf : s.bundles.bins[b].state ≠ .filled) :
    (event (land b c) s).bundles.bins[b] = { s.bundles.bins[b] with bundle := some (bu.landPiece c.nominal) } := by
  have hland := (landPiece_waits (s := setWindow b none s) (n := c.nominal) hb (.inl hf)).bundles
  have hbin : (pieceLanded b c s).bundles.bins[b] = { s.bundles.bins[b] with bundle := some (bu.landPiece c.nominal) } := by
    show (landPiece b c.nominal (setWindow b none s)).bundles.bins[b] = _
    rw [hland]
    exact withBundle_bin b _ _
  have hwithout := withoutLanded_bundles b c s
  have hopen : OpenBinsAlone (withoutCutting true c (pieceLanded b c s)) (event (land b c) s) :=
    (unbindCutting_openBins c.bank _).trans (landed_openBins hc)
  rw [hopen.bin b (by rw [hwithout, hbin]; exact ho), hwithout, hbin]

/-- The last cutting of a bank that is not ACTIVE and has no strip lands in an OPEN bundle of that bank (R166). -/
theorem landed_genClose {bu : Bundle} (hc : findCutting s c.id = some c) (hb : s.bundles.bins[b].bundle = some bu)
    (ha : s.recipe.banks[c.bank].state ≠ .active) (hs : s.recipe.banks[c.bank].strips = 0) (hn : s.recipe.banks[c.bank].cuttings ≤ 1)
    (ho : s.bundles.bins[b].state = .opened) (hk : bu.bank = c.bank) (hcount : bu.count ≠ 0) :
    (bu.count ≠ bu.landedCount + 1 → (event (land b c) s).bundles.bins[b] =
        { s.bundles.bins[b] with state := .filled, bundle := some { bu.landPiece c.nominal with short := true } }) ∧
      (bu.count = bu.landedCount + 1 → BinClosed s (event (land b c) s) b { bu.landPiece c.nominal with short := true }) := by
  have hopened : s.bundles.bins[b].state ≠ .filled := by rw [ho]; nofun
  have hland := (landPiece_waits (s := setWindow b none s) (n := c.nominal) hb (.inl hopened)).bundles
  have hbundles : (withoutCutting true c (pieceLanded b c s)).bundles = (withBundle b (bu.landPiece c.nominal) s).bundles :=
    (withoutLanded_bundles b c s).trans hland
  have hbin : (withoutCutting true c (pieceLanded b c s)).bundles.bins[b] =
      { s.bundles.bins[b] with bundle := some (bu.landPiece c.nominal) } := by
    rw [hbundles]
    exact withBundle_bin b _ _
  have hnext : (withoutCutting true c (pieceLanded b c s)).bundles.nextClose = s.bundles.nextClose := by rw [hbundles]; rfl
  have hclock : (withoutCutting true c (pieceLanded b c s)).link.clock = s.link.clock := by
    rw [(withoutCutting_trackingOnly true c _).link.clock]
    exact (landPiece_binsOnly b c.nominal (setWindow b none s)).link.clock
  obtain ⟨hactive, hstrips, hcuttings⟩ :=
    ((pieceLanded_boundKept b c s).trans (withoutCutting_boundKept true c (pieceLanded b c s))) c.bank
  have hlater : OpenBinsAlone (unbindCutting c.bank (withoutCutting true c (pieceLanded b c s))) (event (land b c) s) := landed_openBins hc
  generalize withoutCutting true c (pieceLanded b c s) = w at *
  obtain ⟨hwaits, hcloses⟩ := unbindCutting_genCloses (s := w) (b := b) (bu := bu.landPiece c.nominal) (k := c.bank)
    (mt hactive.mp ha) (by rw [hstrips]; exact hs) (by rw [hcuttings]; exact hn) (by rw [hbin]; exact ho) (by rw [hbin]) hk hcount
  refine ⟨fun hl => ?_, fun hl => ?_⟩
  · have hfilled := hwaits hl
    rw [hlater.bin b (by rw [hfilled]; nofun), hfilled, hbin]
  · have hclosed := hcloses hl
    have hstate : (unbindCutting c.bank w).bundles.bins[b].state ≠ .opened := by
      obtain ⟨_, _, _, _, _, _, _, hst | hst⟩ := hclosed <;> rw [hst] <;> nofun
    have hlevel : w.bundles.bins[b].emptyLevel = s.bundles.bins[b].emptyLevel := by rw [hbin]
    refine BinClosed.earlier ?_ hclock (Nat.le_of_eq hnext.symm) hlevel
    obtain ⟨y, q, hy, heq, hlo, hhi, hl, hst⟩ := hclosed
    rw [← hlater.bin b hstate] at hy hl hst
    exact ⟨y, q, hy, heq, hlo, Nat.lt_of_lt_of_le hhi hlater.nextClose, hl, hst⟩

/-! ### A landing with no window open (R144) -/

theorem takeLanding_stray (hw : s.chain.windows[b] = none) : takeLanding b s = strayLanding b s := by
  unfold takeLanding
  rw [hw]

/-- The fault of a stray landing over object o, and the STRAY flag of the bundle in the bin (R144, R170). -/
theorem strayLanding_rest {o : FaultObject}
    (h : strayLanding b s = flagStray b (logFault .chain 4 (some (binNumber b)) o s.motion.lug s)) :
    (strayLanding b s).bundles = { s.bundles with bins := setAt s.bundles.bins b { s.bundles.bins[b] with
        bundle := s.bundles.bins[b].bundle.map (fun bu => { bu with stray := true }) } } ∧
      (strayLanding b s).link = (logFault .chain 4 (some (b.val + 1)) o s.motion.lug s).link ∧ (strayLanding b s).cuttings = s.cuttings ∧
      (strayLanding b s).chain = s.chain ∧ (strayLanding b s).line = s.line ∧ (strayLanding b s).recipe = s.recipe := by
  have hlog := logFault_linkOnly .chain 4 (some (binNumber b)) o s.motion.lug s
  rw [h]
  refine ⟨?_, rfl, hlog.cuttings, hlog.chain, hlog.line, hlog.recipe⟩
  show (mapBin b _ (logFault .chain 4 (some (binNumber b)) o s.motion.lug s)).bundles = _
  unfold mapBin
  rw [hlog.bundles]

end

end Sys2Proof.Machine
open Sys2Proof Sys2Proof.Machine

/-- Settles O40: the tables from the freed record, its own bin from the landing and its closure, and the other bins from the report to the bank,
which is quiet where the landing stands alone and brings the generation close where it leaves the bank empty. -/
theorem landingsReachTheirBundle : Obligations.LandingsReachTheirBundle := by
  unfold Obligations.LandingsReachTheirBundle
  refine ⟨fun s b c bu landed hreset hw hc hb hlanded => ?_, fun s b hreset hw => ?_⟩
  · obtain rfl : landed = bu.landPiece c.nominal := hlanded
    have hexec := exec_landed hreset hw hc
    refine ⟨⟨_, hexec, landed_tables hc⟩, fun halone => ⟨fun hst => ⟨_, hexec, ?_⟩, fun hf hcount => ?_⟩, fun u hu => ⟨_, hexec, ?_⟩,
      fun ha hs hn ho hk hcount => ?_⟩
    · obtain ⟨hq, hcount, href⟩ := landed_quiet (b := b) hc halone
      have hwaits : s.bundles.bins[b].state ≠ .filled ∨ bu.count ≠ bu.landedCount + 1 := by
        obtain ho | ⟨_, hn⟩ | ⟨u, hu⟩ := hst
        · exact .inl (by rw [ho]; nofun)
        · exact .inr hn
        · exact .inl (by rw [hu]; nofun)
      have hland := landPiece_waits (s := setWindow b none s) (n := c.nominal) hb hwaits
      have hall := hland.trans hq
      exact ⟨hall.bundles, hcount, hall.label, href⟩
    · obtain ⟨hq, -, -⟩ := landed_quiet (b := b) hc halone
      have hcl := landPiece_closes (s := setWindow b none s) (n := c.nominal) hb hf hcount
      have hbin := withBundle_bin b (bu.landPiece c.nominal) (setWindow b none s)
      have hqb : (event (land b c) s).bundles = (landPiece b c.nominal (setWindow b none s)).bundles := hq.bundles
      have hql : (event (land b c) s).label = (landPiece b c.nominal (setWindow b none s)).label := hq.label
      refine ⟨_, closedBundle (withBundle b (bu.landPiece c.nominal) (setWindow b none s)) (bu.landPiece c.nominal), hexec, ?_, rfl, ?_,
        fun b' hne => ?_, ?_, fun hroom => ?_, fun hfull => ?_⟩
      · rw [hqb, hcl.bin]
      · rw [hqb]
        exact hcl.nextClose
      · rw [hqb, hcl.other b' hne, withBundle_other hne]
        rfl
      · rw [hq.counts]
        exact hcl.bank
      · refine ⟨?_, ?_⟩
        · rw [hqb, hcl.bin]
          exact if_pos hroom
        · rw [hql]
          exact hcl.queued hroom
      · refine ⟨?_, ?_⟩
        · rw [hqb, hcl.bin]
          exact if_neg (Nat.not_lt_of_le hfull)
        · rw [hql]
          exact hcl.full hfull
    · exact landed_stays hc hb (by rw [hu]; nofun) (by rw [hu]; nofun)
    · obtain ⟨hwaits, hcloses⟩ := landed_genClose hc hb ha hs hn ho hk hcount
      by_cases hl : bu.count = bu.landedCount + 1
      · obtain ⟨y, q, hy, heq, hlo, hhi, -, hst⟩ := hcloses hl
        refine ⟨_, y, hexec, hy, ?_, fun _ => ⟨?_, ⟨q, hlo, hhi, ?_⟩, hst⟩, fun hne => absurd hl hne⟩
        · rw [heq]
        · rw [heq]
        · rw [heq]
      · have hfilled := hwaits hl
        exact ⟨_, { bu.landPiece c.nominal with short := true }, hexec, congrArg BinRecord.bundle hfilled, rfl, fun he => absurd he hl,
          fun _ => ⟨rfl, congrArg BinRecord.state hfilled⟩⟩
  · have hexec : exec (.landingEdge b) s = .next (strayLanding b s) := by rw [exec_landingEdge b hreset, takeLanding_stray hw]
    exact ⟨_, hexec, strayLanding_rest rfl⟩

end

