-- ==== Sys2Proof/Proofs/Returns.lean ====
section
/-! PROOFS. The release of a reservation (R160 to R162), and the return of a cutting (R146, R147) with what it brings. -/

namespace Sys2Proof.Machine

/-! ### The bundle that a release leaves (R161, R162) -/

section
variable {u : State} {b : Bin} {bu x : Bundle} {c n : Nat} (h : u.bundles.bins[b].bundle = some bu) (hx : x = bu.releasePiece c n)
include h hx

theorem release_of_reopenOrClose : (release b c n u).bundles = (reopenOrClose b (withBundle b x u)).bundles ∧
      LinkGrows (reopenOrClose b (withBundle b x u)).link (release b c n u).link := by
  rw [hx, release_eq h]
  exact ⟨(retireCheck_rest _ _).1, (retireCheck_binsOnly _ _).link⟩

/-- A bundle that neither reopens nor closes loses the piece and keeps its state. -/
theorem release_stays (hs : u.bundles.bins[b].state = .opened ∨ u.bundles.bins[b].state = .held .opened ∨
      (u.bundles.bins[b].state = .filled ∧ x.count ≠ x.landedCount ∨ u.bundles.bins[b].state = .held .filled) ∧
        (x.short = true ∨ x.belowFill = false)) :
    (release b c n u).bundles = (withBundle b x u).bundles := by
  have hbin := withBundle_bin b x u
  have hbundle : (withBundle b x u).bundles.bins[b].bundle = some x := by rw [hbin]
  have hstate : (withBundle b x u).bundles.bins[b].state = u.bundles.bins[b].state := by rw [hbin]
  have hid : reopenOrClose b (withBundle b x u) = withBundle b x u := by
    obtain ho | ho | ⟨⟨hf, hn⟩ | hf, hw⟩ := hs
    · exact reopenOrClose_stays hbundle (by rw [hstate, ho]; nofun) (.inl (by rw [hstate, ho]; nofun))
    · exact reopenOrClose_stays hbundle (by rw [hstate, ho]; nofun) (.inl (by rw [hstate, ho]; nofun))
    · rw [reopenOrClose_tests hbundle (by rw [hstate, hf]) hw]
      exact closeTest_of_count hbundle hn
    · exact reopenOrClose_stays hbundle (by rw [hstate, hf]; nofun) (.inr hw)
  rw [(release_of_reopenOrClose h hx).1, hid]

/-- A bundle FILLED, or HELD over FILLED, and not SHORT that falls below its fill point reopens (R161). -/
theorem release_reopens {st : BinState}
    (hs : u.bundles.bins[b].state = .filled ∧ st = .opened ∨ u.bundles.bins[b].state = .held .filled ∧ st = .held .opened)
    (hshort : x.short = false) (hb : x.belowFill = true) :
    (release b c n u).bundles =
        { u.bundles with bins := setAt u.bundles.bins b { u.bundles.bins[b] with state := st, bundle := some x } } ∧
      LinkGrows (u.link.offer (.bundle ⟨.reopened, b, x, st, u.link.clock⟩)) (release b c n u).link := by
  have hbin := withBundle_bin b x u
  have hbundle : (withBundle b x u).bundles.bins[b].bundle = some x := by rw [hbin]
  have hstate : (withBundle b x u).bundles.bins[b].state = u.bundles.bins[b].state := by rw [hbin]
  have hre : reopenOrClose b (withBundle b x u) =
      bundleNotice .reopened b x st (mapBin b (fun r => { r with state := st }) (withBundle b x u)) := by
    obtain ⟨hf, rfl⟩ | ⟨hf, rfl⟩ := hs
    · exact reopenOrClose_reopens hbundle (by rw [hstate, hf]) hshort hb
    · exact reopenOrClose_held hbundle (by rw [hstate, hf]) hshort hb
  obtain ⟨hbundles, hlink⟩ := release_of_reopenOrClose h hx
  rw [hre] at hbundles hlink
  refine ⟨?_, hlink⟩
  rw [hbundles]
  show { u.bundles with bins := setAt (withBundle b x u).bundles.bins b { (withBundle b x u).bundles.bins[b] with state := st } } = _
  rw [hbin]
  exact congrArg (fun v => { u.bundles with bins := v }) (setAt_setAt ..)

/-- One that does not reopen closes with nothing of it in flight (R162). -/
theorem release_closes (hf : u.bundles.bins[b].state = .filled) (hw : x.short = true ∨ x.belowFill = false)
    (hc : x.count = x.landedCount) : Closes b x (withBundle b x u) (release b c n u) := by
  have hbin := withBundle_bin b x u
  have hbundle : (withBundle b x u).bundles.bins[b].bundle = some x := by rw [hbin]
  have hstate : (withBundle b x u).bundles.bins[b].state = .filled := by rw [hbin]; exact hf
  have hre : release b c n u = retireCheck bu.bank (closeBundle b (withBundle b x u)) := by
    rw [← closeTest_closes hbundle hstate hc, ← reopenOrClose_tests hbundle hstate hw, hx]
    exact release_eq h
  rw [hre]
  exact (closeBundle_closes hbundle).retireCheck bu.bank

end

/-- Where the bins end as the release for c leaves them, ReleasedFrom says what became of its bundle. -/
theorem releasedFrom_of_release {s u t : State} {b : Bin} {bu : Bundle} {c : Cutting} (hbundles : u.bundles = s.bundles)
    (hclock : u.link.clock = s.link.clock) (hmask : u.link.mask = s.link.mask)
    (ht : t.bundles = (release b c.cls c.nominal u).bundles) (hlink : LinkGrows (release b c.cls c.nominal u).link t.link) :
    ReleasedFrom s t b bu c := by
  intro hb _ x hx
  rw [← hbundles] at hb ⊢
  have hnotice : ∀ st, LinkGrows (u.link.offer (.bundle ⟨.reopened, b, x, st, u.link.clock⟩)) (release b c.cls c.nominal u).link →
      BundleNoticeSent s t ⟨.reopened, b, x, st, s.link.clock⟩ := fun st hg hm hr => by
    rw [← hclock]
    rw [← hmask] at hm
    exact LinkPort.mem_offer hm (hg.trans hlink) hr
  refine ⟨fun hs => ?_, fun hf hshort hbelow => ?_, fun hf hshort hbelow => ?_, fun hf hw hc => ?_⟩
  · rw [ht, release_stays hb hx hs]
    rfl
  · obtain ⟨hbins, hg⟩ := release_reopens hb hx (.inl ⟨hf, rfl⟩) hshort hbelow
    exact ⟨ht.trans hbins, hnotice _ hg⟩
  · obtain ⟨hbins, hg⟩ := release_reopens hb hx (.inr ⟨hf, rfl⟩) hshort hbelow
    exact ⟨ht.trans hbins, hnotice _ hg⟩
  · have hcl := release_closes hb hx hf hw hc
    refine binClosed_of_closes hcl hclock (Nat.le_of_eq (by rw [← hbundles]; rfl)) ?_ (by rw [ht]) (Nat.le_of_eq (by rw [ht]))
    rw [withBundle_bin, ← hbundles]

/-! ### The free of a cutting that goes to return -/

theorem freeCuttings_one (id : CuttingId) (s : State) :
    freeCuttings [id] s = freeRecord false id (promoteAll (endReferral id .withdrawn s)) := rfl

/-- The end of a cutting's referral and the promotion that follows it (R126). -/
theorem withdrawn_only (id : CuttingId) (s : State) : ReferralsOnly s (promoteAll (endReferral id .withdrawn s)) :=
  (endReferral_referralsOnly id _ s).trans (promoteAll_referralsOnly _)

theorem withdrawn_books (id : CuttingId) (s : State) : BooksKept s (promoteAll (endReferral id .withdrawn s)) :=
  (endReferral_books id .withdrawn s).trans (promote_books _ _)

theorem ReferralsOnly.findCutting {s t : State} (h : ReferralsOnly s t) (id : CuttingId) : findCutting t id = Machine.findCutting s id := by
  rw [h.eq]
  rfl

/-- What the free of cutting c in v makes of the tables, its referral apart. -/
theorem freeCuttings_tables {v : State} {c : Cutting} (hc : findCutting v c.id = some c) :
    TrackingOnly v (freeCuttings [c.id] v) ∧ BooksKept v (freeCuttings [c.id] v) ∧
      (freeCuttings [c.id] v).cuttings = v.cuttings.filter (fun x => decide (x.id ≠ c.id)) ∧
      (freeCuttings [c.id] v).chain = { v.chain with lastReturn := (freeCuttings [c.id] v).chain.lastReturn } ∧
      (StripStays v c → (freeCuttings [c.id] v).belt = v.belt) ∧ StripLeaves v (freeCuttings [c.id] v) c ∧
      (StripStays v c ∨ (∀ r, findStrip v c.id.strip = some r → r.state ≠ .unplanned ∧ r.state ≠ .lost) →
        (freeCuttings [c.id] v).chain = v.chain) := by
  have hr := withdrawn_only c.id v
  have hf : RecordFreed c (promoteAll (endReferral c.id .withdrawn v)) (freeCuttings [c.id] v) :=
    freeRecord_recordFreed (landed := false) ((hr.findCutting c.id).trans hc)
  have hb := withdrawn_books c.id v
  generalize promoteAll (endReferral c.id .withdrawn v) = w at *
  have hbelt : w.belt = v.belt := by rw [hr.eq]
  have hcut : w.cuttings = v.cuttings := by rw [hr.eq]
  have hchain : w.chain = v.chain := by rw [hr.eq]
  have hfind : ∀ n, findStrip w n = findStrip v n := fun n => by unfold findStrip; rw [hbelt]
  refine ⟨hr.trackingOnly.trans hf.tracking, hb.trans hf.books, by rw [hf.cuttings, hcut], ?_, fun hs => ?_, fun r hs ht hlast => ?_,
    fun hk => ?_⟩
  · rw [← hchain]
    exact hf.deck
  · rw [hf.belt ((StripStays.congr hbelt hcut).mpr hs), hbelt]
  · obtain ⟨hgone, hother⟩ := hf.leaves r (by rw [hfind]; exact hs) ht (by rw [beltCuttings_congr hcut]; exact hlast)
    exact ⟨hgone, fun m hm => by rw [hother m hm, hfind]⟩
  · rw [← hchain]
    refine hf.chain ?_
    rw [StripStays.congr hbelt hcut, hfind]
    exact hk

/-- Where the free of a cutting bound for bin b stands alone, the bins end as its release leaves them. -/
theorem freeCuttings_released {v : State} {c : Cutting} {b : Bin} (hc : findCutting v c.id = some c) (hd : c.dest = some (.bin b))
    (ha : FreeStandsAlone v c) : ∃ u, u.bundles = v.bundles ∧ u.link.clock = v.link.clock ∧ u.link.mask = v.link.mask ∧
      (freeCuttings [c.id] v).bundles = (release b c.cls c.nominal u).bundles ∧
      LinkGrows (release b c.cls c.nominal u).link (freeCuttings [c.id] v).link := by
  have hr := withdrawn_only c.id v
  have hcw := (hr.findCutting c.id).trans hc
  rw [freeCuttings_one]
  generalize promoteAll (endReferral c.id .withdrawn v) = w at *
  have hcutw : w.cuttings = v.cuttings := by rw [hr.eq]
  have hbeltw : w.belt = v.belt := by rw [hr.eq]
  have hbound : BoundKept v w := .of_recipe (by rw [hr.eq])
  have hq := (freeRecord_quiet (landed := false) hcw (ha.congr hbeltw hcutw hbound)).1
  obtain ⟨hbundles, -, -, hlink⟩ := withoutCutting_bins false c w
  rw [releaseReservation_of_bin hd] at hbundles hlink
  have hgrows : LinkGrows (withoutCutting false c w).link (freeRecord false c.id w).link := by
    rw [freeRecord_freed hcw]
    exact (unbindCutting_binsOnly c.bank _).link.trans (leaveIfLast_trackingOnly _ _).link
  rw [hlink] at hgrows
  have hulink : (withdraw (fun k => k == .transfer c.id) (abandonRuns c.id w)).link = w.link := abandonRuns_link c.id w
  have hubundles : (withdraw (fun k => k == .transfer c.id) (abandonRuns c.id w)).bundles = w.bundles := by
    rw [abandonRuns_eq]
    rfl
  refine ⟨_, ?_, ?_, ?_, hq.bundles.trans hbundles, hgrows⟩
  · rw [hubundles, hr.eq]
  · rw [hulink, hr.link.clock]
  · rw [hulink, hr.link.mask]

/-! ### A cutting that leaves the chain to return (R146) -/

/-- The LUG pulse that s takes has written the return of cutting c in v, and c is still to be freed. -/
structure ReturnWritten (s v : State) (c : Cutting) (why : ReturnReason) (released : Option Bin) : Prop where
  belt : v.belt = s.belt
  cuttings : v.cuttings = s.cuttings
  bundles : v.bundles = s.bundles
  recipe : v.recipe = s.recipe
  lug : v.motion.lug = s.motion.lug + 1
  travel : v.motion.travel = s.motion.travel
  windows : ∀ b : Bin, v.chain.windows[b] = none
  deck : v.chain.deck = []
  lastReturn : v.chain.lastReturn = some
    { object := .cutting c.id, reason := why, place := .lug (s.motion.lug + 1), clock := s.link.clock }
  clock : v.link.clock = s.link.clock
  mask : v.link.mask = s.link.mask
  notice : s.link.mask[5] = true → s.link.noticeCount < Config.noticeCapacity →
    TxFrame.notice (.returned c.id why c.grade c.gradeCode released (.lug (s.motion.lug + 1)) s.link.clock) ∈ v.link.tx

/-- The return of c, written in w on the way of the LUG pulse of s. -/
theorem returnCutting_written {s w : State} {c : Cutting} (why : ReturnReason) (released : Option Bin) (hbelt : w.belt = s.belt)
    (hcut : w.cuttings = s.cuttings) (hbundles : w.bundles = s.bundles) (hrecipe : w.recipe = s.recipe) (hlink : w.link = s.link)
    (hlug : w.motion.lug = s.motion.lug + 1) (htravel : w.motion.travel = s.motion.travel) (hw : ∀ b : Bin, w.chain.windows[b] = none)
    (hd : w.chain.deck = []) : ReturnWritten s (returnCutting c why released (lugPlace w) w) c why released where
  belt := hbelt
  cuttings := hcut
  bundles := hbundles
  recipe := hrecipe
  lug := hlug
  travel := htravel
  windows := hw
  deck := hd
  lastReturn := by
    unfold returnCutting writeReturn lugPlace
    simp only [offer_link, LinkPort.offer_clock, hlug, hlink]
  clock := by
    unfold returnCutting writeReturn
    simp only [offer_link, LinkPort.offer_clock, hlink]
  mask := by
    unfold returnCutting
    rw [← hlink]
    exact (LinkPort.offer_grows _ w.link).mask
  notice hm hroom := by
    unfold returnCutting writeReturn lugPlace
    rw [← hlink] at hm hroom
    rw [hlug, ← hlink]
    have hoffer := LinkPort.offer_of_room (l := w.link)
      (n := .returned c.id why c.grade c.gradeCode released (.lug (s.motion.lug + 1)) w.link.clock) (by exact hm) hroom
    show _ ∈ (w.link.offer _).tx
    rw [hoffer]
    simp

/-- A fault logged after the return changes none of it. -/
theorem ReturnWritten.logFault {s v : State} {c : Cutting} {why : ReturnReason} {released : Option Bin}
    (h : ReturnWritten s v c why released) {u : State} (hu : LinkOnly v u) : ReturnWritten s u c why released where
  belt := by rw [hu.eq]; exact h.belt
  cuttings := hu.cuttings.trans h.cuttings
  bundles := hu.bundles.trans h.bundles
  recipe := hu.recipe.trans h.recipe
  lug := by rw [hu.eq]; exact h.lug
  travel := by rw [hu.eq]; exact h.travel
  windows b := by rw [hu.eq]; exact h.windows b
  deck := by rw [hu.eq]; exact h.deck
  lastReturn := by rw [hu.eq]; exact h.lastReturn
  clock := hu.link.clock.trans h.clock
  mask := hu.link.mask.trans h.mask
  notice hm hr := hu.link.mem_tx (h.notice hm hr)

/-- With its return written the cutting is freed, and the event ends. -/
theorem cuttingReturned_of_written {s u v : State} {c : Cutting} {why : ReturnReason} {released : Option Bin} {f : State → State}
    (h : ReturnWritten s v c why released) (hf : f u = freeCuttings [c.id] v) (hc : findCutting s c.id = some c) :
    CuttingReturned s (event f u) c why released := by
  have he := event_follows f u
  rw [hf] at he
  have hcv : findCutting v c.id = some c := by unfold findCutting; rw [h.cuttings]; exact hc
  have hfind : ∀ n, findStrip v n = findStrip s n := fun n => by unfold findStrip; rw [h.belt]
  have hstays := StripStays.congr (c := c) h.belt h.cuttings
  obtain ⟨htrack, -, hcut, hdeck, hbelt, hleaves, hchain⟩ := freeCuttings_tables hcv
  generalize freeCuttings [c.id] v = w at *
  generalize event f u = t at *
  have hmotion : w.motion = { v.motion with events := w.motion.events } := by rw [htrack.eq]
  refine ⟨?_, fun b => ?_, ?_, ?_, ?_, fun hs => ?_, fun r hr ht hlast => ?_, fun hk => ?_, fun hm hr => ?_⟩
  · rw [he.cuttings, hcut, h.cuttings]
  · rw [he.chain, hdeck]
    exact h.windows b
  · rw [he.chain, hdeck]
    exact h.deck
  · rw [he.lug, hmotion]
    exact h.lug
  · rw [he.travel, hmotion]
    exact h.travel
  · rw [he.belt, hbelt (hstays.mpr hs), h.belt]
  · obtain ⟨hgone, hother⟩ := hleaves r (by rw [hfind]; exact hr) ht (by rw [beltCuttings_congr h.cuttings]; exact hlast)
    exact ⟨(he.findStrip _).trans hgone, fun m hm => by rw [he.findStrip, hother m hm, hfind]⟩
  · rw [he.chain, hchain (by rw [hstays, hfind]; exact hk)]
    exact h.lastReturn
  · exact (htrack.link.trans he.link).mem_tx (h.notice hm hr)

/-- What the release of the returned cutting makes of its bundle. -/
theorem releasedFrom_of_written {s u v : State} {c : Cutting} {why : ReturnReason} {released : Option Bin} {f : State → State}
    (h : ReturnWritten s v c why released) (hf : f u = freeCuttings [c.id] v) (hc : findCutting s c.id = some c) {b : Bin}
    (hd : c.dest = some (.bin b)) (ha : ReleaseStandsAlone s c) (bu : Bundle) : ReleasedFrom s (event f u) b bu c := by
  intro hb hactive
  have he := event_follows f u
  rw [hf] at he
  have hcv : findCutting v c.id = some c := by unfold findCutting; rw [h.cuttings]; exact hc
  have halone := (freeStandsAlone_of_active ha hactive).congr h.belt h.cuttings (.of_recipe h.recipe)
  obtain ⟨w, hbundles, hclock, hmask, hbins, hlink⟩ := freeCuttings_released hcv hd halone
  exact releasedFrom_of_release (hbundles.trans h.bundles) (hclock.trans h.clock) (hmask.trans h.mask) (he.bundles.trans hbins)
    (hlink.trans he.link) hb hactive

/-- A fault logged in the CHAIN record between s and t, no other fault with it. -/
theorem chainFaultLogged_of {s u t : State} {code : Nat} {detail : Option Nat} {o : FaultObject} {p : Word} (hu : BooksKept s u)
    (hclock : u.link.clock = s.link.clock) (hp : p = s.motion.lug + 1) (ht : BooksKept (logFault .chain code detail o p u) t) :
    ChainFaultLogged s t code detail o := by
  have hb : u.link.record .chain = s.link.chain := hu.chain
  refine ⟨fun h => ?_, fun f h => ?_⟩
  · rw [ht.chain, logFault_of_empty (by rw [hb, h]), ← hclock, ← hp]
    exact LinkPort.record_offer .chain _ _
  · rw [ht.chain, logFault_of_held (by rw [hb, h]), hb]
    rfl

end Sys2Proof.Machine
end

