-- ==== Sys2Proof/Proofs/ChainPulse.lean ====
section
/-! PROOFS. The LUG pulse at the tenoner, at the drops and at the chain end (R138 to R145). -/

namespace Sys2Proof.Machine

/-! ### Where the cuttings on the chain stand (R137) -/

/-- The state once the LUG pulse has advanced the lug counter (R3). -/
def lugAdvanced (s : State) : State := { s with motion := { s.motion with lug := s.motion.lug + 1 } }

/-- No cutting on a lug stands at offset off. -/
def NoneAt (s : State) (off : Nat) : Prop := ∀ x ∈ s.cuttings, lugOffset s x ≠ some (BitVec.ofNat 32 off)

/-- The offsets of the chain at which a pulse acts: the tenoner, the drops, the chain end. -/
def ChainPoint (s : State) (off : Nat) : Prop :=
  off = s.config.chain.offTN ∨ off = s.config.chain.chainLen ∨ ∃ b : Bin, off = s.config.chain.offD[b]

theorem lugAt_of_none {s : State} {off : Nat} (h : NoneAt s off) : lugAt s off = none := by
  unfold lugAt
  rw [List.find?_eq_none]
  intro x hx
  simpa using h x hx

theorem lugAt_of_only {s : State} {off : Nat} {c : Cutting} (hc : c ∈ s.cuttings) (ho : lugOffset s c = some (BitVec.ofNat 32 off))
    (h : ∀ x ∈ s.cuttings, x = c ∨ lugOffset s x ≠ some (BitVec.ofNat 32 off)) : lugAt s off = some c := by
  unfold lugAt
  cases hf : s.cuttings.find? (fun x => decide (lugOffset s x = some (BitVec.ofNat 32 off))) with
  | none =>
    have hn := List.find?_eq_none.mp hf c hc
    rw [ho] at hn
    simp at hn
  | some x =>
    have hat : lugOffset s x = some (BitVec.ofNat 32 off) := by simpa using List.find?_some hf
    obtain rfl | hne := h x (List.mem_of_find?_eq_some hf)
    · rfl
    · exact absurd hat hne

theorem lugOffset_of_onLug {s : State} {c : Cutting} {l : Word} (hs : c.state.onLugP = true) (hl : c.loadLug = some l) :
    lugOffset s c = some (s.motion.lug - l) := by
  unfold lugOffset
  rw [if_pos hs, hl]
  rfl

theorem lugOffset_ne {s : State} {c : Cutting} {off : Nat}
    (h : c.state.onLugP = true → ∀ l, c.loadLug = some l → s.motion.lug - l ≠ BitVec.ofNat 32 off) :
    lugOffset s c ≠ some (BitVec.ofNat 32 off) := by
  unfold lugOffset
  split
  · rename_i hs
    intro ho
    obtain ⟨l, hl, he⟩ := Option.map_eq_some_iff.mp ho
    exact h hs l hl he
  · nofun

theorem word_ne_ofNat {w : Word} {n off : Nat} (hw : w.toNat = n) (hne : n ≠ off) (ho : off ≤ 64) : w ≠ BitVec.ofNat 32 off := by
  rintro rfl
  rw [BitVec.toNat_ofNat, Nat.mod_eq_of_lt (Nat.lt_of_le_of_lt ho (by decide))] at hw
  exact hne hw.symm

theorem word_eq_ofNat {w : Word} {n : Nat} (hw : w.toNat = n) : w = BitVec.ofNat 32 n := by
  subst hw
  simp

section
variable {s t : State} {c : Cutting} {off : Nat} (h : OthersClear s c) (hp : ChainPoint s off) (ht : t.motion.lug = s.motion.lug + 1)
include h hp ht

/-- The other cuttings stand at no point of the chain at which the pulse acts. -/
theorem OthersClear.offset_ne {x : Cutting} (hx : x ∈ s.cuttings) (hne : x.id ≠ c.id) : lugOffset t x ≠ some (BitVec.ofNat 32 off) := by
  obtain rfl | ⟨_, hclear⟩ := h x hx
  · exact absurd rfl hne
  · refine lugOffset_ne fun hs l hl => ?_
    obtain ⟨htn, hend, hdrop⟩ := hclear hs l hl
    rw [ht]
    obtain rfl | rfl | ⟨b, rfl⟩ := hp
    · exact htn
    · exact hend
    · exact hdrop b

/-- With cutting c gone none of the others stands at such a point. -/
theorem OthersClear.noneAt_without (hcut : t.cuttings = s.cuttings.filter (fun x => decide (x.id ≠ c.id))) : NoneAt t off := by
  intro x hx
  rw [hcut, List.mem_filter] at hx
  exact h.offset_ne hp ht hx.1 (by simpa using hx.2)

/-- A point at which c does not stand is empty. -/
theorem OthersClear.noneAt_marked {l : Word} {g : Cutting → Cutting} (hl : c.loadLug = some l) (hg : (g c).loadLug = c.loadLug)
    (hcut : t.cuttings = s.cuttings.map (fun x => if x.id = c.id then g x else x))
    (hoff : s.motion.lug + 1 - l ≠ BitVec.ofNat 32 off) : NoneAt t off := by
  intro x hx
  rw [hcut, List.mem_map] at hx
  obtain ⟨y, hy, rfl⟩ := hx
  split
  · rename_i hid
    obtain rfl | ⟨hne, _⟩ := h y hy
    · refine lugOffset_ne fun _ l' hl' => ?_
      rw [hg, hl] at hl'
      cases hl'
      rwa [ht]
    · exact absurd hid hne
  · rename_i hid
    exact h.offset_ne hp ht hy hid

theorem OthersClear.noneAt_same {l : Word} (hl : c.loadLug = some l) (hcut : t.cuttings = s.cuttings)
    (hoff : s.motion.lug + 1 - l ≠ BitVec.ofNat 32 off) : NoneAt t off :=
  h.noneAt_marked hp ht (g := id) hl rfl (by rw [hcut]; simp) hoff

/-- At the point at which c stands the pulse finds c. -/
theorem OthersClear.lugAt {l : Word} (hl : c.loadLug = some l) (hs : c.state.onLugP = true) (hcut : t.cuttings = s.cuttings)
    (hc : c ∈ s.cuttings) (hoff : (s.motion.lug + 1 - l).toNat = off) : Machine.lugAt t off = some c := by
  refine lugAt_of_only (by rw [hcut]; exact hc) ?_ fun x hx => ?_
  · rw [lugOffset_of_onLug hs hl, ht, word_eq_ofNat hoff]
  · rw [hcut] at hx
    by_cases hid : x.id = c.id
    · obtain rfl | ⟨hne, _⟩ := h x hx
      · exact .inl rfl
      · exact absurd hid hne
    · exact .inr (h.offset_ne hp ht hx hid)

end

/-! ### The parts of a pulse that find nothing to do -/

theorem closeLandings_none {s : State} (h : ∀ b : Bin, s.chain.windows[b] = none) : allBins.foldl closeLanding s = s := by
  have hid : ∀ b, closeLanding s b = s := fun b => by
    unfold closeLanding
    rw [h b]
  induction allBins with
  | nil => rfl
  | cons b l ih => rw [List.foldl_cons, hid b, ih]

theorem fireDrop_none {s : State} {b : Bin} (h : NoneAt s s.config.chain.offD[b]) : fireDrop s b = s := by
  unfold fireDrop
  rw [lugAt_of_none h]

theorem fireDrops_none {s : State} (h : ∀ b : Bin, NoneAt s s.config.chain.offD[b]) : allBins.foldl fireDrop s = s := by
  induction allBins with
  | nil => rfl
  | cons b l ih => rw [List.foldl_cons, fireDrop_none (h b), ih]

/-- A pass over the bins in which bin b alone has something to do. -/
theorem foldl_allBins_only {f : State → Bin → State} {s : State} (b : Bin) (hbefore : ∀ b', b' ≠ b → f s b' = s)
    (hafter : ∀ b', b' ≠ b → f (f s b) b' = f s b) : allBins.foldl f s = f s b := by
  have hrest : ∀ (l : List Bin) (u : State), (∀ b' ∈ l, f u b' = u) → l.foldl f u = u := by
    intro l u hl
    induction l with
    | nil => rfl
    | cons x l ih =>
      rw [List.foldl_cons, hl x List.mem_cons_self]
      exact ih fun b' hb' => hl b' (List.mem_cons_of_mem _ hb')
  obtain ⟨l, r, hlr⟩ := List.append_of_mem (mem_allBins b)
  have hnodup : (l ++ b :: r).Nodup := hlr ▸ (by decide : allBins.Nodup)
  obtain ⟨_, hcons, hdisj⟩ := List.nodup_append.mp hnodup
  have hl : ∀ b' ∈ l, b' ≠ b := fun b' hb' => hdisj b' hb' b List.mem_cons_self
  have hr : ∀ b' ∈ r, b' ≠ b := by
    rintro b' hb' rfl
    exact (List.nodup_cons.mp hcons).1 hb'
  rw [hlr, List.foldl_append, List.foldl_cons, hrest l s fun b' hb' => hbefore b' (hl b' hb')]
  exact hrest r (f s b) fun b' hb' => hafter b' (hr b' hb')

theorem chainEnd_none {s : State} (h : NoneAt s s.config.chain.chainLen) : chainEnd s = s := by
  unfold chainEnd
  rw [lugAt_of_none h]

theorem loadNext_none {s : State} (h : s.chain.deck = []) : loadNext s = s := by
  unfold loadNext
  rw [h]

theorem sampleTenoner_none {s : State} (h : NoneAt s s.config.chain.offTN) (lf : Bool) : sampleTenoner false lf s = s := by
  unfold sampleTenoner
  rw [lugAt_of_none h]
  rfl

theorem sampleTenoner_found {s : State} {c : Cutting} (h : lugAt s s.config.chain.offTN = some c) (present lf : Bool) :
    sampleTenoner present lf s = event (checkCutting present lf c) s := by
  unfold sampleTenoner
  rw [h]

/-- The drops, the chain end and an empty deck leave a state alone in which no cutting stands at any of them. -/
theorem chainRest_none {s : State} (hd : s.chain.deck = []) (hend : NoneAt s s.config.chain.chainLen)
    (hdrop : ∀ b : Bin, NoneAt s s.config.chain.offD[b]) : loadNext (chainEnd (allBins.foldl fireDrop s)) = s := by
  rw [fireDrops_none hdrop, chainEnd_none hend, loadNext_none hd]

/-- An event that marks the records of one cutting, which stays on its lug, and keeps the line, the belt and the chain gives no notice. -/
theorem event_of_marked {f : State → State} {s : State} {id : CuttingId} {g : Cutting → Cutting} (hline : (f s).line = s.line)
    (hb : (f s).belt = s.belt) (hchain : (f s).chain = s.chain) (hcut : (f s).cuttings = s.cuttings.map (fun x => if x.id = id then g x else x))
    (hg : ∀ x, (g x).state.onLugP = true) : event f s = f s := by
  unfold event
  rw [lineNote_of_line_eq hline]
  refine drainAfter_of_tables (by rw [hb]) (by rw [hchain]) ?_
  unfold lugOccupancy
  rw [hcut, ← List.countP_eq_length_filter, ← List.countP_eq_length_filter, List.countP_map]
  refine List.countP_mono_left fun x _ hx => ?_
  simp only [Function.comp]
  split
  · exact hg x
  · exact hx

/-! ### A pulse that comes upon one cutting -/

/-- With c gone from the chain and the deck empty the rest of the pulse leaves the state alone. -/
theorem chainRest_without {s t : State} {c : Cutting} (h : OthersClear s c) (ht : t.motion.lug = s.motion.lug + 1)
    (hcut : t.cuttings = s.cuttings.filter (fun x => decide (x.id ≠ c.id))) (hd : t.chain.deck = []) (hg : t.config = s.config) :
    loadNext (chainEnd (allBins.foldl fireDrop t)) = t := by
  refine chainRest_none hd ?_ fun b => ?_
  · rw [hg]
    exact h.noneAt_without (.inr (.inl rfl)) ht hcut
  · rw [hg]
    exact h.noneAt_without (.inr (.inr ⟨b, rfl⟩)) ht hcut

/-- The chain as a LUG pulse comes upon cutting c, loaded at l, with no other at a point at which the pulse acts (R138). -/
structure PulseAt (s : State) (c : Cutting) (l : Word) : Prop where
  reset : s.inReset = false
  deck : s.chain.deck = []
  windows : ∀ b : Bin, s.chain.windows[b] = none
  found : findCutting s c.id = some c
  clear : OthersClear s c
  loaded : c.loadLug = some l
  length : s.config.chain.chainLen ≤ 64
  tenoner : s.config.chain.offTN < s.config.chain.chainLen
  drops : ∀ b : Bin, s.config.chain.offTN < s.config.chain.offD[b] ∧ s.config.chain.offD[b] < s.config.chain.chainLen
  order : ∀ a b : Bin, a < b → s.config.chain.offD[a] < s.config.chain.offD[b]

namespace PulseAt
variable {s : State} {c : Cutting} {l : Word} (h : PulseAt s c l)
include h

theorem pulse (present lf : Bool) : exec (.lugPulse present lf) s =
    .next (loadNext (chainEnd (allBins.foldl fireDrop (sampleTenoner present lf (lugAdvanced s))))) := by
  rw [exec_lugPulse present lf h.reset]
  have hclose : allBins.foldl closeLanding (lugAdvanced s) = lugAdvanced s := closeLandings_none h.windows
  unfold takeLugPulse
  exact congrArg (fun u => Host.Outcome.next (loadNext (chainEnd (allBins.foldl fireDrop (sampleTenoner present lf u))))) hclose

theorem off_ne {n off : Nat} (hn : (s.motion.lug + 1 - l).toNat = n) (hp : ChainPoint s off) (hne : n ≠ off) :
    s.motion.lug + 1 - l ≠ BitVec.ofNat 32 off := by
  refine word_ne_ofNat hn hne ?_
  have hlen := h.length
  have htn := h.tenoner
  obtain rfl | rfl | ⟨b, rfl⟩ := hp
  · omega
  · exact hlen
  · exact (h.drops b).2.le.trans hlen

theorem offD_ne {a b : Bin} (hne : a ≠ b) : s.config.chain.offD[a] ≠ s.config.chain.offD[b] := by
  obtain hlt | hlt := lt_or_gt_of_ne hne
  · exact (h.order a b hlt).ne
  · exact (h.order b a hlt).ne'

/-- At the tenoner the pulse checks c. -/
theorem pulse_tenoner (hs : c.state.onLugP = true) (ho : (s.motion.lug + 1 - l).toNat = s.config.chain.offTN) (present lf : Bool) :
    exec (.lugPulse present lf) s =
      .next (loadNext (chainEnd (allBins.foldl fireDrop (event (checkCutting present lf c) (lugAdvanced s))))) := by
  have hat := h.clear.lugAt (t := lugAdvanced s) (.inl rfl) rfl h.loaded hs rfl (findCutting_mem h.found) ho
  rw [h.pulse, sampleTenoner_found hat]

/-- The rest of a pulse that only marked c at the tenoner. -/
theorem rest_marked (ho : (s.motion.lug + 1 - l).toNat = s.config.chain.offTN) {t : State} {g : Cutting → Cutting}
    (ht : t.motion.lug = s.motion.lug + 1) (hcut : t.cuttings = s.cuttings.map (fun x => if x.id = c.id then g x else x))
    (hg : (g c).loadLug = c.loadLug) (hd : t.chain.deck = []) (hcfg : t.config = s.config) :
    loadNext (chainEnd (allBins.foldl fireDrop t)) = t := by
  have hend : ChainPoint s s.config.chain.chainLen := .inr (.inl rfl)
  have hdrop : ∀ b : Bin, ChainPoint s s.config.chain.offD[b] := fun b => .inr (.inr ⟨b, rfl⟩)
  refine chainRest_none hd ?_ fun b => ?_
  · rw [hcfg]
    exact h.clear.noneAt_marked hend ht h.loaded hg hcut (h.off_ne ho hend h.tenoner.ne)
  · rw [hcfg]
    exact h.clear.noneAt_marked (hdrop b) ht h.loaded hg hcut (h.off_ne ho (hdrop b) (h.drops b).1.ne)

/-- A tenoner check that only marks c, which stays on its lug. -/
theorem pulse_marks (hs : c.state.onLugP = true) (ho : (s.motion.lug + 1 - l).toNat = s.config.chain.offTN) {present lf : Bool} {t : State}
    {g : Cutting → Cutting} (hcheck : checkCutting present lf c (lugAdvanced s) = t) (hline : t.line = s.line) (hbelt : t.belt = s.belt)
    (hchain : t.chain = s.chain) (hcut : t.cuttings = s.cuttings.map (fun x => if x.id = c.id then g x else x))
    (hg : ∀ x, (g x).state.onLugP = true ∧ (g x).loadLug = x.loadLug) (hlug : t.motion.lug = s.motion.lug + 1) (hcfg : t.config = s.config) :
    exec (.lugPulse present lf) s = .next t := by
  subst hcheck
  rw [h.pulse_tenoner hs ho, event_of_marked (s := lugAdvanced s) hline hbelt hchain hcut fun x => (hg x).1]
  rw [h.rest_marked ho hlug hcut (hg c).2 (by rw [hchain]; exact h.deck) hcfg]

/-- Between the tenoner and the chain end the tenoner passes over c with PRESENT low. -/
theorem tenoner_passes {n : Nat} (ho : (s.motion.lug + 1 - l).toNat = n) (hne : n ≠ s.config.chain.offTN) (lf : Bool) :
    sampleTenoner false lf (lugAdvanced s) = lugAdvanced s :=
  sampleTenoner_none (h.clear.noneAt_same (t := lugAdvanced s) (.inl rfl) rfl h.loaded rfl (h.off_ne ho (.inl rfl) hne)) lf

end PulseAt

/-! ### What the pulse makes of the cutting -/

section
variable {s : State} {c : Cutting} {l : Word}

/-- The free of a cutting with its return written ends the pulse. -/
theorem returned_rest {u v : State} {why : ReturnReason} {released : Option Bin} {f : State → State} (hclear : OthersClear s c)
    (h : ReturnWritten s v c why released) (hv : v.config = s.config) (hf : f u = freeCuttings [c.id] v) (hc : findCutting s c.id = some c) :
    loadNext (chainEnd (allBins.foldl fireDrop (event f u))) = event f u ∧ loadNext (event f u) = event f u := by
  obtain ⟨hcut, -, hdeck, hlug, -⟩ := cuttingReturned_of_written h hf hc
  have hcfg : (event f u).config = s.config := by
    rw [(event_follows f u).config, hf, (freeCuttings_trackingOnly [c.id] v).eq]
    exact hv
  exact ⟨chainRest_without hclear hlug hcut hdeck hcfg, loadNext_none hdeck⟩

theorem ReturnWritten.found {v : State} {why : ReturnReason} {released : Option Bin} (h : ReturnWritten s v c why released)
    (hc : findCutting s c.id = some c) : findCutting v c.id = some c := by
  unfold findCutting
  rw [h.cuttings]
  exact hc

/-- After its return is written a cutting's free logs no fault. -/
theorem ReturnWritten.books {u v : State} {why : ReturnReason} {released : Option Bin} {f : State → State}
    (h : ReturnWritten s v c why released) (hf : f u = freeCuttings [c.id] v) (hc : findCutting s c.id = some c) :
    BooksKept v (event f u) := by
  refine BooksKept.trans ?_ (event_books f u)
  rw [hf]
  exact (freeCuttings_tables (h.found hc)).2.1

/-- The LUG pulse of s has brought w: the counter has advanced, and no window is open. -/
structure LugComes (s w : State) : Prop where
  eq : w = { s with motion := { s.motion with lug := s.motion.lug + 1 }, chain := { s.chain with windows := w.chain.windows } }
  windows : ∀ b : Bin, w.chain.windows[b] = none
  deck : s.chain.deck = []

theorem LugComes.written {w : State} (h : LugComes s w) (why : ReturnReason) (released : Option Bin) :
    ReturnWritten s (returnCutting c why released (lugPlace w) w) c why released := by
  refine returnCutting_written why released ?_ ?_ ?_ ?_ ?_ ?_ ?_ h.windows ?_ <;> rw [h.eq]
  exact h.deck

/-- The return of a cutting with its CHAIN fault, up to its free (R139, R143). -/
def faultedReturn (w : State) (c : Cutting) (why : ReturnReason) (code : Nat) (detail : Option Nat) : State :=
  logFault .chain code detail (.cutting c.id) w.motion.lug (returnCutting c why c.reservedBin (lugPlace w) w)

/-- A cutting that returns with a CHAIN fault: its return, the fault, the release, and the rest of the pulse, which finds nothing. -/
theorem faultedReturn_returns {u w : State} {why : ReturnReason} {code : Nat} {detail : Option Nat} {f : State → State} (h : LugComes s w)
    (hclear : OthersClear s c) (hc : findCutting s c.id = some c) (hf : f u = freeCuttings [c.id] (faultedReturn w c why code detail)) :
    CuttingReturned s (event f u) c why c.reservedBin ∧ ChainFaultLogged s (event f u) code detail (.cutting c.id) ∧
      (∀ b bu, c.dest = some (.bin b) → ReleaseStandsAlone s c → ReleasedFrom s (event f u) b bu c) ∧
      loadNext (chainEnd (allBins.foldl fireDrop (event f u))) = event f u := by
  have hw := h.written (c := c) why c.reservedBin
  have hlog : LinkOnly (returnCutting c why c.reservedBin (lugPlace w) w) (faultedReturn w c why code detail) := logFault_linkOnly ..
  have hwritten := hw.logFault hlog
  have hcfg : (faultedReturn w c why code detail).config = s.config := by
    rw [hlog.eq]
    show w.config = _
    rw [h.eq]
  refine ⟨cuttingReturned_of_written hwritten hf hc, ?_, fun b bu hd ha => releasedFrom_of_written hwritten hf hc hd ha bu,
    (returned_rest hclear hwritten hcfg hf hc).1⟩
  refine chainFaultLogged_of (u := returnCutting c why c.reservedBin (lugPlace w) w) (p := w.motion.lug) ?_ hw.clock (by rw [h.eq])
    (hwritten.books hf hc)
  have hlink : w.link = s.link := by rw [h.eq]
  exact (BooksKept.of_link hlink).trans (offer_books _ w)

theorem PulseAt.comes (h : PulseAt s c l) : LugComes s (lugAdvanced s) := ⟨rfl, h.windows, h.deck⟩

/-- A cutting missed at the tenoner (R139). -/
theorem PulseAt.missing (h : PulseAt s c l) (hs : c.state = .onLug) (ho : (s.motion.lug + 1 - l).toNat = s.config.chain.offTN) (lf : Bool) :
    ∃ t, exec (.lugPulse false lf) s = .next t ∧ CuttingReturned s t c .missing c.reservedBin ∧
      ChainFaultLogged s t 1 none (.cutting c.id) ∧
      ∀ b bu, c.dest = some (.bin b) → ReleaseStandsAlone s c → ReleasedFrom s t b bu c := by
  obtain ⟨hret, hlog, hrel, hrest⟩ := faultedReturn_returns (u := lugAdvanced s) (f := checkCutting false lf c) (why := .missing)
    (code := 1) (detail := none) h.comes h.clear h.found rfl
  exact ⟨_, (h.pulse_tenoner (by rw [hs]; rfl) ho false lf).trans (congrArg _ hrest), hret, hlog, hrel⟩

/-- A cutting found with a length fault that is bound for bin b is released for RETURN (R139). -/
theorem PulseAt.mismatch (h : PulseAt s c l) (hs : c.state = .onLug) (ho : (s.motion.lug + 1 - l).toNat = s.config.chain.offTN) {b : Bin}
    (hd : c.dest = some (.bin b)) : ∃ t, exec (.lugPulse true true) s = .next t ∧ t.motion = { s.motion with lug := s.motion.lug + 1 } ∧
      t.cuttings = s.cuttings.map (fun x => if x.id = c.id then { x with
        state := .mismatch, dest := some .toReturn, returnReason := some .mismatch, releasedBin := some b } else x) ∧
      t.chain = s.chain ∧ t.line = s.line ∧ t.belt = s.belt ∧ ∀ bu, ReleasedFrom s t b bu c := by
  have hrel := release_binsOnly b c.cls c.nominal (lugAdvanced s)
  have hcheck : checkCutting true true c (lugAdvanced s) = mapCutting c.id (fun x => { x with
      state := .mismatch, dest := some .toReturn, returnReason := some .mismatch, releasedBin := some b })
      (release b c.cls c.nominal (lugAdvanced s)) := by
    show findMismatch c (lugAdvanced s) = _
    unfold findMismatch Cutting.reservedBin
    rw [hd]
  have hmotion : (release b c.cls c.nominal (lugAdvanced s)).motion = { s.motion with lug := s.motion.lug + 1 } := by rw [hrel.eq]; rfl
  have hcut : (release b c.cls c.nominal (lugAdvanced s)).cuttings = s.cuttings := by rw [hrel.eq]; rfl
  have hchain : (release b c.cls c.nominal (lugAdvanced s)).chain = s.chain := by rw [hrel.eq]; rfl
  have hline : (release b c.cls c.nominal (lugAdvanced s)).line = s.line := by rw [hrel.eq]; rfl
  have hbelt : (release b c.cls c.nominal (lugAdvanced s)).belt = s.belt := by rw [hrel.eq]; rfl
  have hcfg : (release b c.cls c.nominal (lugAdvanced s)).config = s.config := by rw [hrel.eq]; rfl
  have hreleased : ∀ bu, ReleasedFrom s (release b c.cls c.nominal (lugAdvanced s)) b bu c := fun bu =>
    releasedFrom_of_release (u := lugAdvanced s) rfl rfl rfl rfl (LinkGrows.refl _)
  generalize release b c.cls c.nominal (lugAdvanced s) = u at *
  have hmapped : (mapCutting c.id (fun x => { x with
      state := .mismatch, dest := some .toReturn, returnReason := some .mismatch, releasedBin := some b }) u).cuttings =
      s.cuttings.map (fun x => if x.id = c.id then { x with
        state := .mismatch, dest := some .toReturn, returnReason := some .mismatch, releasedBin := some b } else x) := by
    rw [← hcut]
    rfl
  have hexec := h.pulse_marks (by rw [hs]; rfl) ho (t := mapCutting c.id _ u) hcheck hline hbelt hchain hmapped (fun _ => ⟨rfl, rfl⟩)
    (congrArg Motion.lug hmotion) hcfg
  exact ⟨_, hexec, hmotion, hmapped, hchain, hline, hbelt, hreleased⟩

/-- The drop of a CHECKED cutting at its bin (R141). -/
theorem PulseAt.drops_at (h : PulseAt s c l) (hs : c.state = .checked) {b : Bin} (hd : c.dest = some (.bin b))
    (ho : (s.motion.lug + 1 - l).toNat = s.config.chain.offD[b]) : exec (.lugPulse false false) s = .next { s with
      motion := { s.motion with lug := s.motion.lug + 1 }
      cuttings := s.cuttings.map (fun x => if x.id = c.id then { x with state := .dropping } else x)
      chain := { s.chain with windows := setAt s.chain.windows b (some c.id) } } := by
  have hpoint : ∀ b' : Bin, ChainPoint s s.config.chain.offD[b'] := fun b' => .inr (.inr ⟨b', rfl⟩)
  have hlug : c.state.onLugP = true := by rw [hs]; rfl
  have hfire : fireDrop (lugAdvanced s) b = setWindow b (some c.id) (mapCutting c.id (fun x => { x with state := .dropping }) (lugAdvanced s)) := by
    unfold fireDrop
    have hat : lugAt (lugAdvanced s) (lugAdvanced s).config.chain.offD[b] = some c :=
      h.clear.lugAt (t := lugAdvanced s) (hpoint b) rfl h.loaded hlug rfl (findCutting_mem h.found) ho
    rw [hat]
    exact if_pos ⟨hs, hd⟩
  have hdropped : (setWindow b (some c.id) (mapCutting c.id (fun x => { x with state := .dropping }) (lugAdvanced s))).cuttings =
      s.cuttings.map (fun x => if x.id = c.id then { x with state := .dropping } else x) := rfl
  have hfold : allBins.foldl fireDrop (lugAdvanced s) =
      setWindow b (some c.id) (mapCutting c.id (fun x => { x with state := .dropping }) (lugAdvanced s)) := by
    rw [← hfire]
    refine foldl_allBins_only b (fun b' hne => ?_) fun b' hne => ?_
    · exact fireDrop_none (h.clear.noneAt_same (hpoint b') rfl h.loaded rfl (h.off_ne ho (hpoint b') (h.offD_ne hne.symm)))
    · rw [hfire]
      exact fireDrop_none (h.clear.noneAt_marked (hpoint b') rfl h.loaded rfl hdropped (h.off_ne ho (hpoint b') (h.offD_ne hne.symm)))
  have hend : ChainPoint s s.config.chain.chainLen := .inr (.inl rfl)
  have hnone := h.clear.noneAt_marked (t := setWindow b (some c.id) (mapCutting c.id (fun x => { x with state := .dropping }) (lugAdvanced s)))
    hend rfl h.loaded rfl hdropped (h.off_ne ho hend (h.drops b).2.ne)
  rw [h.pulse, h.tenoner_passes ho (h.drops b).1.ne', hfold, chainEnd_none hnone]
  exact congrArg Host.Outcome.next (loadNext_none (s := setWindow b (some c.id) (mapCutting c.id _ (lugAdvanced s))) h.deck)

/-- A cutting bound for RETURN falls at the chain end with its own reason (R145). -/
theorem PulseAt.falls (h : PulseAt s c l) {why : ReturnReason} (hs : c.state = .checked ∨ c.state = .mismatch) (hd : c.dest = some .toReturn)
    (hr : c.returnReason = some why) (ho : (s.motion.lug + 1 - l).toNat = s.config.chain.chainLen) (lf : Bool) :
    ∃ t, exec (.lugPulse false lf) s = .next t ∧ CuttingReturned s t c why c.releasedBin ∧ t.link.chain = s.link.chain := by
  have hend : ChainPoint s s.config.chain.chainLen := .inr (.inl rfl)
  have hlug : c.state.onLugP = true := by
    obtain hs | hs := hs <;> rw [hs] <;> rfl
  have hfires : allBins.foldl fireDrop (lugAdvanced s) = lugAdvanced s := fireDrops_none fun b =>
    h.clear.noneAt_same (.inr (.inr ⟨b, rfl⟩)) rfl h.loaded rfl (h.off_ne ho (.inr (.inr ⟨b, rfl⟩)) (h.drops b).2.ne')
  have hat : lugAt (lugAdvanced s) (lugAdvanced s).config.chain.chainLen = some c :=
    h.clear.lugAt (t := lugAdvanced s) hend rfl h.loaded hlug rfl (findCutting_mem h.found) ho
  have hcend : chainEnd (lugAdvanced s) = event (fallAtEnd c) (lugAdvanced s) := by
    unfold chainEnd
    rw [hat]
  have hw := h.comes.written (c := c) why c.releasedBin
  have hf : fallAtEnd c (lugAdvanced s) = freeCuttings [c.id] (returnCutting c why c.releasedBin (lugPlace (lugAdvanced s)) (lugAdvanced s)) := by
    unfold fallAtEnd Cutting.reservedBin
    rw [hr, hd, Option.or_none]
    rfl
  have hrest := (returned_rest h.clear hw rfl hf h.found).2
  refine ⟨_, ?_, cuttingReturned_of_written hw hf h.found, ?_⟩
  · rw [h.pulse, h.tenoner_passes ho h.tenoner.ne', hfires, hcend, hrest]
  · exact ((hw.books hf h.found).chain).trans (offer_books _ (lugAdvanced s)).chain

/-- A landing window still open at the pulse returns its cutting as DROP_MISS (R143). -/
theorem missDrop_returned {b : Bin} (hreset : s.inReset = false) (hdeck : s.chain.deck = []) (hwb : s.chain.windows[b] = some c.id)
    (hwin : ∀ b' : Bin, b' ≠ b → s.chain.windows[b'] = none) (hc : findCutting s c.id = some c) (hclear : OthersClear s c)
    (hd : c.dest = some (.bin b)) (lf : Bool) : ∃ t, exec (.lugPulse false lf) s = .next t ∧
      CuttingReturned s t c .dropMiss (some b) ∧ ChainFaultLogged s t 3 (some (b.val + 1)) (.cutting c.id) ∧
      ∀ bu, ReleaseStandsAlone s c → ReleasedFrom s t b bu c := by
  have hres : c.reservedBin = some b := by unfold Cutting.reservedBin; rw [hd]
  have hcomes : LugComes s (setWindow b none (lugAdvanced s)) := by
    refine ⟨rfl, fun b' => ?_, hdeck⟩
    by_cases hb : b' = b
    · subst hb
      exact setAt_self _ _ _
    · exact (setAt_other _ _ (Ne.symm hb)).trans (hwin b' hb)
  obtain ⟨hret, hlog, hrel, hrest⟩ := faultedReturn_returns (u := lugAdvanced s) (f := missDrop b c) (why := .dropMiss) (code := 3)
    (detail := some (binNumber b)) hcomes hclear hc rfl
  obtain ⟨hcut, hwindows, hdk, hlug, -⟩ := id hret
  have hclose : closeLanding (lugAdvanced s) b = event (missDrop b c) (lugAdvanced s) := by
    unfold closeLanding
    have hopen : (lugAdvanced s).chain.windows[b] = some c.id := hwb
    have hfound : findCutting (lugAdvanced s) c.id = some c := hc
    rw [hopen]
    dsimp only
    rw [hfound]
  have hfold : allBins.foldl closeLanding (lugAdvanced s) = event (missDrop b c) (lugAdvanced s) := by
    rw [← hclose]
    refine foldl_allBins_only b (fun b' hne => ?_) fun b' hne => ?_
    · have hnone : (lugAdvanced s).chain.windows[b'] = none := hwin b' hne
      unfold closeLanding
      rw [hnone]
    · rw [hclose]
      unfold closeLanding
      rw [hwindows b']
  have hcfg : (event (missDrop b c) (lugAdvanced s)).config = s.config := by
    rw [(event_follows _ _).config]
    show (freeCuttings [c.id] (faultedReturn _ c _ _ _)).config = _
    rw [(freeCuttings_trackingOnly _ _).eq]
    show (faultedReturn _ c _ _ _).config = _
    unfold faultedReturn
    rw [(logFault_linkOnly ..).eq]
    rfl
  have htn : sampleTenoner false lf (event (missDrop b c) (lugAdvanced s)) = event (missDrop b c) (lugAdvanced s) := by
    refine sampleTenoner_none ?_ lf
    rw [hcfg]
    exact hclear.noneAt_without (.inl rfl) hlug hcut
  refine ⟨_, ?_, hres ▸ hret, hlog, fun bu => hrel b bu hd⟩
  rw [exec_lugPulse false lf hreset]
  show Host.Outcome.next (loadNext (chainEnd (allBins.foldl fireDrop (sampleTenoner false lf (allBins.foldl closeLanding (lugAdvanced s)))))) = _
  rw [hfold, htn, hrest]

end

end Sys2Proof.Machine

open Sys2Proof Sys2Proof.Machine

/-- Settles O39: no other cutting stands where the pulse acts, so the pulse is its one action on c, and what that makes of the bundle is the release's
equation. -/
theorem tenonerChecksAndDropsFire : Obligations.TenonerChecksAndDropsFire := by
  unfold Obligations.TenonerChecksAndDropsFire
  refine ⟨fun s c l hreset hdeck hwin hc hclear hl hlen htn hdrops horder => ?_,
    fun s c b lf hreset hdeck hwb hwin hc hclear _ hd => missDrop_returned hreset hdeck hwb hwin hc hclear hd lf⟩
  have h : PulseAt s c l := ⟨hreset, hdeck, hwin, hc, hclear, hl, hlen, htn, hdrops, horder⟩
  refine ⟨fun lf hs ho => ⟨h.missing hs ho lf, fun hlf => ?_, fun hlf hd => ?_, fun b hlf hd => ?_⟩,
    fun b hs hd ho => h.drops_at hs hd ho, fun why lf hs hd hr ho => h.falls hs hd hr ho lf⟩
  · subst hlf
    exact h.pulse_marks (by rw [hs]; rfl) ho rfl rfl rfl rfl rfl (fun _ => ⟨rfl, rfl⟩) rfl rfl
  · subst hlf
    have hcheck : checkCutting true true c (lugAdvanced s) = mapCutting c.id (fun x => { x with state := .mismatch }) (lugAdvanced s) := by
      show findMismatch c (lugAdvanced s) = _
      unfold findMismatch Cutting.reservedBin
      rw [hd]
    exact h.pulse_marks (by rw [hs]; rfl) ho hcheck rfl rfl rfl rfl (fun _ => ⟨rfl, rfl⟩) rfl rfl
  · subst hlf
    exact h.mismatch hs ho hd

end

