-- ==== Sys2Proof/Proofs/LugLoad.lean ====
section
/-! PROOFS. The lug load of the head of the deck (R138), with the settling of its grading (R111, R124) and its destination (R114, R156). -/

namespace Sys2Proof.Machine

/-! ### The destination (R114, R156) -/

theorem allBins_sorted : allBins.Pairwise (· < ·) := by decide

/-- The first bin in ascending order that picks itself is the one found. -/
theorem find_allBins {p : Bin → Bool} {b : Bin} (h : p b = true) (hbelow : ∀ b' < b, p b' = false) : allBins.find? p = some b := by
  cases hf : allBins.find? p with
  | none => exact absurd h (List.find?_eq_none.mp hf b (mem_allBins b))
  | some b1 =>
    obtain ⟨hp, as, bs, hl, has⟩ := List.find?_eq_some_iff_append.mp hf
    have hsorted := allBins_sorted
    rw [hl] at hsorted
    obtain ⟨_, hcons, _⟩ := List.pairwise_append.mp hsorted
    have hmem : b ∈ as ++ b1 :: bs := hl ▸ mem_allBins b
    obtain ha | ha := List.mem_append.mp hmem
    · exact absurd h (by simpa using has b ha)
    · obtain rfl | hb := List.mem_cons.mp ha
      · rfl
      · rw [hbelow b1 ((List.pairwise_cons.mp hcons).1 b hb)] at hp
        contradiction

/-- An admission changes the bins and the link alone. -/
theorem admitTo_eq (b : Bin) (c n : Nat) (s : State) :
    admitTo b c n s = { s with bundles := (admitTo b c n s).bundles, link := (admitTo b c n s).link } := by
  unfold admitTo
  split
  · rfl
  · dsimp only
    split <;> rfl

/-- The bundle that takes the piece has it committed (R158). -/
theorem admitTo_bundle {b : Bin} {bu : Bundle} {c n : Nat} {s : State} (h : s.bundles.bins[b].bundle = some bu) :
    (admitTo b c n s).bundles.bins[b].bundle = some (bu.commit c n) := by
  unfold admitTo
  rw [h]
  dsimp only
  split
  · exact congrArg BinRecord.bundle (mapBin_bin_self b (fun r => { r with state := .filled, bundle := some (bu.commit c n) }) s)
  · exact congrArg BinRecord.bundle (mapBin_bin_self b (fun r => { r with bundle := some (bu.commit c n) }) s)

/-- The choice of a destination changes the bins and the link alone. -/
theorem chooseDest_rest (c : Cutting) (s : State) :
    (chooseDest c s).2.2 = { s with bundles := (chooseDest c s).2.2.bundles, link := (chooseDest c s).2.2.link } ∧
      LinkGrows s.link (chooseDest c s).2.2.link := by
  unfold chooseDest
  split
  · rename_i g _
    obtain ⟨_, ha⟩ | ⟨b, _, _, ha⟩ := admission_cases g (s.recipe.banks[c.bank].generation.getD 0) c.cls c.nominal s
    · simp only [ha]
      exact ⟨trivial, LinkGrows.refl _⟩
    · simp only [ha]
      exact ⟨admitTo_eq b c.cls c.nominal s, (admitTo_binsOnly b c.cls c.nominal s).link⟩
  · exact ⟨rfl, LinkGrows.refl _⟩

/-- A graded cutting goes to the first bin that admits it, or to RETURN with NO_BIN. -/
theorem chooseDest_index {c : Cutting} {g : Nat} {s t u : State} (h : c.grade = some (.index g)) (hb : u.bundles = s.bundles)
    (hr : u.recipe = s.recipe) (ht : t.bundles = (chooseDest c u).2.2.bundles) : DestFor s t c g (chooseDest c u).1 (chooseDest c u).2.1 := by
  have hadmits : ∀ b, admits u b g (u.recipe.banks[c.bank].generation.getD 0) c.cls c.nominal =
      admits s b g (s.recipe.banks[c.bank].generation.getD 0) c.cls c.nominal := fun b => by
    unfold admits
    rw [hb, hr]
  refine ⟨fun hnone => ?_, fun b bu hadm hbelow hbu => ?_⟩
  · have hfind : allBins.find? (fun b => admits u b g (u.recipe.banks[c.bank].generation.getD 0) c.cls c.nominal) = none := by
      rw [List.find?_eq_none]
      intro b _
      rw [hadmits, hnone b]
      nofun
    have hadmission : admission g (u.recipe.banks[c.bank].generation.getD 0) c.cls c.nominal u = (none, u) := by
      unfold admission
      rw [hfind]
    have hchoose : chooseDest c u = (.toReturn, some .noBin, u) := by
      unfold chooseDest
      rw [h]
      dsimp only
      rw [hadmission]
    rw [hchoose] at ht ⊢
    exact ⟨rfl, rfl, ht.trans hb⟩
  · have hfind : allBins.find? (fun b => admits u b g (u.recipe.banks[c.bank].generation.getD 0) c.cls c.nominal) = some b :=
      find_allBins (by rw [hadmits]; exact hadm) fun b' hlt => by rw [hadmits]; exact hbelow b' hlt
    have hadmission : admission g (u.recipe.banks[c.bank].generation.getD 0) c.cls c.nominal u = (some b, admitTo b c.cls c.nominal u) := by
      unfold admission
      rw [hfind]
    have hchoose : chooseDest c u = (.bin b, none, admitTo b c.cls c.nominal u) := by
      unfold chooseDest
      rw [h]
      dsimp only
      rw [hadmission]
    rw [hchoose] at ht ⊢
    refine ⟨rfl, rfl, ?_⟩
    rw [ht]
    exact admitTo_bundle (by rw [hb]; exact hbu)

/-- A cutting without a grade index goes to RETURN for its reject reason (R114). -/
theorem chooseDest_reject {c : Cutting} {x : RejectReason} {s : State} (h : c.grade = some .reject) (hx : c.rejectReason = some x) :
    chooseDest c s = (.toReturn, some x.toReturn, s) := by
  unfold chooseDest
  rw [h, hx]
  rfl

/-! ### The load (R138) -/

/-- The record of a cutting that boards at lug counter n (R138). -/
def Cutting.boarded (n : Word) (d : Dest) (why : Option ReturnReason) (c : Cutting) : Cutting :=
  { c with state := .onLug, loadLug := some n, dest := some d, returnReason := why }

/-- From u, in which the cutting's grading is settled in the record c, to t the cutting boards the lug. -/
structure Boards (c : Cutting) (u t : State) : Prop where
  eq : t = { u with
    line := t.line, chain := { u.chain with deck := u.chain.deck.drop 1 }, cuttings := t.cuttings, bundles := t.bundles, link := t.link }
  found : findCutting t c.id = some (c.boarded u.motion.lug (chooseDest c u).1 (chooseDest c u).2.1)
  others : ∀ id, id ≠ c.id → findCutting t id = findCutting u id
  bundles : t.bundles = (chooseDest c u).2.2.bundles
  link : LinkGrows u.link t.link

/-- The DECK test changes the set alone. -/
theorem deckFalls_eq (s : State) : deckFalls s = { s with line := (deckFalls s).line } := by
  unfold deckFalls
  split <;> rfl

theorem boardLug_boards {c : Cutting} {u : State} (h : findCutting u c.id = some c) :
    Boards c u (boardLug c.id (chooseDest c u).1 (chooseDest c u).2.1 (chooseDest c u).2.2) := by
  obtain ⟨hrest, hlink⟩ := chooseDest_rest c u
  have hfind : ∀ id, findCutting (chooseDest c u).2.2 id = findCutting u id := fun id => by
    unfold findCutting
    rw [hrest]
  have hmotion : (chooseDest c u).2.2.motion = u.motion := by rw [hrest]
  have hmapped : ∀ (d : Dest) (why : Option ReturnReason) (v : State) (id : CuttingId), findCutting (boardLug c.id d why v) id =
      if id = c.id then (findCutting v id).map (Cutting.boarded v.motion.lug d why) else findCutting v id := fun d why v id => by
    rw [← findCutting_mapCutting id c.id (f := Cutting.boarded v.motion.lug d why) v (fun _ => rfl)]
    unfold boardLug findCutting
    rw [deckFalls_eq]
    rfl
  have heq : ∀ (d : Dest) (why : Option ReturnReason) (v : State), boardLug c.id d why v = { v with
      line := (boardLug c.id d why v).line
      chain := { v.chain with deck := v.chain.deck.drop 1 }
      cuttings := (boardLug c.id d why v).cuttings } := fun d why v => by
    unfold boardLug
    rw [deckFalls_eq]
    rfl
  refine ⟨?_, ?_, fun id hne => ?_, ?_, ?_⟩
  · have he := heq (chooseDest c u).1 (chooseDest c u).2.1 (chooseDest c u).2.2
    generalize boardLug c.id (chooseDest c u).1 (chooseDest c u).2.1 (chooseDest c u).2.2 = w at *
    rw [he, hrest]
  · rw [hmapped, if_pos rfl, hfind, h, hmotion]
    rfl
  · rw [hmapped, if_neg hne, hfind]
  · rw [heq]
  · rw [heq]
    exact hlink

/-- The LINE notice of the load's event changes none of it. -/
theorem Boards.note {c : Cutting} {u v w : State} (h : Boards c u v) (hn : LinkOnly v w) : Boards c u w := by
  have hcut : ∀ id, findCutting w id = findCutting v id := fun id => by
    unfold findCutting
    rw [hn.cuttings]
  refine ⟨?_, (hcut _).trans h.found, fun id hne => (hcut id).trans (h.others id hne), hn.bundles.trans h.bundles, h.link.trans hn.link⟩
  rw [hn.eq, h.eq]

theorem chainIdle_noneAt {s : State} (h : lugOccupancy s = []) (off : Nat) : NoneAt s off := by
  intro x hx
  refine lugOffset_ne fun hs => ?_
  exact absurd hs (by simpa using List.filter_eq_nil_iff.mp h x hx)

/-- With the chain idle a pulse is the lug load alone, and its event makes no drain complete: the cutting stands on a lug. -/
theorem pulse_boards {s u : State} {id : CuttingId} {rest : List CuttingId} {c : Cutting} {lf : Bool} (hreset : s.inReset = false)
    (hidle : ChainIdle s) (hdeck : s.chain.deck = id :: rest) (hu : settleGrading id (lugAdvanced s) = u)
    (hc : findCutting u id = some c) : ∃ t, exec (.lugPulse false lf) s = .next t ∧ Boards c u t := by
  obtain ⟨hocc, hwin⟩ := hidle
  have hid := findCutting_id hc
  have hnone : ∀ off, NoneAt (lugAdvanced s) off := chainIdle_noneAt (s := lugAdvanced s) hocc
  have hclose : allBins.foldl closeLanding (lugAdvanced s) = lugAdvanced s := closeLandings_none hwin
  have hload : loadNext (lugAdvanced s) = event (loadLug id) (lugAdvanced s) := by
    have hd : (lugAdvanced s).chain.deck = id :: rest := hdeck
    unfold loadNext
    rw [hd]
  have hpulse : takeLugPulse false lf s = event (loadLug id) (lugAdvanced s) := by
    show loadNext (chainEnd (allBins.foldl fireDrop (sampleTenoner false lf (allBins.foldl closeLanding (lugAdvanced s))))) = _
    rw [hclose, sampleTenoner_none (hnone _), fireDrops_none fun b => hnone _, chainEnd_none (hnone _), hload]
  have hlug : loadLug id (lugAdvanced s) = boardLug c.id (chooseDest c u).1 (chooseDest c u).2.1 (chooseDest c u).2.2 := by
    unfold loadLug
    dsimp only
    rw [hu, hc, hid]
  rw [← hid] at hc
  have hb := boardLug_boards hc
  rw [← hlug] at hb
  have hevent : event (loadLug id) (lugAdvanced s) = lineNote (lugAdvanced s) (loadLug id (lugAdvanced s)) := by
    have hn := lineNote_linkOnly (lugAdvanced s) (loadLug id (lugAdvanced s))
    unfold event
    obtain he | he := drainAfter_cases (lugAdvanced s) (lineNote (lugAdvanced s) (loadLug id (lugAdvanced s)))
    · exact he
    · rw [he]
      refine drainTest_of_tracked ?_
      unfold trackingEmpty lugOccupancy
      have hmem := findCutting_mem hb.found
      rw [hn.cuttings]
      have hne : (loadLug id (lugAdvanced s)).cuttings.filter (fun x => x.state.onLugP) ≠ [] :=
        List.ne_nil_of_mem (List.mem_filter.mpr ⟨hmem, rfl⟩)
      rw [List.isEmpty_eq_false_iff.mpr hne]
      simp
  exact ⟨_, (exec_lugPulse false lf hreset).trans (congrArg _ (hpulse.trans hevent)), hb.note (lineNote_linkOnly _ _)⟩

/-! ### A REFERRED cutting at the load point (R124) -/

/-- A referral that becomes outstanding names the cutting it named while it waited. -/
theorem promote_ids (k : Nat) (s : State) : ∀ x ∈ (promote k s).referral.outstanding ++ (promote k s).referral.waiting,
    ∃ y ∈ s.referral.outstanding ++ s.referral.waiting, x.id = y.id := by
  induction k generalizing s with
  | zero => exact fun x hx => ⟨x, hx, rfl⟩
  | succ k ih =>
    cases hw : s.referral.waiting with
    | nil =>
      rw [promote_of_empty _ hw, hw]
      exact fun x hx => ⟨x, hx, rfl⟩
    | cons w rest =>
      by_cases hroom : s.referral.outstanding.length < 4
      · rw [promote_head k hw hroom]
        intro x hx
        obtain ⟨y, hy, hxy⟩ := ih _ x hx
        obtain ⟨hout, hwait, -⟩ := makeOutstanding_lists w { s with referral := { s.referral with waiting := rest } }
        rw [hout, hwait] at hy
        obtain hy | hy := List.mem_append.mp hy
        · obtain hy | hy := List.mem_append.mp hy
          · exact ⟨y, List.mem_append_left _ hy, hxy⟩
          · refine ⟨w, List.mem_append_right _ List.mem_cons_self, ?_⟩
            rw [hxy, List.mem_singleton.mp hy]
        · exact ⟨y, List.mem_append_right _ (List.mem_cons_of_mem _ hy), hxy⟩
      · rw [promote_of_full _ (Nat.not_lt.mp hroom), hw]
        exact fun x hx => ⟨x, hx, rfl⟩

/-- The state in which the referral of a REFERRED cutting has expired, ahead of the promotions. -/
def expiredAt (id : CuttingId) (s : State) : State := mapCutting id (rejectAs .referralExpired) (endReferral id .expired s)

theorem settleGrading_referred {s : State} {id : CuttingId} {c : Cutting} (hc : findCutting s id = some c) (hg : c.gradeStatus = .referred) :
    settleGrading id s = promoteAll (expiredAt id s) := by
  unfold settleGrading
  rw [hc]
  dsimp only
  rw [hg]
  rfl

theorem settleGrading_graded {s : State} {id : CuttingId} {c : Cutting} (hc : findCutting s id = some c) (hg : c.gradeStatus = .graded) :
    settleGrading id s = s := by
  unfold settleGrading
  rw [hc]
  dsimp only
  rw [hg]

theorem settleGrading_resuming {s : State} {id : CuttingId} {c : Cutting} (hc : findCutting s id = some c) (hg : c.gradeStatus = .resuming) :
    settleGrading id s = settleResuming id s := by
  unfold settleGrading
  rw [hc]
  dsimp only
  rw [hg]

theorem expired_found {s : State} {id : CuttingId} {c : Cutting} (hc : findCutting s id = some c) :
    findCutting (promoteAll (expiredAt id s)) id = some (rejectAs .referralExpired c) := by
  rw [(promoteAll_referralsOnly _).findCutting]
  unfold expiredAt
  rw [findCutting_mapCutting id id (f := rejectAs .referralExpired) _ (fun _ => rfl), if_pos rfl,
    (endReferral_referralsOnly id .expired s).findCutting, hc]
  rfl

/-- The expiry of a cutting's referral, whose cutting and notice name it. -/
structure ReferralExpires (id : CuttingId) (tag : Nat) (st : Standing) (s t : State) : Prop where
  gone : ∀ x ∈ t.referral.outstanding ++ t.referral.waiting, x.id ≠ id
  link : LinkGrows (s.link.offer (.referralEnd tag id .expired st s.link.clock)) t.link

theorem promoteAll_expires {id : CuttingId} {tag : Nat} {st : Standing} {s u : State}
    (hgone : ∀ x ∈ u.referral.outstanding ++ u.referral.waiting, x.id ≠ id)
    (hlink : u.link = s.link.offer (.referralEnd tag id .expired st s.link.clock)) : ReferralExpires id tag st s (promoteAll u) := by
  refine ⟨fun x hx => ?_, ?_⟩
  · obtain ⟨y, hy, hxy⟩ := promote_ids _ u x hx
    rw [hxy]
    exact hgone y hy
  · rw [← hlink]
    exact (promoteAll_referralsOnly u).link

theorem findOutstanding_id {s : State} {id : CuttingId} {q : Referral} (h : findOutstanding s id = some q) : q.id = id := by
  simpa using List.find?_some h

theorem findWaiting_none {s : State} {id : CuttingId} (h : findWaiting s id = none) : ∀ x ∈ s.referral.waiting, x.id ≠ id := by
  simpa [findWaiting] using h

theorem findOutstanding_none {s : State} {id : CuttingId} (h : findOutstanding s id = none) : ∀ x ∈ s.referral.outstanding, x.id ≠ id := by
  simpa [findOutstanding] using h

theorem endOutstanding_link (q : Referral) (s : State) : (endOutstanding q s).link = s.link := rfl

/-- An outstanding referral expires with its tag (R124). -/
theorem expired_outstanding {s : State} {id : CuttingId} {q : Referral} (hq : findOutstanding s id = some q) (hw : findWaiting s id = none) :
    ReferralExpires id (q.tag.getD 0) .outstanding s (promoteAll (expiredAt id s)) := by
  have he : endReferral id .expired s = referralEnd (q.tag.getD 0) id .expired .outstanding (endOutstanding q s) := by
    unfold endReferral
    rw [hq]
  obtain ⟨hout, hwait, -⟩ := endOutstanding_lists q s
  unfold expiredAt
  rw [he]
  refine promoteAll_expires (fun x hx => ?_) ?_
  · have hx : x ∈ (endOutstanding q s).referral.outstanding ++ (endOutstanding q s).referral.waiting := hx
    rw [hout, hwait, findOutstanding_id hq] at hx
    obtain hx | hx := List.mem_append.mp hx
    · simpa using (List.mem_filter.mp hx).2
    · exact findWaiting_none hw x hx
  · show (endOutstanding q s).link.offer _ = _
    rw [endOutstanding_link]

/-- A waiting referral expires without a tag (R124). -/
theorem expired_waiting {s : State} {id : CuttingId} {q : Referral} (hq : findOutstanding s id = none) (hw : findWaiting s id = some q) :
    ReferralExpires id 0 .waiting s (promoteAll (expiredAt id s)) := by
  have he : endReferral id .expired s = referralEnd 0 id .expired .waiting
      { s with referral := { s.referral with waiting := s.referral.waiting.filter (fun x => decide (x.id ≠ id)) } } := by
    unfold endReferral
    rw [hq]
    dsimp only
    rw [hw]
  unfold expiredAt
  rw [he]
  refine promoteAll_expires (fun x hx => ?_) rfl
  have hx : x ∈ s.referral.outstanding ++ s.referral.waiting.filter (fun x => decide (x.id ≠ id)) := hx
  obtain hx | hx := List.mem_append.mp hx
  · exact findOutstanding_none hq x hx
  · simpa using (List.mem_filter.mp hx).2

/-- The Referral Unit after the expiry of a tagged referral: its slot is filled from the waiting list (R119, R121). -/
theorem expired_referral {s : State} {id : CuttingId} {q : Referral} {k : Nat} {u : ReferralUnit} (hq : findOutstanding s id = some q)
    (hk : q.tag = some k) (hu : u = { s.referral.setEntry k { id := id, ended := true } with
      outstanding := s.referral.outstanding.filter (fun x => decide (x.id ≠ id)) }) :
    (s.referral.waiting = [] → (promoteAll (expiredAt id s)).referral = u) ∧
      ∀ w rest tag, s.referral.waiting = w :: rest → u.outstanding.length = 3 → TagNext u tag →
        (promoteAll (expiredAt id s)).referral = { outstandingWith u w tag with waiting := rest } := by
  have hid := findOutstanding_id hq
  have he : endReferral id .expired s = referralEnd (q.tag.getD 0) id .expired .outstanding (endOutstanding q s) := by
    unfold endReferral
    rw [hq]
  have hunit : (expiredAt id s).referral = u := by
    unfold expiredAt
    rw [he, endOutstanding_tagged s hk, hid]
    exact hu.symm
  have hwait : u.waiting = s.referral.waiting := by
    rw [hu]
    exact ReferralUnit.setEntry_waiting ..
  generalize expiredAt id s = v at *
  refine ⟨fun hw => ?_, fun w rest tag hw hlen ht => ?_⟩
  · rw [promoteAll, promote_of_empty _ (by rw [hunit, hwait]; exact hw), hunit]
  · rw [promoteAll_one (by rw [hunit, hwait]; exact hw) (by rw [hunit]; exact hlen) (by rw [hunit]; exact ht), ← hunit]

/-! ### The ends of runs -/

theorem countUpTo_eq (k n : Nat) : countUpTo k n = min k (n + 1) := rfl

theorem writeRun_grade (c : Cutting) (e : RunEnd) (s : State) : (writeRun c e s).grade = s.grade := by
  cases e with
  | graded g code => rfl
  | noGrade => rfl
  | suspended k f =>
    show (raiseReferral _ s).2.grade = s.grade
    rw [(raiseReferral_referralsOnly _ s).eq]

theorem raiseReferral_find (q : Referral) (s : State) (id : CuttingId) : findCutting (raiseReferral q s).2 id = findCutting s id :=
  (raiseReferral_referralsOnly q s).findCutting id

/-- The end of a run changes the record of its own cutting alone. -/
theorem writeRun_others (c : Cutting) (e : RunEnd) (s : State) {id : CuttingId} (h : id ≠ c.id) :
    findCutting (writeRun c e s) id = findCutting s id := by
  cases e with
  | graded g code => exact (findCutting_mapCutting id c.id (f := gradeAs g code) s (fun _ => rfl)).trans (if_neg h)
  | noGrade => exact (findCutting_mapCutting id c.id (f := rejectAs .noGrade) s (fun _ => rfl)).trans (if_neg h)
  | suspended k f =>
    refine Eq.trans ?_ (raiseReferral_find (referralFor s c k f) s id)
    refine (findCutting_mapCutting id c.id _ fun x => ?_).trans (if_neg h)
    split <;> rfl

/-- The record of a cutting whose run ends has its result (R104, R107, R108). -/
theorem writeRun_written {c : Cutting} {s u : State} (e : RunEnd) (h : findCutting u c.id = some c) (hr : u.referral = s.referral) :
    RunWritten s (writeRun c e u) c e := by
  refine ⟨?_, ?_, ?_⟩
  · rintro g code rfl
    exact (findCutting_mapCutting c.id c.id (f := gradeAs g code) u (fun _ => rfl)).trans (by rw [if_pos rfl, h]; rfl)
  · rintro rfl
    exact (findCutting_mapCutting c.id c.id (f := rejectAs .noGrade) u (fun _ => rfl)).trans (by rw [if_pos rfl, h]; rfl)
  · rintro k f rfl
    have hfound := (raiseReferral_find (referralFor u c k f) u c.id).trans h
    have hmap : ∀ g : Cutting → Cutting, (∀ x, (g x).id = x.id) →
        findCutting (mapCutting c.id g (raiseReferral (referralFor u c k f) u).2) c.id = some (g c) := fun g hg => by
      rw [findCutting_mapCutting c.id c.id _ hg, if_pos rfl, hfound]
      rfl
    refine ⟨fun hroom => ?_, fun hfull hwait => ?_⟩
    · have hplaced : (raiseReferral (referralFor u c k f) u).1 = true := by
        by_cases hslot : u.referral.outstanding.length < 4
        · rw [raiseReferral_slot hslot]
        · rw [raiseReferral_waits (Nat.not_lt.mp hslot) (by rw [hr] at hslot ⊢; exact hroom.resolve_left hslot)]
      rw [← countUpTo_eq]
      refine (hmap _ fun x => ?_).trans ?_
      · split <;> rfl
      · rw [if_pos hplaced]
    · have hplaced : (raiseReferral (referralFor u c k f) u).1 = false := by
        rw [raiseReferral_overflows (by rw [hr]; exact hfull) (by rw [hr]; exact hwait)]
      rw [← countUpTo_eq]
      refine (hmap _ fun x => ?_).trans ?_
      · split <;> rfl
      · rw [if_neg (by rw [hplaced]; nofun)]
        rfl

theorem RunWritten.congr {s t u : State} {c : Cutting} {e : RunEnd} (h : RunWritten s t c e)
    (hu : findCutting u c.id = findCutting t c.id) : RunWritten s u c e := by
  unfold RunWritten at h ⊢
  rw [hu]
  exact h

/-! ### A RESUMING cutting at the load point (R111, R125) -/

/-- The resumption k settles its cutting into the record x, from u to v. -/
structure SettledInto (k : Resumption) (x : Cutting) (u v : State) : Prop where
  only : GradingOnly u v
  grade : v.grade = u.grade
  found : findCutting v k.id = some x
  others : ∀ id, id ≠ k.id → findCutting v id = findCutting u id

theorem settledInto_of_map {k : Resumption} {c : Cutting} {u v : State} {f : Cutting → Cutting} (hc : findCutting u k.id = some c)
    (hf : ∀ x, (f x).id = x.id) (hv : LinkOnly (mapCutting k.id f u) v) : SettledInto k (f c) u v := by
  have hfind : ∀ id, findCutting v id = findCutting (mapCutting k.id f u) id := fun id => by
    unfold findCutting
    rw [hv.cuttings]
  refine ⟨(mapCutting_gradingOnly k.id f u).trans hv.referralsOnly.gradingOnly, by rw [hv.eq]; rfl, ?_, fun id hne => ?_⟩
  · rw [hfind, findCutting_mapCutting _ _ _ hf, if_pos rfl, hc]
    rfl
  · rw [hfind, findCutting_mapCutting _ _ _ hf, if_neg hne]

/-- The resumption run at the load (R111, R125): a further suspension expires as it arises. -/
theorem settleRun_settles {k : Resumption} {c : Cutting} {u : State} (hc : findCutting u k.id = some c) :
    ∃ x, SettledInto k x u (settleRun k u) ∧
      (∀ g code, resumeRun u.recipe.banks[c.bank] c k.context k.result = .graded g code → x = gradeAs g code c) ∧
      (resumeRun u.recipe.banks[c.bank] c k.context k.result = .noGrade → x = rejectAs .noGrade c) ∧
      ∀ e f, resumeRun u.recipe.banks[c.bank] c k.context k.result = .suspended e f →
        x = rejectAs .referralExpired { c with referralCount := min 255 (c.referralCount + 1) } ∧
          (settleRun k u).link = u.link.offer (.referralEnd 0 k.id .expired .none u.link.clock) := by
  have hid := findCutting_id hc
  unfold settleRun
  rw [hc]
  dsimp only
  cases resumeRun u.recipe.banks[c.bank] c k.context k.result with
  | graded g code =>
    refine ⟨gradeAs g code c, settledInto_of_map hc (fun _ => rfl) ?_, ?_, nofun, nofun⟩
    · rw [← hid]
      exact LinkOnly.refl _
    · intro g' code' he
      cases he
      rfl
  | noGrade =>
    refine ⟨rejectAs .noGrade c, settledInto_of_map hc (fun _ => rfl) ?_, nofun, fun _ => rfl, nofun⟩
    rw [← hid]
    exact LinkOnly.refl _
  | suspended e f =>
    refine ⟨rejectAs .referralExpired { c with referralCount := countUpTo 255 c.referralCount },
      settledInto_of_map (f := fun c => rejectAs .referralExpired { c with referralCount := countUpTo 255 c.referralCount }) hc (fun _ => rfl)
        (offer_linkOnly _ _), nofun, nofun, fun e' f' _ => ⟨?_, rfl⟩⟩
    rw [countUpTo_eq]

/-- The state in which cutting id's resumption k is run: the path is idle, no other resumption of the cutting waits, and the run in progress of another
cutting has written its result (R110). -/
structure ResumptionTaken (id : CuttingId) (s u : State) : Prop where
  only : GradingOnly s u
  idle : u.grade.run = none
  queue : ∀ y ∈ u.grade.queue, y.id ≠ id
  found : findCutting u id = findCutting s id
  written : ∀ y o, s.grade.run = some y → y.id ≠ id → findCutting s y.id = some o →
    RunWritten s u o (resumeRun s.recipe.banks[o.bank] o y.context y.result)

theorem finishRun_grade {s : State} {r : Resumption} (h : s.grade.run = some r) :
    (finishRun s).grade = { run := none, queue := s.grade.queue } := by
  cases hc : findCutting s r.id with
  | none => rw [finishRun_gone h hc]
  | some c => rw [finishRun_writes h hc, writeRun_grade]

/-- The run in progress of another cutting ends with its result written. -/
theorem finishRun_taken {s : State} {id : CuttingId} {r : Resumption} (h : s.grade.run = some r) (hr : r.id ≠ id) :
    findCutting (finishRun s) id = findCutting s id ∧ ∀ o, findCutting s r.id = some o →
      RunWritten s (finishRun s) o (resumeRun s.recipe.banks[o.bank] o r.context r.result) := by
  cases hc : findCutting s r.id with
  | none =>
    rw [finishRun_gone h hc]
    refine ⟨rfl, fun o ho => ?_⟩
    contradiction
  | some c =>
    have hid := findCutting_id hc
    have hne : id ≠ c.id := by rw [hid]; exact hr.symm
    rw [← hid] at hc
    have hidle : findCutting { s with grade := { s.grade with run := none } } c.id = some c := hc
    rw [finishRun_writes h (hid ▸ hc)]
    refine ⟨(writeRun_others c _ { s with grade := { s.grade with run := none } } hne).trans rfl, fun o ho => ?_⟩
    obtain rfl := Option.some.inj ho
    exact writeRun_written _ hidle rfl

theorem mem_filter_ids {l : List Resumption} {id : CuttingId} : ∀ y ∈ l.filter (fun y => decide (y.id ≠ id)), y.id ≠ id := fun y hy => by
  simpa using (List.mem_filter.mp hy).2

/-- The settling of a RESUMING cutting is its resumption, run once the path is its own. -/
theorem settleResuming_runs {s : State} {id : CuttingId} {k : Resumption} (hk : k.id = id)
    (h : s.grade.run = some k ∧ (∀ x ∈ s.grade.queue, x.id ≠ id) ∨
      (∀ x, s.grade.run = some x → x.id ≠ id) ∧ s.grade.queue.find? (fun x => decide (x.id = id)) = some k) :
    ∃ u, settleResuming id s = beginResumption (settleRun k u) ∧ ResumptionTaken id s u := by
  unfold settleResuming
  obtain ⟨hrun, hqueue⟩ | ⟨hother, hfind⟩ := h
  · rw [hrun]
    dsimp only
    rw [if_pos hk]
    refine ⟨_, rfl, setGrade_gradingOnly _ s, rfl, hqueue, rfl, fun y o hy hne _ => ?_⟩
    rw [hrun] at hy
    cases hy
    exact absurd hk hne
  · cases hrun : s.grade.run with
    | none =>
      dsimp only
      rw [hfind]
      refine ⟨_, rfl, setGrade_gradingOnly _ s, hrun, mem_filter_ids, rfl, fun y o hy _ _ => ?_⟩
      rw [hrun] at hy
      cases hy
    | some r =>
      have hr := hother r hrun
      have hgrade := finishRun_grade hrun
      have honly := finishRun_gradingOnly s
      obtain ⟨hfound, hwritten⟩ := finishRun_taken hrun hr
      dsimp only
      rw [if_neg hr]
      generalize finishRun s = v at *
      rw [hgrade]
      dsimp only
      rw [hfind]
      refine ⟨_, rfl, honly.trans (setGrade_gradingOnly _ v), rfl, mem_filter_ids, hfound, fun y o hy _ ho => ?_⟩
      rw [hrun] at hy
      cases hy
      exact hwritten o ho

/-- The path that takes the next resumption names no cutting that neither ran nor waited. -/
theorem beginResumption_ids {s : State} {id : CuttingId} (hr : s.grade.run = none) (hq : ∀ y ∈ s.grade.queue, y.id ≠ id) :
    ∀ y ∈ (beginResumption s).grade.run.toList ++ (beginResumption s).grade.queue, y.id ≠ id := by
  rw [beginResumption_idle hr]
  intro y hy
  refine hq y ?_
  cases hs : s.grade.queue with
  | nil =>
    rw [hs] at hy
    exact hy
  | cons x l =>
    rw [hs] at hy
    simpa using hy

/-! ### The pulse that loads -/

/-- What a load leaves of the state, with the grading settled in u. -/
structure Loaded (s u t : State) (rest : List CuttingId) : Prop where
  motion : t.motion = { s.motion with lug := s.motion.lug + 1 }
  deck : t.chain.deck = rest
  belt : t.belt = s.belt
  recipe : t.recipe = s.recipe
  label : t.label = s.label
  referral : t.referral = u.referral
  grade : t.grade = u.grade

theorem Boards.loaded {s u t : State} {c : Cutting} {id : CuttingId} {rest : List CuttingId} (h : Boards c u t)
    (hu : GradingOnly (lugAdvanced s) u) (hdeck : s.chain.deck = id :: rest) : Loaded s u t rest := by
  have hchain : u.chain = s.chain := by rw [hu.eq]; rfl
  refine ⟨?_, ?_, ?_, ?_, ?_, by rw [h.eq], by rw [h.eq]⟩
  · rw [h.eq]
    show u.motion = _
    rw [hu.eq]
    rfl
  · rw [h.eq]
    show u.chain.deck.drop 1 = rest
    rw [hchain, hdeck]
    rfl
  · rw [h.eq]
    show u.belt = _
    rw [hu.eq]
    rfl
  · rw [h.eq]
    show u.recipe = _
    rw [hu.eq]
    rfl
  · rw [h.eq]
    show u.label = _
    rw [hu.eq]
    rfl

theorem Boards.boardedFor {s u t : State} {c : Cutting} (h : Boards c u t) (hu : GradingOnly (lugAdvanced s) u) :
    BoardedFor s t c (chooseDest c u).1 (chooseDest c u).2.1 := by
  have hlug : u.motion.lug = s.motion.lug + 1 := by rw [hu.eq]; rfl
  unfold BoardedFor
  rw [h.found, hlug]
  rfl

theorem Boards.destFor {s u t : State} {c : Cutting} {g : Nat} (h : Boards c u t) (hu : GradingOnly (lugAdvanced s) u)
    (hg : c.grade = some (.index g)) : DestFor s t c g (chooseDest c u).1 (chooseDest c u).2.1 :=
  chooseDest_index hg (by rw [hu.eq]; rfl) (by rw [hu.eq]; rfl) h.bundles

/-- A cutting with a reject reason boards for RETURN and the bins stay. -/
theorem Boards.rejected {s u t : State} {c : Cutting} {x : RejectReason} (h : Boards c u t) (hu : GradingOnly (lugAdvanced s) u)
    (hg : c.grade = some .reject) (hx : c.rejectReason = some x) :
    (chooseDest c u).1 = .toReturn ∧ (chooseDest c u).2.1 = some x.toReturn ∧ t.bundles = s.bundles := by
  have hd := chooseDest_reject (s := u) hg hx
  have hb := h.bundles
  rw [hd] at hb ⊢
  refine ⟨rfl, rfl, hb.trans ?_⟩
  rw [hu.eq]
  rfl

/-- The state in which the tenoner has found no cutting under PRESENT (R140). -/
theorem logFault_lugAdvanced (s : State) :
    lugAdvanced (logFault .chain 2 none .none (s.motion.lug + 1) s) = logFault .chain 2 none .none (s.motion.lug + 1) (lugAdvanced s) := by
  cases h : (s.link.record .chain).first with
  | none => rw [logFault_of_empty h, logFault_of_empty (s := lugAdvanced s) h]; rfl
  | some f => rw [logFault_of_held h, logFault_of_held (s := lugAdvanced s) h]; rfl

theorem sampleTenoner_stray {s : State} (h : lugAt s s.config.chain.offTN = none) (lf : Bool) :
    sampleTenoner true lf s = logFault .chain 2 none .none s.motion.lug s := by
  unfold sampleTenoner
  rw [h]
  rfl

theorem sampleTenoner_absent {s : State} (h : lugAt s s.config.chain.offTN = none) (lf : Bool) : sampleTenoner false lf s = s := by
  unfold sampleTenoner
  rw [h]
  rfl

/-- PRESENT with no cutting at the tenoner logs its fault, and the pulse goes on as with PRESENT low (R140). -/
theorem pulse_stray {s : State} (hreset : s.inReset = false) (hwin : ∀ b : Bin, s.chain.windows[b] = none)
    (hat : lugAt (lugAdvanced s) s.config.chain.offTN = none) (lf : Bool) :
    exec (.lugPulse true lf) s = exec (.lugPulse false lf) (logFault .chain 2 none .none (s.motion.lug + 1) s) := by
  have hlog := logFault_linkOnly .chain 2 none .none (s.motion.lug + 1) s
  have hcommute := logFault_lugAdvanced s
  have hclose : allBins.foldl closeLanding (lugAdvanced s) = lugAdvanced s := closeLandings_none hwin
  have hstray : sampleTenoner true lf (lugAdvanced s) = logFault .chain 2 none .none (s.motion.lug + 1) (lugAdvanced s) :=
    sampleTenoner_stray hat lf
  rw [← hcommute] at hstray
  rw [exec_lugPulse true lf hreset]
  show Host.Outcome.next (loadNext (chainEnd (allBins.foldl fireDrop (sampleTenoner true lf (allBins.foldl closeLanding (lugAdvanced s)))))) = _
  rw [hclose, hstray]
  generalize logFault .chain 2 none .none (s.motion.lug + 1) s = v at *
  have hreset' : v.inReset = false := by rw [hlog.eq]; exact hreset
  have hclose' : allBins.foldl closeLanding (lugAdvanced v) = lugAdvanced v := by
    refine closeLandings_none fun b => ?_
    rw [hlog.eq]
    exact hwin b
  have hat' : lugAt (lugAdvanced v) (lugAdvanced v).config.chain.offTN = none := by
    rw [hlog.eq]
    exact hat
  rw [exec_lugPulse false lf hreset']
  show _ = Host.Outcome.next (loadNext (chainEnd (allBins.foldl fireDrop (sampleTenoner false lf (allBins.foldl closeLanding (lugAdvanced v))))))
  rw [hclose', sampleTenoner_absent hat']

/-- On an idle chain with an empty deck the fault is all there is (R140). -/
theorem pulse_stray_idle {s : State} (hreset : s.inReset = false) (hidle : ChainIdle s) (hdeck : s.chain.deck = []) (lf : Bool) :
    exec (.lugPulse true lf) s = .next (logFault .chain 2 none .none (s.motion.lug + 1) (lugAdvanced s)) := by
  obtain ⟨hocc, hwin⟩ := hidle
  have hnone : ∀ off, NoneAt (lugAdvanced s) off := chainIdle_noneAt (s := lugAdvanced s) hocc
  have hlog := logFault_linkOnly .chain 2 none .none (s.motion.lug + 1) (lugAdvanced s)
  have hclose : allBins.foldl closeLanding (lugAdvanced s) = lugAdvanced s := closeLandings_none hwin
  have hstray : sampleTenoner true lf (lugAdvanced s) = logFault .chain 2 none .none (s.motion.lug + 1) (lugAdvanced s) :=
    sampleTenoner_stray (lugAt_of_none (hnone _)) lf
  rw [exec_lugPulse true lf hreset]
  show Host.Outcome.next (loadNext (chainEnd (allBins.foldl fireDrop (sampleTenoner true lf (allBins.foldl closeLanding (lugAdvanced s)))))) = _
  rw [hclose, hstray]
  have hnone' : ∀ off, NoneAt (logFault .chain 2 none .none (s.motion.lug + 1) (lugAdvanced s)) off := fun off => by
    rw [hlog.eq]
    exact hnone off
  have hdeck' : (logFault .chain 2 none .none (s.motion.lug + 1) (lugAdvanced s)).chain.deck = [] := by
    rw [hlog.chain]
    exact hdeck
  rw [chainRest_none hdeck' (hnone' _) fun b => hnone' _]

section
variable {s : State} {id : CuttingId} {rest : List CuttingId} {c : Cutting} (hreset : s.inReset = false) (hidle : ChainIdle s)
  (hdeck : s.chain.deck = id :: rest) (hc : findCutting s id = some c) (lf : Bool)
include hreset hidle hdeck hc

/-- The load of a GRADED cutting. -/
theorem load_graded (hg : c.gradeStatus = .graded) :
    ∃ t, exec (.lugPulse false lf) s = .next t ∧ Boards c (lugAdvanced s) t ∧ Loaded s (lugAdvanced s) t rest := by
  obtain ⟨t, hexec, hb⟩ := pulse_boards (lf := lf) hreset hidle hdeck (settleGrading_graded (s := lugAdvanced s) hc hg) hc
  exact ⟨t, hexec, hb, hb.loaded (GradingOnly.refl _) hdeck⟩

/-- The load of a REFERRED cutting, whose referral expires. -/
theorem load_referred (hg : c.gradeStatus = .referred) :
    ∃ t, exec (.lugPulse false lf) s = .next t ∧ Boards (rejectAs .referralExpired c) (promoteAll (expiredAt id (lugAdvanced s))) t :=
  pulse_boards (lf := lf) hreset hidle hdeck (settleGrading_referred (s := lugAdvanced s) hc hg) (expired_found (s := lugAdvanced s) hc)

/-- The load of a RESUMING cutting, whose resumption is run. -/
theorem load_resuming (hg : c.gradeStatus = .resuming) {k : Resumption} (hk : k.id = id)
    (h : s.grade.run = some k ∧ (∀ x ∈ s.grade.queue, x.id ≠ id) ∨
      (∀ x, s.grade.run = some x → x.id ≠ id) ∧ s.grade.queue.find? (fun x => decide (x.id = id)) = some k) :
    ∃ t u x, exec (.lugPulse false lf) s = .next t ∧ Boards x (beginResumption (settleRun k u)) t ∧ ResumptionTaken id (lugAdvanced s) u ∧
      SettledInto k x u (settleRun k u) ∧
      (∀ g code, resumeRun s.recipe.banks[c.bank] c k.context k.result = .graded g code → x = gradeAs g code c) ∧
      (resumeRun s.recipe.banks[c.bank] c k.context k.result = .noGrade → x = rejectAs .noGrade c) ∧
      ∀ e f, resumeRun s.recipe.banks[c.bank] c k.context k.result = .suspended e f →
        x = rejectAs .referralExpired { c with referralCount := min 255 (c.referralCount + 1) } ∧
          (settleRun k u).link = u.link.offer (.referralEnd 0 k.id .expired .none u.link.clock) := by
  obtain ⟨u, hsettle, htaken⟩ := settleResuming_runs (s := lugAdvanced s) hk h
  have hcu : findCutting u k.id = some c := by
    rw [hk, htaken.found]
    exact hc
  obtain ⟨x, hx, hgraded, hno, hsusp⟩ := settleRun_settles hcu
  have hrecipe : u.recipe = s.recipe := by rw [htaken.only.eq]; rfl
  rw [hrecipe] at hgraded hno hsusp
  have hfound : findCutting (beginResumption (settleRun k u)) id = some x := by
    rw [← hk, ← hx.found]
    unfold beginResumption
    split <;> rfl
  obtain ⟨t, hexec, hb⟩ := pulse_boards (lf := lf) hreset hidle hdeck
    ((settleGrading_resuming (s := lugAdvanced s) hc hg).trans hsettle) hfound
  exact ⟨t, u, x, hexec, hb, htaken, hx, hgraded, hno, hsusp⟩

end

end Sys2Proof.Machine

open Sys2Proof Sys2Proof.Machine

/-- Settles O38: on an idle chain a pulse is the settling of the head's grading, its choice of a destination and its boarding, by the head's grading
status. -/
theorem lugPulseLoadsTheHeadOfTheDeck : Obligations.LugPulseLoadsTheHeadOfTheDeck := by
  unfold Obligations.LugPulseLoadsTheHeadOfTheDeck
  refine ⟨fun lf s id rest c hreset hidle hdeck hc => ⟨fun hg => ?_, fun hg => ?_, fun k hg hk h => ?_⟩,
    fun lf s hreset hwin hat => pulse_stray hreset hwin hat lf, fun lf s hreset hidle hdeck => pulse_stray_idle hreset hidle hdeck lf⟩
  · obtain ⟨t, hexec, hb, hl⟩ := load_graded hreset hidle hdeck hc lf hg
    have hu := GradingOnly.refl (lugAdvanced s)
    exact ⟨t, _, _, hexec, hl.motion, hl.deck, hb.boardedFor hu, fun x hr hx => hb.rejected hu hr hx, fun g hgr => hb.destFor hu hgr,
      hl.belt, hl.referral, hl.recipe, hl.label⟩
  · obtain ⟨t, hexec, hb⟩ := load_referred hreset hidle hdeck hc lf hg
    have hu : GradingOnly (lugAdvanced s) (promoteAll (expiredAt id (lugAdvanced s))) := by
      rw [← settleGrading_referred (s := lugAdvanced s) hc hg]
      exact settleGrading_gradingOnly id _
    have hl := hb.loaded hu hdeck
    have hboard := hb.boardedFor hu
    obtain ⟨hd, hwhy, hbins⟩ := hb.rejected hu rfl rfl
    rw [hd, hwhy] at hboard
    have hends : ∀ tag st, ReferralExpires id tag st (lugAdvanced s) (promoteAll (expiredAt id (lugAdvanced s))) →
        (∀ x ∈ t.referral.outstanding ++ t.referral.waiting, x.id ≠ id) ∧
          ∃ more, t.link.tx = (s.link.offer (.referralEnd tag id .expired st s.link.clock)).tx ++ more := fun tag st he => by
      rw [hl.referral]
      obtain ⟨ns, hns⟩ := (he.link.trans hb.link).tx
      exact ⟨he.gone, _, hns⟩
    have hgrade : (promoteAll (expiredAt id (lugAdvanced s))).grade = s.grade := by
      rw [(promoteAll_referralsOnly _).eq]
      show (endReferral id .expired (lugAdvanced s)).grade = s.grade
      rw [(endReferral_referralsOnly id _ _).eq]
      rfl
    refine ⟨t, hexec, hl.motion, hl.deck, hboard, fun q hq hw => hends _ _ (expired_outstanding (s := lugAdvanced s) hq hw),
      fun q k u hq hk hunit => ?_, fun q hq hw => hends _ _ (expired_waiting (s := lugAdvanced s) hq hw), hl.belt, hbins, hl.recipe, hl.label,
      hl.grade.trans hgrade⟩
    rw [hl.referral]
    exact expired_referral (s := lugAdvanced s) hq hk hunit
  · obtain ⟨t, u, x, hexec, hb, htaken, hx, hgraded, hno, hsusp⟩ := load_resuming hreset hidle hdeck hc lf hg hk h
    have hu : GradingOnly (lugAdvanced s) (beginResumption (settleRun k u)) :=
      (htaken.only.trans hx.only).trans (beginResumption_gradingOnly _)
    have hl := hb.loaded hu hdeck
    have hxid : x.id = id := hk ▸ findCutting_id hx.found
    refine ⟨t, _, _, x, hexec, hl.motion, hl.deck, hb.boardedFor hu, fun g code he => ?_, fun he => ?_, fun e f he => ?_, ?_, fun y o hy hne ho => ?_,
      hl.belt, hl.recipe, hl.label⟩
    · obtain rfl := hgraded g code he
      exact ⟨rfl, hb.destFor hu rfl⟩
    · obtain rfl := hno he
      exact ⟨rfl, hb.rejected hu rfl rfl⟩
    · obtain ⟨rfl, hlink⟩ := hsusp e f he
      obtain ⟨hd, hwhy, hbins⟩ := hb.rejected hu rfl rfl
      refine ⟨rfl, hd, hwhy, hbins, fun hm hroom => ?_⟩
      have hclock : u.link.clock = s.link.clock := htaken.only.link.clock
      have hmask : u.link.mask = s.link.mask := htaken.only.link.mask
      rw [← hmask] at hm
      rw [← hclock, ← hk]
      refine LinkPort.mem_offer hm ?_ hroom
      rw [← hlink]
      exact (beginResumption_gradingOnly _).link.trans hb.link
    · rw [hl.grade]
      exact beginResumption_ids (by rw [hx.grade]; exact htaken.idle) (by rw [hx.grade]; exact htaken.queue)
    · refine (htaken.written y o hy hne ho).congr ?_
      have hoid : o.id ≠ id := by
        rw [findCutting_id ho]
        exact hne
      rw [hb.others o.id (by rw [hxid]; exact hoid)]
      have hbegin : findCutting (beginResumption (settleRun k u)) o.id = findCutting (settleRun k u) o.id := by
        unfold beginResumption
        split <;> rfl
      rw [hbegin, hx.others o.id (by rw [hk]; exact hoid)]

end

