-- ==== Sys2Proof/Proofs/PlanWork.lean ====
section
/-! PROOFS. The work of a processing on the cuttings of its plan (R72): their allocation, their features and their first runs. -/

namespace Sys2Proof.Machine

/-! ### The allocations (R72, R129) -/

section
variable {s : State} (id : CuttingId) (nominal cls start : Nat) (k : BankId)

theorem allocate_cuttings (h : freeRecords s ≠ 0) : (allocate id nominal cls start k s).cuttings = s.cuttings ++
    [newCutting (lowestFree (s.cuttings.map Cutting.slot) Config.cuttingCapacity 0) id nominal cls start k] := by
  unfold allocate
  rw [if_neg h]
  dsimp only
  split <;> rfl

/-- A record in the table is found as before an allocation. -/
theorem findCutting_allocate_kept {i : CuttingId} {c : Cutting} (h : findCutting s i = some c) :
    findCutting (allocate id nominal cls start k s) i = some c := by
  by_cases hf : freeRecords s = 0
  · unfold allocate
    rw [if_pos hf]
    exact h
  · unfold findCutting at h ⊢
    rw [allocate_cuttings id nominal cls start k hf, List.find?_append, h]
    rfl

/-- An allocation adds no other cutting's record. -/
theorem findCutting_allocate_other {i : CuttingId} (h : findCutting s i = none) (hi : i ≠ id) :
    findCutting (allocate id nominal cls start k s) i = none := by
  by_cases hf : freeRecords s = 0
  · unfold allocate
    rw [if_pos hf]
    exact h
  · unfold findCutting at h ⊢
    rw [allocate_cuttings id nominal cls start k hf, List.find?_append, h]
    have hne : (newCutting (lowestFree (s.cuttings.map Cutting.slot) Config.cuttingCapacity 0) id nominal cls start k).id ≠ i := hi.symm
    simp [hne]

/-- With a record free the cutting has one. -/
theorem findCutting_allocate_new (h : findCutting s id = none) (hf : freeRecords s ≠ 0) :
    findCutting (allocate id nominal cls start k s) id =
      some (newCutting (lowestFree (s.cuttings.map Cutting.slot) Config.cuttingCapacity 0) id nominal cls start k) := by
  unfold findCutting at h ⊢
  rw [allocate_cuttings id nominal cls start k hf, List.find?_append, h]
  have he : (newCutting (lowestFree (s.cuttings.map Cutting.slot) Config.cuttingCapacity 0) id nominal cls start k).id = id := rfl
  simp [he]

theorem freeRecords_allocate : freeRecords s ≤ freeRecords (allocate id nominal cls start k s) + 1 := by
  by_cases hf : freeRecords s = 0
  · rw [hf]
    exact Nat.zero_le _
  · have hlen : (allocate id nominal cls start k s).cuttings.length = s.cuttings.length + 1 := by
      rw [allocate_cuttings id nominal cls start k hf]
      simp
    unfold freeRecords
    rw [hlen]
    omega

end

/-- The event of one allocation. -/
theorem event_allocate_cuttings (id : CuttingId) (nominal cls start : Nat) (k : BankId) (s : State) :
    (event (allocate id nominal cls start k) s).cuttings = (allocate id nominal cls start k s).cuttings := by
  rw [event_allocate, (lineNote_linkOnly _ _).cuttings]

theorem allocateAll_cons (r : Strip) (p : PlannedCutting) (i : Nat) (l : List (PlannedCutting × Nat)) (s : State) :
    allocateAll r ((p, i) :: l) s =
      allocateAll r l (event (allocate ⟨r.number, i⟩ p.nominal p.cls p.start.toNat r.bank) s) := rfl

theorem allocateAll_kept (r : Strip) (l : List (PlannedCutting × Nat)) {s : State} {i : CuttingId} {c : Cutting}
    (h : findCutting s i = some c) : findCutting (allocateAll r l s) i = some c := by
  induction l generalizing s with
  | nil => exact h
  | cons x l ih =>
    obtain ⟨p, j⟩ := x
    rw [allocateAll_cons]
    refine ih ?_
    have hk := findCutting_allocate_kept ⟨r.number, j⟩ p.nominal p.cls p.start.toNat r.bank h
    unfold findCutting at hk ⊢
    rw [event_allocate_cuttings]
    exact hk

/-- With a record free for each, every cutting of the plan has one, as R72 allocates it. -/
theorem allocateAll_allocates (r : Strip) {l : List (PlannedCutting × Nat)} {s : State} {p : PlannedCutting} {i : Nat}
    (hl : l.length ≤ freeRecords s) (hn : (l.map Prod.snd).Nodup) (hp : (p, i) ∈ l) (hnone : findCutting s ⟨r.number, i⟩ = none) :
    ∃ c, findCutting (allocateAll r l s) ⟨r.number, i⟩ = some c ∧ RecordOf r.bank p c := by
  induction l generalizing s with
  | nil => cases hp
  | cons x l ih =>
    obtain ⟨q, j⟩ := x
    rw [allocateAll_cons]
    obtain ⟨hj, hn⟩ := List.nodup_cons.mp hn
    have hcut := event_allocate_cuttings ⟨r.number, j⟩ q.nominal q.cls q.start.toNat r.bank s
    have hfree := freeRecords_allocate (s := s) ⟨r.number, j⟩ q.nominal q.cls q.start.toNat r.bank
    have hfind : ∀ id, findCutting (event (allocate ⟨r.number, j⟩ q.nominal q.cls q.start.toNat r.bank) s) id =
        findCutting (allocate ⟨r.number, j⟩ q.nominal q.cls q.start.toNat r.bank s) id := fun id => by
      unfold findCutting
      rw [hcut]
    obtain he | hmem := List.mem_cons.mp hp
    · obtain ⟨rfl, rfl⟩ := Prod.mk.inj he
      have hroom : freeRecords s ≠ 0 := by
        rw [List.length_cons] at hl
        omega
      exact ⟨_, allocateAll_kept r l ((hfind _).trans (findCutting_allocate_new _ _ _ _ _ hnone hroom)), rfl, rfl, rfl, rfl, rfl⟩
    · refine ih ?_ hn hmem ?_
      · rw [List.length_cons] at hl
        unfold freeRecords at hfree hl ⊢
        rw [hcut]
        omega
      · rw [hfind]
        refine findCutting_allocate_other _ _ _ _ _ hnone fun h => hj ?_
        obtain rfl : i = j := congrArg CuttingId.index h
        exact List.mem_map.mpr ⟨_, hmem, rfl⟩

/-! ### The features (R45) -/

/-- The parts of the state that the reduction of a cutting's features reads. -/
structure FeaturesKept (s t : State) : Prop where
  config : t.config = s.config
  profile : t.profile = s.profile
  cut : ∀ k : BankId, t.recipe.banks[k].cut = s.recipe.banks[k].cut

theorem FeaturesKept.refl (s : State) : FeaturesKept s s := ⟨rfl, rfl, fun _ => rfl⟩

theorem inSpanFrom_congr {s t : State} (h : t.config = s.config) (a b i : Nat) (l : List PassSlot) :
    inSpanFrom t a b i l = inSpanFrom s a b i l := by
  induction l generalizing i with
  | nil => rfl
  | cons p l ih =>
    unfold inSpanFrom passMm
    rw [h, ih]

theorem reduceFeatures_congr {s t : State} (h : FeaturesKept s t) (r : Strip) (sl : List PassSlot) {c d : Cutting}
    (hn : d.nominal = c.nominal) (hc : d.cls = c.cls) (hs : d.spanStart = c.spanStart) (hb : d.bank = c.bank) (hi : d.id = c.id) :
    reduceFeatures t r sl d = reduceFeatures s r sl c := by
  have hzone : zoneMm t = zoneMm s := by
    funext z
    unfold zoneMm passMm
    rw [h.config]
  have hbank : ∀ j k : BankId, j = k → t.recipe.banks[j].cut = s.recipe.banks[k].cut := by
    rintro j _ rfl
    exact h.cut j
  have hcut := hbank d.bank c.bank hb
  simp only [reduceFeatures, spanEnd, hzone, h.config, h.profile, hcut, hn, hc, hs, hi, inSpanFrom_congr h.config]

/-- A cutting's record with its features reduced. -/
def withFeatures (s : State) (r : Strip) (sl : List PassSlot) (c : Cutting) : Cutting := { c with features := reduceFeatures s r sl c }

theorem writeFeatures_kept (r : Strip) (sl : List PassSlot) (s : State) (i : Nat) : FeaturesKept s (writeFeatures r sl s i) :=
  ⟨rfl, rfl, fun _ => rfl⟩

theorem findCutting_writeFeatures (r : Strip) (sl : List PassSlot) (s : State) (i : Nat) (id : CuttingId) :
    findCutting (writeFeatures r sl s i) id =
      if id = ⟨r.number, i⟩ then (findCutting s id).map (withFeatures s r sl) else findCutting s id :=
  findCutting_mapCutting id ⟨r.number, i⟩ (f := withFeatures s r sl) s (fun _ => rfl)

/-- The features of a list of cuttings of the strip are written into each of their records. -/
theorem writeFeatures_all (r : Strip) (sl : List PassSlot) {l : List Nat} {s u : State} (hu : FeaturesKept s u) {i : Nat} (hi : i ∈ l)
    {c : Cutting} (hc : findCutting u ⟨r.number, i⟩ = some c) :
    findCutting (l.foldl (writeFeatures r sl) u) ⟨r.number, i⟩ = some (withFeatures s r sl c) := by
  have hsame : ∀ (v : State), FeaturesKept s v → withFeatures v r sl = withFeatures s r sl := fun v hv => by
    funext x
    unfold withFeatures
    rw [reduceFeatures_congr hv r sl rfl rfl rfl rfl rfl]
  have hkept : ∀ (l : List Nat) (v : State), FeaturesKept s v → findCutting v ⟨r.number, i⟩ = some (withFeatures s r sl c) →
      findCutting (l.foldl (writeFeatures r sl) v) ⟨r.number, i⟩ = some (withFeatures s r sl c) := by
    intro l
    induction l with
    | nil => exact fun _ _ h => h
    | cons j l ih =>
      intro v hv h
      have hw := writeFeatures_kept r sl v j
      refine ih _ ⟨hw.config.trans hv.config, hw.profile.trans hv.profile, fun k => (hw.cut k).trans (hv.cut k)⟩ ?_
      rw [findCutting_writeFeatures, hsame v hv, h]
      split
      · exact congrArg (fun f => some { c with features := f }) (reduceFeatures_congr (FeaturesKept.refl s) r sl rfl rfl rfl rfl rfl)
      · rfl
  induction l generalizing u with
  | nil => cases hi
  | cons j l ih =>
    have hw := writeFeatures_kept r sl u j
    have hv : FeaturesKept s (writeFeatures r sl u j) :=
      ⟨hw.config.trans hu.config, hw.profile.trans hu.profile, fun k => (hw.cut k).trans (hu.cut k)⟩
    by_cases hj : i = j
    · subst hj
      refine hkept l _ hv ?_
      rw [findCutting_writeFeatures, if_pos rfl, hc, hsame u hu]
      rfl
    · refine ih hv ((List.mem_cons.mp hi).resolve_left hj) ?_
      rw [findCutting_writeFeatures, if_neg fun h => hj (congrArg CuttingId.index h), hc]

/-! ### The first runs (R104, R106 to R108) -/

theorem runTests_congr {b b' : Bank} (h : b'.tests = b.tests) (fs : Vector (Option Int) 14) (l : List Nat) (p q : Bool) :
    runTests b' fs l p q = runTests b fs l p q := by
  induction l generalizing p q with
  | nil => rfl
  | cons i l ih =>
    unfold runTests poolEntry
    rw [h]
    simp only [ih]

theorem runGrades_congr {b b' : Bank} (h : b'.tests = b.tests) (fs : Vector (Option Int) 14) (l : List GradeEntry) (g : Nat) :
    runGrades b' fs l g = runGrades b fs l g := by
  induction l generalizing g with
  | nil => rfl
  | cons e l ih =>
    unfold runGrades
    rw [runTests_congr h, ih]

theorem firstRun_congr {b b' : Bank} (ht : b'.tests = b.tests) (hg : b'.grades = b.grades) {c c' : Cutting} (hf : c'.features = c.features) :
    firstRun b' c' = firstRun b c := by
  unfold firstRun Bank.gradeList
  rw [hg, hf, runGrades_congr ht]

/-- The record d is c with the result of a first run that ended as e says. -/
structure RunRecord (c : Cutting) (e : RunEnd) (d : Cutting) : Prop where
  eq : d = { c with
    gradeStatus := d.gradeStatus
    grade := d.grade
    gradeCode := d.gradeCode
    rejectReason := d.rejectReason
    referralCount := d.referralCount }
  graded : ∀ g code, e = .graded g code →
    d.gradeStatus = .graded ∧ d.grade = some (.index g) ∧ d.gradeCode = some code ∧ d.rejectReason = none
  noGrade : e = .noGrade → d.gradeStatus = .graded ∧ d.grade = some .reject ∧ d.rejectReason = some .noGrade
  suspended : ∀ k f, e = .suspended k f →
    d.gradeStatus = .referred ∨ d.gradeStatus = .graded ∧ d.grade = some .reject ∧ d.rejectReason = some .referralOverflow

theorem RunWritten.record {s t : State} {c : Cutting} {e : RunEnd} (h : RunWritten s t c e) :
    ∃ d, findCutting t c.id = some d ∧ RunRecord c e d := by
  obtain ⟨hg, hn, hs⟩ := h
  cases e with
  | graded g code =>
    refine ⟨_, hg g code rfl, rfl, ?_, nofun, nofun⟩
    rintro g' code' he
    cases he
    exact ⟨rfl, rfl, rfl, rfl⟩
  | noGrade => exact ⟨_, hn rfl, rfl, nofun, fun _ => ⟨rfl, rfl, rfl⟩, nofun⟩
  | suspended k f =>
    obtain ⟨hroom, hfull⟩ := hs k f rfl
    by_cases hr : s.referral.outstanding.length < 4 ∨ s.referral.waiting.length < 4
    · exact ⟨_, hroom hr, rfl, nofun, nofun, fun _ _ _ => .inl rfl⟩
    · push Not at hr
      exact ⟨_, hfull hr.1 hr.2, rfl, nofun, nofun, fun _ _ _ => .inr ⟨rfl, rfl, rfl⟩⟩

theorem planningRun_written {s : State} {c : Cutting} (h : findCutting s c.id = some c) :
    ∃ d, findCutting (planningRun c.id s) c.id = some d ∧ RunRecord c (firstRun s.recipe.banks[c.bank] c) d := by
  unfold planningRun
  rw [h]
  exact (writeRun_written (s := s) (firstRun s.recipe.banks[c.bank] c) h rfl).record

theorem planningRun_others {s : State} {id i : CuttingId} (h : i ≠ id) : findCutting (planningRun id s) i = findCutting s i := by
  unfold planningRun
  split
  · rfl
  · rename_i c hc
    exact writeRun_others c _ s (by rw [findCutting_id hc]; exact h)

theorem planningRun_recipe (id : CuttingId) (s : State) : (planningRun id s).recipe = s.recipe := by
  rw [(planningRun_gradingOnly id s).eq]

theorem planningRuns_others {l : List CuttingId} {s : State} {i : CuttingId} (h : i ∉ l) :
    findCutting (l.foldl (fun s id => planningRun id s) s) i = findCutting s i := by
  induction l generalizing s with
  | nil => rfl
  | cons id l ih =>
    obtain ⟨hne, hl⟩ := not_or.mp (mt List.mem_cons.mpr h)
    rw [List.foldl_cons, ih hl, planningRun_others hne]

/-- Each of several cuttings has its first run, in turn. -/
theorem planningRuns_written {l : List CuttingId} {s : State} {c : Cutting} (hn : l.Nodup) (hl : c.id ∈ l) (h : findCutting s c.id = some c) :
    ∃ d, findCutting (l.foldl (fun s id => planningRun id s) s) c.id = some d ∧ RunRecord c (firstRun s.recipe.banks[c.bank] c) d := by
  induction l generalizing s with
  | nil => cases hl
  | cons id l ih =>
    obtain ⟨hid, hn⟩ := List.nodup_cons.mp hn
    rw [List.foldl_cons]
    by_cases he : c.id = id
    · obtain ⟨d, hd, hr⟩ := planningRun_written h
      refine ⟨d, ?_, hr⟩
      rw [planningRuns_others (by rw [he]; exact hid), ← he, hd]
    · have hrest := ih hn ((List.mem_cons.mp hl).resolve_left he) (by rw [planningRun_others he]; exact h)
      rw [planningRun_recipe] at hrest
      exact hrest

/-! ### The whole of the work (R72) -/

/-- The record of a cutting of the plan with the work on it done: as allocated, with its features and its first run where those were still to come. -/
structure WorkDone (s : State) (r : Strip) (p : PlannedCutting) (i : Nat) (d : Cutting) : Prop where
  record : RecordOf r.bank p d
  features : s.planner.graded = 0 → d.features = reduceFeatures s r (slotsOf s r) d
  graded : s.planner.graded ≤ i → ∃ c, RunRecord c (firstRun s.recipe.banks[r.bank] d) d

theorem BankKept.sections {a b : Bank} (h : BankKept a b) : b.cut = a.cut ∧ b.tests = a.tests ∧ b.grades = a.grades := by
  rw [h.eq]
  exact ⟨rfl, rfl, rfl⟩

theorem allocateAll_sections (r : Strip) (l : List (PlannedCutting × Nat)) (s : State) (k : BankId) :
    (allocateAll r l s).recipe.banks[k].cut = s.recipe.banks[k].cut ∧ (allocateAll r l s).recipe.banks[k].tests = s.recipe.banks[k].tests ∧
      (allocateAll r l s).recipe.banks[k].grades = s.recipe.banks[k].grades :=
  ((allocateAll_sound r l s).bins.banks k).sections

theorem allocateAll_featuresKept (r : Strip) (l : List (PlannedCutting × Nat)) (s : State) : FeaturesKept s (allocateAll r l s) := by
  have h := (allocateAll_planningOnly r l s).eq
  refine ⟨by rw [h], by rw [h], fun k => (allocateAll_sections r l s k).1⟩

theorem writeFeatures_recipe (r : Strip) (sl : List PassSlot) (l : List Nat) (s : State) :
    (l.foldl (writeFeatures r sl) s).recipe = s.recipe := by
  induction l generalizing s with
  | nil => rfl
  | cons i l ih => exact ih _

/-- The cuttings that the work allocates are those of the plan from the first not yet placed on. -/
theorem mem_toAllocate {l : List PlannedCutting} {p : PlannedCutting} {i k : Nat} (hp : l[i]? = some p) (hk : k ≤ i) :
    (p, i) ∈ (l.zipIdx.take (2 * l.length)).drop k := by
  have hi : i < l.length := (List.getElem?_eq_some_iff.mp hp).1
  refine List.mem_iff_getElem?.mpr ⟨i - k, ?_⟩
  rw [List.getElem?_drop, Nat.add_sub_cancel' hk, List.getElem?_take_of_lt (by omega), List.getElem?_zipIdx, hp]
  simp

theorem toAllocate_nodup (l : List PlannedCutting) (w k : Nat) : (((l.zipIdx.take w).drop k).map Prod.snd).Nodup := by
  have hs : ((l.zipIdx.take w).drop k).Sublist l.zipIdx := (List.drop_sublist _ _).trans (List.take_sublist _ _)
  refine (hs.map Prod.snd).nodup ?_
  rw [List.zipIdx_map_snd]
  exact List.nodup_range'

/-- Every cutting of the plan has its record once the allocations are done (R87, R129). -/
theorem plan_allocated {s : State} {r : Strip} {plan : CutPlan} (hplan : plan = cutPlan (planInput s r))
    (hbegun : PlanBegun s r.number r.bank plan.cuttings) {i : Nat} {p : PlannedCutting} (hp : plan.cuttings[i]? = some p) :
    ∃ c, findCutting (allocateAll r ((plan.cuttings.zipIdx.take (2 * plan.cuttings.length)).drop s.planner.placed) s) ⟨r.number, i⟩ = some c ∧
      RecordOf r.bank p c := by
  obtain ⟨hbelow, hplaced⟩ := hbegun
  have hi : i < plan.cuttings.length := (List.getElem?_eq_some_iff.mp hp).1
  by_cases hlt : i < s.planner.placed
  · obtain ⟨c, hc, hr⟩ := hplaced i p hlt hp
    exact ⟨c, allocateAll_kept r _ hc, hr⟩
  · have hle := Nat.not_lt.mp hlt
    have hfree : plan.cuttings.length ≤ recordsForPlan s := by
      have hmax := (planStaysWithinItsLimits (planInput s r)).2.2.1
      rw [← hplan] at hmax
      exact hmax
    unfold recordsForPlan at hfree
    refine allocateAll_allocates r ?_ (toAllocate_nodup _ _ _) (mem_toAllocate hp hle) ?_
    · simp only [List.length_drop, List.length_take, List.length_zipIdx]
      split at hfree <;> omega
    · unfold findCutting
      rw [List.find?_eq_none]
      intro c hc hid
      have hid : c.id = ⟨r.number, i⟩ := by simpa using hid
      have hindex := hbelow c hc (congrArg CuttingId.strip hid)
      rw [hid] at hindex
      exact hlt hindex

theorem idsOf_nodup (n m : Nat) : (idsOf n (List.range m)).Nodup := by
  unfold idsOf
  refine List.Nodup.map (fun a b h => ?_) List.nodup_range
  exact congrArg CuttingId.index h

theorem mem_toRun {n m i k : Nat} (hi : i < m) (hk : k ≤ i) : (⟨n, i⟩ : CuttingId) ∈ ((idsOf n (List.range m)).take (2 * m - m)).drop k := by
  refine List.mem_iff_getElem?.mpr ⟨i - k, ?_⟩
  rw [List.getElem?_drop, Nat.add_sub_cancel' hk, List.getElem?_take_of_lt (by omega)]
  simp [idsOf, List.getElem?_range hi]

theorem le_of_mem_toRun {n m i w k : Nat} (h : (⟨n, i⟩ : CuttingId) ∈ ((idsOf n (List.range m)).take w).drop k) : k ≤ i := by
  obtain ⟨j, hj⟩ := List.mem_iff_getElem?.mp h
  rw [List.getElem?_drop, List.getElem?_take] at hj
  split at hj
  · unfold idsOf at hj
    rw [List.getElem?_map, Option.map_eq_some_iff] at hj
    obtain ⟨a, ha, he⟩ := hj
    obtain ⟨hlt, hq⟩ := List.getElem?_eq_some_iff.mp ha
    rw [List.getElem_range] at hq
    have hai : a = i := congrArg CuttingId.index he
    omega
  · contradiction

theorem RecordOf.run {b : BankId} {p : PlannedCutting} {c d : Cutting} {e : RunEnd} (h : RecordOf b p c) (hr : RunRecord c e d) :
    RecordOf b p d := by
  unfold RecordOf at h ⊢
  rw [hr.eq]
  exact h

/-- Once a processing's work is done every cutting of its plan has its record (R72). -/
theorem workUpTo_done {s : State} {r : Strip} {plan : CutPlan} (hplan : plan = cutPlan (planInput s r))
    (hbegun : PlanBegun s r.number r.bank plan.cuttings) {i : Nat} {p : PlannedCutting} (hp : plan.cuttings[i]? = some p) :
    ∃ d, findCutting (workUpTo r plan (2 * plan.cuttings.length) s) ⟨r.number, i⟩ = some d ∧ WorkDone s r p i d := by
  have hi : i < plan.cuttings.length := (List.getElem?_eq_some_iff.mp hp).1
  obtain ⟨c, hc, hrec⟩ := plan_allocated hplan hbegun hp
  have hkept := allocateAll_featuresKept r ((plan.cuttings.zipIdx.take (2 * plan.cuttings.length)).drop s.planner.placed) s
  have hsections := allocateAll_sections r ((plan.cuttings.zipIdx.take (2 * plan.cuttings.length)).drop s.planner.placed) s r.bank
  unfold workUpTo
  dsimp only
  generalize allocateAll r ((plan.cuttings.zipIdx.take (2 * plan.cuttings.length)).drop s.planner.placed) s = s1 at *
  have hfeat : ∃ c2 s2, (if plan.cuttings.length < 2 * plan.cuttings.length ∧ s.planner.graded = 0 then
      (List.range plan.cuttings.length).foldl (writeFeatures r (slotsOf s r)) s1 else s1) = s2 ∧ s2.recipe = s1.recipe ∧
      findCutting s2 ⟨r.number, i⟩ = some c2 ∧ RecordOf r.bank p c2 ∧
      (s.planner.graded = 0 → c2.features = reduceFeatures s r (slotsOf s r) c2) := by
    by_cases hg : s.planner.graded = 0
    · rw [if_pos ⟨by omega, hg⟩]
      refine ⟨_, _, rfl, writeFeatures_recipe _ _ _ _, writeFeatures_all r _ hkept (List.mem_range.mpr hi) hc, hrec, fun _ => ?_⟩
      exact (reduceFeatures_congr (FeaturesKept.refl s) r _ rfl rfl rfl rfl rfl).symm
    · rw [if_neg fun h => hg h.2]
      exact ⟨c, s1, rfl, rfl, hc, hrec, fun h => absurd h hg⟩
  obtain ⟨c2, s2, hs2, hrecipe, hc2, hrec2, hfeat2⟩ := hfeat
  rw [hs2]
  have hid := findCutting_id hc2
  by_cases hg : s.planner.graded ≤ i
  · obtain ⟨d, hd, hrun⟩ := planningRuns_written (s := s2) (c := c2) (l := ((idsOf r.number (List.range plan.cuttings.length)).take
      (2 * plan.cuttings.length - plan.cuttings.length)).drop s.planner.graded)
      (((List.drop_sublist _ _).trans (List.take_sublist _ _)).nodup (idsOf_nodup _ _)) (by rw [hid]; exact mem_toRun hi hg) (by rw [hid]; exact hc2)
    rw [hid] at hd
    have hdf : d.features = c2.features := by rw [hrun.eq]
    have hfirst : firstRun s2.recipe.banks[c2.bank] c2 = firstRun s.recipe.banks[r.bank] d := by
      have hbank : ∀ j : BankId, j = r.bank → firstRun s2.recipe.banks[j] c2 = firstRun s.recipe.banks[r.bank] d := by
        rintro _ rfl
        refine firstRun_congr ?_ ?_ hdf.symm
        · rw [hrecipe]
          exact hsections.2.1
        · rw [hrecipe]
          exact hsections.2.2
      exact hbank c2.bank hrec2.2.2.2.1
    rw [hfirst] at hrun
    refine ⟨d, hd, hrec2.run hrun, fun h => ?_, fun _ => ⟨c2, hrun⟩⟩
    rw [hdf, hfeat2 h]
    exact (reduceFeatures_congr (FeaturesKept.refl s) r _ (by rw [hrun.eq]) (by rw [hrun.eq]) (by rw [hrun.eq]) (by rw [hrun.eq])
      (by rw [hrun.eq])).symm
  · exact ⟨c2, (planningRuns_others fun hmem => hg (le_of_mem_toRun hmem)).trans hc2, hrec2, hfeat2, fun h => absurd h hg⟩

end Sys2Proof.Machine
end

