-- ==== Sys2Proof/Proofs/Completion.lean ====
section
/-! PROOFS. The completion of a processing (R71, R74, R76): the loading of its lines (R91, R92), and what becomes of its strip and cuttings. -/

namespace Sys2Proof.Machine

/-! ### The loading of the lines (R91, R92) -/

theorem loadLines_congr {s t : State} (hc : t.config = s.config) (hs : t.saw = s.saw) (r : Strip) (l : List PlanLine) :
    loadLines t r l = loadLines s r l := by
  have hline : loadLine t r = loadLine s r := by
    funext x p
    unfold loadLine entryOf drTicks
    rw [hc, hs]
  unfold loadLines
  rw [hline, hs]

/-- What the offering of the lines ps makes of a loading: the entries stay, and each line is taken with its entry or is DROPPED. -/
structure LinesOffered (s : State) (r : Strip) (ps : List (PlanLine × Nat)) (x y : Loading) : Prop where
  entries : ∀ e ∈ x.entries, e ∈ y.entries
  before : ∀ i, i < x.lines.length → y.lines[i]? = x.lines[i]?
  length : y.lines.length = x.lines.length + ps.length
  line : ∀ j l k, ps[j]? = some (l, k) → y.lines[x.lines.length + j]? = some l ∧ entryOf s r k l ∈ y.entries ∨
    y.lines[x.lines.length + j]? = some { l with status := .dropped }

theorem loadLine_cases (s : State) (r : Strip) (x : Loading) (p : PlanLine × Nat) :
    (loadLine s r x p).lines = x.lines ++ [p.1] ∧ (loadLine s r x p).entries = insertEntry (entryOf s r p.2 p.1) x.entries ∨
      (loadLine s r x p).lines = x.lines ++ [{ p.1 with status := .dropped }] ∧ (loadLine s r x p).entries = x.entries := by
  unfold loadLine
  dsimp only
  split
  · exact .inr ⟨rfl, rfl⟩
  · exact .inl ⟨rfl, rfl⟩

theorem loadLine_entries (s : State) (r : Strip) (x : Loading) (p : PlanLine × Nat) : ∀ e ∈ x.entries, e ∈ (loadLine s r x p).entries := by
  intro e he
  obtain ⟨_, h⟩ | ⟨_, h⟩ := loadLine_cases s r x p
  · rw [h]
    exact mem_insertEntry.mpr (.inr he)
  · rw [h]
    exact he

theorem loadLines_offered (s : State) (r : Strip) (ps : List (PlanLine × Nat)) (x : Loading) :
    LinesOffered s r ps x (ps.foldl (loadLine s r) x) := by
  induction ps generalizing x with
  | nil => exact ⟨fun _ h => h, fun _ _ => rfl, rfl, nofun⟩
  | cons p ps ih =>
    have hrest := ih (loadLine s r x p)
    obtain ⟨y, hy⟩ : ∃ y, (loadLine s r x p).lines = x.lines ++ [y] := by
      obtain ⟨h, _⟩ | ⟨h, _⟩ := loadLine_cases s r x p <;> exact ⟨_, h⟩
    have hlen : (loadLine s r x p).lines.length = x.lines.length + 1 := by rw [hy]; simp
    have hat : (ps.foldl (loadLine s r) (loadLine s r x p)).lines[x.lines.length]? = some y := by
      rw [hrest.before _ (by rw [hlen]; exact Nat.lt_succ_self _), hy]
      simp
    rw [List.foldl_cons]
    refine ⟨fun e he => hrest.entries e (loadLine_entries s r x p e he), fun i hi => ?_, ?_, fun j l k hj => ?_⟩
    · rw [hrest.before i (by rw [hlen]; exact Nat.lt_succ_of_lt hi), hy, List.getElem?_append_left hi]
    · rw [hrest.length, hlen, List.length_cons]
      omega
    · cases j with
      | zero =>
        obtain rfl : p = (l, k) := Option.some.inj hj
        rw [Nat.add_zero, hat]
        obtain ⟨h, he⟩ | ⟨h, _⟩ := loadLine_cases s r x (l, k)
        · obtain rfl : y = l := by simpa using hy.symm.trans h
          refine .inl ⟨rfl, hrest.entries _ ?_⟩
          rw [he]
          exact mem_insertEntry.mpr (.inl rfl)
        · obtain rfl : y = { l with status := .dropped } := by simpa using hy.symm.trans h
          exact .inr rfl
      | succ j =>
        have hnext := hrest.line j l k hj
        rw [hlen, Nat.add_assoc, Nat.add_comm 1 j] at hnext
        exact hnext

/-- Each line of a plan is taken with its entry or is DROPPED, and no entry leaves the list (R92). -/
theorem loadLines_lines (s : State) (r : Strip) (l : List PlanLine) : (∀ e ∈ s.saw.entries, e ∈ (loadLines s r l).entries) ∧
    ∀ i p, l[i]? = some p → (loadLines s r l).lines[i]? = some p ∧ entryOf s r i p ∈ (loadLines s r l).entries ∨
      (loadLines s r l).lines[i]? = some { p with status := .dropped } := by
  have h := loadLines_offered s r l.zipIdx { entries := s.saw.entries, lines := [], waste := [] }
  refine ⟨h.entries, fun i p hp => ?_⟩
  have hi := h.line i p i (by rw [List.getElem?_zipIdx, hp]; simp)
  simp only [List.length_nil, Nat.zero_add] at hi
  exact hi

/-! ### The strip and its cuttings at the completion (R74) -/

/-- From s to u, the work done and the planner still to move on, the processing of a strip that stood as r ends: its record is y, or it has left with its
last cutting (R17), and its cuttings ids are freed. -/
structure StripCompleted (r y : Strip) (ids : List CuttingId) (s u : State) : Prop where
  planner : u.planner = s.planner
  travel : u.motion.travel = s.motion.travel
  config : u.config = s.config
  profile : u.profile = s.profile
  deck : u.chain.deck = s.chain.deck
  link : LinkGrows s.link u.link
  cutting : ∀ id, findCutting u id = if id ∈ ids then none else findCutting s id
  strip : ∀ x, findStrip u r.number = some x → x = y
  stays : r.removalTaken = false → findStrip u r.number = some y

theorem FreesWith.findCutting {ids : List CuttingId} {gone : List Nat} {s t : State} (h : FreesWith ids gone s t) (id : CuttingId) :
    findCutting t id = if id ∈ ids then none else Machine.findCutting s id := by
  unfold Machine.findCutting
  rw [h.cuttings, List.find?_filter]
  split
  · rename_i hid
    rw [List.find?_eq_none]
    intro c _
    by_cases hc : c.id = id
    · simp [hc, hid]
    · simp [hc]
  · rename_i hid
    refine congrArg (fun q => List.find? q s.cuttings) (funext fun c => ?_)
    by_cases hc : c.id = id
    · simp [hc, hid]
    · simp [hc]

/-- A strip whose removal position is still to come stays when cuttings of it are freed (R17). -/
theorem FreesWith.strip_stays {ids : List CuttingId} {gone : List Nat} {s t : State} (h : FreesWith ids gone s t) {n : Nat} {r : Strip}
    (hr : Machine.findStrip s n = some r) (ht : r.removalTaken = false) : Machine.findStrip t n = some r := by
  rw [h.findStrip, if_neg fun hn => ?_, hr]
  obtain ⟨_, _, x, hx, hxt⟩ := h.left n hn
  rw [hr] at hx
  cases hx
  rw [ht] at hxt
  cases hxt

/-- The record that a loaded plan makes of its strip (R74). -/
def plannedAs (p : CutPlan) (x : Loading) (r : Strip) : Strip :=
  { r with
    lines := x.lines
    cuttings := idsOf r.number (List.range p.cuttings.length)
    yield := some (yieldOf ((p.cuttings.zipIdx.filter (fun c => !(x.wasteIndices p.cuttings.length).contains c.2)).map (fun c => c.1.nominal))
      (r.length.getD 0))
    flags := { r.flags with starved := r.flags.starved || p.starved }
    state := .planned }

/-- The record of a strip whose plan the fire list refused (R74). -/
def refusedAs (r : Strip) : Strip := { r with state := .unplanned, reason := some .fireListFull }

theorem completeLoaded_completed {s : State} {r : Strip} {p : CutPlan} {x : Loading} (hr : findStrip s r.number = some r)
    (hx : x = loadLines s r p.lines) :
    StripCompleted r (plannedAs p x r) (idsOf r.number (x.wasteIndices p.cuttings.length)) s (completeLoaded r p s) ∧
      (completeLoaded r p s).saw = { s.saw with entries := x.entries } := by
  subst hx
  obtain ⟨gone, hf⟩ := freeCuttings_frees (idsOf r.number ((loadLines s r p.lines).wasteIndices p.cuttings.length))
    (setEntries (loadLines s r p.lines).entries s)
  unfold completeLoaded
  dsimp only
  generalize loadLines s r p.lines = x at *
  have he := event_follows (fun s => writePlan r p x (freeCuttings (idsOf r.number (x.wasteIndices p.cuttings.length)) (setEntries x.entries s))) s
  generalize event (fun s => writePlan r p x (freeCuttings (idsOf r.number (x.wasteIndices p.cuttings.length)) (setEntries x.entries s))) s = t at *
  generalize freeCuttings (idsOf r.number (x.wasteIndices p.cuttings.length)) (setEntries x.entries s) = u at *
  have htrack := hf.tracking
  have hmap : ∀ m, findStrip (writePlan r p x u) m = if m = r.number then (findStrip u m).map (fun t => { t with
      lines := x.lines, cuttings := idsOf r.number (List.range p.cuttings.length),
      yield := some (yieldOf ((p.cuttings.zipIdx.filter (fun c => !(x.wasteIndices p.cuttings.length).contains c.2)).map (fun c => c.1.nominal))
        (r.length.getD 0)), flags := { t.flags with starved := t.flags.starved || p.starved },
      state := .planned }) else findStrip u m := fun m => findStrip_mapStrip m r.number u fun _ => rfl
  refine ⟨⟨?_, ?_, ?_, ?_, ?_, ?_, fun id => ?_, fun z hz => ?_, fun ht => ?_⟩, ?_⟩
  · rw [he.planner]
    exact hf.planner
  · rw [he.travel]
    show u.motion.travel = _
    rw [htrack.eq]
    rfl
  · rw [he.config]
    show u.config = _
    rw [htrack.eq]
    rfl
  · rw [he.profile]
    show u.profile = _
    rw [htrack.eq]
    rfl
  · rw [he.chain]
    show u.chain.deck = _
    rw [hf.chain]
    rfl
  · exact htrack.link.trans he.link
  · rw [he.findCutting]
    exact hf.findCutting id
  · rw [he.findStrip, hmap, if_pos rfl] at hz
    obtain ⟨y, hy, rfl⟩ := Option.map_eq_some_iff.mp hz
    obtain rfl := Option.some.inj (hr.symm.trans (hf.findStrip_some hy))
    rfl
  · rw [he.findStrip, hmap, if_pos rfl, hf.strip_stays (s := setEntries x.entries s) hr ht]
    rfl
  · rw [he.saw]
    exact hf.saw

theorem completeRefused_completed {s : State} {r : Strip} {p : CutPlan} (hr : findStrip s r.number = some r) :
    StripCompleted r (refusedAs r) (idsOf r.number (List.range p.cuttings.length)) s (completeRefused r p s) ∧
      (completeRefused r p s).saw = s.saw ∧
      LinkGrows (s.link.offer (.strip r.number .fireListFull .unplanned s.motion.travel)) (completeRefused r p s).link := by
  obtain ⟨gone, hf⟩ := freeCuttings_frees (idsOf r.number (List.range p.cuttings.length))
    (stripNotice r.number .fireListFull .unplanned
      (mapStrip r.number (fun t => { t with state := .unplanned, reason := some .fireListFull }) s))
  have hmap : ∀ m, findStrip (stripNotice r.number .fireListFull .unplanned
      (mapStrip r.number (fun t => { t with state := .unplanned, reason := some .fireListFull }) s)) m =
      if m = r.number then (findStrip s m).map refusedAs else findStrip s m := fun m =>
    findStrip_mapStrip m r.number (f := refusedAs) s fun _ => rfl
  unfold completeRefused
  have he := event_follows (fun s => freeCuttings (idsOf r.number (List.range p.cuttings.length))
      (stripNotice r.number .fireListFull .unplanned
        (mapStrip r.number (fun t => { t with state := .unplanned, reason := some .fireListFull }) s))) s
  generalize event (fun s => freeCuttings (idsOf r.number (List.range p.cuttings.length))
      (stripNotice r.number .fireListFull .unplanned
        (mapStrip r.number (fun t => { t with state := .unplanned, reason := some .fireListFull }) s))) s = t at *
  generalize freeCuttings (idsOf r.number (List.range p.cuttings.length))
      (stripNotice r.number .fireListFull .unplanned
        (mapStrip r.number (fun t => { t with state := .unplanned, reason := some .fireListFull }) s)) = u at *
  have htrack := hf.tracking
  have hlink := htrack.link.trans he.link
  have hself := hmap r.number
  rw [if_pos rfl, hr] at hself
  refine ⟨⟨?_, ?_, ?_, ?_, ?_, (LinkPort.offer_grows _ s.link).trans hlink, fun id => ?_, fun z hz => ?_, fun ht => ?_⟩, ?_, hlink⟩
  · rw [he.planner]
    exact hf.planner
  · rw [he.travel, htrack.eq]
    rfl
  · rw [he.config, htrack.eq]
    rfl
  · rw [he.profile, htrack.eq]
    rfl
  · rw [he.chain, hf.chain]
    rfl
  · rw [he.findCutting]
    exact hf.findCutting id
  · rw [he.findStrip] at hz
    exact Option.some.inj ((hf.findStrip_some hz).symm.trans hself)
  · rw [he.findStrip]
    exact hf.strip_stays hself ht
  · rw [he.saw]
    exact hf.saw

/-! ### The planner moves on (R71) -/

/-- A cutting of a strip that is not WAITING_PLAN is found as before when the planner takes its next strip. -/
theorem plannerNext_findCutting {v : State} {n : Nat} (h : ∀ r, findStrip v n = some r → r.state ≠ .waitingPlan) {id : CuttingId}
    (hid : id.strip = n) : findCutting (plannerNext v) id = findCutting v id := by
  unfold plannerNext
  split
  · rfl
  · rename_i m rest hq
    by_cases hm : n = m
    · subst hm
      have hb := beginProcessing_idle (s := { v with planner := { v.planner with queue := rest } }) (n := n) h
      rw [hb]
      rfl
    · exact (beginProcessing_othersKept m { v with planner := { v.planner with queue := rest } }).findCutting (by rw [hid]; exact hm)

/-- What PROCESSING_COMPLETE makes of a strip WAITING_PLAN: the processing ends in u, its store returns, and the planner takes the next strip. -/
structure ProcessingEnds (r y : Strip) (ids : List CuttingId) (s u t : State) : Prop where
  queue : t.planner.queue = s.planner.queue.drop 1
  inFlight : t.planner.inFlight = s.planner.queue.head?
  travel : t.motion.travel = s.motion.travel
  config : t.config = s.config
  profile : t.profile = s.profile
  deck : t.chain.deck = s.chain.deck
  saw : t.saw = u.saw
  link : LinkGrows u.link t.link
  cutting : ∀ i, findCutting t ⟨r.number, i⟩ = if (⟨r.number, i⟩ : CuttingId) ∈ ids then none else findCutting s ⟨r.number, i⟩
  strip : ∀ x, findStrip t r.number = some x → x = { y with store := none }
  stays : r.removalTaken = false → findStrip t r.number = some { y with store := none }

theorem freeStore_cuttings (n : Nat) (s : State) : (freeStore n s).cuttings = s.cuttings := by
  cases h : findStrip s n with
  | none => rw [freeStore_none h]
  | some r => rw [freeStore_eq h]

theorem StripCompleted.ends {r y : Strip} {ids : List CuttingId} {s u : State} (h : StripCompleted r y ids s u) (hy : y.state ≠ .waitingPlan) :
    ProcessingEnds r y ids s u (plannerNext (freeStore r.number u)) := by
  have hm := plannerNext_moves (freeStore r.number u)
  have hfree : ∀ n, findStrip (freeStore r.number u) n =
      if n = r.number then (findStrip u n).map (fun x => { x with store := none }) else findStrip u n := fun n => findStrip_freeStore n r.number u
  have heq := hm.eq
  have htrack := (freeStore_trackingOnly r.number u).eq
  have hchain : (freeStore r.number u).chain = u.chain ∧ (freeStore r.number u).saw = u.saw ∧ (freeStore r.number u).planner = u.planner ∧
      (freeStore r.number u).link = u.link := by
    cases hs : findStrip u r.number with
    | none => rw [freeStore_none hs]; exact ⟨rfl, rfl, rfl, rfl⟩
    | some x => rw [freeStore_eq hs]; exact ⟨rfl, rfl, rfl, rfl⟩
  obtain ⟨hchain, hsaw, hplanner, hlink⟩ := hchain
  have hstate : ∀ x, findStrip (freeStore r.number u) r.number = some x → x.state ≠ .waitingPlan := fun x hx => by
    rw [hfree, if_pos rfl] at hx
    obtain ⟨z, hz, rfl⟩ := Option.map_eq_some_iff.mp hx
    rw [h.strip z hz]
    exact hy
  have hcut := fun i => plannerNext_findCutting (id := ⟨r.number, i⟩) hstate rfl
  have hcuttings := freeStore_cuttings r.number u
  have hstrip : ∀ t : State, t.belt = (freeStore r.number u).belt → findStrip t r.number = (findStrip u r.number).map (fun x => { x with store := none }) :=
    fun t ht => by
      have hf := hfree r.number
      rw [if_pos rfl] at hf
      rw [← hf]
      unfold findStrip
      rw [ht]
  generalize freeStore r.number u = v at *
  generalize plannerNext v = t at *
  have hbelt : t.belt = v.belt := by rw [heq]
  refine ⟨?_, ?_, ?_, ?_, ?_, ?_, ?_, ?_, fun i => ?_, fun x hx => ?_, fun ht => ?_⟩
  · rw [hm.queue, hplanner, h.planner]
  · rw [hm.inFlight, hplanner, h.planner]
  · rw [heq]
    show v.motion.travel = _
    rw [htrack]
    exact h.travel
  · rw [heq]
    show v.config = _
    rw [htrack]
    exact h.config
  · rw [heq]
    show v.profile = _
    rw [htrack]
    exact h.profile
  · rw [heq]
    show v.chain.deck = _
    rw [hchain]
    exact h.deck
  · rw [heq]
    exact hsaw
  · rw [← hlink]
    exact hm.link
  · rw [hcut, ← h.cutting]
    unfold findCutting
    rw [hcuttings]
  · rw [hstrip t hbelt] at hx
    obtain ⟨z, hz, rfl⟩ := Option.map_eq_some_iff.mp hx
    rw [h.strip z hz]
  · rw [hstrip t hbelt, h.stays ht]
    rfl

/-! ### The completion, by the room in the fire list (R91) -/

/-- What a processing's work leaves alone of what its completion speaks of (R72). -/
structure WorkFrame (s t : State) : Prop where
  belt : t.belt = s.belt
  saw : t.saw = s.saw
  motion : t.motion = s.motion
  config : t.config = s.config
  profile : t.profile = s.profile
  chain : t.chain = s.chain
  queue : t.planner.queue = s.planner.queue
  link : LinkGrows s.link t.link

theorem workUpTo_frame (r : Strip) (p : CutPlan) (w : Nat) (s : State) : WorkFrame s (workUpTo r p w s) := by
  have h := workUpTo_planningOnly r p w s
  have hp := congrArg Planner.queue (workUpTo_planner r p w s)
  generalize workUpTo r p w s = t at *
  exact ⟨by rw [h.eq], by rw [h.eq], by rw [h.eq], by rw [h.eq], by rw [h.eq], by rw [h.eq], hp, h.link⟩

theorem WorkFrame.findStrip {s t : State} (h : WorkFrame s t) (n : Nat) : Machine.findStrip t n = Machine.findStrip s n := by
  unfold Machine.findStrip
  rw [h.belt]

/-- The state at a completion event, the work done (R74). -/
def workedOff (r : Strip) (p : CutPlan) (s : State) : State := workUpTo r p (2 * p.cuttings.length) s

theorem workedOff_frame (r : Strip) (p : CutPlan) (s : State) : WorkFrame s (workedOff r p s) := workUpTo_frame r p _ s

theorem completeStrip_of_room {s : State} {r : Strip} {p : CutPlan} (hp : p = cutPlan (planInput s r))
    (hroom : p.lines.length ≤ Config.lineCapacity - s.saw.entries.length) :
    completeStrip r s = freeStore r.number (completeLoaded r p (workedOff r p s)) := by
  subst hp
  unfold completeStrip
  exact congrArg (freeStore r.number) (if_pos (decide_eq_true (by rw [(workUpTo_frame r _ _ s).saw]; exact hroom)))

theorem completeStrip_of_full {s : State} {r : Strip} {p : CutPlan} (hp : p = cutPlan (planInput s r))
    (hfull : Config.lineCapacity - s.saw.entries.length < p.lines.length) :
    completeStrip r s = freeStore r.number (completeRefused r p (workedOff r p s)) := by
  subst hp
  unfold completeStrip
  refine congrArg (freeStore r.number) (if_neg fun h => ?_)
  have hle := of_decide_eq_true h
  rw [(workUpTo_frame r _ _ s).saw] at hle
  exact absurd hle (Nat.not_le.mpr hfull)

/-- A plan the fire list has room for is loaded, and the processing ends with its strip PLANNED (R74, R91). -/
theorem completeStrip_loaded {s : State} {r : Strip} {p : CutPlan} {x : Loading} (hr : findStrip s r.number = some r)
    (hp : p = cutPlan (planInput s r)) (hx : x = loadLines s r p.lines) (hroom : p.lines.length ≤ Config.lineCapacity - s.saw.entries.length) :
    ∃ u, u.saw = { s.saw with entries := x.entries } ∧
      ProcessingEnds r (plannedAs p x r) (idsOf r.number (x.wasteIndices p.cuttings.length)) (workedOff r p s) u (plannerNext (completeStrip r s)) := by
  have hw := workedOff_frame r p s
  obtain ⟨hdone, hsaw⟩ := completeLoaded_completed (p := p) (x := x) ((hw.findStrip _).trans hr)
    (hx.trans (loadLines_congr hw.config hw.saw r p.lines).symm)
  rw [completeStrip_of_room hp hroom]
  exact ⟨_, by rw [hsaw, hw.saw], hdone.ends nofun⟩

/-- A plan the fire list has no room for is refused, and the processing ends with its strip UNPLANNED (R74, R91). -/
theorem completeStrip_refused {s : State} {r : Strip} {p : CutPlan} (hr : findStrip s r.number = some r)
    (hp : p = cutPlan (planInput s r)) (hfull : Config.lineCapacity - s.saw.entries.length < p.lines.length) :
    ∃ u, u.saw = s.saw ∧
      LinkGrows ((workedOff r p s).link.offer (.strip r.number .fireListFull .unplanned (workedOff r p s).motion.travel)) u.link ∧
      ProcessingEnds r (refusedAs r) (idsOf r.number (List.range p.cuttings.length)) (workedOff r p s) u (plannerNext (completeStrip r s)) := by
  have hw := workedOff_frame r p s
  obtain ⟨hdone, hsaw, hlink⟩ := completeRefused_completed (p := p) ((hw.findStrip _).trans hr)
  rw [completeStrip_of_full hp hfull]
  exact ⟨_, by rw [hsaw, hw.saw], hlink, hdone.ends nofun⟩

theorem mem_idsOf {n i : Nat} {l : List Nat} : (⟨n, i⟩ : CuttingId) ∈ idsOf n l ↔ i ∈ l := by
  unfold idsOf
  simp

theorem ProcessingEnds.freed {r y : Strip} {l : List Nat} {s u t : State} (h : ProcessingEnds r y (idsOf r.number l) s u t) {i : Nat} (hi : i ∈ l) :
    findCutting t ⟨r.number, i⟩ = none := by
  rw [h.cutting, if_pos (mem_idsOf.mpr hi)]

theorem ProcessingEnds.kept {r y : Strip} {l : List Nat} {s u t : State} (h : ProcessingEnds r y (idsOf r.number l) s u t) {i : Nat} (hi : i ∉ l) :
    findCutting t ⟨r.number, i⟩ = findCutting s ⟨r.number, i⟩ := by
  rw [h.cutting, if_neg fun hid => hi (mem_idsOf.mp hid)]

/-! ### The next strip, and the strip in flight (R71, R76) -/

theorem plannerNext_of_cons {s : State} {m : Nat} {rest : List Nat} (h : s.planner.queue = m :: rest) :
    plannerNext s = beginProcessing m { s with planner := { s.planner with queue := rest } } := by
  unfold plannerNext
  rw [h]

theorem plannerNext_of_nil {s : State} (h : s.planner.queue = []) : plannerNext s = { s with planner := Planner.idle } := by
  unfold plannerNext
  rw [h]

theorem completeProcessing_of_lost {s : State} {n : Nat} {r : Strip} (hn : s.planner.inFlight = some n) (hr : findStrip s n = some r)
    (hs : r.state = .lost) : completeProcessing s = plannerNext s := by
  unfold completeProcessing
  simp only [hn, hr, hs, reduceCtorEq, if_false]

theorem completeProcessing_of_waiting {s : State} {n : Nat} {r : Strip} (hn : s.planner.inFlight = some n) (hr : findStrip s n = some r)
    (hs : r.state = .waitingPlan) : completeProcessing s = plannerNext (completeStrip r s) := by
  unfold completeProcessing
  simp only [hn, hr, hs, if_true]

theorem completeProcessing_of_none {s : State} (hn : s.planner.inFlight = none) : completeProcessing s = s := by
  unfold completeProcessing
  rw [hn]

end Sys2Proof.Machine

open Sys2Proof Sys2Proof.Machine

/-- Settles O29, by the room in the fire list: the work of the processing is done, its lines are loaded or refused, and the planner moves on. -/
theorem processingCompletes : Obligations.ProcessingCompletes := by
  refine ⟨fun s hn => ?_, fun s n r hreset hn hr hs => ⟨fun hq => ?_, fun m rest hq => ?_⟩,
    fun s n r plan x waste hreset hn hr hs hplan hx hwaste => ?_⟩
  · by_cases hreset : s.inReset = true
    · exact exec_inReset hreset rfl
    · rw [exec_processingComplete (Bool.eq_false_of_not_eq_true hreset), completeProcessing_of_none hn]
  · rw [exec_processingComplete hreset, completeProcessing_of_lost hn hr hs, plannerNext_of_nil hq]
  · refine ⟨plannerNext s, by rw [exec_processingComplete hreset, completeProcessing_of_lost hn hr hs], ?_⟩
    rw [plannerNext_of_cons hq]
    have hp := beginProcessing_planningOnly m { s with planner := { s.planner with queue := rest } }
    obtain ⟨hf, hrest⟩ := beginProcessing_planner m { s with planner := { s.planner with queue := rest } }
    generalize beginProcessing m { s with planner := { s.planner with queue := rest } } = t at *
    exact ⟨hf, hrest, by rw [hp.eq], by rw [hp.eq], by rw [hp.eq], by rw [hp.eq], by rw [hp.eq], by rw [hp.eq], hp.others⟩
  · obtain rfl := findStrip_number hr
    have hw := workedOff_frame r plan s
    refine ⟨plannerNext (completeStrip r s), by rw [exec_processingComplete hreset, completeProcessing_of_waiting hn hr hs], ?_⟩
    by_cases hroom : plan.lines.length ≤ Config.lineCapacity - s.saw.entries.length
    · obtain ⟨u, hsaw, h⟩ := completeStrip_loaded hr hplan hx hroom
      obtain ⟨hentries, hlines⟩ := loadLines_lines s r plan.lines
      rw [← hx] at hentries hlines
      subst hwaste
      generalize plannerNext (completeStrip r s) = t at *
      have ht := h.saw.trans hsaw
      refine ⟨h.queue.trans (by rw [hw.queue]), h.inFlight.trans (by rw [hw.queue]), fun z hz => ?_, h.travel.trans (by rw [hw.motion]),
        h.config.trans hw.config, h.profile.trans hw.profile, h.deck.trans (by rw [hw.chain]), fun _ => ⟨ht, ?_, ?_, h.stays, fun i => h.freed,
        fun hbegun i k hk hi => ?_⟩, fun hfull => absurd hroom (Nat.not_le.mpr hfull)⟩
      · rw [h.strip z hz]
        exact ⟨.inl rfl, rfl⟩
      · rw [ht]
        exact hentries
      · rw [ht]
        exact hlines
      · obtain ⟨d, hd, hwork⟩ := workUpTo_done hplan hbegun hk
        refine ⟨d, (h.kept hi).trans hd, hwork.record, hwork.features, fun hg => ?_⟩
        obtain ⟨c, hrun⟩ := hwork.graded hg
        exact ⟨hrun.graded, hrun.noGrade, hrun.suspended⟩
    · have hfull := Nat.not_le.mp hroom
      obtain ⟨u, hsaw, hlink, h⟩ := completeStrip_refused hr hplan hfull
      generalize plannerNext (completeStrip r s) = t at *
      refine ⟨h.queue.trans (by rw [hw.queue]), h.inFlight.trans (by rw [hw.queue]), fun z hz => ?_, h.travel.trans (by rw [hw.motion]),
        h.config.trans hw.config, h.profile.trans hw.profile, h.deck.trans (by rw [hw.chain]), fun hle => absurd hle hroom,
        fun _ => ⟨h.saw.trans hsaw, h.stays, fun hmask hnotices => ?_, fun i hi => h.freed (List.mem_range.mpr hi)⟩⟩
      · rw [h.strip z hz]
        exact ⟨.inr ⟨rfl, rfl⟩, rfl⟩
      · have hgrows := hlink.trans h.link
        rw [hw.motion] at hgrows
        exact LinkPort.mem_offer (by rw [hw.link.mask]; exact hmask) hgrows hnotices

end
